-- ==== Sys2Proof/Word.lean ====
section
/-! DEFINITION. The units the part counts in: bytes of the links, the two lanes and four tracks of a cassette, and one value per lane or per track. -/

namespace Sys2Proof

/-- One byte of a cell, frame, word or message (11, R203). -/
abbrev Byte := BitVec 8

/-- A side of the cassette (00, "Tracks, lanes and the two points"). -/
inductive Lane where
  | a
  | b
  deriving DecidableEq, Repr

/-- A track of the head. Lane A is T1 and T2, lane B is T3 and T4. -/
inductive Track where
  | t1
  | t2
  | t3
  | t4
  deriving DecidableEq, Repr

/-- The other side. -/
def Lane.other : Lane → Lane
  | .a => .b
  | .b => .a

/-- A lane's first track: T1 or T3. -/
def Lane.first : Lane → Track
  | .a => .t1
  | .b => .t3

/-- A lane's second track: T2 or T4. -/
def Lane.second : Lane → Track
  | .a => .t2
  | .b => .t4

/-- The lane a track belongs to. -/
def Track.lane : Track → Lane
  | .t1 | .t2 => .a
  | .t3 | .t4 => .b

/-- One value for each lane. -/
structure PerLane (α : Type) where
  a : α
  b : α
  deriving DecidableEq, Repr

/-- One value for each track. -/
structure PerTrack (α : Type) where
  t1 : α
  t2 : α
  t3 : α
  t4 : α
  deriving DecidableEq, Repr

def PerLane.get {α : Type} (x : PerLane α) : Lane → α
  | .a => x.a
  | .b => x.b

def PerLane.set {α : Type} (x : PerLane α) (l : Lane) (v : α) : PerLane α :=
  match l with
  | .a => { x with a := v }
  | .b => { x with b := v }

def PerTrack.get {α : Type} (x : PerTrack α) : Track → α
  | .t1 => x.t1
  | .t2 => x.t2
  | .t3 => x.t3
  | .t4 => x.t4

def PerTrack.set {α : Type} (x : PerTrack α) (t : Track) (v : α) : PerTrack α :=
  match t with
  | .t1 => { x with t1 := v }
  | .t2 => { x with t2 := v }
  | .t3 => { x with t3 := v }
  | .t4 => { x with t4 := v }

def PerLane.both {α : Type} (v : α) : PerLane α := ⟨v, v⟩

def PerTrack.all {α : Type} (v : α) : PerTrack α := ⟨v, v, v, v⟩

def PerTrack.map {α β : Type} (f : α → β) (x : PerTrack α) : PerTrack β := ⟨f x.t1, f x.t2, f x.t3, f x.t4⟩

end Sys2Proof
end

