-- ==== Sys2Proof/Config.lean ====
section
/-! DEFINITION. The numbers that are fixed in every part: capacities, ranges and constants of the rules. The manual leaves no value free, so there is no opaque constant here. -/

namespace Sys2Proof.Config

/-- Places of one track's ring (01, R10). -/
def ringSize : Nat := 65536
/-- Block stamps kept (01, R11). -/
def stampCount : Nat := 1024
/-- Raw samples in a block (00, "The raw side"). -/
def blockSize : Nat := 64
/-- The production horizon in raw samples (00; 06, R107). -/
def horizon : Nat := 1056
/-- The reach of a lane's taps behind and ahead of its accumulator (01, R12; 06, R117). -/
def reach : Nat := 32
/-- Where a lane's accumulator starts a take: raw index 16 (06, R106). -/
def startIndex : Nat := 16
/-- 1.0 in Q24 (00, "The output side"). -/
def q24 : Nat := 16777216
/-- The greatest tape position (01, R13). -/
def maxPosition : Nat := 16777215
/-- Entries the segment table holds (03, R41). -/
def maxEntries : Nat := 64
/-- Ticks of hysteresis for moving back an entry (03, R53). -/
def backTicks : Nat := 8
/-- Ticks an edit must lie ahead of a moving tape (03, R57). -/
def editMargin : Nat := 64
/-- Entries a lane timeline holds (05, R94). -/
def maxTimeline : Nat := 128
/-- Sample frames a lane FIFO holds (09, R165). -/
def maxFifo : Nat := 1024
/-- Records the dropout log holds (08, R152). -/
def maxLog : Nat := 256
/-- The log count that posts LOG_HIGH (08, R152). -/
def logHigh : Nat := 192
/-- Replies the reply queue holds (11, R191). -/
def maxReplies : Nat := 8
/-- The greatest declared argument length (11, R191). -/
def maxArgs : Nat := 250
/-- Counted events of a tach measurement, C_tach (04, R64, R69). -/
def tachCount : Nat := 16
/-- Raw samples of an azimuth window (07, R122). -/
def windowSize : Nat := 2048
/-- Frames the CLIP flag stays after the last occurrence under AUTO (10, R177). -/
def clipHold : Nat := 4096
/-- Qualifying intervals before PLAYING (02, R24). -/
def qualifyCount : Nat := 32
/-- Microseconds in which STARTING must reach PLAYING (02, R25). -/
def startingLimitUs : Nat := 2000000
/-- Forward ticks of a slip window (02, R36). -/
def slipTicks : Nat := 64
/-- Bytes of a raw frame (11, R203). -/
def rawFrameBytes : Nat := 14
/-- Bytes of a downstream cell (11, R203). -/
def cellBytes : Nat := 8
/-- Message bytes in one message frame (11, R199). -/
def messageChunk : Nat := 18

end Sys2Proof.Config
end

