-- ==== Sys2Proof/Syntax.lean ====
section
/-! DEFINITION. The rows of spec/opcode_table.json: the workstation's commands with their arguments as sent (11, R203), and the events at the part's links, timers and sensors. -/

namespace Sys2Proof

/-- The counter roller's two phase signals (01, R13). -/
inductive Phase where
  | one
  | two
  deriving DecidableEq, Repr

/-- The levels the part finds at a hard reset (01, R13, R16; 02, R40). -/
structure Levels where
  phase1   : Bool
  phase2   : Bool
  leader   : Bool
  cassette : Bool
  deriving DecidableEq, Repr

/-- The eight deck parameters as SET_DECK carries them (02, R20; 11, R203). -/
structure DeckArgs where
  tickRate : BitVec 16
  nc : BitVec 16
  slipThreshold : BitVec 8
  slipCount : BitVec 8
  approach : BitVec 16
  stallTime : BitVec 16
  settleTime : BitVec 16
  leaderLimit : BitVec 16
  deriving DecidableEq, Repr

/-- A lane part as LOAD_SEGMENT carries it, before any check (03, R42; 11, R203). -/
structure PartArgs where
  source : BitVec 8
  fRef : BitVec 24
  c : BitVec 16
  w : BitVec 8
  k : BitVec 8
  slew : BitVec 24
  acquire : BitVec 8
  missCount : BitVec 8
  hold : BitVec 8
  gate : BitVec 24
  azMode : BitVec 8
  fixedOffset : BitVec 16
  theta : BitVec 8
  ka : BitVec 8
  pairing : BitVec 8
  policy : BitVec 8
  depth : BitVec 8
  release : BitVec 8
  onset : BitVec 8
  releaseCount : BitVec 8
  blanking : BitVec 8
  eq : BitVec 8
  deriving DecidableEq, Repr

/-- LOAD_SEGMENT's arguments (03, R46; 11, R203). -/
structure SegmentArgs where
  start : BitVec 24
  label : BitVec 16
  replace : BitVec 8
  presentA : BitVec 8
  presentB : BitVec 8
  partA : PartArgs
  partB : PartArgs
  deriving DecidableEq, Repr

/-- SURVEY's arguments (04, R80; 11, R203). -/
structure SurveyArgs where
  lane : BitVec 8
  source : BitVec 8
  fRef : BitVec 24
  c : BitVec 16
  w : BitVec 8
  span : BitVec 16
  deriving DecidableEq, Repr

/-- SET_POLICY's arguments (10, R182; 11, R203). -/
structure PolicyArgs where
  condition : BitVec 8
  lane : BitVec 8
  policy : BitVec 8
  scope : BitVec 8
  deriving DecidableEq, Repr

/-- One row of the opcode table. A command of the workstation carries its message's tag and its arguments
as the message carries them. -/
inductive Instr where
  | hardReset (levels : Levels)
  | softReset (tag : Byte)
  | identify (tag : Byte)
  | readStatus (tag : Byte)
  | setState (tag target : Byte)
  | lockTables (tag flag : Byte)
  | setRates (tag : Byte) (fr fo : BitVec 24)
  | loadCoeffRow (tag row : Byte) (coeffs : List (BitVec 24))
  | selectBank (tag bank : Byte)
  | setDeck (tag : Byte) (deck : DeckArgs)
  | setPosition (tag : Byte) (position : BitVec 24)
  | wind (tag direction : Byte)
  | seek (tag : Byte) (target : BitVec 24)
  | rewindToLeader (tag : Byte)
  | stop (tag : Byte)
  | survey (tag : Byte) (args : SurveyArgs)
  | loadSegment (tag : Byte) (args : SegmentArgs)
  | deleteSegment (tag : Byte) (start : BitVec 24)
  | clearSegments (tag : Byte)
  | readSegment (tag index : Byte)
  | startTake (tag endFlag : Byte) (endPosition : BitVec 24)
  | readDropouts (tag n : Byte)
  | setPolicy (tag : Byte) (args : PolicyArgs)
  | clearConditions (tag : Byte)
  | setNoticeMask (tag : Byte) (flags : List Byte)
  | setMonitor (tag source freeze : Byte)
  | setOutput (tag : Byte) (threshold : BitVec 16)
  | downstreamCell (bytes : List Byte)
  | frameSlot (bytes : List Byte)
  | settingsWordSent
  | measurementComplete (lane : Lane)
  | miss (lane : Lane)
  | tachMeasurementComplete (lane : Lane)
  | holdTimerExpiry (lane : Lane)
  | rampMove (lane : Lane)
  | azimuthWindowComplete (lane : Lane)
  | productionStep (lane : Lane)
  | upstreamSlot
  | tick (phase : Phase) (now : Nat)
  | qualificationComplete
  | surveySpanCounted
  | capstanPulse
  | slipWindowClose
  | leaderSensorChange
  | cassetteInsertion
  | cassetteRemoval
  | settleTimerExpiry
  | stallTimerExpiry
  | startingLimit
  | leaderSearchLimit
  | clipHoldExpiry (lane : Lane)
  | takeEnded
  | bothPhasesChange
  deriving DecidableEq, Repr

end Sys2Proof
end

