-- ==== Sys2Proof/WellFormed.lean ====
section
/-! DEFINITION. Which rows are well formed: an operand that is a list has the length the layouts of R203 give it. Every other operand is as wide as its field and is well formed at every value. -/

namespace Sys2Proof

/-- The lists a row carries have their lengths (11, R203). A frame slot may hold fewer bytes than a raw
frame (01, R1: a frame began but was incomplete) but never more. -/
def WellFormed : Instr → Bool
  | .loadCoeffRow _ _ coeffs => coeffs.length == 32
  | .setNoticeMask _ flags => flags.length == 10
  | .downstreamCell bytes => bytes.length == Config.cellBytes
  | .frameSlot bytes => bytes.length ≤ Config.rawFrameBytes
  | .hardReset _ | .softReset _ | .identify _ | .readStatus _ | .setState _ _ | .lockTables _ _ | .setRates _ _ _
  | .selectBank _ _ | .setDeck _ _ | .setPosition _ _ | .wind _ _ | .seek _ _ | .rewindToLeader _ | .stop _
  | .survey _ _ | .loadSegment _ _ | .deleteSegment _ _ | .clearSegments _ | .readSegment _ _ | .startTake _ _ _
  | .readDropouts _ _ | .setPolicy _ _ | .clearConditions _ | .setMonitor _ _ _ | .setOutput _ _
  | .settingsWordSent | .measurementComplete _ | .miss _ | .tachMeasurementComplete _ | .holdTimerExpiry _
  | .rampMove _ | .azimuthWindowComplete _ | .productionStep _ | .upstreamSlot | .tick _ _ | .qualificationComplete
  | .surveySpanCounted | .capstanPulse | .slipWindowClose | .leaderSensorChange | .cassetteInsertion
  | .cassetteRemoval | .settleTimerExpiry | .stallTimerExpiry | .startingLimit | .leaderSearchLimit
  | .clipHoldExpiry _ | .takeEnded | .bothPhasesChange => true

end Sys2Proof
end

