-- ==== Sys2Proof/Decode.lean ====
section
/-! DEFINITION. Reading a row from the table's bits. spec/opcode_table.json gives no row any bits (its "fields" are empty and no row has "fixed"), so no word spells a row. The bytes of the part's two links are read by the rows DOWNSTREAM_CELL and FRAME_SLOT. -/

namespace Sys2Proof

/-- The row a word of the table's bits spells: none, for every word, since the table gives no row bits. -/
def decodeTableWord (_nbits _w : Nat) : Option Instr := none

end Sys2Proof
end

