-- ==== Sys2Proof/Machine/State.lean ====
section
/-! DEFINITION. Everything the DT-440 holds, as plain data, block by block in the order of the manual's chapters, and its value right after a hard reset. -/

namespace Sys2Proof.Machine

/-- Nothing a command does ends in a fault: the manual gives every event a next state (conditions, replies and
notices are state). No constructor, so no meaning can answer one: safe. -/
inductive Fault where
  deriving DecidableEq, Repr

/-- Reasons a row could have no meaning. -/
inductive Refusal where
  /-- Raised by an arm of exec whose row has no meaning yet; none is left. Safe: the model stops. -/
  | notModelled (mnemonic : String)
  deriving DecidableEq, Repr

/-! ## Addressed buffers -/

/-- A sparse buffer: (place, value) pairs, places strictly rising, no value 0; an unlisted place reads 0,
its hard-reset contents (01, R10; 06, R114). -/
abbrev Memory := List (Nat × Int)

/-- The four rings and the block stamps (01, R10, R11). -/
structure Rings where
  samples : PerTrack Memory
  stamps : Memory
  deriving DecidableEq, Repr

/-- The loaded coefficient bank, 32 places a row, and its row-written map, 1 for a marked row (06, R114). -/
structure LoadedBank where
  coeffs : Memory
  written : Memory
  deriving DecidableEq, Repr

/-! ## Names the rules give -/

/-- 04, R62 to R64: what a lane's tracker listens to. -/
inductive Source where
  | bias
  | hum
  | pilot
  | tach
  | nominal
  | off
  deriving DecidableEq, Repr

inductive AzMode where
  | fixed
  | track
  | seeded
  deriving DecidableEq, Repr

inductive Pairing where
  | stereo
  | monoPair
  deriving DecidableEq, Repr

inductive DropoutPolicy where
  | off
  | mark
  | conceal
  | mute
  deriving DecidableEq, Repr

inductive Equalisation where
  | us120
  | us70
  deriving DecidableEq, Repr

/-- 09, R155. -/
inductive DeviceState where
  | standby
  | configure
  | run
  deriving DecidableEq, Repr

/-- 02, R18. -/
inductive TransportState where
  | stopped
  | settling
  | starting
  | playing
  | approaching
  | windingFwd
  | windingRev
  deriving DecidableEq, Repr

/-- 04, R61. -/
inductive LockState where
  | idle
  | search
  | locked
  | hold
  | fallback
  deriving DecidableEq, Repr

/-- 06, R105. -/
inductive ProductionState where
  | idle
  | active
  | draining
  deriving DecidableEq, Repr

/-- 08, R133. -/
inductive DetectorState where
  | clear
  | onset
  | dropped
  | releasing
  deriving DecidableEq, Repr

inductive Direction where
  | forward
  | reverse
  deriving DecidableEq, Repr

/-- 02, R19. -/
inductive OpKind where
  | none
  | wind
  | seek
  | rewindToLeader
  | take
  | survey
  deriving DecidableEq, Repr

/-- The phases of SEEK (02, 2.8) and of REWIND_TO_LEADER (02, 2.9). -/
inductive OpPhase where
  | wind
  | settle
  | approach
  | reverse
  | forward
  deriving DecidableEq, Repr

/-- 02, R22. -/
inductive Termination where
  | done
  | aborted
  | endOfTape
  | leaderNotFound
  | notReached
  | stalled
  | cassetteOut
  | condition
  deriving DecidableEq, Repr

/-- 09, R161. -/
inductive TakeCause where
  | stopCommand
  | endPosition
  | tapeEnd
  | cassetteOut
  | condition
  deriving DecidableEq, Repr

/-- How an operation ended: a termination, or for the play of a take its cause (02, R22). -/
inductive Ending where
  | term (t : Termination)
  | cause (c : TakeCause)
  deriving DecidableEq, Repr

/-- 10, R176: a condition record's name. -/
inductive CondId where
  | rawHeld
  | rawLost
  | cellError
  | overrun
  | stall
  | slip
  | logFull
  | lockLost (l : Lane)
  | range (l : Lane)
  | clip (l : Lane)
  deriving DecidableEq, Repr

/-- 10, R178 to R180. -/
inductive Policy where
  | stop
  | muteLane
  | warn
  | auto
  | off
  deriving DecidableEq, Repr

/-- 10, R176: the lane fault scope. -/
inductive Scope where
  | lane
  | device
  deriving DecidableEq, Repr

/-- 09, R174. -/
inductive MonitorSource where
  | off
  | speed (l : Lane)
  | azimuth (l : Lane)
  | level (t : Track)
  | dropRef (t : Track)
  deriving DecidableEq, Repr

/-- 11, R197. -/
inductive ReplyCode where
  | ok
  | adjusted
  | accepted
  | invalid
  | malformed
  | badValue
  | wrongState
  | busy
  | tooLate
  | full
  | notFound
  | duplicate
  | faultActive
  | notReferenced
  | conflict
  deriving DecidableEq, Repr

/-- The commands of the command table (11, R203). -/
inductive Cmd where
  | identify
  | readStatus
  | setState
  | softReset
  | lockTables
  | setRates
  | loadCoeffRow
  | selectBank
  | setDeck
  | setPosition
  | wind
  | seek
  | rewindToLeader
  | stop
  | survey
  | loadSegment
  | deleteSegment
  | clearSegments
  | readSegment
  | startTake
  | readDropouts
  | setPolicy
  | clearConditions
  | setNoticeMask
  | setMonitor
  | setOutput
  deriving DecidableEq, Repr

/-- 10, 10.5: the ten notice kinds. -/
inductive NoticeKind where
  | transportDone
  | takeStarted
  | takeEnded
  | segmentEntered
  | lockChangedA
  | lockChangedB
  | conditionRaised
  | logHigh
  | cassetteChanged
  | surveyDone
  deriving DecidableEq, Repr

/-! ## Setup: what commands configure -/

/-- 06, R103: the four rate pairs. -/
inductive RatePair where
  | r384x96
  | r384x48
  | r352x88
  | r352x44
  deriving DecidableEq, Repr

/-- 02, R20. -/
structure Deck where
  tickRate : Nat
  nc : Nat
  slipThreshold : Nat
  slipCount : Nat
  approach : Nat
  stallTime : Nat
  settleTime : Nat
  leaderLimit : Nat
  deriving DecidableEq, Repr

/-- A complete lane part: the settings of a lane (03, R42). -/
structure Settings where
  source : Source
  fRef : Nat
  c : Nat
  w : Nat
  k : Nat
  slew : Nat
  acquire : Nat
  missCount : Nat
  hold : Nat
  gate : Nat
  azMode : AzMode
  fixedOffset : Int
  theta : Nat
  ka : Nat
  pairing : Pairing
  policy : DropoutPolicy
  depth : Nat
  release : Nat
  onset : Nat
  releaseCount : Nat
  blanking : Nat
  eq : Equalisation
  deriving DecidableEq, Repr

/-- The lane defaults: the default column of R42 (03). -/
def Settings.defaults : Settings :=
  { source := .nominal, fRef := 0, c := 16, w := 20, k := 2, slew := 100000, acquire := 4, missCount := 3, hold := 50,
    gate := 2048, azMode := .fixed, fixedOffset := 0, theta := 128, ka := 3, pairing := .stereo, policy := .mark,
    depth := 64, release := 128, onset := 2, releaseCount := 4, blanking := 32, eq := .us120 }

/-- A segment table entry (03, R41). -/
structure Entry where
  start : Nat
  label : Nat
  parts : PerLane (Option Settings)
  deriving DecidableEq, Repr

/-- One value for each of the thirteen condition records (10, R176). -/
structure PerCond (α : Type) where
  rawHeld : α
  rawLost : α
  cellError : α
  overrun : α
  stall : α
  slip : α
  logFull : α
  lockLost : PerLane α
  range : PerLane α
  clip : PerLane α
  deriving DecidableEq, Repr

/-- The settable half of a condition record (10, R176): its policy, and the lane fault scope that only
LOCK_LOST uses. -/
structure PolicyRec where
  policy : Policy
  scope : Scope
  deriving DecidableEq, Repr

/-- The Monitor Selector (09, R174). -/
structure Monitor where
  source : MonitorSource
  frozen : Bool
  value : Int
  deriving DecidableEq, Repr

/-- What commands configure and no event changes. -/
structure Setup where
  rates : RatePair
  deck : Deck
  entries : List Entry
  locked : Bool
  bankLoaded : Bool
  threshold : Nat
  policies : PerCond PolicyRec
  mask : List NoticeKind
  monitor : Monitor
  deriving DecidableEq, Repr

/-! ## The blocks -/

/-- 01, R2: the link states of the Head Converter Receiver. -/
inductive LinkState where
  | waiting
  | following
  deriving DecidableEq, Repr

/-- The equalisation pair of a settings word (01, R8). -/
abbrev EqPair := PerLane Equalisation

/-- Head Converter Receiver (01, R2, R8, R9). nextIndex counts the frames written in the present or latest
capture, so the last raw index written is nextIndex - 1. -/
structure HeadReceiver where
  link : LinkState
  expected : Byte
  lastGood : PerTrack Int
  run : Nat
  capturing : Bool
  nextIndex : Nat
  wordSending : Option EqPair
  wordWaiting : Option EqPair
  wordLast : Option EqPair
  deriving DecidableEq, Repr

/-- Position Counter (01, R13, R14, R16). -/
structure PositionCounter where
  position : Nat
  referenced : Bool
  phase1 : Bool
  phase2 : Bool
  cassette : Bool
  deriving DecidableEq, Repr

/-- The operation record (02, R19). -/
structure OpRecord where
  kind : OpKind
  direction : Option Direction
  target : Option Nat
  windPoint : Option Nat
  endPosition : Option Nat
  span : Option Nat
  phase : Option OpPhase
  startTime : Option Nat
  windCount : Option Nat
  surveyTicks : Option Nat
  ending : Option Ending
  deriving DecidableEq, Repr

/-- The record with kind NONE and every other field absent (02, R19). -/
def OpRecord.idle : OpRecord :=
  { kind := .none, direction := none, target := none, windPoint := none, endPosition := none, span := none,
    phase := none, startTime := none, windCount := none, surveyTicks := none, ending := none }

/-- An open slip window: forward ticks since the one that opened it, and P_c (02, R36). -/
structure SlipWindow where
  ticks : Nat
  pulses : Nat
  deriving DecidableEq, Repr

/-- Transport Controller (02). A timer is the timebase reading at which it was started, none when it is not
running. -/
structure Transport where
  state : TransportState
  op : OpRecord
  leader : Bool
  qualCount : Nat
  lastTick : Option Nat
  settleTimer : Option Nat
  stallTimer : Option Nat
  startTimer : Option Nat
  slipWindow : Option SlipWindow
  slipLow : Nat
  deriving DecidableEq, Repr

/-- The current entry and the arrival governing entries, held as the entries themselves (03). -/
structure SegmentState where
  current : Option Entry
  arrival : PerLane (Option Entry)
  deriving DecidableEq, Repr

/-- 04, R61. -/
inductive TrackerMode where
  | none
  | take
  | survey
  deriving DecidableEq, Repr

/-- Reference filter coefficients in units of 2^-30 (04, R62, R63). -/
structure FilterCoeffs where
  b0 : Int
  b1 : Int
  b2 : Int
  g1 : Int
  g2 : Int
  deriving DecidableEq, Repr

/-- Filter state: the last two sums and the last two filtered values (04, R62). -/
structure FilterState where
  x1 : Int
  x2 : Int
  y1 : Int
  y2 : Int
  deriving DecidableEq, Repr

/-- An open measurement (04, R67): what it fixed at its opening, the crossings counted since, and the latest
counted crossing's timestamp and raw index. -/
structure Measurement where
  t0 : Nat
  counted : Nat
  c : Nat
  fRef : Nat
  lo : Nat
  hi : Nat
  lastStamp : Nat
  lastIndex : Nat
  deriving DecidableEq, Repr

/-- An open tach measurement (04, R69). -/
structure TachOpen where
  t0 : Nat
  counted : Nat
  lastStamp : Nat
  deriving DecidableEq, Repr

/-- The latest completed tach measurement (04, R69). -/
structure TachLast where
  span : Nat
  index : Nat
  deriving DecidableEq, Repr

/-- Survey accumulators (04, R82). -/
structure SurveyAcc where
  total : Nat
  inWindow : Nat
  sum : Nat
  least : Option Nat
  greatest : Option Nat
  deriving DecidableEq, Repr

def SurveyAcc.empty : SurveyAcc := ⟨0, 0, 0, none, none⟩

def FilterState.zero : FilterState := ⟨0, 0, 0, 0⟩

def FilterCoeffs.zero : FilterCoeffs := ⟨0, 0, 0, 0, 0⟩

/-- A Reference Tracker's record (04, R61). -/
structure Tracker where
  lock : LockState
  mode : TrackerMode
  settings : Settings
  coeffs : FilterCoeffs
  filter : FilterState
  armed : Bool
  last : Int
  meas : Option Measurement
  origin : Nat
  acquire : Nat
  missCount : Nat
  step : Nat
  hold : Option Nat
  ramp : Option Nat
  tachOpen : Option TachOpen
  tachLast : Option TachLast
  survey : SurveyAcc
  deriving DecidableEq, Repr

/-- The record after a reset, with S as given (04, R61). -/
def Tracker.reset (step : Nat) : Tracker :=
  { lock := .idle, mode := .none, settings := Settings.defaults, coeffs := FilterCoeffs.zero,
    filter := FilterState.zero, armed := false, last := 0, meas := none, origin := 0, acquire := 0, missCount := 0,
    step := step, hold := none, ramp := none, tachOpen := none, tachLast := none, survey := SurveyAcc.empty }

/-- What a lane timeline entry carries (05, R94). -/
inductive TimelineItem where
  | step (v : Nat)
  | azimuth (v : Int)
  | settings (start : Option Nat) (s : Settings)
  deriving DecidableEq, Repr

structure TimelineEntry where
  stamp : Nat
  item : TimelineItem
  deriving DecidableEq, Repr

/-- Per-track dropout action of a sample frame (08, R148). -/
inductive TrackAction where
  | none
  | marked
  | crossfill
  | mute
  deriving DecidableEq, Repr

/-- One track's part of a sample frame (08, R148). -/
structure TrackPart where
  sample : Int
  action : TrackAction
  below : Bool
  switched : Bool
  deriving DecidableEq, Repr

/-- A sample frame as the lane makes it (09, R166). -/
structure SampleFrame where
  lane : Lane
  count : Nat
  first : TrackPart
  second : TrackPart
  lock : LockState
  muted : Bool
  applied : Bool
  monitor : Int
  take : Nat
  deriving DecidableEq, Repr

/-- A lane at its production point: production state, accumulator, frame count and mark (06, R105), production
record (05, R93), timeline (05, R94) and FIFO (09, R165). acc is P in units of 1/16,777,216 of a raw sample. -/
structure Producer where
  state : ProductionState
  acc : Nat
  frameCount : Nat
  mark : Bool
  applied : Nat
  az : Int
  settings : Settings
  governing : Option Nat
  timeline : List TimelineEntry
  fifo : List SampleFrame
  deriving DecidableEq, Repr

/-- The lane after a reset, with A as given (05, R93; 06, R105; 09, R165). -/
def Producer.reset (step : Nat) : Producer :=
  { state := .idle, acc := 0, frameCount := 0, mark := false, applied := step, az := 0, settings := Settings.defaults,
    governing := none, timeline := [], fifo := [] }

/-- An open correlation window (07, R120): its start raw index and the sums gathered over it so far, the 33 correlations
c[l] with lag l at place l + 16, and the energies E1 and E2 (R123). -/
structure AzimuthWindow where
  start : Nat
  c : List Int
  e1 : Int
  e2 : Int
  deriving DecidableEq, Repr

/-- A window just opened: nothing gathered. -/
def AzimuthWindow.opened (start : Nat) : AzimuthWindow := ⟨start, List.replicate 33 0, 0, 0⟩

/-- A half of the Azimuth Aligner (07, R120): mode, offset, confidence and smoothing in use, the estimate, and the
open window. -/
structure Aligner where
  running : Bool
  mode : AzMode
  fixedOffset : Int
  theta : Nat
  ka : Nat
  estimate : Int
  window : Option AzimuthWindow
  deriving DecidableEq, Repr

/-- 07, R120: the columns "After hard reset" and "After soft reset". -/
def Aligner.reset : Aligner :=
  { running := false, mode := .fixed, fixedOffset := 0, theta := 128, ka := 3, estimate := 0, window := none }

/-- The first block of an ONSET run (08, R133). -/
structure PendingStart where
  block : Nat
  stamp : Nat
  label : Nat
  least : Nat
  deriving DecidableEq, Repr

/-- A confirmed dropout not yet ended (08, R133). -/
structure OpenDropout where
  block : Nat
  position : Nat
  label : Nat
  least : Nat
  length : Nat
  deriving DecidableEq, Repr

/-- A detector's settings in use (08, R133). -/
structure DropoutSettings where
  policy : DropoutPolicy
  depth : Nat
  release : Nat
  onset : Nat
  releaseCount : Nat
  blanking : Nat
  deriving DecidableEq, Repr

/-- A track's detection record (08, R133). -/
structure Detector where
  running : Bool
  settings : DropoutSettings
  level : Nat
  ref : Nat
  blank : Nat
  state : DetectorState
  run : Nat
  pendingStart : Option PendingStart
  openDropout : Option OpenDropout
  deriving DecidableEq, Repr

/-- 08, R133: the column "After either reset". -/
def Detector.reset : Detector :=
  { running := false, settings := ⟨.mark, 64, 128, 2, 4, 32⟩, level := 0, ref := 0, blank := 0, state := .clear, run := 0,
    pendingStart := none, openDropout := none }

/-- 08, R143. -/
inductive Substitute where
  | partner
  | zero
  deriving DecidableEq, Repr

/-- The set of actions a span's samples have carried (08, R143, R148). -/
structure ActionSet where
  marked : Bool
  crossfill : Bool
  mute : Bool
  deriving DecidableEq, Repr

/-- A dropout waiting for production (08, R143). -/
structure Span where
  start : Nat
  last : Option Nat
  take : Nat
  track : Track
  position : Nat
  label : Nat
  length : Nat
  least : Nat
  ref : Nat
  truncated : Bool
  actions : ActionSet
  firstFrame : Option Nat
  lastFrame : Option Nat
  deriving DecidableEq, Repr

/-- A track's concealment record (08, R143). -/
structure Concealer where
  g : Nat
  source : Substitute
  spans : List Span
  deriving DecidableEq, Repr

/-- 08, R143. -/
def Concealer.reset : Concealer := { g := 64, source := .zero, spans := [] }

/-- 08, R150. -/
inductive RecordAction where
  | marked
  | crossfilled
  | muted
  | mixed
  deriving DecidableEq, Repr

/-- A dropout record (08, R150). -/
structure DropoutRecord where
  take : Nat
  track : Track
  start : Nat
  position : Nat
  length : Nat
  ratio : Nat
  action : RecordAction
  truncated : Bool
  label : Nat
  firstFrame : Option Nat
  lastFrame : Option Nat
  deriving DecidableEq, Repr

/-- An open take record (09, R159, R162). cause is absent until the take ends; from then on it is ending. -/
structure TakeRecord where
  endPosition : Option Nat
  cause : Option TakeCause
  endIndex : Option Nat
  finalPosition : Option Nat
  deriving DecidableEq, Repr

/-- Take control (09, R155, R159). -/
structure TakeControl where
  device : DeviceState
  number : Nat
  record : Option TakeRecord
  deriving DecidableEq, Repr

/-- The moving half of a condition record (10, R176, R177): flag, presence of a state condition, clip hold count. -/
structure CondStatus where
  flag : Bool
  present : Bool
  hold : Nat
  deriving DecidableEq, Repr

/-- A message whose first frame has been sent (09, R168): notice or reply, its total length, the bytes still to go. -/
structure Underway where
  notice : Bool
  total : Nat
  rest : List Byte
  deriving DecidableEq, Repr

/-- Output Scheduler (09, R168). upstream is the frame of the latest slot: what the upstream line carries. -/
structure Scheduler where
  accept : Bool
  slotsSince : Nat
  lastServed : Lane
  underway : Option Underway
  pattern : Byte
  upstream : List Byte
  deriving DecidableEq, Repr

/-- The open message of the cell assembler (11, R191). -/
structure OpenMessage where
  kind : Byte
  tag : Byte
  length : Nat
  args : List Byte
  deriving DecidableEq, Repr

/-- A reply (11, R197). -/
structure Reply where
  kind : Byte
  tag : Byte
  code : ReplyCode
  results : List Byte
  deriving DecidableEq, Repr

/-- The lanes a SEGMENT_ENTERED names (03, R55). -/
inductive LaneSet where
  | a
  | b
  | both
  deriving DecidableEq, Repr

/-- Notice contents (10, 10.5). -/
inductive NoticeContent where
  | transportDone (kind : OpKind) (ending : Termination) (position : Nat)
  | takeStarted (take position : Nat)
  | takeEnded (take : Nat) (cause : TakeCause) (endIndex : Option Nat) (framesA framesB position : Nat)
  | segmentEntered (lanes : LaneSet) (entry : Option (Nat × Nat)) (rawIndex position : Nat)
  | lockChanged (lane : Lane) (previous new : LockState) (rawIndex : Option Nat) (step : Nat)
  | conditionRaised (set : BitVec 16)
  | logHigh (count take : Nat)
  | cassetteChanged (present : Bool)
  | surveyDone (lane : Lane) (source : Source) (ending : Termination) (total inWindow : Nat)
      (frequencies : Option (Nat × Nat × Nat))
  deriving DecidableEq, Repr

/-- A queued notice with its coalesced count (10, R186). -/
structure Notice where
  content : NoticeContent
  count : Nat
  deriving DecidableEq, Repr

/-- Message Port (11, R191; 10, R186). -/
structure MessagePort where
  assembler : Option OpenMessage
  replies : List Reply
  notices : List Notice
  deriving DecidableEq, Repr

/-- Everything events change. -/
structure Part where
  hcr : HeadReceiver
  pos : PositionCounter
  trc : Transport
  sgt : SegmentState
  rft : PerLane Tracker
  lanes : PerLane Producer
  aza : PerLane Aligner
  det : PerTrack Detector
  con : PerTrack Concealer
  log : List DropoutRecord
  take : TakeControl
  cmn : PerCond CondStatus
  stopPending : Bool
  osc : Scheduler
  msp : MessagePort
  timebase : Nat
  deriving DecidableEq, Repr

/-- The machine: the commands waiting, first in first out, and the part. -/
structure State where
  pending : List Instr
  setup : Setup
  rings : Rings
  bank : LoadedBank
  part : Part
  deriving DecidableEq, Repr

/-- What a command's owner answers (11, R195): the state it leaves, the reply code and the results. -/
structure Answer where
  state : State
  code : ReplyCode
  results : List Byte
  deriving DecidableEq, Repr

/-! ## Right after a hard reset -/

def Deck.defaults : Deck :=
  { tickRate := 3046, nc := 1024, slipThreshold := 224, slipCount := 3, approach := 400, stallTime := 500,
    settleTime := 400, leaderLimit := 240 }

/-- 10, R176: the default policies; every lane fault scope LANE. -/
def PolicyRec.defaults : PerCond PolicyRec :=
  { rawHeld := ⟨.auto, .lane⟩, rawLost := ⟨.stop, .lane⟩, cellError := ⟨.warn, .lane⟩, overrun := ⟨.stop, .lane⟩,
    stall := ⟨.stop, .lane⟩, slip := ⟨.stop, .lane⟩, logFull := ⟨.warn, .lane⟩, lockLost := .both ⟨.warn, .lane⟩,
    range := .both ⟨.auto, .lane⟩, clip := .both ⟨.warn, .lane⟩ }

/-- Every flag clear, every presence absent, every clip hold count 0 (10, R176, R177, R189). -/
def CondStatus.allClear : PerCond CondStatus :=
  { rawHeld := ⟨false, false, 0⟩, rawLost := ⟨false, false, 0⟩, cellError := ⟨false, false, 0⟩,
    overrun := ⟨false, false, 0⟩, stall := ⟨false, false, 0⟩, slip := ⟨false, false, 0⟩, logFull := ⟨false, false, 0⟩,
    lockLost := .both ⟨false, false, 0⟩, range := .both ⟨false, false, 0⟩, clip := .both ⟨false, false, 0⟩ }

def Setup.reset : Setup :=
  { rates := .r384x96, deck := Deck.defaults, entries := [], locked := false, bankLoaded := false, threshold := 256,
    policies := PolicyRec.defaults, mask := [], monitor := ⟨.off, false, 0⟩ }

def Rings.reset : Rings := { samples := .all [], stamps := [] }

def LoadedBank.reset : LoadedBank := { coeffs := [], written := [] }

/-- The part after a hard reset that found the given levels (01, R2, R13, R14, R16; 02, R18, R19, R40; and the reset
sentences of every chapter; log 9, 10). -/
def Part.reset (v : Levels) : Part :=
  { hcr := { link := .waiting, expected := 0, lastGood := .all 0, run := 0, capturing := false, nextIndex := 0,
             wordSending := none, wordWaiting := none, wordLast := none }
    pos := { position := 0, referenced := false, phase1 := v.phase1, phase2 := v.phase2, cassette := v.cassette }
    trc := { state := .stopped, op := OpRecord.idle, leader := v.leader, qualCount := 0, lastTick := none,
             settleTimer := none, stallTimer := none, startTimer := none, slipWindow := none, slipLow := 0 }
    sgt := { current := none, arrival := .both none }
    rft := .both (Tracker.reset 67108864)
    lanes := .both (Producer.reset 67108864)
    aza := .both Aligner.reset
    det := .all Detector.reset
    con := .all Concealer.reset
    log := []
    take := { device := .standby, number := 0, record := none }
    cmn := CondStatus.allClear
    stopPending := false
    osc := { accept := false, slotsSince := 0, lastServed := .b, underway := none, pattern := 0x55, upstream := [] }
    msp := { assembler := none, replies := [], notices := [] }
    timebase := 0 }

/-- The levels State.reset finds: both phases low, leader sensor on oxide, no cassette (log 9: DESIGN CHOICE). -/
def Levels.reset : Levels := { phase1 := false, phase2 := false, leader := false, cassette := false }

/-- The machine right after reset, its queue empty. -/
def State.reset : State :=
  { pending := [], setup := Setup.reset, rings := Rings.reset, bank := LoadedBank.reset, part := Part.reset Levels.reset }

end Sys2Proof.Machine
end

