-- ==== Sys2Proof/Machine/Operands.lean ====
section
/-! DEFINITION. Operand forms: the numbers and enumerations carried in messages (11, R203), the rounding and clamping words of 00 ("Numbers and arithmetic"), the rate pairs (06, R103), and the argument checks of a lane part (03, R42 to R45). -/

namespace Sys2Proof.Machine

/-! ## Arithmetic -/

/-- "Clamp a value to lo..hi" (00). -/
def clampNat (lo hi v : Nat) : Nat := if v < lo then lo else if hi < v then hi else v

/-- "Clamp a value to lo..hi" (00), for signed values. -/
def clampInt (lo hi v : Int) : Int := if v < lo then lo else if hi < v then hi else v

/-- The exact quotient num / den rounded half up (00), for den above 0. -/
def roundHalfUp (num den : Int) : Int := (2 * num + den) / (2 * den)

/-- "Arithmetic right shift by k" (00). -/
def shiftRight (v : Int) (k : Nat) : Int := v / (2 ^ k : Int)

/-- The least whole number at or above a / b, for b above 0. -/
def ceilDiv (a b : Nat) : Nat := (a + b - 1) / b

/-! ## Bytes -/

/-- Two bytes, most significant first (11, R203). -/
def be16 (a b : Byte) : BitVec 16 := a ++ b

/-- Three bytes, most significant first (11, R203). -/
def be24 (a b c : Byte) : BitVec 24 := (a ++ b : BitVec 16) ++ c

/-- The low n bytes of a value, most significant first (11, R203). -/
def bytesOf : Nat → Nat → List Byte
  | 0, _ => []
  | n + 1, v => BitVec.ofNat 8 (v / 256 ^ n) :: bytesOf n v

/-- A signed value in n bytes of two's complement (11, R203). -/
def signedBytes (n : Nat) (v : Int) : List Byte := bytesOf n (v % (256 ^ n : Int)).toNat

/-- A flag or presence marker: a whole byte, 0 or 1 (11, R203). -/
def flagByte (b : Bool) : Byte := if b then 1 else 0

/-- The sum of bytes modulo 256 that check bytes are made for (01, R1; 11, R192, R198). -/
def byteSum (bs : List Byte) : Byte := bs.foldl (· + ·) 0

/-- A check byte: the two's complement of the sum of the others. -/
def checkByte (bs : List Byte) : Byte := 0 - byteSum bs

/-- A whole-byte flag of an argument: none outside 0 and 1. -/
def flagOf (b : Byte) : Option Bool :=
  match b.toNat with
  | 0 => some false
  | 1 => some true
  | _ => none

/-! ## Enumeration codes (11, R203) -/

def Source.ofCode (b : Byte) : Option Source :=
  match b.toNat with
  | 0 => some .bias
  | 1 => some .hum
  | 2 => some .pilot
  | 3 => some .tach
  | 4 => some .nominal
  | 5 => some .off
  | _ => none

def Source.code : Source → Byte
  | .bias => 0
  | .hum => 1
  | .pilot => 2
  | .tach => 3
  | .nominal => 4
  | .off => 5

def AzMode.ofCode (b : Byte) : Option AzMode :=
  match b.toNat with
  | 0 => some .fixed
  | 1 => some .track
  | 2 => some .seeded
  | _ => none

def AzMode.code : AzMode → Byte
  | .fixed => 0
  | .track => 1
  | .seeded => 2

def Pairing.ofCode (b : Byte) : Option Pairing :=
  match b.toNat with
  | 0 => some .stereo
  | 1 => some .monoPair
  | _ => none

def Pairing.code : Pairing → Byte
  | .stereo => 0
  | .monoPair => 1

def DropoutPolicy.ofCode (b : Byte) : Option DropoutPolicy :=
  match b.toNat with
  | 0 => some .off
  | 1 => some .mark
  | 2 => some .conceal
  | 3 => some .mute
  | _ => none

def DropoutPolicy.code : DropoutPolicy → Byte
  | .off => 0
  | .mark => 1
  | .conceal => 2
  | .mute => 3

def Equalisation.ofCode (b : Byte) : Option Equalisation :=
  match b.toNat with
  | 0 => some .us120
  | 1 => some .us70
  | _ => none

def Equalisation.code : Equalisation → Byte
  | .us120 => 0
  | .us70 => 1

def DeviceState.ofCode (b : Byte) : Option DeviceState :=
  match b.toNat with
  | 0 => some .standby
  | 1 => some .configure
  | 2 => some .run
  | _ => none

def DeviceState.code : DeviceState → Byte
  | .standby => 0
  | .configure => 1
  | .run => 2

def TransportState.code : TransportState → Byte
  | .stopped => 0
  | .settling => 1
  | .starting => 2
  | .playing => 3
  | .approaching => 4
  | .windingFwd => 5
  | .windingRev => 6

def LockState.code : LockState → Byte
  | .idle => 0
  | .search => 1
  | .locked => 2
  | .hold => 3
  | .fallback => 4

def ProductionState.code : ProductionState → Byte
  | .idle => 0
  | .active => 1
  | .draining => 2

def DetectorState.code : DetectorState → Byte
  | .clear => 0
  | .onset => 1
  | .dropped => 2
  | .releasing => 3

/-- A lane argument that names one lane (04, R80). -/
def laneOfCode (b : Byte) : Option Lane :=
  match b.toNat with
  | 0 => some .a
  | 1 => some .b
  | _ => none

def laneCode : Lane → Byte
  | .a => 0
  | .b => 1

/-- SET_POLICY's lane argument: A, B or BOTH (10, R182). -/
def LaneSet.ofCode (b : Byte) : Option LaneSet :=
  match b.toNat with
  | 0 => some .a
  | 1 => some .b
  | 2 => some .both
  | _ => none

def LaneSet.code : LaneSet → Byte
  | .a => 0
  | .b => 1
  | .both => 2

def trackCode : Track → Byte
  | .t1 => 0
  | .t2 => 1
  | .t3 => 2
  | .t4 => 3

def Direction.ofCode (b : Byte) : Option Direction :=
  match b.toNat with
  | 0 => some .forward
  | 1 => some .reverse
  | _ => none

/-- SELECT_BANK's argument: BUILT_IN (false) or LOADED (true). -/
def bankOfCode (b : Byte) : Option Bool := flagOf b

def Policy.ofCode (b : Byte) : Option Policy :=
  match b.toNat with
  | 0 => some .stop
  | 1 => some .muteLane
  | 2 => some .warn
  | 3 => some .auto
  | 4 => some .off
  | _ => none

def Scope.ofCode (b : Byte) : Option Scope :=
  match b.toNat with
  | 0 => some .lane
  | 1 => some .device
  | _ => none

def MonitorSource.ofCode (b : Byte) : Option MonitorSource :=
  match b.toNat with
  | 0 => some .off
  | 1 => some (.speed .a)
  | 2 => some (.speed .b)
  | 3 => some (.azimuth .a)
  | 4 => some (.azimuth .b)
  | 5 => some (.level .t1)
  | 6 => some (.level .t2)
  | 7 => some (.level .t3)
  | 8 => some (.level .t4)
  | 9 => some (.dropRef .t1)
  | 10 => some (.dropRef .t2)
  | 11 => some (.dropRef .t3)
  | 12 => some (.dropRef .t4)
  | _ => none

/-- SET_POLICY's condition argument: the records it names on the lanes given, each condition being part-wide or per
lane (10, R176, R182). -/
def condRecords (b : Byte) (lanes : LaneSet) : Option (List CondId) :=
  let per (f : Lane → CondId) : List CondId :=
    match lanes with
    | .a => [f .a]
    | .b => [f .b]
    | .both => [f .a, f .b]
  match b.toNat with
  | 0 => some [.rawHeld]
  | 1 => some [.rawLost]
  | 2 => some [.cellError]
  | 3 => some [.overrun]
  | 4 => some [.stall]
  | 5 => some [.slip]
  | 6 => some [.logFull]
  | 7 => some (per .lockLost)
  | 8 => some (per .range)
  | 9 => some (per .clip)
  | _ => none

def OpKind.code : OpKind → Byte
  | .none => 0
  | .wind => 1
  | .seek => 2
  | .rewindToLeader => 3
  | .take => 4
  | .survey => 5

def Termination.code : Termination → Byte
  | .done => 0
  | .aborted => 1
  | .endOfTape => 2
  | .leaderNotFound => 3
  | .notReached => 4
  | .stalled => 5
  | .cassetteOut => 6
  | .condition => 7

def TakeCause.code : TakeCause → Byte
  | .stopCommand => 0
  | .endPosition => 1
  | .tapeEnd => 2
  | .cassetteOut => 3
  | .condition => 4

def RecordAction.code : RecordAction → Byte
  | .marked => 0
  | .crossfilled => 1
  | .muted => 2
  | .mixed => 3

def TrackAction.code : TrackAction → Nat
  | .none => 0
  | .marked => 1
  | .crossfill => 2
  | .mute => 3

def NoticeKind.code : NoticeKind → Byte
  | .transportDone => 0
  | .takeStarted => 1
  | .takeEnded => 2
  | .segmentEntered => 3
  | .lockChangedA => 4
  | .lockChangedB => 5
  | .conditionRaised => 6
  | .logHigh => 7
  | .cassetteChanged => 8
  | .surveyDone => 9

/-- The ten kinds in the order of their codes, the order of SET_NOTICE_MASK's flags (11, R203). -/
def noticeKinds : List NoticeKind :=
  [.transportDone, .takeStarted, .takeEnded, .segmentEntered, .lockChangedA, .lockChangedB, .conditionRaised, .logHigh,
   .cassetteChanged, .surveyDone]

def ReplyCode.code : ReplyCode → Byte
  | .ok => 0
  | .adjusted => 1
  | .accepted => 2
  | .invalid => 3
  | .malformed => 4
  | .badValue => 5
  | .wrongState => 6
  | .busy => 7
  | .tooLate => 8
  | .full => 9
  | .notFound => 10
  | .duplicate => 11
  | .faultActive => 12
  | .notReferenced => 13
  | .conflict => 14

/-- The command kinds of the command table (11, R203). -/
def Cmd.code : Cmd → Byte
  | .identify => 0x01
  | .readStatus => 0x02
  | .setState => 0x03
  | .softReset => 0x04
  | .lockTables => 0x05
  | .setRates => 0x06
  | .loadCoeffRow => 0x07
  | .selectBank => 0x08
  | .setDeck => 0x09
  | .setPosition => 0x0A
  | .wind => 0x0B
  | .seek => 0x0C
  | .rewindToLeader => 0x0D
  | .stop => 0x0E
  | .survey => 0x0F
  | .loadSegment => 0x10
  | .deleteSegment => 0x11
  | .clearSegments => 0x12
  | .readSegment => 0x13
  | .startTake => 0x14
  | .readDropouts => 0x15
  | .setPolicy => 0x16
  | .clearConditions => 0x17
  | .setNoticeMask => 0x18
  | .setMonitor => 0x19
  | .setOutput => 0x1A

/-- A message's command kind: 0x00 and 0x1B..0xFF are unknown (11, R195, R203). -/
def Cmd.ofCode (b : Byte) : Option Cmd :=
  match b.toNat with
  | 0x01 => some .identify
  | 0x02 => some .readStatus
  | 0x03 => some .setState
  | 0x04 => some .softReset
  | 0x05 => some .lockTables
  | 0x06 => some .setRates
  | 0x07 => some .loadCoeffRow
  | 0x08 => some .selectBank
  | 0x09 => some .setDeck
  | 0x0A => some .setPosition
  | 0x0B => some .wind
  | 0x0C => some .seek
  | 0x0D => some .rewindToLeader
  | 0x0E => some .stop
  | 0x0F => some .survey
  | 0x10 => some .loadSegment
  | 0x11 => some .deleteSegment
  | 0x12 => some .clearSegments
  | 0x13 => some .readSegment
  | 0x14 => some .startTake
  | 0x15 => some .readDropouts
  | 0x16 => some .setPolicy
  | 0x17 => some .clearConditions
  | 0x18 => some .setNoticeMask
  | 0x19 => some .setMonitor
  | 0x1A => some .setOutput
  | _ => none

/-- The one argument length of a command kind (11, R203). -/
def Cmd.argLength : Cmd → Nat
  | .identify | .readStatus | .softReset | .rewindToLeader | .stop | .clearSegments | .clearConditions => 0
  | .setState | .lockTables | .selectBank | .wind | .readSegment | .readDropouts => 1
  | .setMonitor | .setOutput => 2
  | .setPosition | .seek | .deleteSegment => 3
  | .startTake | .setPolicy => 4
  | .setRates => 6
  | .survey | .setNoticeMask => 10
  | .setDeck => 14
  | .loadSegment => 68
  | .loadCoeffRow => 97

/-- Admission by device state: the table of R156 (09). -/
def Cmd.admitted : Cmd → DeviceState → Bool
  | .identify, _ | .readStatus, _ | .softReset, _ => true
  | .setState, .run => false
  | .setState, _ => true
  | _, .standby => false
  | _, .configure => true
  | .stop, .run | .readSegment, .run | .readDropouts, .run | .loadSegment, .run | .deleteSegment, .run
  | .clearConditions, .run | .setNoticeMask, .run | .setMonitor, .run => true
  | _, .run => false

/-! ## Rate pairs (06, R103; 05, R84) -/

def RatePair.fr : RatePair → Nat
  | .r384x96 | .r384x48 => 384000
  | .r352x88 | .r352x44 => 352800

def RatePair.fo : RatePair → Nat
  | .r384x96 => 96000
  | .r384x48 => 48000
  | .r352x88 => 88200
  | .r352x44 => 44100

/-- Fr / Fo: 4 or 8. -/
def RatePair.ratio : RatePair → Nat
  | .r384x96 | .r352x88 => 4
  | .r384x48 | .r352x44 => 8

/-- The nominal step N (05, R84). -/
def RatePair.nominal : RatePair → Nat
  | .r384x96 | .r352x88 => 67108864
  | .r384x48 | .r352x44 => 134217728

/-- The rate pair two numbers form, if they form one of the four (06, R104). -/
def RatePair.ofRates (fr fo : Nat) : Option RatePair :=
  if fr = 384000 ∧ fo = 96000 then some .r384x96
  else if fr = 384000 ∧ fo = 48000 then some .r384x48
  else if fr = 352800 ∧ fo = 88200 then some .r352x88
  else if fr = 352800 ∧ fo = 44100 then some .r352x44
  else none

/-- The lower and upper bound of a window of w per mille (05, R85). -/
def windowLo (r : RatePair) (w : Nat) : Nat := r.nominal - r.nominal * w / 1000

def windowHi (r : RatePair) (w : Nat) : Nat := r.nominal + r.nominal * w / 1000

/-! ## The checks of a lane part (03, R42 to R45) -/

/-- BIAS, HUM or PILOT: a reference found in the audio tracks. -/
def Source.isAudio : Source → Bool
  | .bias | .hum | .pilot => true
  | .tach | .nominal | .off => false

/-- BIAS, HUM, PILOT or TACH: a source that is measured (04, R71). -/
def Source.isMeasured : Source → Bool
  | .bias | .hum | .pilot | .tach => true
  | .nominal | .off => false

/-- A lane part as sent, if every enumerated field names something (03, R43). -/
def rawPart (p : PartArgs) : Option Settings :=
  match Source.ofCode p.source, AzMode.ofCode p.azMode, Pairing.ofCode p.pairing, DropoutPolicy.ofCode p.policy,
      Equalisation.ofCode p.eq with
  | some src, some mode, some pairing, some policy, some eq =>
    some { source := src, fRef := p.fRef.toNat, c := p.c.toNat, w := p.w.toNat, k := p.k.toNat, slew := p.slew.toNat,
           acquire := p.acquire.toNat, missCount := p.missCount.toNat, hold := p.hold.toNat, gate := p.gate.toNat,
           azMode := mode, fixedOffset := p.fixedOffset.toInt, theta := p.theta.toNat, ka := p.ka.toNat,
           pairing := pairing, policy := policy, depth := p.depth.toNat, release := p.release.toNat,
           onset := p.onset.toNat, releaseCount := p.releaseCount.toNat, blanking := p.blanking.toNat, eq := eq }
  | _, _, _, _, _ => none

/-- For TACH, NOMINAL and OFF, f_ref is stored as 0 and C as 16, whatever was sent (03, R44). -/
def Settings.storeUnmeasured (s : Settings) : Settings :=
  if s.source.isAudio then s else { s with fRef := 0, c := 16 }

/-- f_ref brought into its source's range (03, R44). -/
def clampFRef (src : Source) (f : Nat) : Nat :=
  match src with
  | .bias => clampNat 320000 3200000 f
  | .pilot => clampNat 16 3200000 f
  | .hum => clampNat 640 1120 f
  | .tach | .nominal | .off => f

/-- An f_ref at or above 0.45 Fr cannot be sampled cleanly (03, R45). -/
def fRefConflict (fr : Nat) (src : Source) (f : Nat) : Bool := src.isAudio && decide (fr * 72 ≤ f * 10)

/-- C brought into 1..4,096 and then into the range R45 gives an audio source (03, R44, R45). -/
def clampCrossings (fr : Nat) (src : Source) (f c : Nat) : Nat :=
  if src.isAudio then clampNat (ceilDiv f fr) (f / 4) (clampNat 1 4096 c) else c

/-- The numeric fields brought into the ranges of R42, release after depth (03, R44, R45). -/
def Settings.clampRanges (fr : Nat) (s : Settings) : Settings :=
  let f := clampFRef s.source s.fRef
  let depth := clampNat 1 255 s.depth
  { s with fRef := f, c := clampCrossings fr s.source f s.c, w := clampNat 5 80 s.w, k := clampNat 0 7 s.k,
           slew := clampNat 1 16777215 s.slew, acquire := clampNat 1 15 s.acquire,
           missCount := clampNat 1 15 s.missCount, hold := clampNat 0 255 s.hold, gate := clampNat 0 8388607 s.gate,
           fixedOffset := clampInt (-4096) 4096 s.fixedOffset, theta := clampNat 0 255 s.theta, ka := clampNat 0 7 s.ka,
           depth := depth, release := clampNat depth 255 s.release, onset := clampNat 1 15 s.onset,
           releaseCount := clampNat 1 15 s.releaseCount, blanking := clampNat 0 255 s.blanking }

/-- A present lane part after the checks: none is CONFLICT; otherwise the part to store and whether a value was
changed (03, R44, R45). -/
def Settings.checked (fr : Nat) (raw : Settings) : Option (Settings × Bool) :=
  let sent := raw.storeUnmeasured
  if fRefConflict fr sent.source (clampFRef sent.source sent.fRef) then none
  else some (sent.clampRanges fr, decide (sent.clampRanges fr ≠ sent))

end Sys2Proof.Machine
end

