-- ==== Sys2Proof/Machine/Trig.lean ====
section
/-! DEFINITION. The real numbers of the reference filters (04, R62, R63) and of the built-in banks (06, R114), worked out in fixed point with 128 fractional bits and rounded half up once (log 13). -/

namespace Sys2Proof.Machine

/-- The scale of the fixed point. -/
def fixedOne : Int := 0x100000000000000000000000000000000

/-- π in fixed point. -/
def piFixed : Int := 0x3243F6A8885A308D313198A2E03707344

/-- The sine series from the term given: each later term is the one before times -x² / (n (n + 1)). -/
def sineSeries (xx : Int) : Nat → Nat → Int → Int
  | 0, _, _ => 0
  | fuel + 1, n, term => term + sineSeries xx fuel (n + 2) (-(term * xx / fixedOne) / ((n * (n + 1) : Nat) : Int))

/-- sin(π p / q) in fixed point for 0 ≤ p / q ≤ 1/2. -/
def sineQuarter (p q : Nat) : Int :=
  let x := piFixed * p / q
  sineSeries (x * x / fixedOne) 24 2 x

/-- sin(π p / q) in fixed point, for q above 0. -/
def sinPi (p q : Nat) : Int :=
  let p := p % (2 * q)
  let (sign, p) : Int × Nat := if q ≤ p then (-1, p - q) else (1, p)
  let p := if q < 2 * p then q - p else p
  sign * sineQuarter p q

/-- cos(π p / q) in fixed point: the sine a quarter turn on. -/
def cosPi (p q : Nat) : Int := sinPi (2 * p + q) (2 * q)

/-- num / den in units of 2^-30, rounded half up (04, R62). -/
def roundQ30 (num den : Int) : Int := roundHalfUp (num * 0x40000000) den

/-- The band-pass coefficients of BIAS and PILOT (04, R62): ω = 2π f_ref / (16 Fr), α = sin ω max(W, 20) / 1000. Here
sd and den are α and 1 + α in units of 1 / (1000 fixedOne). -/
def bandPass (fr fRef w : Nat) : FilterCoeffs :=
  let sd := sinPi fRef (8 * fr) * (max w 20 : Nat)
  let cosw := cosPi fRef (8 * fr)
  let den := 1000 * fixedOne + sd
  { b0 := roundQ30 sd den, b1 := 0, b2 := roundQ30 (-sd) den,
    g1 := roundQ30 (-2 * cosw * 1000) den, g2 := roundQ30 (1000 * fixedOne - sd) den }

/-- The low-pass coefficients of HUM (04, R63): ω = 2π f_ref / (4 Fr), α = sin ω / √2, with 1 / √2 = cos(π / 4). Here sd
and den are α and 1 + α in units of 1 / fixedOne². -/
def lowPass (fr fRef : Nat) : FilterCoeffs :=
  let cosw := cosPi fRef (2 * fr)
  let sd := sinPi fRef (2 * fr) * cosPi 1 4
  let den := fixedOne * fixedOne + sd
  { b0 := roundQ30 ((fixedOne - cosw) * fixedOne) (2 * den), b1 := roundQ30 ((fixedOne - cosw) * fixedOne) den,
    b2 := roundQ30 ((fixedOne - cosw) * fixedOne) (2 * den),
    g1 := roundQ30 (-2 * cosw * fixedOne) den, g2 := roundQ30 (fixedOne * fixedOne - sd) den }

/-- The coefficients a tracker derives when it takes settings (04, R62 to R64). A source without a filter holds none. -/
def filterFor (r : RatePair) (s : Settings) : FilterCoeffs :=
  match s.source with
  | .bias | .pilot => bandPass r.fr s.fRef s.w
  | .hum => lowPass r.fr s.fRef
  | .tach | .nominal | .off => FilterCoeffs.zero

/-- The first value of coefficient j of row r of the built-in bank of a ratio (06, R114): 262,144 s w, rounded half up,
with x = j - 15 - r / 256 raw samples. k is 256 |x|; s and w are even in x. -/
def bankFirst (ratio r j : Nat) : Int :=
  let k := (256 * ((j : Int) - 15) - r).natAbs
  let w2 := fixedOne + cosPi k 4096
  if k = 0 then roundHalfUp (131072 * w2) (ratio * fixedOne)
  else roundHalfUp (131072 * 256 * sinPi k (256 * ratio) * w2) (piFixed * k * fixedOne)

/-- The first values of a row, and its shortfall from 262,144 (06, R114). -/
def bankFirsts (ratio r : Nat) : List Int := (List.range 32).map (bankFirst ratio r)

/-- Row r of the built-in bank of a ratio: the first values with the shortfall brought to coefficient 15 in rows 0..127,
to 16 in rows 129..255, half to each in row 128 (06, R114). -/
def builtInRow (ratio r : Nat) : List Int :=
  let firsts := bankFirsts ratio r
  let short := 262144 - firsts.sum
  let at15 := if r < 128 then short else if r = 128 then short / 2 else 0
  let at16 := if r < 128 then 0 else if r = 128 then short - short / 2 else short
  (firsts.set 15 (firsts.getD 15 0 + at15)).set 16 (firsts.getD 16 0 + at16)

end Sys2Proof.Machine
end

