-- ==== Sys2Proof/Machine/Ops.lean ====
section
/-! DEFINITION. The named operations the families share: the addressed buffers, one home for each record, the notice and reply queues, and the lane timeline. -/

namespace Sys2Proof.Machine

/-! ## Addressed buffers -/

/-- What a place reads as; an unlisted place reads 0. -/
def Memory.read : Memory → Nat → Int
  | [], _ => 0
  | (k, v) :: rest, a => if k = a then v else Memory.read rest a

/-- Write a place, keeping places rising and listing no 0. -/
def Memory.write : Memory → Nat → Int → Memory
  | [], a, v => if v = 0 then [] else [(a, v)]
  | (k, w) :: rest, a, v =>
    if a < k then (if v = 0 then (k, w) :: rest else (a, v) :: (k, w) :: rest)
    else if a = k then (if v = 0 then rest else (a, v) :: rest)
    else (k, w) :: Memory.write rest a v

/-- Every place listed lies at or above the bound, rising, with no value 0. -/
def Memory.wfFrom : Nat → Memory → Bool
  | _, [] => true
  | bound, (k, v) :: rest => decide (bound ≤ k) && decide (v ≠ 0) && Memory.wfFrom (k + 1) rest

/-- The canonical form: places strictly rising, none listed that reads 0. -/
def Memory.wf (m : Memory) : Bool := Memory.wfFrom 0 m

/-- The raw sample of a track at a raw index; below raw index 0 it reads 0 (01, R10). -/
def Rings.sample (r : Rings) (t : Track) (n : Int) : Int :=
  if n < 0 then 0 else (r.samples.get t).read (n.toNat % Config.ringSize)

/-- Write one frame to the four rings at its raw index (01, R10). -/
def Rings.write (r : Rings) (n : Nat) (f : PerTrack Int) : Rings :=
  { r with
    samples := ⟨r.samples.t1.write (n % Config.ringSize) f.t1, r.samples.t2.write (n % Config.ringSize) f.t2,
                r.samples.t3.write (n % Config.ringSize) f.t3, r.samples.t4.write (n % Config.ringSize) f.t4⟩ }

/-- The stamp of block b (01, R11). -/
def Rings.stamp (r : Rings) (b : Nat) : Nat := (r.stamps.read (b % Config.stampCount)).toNat

/-- Record the stamp of block b in place of that of block b - 1,024 (01, R11). -/
def Rings.setStamp (r : Rings) (b position : Nat) : Rings :=
  { r with stamps := r.stamps.write (b % Config.stampCount) position }

/-- A row of the loaded bank (06, R114). -/
def LoadedBank.row (b : LoadedBank) (r : Nat) : List Int := (List.range 32).map fun j => b.coeffs.read (32 * r + j)

/-- Write coefficients from a place on. -/
def writeFrom (m : Memory) : Nat → List Int → Memory
  | _, [] => m
  | a, v :: rest => writeFrom (m.write a v) (a + 1) rest

/-- Replace a row whole and mark it written (06, R115). -/
def LoadedBank.writeRow (b : LoadedBank) (r : Nat) (coeffs : List Int) : LoadedBank :=
  { coeffs := writeFrom b.coeffs (32 * r) coeffs, written := b.written.write r 1 }

/-- All 256 rows are marked written (06, R116). -/
def LoadedBank.full (b : LoadedBank) : Bool := (List.range 256).all fun r => b.written.read r != 0

/-- A row of the bank in use (06, R114). -/
def bankRow (u : Setup) (b : LoadedBank) (r : Nat) : List Int :=
  if u.bankLoaded then b.row r else builtInRow u.rates.ratio r

/-! ## One home for each record -/

def State.onPart (s : State) (f : Part → Part) : State := { s with part := f s.part }

def Part.setTracker (p : Part) (l : Lane) (t : Tracker) : Part := { p with rft := p.rft.set l t }

def Part.setProducer (p : Part) (l : Lane) (x : Producer) : Part := { p with lanes := p.lanes.set l x }

def Part.setAligner (p : Part) (l : Lane) (x : Aligner) : Part := { p with aza := p.aza.set l x }

def Part.setDetector (p : Part) (t : Track) (d : Detector) : Part := { p with det := p.det.set t d }

def Part.setConcealer (p : Part) (t : Track) (c : Concealer) : Part := { p with con := p.con.set t c }

/-- A lane is producing while it is ACTIVE or DRAINING (06, R105). -/
def Producer.producing (x : Producer) : Bool := x.state != .idle

/-- The integer part i of the accumulator (06, R105). -/
def Producer.index (x : Producer) : Nat := x.acc / Config.q24

/-- Its fraction f (06, R105). -/
def Producer.fraction (x : Producer) : Nat := x.acc % Config.q24

/-- The second track's point P2 = P + az × 65,536 (06, R112). -/
def Producer.acc2 (x : Producer) : Int := x.acc + x.az * 65536

/-- The oldest raw index a lane still needs: i - 32, while it produces from a source other than OFF (01, R12; 06, R110). -/
def Producer.oldestNeeded (x : Producer) : Option Int :=
  if x.producing && x.settings.source != .off then some ((x.index : Int) - Config.reach) else none

/-- The transport is STOPPED and the operation kind NONE (02, R21). -/
def Part.atRest (p : Part) : Bool := p.trc.state == .stopped && p.trc.op.kind == .none

/-- A lane's effective settings at the arrival point (03, R50, R52). -/
def Part.effective (p : Part) (l : Lane) : Settings :=
  match p.sgt.arrival.get l with
  | some e => (e.parts.get l).getD Settings.defaults
  | none => Settings.defaults

/-- The equalisation pair of the effective settings (01, R8). -/
def Part.eqPair (p : Part) : EqPair := ⟨(p.effective .a).eq, (p.effective .b).eq⟩

/-- Raise the timebase to an event's reading (log 3). -/
def Part.advance (p : Part) (now : Nat) : Part := { p with timebase := max p.timebase now }

/-! ## Settings words (01, R8) -/

/-- A settings word falls due: it is sent at once, or waits while another is being sent, in place of one waiting. -/
def HeadReceiver.wordDue (h : HeadReceiver) (pair : EqPair) : HeadReceiver :=
  match h.wordSending with
  | none => { h with wordSending := some pair }
  | some _ => { h with wordWaiting := some pair }

/-- The pair a transition's pair is compared with: the word that waits, else the word being sent, else the word last
sent. -/
def HeadReceiver.latestWord (h : HeadReceiver) : Option EqPair := (h.wordWaiting.or h.wordSending).or h.wordLast

/-! ## Notices and replies (10, R186; 11, R197) -/

def NoticeContent.kind : NoticeContent → NoticeKind
  | .transportDone .. => .transportDone
  | .takeStarted .. => .takeStarted
  | .takeEnded .. => .takeEnded
  | .segmentEntered .. => .segmentEntered
  | .lockChanged .a .. => .lockChangedA
  | .lockChanged .b .. => .lockChangedB
  | .conditionRaised .. => .conditionRaised
  | .logHigh .. => .logHigh
  | .cassetteChanged .. => .cassetteChanged
  | .surveyDone .. => .surveyDone

/-- The content a queued notice takes from a newer one: the newer content, but for CONDITION_RAISED the union of both
(10, R181, R186). -/
def NoticeContent.replaceBy (old new : NoticeContent) : NoticeContent :=
  match old, new with
  | .conditionRaised x, .conditionRaised y => .conditionRaised (x ||| y)
  | _, _ => new

/-- Post to the queue: at the back with a count of 1, or in the place of the queued notice of its kind with the count
raised by 1, saturating at 255 (10, R186). -/
def postNotice (c : NoticeContent) : List Notice → List Notice
  | [] => [⟨c, 1⟩]
  | n :: rest =>
    if n.content.kind = c.kind then ⟨n.content.replaceBy c, min 255 (n.count + 1)⟩ :: rest
    else n :: postNotice c rest

def Part.post (p : Part) (c : NoticeContent) : Part := { p with msp := { p.msp with notices := postNotice c p.msp.notices } }

/-- Queue a reply at the back (11, R197). -/
def Part.reply (p : Part) (r : Reply) : Part := { p with msp := { p.msp with replies := p.msp.replies ++ [r] } }

/-! ## The lane timeline (05, R95 to R100) -/

/-- Apply one entry to the production record: STEP (R98), AZIMUTH (R99), SETTINGS (R100). -/
def Producer.apply (r : RatePair) (x : Producer) (e : TimelineEntry) : Producer :=
  match e.item with
  | .step v => { x with applied := clampNat (windowLo r x.settings.w) (windowHi r x.settings.w) v }
  | .azimuth v => { x with az := v }
  | .settings start s =>
    { x with settings := s, governing := start, applied := clampNat (windowLo r s.w) (windowHi r s.w) x.applied,
             az := (match s.azMode with
               | .fixed | .seeded => s.fixedOffset
               | .track => x.az),
             mark := true }

/-- Apply in list order, and remove, every entry whose stamp is at or below i (05, R97). -/
def Producer.applyDue (r : RatePair) (x : Producer) : Producer :=
  let i := x.index
  (x.timeline.filter fun e => decide (e.stamp ≤ i)).foldl (Producer.apply r)
    { x with timeline := x.timeline.filter fun e => decide (i < e.stamp) }

/-- Insert after every entry whose stamp is at or below the entry's own (05, R95). -/
def insertEntry (e : TimelineEntry) : List TimelineEntry → List TimelineEntry
  | [] => [e]
  | x :: rest => if x.stamp ≤ e.stamp then x :: insertEntry e rest else e :: x :: rest

/-- The first entry of a full timeline is applied early (05, R96). -/
def Producer.overflow (r : RatePair) (x : Producer) : Producer :=
  match x.timeline with
  | [] => x
  | e :: rest => if Config.maxTimeline ≤ x.timeline.length then Producer.apply r { x with timeline := rest } e else x

/-- Post an entry: a due one is inserted and every due entry applied; another waits, after an overflow if the list is
full (05, R95, R96). -/
def Producer.post (r : RatePair) (x : Producer) (e : TimelineEntry) : Producer :=
  if e.stamp ≤ x.index then Producer.applyDue r { x with timeline := insertEntry e x.timeline }
  else
    let y := x.overflow r
    { y with timeline := insertEntry e y.timeline }

/-- Post an entry to a lane's timeline. -/
def Part.postEntry (u : Setup) (l : Lane) (e : TimelineEntry) (p : Part) : Part :=
  p.setProducer l ((p.lanes.get l).post u.rates e)

end Sys2Proof.Machine
end

