-- ==== Sys2Proof/Machine/Flags.lean ====
section
/-! DEFINITION. Every flag computation: the condition records and what a report does under each policy (10, R177 to R184), the flags READY, FAULT and WARN, and the status octet (10, R185). -/

namespace Sys2Proof.Machine

def PerCond.get {α : Type} (x : PerCond α) : CondId → α
  | .rawHeld => x.rawHeld
  | .rawLost => x.rawLost
  | .cellError => x.cellError
  | .overrun => x.overrun
  | .stall => x.stall
  | .slip => x.slip
  | .logFull => x.logFull
  | .lockLost l => x.lockLost.get l
  | .range l => x.range.get l
  | .clip l => x.clip.get l

def PerCond.set {α : Type} (x : PerCond α) (id : CondId) (v : α) : PerCond α :=
  match id with
  | .rawHeld => { x with rawHeld := v }
  | .rawLost => { x with rawLost := v }
  | .cellError => { x with cellError := v }
  | .overrun => { x with overrun := v }
  | .stall => { x with stall := v }
  | .slip => { x with slip := v }
  | .logFull => { x with logFull := v }
  | .lockLost l => { x with lockLost := x.lockLost.set l v }
  | .range l => { x with range := x.range.set l v }
  | .clip l => { x with clip := x.clip.set l v }

/-- The thirteen records in the order of the condition flag set's bits (11, R203). -/
def condIds : List CondId :=
  [.rawHeld, .rawLost, .cellError, .overrun, .stall, .slip, .logFull, .lockLost .a, .lockLost .b, .range .a, .range .b,
   .clip .a, .clip .b]

/-- A condition's bit in the condition flag set (11, R203). -/
def CondId.bit : CondId → Nat
  | .rawHeld => 0
  | .rawLost => 1
  | .cellError => 2
  | .overrun => 3
  | .stall => 4
  | .slip => 5
  | .logFull => 6
  | .lockLost .a => 7
  | .lockLost .b => 8
  | .range .a => 9
  | .range .b => 10
  | .clip .a => 11
  | .clip .b => 12

/-- The set that holds one condition. -/
def CondId.mask (id : CondId) : BitVec 16 := BitVec.ofNat 16 (2 ^ id.bit)

/-- The condition flag set: a bit for each flag that is set (11, R203). -/
def flagSet (c : PerCond CondStatus) : BitVec 16 :=
  condIds.foldl (fun acc id => if (c.get id).flag then acc ||| id.mask else acc) 0

/-- The policies a condition allows (10, R176). -/
def CondId.allowed : CondId → List Policy
  | .rawHeld => [.auto, .warn, .off]
  | .rawLost | .overrun | .stall => [.stop]
  | .cellError => [.warn]
  | .slip => [.stop, .warn, .off]
  | .logFull => [.stop, .warn]
  | .lockLost _ => [.muteLane, .warn, .auto, .off]
  | .range _ | .clip _ => [.warn, .auto, .off]

/-- A record counts as present: a state condition as reported, CLIP under AUTO while its clip hold count is above 0, any
other event condition never (10, R177, R183, R184). -/
def CondStatus.isPresent (id : CondId) (policy : Policy) (c : CondStatus) : Bool :=
  match id with
  | .clip _ => policy == .auto && decide (0 < c.hold)
  | .rawLost | .cellError | .overrun | .stall | .logFull => false
  | .rawHeld | .slip | .lockLost _ | .range _ => c.present

def Part.setStatus (p : Part) (id : CondId) (c : CondStatus) : Part := { p with cmn := p.cmn.set id c }

/-- Set a flag; a change from clear to set posts CONDITION_RAISED (10, R181). -/
def Part.setFlag (p : Part) (id : CondId) : Part :=
  let c := p.cmn.get id
  if c.flag then p else (p.setStatus id { c with flag := true }).post (.conditionRaised id.mask)

/-- What a raised condition does under its policy: the flag, and under STOP, or MUTE_LANE with scope DEVICE, a
condition stop request (10, R178 to R180). The mute of scope LANE follows from the flag. -/
def Part.raise (u : Setup) (id : CondId) (p : Part) : Part :=
  let rec_ := u.policies.get id
  match rec_.policy with
  | .stop => { p.setFlag id with stopPending := true }
  | .muteLane =>
    match rec_.scope with
    | .lane => p.setFlag id
    | .device => { p.setFlag id with stopPending := true }
  | .warn | .auto => p.setFlag id
  | .off => p

/-- A state condition is reported present (10, R177). -/
def Part.reportPresent (u : Setup) (id : CondId) (p : Part) : Part :=
  let c := p.cmn.get id
  if c.present then p else Part.raise u id (p.setStatus id { c with present := true })

/-- A state condition is reported absent: under AUTO its flag is cleared (10, R177, R180). -/
def Part.reportAbsent (u : Setup) (id : CondId) (p : Part) : Part :=
  let c := p.cmn.get id
  if c.present then p.setStatus id { c with present := false, flag := c.flag && (u.policies.get id).policy != .auto }
  else p

/-- Report a state condition. -/
def Part.report (u : Setup) (id : CondId) (present : Bool) (p : Part) : Part :=
  if present then p.reportPresent u id else p.reportAbsent u id

/-- An occurrence of an event condition (10, R177). -/
def Part.occur (u : Setup) (id : CondId) (p : Part) : Part := p.raise u id

/-- A CLIP occurrence sets the lane's clip hold count to 4,096 under every policy (10, R177). -/
def Part.clipOccur (u : Setup) (l : Lane) (p : Part) : Part :=
  Part.raise u (.clip l) (p.setStatus (.clip l) { p.cmn.get (.clip l) with hold := Config.clipHold })

/-- The clip hold count has reached 0: CLIP is absent, and under AUTO its flag is cleared (10, R177, R180). -/
def Part.clipExpire (u : Setup) (l : Lane) (p : Part) : Part :=
  let c := p.cmn.get (.clip l)
  if c.hold = 0 ∧ (u.policies.get (.clip l)).policy = .auto then p.setStatus (.clip l) { c with flag := false } else p

/-- An output frame without an occurrence lowers the clip hold count by 1 (10, R177). -/
def Part.clipLower (u : Setup) (l : Lane) (p : Part) : Part :=
  let c := p.cmn.get (.clip l)
  if c.hold = 0 then p else Part.clipExpire u l (p.setStatus (.clip l) { c with hold := c.hold - 1 })

/-- The Condition Monitor holds a lane muted: LOCK_LOST's flag is set under MUTE_LANE with scope LANE (10, R179). -/
def Part.muted (u : Setup) (p : Part) (l : Lane) : Bool :=
  (p.cmn.get (.lockLost l)).flag && (u.policies.get (.lockLost l)).policy == .muteLane
    && (u.policies.get (.lockLost l)).scope == .lane

/-- A record's flag refuses START_TAKE and SURVEY: set under STOP, or under MUTE_LANE with scope DEVICE (10, R178, R179). -/
def stopsStart (r : PolicyRec) (c : CondStatus) : Bool :=
  c.flag && (r.policy == .stop || (r.policy == .muteLane && r.scope == .device))

/-- FAULT_ACTIVE (04, R80; 09, R158). -/
def faultActive (u : Setup) (p : Part) : Bool := condIds.any fun id => stopsStart (u.policies.get id) (p.cmn.get id)

/-- What a SET_POLICY does to a record it has changed: the table of R183 (10). -/
def Part.policySet (u : Setup) (id : CondId) (p : Part) : Part :=
  let c := p.cmn.get id
  let policy := (u.policies.get id).policy
  let present := c.isPresent id policy
  match policy with
  | .stop | .muteLane | .warn => if present then p.raise u id else p
  | .auto => if present then p.setFlag id else p.setStatus id { c with flag := false }
  | .off => p.setStatus id { c with flag := false }

/-- CLEAR_CONDITIONS on one record: its flag is cleared if it is set under STOP, MUTE_LANE or WARN and the record is
absent (10, R184). -/
def clearedStatus (id : CondId) (r : PolicyRec) (c : CondStatus) : CondStatus :=
  match r.policy with
  | .stop | .muteLane | .warn => if c.isPresent id r.policy then c else { c with flag := false }
  | .auto | .off => c

/-! ## READY and the status octet -/

/-- READY: the assembler is IDLE and the reply queue holds fewer than 8 replies (11, R196). -/
def Part.ready (p : Part) : Bool := p.msp.assembler.isNone && decide (p.msp.replies.length < Config.maxReplies)

/-- FAULT: a flag is set whose policy is STOP or MUTE_LANE (10, R185). -/
def Part.fault (u : Setup) (p : Part) : Bool :=
  condIds.any fun id => (p.cmn.get id).flag
    && ((u.policies.get id).policy == .stop || (u.policies.get id).policy == .muteLane)

/-- WARN: a flag is set whose policy is WARN or AUTO (10, R185). -/
def Part.warn (u : Setup) (p : Part) : Bool :=
  condIds.any fun id => (p.cmn.get id).flag
    && ((u.policies.get id).policy == .warn || (u.policies.get id).policy == .auto)

/-- The status octet, FAULT in bit 7 down to TAKE in bit 0 (10, R185; 11, R203). -/
def statusOctet (u : Setup) (p : Part) : Byte :=
  BitVec.ofBool (p.fault u) ++ BitVec.ofBool (p.warn u) ++ BitVec.ofBool (p.rft.a.lock == .locked)
    ++ BitVec.ofBool (p.rft.b.lock == .locked) ++ BitVec.ofBool (p.trc.state != .stopped)
    ++ BitVec.ofBool (!p.msp.notices.isEmpty) ++ BitVec.ofBool p.ready ++ BitVec.ofBool (p.take.device == .run)

end Sys2Proof.Machine
end

