-- ==== Sys2Proof/Machine/Dropout.lean ====
section
/-! DEFINITION. The Dropout Unit (08): block levels, the detector, span lists, concealment, dropout records and the log. -/

namespace Sys2Proof.Machine

/-! ## Detection (R133 to R142) -/

/-- The settings a detector takes from a lane's effective settings (R133). -/
def Settings.dropout (s : Settings) : DropoutSettings :=
  { policy := s.policy, depth := s.depth, release := s.release, onset := s.onset, releaseCount := s.releaseCount,
    blanking := s.blanking }

/-- The level of block b of a track: the greatest magnitude of its 64 samples (R134). -/
def Rings.blockLevel (r : Rings) (t : Track) (b : Nat) : Nat :=
  (List.range Config.blockSize).foldl (fun acc k => max acc (r.sample t ((Config.blockSize * b + k : Nat) : Int)).natAbs) 0

/-- A low block (R137). -/
def Detector.isLow (d : Detector) (level : Nat) : Bool := decide (level * 256 < d.ref * d.settings.depth)

/-- A release block (R137). -/
def Detector.isRelease (d : Detector) (level : Nat) : Bool := decide (d.ref * d.settings.release ≤ level * 256)

/-- The reference level after an ordinary block: seeded, or moved a sixty-fourth of the way (R135). -/
def refAfter (ref level : Nat) : Nat :=
  if ref = 0 then level else ((ref : Int) + shiftRight ((level : Int) - ref) 6).toNat

/-- Start blanking with a value: above 0 it abandons an ONSET run (R136). -/
def Detector.startBlanking (d : Detector) (v : Nat) : Detector :=
  if 0 < v ∧ d.state = .onset then { d with blank := v, state := .clear, run := 0, pendingStart := none }
  else { d with blank := v }

/-- Confirm a dropout: the open dropout takes the pending start, and an open span joins the list (R138). -/
def confirmDropout (t : Track) (take : Nat) (ps : PendingStart) (length : Nat) (d : Detector) (spans : List Span) :
    Detector × List Span :=
  ({ d with state := .dropped, run := 0, pendingStart := none,
            openDropout := some ⟨ps.block, ps.stamp, ps.label, ps.least, length⟩ },
   spans ++ [{ start := Config.blockSize * ps.block, last := none, take := take, track := t, position := ps.stamp,
               label := ps.label, length := length, least := ps.least, ref := d.ref, truncated := false,
               actions := ⟨false, false, false⟩, firstFrame := none, lastFrame := none }])

/-- Close the open span of a list with its last raw index, length and least level (R139, R140, R142). -/
def closeSpans (last length least : Nat) (truncated : Bool) (spans : List Span) : List Span :=
  spans.map fun s =>
    if s.last.isNone then { s with last := some last, length := length, least := least, truncated := truncated } else s

/-- Blocks that join a dropout; the length saturates at 65,535 (R139). -/
def OpenDropout.join (o : OpenDropout) (blocks level : Nat) : OpenDropout :=
  { o with length := min 65535 (o.length + blocks), least := min o.least level }

/-- The dropout ends with the block before a release run of the given count that ends with block b (R139). -/
def endDropout (b run : Nat) (d : Detector) (spans : List Span) : Detector × List Span :=
  ({ d with state := .clear, run := 0, openDropout := none },
   match d.openDropout with
   | some o => closeSpans (Config.blockSize * (b - run) + 63) o.length o.least false spans
   | none => spans)

/-- The detector judges block b of level `level` (R135, R137 to R139): the table of R139. -/
def judgeBlock (t : Track) (take b stamp label level : Nat) (d : Detector) (spans : List Span) : Detector × List Span :=
  match d.state with
  | .clear =>
    if d.isLow level then
      if 0 < d.blank then (d, spans)
      else
        let ps : PendingStart := ⟨b, stamp, label, level⟩
        if d.settings.onset ≤ 1 then confirmDropout t take ps 1 d spans
        else ({ d with state := .onset, run := 1, pendingStart := some ps }, spans)
    else if 0 < d.blank then (d, spans)
    else ({ d with ref := refAfter d.ref level }, spans)
  | .onset =>
    match d.pendingStart with
    | some ps =>
      if d.isLow level then
        let ps := { ps with least := min ps.least level }
        if d.settings.onset ≤ d.run + 1 then confirmDropout t take ps (d.run + 1) d spans
        else ({ d with run := d.run + 1, pendingStart := some ps }, spans)
      else ({ d with state := .clear, run := 0, pendingStart := none }, spans)
    | none => ({ d with state := .clear, run := 0 }, spans)
  | .dropped =>
    if d.isRelease level then
      if d.settings.releaseCount ≤ 1 then endDropout b 1 d spans
      else ({ d with state := .releasing, run := 1 }, spans)
    else ({ d with openDropout := d.openDropout.map fun o => o.join 1 level }, spans)
  | .releasing =>
    if d.isRelease level then
      if d.settings.releaseCount ≤ d.run + 1 then endDropout b (d.run + 1) d spans
      else ({ d with run := d.run + 1 }, spans)
    else
      ({ d with state := .dropped, run := 0, openDropout := d.openDropout.map fun o => o.join (d.run + 1) level }, spans)

/-- The item label in force: the current entry's, or 0 (03, R56). -/
def Part.itemLabel (p : Part) : Nat :=
  match p.sgt.current with
  | some e => e.label
  | none => 0

/-- A completed block of a track: its level is formed and, unless the policy in use is OFF, judged; the blanking count
falls when a blanked block has been judged (R134, R136, R137). -/
def Part.trackBlock (rings : Rings) (b : Nat) (t : Track) (p : Part) : Part :=
  let d := p.det.get t
  if d.running then
    let level := rings.blockLevel t b
    let d := { d with level := level }
    if d.settings.policy = .off then p.setDetector t d
    else
      let c := p.con.get t
      let (d', spans) := judgeBlock t p.take.number b (rings.stamp b) p.itemLabel level d c.spans
      (p.setDetector t { d' with blank := d'.blank - 1 }).setConcealer t { c with spans := spans }
  else p

/-- The detectors of all four tracks judge a completed block (01, R9). -/
def Part.blockComplete (rings : Rings) (b : Nat) (p : Part) : Part :=
  [Track.t1, Track.t2, Track.t3, Track.t4].foldl (fun p t => p.trackBlock rings b t) p

/-- Blanking starts for both tracks of a lane with the value in use (R136). -/
def Part.startBlanking (l : Lane) (p : Part) : Part :=
  let p := p.setDetector l.first ((p.det.get l.first).startBlanking (p.det.get l.first).settings.blanking)
  p.setDetector l.second ((p.det.get l.second).startBlanking (p.det.get l.second).settings.blanking)

/-- A lane transition at block b (R140). -/
def detectorTransition (new : DropoutSettings) (b : Nat) (d : Detector) (spans : List Span) : Detector × List Span :=
  let d := { d with settings := new }.startBlanking new.blanking
  if new.policy = .off then
    match d.openDropout with
    | some o =>
      let run := if d.state = .releasing then d.run else 0
      ({ d with state := .clear, run := 0, pendingStart := none, openDropout := none },
       closeSpans (Config.blockSize * b - 1) (min 65535 (o.length + run)) o.least false spans)
    | none => ({ d with state := .clear, run := 0, pendingStart := none }, spans)
  else (d, spans)

def Part.trackTransition (new : DropoutSettings) (b : Nat) (t : Track) (p : Part) : Part :=
  let c := p.con.get t
  let (d, spans) := detectorTransition new b (p.det.get t) c.spans
  (p.setDetector t d).setConcealer t { c with spans := spans }

/-- A detector at START_TAKE (R141). -/
def Detector.takeStart (new : DropoutSettings) : Detector :=
  { running := true, settings := new, level := 0, ref := 0, blank := new.blanking, state := .clear, run := 0,
    pendingStart := none, openDropout := none }

/-- A detector at the end of a take: an ONSET run is abandoned, an open dropout is closed as truncated at the block that
holds the end raw index (R142). -/
def truncateDropout (endIndex : Option Nat) (d : Detector) (spans : List Span) : Detector × List Span :=
  let closed : List Span :=
    match d.openDropout, endIndex with
    | some o, some e => closeSpans e (min 65535 (e / Config.blockSize - o.block + 1)) o.least true spans
    | _, _ => spans
  ({ d with running := false, blank := 0, state := .clear, run := 0, pendingStart := none, openDropout := none }, closed)

def Part.trackTakeEnd (endIndex : Option Nat) (t : Track) (p : Part) : Part :=
  let c := p.con.get t
  let (d, spans) := truncateDropout endIndex (p.det.get t) c.spans
  (p.setDetector t d).setConcealer t { c with spans := spans }

def Part.detectorsTakeEnd (endIndex : Option Nat) (p : Part) : Part :=
  [Track.t1, Track.t2, Track.t3, Track.t4].foldl (fun p t => p.trackTakeEnd endIndex t) p

/-! ## Concealment (R144 to R149) -/

/-- An index lies within a span: at or above its start, and at or below its last raw index if it has one (R144). -/
def Span.holds (s : Span) (index : Int) : Bool :=
  decide ((s.start : Int) ≤ index) &&
    match s.last with
    | some last => decide (index ≤ (last : Int))
    | none => true

/-- A track's index at a production step: i for the first track, i2 for the second (R144). -/
def Producer.trackIndex (x : Producer) (second : Bool) : Int := if second then x.acc2 / Config.q24 else x.index

/-- The substitute source of a step (R145). -/
def chooseSource (muted affected partnerInside : Bool) (policy : DropoutPolicy) (pairing : Pairing) (held : Substitute) :
    Substitute :=
  if muted then .zero
  else if affected && policy == .conceal && pairing == .monoPair then (if partnerInside then .zero else .partner)
  else if affected && (policy == .conceal || policy == .mute) then .zero
  else if held == .partner && partnerInside then .zero
  else held

/-- The weight after its move (R146, R149). -/
def weightAfter (muted affected : Bool) (policy : DropoutPolicy) (g : Nat) : Nat :=
  if muted || (affected && (policy == .conceal || policy == .mute)) then g - 1 else min 64 (g + 1)

/-- The action of a track (R148). -/
def actionOf (muted affected : Bool) (policy : DropoutPolicy) (source : Substitute) : TrackAction :=
  if affected then
    if muted then .mute
    else if policy == .mark then .marked
    else if source == .partner then .crossfill
    else .mute
  else .none

/-- The track's output: own and substitute weighted, rounded half up (R146). -/
def mix (own substitute : Int) (g : Nat) : Int := (own * g + substitute * (64 - (g : Int)) + 32) / 64

def ActionSet.add (s : ActionSet) : TrackAction → ActionSet
  | .none => s
  | .marked => { s with marked := true }
  | .crossfill => { s with crossfill := true }
  | .mute => { s with mute := true }

/-- An affected sample adds its action and its frame count to its span (R148). -/
def markSpans (index : Int) (action : TrackAction) (frame : Nat) (spans : List Span) : List Span :=
  spans.map fun s =>
    if s.holds index then
      { s with actions := s.actions.add action, firstFrame := some (s.firstFrame.getD frame), lastFrame := some frame }
    else s

/-- An index lies within a span of a list (R144, R145). -/
def insideSpans (index : Int) (spans : List Span) : Bool := spans.any fun s => s.holds index

/-- A track is affected at a step: its index lies within one of its spans, under a policy other than OFF (R144). -/
def Concealer.affected (settings : Settings) (index : Int) (c : Concealer) : Bool :=
  settings.policy != .off && insideSpans index c.spans

/-- The substitute source a track chooses at a step (R145). -/
def Concealer.chosen (settings : Settings) (muted : Bool) (index partnerIndex : Int) (partnerSpans : List Span)
    (c : Concealer) : Substitute :=
  chooseSource muted (c.affected settings index) (insideSpans partnerIndex partnerSpans) settings.policy settings.pairing c.source

/-- Concealment of one track at one step (R144 to R149): own and partner are the samples the convolution made. -/
def concealTrack (settings : Settings) (muted : Bool) (frame : Nat) (own partner index partnerIndex : Int)
    (partnerSpans : List Span) (c : Concealer) : Concealer × TrackPart :=
  let affected := c.affected settings index
  let source := c.chosen settings muted index partnerIndex partnerSpans
  let g := weightAfter muted affected settings.policy c.g
  let action := actionOf muted affected settings.policy source
  ({ g := g, source := source, spans := if affected then markSpans index action frame c.spans else c.spans },
   { sample := mix own (match source with
       | .partner => partner
       | .zero => 0) g,
     action := action, below := decide (g < 64), switched := source != c.source && decide (g < 64) })

/-! ## Records and the log (R150 to R152) -/

/-- The action of a record (R150). -/
def ActionSet.record (s : ActionSet) : RecordAction :=
  match s.marked, s.crossfill, s.mute with
  | false, true, false => .crossfilled
  | false, false, true => .muted
  | true, false, false | false, false, false => .marked
  | true, true, _ | true, _, true | _, true, true => .mixed

/-- The dropout record of a span (R150). -/
def Span.toRecord (s : Span) : DropoutRecord :=
  { take := s.take, track := s.track, start := s.start, position := s.position, length := s.length,
    ratio := min 255 (256 * s.least / s.ref), action := s.actions.record, truncated := s.truncated, label := s.label,
    firstFrame := s.firstFrame, lastFrame := s.lastFrame }

/-- Write a record to the log: LOG_HIGH at the 192nd, LOG_FULL for one that finds no room (R152). -/
def Part.logRecord (u : Setup) (p : Part) (r : DropoutRecord) : Part :=
  if p.log.length < Config.maxLog then
    let p' := { p with log := p.log ++ [r] }
    if p.log.length + 1 = Config.logHigh then p'.post (.logHigh Config.logHigh r.take) else p'
  else p.occur u .logFull

/-- Write the records of the spans of a track that a test picks, in list order, and take them out of the list (R151). -/
def Part.writeSpans (u : Setup) (t : Track) (pick : Span → Bool) (p : Part) : Part :=
  let c := p.con.get t
  ((c.spans.filter pick).map Span.toRecord).foldl (fun p r => p.logRecord u r)
    (p.setConcealer t { c with spans := c.spans.filter fun s => !pick s })

/-- A span the track's index has passed (R151). -/
def Span.passed (index : Int) (s : Span) : Bool :=
  match s.last with
  | some last => decide ((last : Int) < index)
  | none => false

/-- The records a lane's step writes: the first track's, then the second's (R151). -/
def Part.writePassed (u : Setup) (l : Lane) (p : Part) : Part :=
  let x := p.lanes.get l
  (p.writeSpans u l.first (Span.passed (x.trackIndex false))).writeSpans u l.second (Span.passed (x.trackIndex true))

/-- The records a lane's finish writes: every span still listed (R151). -/
def Part.writeAll (u : Setup) (l : Lane) (p : Part) : Part :=
  (p.writeSpans u l.first fun _ => true).writeSpans u l.second fun _ => true

end Sys2Proof.Machine
end

