-- ==== Sys2Proof/Machine/Tracking.lean ====
section
/-! DEFINITION. The Reference Trackers (04) and speed correction (05): filter, crossings, measurements, the lock state machine, ramp moves, transitions and the survey accumulators. -/

namespace Sys2Proof.Machine

/-! ## What a measurement is made of -/

/-- C of the settings in use; C_tach for TACH (04, R64). -/
def Tracker.crossings (t : Tracker) : Nat := if t.settings.source = .tach then Config.tachCount else t.settings.c

/-- f_ref of the settings in use; the deck's nominal tick rate for TACH (04, R64). -/
def Tracker.reference (u : Setup) (t : Tracker) : Nat :=
  if t.settings.source = .tach then u.deck.tickRate else t.settings.fRef

/-- P_span: the nominal span of C cycles in raw samples (04, R68). -/
def pSpan (fr c fRef : Nat) : Nat := c * fr * 16 / fRef

/-- P_span of the settings in use. -/
def Tracker.span (u : Setup) (t : Tracker) : Nat := pSpan u.rates.fr t.crossings (t.reference u)

/-- The step of a measured span, rounded half up (05, R86). -/
def stepOf (fo c fRef span : Nat) : Nat := (span * fRef * 4096 + c * fo / 2) / (c * fo)

/-- The tracker is measuring: capture runs, and it tracks a measured source in a take or surveys (04, R71, R81). -/
def Part.measuring (p : Part) (l : Lane) : Bool :=
  p.hcr.capturing &&
    match (p.rft.get l).mode with
    | .none => false
    | .take => (p.rft.get l).settings.source.isMeasured
    | .survey => true

/-- A measurement opened by the crossing of the given timestamp and raw index, with the settings then in use (04, R67). -/
def Tracker.opening (u : Setup) (t : Tracker) (stamp index : Nat) : Measurement :=
  { t0 := stamp, counted := 0, c := t.crossings, fRef := t.reference u, lo := windowLo u.rates t.settings.w,
    hi := windowHi u.rates t.settings.w, lastStamp := stamp, lastIndex := index }

/-! ## Lock state and its reports -/

/-- Change a lane's lock state: LOCK_CHANGED with S as it then stands, and LOCK_LOST present in FALLBACK alone (04, R76). The notice of
the change is posted before LOCK_LOST is reported (log 7: the spec gives LOCK_CHANGED and CONDITION_RAISED no order). -/
def Part.changeLock (u : Setup) (l : Lane) (new : LockState) (index : Option Nat) (p : Part) : Part :=
  let t := p.rft.get l
  if t.lock = new then p
  else
    ((p.setTracker l { t with lock := new }).post (.lockChanged l t.lock new index t.step)).report u (.lockLost l)
      (new == .fallback)

/-- Post a STEP entry carrying S (05, R88, R92). -/
def Part.postStep (u : Setup) (l : Lane) (stamp : Nat) (p : Part) : Part :=
  p.postEntry u l ⟨stamp, .step (p.rft.get l).step⟩

/-- Enter LOCKED: the miss counter becomes 0 and dropout blanking starts (04, R72, R74 to R76). -/
def Part.enterLocked (u : Setup) (l : Lane) (index : Nat) (p : Part) : Part :=
  let t := p.rft.get l
  ((p.setTracker l { t with missCount := 0, hold := none, ramp := none }).changeLock u l .locked (some index)).startBlanking l

/-- A lock from SEARCH or FALLBACK takes the measured step whole (04, R72, R75; 05, R88, R89). -/
def Part.lockWhole (u : Setup) (l : Lane) (m : Measurement) (stepNew stamp : Nat) (p : Part) : Part :=
  let p := p.setTracker l { p.rft.get l with step := clampNat m.lo m.hi stepNew }
  ((p.postStep u l stamp).reportAbsent u (.range l)).enterLocked u l m.lastIndex

/-- S after a smoothing update, and whether the clamp of its step 4 changed it (05, R88, R89). -/
def smoothed (s k slew lo hi stepNew : Nat) : Nat × Bool :=
  let e := clampInt (-(slew : Int)) slew (shiftRight ((stepNew : Int) - s) k)
  let moved := (s : Int) + e
  ((clampInt lo hi moved).toNat, decide (clampInt lo hi moved ≠ moved))

/-- A smoothing update: S, its STEP entry and RANGE (05, R88, R89). -/
def Part.smooth (u : Setup) (l : Lane) (m : Measurement) (stepNew stamp : Nat) (p : Part) : Part :=
  let t := p.rft.get l
  let r := smoothed t.step t.settings.k t.settings.slew m.lo m.hi stepNew
  ((p.setTracker l { t with step := r.1 }).postStep u l stamp).report u (.range l) r.2

/-! ## FALLBACK (05, R90 to R92) -/

/-- The fallback target at raw index n: the tach step while the latest tach measurement is younger than Fr raw samples,
clamped to the ramp bounds; otherwise N. -/
def Tracker.target (u : Setup) (t : Tracker) (n : Nat) : Nat :=
  match t.tachLast with
  | some last =>
    if n < last.index + u.rates.fr then
      clampNat (windowLo u.rates t.settings.w) (windowHi u.rates t.settings.w)
        (stepOf u.rates.fo Config.tachCount u.deck.tickRate last.span)
    else u.rates.nominal
  | none => u.rates.nominal

/-- S moved toward a target by at most L (05, R92). -/
def rampTo (s slew target : Nat) : Nat :=
  if s < target then min (s + slew) target else if target < s then max (s - slew) target else s

/-- One ramp move at raw index n, with its STEP entry (05, R92). -/
def Part.moveRamp (u : Setup) (l : Lane) (n : Nat) (p : Part) : Part :=
  let t := p.rft.get l
  (p.setTracker l { t with step := rampTo t.step t.settings.slew (t.target u n) }).postStep u l n

/-- Enter FALLBACK at raw index n: one ramp move, the ramp timer, and the change of state (04, R75). -/
def Part.enterFallback (u : Setup) (l : Lane) (n : Nat) (p : Part) : Part :=
  let t := p.rft.get l
  ((p.setTracker l { t with acquire := 0, hold := none, ramp := some (n + t.span u) }).moveRamp u l n).changeLock u l
    .fallback (some n)

/-! ## The lock state machine (04, R72 to R75) -/

/-- An in-window measurement (04, R72 to R75). At a relock from HOLD the smoothing update and its RANGE report come before
LOCK_CHANGED (log 7: the spec gives the two notices no order). -/
def Part.inWindow (u : Setup) (l : Lane) (m : Measurement) (stepNew stamp : Nat) (p : Part) : Part :=
  let t := { p.rft.get l with missCount := 0 }
  let met := decide (t.settings.acquire ≤ min 15 (t.acquire + 1))
  let counted := p.setTracker l { t with acquire := min 15 (t.acquire + 1) }
  match t.lock with
  | .idle => p.setTracker l t
  | .search => if met then counted.lockWhole u l m stepNew stamp else counted
  | .locked => (p.setTracker l t).smooth u l m stepNew stamp
  | .hold => if met then (counted.smooth u l m stepNew stamp).enterLocked u l m.lastIndex else counted
  | .fallback => if met then counted.lockWhole u l m stepNew stamp else counted

/-- A miss of either kind at raw index n. -/
def Part.missed (u : Setup) (l : Lane) (n : Nat) (p : Part) : Part :=
  let t := { p.rft.get l with acquire := 0, missCount := min 15 ((p.rft.get l).missCount + 1) }
  let p := p.setTracker l t
  if t.lock = .locked ∧ t.settings.missCount ≤ t.missCount then
    if t.settings.hold = 0 then p.enterFallback u l n
    else (p.setTracker l { t with hold := some n }).changeLock u l .hold (some n)
  else p

/-- A survey's measurement (04, R82). -/
def SurveyAcc.measured (a : SurveyAcc) (inWindow : Bool) (span : Nat) : SurveyAcc :=
  if inWindow then
    { total := a.total + 1, inWindow := a.inWindow + 1, sum := a.sum + span,
      least := some (match a.least with
        | some x => min x span
        | none => span),
      greatest := some (match a.greatest with
        | some x => max x span
        | none => span) }
  else { a with total := a.total + 1 }

/-! ## Measurements (04, R67 to R70) -/

/-- The open measurement has its C-th crossing: it completes, the closing crossing opens the next, and the result is
judged and handed to the lock state machine, or in a survey accumulated (04, R67, R70, R82). Nothing otherwise. -/
def Part.measurementComplete (u : Setup) (l : Lane) (p : Part) : Part :=
  let t := p.rft.get l
  match t.meas with
  | none => p
  | some m =>
    if p.measuring l && decide (m.c ≤ m.counted) then
      let span := m.lastStamp - m.t0
      let stepNew := stepOf u.rates.fo m.c m.fRef span
      let inside := decide (m.lo ≤ stepNew) && decide (stepNew ≤ m.hi)
      let next := { t with meas := some (t.opening u m.lastStamp m.lastIndex), origin := m.lastIndex }
      match t.mode with
      | .survey => p.setTracker l { next with survey := t.survey.measured inside span }
      | .take =>
        let p := p.setTracker l next
        if inside then p.inWindow u l m stepNew ((m.t0 + m.lastStamp) / 512) else p.missed u l m.lastIndex
      | .none => p
    else p

/-- A counted crossing with its timestamp and the raw index at which it is counted (04, R67, R68). -/
def Part.crossing (u : Setup) (l : Lane) (stamp index : Nat) (p : Part) : Part :=
  let t := p.rft.get l
  match t.meas with
  | none => p.setTracker l { t with meas := some (t.opening u stamp index), origin := index }
  | some m =>
    (p.setTracker l
      { t with meas := some { m with counted := m.counted + 1, lastStamp := stamp, lastIndex := index } }).measurementComplete u l

/-- P_span of the open measurement, or of the settings in use when none is open (04, R68). -/
def Tracker.timeoutSpan (u : Setup) (t : Tracker) : Nat :=
  match t.meas with
  | some m => pSpan u.rates.fr m.c m.fRef
  | none => t.span u

/-- The timeout of twice P_span has been reached by the last frame written: a MISS there (04, R68). Nothing otherwise. -/
def Part.missIfDue (u : Setup) (l : Lane) (p : Part) : Part :=
  let t := p.rft.get l
  let n := p.hcr.nextIndex - 1
  if p.measuring l && decide (0 < p.hcr.nextIndex) && decide (t.origin + 2 * t.timeoutSpan u ≤ n) then
    let t := { t with meas := none, origin := n }
    match t.mode with
    | .survey => p.setTracker l { t with survey := { t.survey with total := t.survey.total + 1 } }
    | .take => (p.setTracker l t).missed u l n
    | .none => p
  else p

/-- The hold time in raw samples: units of Fr / 100 (04, R74). -/
def Tracker.holdSpan (u : Setup) (t : Tracker) : Nat := t.settings.hold * (u.rates.fr / 100)

/-- The hold timer has expired by the last frame written: FALLBACK (04, R74). Nothing otherwise. -/
def Part.holdIfDue (u : Setup) (l : Lane) (p : Part) : Part :=
  let t := p.rft.get l
  let n := p.hcr.nextIndex - 1
  match t.hold with
  | some start =>
    if t.lock == .hold && decide (0 < p.hcr.nextIndex) && decide (start + t.holdSpan u ≤ n) then p.enterFallback u l n else p
  | none => p

/-- The ramp timer has been reached by the last frame written: one move, and the timer advances by P_span (04, R75).
Nothing otherwise. -/
def Part.rampIfDue (u : Setup) (l : Lane) (p : Part) : Part :=
  let t := p.rft.get l
  let n := p.hcr.nextIndex - 1
  match t.ramp with
  | some due =>
    if t.lock == .fallback && decide (0 < p.hcr.nextIndex) && decide (due ≤ n) then
      (p.setTracker l { t with ramp := some (due + t.span u) }).moveRamp u l n
    else p
  | none => p

/-! ## The filter and the crossing detector (04, R62 to R66) -/

/-- The filtered value at a frame, saturated (04, R62). -/
def filtered (k : FilterCoeffs) (f : FilterState) (x : Int) : Int :=
  clampInt (-16777216) 16777215 ((k.b0 * x + k.b1 * f.x1 + k.b2 * f.x2 - k.g1 * f.y1 - k.g2 * f.y2) / 0x40000000)

/-- The timestamp of a crossing at raw index n between filtered values a below 0 and b at or above 0 (04, R66). -/
def crossingStamp (n : Nat) (a b : Int) : Nat := (256 * ((n : Int) - 1) + 256 * -a / (b - a)).toNat

/-- Filter and detector take the frame of raw index n with the lane's track sum; a counted crossing is handed on
(04, R62, R65). -/
def Part.detect (u : Setup) (l : Lane) (n : Nat) (sum : Int) (p : Part) : Part :=
  let t := p.rft.get l
  let y := filtered t.coeffs t.filter sum
  let counted := t.armed && decide (t.last < 0) && decide (0 ≤ y)
  let p' := p.setTracker l
    { t with filter := ⟨sum, t.filter.x1, y, t.filter.y1⟩, last := y,
             armed := if counted then false else t.armed || decide (y < -(t.settings.gate : Int)) }
  if counted then p'.crossing u l (crossingStamp n t.last y) n else p'

/-- A tracker reads the frame of raw index n, the last one written: filter and crossings of an audio source, then the
timeout, the hold timer and the ramp timer (04, R65, R68, R74, R75). -/
def Part.trackerFrame (u : Setup) (n : Nat) (f : PerTrack Int) (l : Lane) (p : Part) : Part :=
  let p :=
    if p.measuring l && (p.rft.get l).settings.source.isAudio then p.detect u l n (f.get l.first + f.get l.second) else p
  ((p.missIfDue u l).holdIfDue u l).rampIfDue u l

/-! ## Tach ticks (01, R17; 04, R64, R69) -/

/-- The open tach measurement has its sixteenth tick: it replaces the latest one, and the tick opens the next (04, R69).
Nothing otherwise. -/
def Part.tachComplete (l : Lane) (p : Part) : Part :=
  let t := p.rft.get l
  match t.tachOpen with
  | some o =>
    if Config.tachCount ≤ o.counted then
      p.setTracker l
        { t with tachLast := some ⟨o.lastStamp - o.t0, o.lastStamp / 256⟩, tachOpen := some ⟨o.lastStamp, 0, o.lastStamp⟩ }
    else p
  | none => p

/-- A stamped forward tick reaches a lane's tach channel. -/
def Part.tachTick (l : Lane) (stamp : Nat) (p : Part) : Part :=
  let t := p.rft.get l
  match t.tachOpen with
  | none => p.setTracker l { t with tachOpen := some ⟨stamp, 0, stamp⟩ }
  | some o => (p.setTracker l { t with tachOpen := some { o with counted := o.counted + 1, lastStamp := stamp } }).tachComplete l

/-- A stamped forward tick reaches a tracker that works in a take or a survey: its tach channel, and for a TACH lane its own
measurement (01, R17; 04, R69). A tracker whose mode is NONE is not touched (04, R81; log 15). The tach channel takes the tick before
the lane's own measurement does (log 7: the spec gives the two no order). -/
def Part.trackerTick (u : Setup) (stamp index : Nat) (l : Lane) (p : Part) : Part :=
  if (p.rft.get l).mode = .none then p
  else
  let p := p.tachTick l stamp
  if p.measuring l && (p.rft.get l).settings.source == .tach then p.crossing u l stamp index else p

/-- A forward tick counted during capture, once raw index 0 has been written, is stamped with 256 times the raw index
last written and handed to both trackers (01, R17). -/
def Part.stampTick (u : Setup) (p : Part) : Part :=
  if p.hcr.capturing && decide (0 < p.hcr.nextIndex) then
    let n := p.hcr.nextIndex - 1
    (p.trackerTick u (256 * n) n .a).trackerTick u (256 * n) n .b
  else p

/-! ## Takes, transitions, surveys -/

/-- Both kinds of start: counters, channels, timers, filter and detector as R71 gives (04, R71, R81). For a survey R81 does
not name the counters and the hold and ramp timers; the model clears them too (log 31). -/
def Tracker.cleared (u : Setup) (t : Tracker) (mode : TrackerMode) (s : Settings) : Tracker :=
  { t with mode := mode, settings := s, coeffs := filterFor u.rates s, filter := FilterState.zero, armed := false, last := 0,
           meas := none, origin := 0, acquire := 0, missCount := 0, hold := none, ramp := none, tachOpen := none,
           tachLast := none }

/-- A tracker at START_TAKE (04, R71; 05, R89). -/
def Part.trackerTakeStart (u : Setup) (l : Lane) (p : Part) : Part :=
  let s := p.effective l
  let p := p.setTracker l { (p.rft.get l).cleared u .take s with step := u.rates.nominal }
  (if s.source.isMeasured then p.changeLock u l .search (some 0) else p.changeLock u l .idle (some 0)).reportAbsent u (.range l)

/-- A tracker at the end of a take (04, R77; 05, R89). -/
def Part.trackerTakeEnd (u : Setup) (endIndex : Option Nat) (l : Lane) (p : Part) : Part :=
  let p := (p.changeLock u l .idle endIndex).reportAbsent u (.range l)
  p.setTracker l { p.rft.get l with mode := .none }

/-- A lane transition at the block whose first raw index is given (04, R78, R79). -/
def Part.trackerTransition (u : Setup) (l : Lane) (new : Settings) (index : Nat) (p : Part) : Part :=
  let t := p.rft.get l
  let took := { t with settings := new, coeffs := filterFor u.rates new }
  if new.source = t.settings.source ∧ new.fRef = t.settings.fRef then p.setTracker l took
  else
    let stopped := { took with meas := none, hold := none, ramp := none }
    match new.source with
    | .bias | .hum | .pilot | .tach =>
      ((p.setTracker l { stopped with acquire := 0, missCount := 0, filter := FilterState.zero, armed := false, last := 0,
                                      origin := index }).changeLock u l .search (some index)).reportAbsent u (.range l)
    | .nominal =>
      (((p.setTracker l { stopped with step := u.rates.nominal }).postStep u l index).changeLock u l .idle
        (some index)).reportAbsent u (.range l)
    | .off => ((p.setTracker l stopped).changeLock u l .idle (some index)).reportAbsent u (.range l)

/-- A survey has ended: the surveying tracker stops measuring and abandons its open measurement (04, R83). -/
def Part.surveyStop (p : Part) : Part :=
  let stop (l : Lane) (p : Part) : Part :=
    let t := p.rft.get l
    if t.mode = .survey then p.setTracker l { t with meas := none } else p
  stop .b (stop .a p)

/-- The frequency of a span, round half up, in 1/16 Hz (04, R83): C × Fr × 4,096 × n over the sum of n spans. -/
def spanFrequency (fr c n span : Nat) : Nat := (2 * (c * fr * 4096 * n) + span) / (2 * span)

/-- SURVEY_DONE's content (04, R83). -/
def Tracker.surveyDone (u : Setup) (l : Lane) (ending : Termination) (t : Tracker) : NoticeContent :=
  let c := t.crossings
  .surveyDone l t.settings.source ending t.survey.total t.survey.inWindow
    (match t.survey.least, t.survey.greatest with
     | some least, some greatest =>
       some (spanFrequency u.rates.fr c t.survey.inWindow t.survey.sum, spanFrequency u.rates.fr c 1 greatest,
         spanFrequency u.rates.fr c 1 least)
     | _, _ => none)

/-- The surveying tracker posts SURVEY_DONE and its mode returns to NONE (04, R83). -/
def Part.surveyDone (u : Setup) (ending : Termination) (p : Part) : Part :=
  let finish (l : Lane) (p : Part) : Part :=
    let t := p.rft.get l
    if t.mode = .survey then (p.setTracker l { t with mode := .none }).post (t.surveyDone u l ending) else p
  finish .b (finish .a p)

end Sys2Proof.Machine
end

