-- ==== Sys2Proof/Machine/Azimuth.lean ====
section
/-! DEFINITION. The Azimuth Aligner (07): correlation windows, the peak and its refinement, the estimate, and the half's starts and ends. -/

namespace Sys2Proof.Machine

/-- What the frame of raw index n adds to the sum of lag l = m - 16 over the window of start s: the product that this frame
makes complete. Its first-track sample lies k places into the window, and counts among the central 2,016 (R123). -/
def lagTerm (r : Rings) (l : Lane) (s n m : Nat) : Int :=
  let k := n - s - (m - 16)
  if 16 ≤ k ∧ k < 2032 then
    r.sample l.first ((s + k : Nat) : Int) * r.sample l.second (((s + k : Nat) : Int) + ((m : Int) - 16))
  else 0

/-- What the frame of raw index n adds to the energy of a track over the window of start s (R123). -/
def energyTerm (r : Rings) (t : Track) (s n : Nat) : Int :=
  if 16 ≤ n - s ∧ n - s < 2032 then r.sample t (n : Int) ^ 2 else 0

/-- The correlation of the lag at place m. -/
def AzimuthWindow.lag (w : AzimuthWindow) (m : Nat) : Int := w.c.getD m 0

/-- A window takes the frame of raw index n, the last one written, if it lies within its range (R122). -/
def AzimuthWindow.gather (r : Rings) (l : Lane) (n : Nat) (w : AzimuthWindow) : AzimuthWindow :=
  if w.start ≤ n ∧ n < w.start + Config.windowSize then
    { w with c := (List.range 33).map fun m => w.lag m + lagTerm r l w.start n m,
             e1 := w.e1 + energyTerm r l.first w.start n, e2 := w.e2 + energyTerm r l.second w.start n }
  else w

/-- The lags, as m = l + 16, in the order R124 prefers them among equals: 0, then -1, +1, -2, +2, … -/
def lagOrder : List Nat :=
  [16, 15, 17, 14, 18, 13, 19, 12, 20, 11, 21, 10, 22, 9, 23, 8, 24, 7, 25, 6, 26, 5, 27, 4, 28, 3, 29, 2, 30, 1, 31, 0, 32]

/-- The peak lag as m = l* + 16: the greatest correlation, first in the order of preference (R124). -/
def peakLag (c : Nat → Int) : Nat := lagOrder.foldl (fun best m => if c best < c m then m else best) 16

/-- The three tests of R125: edge, sign, confidence. -/
def accepted (peak : Nat) (c0 e1 e2 : Int) (theta : Nat) : Bool :=
  peak != 0 && peak != 32 && decide (0 < c0) && decide ((theta : Int) ^ 2 * e1 * e2 ≤ c0 ^ 2 * 65536)

/-- δ_q: 256 (cm - cp) / (2 q) rounded half up and clamped, 0 when q is 0 (R126). q is never above 0. -/
def refinement (cm c0 cp : Int) : Int :=
  let q := cm - 2 * c0 + cp
  if q < 0 then clampInt (-128) 128 (roundHalfUp (256 * (cp - cm)) (2 * -q)) else 0

/-- The estimate of a window from its sums, if it is accepted (R124 to R126). -/
def windowEstimate (w : AzimuthWindow) (theta : Nat) : Option Int :=
  let m := peakLag w.lag
  if accepted m (w.lag m) w.e1 w.e2 theta then
    some (256 * ((m : Int) - 16) + refinement (w.lag (m - 1)) (w.lag m) (w.lag (m + 1)))
  else none

/-- az_e moved toward a window's estimate (R127). -/
def estimateAfter (old estimate : Int) (ka : Nat) : Int := clampInt (-4096) 4096 (old + shiftRight (estimate - old) ka)

/-- The open window is complete: it is judged, an accepted one updates az_e and posts its AZIMUTH entry, and the next
window opens (R122, R127, R128). Nothing while it is not complete. -/
def Part.azimuthComplete (u : Setup) (l : Lane) (p : Part) : Part :=
  let x := p.aza.get l
  match x.window with
  | none => p
  | some w =>
    if x.running && decide (w.start + Config.windowSize ≤ p.hcr.nextIndex) then
      let next := { x with window := some (AzimuthWindow.opened (w.start + Config.windowSize)) }
      match windowEstimate w x.theta with
      | none => p.setAligner l next
      | some e =>
        let az := estimateAfter x.estimate e x.ka
        (p.setAligner l { next with estimate := az }).postEntry u l ⟨w.start + 1024, .azimuth az⟩
    else p

/-- A half reads the frame of raw index n, the last one written: its open window takes it, and is judged once complete
(R122). A half that is not running reads no frame (R120). -/
def Part.azimuthFrame (u : Setup) (rings : Rings) (n : Nat) (l : Lane) (p : Part) : Part :=
  let x := p.aza.get l
  if x.running then (p.setAligner l { x with window := x.window.map (AzimuthWindow.gather rings l n) }).azimuthComplete u l else p

/-- A half takes settings: the estimate by the mode, and a window from the given raw index unless the mode is FIXED
(R121, R130). -/
def Aligner.takeSettings (x : Aligner) (s : Settings) (keep : Int) (start : Nat) : Aligner :=
  { x with
    mode := s.azMode, fixedOffset := s.fixedOffset, theta := s.theta, ka := s.ka,
    estimate := (match s.azMode with
      | .fixed | .seeded => s.fixedOffset
      | .track => keep),
    window := (match s.azMode with
      | .fixed => none
      | .track | .seeded => some (AzimuthWindow.opened start)) }

/-- A half at START_TAKE: running, from 0 in TRACK (R121). -/
def Part.alignerTakeStart (l : Lane) (p : Part) : Part :=
  p.setAligner l ({ p.aza.get l with running := true }.takeSettings (p.effective l) 0 0)

/-- A half at a lane transition: TRACK keeps the estimate (R130). -/
def Part.alignerTransition (l : Lane) (new : Settings) (index : Nat) (p : Part) : Part :=
  p.setAligner l ((p.aza.get l).takeSettings new (p.aza.get l).estimate index)

/-- A half at the end of a take: it stops and discards its open window (R131). -/
def Part.alignerTakeEnd (l : Lane) (p : Part) : Part :=
  p.setAligner l { p.aza.get l with running := false, window := none }

end Sys2Proof.Machine
end

