-- ==== Sys2Proof/Machine/Segments.lean ====
section
/-! DEFINITION. The Segment Table (03): finding the current and governing entries, the judgement at a block stamp, lane transitions, and the table's edits. -/

namespace Sys2Proof.Machine

/-- The last entry of a table that passes a test. -/
def lastEntry (test : Entry → Bool) (entries : List Entry) : Option Entry := (entries.filter test).getLast?

/-- The entry the tape is in at a position: the last whose start is at or below it (R51). -/
def currentAt (entries : List Entry) (position : Nat) : Option Entry :=
  lastEntry (fun e => decide (e.start ≤ position)) entries

/-- A lane's governing entry under a current entry: the last entry at or before it that carries a part for the lane
(R50). -/
def governingAt (entries : List Entry) (current : Option Entry) (l : Lane) : Option Entry :=
  match current with
  | none => none
  | some c => lastEntry (fun e => decide (e.start ≤ c.start) && (e.parts.get l).isSome) entries

/-- The current entry and the arrival governing entries under it. -/
def Part.underEntry (u : Setup) (current : Option Entry) (p : Part) : Part :=
  { p with sgt := ⟨current, ⟨governingAt u.entries current .a, governingAt u.entries current .b⟩⟩ }

/-- Find the current entry and the governing entries again from the position, without hysteresis (R51, R58). -/
def Part.refind (u : Setup) (p : Part) : Part := p.underEntry u (currentAt u.entries p.pos.position)

/-- The same, outside a take only: in RUN the current entry is judged at block stamps alone (R51, R52). -/
def Part.follow (u : Setup) (p : Part) : Part := if p.take.device = .run then p else p.refind u

/-- The judgement of the current entry against a block stamp (R53): forward over every following entry whose start is at
or below the stamp; otherwise back while the stamp is below the entry's start minus 8. -/
def judgeStamp (entries : List Entry) (current : Option Entry) (stamp : Nat) : Option Entry :=
  let follows (e : Entry) : Bool :=
    match current with
    | none => true
    | some c => decide (c.start < e.start)
  match lastEntry (fun e => follows e && decide (e.start ≤ stamp)) entries with
  | some e => some e
  | none =>
    match current with
    | none => none
    | some c =>
      if stamp + Config.backTicks < c.start then
        lastEntry (fun e => decide (e.start < c.start) && decide (e.start ≤ stamp + Config.backTicks)) entries
      else some c

/-- Two governing entries are the same entry, or both none. -/
def sameEntry (x y : Option Entry) : Bool := x.map Entry.start == y.map Entry.start

/-- A lane transition at the block of the given first raw index (R54): the SETTINGS entry, then the tracker (whose STEP
to NOMINAL stands after it, 04 R79), the aligner half and the detectors. -/
def Part.laneTransition (u : Setup) (index : Nat) (l : Lane) (p : Part) : Part :=
  let s := p.effective l
  let p := p.postEntry u l ⟨index, .settings ((p.sgt.arrival.get l).map Entry.start) s⟩
  let p := (p.trackerTransition u l s index).alignerTransition l s index
  (p.trackTransition s.dropout (index / Config.blockSize) l.first).trackTransition s.dropout (index / Config.blockSize) l.second

/-- SEGMENT_ENTERED's content (R55). -/
def segmentEntered (lanes : LaneSet) (current : Option Entry) (index stamp : Nat) : NoticeContent :=
  .segmentEntered lanes (current.map fun e => (e.start, e.label)) index stamp

/-- A transition's settings word is due if its pair differs from the latest word's (01, R8; log 29). -/
def Part.transitionWord (p : Part) : Part :=
  if p.hcr.latestWord = some p.eqPair then p else { p with hcr := p.hcr.wordDue p.eqPair }

/-- In RUN, the judgement at a block's stamp and the transitions it gives (R53 to R55). Outside RUN nothing. -/
def Part.blockBegin (u : Setup) (index stamp : Nat) (p : Part) : Part :=
  if p.take.device = .run then
    let before := p.sgt.arrival
    let p := p.underEntry u (judgeStamp u.entries p.sgt.current stamp)
    let a := !sameEntry before.a p.sgt.arrival.a
    let b := !sameEntry before.b p.sgt.arrival.b
    if a || b then
      let p := if a then p.laneTransition u index .a else p
      let p := if b then p.laneTransition u index .b else p
      let lanes : LaneSet := if a && b then .both else if a then .a else .b
      (p.post (segmentEntered lanes p.sgt.current index stamp)).transitionWord
    else p
  else p

/-! ## Edits (R46 to R49, R57, R60) -/

/-- Insert at the place that keeps the table ascending, in place of an entry with the same start (R46). -/
def insertSegment (e : Entry) : List Entry → List Entry
  | [] => [e]
  | x :: rest =>
    if x.start < e.start then x :: insertSegment e rest else if x.start = e.start then e :: rest else e :: x :: rest

/-- The live-edit check (R57): start above p + 64, and the entry neither the current nor a governing one. -/
def liveEditPasses (p : Part) (start : Nat) : Bool :=
  decide (p.pos.position + Config.editMargin < start)
    && p.sgt.current.map Entry.start != some start
    && p.sgt.arrival.a.map Entry.start != some start
    && p.sgt.arrival.b.map Entry.start != some start

/-- A stored part holds an f_ref the new raw rate cannot carry (R60). -/
def Entry.conflicts (fr : Nat) (e : Entry) : Bool :=
  [e.parts.a, e.parts.b].any fun part =>
    match part with
    | some s => fRefConflict fr s.source s.fRef
    | none => false

/-- A stored part with its C raised to the new raw rate's lower bound (R60). -/
def Settings.raiseC (fr : Nat) (s : Settings) : Settings :=
  if s.source.isAudio && decide (s.c < ceilDiv s.fRef fr) then { s with c := ceilDiv s.fRef fr } else s

def Entry.raiseC (fr : Nat) (e : Entry) : Entry :=
  { e with parts := ⟨e.parts.a.map (Settings.raiseC fr), e.parts.b.map (Settings.raiseC fr)⟩ }

end Sys2Proof.Machine
end

