-- ==== Sys2Proof/Machine/Lanes.lean ====
section
/-! DEFINITION. The lanes at the production point (06): the convolution, the production step, finishing; and the sample frame and monitor value a step makes (09, R166, R167, R174). -/

namespace Sys2Proof.Machine

/-- The value of the convolution before saturation: row r's 32 coefficients with the raw samples i - 15 .. i + 16
(06, R111). -/
def convolve (row : List Int) (rings : Rings) (t : Track) (i : Int) : Int :=
  (((List.range 32).map fun j => row.getD j 0 * rings.sample t (i - 15 + j)).sum + 131072) / 262144

/-- Saturate to 24 bits (00). -/
def saturate24 (v : Int) : Int := clampInt (-8388608) 8388607 v

/-- The row a fraction selects (06, R111). -/
def rowOf (fraction : Nat) : Nat := fraction / 65536

/-- The first track's value at P (06, R111). -/
def Producer.firstValue (u : Setup) (rings : Rings) (bank : LoadedBank) (l : Lane) (x : Producer) : Int :=
  convolve (bankRow u bank (rowOf x.fraction)) rings l.first x.index

/-- The second track's value at P2 (06, R112). -/
def Producer.secondValue (u : Setup) (rings : Rings) (bank : LoadedBank) (l : Lane) (x : Producer) : Int :=
  convolve (bankRow u bank (rowOf (x.acc2 % Config.q24).toNat)) rings l.second (x.trackIndex true)

/-- The live value of a monitor source (09, R174). -/
def Part.monitorLive (u : Setup) (p : Part) : MonitorSource → Int
  | .off => 0
  | .speed l => saturate24 ((p.lanes.get l).applied - (u.rates.nominal : Int))
  | .azimuth l => (p.lanes.get l).az
  | .level t => (p.det.get t).level
  | .dropRef t => (p.det.get t).ref

/-- The monitor value of a frame (09, R174). -/
def Part.monitorValue (u : Setup) (p : Part) : Int := if u.monitor.frozen then u.monitor.value else p.monitorLive u u.monitor.source

/-- A lane may take a production step (06, R107, R117): ACTIVE with raw index i + 1,056 written, or DRAINING with i + 32
at or below the end raw index; and room in the FIFO unless the production settings are OFF. -/
def Part.canStep (p : Part) (l : Lane) : Bool :=
  let x := p.lanes.get l
  (match x.state with
   | .idle => false
   | .active => decide (x.index + Config.horizon < p.hcr.nextIndex)
   | .draining =>
     match p.take.record.bind TakeRecord.endIndex with
     | some e => decide (x.index + Config.reach ≤ e)
     | none => false)
  && (x.settings.source == .off || decide (x.fifo.length < Config.maxFifo))

/-- P becomes P + A (06, R108 step 5). -/
def Part.advanceLane (l : Lane) (p : Part) : Part :=
  let x := p.lanes.get l
  p.setProducer l { x with acc := x.acc + x.applied }

/-- The convolution's values of both tracks reported for saturation, and CLIP counted down by a frame without one
(06, R113; 10, R177). -/
def Part.clipReport (u : Setup) (l : Lane) (first second : Int) (p : Part) : Part :=
  if saturate24 first ≠ first ∨ saturate24 second ≠ second then p.clipOccur u l else p.clipLower u l

/-- Steps 2 to 4 of R108 (06) for a lane that makes a frame: convolution, concealment, the sample frame into the FIFO. -/
def Part.makeFrame (u : Setup) (rings : Rings) (bank : LoadedBank) (l : Lane) (p : Part) : Part :=
  let x := p.lanes.get l
  let v1 := x.firstValue u rings bank l
  let v2 := x.secondValue u rings bank l
  let own1 := saturate24 v1
  let own2 := saturate24 v2
  let i1 := x.trackIndex false
  let i2 := x.trackIndex true
  let c1 := p.con.get l.first
  let c2 := p.con.get l.second
  let muted := p.muted u l
  let r1 := concealTrack x.settings muted x.frameCount own1 own2 i1 i2 c2.spans c1
  let r2 := concealTrack x.settings muted x.frameCount own2 own1 i2 i1 c1.spans c2
  let frame : SampleFrame :=
    { lane := l, count := x.frameCount % 65536, first := r1.2, second := r2.2, lock := (p.rft.get l).lock, muted := muted,
      applied := x.mark, monitor := p.monitorValue u, take := p.take.number % 256 }
  let p := (p.setConcealer l.first r1.1).setConcealer l.second r2.1
  let p := p.setProducer l { x with fifo := x.fifo ++ [frame], frameCount := x.frameCount + 1, mark := false }
  p.clipReport u l v1 v2

/-- A lane finishes: the records of every span still listed are written, the timeline is emptied, IDLE (06, R118; 05,
R102; 08, R151). -/
def Part.finishLane (u : Setup) (l : Lane) (p : Part) : Part :=
  let p := p.writeAll u l
  p.setProducer l { p.lanes.get l with state := .idle, timeline := [] }

/-- A DRAINING lane finishes once i + 32 is above the end raw index, or at once without one (06, R118). -/
def Part.finishIfDone (u : Setup) (l : Lane) (p : Part) : Part :=
  let x := p.lanes.get l
  if x.state = .draining then
    match p.take.record.bind TakeRecord.endIndex with
    | some e => if e < x.index + Config.reach then p.finishLane u l else p
    | none => p.finishLane u l
  else p

/-- A step that makes no frame: both tracks choose their substitute source all the same, and their weights stay (08, R145,
R146; log 32). -/
def Part.chooseSources (u : Setup) (l : Lane) (p : Part) : Part :=
  let x := p.lanes.get l
  let i1 := x.trackIndex false
  let i2 := x.trackIndex true
  let c1 := p.con.get l.first
  let c2 := p.con.get l.second
  let muted := p.muted u l
  (p.setConcealer l.first { c1 with source := c1.chosen x.settings muted i1 i2 c2.spans }).setConcealer l.second
    { c2 with source := c2.chosen x.settings muted i2 i1 c1.spans }

/-- The body of a production step (06, R108, R110): due entries, the records of spans passed (08, R151), then a frame and
the advance; for OFF the choice of sources and the advance; for a lane that has come out of OFF to a full FIFO no advance. -/
def Part.stepLane (u : Setup) (rings : Rings) (bank : LoadedBank) (l : Lane) (p : Part) : Part :=
  let p := p.setProducer l ((p.lanes.get l).applyDue u.rates)
  let p := p.writePassed u l
  let x := p.lanes.get l
  if x.settings.source = .off then (p.chooseSources u l).advanceLane l
  else if x.fifo.length < Config.maxFifo then (p.makeFrame u rings bank l).advanceLane l
  else p.chooseSources u l

/-- A lane at START_TAKE (05, R101; 06, R106). -/
def Part.laneTakeStart (u : Setup) (l : Lane) (p : Part) : Part :=
  let s := p.effective l
  p.setProducer l
    { p.lanes.get l with
      state := .active, acc := Config.startIndex * Config.q24, frameCount := 0, mark := false, applied := u.rates.nominal,
      settings := s, governing := (p.sgt.arrival.get l).map Entry.start,
      az := (match s.azMode with
        | .fixed | .seeded => s.fixedOffset
        | .track => 0),
      timeline := [] }

/-- An ACTIVE lane enters DRAINING at the end of a take, and finishes there if nothing is left to make (06, R117, R118). -/
def Part.laneTakeEnd (u : Setup) (l : Lane) (p : Part) : Part :=
  let x := p.lanes.get l
  if x.state = .active then (p.setProducer l { x with state := .draining }).finishIfDone u l else p

/-- TAKE_ENDED is posted and the record closed once the take has ended, both lanes have finished, both FIFOs are empty and
the transport has handed over the final position (09, R163). Nothing otherwise. -/
def Part.closeTake (p : Part) : Part :=
  match p.take.record with
  | some ⟨_, some cause, endIndex, some final⟩ =>
    if p.lanes.a.state = .idle ∧ p.lanes.b.state = .idle ∧ p.lanes.a.fifo = [] ∧ p.lanes.b.fifo = [] then
      { p with take := { p.take with record := none } }.post
        (.takeEnded p.take.number cause endIndex p.lanes.a.frameCount p.lanes.b.frameCount final)
    else p
  | _ => p

end Sys2Proof.Machine
end

