-- ==== Sys2Proof/Machine/Motion.lean ====
section
/-! DEFINITION. How the transport moves and how operations begin, end and complete (02, R18 to R40), with the start and end of a take (09, R159 to R163) and of a survey (04, R81, R83) that go with them. -/

namespace Sys2Proof.Machine

/-! ## Drive outputs (02, R18) -/

/-- STOPPED and SETTLING are the still states (02, R18). -/
def TransportState.moving : TransportState → Bool
  | .stopped | .settling => false
  | .starting | .playing | .approaching | .windingFwd | .windingRev => true

/-- The capstan motor output: RUN (true) or OFF (02, R18). -/
def TransportState.capstanRun : TransportState → Bool
  | .starting | .playing | .approaching => true
  | .stopped | .settling | .windingFwd | .windingRev => false

/-- The reel drive output: 0 OFF, 1 BRAKE, 2 PLAY, 3 FAST_FWD, 4 FAST_REV (02, R18). -/
def TransportState.reelDrive : TransportState → Nat
  | .stopped => 0
  | .settling => 1
  | .starting | .playing | .approaching => 2
  | .windingFwd => 3
  | .windingRev => 4

/-- The pinch solenoid output: ENGAGED (true) or RELEASED (02, R18). -/
def TransportState.pinchEngaged : TransportState → Bool
  | .starting | .playing | .approaching => true
  | .stopped | .settling | .windingFwd | .windingRev => false

/-! ## Entering states -/

/-- Enter SETTLING: the settle timer starts, the monitors stop, SLIP is absent. A settle in progress runs on (02, R22,
R23, R35 to R37). -/
def Part.enterSettling (u : Setup) (p : Part) : Part :=
  if p.trc.state = .settling then p
  else
    let p := p.reportAbsent u .slip
    { p with trc := { p.trc with state := .settling, settleTimer := some p.timebase, stallTimer := none, startTimer := none,
                                 slipWindow := none, slipLow := 0 } }

/-- Enter a moving state: the stall timer starts, the slip monitor waits for its first forward tick; STARTING has its
limit and clears the qualification (02, R24, R25, R35, R36). -/
def Part.enterMoving (st : TransportState) (p : Part) : Part :=
  { p with trc := { p.trc with
      state := st, settleTimer := none, stallTimer := some p.timebase,
      startTimer := if st = .starting then some p.timebase else none,
      qualCount := if st = .starting then 0 else p.trc.qualCount,
      lastTick := if st = .starting then none else p.trc.lastTick,
      slipWindow := none, slipLow := 0 } }

/-- Enter STOPPED. -/
def Part.enterStopped (p : Part) : Part :=
  { p with trc := { p.trc with state := .stopped, settleTimer := none, stallTimer := none, startTimer := none,
                               slipWindow := none } }

def Part.setOp (p : Part) (op : OpRecord) : Part := { p with trc := { p.trc with op := op } }

/-! ## Ending -/

/-- The end raw index a take ends with: the last raw index written, absent before any frame (09, R162). -/
def Part.lastWritten (p : Part) : Option Nat := if p.hcr.nextIndex = 0 then none else some (p.hcr.nextIndex - 1)

/-- The blocks that work inside a take are told its end (09, R162). The detectors close their spans before any lane drains
or finishes (08, R142). -/
def Part.takeTeardown (u : Setup) (endIndex : Option Nat) (p : Part) : Part :=
  let p := (p.trackerTakeEnd u endIndex .a).trackerTakeEnd u endIndex .b
  let p := ((p.alignerTakeEnd .a).alignerTakeEnd .b).detectorsTakeEnd endIndex
  ((p.refind u).laneTakeEnd u .a).laneTakeEnd u .b

/-- The event that ends a take (09, R162): the device returns to CONFIGURE, the cause and the end raw index are fixed,
capture ends, and each block is told. -/
def Part.takeEnd (u : Setup) (cause : TakeCause) (p : Part) : Part :=
  { p with
    take := { p.take with
      device := .configure,
      record := p.take.record.map fun (r : TakeRecord) => { r with cause := some cause, endIndex := p.lastWritten } },
    hcr := { p.hcr with capturing := false } }.takeTeardown u p.lastWritten

/-- The event that ends a survey (04, R83): capture ends and the tracker stops measuring. -/
def Part.surveyEnd (p : Part) : Part := { p with hcr := { p.hcr with capturing := false } }.surveyStop

/-- End the running operation (02, R22): nothing if the kind is NONE or the ending is already set; otherwise the ending is
set, a SEEK or rewind is in no phase any more (log 30), the transport settles, and a take or survey is told its end. -/
def Part.endOperation (u : Setup) (e : Ending) (p : Part) : Part :=
  if p.trc.op.kind = .none ∨ p.trc.op.ending.isSome then p
  else
    let kind := p.trc.op.kind
    let p := (p.setOp { p.trc.op with phase := none, ending := some e }).enterSettling u
    match kind, e with
    | .take, .cause c => p.takeEnd u c
    | .survey, _ => p.surveyEnd
    | _, _ => p

/-- End the running operation with the termination given, or the cause if it is the play of a take. -/
def Part.endAs (u : Setup) (t : Termination) (c : TakeCause) (p : Part) : Part :=
  p.endOperation u (if p.trc.op.kind = .take then .cause c else .term t)

/-- A condition stop request is taken (02, R38): it ends a take or a survey in STARTING or PLAYING, and nothing else. -/
def Part.stopRequest (u : Setup) (p : Part) : Part :=
  if (p.trc.op.kind = .take ∨ p.trc.op.kind = .survey) ∧ (p.trc.state = .starting ∨ p.trc.state = .playing) then
    p.endAs u .condition .condition
  else p

/-- The Transport Controller takes the stop request made in this event, if one was; what the ending itself raises finds
nothing to stop (02, R38; 10, R178; log 8). -/
def Part.takeStop (u : Setup) (p : Part) : Part :=
  if p.stopPending then { ({ p with stopPending := false }.stopRequest u) with stopPending := false } else p

/-- An ended operation completes at STOPPED, and the kind returns to NONE (02, R22). -/
def Part.completeOperation (u : Setup) (p : Part) : Part :=
  match p.trc.op.kind, p.trc.op.ending with
  | .take, some _ =>
    ({ p.setOp OpRecord.idle with
       take := { p.take with record := p.take.record.map fun (r : TakeRecord) => { r with finalPosition := some p.pos.position } } }).closeTake
  | .survey, some (.term t) => (p.surveyDone u t).setOp OpRecord.idle
  | kind, some (.term t) => (p.post (.transportDone kind t p.pos.position)).setOp OpRecord.idle
  | _, _ => p

/-! ## Beginning -/

/-- The record of an operation accepted now (02, R21). -/
def Part.opStart (p : Part) (kind : OpKind) : OpRecord := { OpRecord.idle with kind := kind, startTime := some p.timebase }

/-- The blocks that work inside a take take their starting state (09, R159; 04, R71; 07, R121; 08, R141, R143; 06, R106). -/
def Part.takeSetup (u : Setup) (p : Part) : Part :=
  let p := (p.trackerTakeStart u .a).trackerTakeStart u .b
  let p := (p.alignerTakeStart .a).alignerTakeStart .b
  let p := { p with
    det := ⟨Detector.takeStart (p.effective .a).dropout, Detector.takeStart (p.effective .a).dropout,
            Detector.takeStart (p.effective .b).dropout, Detector.takeStart (p.effective .b).dropout⟩,
    con := .all Concealer.reset }
  (p.laneTakeStart u .a).laneTakeStart u .b

/-- The take number rises by 1, from 65,535 to 1 (09, R159). -/
def nextTakeNumber (n : Nat) : Nat := if n = 65535 then 1 else n + 1

/-- Take control opens the record and enters RUN; a settings word is due (09, R159; 01, R8). -/
def Part.takeOpen (endPosition : Option Nat) (p : Part) : Part :=
  { p with
    take := { device := .run, number := nextTakeNumber p.take.number, record := some ⟨endPosition, none, none, none⟩ },
    hcr := { p.hcr.wordDue p.eqPair with nextIndex := 0 } }

/-- An accepted START_TAKE's effects in every block (09, R159). -/
def Part.takeStart (u : Setup) (endPosition : Option Nat) (p : Part) : Part :=
  let p := p.takeOpen endPosition
  ((p.setOp { p.opStart .take with endPosition := endPosition }).enterMoving .starting).takeSetup u

/-- An accepted SURVEY's effects (04, R81; 01, R8). -/
def Part.surveyStart (u : Setup) (l : Lane) (source : Source) (fRef c w span : Nat) (p : Part) : Part :=
  let p := { p with hcr := { p.hcr.wordDue p.eqPair with nextIndex := 0 } }
  let p := (p.setOp { p.opStart .survey with span := some span }).enterMoving .starting
  let s := { p.effective l with source := source, fRef := fRef, c := c, w := w }
  p.setTracker l { (p.rft.get l).cleared u .survey s with survey := SurveyAcc.empty }

/-- The transport enters PLAYING once the qualification count has reached 32: capture begins at raw index 0, the survey
tick count at 0, and a take posts TAKE_STARTED (02, R24, R26; 01, R9; 09, R160). Nothing otherwise. -/
def Part.qualify (p : Part) : Part :=
  if p.trc.state = .starting ∧ Config.qualifyCount ≤ p.trc.qualCount then
    let p := p.enterMoving .playing
    let p := { p with hcr := { p.hcr with capturing := true, nextIndex := 0 } }
    match p.trc.op.kind with
    | .survey => p.setOp { p.trc.op with surveyTicks := some 0 }
    | .take => p.post (.takeStarted p.take.number p.pos.position)
    | .none | .wind | .seek | .rewindToLeader => p
  else p

/-- The wind point of a target (02, R28). -/
def windPoint (u : Setup) (target : Nat) : Nat := target - u.deck.approach

/-- An accepted SEEK: its plan from the current position (02, R28). -/
def Part.seekStart (u : Setup) (target : Nat) (p : Part) : Part :=
  let w := windPoint u target
  let op := { p.opStart .seek with target := some target, windPoint := some w, windCount := some 0 }
  if p.pos.position < w then
    (p.setOp { op with phase := some .wind, windCount := some 1 }).enterMoving .windingFwd
  else if target < p.pos.position then
    (p.setOp { op with phase := some .wind, windCount := some 1 }).enterMoving .windingRev
  else if p.pos.position = target then
    (p.setOp { op with ending := some (.term .done) }).completeOperation u
  else (p.setOp { op with phase := some .approach }).enterMoving .approaching

/-- A SEEK ends at rest: at the expiry of its own settle phase it goes to STOPPED and completes at once (02, R22, R29). -/
def Part.endAtRest (u : Setup) (t : Termination) (p : Part) : Part :=
  ((p.setOp { p.trc.op with ending := some (.term t) }).enterStopped).completeOperation u

/-- A SEEK plans again from where the tape came to rest (02, R29). -/
def Part.seekReplan (u : Setup) (p : Part) : Part :=
  let op := p.trc.op
  let target := op.target.getD 0
  let winds := op.windCount.getD 0
  if p.pos.position < target then (p.setOp { op with phase := some .approach }).enterMoving .approaching
  else if p.pos.position = target then p.endAtRest u .done
  else if winds < 3 then
    (p.setOp { op with phase := some .wind, windCount := some (winds + 1) }).enterMoving .windingRev
  else p.endAtRest u .notReached

/-- The settle timer's expiry (02, R23): a SEEK or REWIND_TO_LEADER without an ending goes on to its next phase (R29,
R32); otherwise STOPPED, and an ended operation completes. -/
def Part.settled (u : Setup) (p : Part) : Part :=
  match p.trc.op.kind, p.trc.op.ending with
  | .seek, none => p.seekReplan u
  | .rewindToLeader, none =>
    if p.trc.leader then (p.setOp { p.trc.op with phase := some .forward }).enterMoving .approaching
    else (p.setOp { p.trc.op with phase := some .reverse }).enterMoving .windingRev
  | _, _ => p.enterStopped.completeOperation u

/-! ## Ticks (01, R13; 02, R24 to R30, R35, R36) -/

/-- The direction of a tick: the phase that changes, seen against the level of the other. Forward motion makes phase 1
lead (01, R13). -/
def tickForward (pc : PositionCounter) : Phase → Bool
  | .one => !pc.phase1 != pc.phase2
  | .two => !pc.phase2 == pc.phase1

/-- A counted tick moves the position, which saturates and then is UNREFERENCED; the phase that changed has its new level
(01, R13, R14). -/
def countTick (pc : PositionCounter) (phase : Phase) : PositionCounter :=
  let fwd := tickForward pc phase
  let pc' : PositionCounter :=
    match phase with
    | .one => { pc with phase1 := !pc.phase1 }
    | .two => { pc with phase2 := !pc.phase2 }
  if fwd then
    if pc.position = Config.maxPosition then { pc' with referenced := false } else { pc' with position := pc.position + 1 }
  else if pc.position = 0 then { pc' with referenced := false }
  else { pc' with position := pc.position - 1 }

/-- The nominal interval I_n in microseconds (02, R24). -/
def nominalInterval (u : Setup) : Nat := 16000000 / u.deck.tickRate

/-- An interval within tolerance (02, R24). -/
def withinTolerance (u : Setup) (interval : Nat) : Bool :=
  decide ((((interval : Int) - nominalInterval u).natAbs) * 10 ≤ nominalInterval u)

/-- A tick in STARTING (02, R24). -/
def Part.startingTick (u : Setup) (forward : Bool) (p : Part) : Part :=
  if forward then
    let count :=
      match p.trc.lastTick with
      | none => p.trc.qualCount
      | some t => if withinTolerance u (p.timebase - t) then p.trc.qualCount + 1 else 0
    ({ p with trc := { p.trc with qualCount := count, lastTick := some p.timebase } }).qualify
  else { p with trc := { p.trc with qualCount := 0, lastTick := none } }

/-- A survey whose tick count has reached its span ends DONE (02, R26). Nothing otherwise. -/
def Part.surveyIfCounted (u : Setup) (p : Part) : Part :=
  match p.trc.op.kind, p.trc.op.span, p.trc.op.surveyTicks with
  | .survey, some span, some ticks =>
    if p.trc.state = .playing ∧ span ≤ ticks then p.endOperation u (.term .done) else p
  | _, _, _ => p

/-- A forward tick in PLAYING against the operation's own end (02, R26). -/
def Part.playingTick (u : Setup) (p : Part) : Part :=
  match p.trc.op.kind with
  | .take =>
    match p.trc.op.endPosition with
    | some e => if e ≤ p.pos.position then p.endOperation u (.cause .endPosition) else p
    | none => p
  | .survey => (p.setOp { p.trc.op with surveyTicks := p.trc.op.surveyTicks.map (· + 1) }).surveyIfCounted u
  | .none | .wind | .seek | .rewindToLeader => p

/-- The wind phase of a SEEK ends at the wind point (02, R29). -/
def Part.windingTick (u : Setup) (p : Part) : Part :=
  match p.trc.op.kind, p.trc.op.windPoint with
  | .seek, some w =>
    if (p.trc.state = .windingFwd ∧ w ≤ p.pos.position) ∨ (p.trc.state = .windingRev ∧ p.pos.position ≤ w) then
      (p.setOp { p.trc.op with phase := some .settle }).enterSettling u
    else p
  | _, _ => p

/-- A forward tick in APPROACHING at or above a SEEK's target ends it DONE (02, R30). -/
def Part.approachingTick (u : Setup) (p : Part) : Part :=
  match p.trc.op.kind, p.trc.op.target with
  | .seek, some target => if target ≤ p.pos.position then p.endOperation u (.term .done) else p
  | _, _ => p

/-- The slip ratio q of a closed window (02, R36). -/
def slipRatio (u : Setup) (pulses : Nat) : Nat := if pulses = 0 then 255 else min 255 (u.deck.nc * 16 / pulses)

/-- The slip monitor runs in PLAYING and APPROACHING (02, R36). -/
def TransportState.slipMonitored : TransportState → Bool
  | .playing | .approaching => true
  | .stopped | .settling | .starting | .windingFwd | .windingRev => false

/-- A slip window that has its 64 ticks closes, its ratio is judged, and the next opens (02, R36, R37). Nothing
otherwise. -/
def Part.slipClose (u : Setup) (p : Part) : Part :=
  match p.trc.slipWindow with
  | some w =>
    if p.trc.state.slipMonitored && decide (Config.slipTicks ≤ w.ticks) then
      if slipRatio u w.pulses < u.deck.slipThreshold then
        let low := p.trc.slipLow + 1
        let p := { p with trc := { p.trc with slipWindow := some ⟨0, 0⟩, slipLow := low } }
        if u.deck.slipCount ≤ low then p.reportPresent u .slip else p
      else { p with trc := { p.trc with slipWindow := some ⟨0, 0⟩, slipLow := 0 } }.reportAbsent u .slip
    else p
  | none => p

/-- A tick at the slip monitor: the first forward tick opens a window, a reverse tick discards one (02, R36). -/
def Part.slipTick (u : Setup) (forward : Bool) (p : Part) : Part :=
  if p.trc.state.slipMonitored then
    if forward then
      match p.trc.slipWindow with
      | none => { p with trc := { p.trc with slipWindow := some ⟨0, 0⟩ } }
      | some w => { p with trc := { p.trc with slipWindow := some { w with ticks := w.ticks + 1 } } }.slipClose u
    else { p with trc := { p.trc with slipWindow := none } }
  else p

/-- The Transport Controller takes a counted tick (02, R24, R26, R29, R30, R35, R36). -/
def Part.transportTick (u : Setup) (forward : Bool) (p : Part) : Part :=
  let p := if p.trc.state.moving then { p with trc := { p.trc with stallTimer := some p.timebase } } else p
  match p.trc.state with
  | .stopped | .settling => p
  | .starting => p.startingTick u forward
  | .playing => (if forward then p.playingTick u else p).slipTick u forward
  | .approaching => (if forward then p.approachingTick u else p).slipTick u forward
  | .windingFwd | .windingRev => p.windingTick u

/-- A tick: the position moves, the current entry follows outside a take, a forward tick of a capture is stamped, and the
Transport Controller takes it (01, R13, R17; 03, R51). -/
def Part.tick (u : Setup) (phase : Phase) (now : Nat) (p : Part) : Part :=
  let forward := tickForward p.pos phase
  let p := ({ p with pos := countTick p.pos phase }.advance now).follow u
  let p := if forward then p.stampTick u else p
  (p.transportTick u forward).takeStop u

/-! ## Sensors and timers -/

/-- The tape is zeroed at the leader-to-oxide edge (01, R14; 02, R32). -/
def Part.zeroPosition (u : Setup) (p : Part) : Part :=
  { p with pos := { p.pos with position := 0, referenced := true } }.follow u

/-- The sensor has come to show leader (02, R26, R27, R30 to R32): a rewind's reverse phase has found it; any other motion
ends at the end of the tape. In STOPPED and SETTLING it ends nothing. -/
def Part.leaderSeen (u : Setup) (p : Part) : Part :=
  if p.trc.state.moving then
    if p.trc.op.kind = .rewindToLeader ∧ p.trc.op.phase = some .reverse ∧ p.trc.op.ending = none then
      (p.setOp { p.trc.op with phase := some .settle }).enterSettling u
    else p.endAs u .endOfTape .tapeEnd
  else p

/-- The sensor has come to show oxide (02, R32): in a rewind's FORWARD phase the position is zeroed and the rewind ends
DONE. -/
def Part.leaderLeft (u : Setup) (p : Part) : Part :=
  if p.trc.state = .approaching ∧ p.trc.op.kind = .rewindToLeader ∧ p.trc.op.phase = some .forward
      ∧ p.trc.op.ending = none then
    (p.zeroPosition u).endOperation u (.term .done)
  else p

/-- The leader sensor changes to the other level (02, R40). -/
def Part.leaderChange (u : Setup) (p : Part) : Part :=
  let q := { p with trc := { p.trc with leader := !p.trc.leader } }
  if p.trc.leader then q.leaderLeft u else q.leaderSeen u

/-- A cassette is inserted: absent to present (01, R16; 02, R39). -/
def Part.insertCassette (u : Setup) (p : Part) : Part :=
  if p.pos.cassette then p
  else ({ p with pos := { p.pos with cassette := true, position := 0, referenced := false } }.follow u).post (.cassetteChanged true)

/-- A cassette is removed: present to absent (01, R16; 02, R39). CASSETTE_CHANGED is posted before the running operation ends, so before
the LOCK_CHANGED notices of a take's end (log 7: the spec gives them no order). -/
def Part.removeCassette (u : Setup) (p : Part) : Part :=
  if p.pos.cassette then
    ({ p with pos := { p.pos with cassette := false, referenced := false } }.post (.cassetteChanged false)).endAs u
      .cassetteOut .cassetteOut
  else p

/-- STALL is raised and the running operation ends (02, R25, R35), in this order (log 7). -/
def Part.stall (u : Setup) (p : Part) : Part := ((p.occur u .stall).endAs u .stalled .condition).takeStop u

/-- The settle timer expires (02, R23). Nothing while it is not running. -/
def Part.settleExpiry (u : Setup) (p : Part) : Part :=
  match p.trc.settleTimer with
  | some start =>
    if p.trc.state = .settling then (p.advance (start + u.deck.settleTime * 1000)).settled u else p
  | none => p

/-- The stall timer expires (02, R31, R35). Nothing while it is not running. -/
def Part.stallExpiry (u : Setup) (p : Part) : Part :=
  match p.trc.stallTimer with
  | some start =>
    if p.trc.state.moving then
      let p := p.advance (start + u.deck.stallTime * 1000)
      if p.trc.op.kind = .rewindToLeader ∧ p.trc.op.phase = some .reverse ∧ p.trc.op.ending = none ∧ p.trc.leader then
        (p.setOp { p.trc.op with phase := some .settle }).enterSettling u
      else p.stall u
    else p
  | none => p

/-- PLAYING has not been reached 2 s after STARTING (02, R25). Nothing outside STARTING. -/
def Part.startingExpiry (u : Setup) (p : Part) : Part :=
  match p.trc.startTimer with
  | some start =>
    if p.trc.state = .starting then (p.advance (start + Config.startingLimitUs)).stall u else p
  | none => p

/-- The leader search limit expires (02, R33). Nothing unless a REWIND_TO_LEADER runs without an ending. -/
def Part.leaderLimitExpiry (u : Setup) (p : Part) : Part :=
  match p.trc.op.startTime with
  | some start =>
    if p.trc.op.kind = .rewindToLeader ∧ p.trc.op.ending = none then
      (p.advance (start + u.deck.leaderLimit * 1000000)).endOperation u (.term .leaderNotFound)
    else p
  | none => p

end Sys2Proof.Machine
end

