-- ==== Sys2Proof/Machine/Formats.lean ====
section
/-! DEFINITION. The layouts of what crosses the links (11, R199, R203): records, notices, messages and upstream frames as bytes, and cells, raw frames and arguments read from bytes. -/

namespace Sys2Proof.Machine

/-! ## Records -/

/-- A lane part, 30 bytes. -/
def Settings.bytes (s : Settings) : List Byte :=
  [s.source.code] ++ bytesOf 3 s.fRef ++ bytesOf 2 s.c ++ bytesOf 1 s.w ++ bytesOf 1 s.k ++ bytesOf 3 s.slew
    ++ bytesOf 1 s.acquire ++ bytesOf 1 s.missCount ++ bytesOf 1 s.hold ++ bytesOf 3 s.gate ++ [s.azMode.code]
    ++ signedBytes 2 s.fixedOffset ++ bytesOf 1 s.theta ++ bytesOf 1 s.ka ++ [s.pairing.code, s.policy.code]
    ++ bytesOf 1 s.depth ++ bytesOf 1 s.release ++ bytesOf 1 s.onset ++ bytesOf 1 s.releaseCount ++ bytesOf 1 s.blanking
    ++ [s.eq.code]

/-- A lane part or, marked absent, 30 zeros. -/
def partBytes : Option Settings → List Byte
  | some s => s.bytes
  | none => List.replicate 30 0

/-- A segment entry, 67 bytes. -/
def Entry.bytes (e : Entry) : List Byte :=
  bytesOf 3 e.start ++ bytesOf 2 e.label ++ [flagByte e.parts.a.isSome, flagByte e.parts.b.isSome]
    ++ partBytes e.parts.a ++ partBytes e.parts.b

/-- A dropout record, 31 bytes. -/
def DropoutRecord.bytes (r : DropoutRecord) : List Byte :=
  bytesOf 2 r.take ++ [trackCode r.track] ++ bytesOf 6 r.start ++ bytesOf 3 r.position ++ bytesOf 2 r.length
    ++ bytesOf 1 r.ratio ++ [r.action.code]
    ++ bytesOf 1 ((if r.truncated then 1 else 0) + (if r.firstFrame.isSome then 2 else 0))
    ++ bytesOf 2 r.label ++ bytesOf 6 (r.firstFrame.getD 0) ++ bytesOf 6 (r.lastFrame.getD 0)

/-- A lane's current entry start as READ_STATUS shows it (03, R56): of the production governing entry while the lane is
producing, otherwise of the arrival governing entry. -/
def Part.shownStart (p : Part) (l : Lane) : Option Nat :=
  if (p.lanes.get l).producing then (p.lanes.get l).governing else (p.sgt.arrival.get l).map Entry.start

/-- A lane's fields of the status record. -/
def Part.laneStatus (p : Part) (l : Lane) : List Byte :=
  let t := p.rft.get l
  let x := p.lanes.get l
  [t.lock.code, x.state.code, flagByte (p.shownStart l).isSome] ++ bytesOf 4 t.step ++ bytesOf 4 x.applied
    ++ signedBytes 2 x.az ++ bytesOf 3 ((p.shownStart l).getD 0)

/-- The status record, 49 bytes (11, R201). -/
def Part.statusRecord (p : Part) : List Byte :=
  [p.take.device.code, p.trc.state.code] ++ bytesOf 3 p.pos.position
    ++ bytesOf 1 ((if p.pos.referenced then 1 else 0) + (if p.pos.cassette then 2 else 0)) ++ bytesOf 2 p.take.number
    ++ p.laneStatus .a ++ p.laneStatus .b
    ++ bytesOf 1 (p.det.t1.state.code.toNat + 4 * p.det.t2.state.code.toNat + 16 * p.det.t3.state.code.toNat
        + 64 * p.det.t4.state.code.toNat)
    ++ bytesOf 2 p.log.length ++ bytesOf 2 p.lanes.a.fifo.length ++ bytesOf 2 p.lanes.b.fifo.length
    ++ bytesOf 2 (flagSet p.cmn).toNat

/-- IDENTIFY's results (11, R200). -/
def identity : List Byte :=
  [0xD1] ++ bytesOf 2 440 ++ [1, 4, 64] ++ bytesOf 2 256 ++ bytesOf 2 256 ++ bytesOf 2 1024

/-! ## Messages -/

/-- A notice's content. A raw index that is absent is sent as zeros (11, R203; log 12). -/
def NoticeContent.bytes : NoticeContent → List Byte
  | .transportDone kind ending position => [kind.code, ending.code] ++ bytesOf 3 position
  | .takeStarted take position => bytesOf 2 take ++ bytesOf 3 position
  | .takeEnded take cause endIndex framesA framesB position =>
    bytesOf 2 take ++ [cause.code, flagByte endIndex.isSome] ++ bytesOf 6 (endIndex.getD 0) ++ bytesOf 6 framesA
      ++ bytesOf 6 framesB ++ bytesOf 3 position
  | .segmentEntered lanes entry rawIndex position =>
    [lanes.code, flagByte entry.isSome] ++ bytesOf 3 ((entry.map Prod.fst).getD 0) ++ bytesOf 2 ((entry.map Prod.snd).getD 0)
      ++ bytesOf 6 rawIndex ++ bytesOf 3 position
  | .lockChanged _ previous new rawIndex step =>
    [previous.code, new.code] ++ bytesOf 6 (rawIndex.getD 0) ++ bytesOf 4 step
  | .conditionRaised set => bytesOf 2 set.toNat
  | .logHigh count take => bytesOf 2 count ++ bytesOf 2 take
  | .cassetteChanged present => [flagByte present]
  | .surveyDone lane source ending total inWindow frequencies =>
    [laneCode lane, source.code, ending.code] ++ bytesOf 4 total ++ bytesOf 4 inWindow ++ [flagByte frequencies.isSome]
      ++ bytesOf 3 ((frequencies.map fun f => f.1).getD 0) ++ bytesOf 3 ((frequencies.map fun f => f.2.1).getD 0)
      ++ bytesOf 3 ((frequencies.map fun f => f.2.2).getD 0)

/-- A notice message (11, R199). -/
def Notice.bytes (n : Notice) : List Byte := [n.content.kind.code] ++ bytesOf 1 n.count ++ n.content.bytes

/-- A reply message (11, R199). -/
def Reply.bytes (r : Reply) : List Byte := [r.kind, r.tag, r.code.code] ++ r.results

/-! ## Upstream frames -/

/-- Zeros after a list up to a length. -/
def padTo (n : Nat) (bs : List Byte) : List Byte := bs ++ List.replicate (n - bs.length) 0

/-- A frame: kind, status octet, 21 content bytes, check byte (11, R198). -/
def frameBytes (kind octet : Byte) (content : List Byte) : List Byte :=
  let body := [kind, octet] ++ padTo 21 content
  body ++ [checkByte body]

/-- One track's four flag bits (11, R203, byte 14). -/
def TrackPart.flags (t : TrackPart) : Nat := t.action.code + (if t.below then 4 else 0) + (if t.switched then 8 else 0)

/-- A sample frame's content (09, R166). -/
def SampleFrame.bytes (f : SampleFrame) : List Byte :=
  [laneCode f.lane] ++ bytesOf 2 f.count ++ signedBytes 3 f.first.sample ++ signedBytes 3 f.second.sample
    ++ signedBytes 3 f.monitor ++ bytesOf 1 (f.first.flags + 16 * f.second.flags)
    ++ bytesOf 1 (f.lock.code.toNat + (if f.muted then 8 else 0) + (if f.applied then 16 else 0)) ++ bytesOf 1 f.take

/-- A message frame's content: continuation and notice flags, total length, up to 18 message bytes (11, R199). -/
def messageContent (continuation notice : Bool) (total : Nat) (chunk : List Byte) : List Byte :=
  bytesOf 1 ((if continuation then 1 else 0) + (if notice then 2 else 0)) ++ bytesOf 2 total ++ padTo Config.messageChunk chunk

/-- A settings word (11, R203). -/
def settingsWordBytes (w : EqPair) : List Byte :=
  let b0 := bytesOf 1 (w.a.code.toNat + 2 * w.b.code.toNat)
  b0 ++ [checkByte b0]

/-! ## Inbound bytes -/

/-- A raw frame's sequence number and samples, if the slot's bytes are a good frame (01, R1): complete and summing to 0. -/
def readRawFrame : List Byte → Option (Byte × PerTrack Int)
  | [seq, a2, a1, a0, b2, b1, b0, c2, c1, c0, d2, d1, d0, check] =>
    if byteSum [seq, a2, a1, a0, b2, b1, b0, c2, c1, c0, d2, d1, d0, check] = 0 then
      some (seq, ⟨(be24 a2 a1 a0).toInt, (be24 b2 b1 b0).toInt, (be24 c2 c1 c0).toInt, (be24 d2 d1 d0).toInt⟩)
    else none
  | _ => none

/-- A lane part's 30 bytes as LOAD_SEGMENT carries them. -/
def readPart : List Byte → Option PartArgs
  | [src, f2, f1, f0, c1, c0, w, k, l2, l1, l0, acq, m, hold, g2, g1, g0, mode, o1, o0, theta, ka, pairing, policy, depth,
      release, onset, rel, blanking, eq] =>
    some { source := src, fRef := be24 f2 f1 f0, c := be16 c1 c0, w := w, k := k, slew := be24 l2 l1 l0, acquire := acq,
           missCount := m, hold := hold, gate := be24 g2 g1 g0, azMode := mode, fixedOffset := be16 o1 o0, theta := theta,
           ka := ka, pairing := pairing, policy := policy, depth := depth, release := release, onset := onset,
           releaseCount := rel, blanking := blanking, eq := eq }
  | _ => none

/-- LOAD_SEGMENT's 68 bytes. -/
def readSegmentArgs : List Byte → Option SegmentArgs
  | s2 :: s1 :: s0 :: l1 :: l0 :: replace :: pa :: pb :: parts =>
    match readPart (parts.take 30), readPart (parts.drop 30) with
    | some a, some b =>
      some { start := be24 s2 s1 s0, label := be16 l1 l0, replace := replace, presentA := pa, presentB := pb, partA := a,
             partB := b }
    | _, _ => none
  | _ => none

/-- SET_DECK's 14 bytes. -/
def readDeck : List Byte → Option DeckArgs
  | [t1, t0, n1, n0, th, sc, a1, a0, st1, st0, se1, se0, l1, l0] =>
    some { tickRate := be16 t1 t0, nc := be16 n1 n0, slipThreshold := th, slipCount := sc, approach := be16 a1 a0,
           stallTime := be16 st1 st0, settleTime := be16 se1 se0, leaderLimit := be16 l1 l0 }
  | _ => none

/-- SURVEY's 10 bytes. -/
def readSurvey : List Byte → Option SurveyArgs
  | [lane, source, f2, f1, f0, c1, c0, w, s1, s0] =>
    some { lane := lane, source := source, fRef := be24 f2 f1 f0, c := be16 c1 c0, w := w, span := be16 s1 s0 }
  | _ => none

/-- Coefficients of three bytes each. -/
def readCoeffs : List Byte → List (BitVec 24)
  | a :: b :: c :: rest => be24 a b c :: readCoeffs rest
  | _ => []

/-- The row a complete message spells, by its command kind and argument bytes: none when the bytes are not of the kind's
layout (11, R203). -/
def readMessage (k : Cmd) (tag : Byte) (args : List Byte) : Option Instr :=
  match k, args with
  | .identify, [] => some (.identify tag)
  | .readStatus, [] => some (.readStatus tag)
  | .setState, [t] => some (.setState tag t)
  | .softReset, [] => some (.softReset tag)
  | .lockTables, [f] => some (.lockTables tag f)
  | .setRates, [r2, r1, r0, o2, o1, o0] => some (.setRates tag (be24 r2 r1 r0) (be24 o2 o1 o0))
  | .loadCoeffRow, row :: rest => some (.loadCoeffRow tag row (readCoeffs rest))
  | .selectBank, [b] => some (.selectBank tag b)
  | .setDeck, args => (readDeck args).map (.setDeck tag)
  | .setPosition, [p2, p1, p0] => some (.setPosition tag (be24 p2 p1 p0))
  | .wind, [d] => some (.wind tag d)
  | .seek, [t2, t1, t0] => some (.seek tag (be24 t2 t1 t0))
  | .rewindToLeader, [] => some (.rewindToLeader tag)
  | .stop, [] => some (.stop tag)
  | .survey, args => (readSurvey args).map (.survey tag)
  | .loadSegment, args => (readSegmentArgs args).map (.loadSegment tag)
  | .deleteSegment, [s2, s1, s0] => some (.deleteSegment tag (be24 s2 s1 s0))
  | .clearSegments, [] => some (.clearSegments tag)
  | .readSegment, [i] => some (.readSegment tag i)
  | .startTake, [f, p2, p1, p0] => some (.startTake tag f (be24 p2 p1 p0))
  | .readDropouts, [n] => some (.readDropouts tag n)
  | .setPolicy, [c, l, p, s] => some (.setPolicy tag ⟨c, l, p, s⟩)
  | .clearConditions, [] => some (.clearConditions tag)
  | .setNoticeMask, flags => some (.setNoticeMask tag flags)
  | .setMonitor, [s, f] => some (.setMonitor tag s f)
  | .setOutput, [t1, t0] => some (.setOutput tag (be16 t1 t0))
  | _, _ => none

end Sys2Proof.Machine
end

