-- ==== Sys2Proof/Machine/Port.lean ====
section
/-! DEFINITION. Taking a command at the Message Port (11, R191 to R197): admission (09, R156), the one reply every taken command gets, and what meets a command that comes while READY is clear. -/

namespace Sys2Proof.Machine

/-- The codes under which a reply carries results (11, R197). -/
def ReplyCode.carriesResults : ReplyCode → Bool
  | .ok | .adjusted | .accepted => true
  | .invalid | .malformed | .badValue | .wrongState | .busy | .tooLate | .full | .notFound | .duplicate | .faultActive
  | .notReferenced | .conflict => false

/-- A refusal changes nothing but the reply queue. -/
def State.refuse (s : State) (code : ReplyCode) : Answer := ⟨s, code, []⟩

/-- Success without results. -/
def State.done (s : State) (code : ReplyCode) : Answer := ⟨s, code, []⟩

/-- OK, or ADJUSTED if a value was changed (11, R197). -/
def adjustedIf (changed : Bool) : ReplyCode := if changed then .adjusted else .ok

/-- Queue a reply to a command kind and tag (11, R197). -/
def State.replyTo (s : State) (kind tag : Byte) (code : ReplyCode) (results : List Byte) : State :=
  s.onPart fun p => p.reply ⟨kind, tag, code, if code.carriesResults then results else []⟩

/-- Steps 3 and 4 of R195 (11): take control admits the command (09, R156), or it is WRONG_STATE; its owner answers. -/
def judge (k : Cmd) (owner : State → Answer) (s : State) : Answer :=
  if k.admitted s.part.take.device then owner s else s.refuse .wrongState

/-- A complete message's command is judged and its one reply queued, in one event (11, R195). -/
def runCommand (k : Cmd) (tag : Byte) (owner : State → Answer) (s : State) : State :=
  let a := judge k owner s
  a.state.replyTo k.code tag a.code a.results

/-- One CELL_ERROR occurrence (11, R192 to R194). -/
def State.cellError (s : State) : State := s.onPart fun p => (p.occur s.setup .cellError).takeStop s.setup

/-- The open message is abandoned with a MALFORMED reply to its own kind and tag, and the assembler is IDLE (11, R192,
R193). -/
def State.abandon (s : State) : State :=
  match s.part.msp.assembler with
  | none => s
  | some m =>
    (s.onPart fun p => { p with msp := { p.msp with assembler := none } }).replyTo m.kind m.tag .malformed []

/-- A START that finds READY clear (11, R193): an open message is abandoned, the START is discarded, and CELL_ERROR is
reported. -/
def State.startRefused (s : State) : State := s.abandon.cellError

/-- A command comes as a whole message (log 1): taken while READY is set, met as its START cell otherwise. -/
def portCommand (k : Cmd) (tag : Byte) (owner : State → Answer) (s : State) : State :=
  if s.part.ready then runCommand k tag owner s else s.startRefused

/-- The same for a command whose argument bytes may not be of its one length (11, R195 step 2; log 18). -/
def portSized (k : Cmd) (tag : Byte) (sized : Bool) (owner : State → Answer) (s : State) : State :=
  if s.part.ready then (if sized then runCommand k tag owner s else s.replyTo k.code tag .malformed [])
  else s.startRefused

/-- A lane is producing (06, R105). -/
def Part.producing (p : Part) : Bool := p.lanes.a.producing || p.lanes.b.producing

/-- Both lanes are IDLE and both lane FIFOs are empty (09, R157, R158; 04, R80; 06, R104). -/
def Part.drained (p : Part) : Bool := !p.producing && p.lanes.a.fifo.isEmpty && p.lanes.b.fifo.isEmpty

end Sys2Proof.Machine
end

