-- ==== Sys2Proof/Machine/Resets.lean ====
section
/-! DEFINITION. HARD_RESET and SOFT_RESET (09, R155; 11, R202), gathered from the reset sentences of every chapter. -/

namespace Sys2Proof.Machine

/-- Every block at its hard-reset values, with the sensor levels present at the reset (01, R13, R16; 02, R40). -/
def hardResetState (levels : Levels) (s : State) : State :=
  { State.reset with pending := s.pending, part := Part.reset levels }

/-- The transport at a soft reset: a moving one settles with a fresh timer, a settling one settles on, a stopped one stays;
the operation is discarded, the monitors stop, the leader level is kept (02, R40). DESIGN CHOICE: R24, R40 and R202 give
STARTING's qualification count and last-tick mark no soft-reset value; the model sets the count to 0 and holds no last tick, as
at a hard reset (log 10). Entering STARTING sets both (R24), so no later event sees the choice. -/
def Transport.softReset (timebase : Nat) (t : Transport) : Transport :=
  let rest : Transport :=
    { t with op := OpRecord.idle, qualCount := 0, lastTick := none, stallTimer := none, startTimer := none,
             slipWindow := none, slipLow := 0 }
  if t.state.moving then { rest with state := .settling, settleTimer := some timebase } else rest

/-- The receiver at a soft reset: link state, expected number, last good frame and the word last sent are kept, the run
and capture end, a waiting word is discarded (01, R2, R8, R9; log 28). -/
def HeadReceiver.softReset (h : HeadReceiver) : HeadReceiver :=
  { h with run := 0, capturing := false, wordWaiting := none }

/-- The scheduler at a soft reset: ACCEPT is kept (09, R168). -/
def Scheduler.softReset (o : Scheduler) : Scheduler :=
  { o with slotsSince := 0, lastServed := .b, underway := none, pattern := 0x55 }

/-- What the table lock decides: the table, the bank selection and the loaded bank are kept under it and cleared without it
(03, R59; 06, R114). -/
def Setup.softReset (u : Setup) : Setup := if u.locked then u else { u with entries := [], bankLoaded := false }

def LoadedBank.softReset (locked : Bool) (b : LoadedBank) : LoadedBank := if locked then b else LoadedBank.reset

/-- The blocks at a soft reset, before the current entry is found again (11, R202; 04, R77; 05, R93; 06, R119; 07, R120;
08, R154; 09, R155, R164; 10, R189). DESIGN CHOICE: the manual gives the filter coefficients of a tracker no soft-reset value;
the model sets them to 0 (log 10). -/
def Part.softBlocks (u : Setup) (p : Part) : Part :=
  { hcr := p.hcr.softReset
    pos := p.pos
    trc := p.trc.softReset p.timebase
    sgt := p.sgt
    rft := .both (Tracker.reset u.rates.nominal)
    lanes := .both (Producer.reset u.rates.nominal)
    aza := .both Aligner.reset
    det := .all Detector.reset
    con := .all Concealer.reset
    log := []
    take := { device := .standby, number := p.take.number, record := none }
    cmn := CondStatus.allClear
    stopPending := false
    osc := p.osc.softReset
    msp := { assembler := none, replies := [], notices := [] }
    timebase := p.timebase }

/-- SOFT_RESET's owner (11, R202): the current entry and the governing entries are found again from the table as the reset
leaves it (03, R58). -/
def ownSoftReset (s : State) : Answer :=
  let u := s.setup.softReset
  { s with setup := u, bank := s.bank.softReset s.setup.locked, part := (s.part.softBlocks u).refind u }.done .ok

/-- HARD_RESET (09, R155). -/
def execHardReset (levels : Levels) (s : State) : Host.Outcome State Fault Refusal := .next (hardResetState levels s)

/-- SOFT_RESET (11, R202). -/
def execSoftReset (tag : Byte) (s : State) : Host.Outcome State Fault Refusal :=
  .next (portCommand .softReset tag ownSoftReset s)

end Sys2Proof.Machine
end

