-- ==== Sys2Proof/Machine/Configure.lean ====
section
/-! DEFINITION. The commands that identify, configure and show the part: IDENTIFY, READ_STATUS, SET_STATE, LOCK_TABLES, SET_RATES, LOAD_COEFF_ROW, SELECT_BANK, SET_DECK, SET_MONITOR and SET_OUTPUT. -/

namespace Sys2Proof.Machine

/-- IDENTIFY's owner (11, R200). -/
def ownIdentify (s : State) : Answer := ⟨s, .ok, identity⟩

/-- READ_STATUS's owner (11, R201). -/
def ownReadStatus (s : State) : Answer := ⟨s, .ok, s.part.statusRecord⟩

/-- Enter a device state. -/
def State.enter (s : State) (d : DeviceState) : State := s.onPart fun p => { p with take := { p.take with device := d } }

/-- SET_STATE's owner (09, R157). -/
def ownSetState (target : Byte) (s : State) : Answer :=
  match DeviceState.ofCode target with
  | none | some .run => s.refuse .badValue
  | some .configure =>
    if s.part.take.device = .configure then s.done .ok
    else if s.part.trc.state = .stopped then (s.enter .configure).done .ok
    else s.refuse .busy
  | some .standby =>
    if s.part.take.device = .standby then s.done .ok
    else if s.part.atRest && s.part.drained then (s.enter .standby).done .ok
    else s.refuse .busy

/-- LOCK_TABLES's owner (03, R59). -/
def ownLockTables (flag : Byte) (s : State) : Answer :=
  match flagOf flag with
  | none => s.refuse .badValue
  | some b => { s with setup := { s.setup with locked := b } }.done .ok

/-- A change of Fr returns the receiver to WAITING with run count 0, and RAW_HELD is absent (01, R2, R7). -/
def Part.wordClockChanged (u : Setup) (p : Part) : Part :=
  { p with hcr := { p.hcr with link := .waiting, run := 0 } }.reportAbsent u .rawHeld

/-- A change of the rate ratio makes S of both trackers and A of both lanes the new N (05, R84; 06, R104). -/
def Part.ratioChanged (u : Setup) (p : Part) : Part :=
  { p with
    rft := ⟨{ p.rft.a with step := u.rates.nominal }, { p.rft.b with step := u.rates.nominal }⟩,
    lanes := ⟨{ p.lanes.a with applied := u.rates.nominal }, { p.lanes.b with applied := u.rates.nominal }⟩ }

/-- A SET_RATES that passes: the new pair, the raised C values, and what a change of Fr or of the ratio brings (06, R104;
03, R60; log 24). -/
def State.takeRates (new : RatePair) (s : State) : State :=
  let old := s.setup.rates
  let u := { s.setup with rates := new, entries := s.setup.entries.map (Entry.raiseC new.fr) }
  let p := s.part
  let p := if new.fr = old.fr then p else p.wordClockChanged u
  let p := if new.ratio = old.ratio then p else p.ratioChanged u
  { s with setup := u, part := (p.refind u).takeStop u }

/-- SET_RATES's owner (06, R104). -/
def ownSetRates (fr fo : BitVec 24) (s : State) : Answer :=
  match RatePair.ofRates fr.toNat fo.toNat with
  | none => s.refuse .badValue
  | some new =>
    if s.part.trc.op.kind = .take ∨ s.part.trc.op.kind = .survey ∨ s.part.drained = false then s.refuse .busy
    else if s.setup.entries.any (Entry.conflicts new.fr) then s.refuse .conflict
    else (s.takeRates new).done (adjustedIf (decide (s.setup.entries.map (Entry.raiseC new.fr) ≠ s.setup.entries)))

/-- LOAD_COEFF_ROW's owner (06, R115). -/
def ownLoadCoeffRow (row : Byte) (coeffs : List (BitVec 24)) (s : State) : Answer :=
  if s.part.producing then s.refuse .busy
  else
    let sent := coeffs.map BitVec.toInt
    let stored := sent.map (clampInt (-524288) 524287)
    { s with bank := s.bank.writeRow row.toNat stored }.done (adjustedIf (decide (stored ≠ sent)))

/-- SELECT_BANK's owner (06, R116). -/
def ownSelectBank (bank : Byte) (s : State) : Answer :=
  match bankOfCode bank with
  | none => s.refuse .badValue
  | some loaded =>
    if s.part.producing then s.refuse .busy
    else if loaded && !s.bank.full then s.refuse .conflict
    else { s with setup := { s.setup with bankLoaded := loaded } }.done .ok

/-- The parameters as sent. -/
def sentDeck (a : DeckArgs) : Deck :=
  { tickRate := a.tickRate.toNat, nc := a.nc.toNat, slipThreshold := a.slipThreshold.toNat, slipCount := a.slipCount.toNat,
    approach := a.approach.toNat, stallTime := a.stallTime.toNat, settleTime := a.settleTime.toNat,
    leaderLimit := a.leaderLimit.toNat }

/-- The parameters brought into their ranges (02, R20). -/
def Deck.clamped (d : Deck) : Deck :=
  { tickRate := clampNat 160 16000 d.tickRate, nc := clampNat 16 65535 d.nc, slipThreshold := clampNat 128 255 d.slipThreshold,
    slipCount := clampNat 1 15 d.slipCount, approach := clampNat 16 4096 d.approach, stallTime := clampNat 100 2000 d.stallTime,
    settleTime := clampNat 100 1000 d.settleTime, leaderLimit := clampNat 10 600 d.leaderLimit }

/-- SET_DECK's owner (02, R20). -/
def ownSetDeck (args : DeckArgs) (s : State) : Answer :=
  if s.part.atRest then
    let sent := sentDeck args
    { s with setup := { s.setup with deck := sent.clamped } }.done (adjustedIf (decide (sent.clamped ≠ sent)))
  else s.refuse .busy

/-- SET_MONITOR's owner (09, R175). -/
def ownSetMonitor (source freeze : Byte) (s : State) : Answer :=
  match MonitorSource.ofCode source, flagOf freeze with
  | some src, some frozen =>
    let value := if frozen then s.part.monitorLive s.setup src else s.setup.monitor.value
    { s with setup := { s.setup with monitor := ⟨src, frozen, value⟩ } }.done .ok
  | _, _ => s.refuse .badValue

/-- The threshold a value becomes (09, R173). -/
def thresholdOf (v : Nat) : Nat := clampNat 64 960 v / 64 * 64

/-- SET_OUTPUT's owner (09, R173). -/
def ownSetOutput (threshold : BitVec 16) (s : State) : Answer :=
  let t := thresholdOf threshold.toNat
  { s with setup := { s.setup with threshold := t } }.done (adjustedIf (decide (t ≠ threshold.toNat)))

/-- IDENTIFY (11, R200). -/
def execIdentify (tag : Byte) (s : State) : Host.Outcome State Fault Refusal := .next (portCommand .identify tag ownIdentify s)

/-- READ_STATUS (11, R201). -/
def execReadStatus (tag : Byte) (s : State) : Host.Outcome State Fault Refusal :=
  .next (portCommand .readStatus tag ownReadStatus s)

/-- SET_STATE (09, R157). -/
def execSetState (tag target : Byte) (s : State) : Host.Outcome State Fault Refusal :=
  .next (portCommand .setState tag (ownSetState target) s)

/-- LOCK_TABLES (03, R59). -/
def execLockTables (tag flag : Byte) (s : State) : Host.Outcome State Fault Refusal :=
  .next (portCommand .lockTables tag (ownLockTables flag) s)

/-- SET_RATES (06, R104). -/
def execSetRates (tag : Byte) (fr fo : BitVec 24) (s : State) : Host.Outcome State Fault Refusal :=
  .next (portCommand .setRates tag (ownSetRates fr fo) s)

/-- LOAD_COEFF_ROW (06, R115). -/
def execLoadCoeffRow (tag row : Byte) (coeffs : List (BitVec 24)) (s : State) : Host.Outcome State Fault Refusal :=
  .next (portSized .loadCoeffRow tag (coeffs.length == 32) (ownLoadCoeffRow row coeffs) s)

/-- SELECT_BANK (06, R116). -/
def execSelectBank (tag bank : Byte) (s : State) : Host.Outcome State Fault Refusal :=
  .next (portCommand .selectBank tag (ownSelectBank bank) s)

/-- SET_DECK (02, R20). -/
def execSetDeck (tag : Byte) (deck : DeckArgs) (s : State) : Host.Outcome State Fault Refusal :=
  .next (portCommand .setDeck tag (ownSetDeck deck) s)

/-- SET_MONITOR (09, R175). -/
def execSetMonitor (tag source freeze : Byte) (s : State) : Host.Outcome State Fault Refusal :=
  .next (portCommand .setMonitor tag (ownSetMonitor source freeze) s)

/-- SET_OUTPUT (09, R173). -/
def execSetOutput (tag : Byte) (threshold : BitVec 16) (s : State) : Host.Outcome State Fault Refusal :=
  .next (portCommand .setOutput tag (ownSetOutput threshold) s)

end Sys2Proof.Machine
end

