-- ==== Sys2Proof/Machine/Deck.lean ====
section
/-! DEFINITION. The commands that move the tape or name where it is: SET_POSITION, WIND, SEEK, REWIND_TO_LEADER, STOP and SURVEY (01, R15; 02, R21 to R34; 04, R80). -/

namespace Sys2Proof.Machine

/-- SET_POSITION's owner (01, R15). -/
def ownSetPosition (position : BitVec 24) (s : State) : Answer :=
  if s.part.trc.state ≠ .stopped then s.refuse .busy
  else if s.part.pos.cassette = false then s.refuse .conflict
  else
    (s.onPart fun p =>
      { p with pos := { p.pos with position := position.toNat, referenced := true } }.follow s.setup).done .ok

/-- The checks of a motion command after admission (02, R21): BUSY, then CONFLICT, else the operation begins. -/
def motion (begin : Part → Part) (s : State) : Answer :=
  if s.part.atRest = false then s.refuse .busy
  else if s.part.pos.cassette = false then s.refuse .conflict
  else (s.onPart begin).done .accepted

/-- An accepted WIND (02, R21, R27). -/
def Part.windStart (d : Direction) (p : Part) : Part :=
  (p.setOp { p.opStart .wind with direction := some d, windCount := some 0 }).enterMoving
    (match d with
     | .forward => .windingFwd
     | .reverse => .windingRev)

/-- WIND's owner: a direction outside its list is refused before R21's checks (02, R27; 11, R203). -/
def ownWind (direction : Byte) (s : State) : Answer :=
  match Direction.ofCode direction with
  | none => s.refuse .badValue
  | some d => motion (Part.windStart d) s

/-- SEEK's owner (02, R28). -/
def ownSeek (target : BitVec 24) (s : State) : Answer := motion (Part.seekStart s.setup target.toNat) s

/-- An accepted REWIND_TO_LEADER (02, R21, R31). -/
def Part.rewindStart (p : Part) : Part :=
  (p.setOp { p.opStart .rewindToLeader with phase := some .reverse, windCount := some 0 }).enterMoving .windingRev

/-- REWIND_TO_LEADER's owner (02, R31). -/
def ownRewindToLeader (s : State) : Answer := motion Part.rewindStart s

/-- STOP's owner (02, R34). -/
def ownStop (s : State) : Answer :=
  (s.onPart fun p => (p.endAs s.setup .aborted .stopCommand).takeStop s.setup).done .ok

/-- A survey's arguments after step 3 of R80 (04): source, f_ref, C, W, span. -/
structure SurveyPlan where
  fRef : Nat
  c : Nat
  w : Nat
  span : Nat
  deriving DecidableEq, Repr

/-- The arguments as sent; TACH takes f_ref 0 and C 16 whatever was sent (03, R44). -/
def sentSurvey (source : Source) (a : SurveyArgs) : SurveyPlan :=
  { fRef := if source.isAudio then a.fRef.toNat else 0, c := if source.isAudio then a.c.toNat else 16, w := a.w.toNat,
    span := a.span.toNat }

/-- Step 3's clamping: none is CONFLICT (04, R80; 03, R44, R45). -/
def SurveyPlan.checked (fr : Nat) (source : Source) (a : SurveyPlan) : Option SurveyPlan :=
  let f := clampFRef source a.fRef
  if fRefConflict fr source f then none
  else some { fRef := f, c := clampCrossings fr source f a.c, w := clampNat 5 80 a.w, span := max 1 a.span }

/-- Steps 4 to 6 of R80 (04): what keeps a survey from starting. -/
def surveyBlocked (u : Setup) (p : Part) : Option ReplyCode :=
  if p.atRest = false ∨ p.drained = false then some .busy
  else if p.pos.cassette = false then some .conflict
  else if faultActive u p then some .faultActive
  else none

/-- SURVEY's owner (04, R80, R81). -/
def ownSurvey (a : SurveyArgs) (s : State) : Answer :=
  match laneOfCode a.lane, Source.ofCode a.source with
  | some l, some source =>
    if source.isMeasured then
      match (sentSurvey source a).checked s.setup.rates.fr source with
      | none => s.refuse .conflict
      | some plan =>
        match surveyBlocked s.setup s.part with
        | some code => s.refuse code
        | none =>
          (s.onPart (Part.surveyStart s.setup l source plan.fRef plan.c plan.w plan.span)).done
            (if plan = sentSurvey source a then .accepted else .adjusted)
    else s.refuse .badValue
  | _, _ => s.refuse .badValue

/-- SET_POSITION (01, R15). -/
def execSetPosition (tag : Byte) (position : BitVec 24) (s : State) : Host.Outcome State Fault Refusal :=
  .next (portCommand .setPosition tag (ownSetPosition position) s)

/-- WIND (02, R27). -/
def execWind (tag direction : Byte) (s : State) : Host.Outcome State Fault Refusal :=
  .next (portCommand .wind tag (ownWind direction) s)

/-- SEEK (02, R28). -/
def execSeek (tag : Byte) (target : BitVec 24) (s : State) : Host.Outcome State Fault Refusal :=
  .next (portCommand .seek tag (ownSeek target) s)

/-- REWIND_TO_LEADER (02, R31). -/
def execRewindToLeader (tag : Byte) (s : State) : Host.Outcome State Fault Refusal :=
  .next (portCommand .rewindToLeader tag ownRewindToLeader s)

/-- STOP (02, R34). -/
def execStop (tag : Byte) (s : State) : Host.Outcome State Fault Refusal := .next (portCommand .stop tag ownStop s)

/-- SURVEY (04, R80). -/
def execSurvey (tag : Byte) (args : SurveyArgs) (s : State) : Host.Outcome State Fault Refusal :=
  .next (portCommand .survey tag (ownSurvey args) s)

end Sys2Proof.Machine
end

