-- ==== Sys2Proof/Machine/Table.lean ====
section
/-! DEFINITION. The commands of the segment table: LOAD_SEGMENT, DELETE_SEGMENT, CLEAR_SEGMENTS and READ_SEGMENT (03, R46 to R49, R57). -/

namespace Sys2Proof.Machine

/-- Why a LOAD_SEGMENT's arguments are refused, or what they come to. -/
inductive Checked (α : Type) where
  | refused (code : ReplyCode)
  | passed (value : α)
  deriving DecidableEq, Repr

/-- The enumerated fields of a part: an absent part is not read (03, R43; 11, R203). -/
def namedPart (present : Bool) (a : PartArgs) : Option (Option Settings) :=
  if present then (rawPart a).map some else some none

/-- A named part after clamping and the f_ref check, with whether a value was changed (03, R44, R45). -/
def clampedPart (fr : Nat) : Option Settings → Option (Option Settings × Bool)
  | none => some (none, false)
  | some raw => (raw.checked fr).map fun r => (some r.1, r.2)

/-- An entry to be loaded: the entry, REPLACE, and whether a value was changed. -/
structure Loading where
  entry : Entry
  replace : Bool
  changed : Bool
  deriving DecidableEq, Repr

/-- Steps 1 and 2 of R46 (03): flags and enumerations, then ranges and f_ref, of both parts in turn. -/
def checkSegment (fr : Nat) (a : SegmentArgs) : Checked Loading :=
  match flagOf a.replace, flagOf a.presentA, flagOf a.presentB with
  | some replace, some hasA, some hasB =>
    match namedPart hasA a.partA, namedPart hasB a.partB with
    | some rawA, some rawB =>
      match clampedPart fr rawA, clampedPart fr rawB with
      | some (partA, changedA), some (partB, changedB) =>
        .passed ⟨⟨a.start.toNat, a.label.toNat, ⟨partA, partB⟩⟩, replace, changedA || changedB⟩
      | _, _ => .refused .conflict
    | _, _ => .refused .badValue
  | _, _, _ => .refused .badValue

/-- An entry with the start position is held. -/
def holdsStart (entries : List Entry) (start : Nat) : Bool := entries.any fun e => e.start == start

/-- Steps 3 to 5 of R46 (03): what keeps a checked entry out of the table. -/
def loadBlocked (u : Setup) (p : Part) (x : Loading) : Option ReplyCode :=
  if p.take.device = .run ∧ liveEditPasses p x.entry.start = false then some .tooLate
  else if holdsStart u.entries x.entry.start then (if x.replace then none else some .duplicate)
  else if Config.maxEntries ≤ u.entries.length then some .full
  else none

/-- The table becomes another; outside a take the current and governing entries are found again at once (03, R46, R51). -/
def State.editTable (s : State) (entries : List Entry) : State :=
  let u := { s.setup with entries := entries }
  { s with setup := u, part := s.part.follow u }

/-- LOAD_SEGMENT's owner (03, R46). -/
def ownLoadSegment (a : SegmentArgs) (s : State) : Answer :=
  match checkSegment s.setup.rates.fr a with
  | .refused code => s.refuse code
  | .passed x =>
    match loadBlocked s.setup s.part x with
    | some code => s.refuse code
    | none => (s.editTable (insertSegment x.entry s.setup.entries)).done (adjustedIf x.changed)

/-- DELETE_SEGMENT's owner (03, R47): NOT_FOUND before the live-edit check. -/
def ownDeleteSegment (start : BitVec 24) (s : State) : Answer :=
  if holdsStart s.setup.entries start.toNat = false then s.refuse .notFound
  else if s.part.take.device = .run ∧ liveEditPasses s.part start.toNat = false then s.refuse .tooLate
  else (s.editTable (s.setup.entries.filter fun e => e.start != start.toNat)).done .ok

/-- CLEAR_SEGMENTS's owner (03, R48). -/
def ownClearSegments (s : State) : Answer := (s.editTable []).done .ok

/-- READ_SEGMENT's owner (03, R49). -/
def ownReadSegment (index : Byte) (s : State) : Answer :=
  match s.setup.entries[index.toNat]? with
  | some e => ⟨s, .ok, e.bytes⟩
  | none => s.refuse .notFound

/-- LOAD_SEGMENT (03, R46). -/
def execLoadSegment (tag : Byte) (args : SegmentArgs) (s : State) : Host.Outcome State Fault Refusal :=
  .next (portCommand .loadSegment tag (ownLoadSegment args) s)

/-- DELETE_SEGMENT (03, R47). -/
def execDeleteSegment (tag : Byte) (start : BitVec 24) (s : State) : Host.Outcome State Fault Refusal :=
  .next (portCommand .deleteSegment tag (ownDeleteSegment start) s)

/-- CLEAR_SEGMENTS (03, R48). -/
def execClearSegments (tag : Byte) (s : State) : Host.Outcome State Fault Refusal :=
  .next (portCommand .clearSegments tag ownClearSegments s)

/-- READ_SEGMENT (03, R49). -/
def execReadSegment (tag index : Byte) (s : State) : Host.Outcome State Fault Refusal :=
  .next (portCommand .readSegment tag (ownReadSegment index) s)

end Sys2Proof.Machine
end

