-- ==== Sys2Proof/Machine/Takes.lean ====
section
/-! DEFINITION. START_TAKE, READ_DROPOUTS, the production steps of the lanes and the closing of a take (09, R158, R159, R163; 08, R153; 06, R107 to R110). -/

namespace Sys2Proof.Machine

/-- Checks 2 to 7 of R158 (09), in order; the first that fails gives the reply. -/
def takeBlocked (u : Setup) (p : Part) (endPosition : Option Nat) : Option ReplyCode :=
  if p.atRest = false ∨ p.drained = false then some .busy
  else if p.pos.cassette = false then some .conflict
  else if p.pos.referenced = false then some .notReferenced
  else if faultActive u p then some .faultActive
  else if endPosition.any (fun e => decide (e ≤ p.pos.position)) then some .conflict
  else if (p.effective .a).source = .off ∧ (p.effective .b).source = .off then some .conflict
  else none

/-- START_TAKE's owner (09, R158, R159); the reply carries the new take number. -/
def ownStartTake (endFlag : Byte) (endPosition : BitVec 24) (s : State) : Answer :=
  match flagOf endFlag with
  | none => s.refuse .badValue
  | some given =>
    let e := if given then some endPosition.toNat else none
    match takeBlocked s.setup s.part e with
    | some code => s.refuse code
    | none =>
      let s' := s.onPart (Part.takeStart s.setup e)
      ⟨s', .accepted, bytesOf 2 s'.part.take.number⟩

/-- READ_DROPOUTS's owner (08, R153). -/
def ownReadDropouts (n : Byte) (s : State) : Answer :=
  let wanted := clampNat 1 8 n.toNat
  let records := s.part.log.take wanted
  ⟨s.onPart fun p => { p with log := p.log.drop wanted }, adjustedIf (decide (wanted ≠ n.toNat)),
    bytesOf 1 records.length ++ (records.map DropoutRecord.bytes).flatten⟩

/-- A lane takes a production step: the step, the finish it may bring, and the stop request it may have made (06, R108,
R118; 02, R38). -/
def Part.laneStep (u : Setup) (rings : Rings) (bank : LoadedBank) (l : Lane) (p : Part) : Part :=
  ((p.stepLane u rings bank l).finishIfDone u l).takeStop u

/-- A lane's production step, if it may take one (06, R107, R117), and the close of the take it may bring (09, R163). -/
def productionStep (l : Lane) (s : State) : State :=
  if s.part.canStep l then s.onPart fun p => (p.laneStep s.setup s.rings s.bank l).closeTake else s

/-- START_TAKE (09, R158). -/
def execStartTake (tag endFlag : Byte) (endPosition : BitVec 24) (s : State) : Host.Outcome State Fault Refusal :=
  .next (portCommand .startTake tag (ownStartTake endFlag endPosition) s)

/-- READ_DROPOUTS (08, R153). -/
def execReadDropouts (tag n : Byte) (s : State) : Host.Outcome State Fault Refusal :=
  .next (portCommand .readDropouts tag (ownReadDropouts n) s)

/-- PRODUCTION_STEP (06, R108). -/
def execProductionStep (l : Lane) (s : State) : Host.Outcome State Fault Refusal := .next (productionStep l s)

/-- TAKE_ENDED (09, R163). -/
def execTakeEnded (s : State) : Host.Outcome State Fault Refusal := .next (s.onPart Part.closeTake)

end Sys2Proof.Machine
end

