-- ==== Sys2Proof/Machine/Conditions.lean ====
section
/-! DEFINITION. SET_POLICY, CLEAR_CONDITIONS, SET_NOTICE_MASK and CLIP_HOLD_EXPIRY (10, R177, R182 to R184, R188). -/

namespace Sys2Proof.Machine

/-- A record's policy, and for LOCK_LOST its lane fault scope (10, R182). -/
def PolicyRec.with (id : CondId) (policy : Policy) (scope : Scope) (r : PolicyRec) : PolicyRec :=
  match id with
  | .lockLost _ => ⟨policy, scope⟩
  | .rawHeld | .rawLost | .cellError | .overrun | .stall | .slip | .logFull | .range _ | .clip _ => { r with policy := policy }

/-- The records named take the policy (10, R182). -/
def Setup.setPolicies (ids : List CondId) (policy : Policy) (scope : Scope) (u : Setup) : Setup :=
  { u with policies := ids.foldl (fun t id => t.set id ((t.get id).with id policy scope)) u.policies }

/-- A SET_POLICY that passes: each record changes, then acts by R183, and a stop request is taken (10, R182, R183). -/
def State.takePolicies (ids : List CondId) (policy : Policy) (scope : Scope) (s : State) : State :=
  let u := s.setup.setPolicies ids policy scope
  { s with setup := u, part := (ids.foldl (fun p id => p.policySet u id) s.part).takeStop u }

/-- SET_POLICY's owner (10, R182). -/
def ownSetPolicy (a : PolicyArgs) (s : State) : Answer :=
  match LaneSet.ofCode a.lane, Policy.ofCode a.policy, Scope.ofCode a.scope with
  | some lanes, some policy, some scope =>
    match condRecords a.condition lanes with
    | none => s.refuse .badValue
    | some ids =>
      if ids.all fun id => id.allowed.contains policy then (s.takePolicies ids policy scope).done .ok
      else s.refuse .conflict
  | _, _, _ => s.refuse .badValue

/-- Every record after CLEAR_CONDITIONS (10, R184). -/
def clearedConditions (policies : PerCond PolicyRec) (c : PerCond CondStatus) : PerCond CondStatus :=
  condIds.foldl (fun t id => t.set id (clearedStatus id (policies.get id) (t.get id))) c

/-- CLEAR_CONDITIONS's owner: the reply carries the flags still set (10, R184). -/
def ownClearConditions (s : State) : Answer :=
  let s' := s.onPart fun p => { p with cmn := clearedConditions s.setup.policies p.cmn }
  ⟨s', .ok, bytesOf 2 (flagSet s'.part.cmn).toNat⟩

/-- The kinds whose flags are set; none if a flag is neither set nor clear (10, R188). -/
def maskOf : List NoticeKind → List Byte → Option (List NoticeKind)
  | k :: ks, b :: bs =>
    match flagOf b, maskOf ks bs with
    | some true, some rest => some (k :: rest)
    | some false, some rest => some rest
    | _, _ => none
  | _, _ => some []

/-- SET_NOTICE_MASK's owner (10, R188). -/
def ownSetNoticeMask (flags : List Byte) (s : State) : Answer :=
  match maskOf noticeKinds flags with
  | some mask => { s with setup := { s.setup with mask := mask } }.done .ok
  | none => s.refuse .badValue

/-- SET_POLICY (10, R182). -/
def execSetPolicy (tag : Byte) (args : PolicyArgs) (s : State) : Host.Outcome State Fault Refusal :=
  .next (portCommand .setPolicy tag (ownSetPolicy args) s)

/-- CLEAR_CONDITIONS (10, R184). -/
def execClearConditions (tag : Byte) (s : State) : Host.Outcome State Fault Refusal :=
  .next (portCommand .clearConditions tag ownClearConditions s)

/-- SET_NOTICE_MASK (10, R188). -/
def execSetNoticeMask (tag : Byte) (flags : List Byte) (s : State) : Host.Outcome State Fault Refusal :=
  .next (portSized .setNoticeMask tag (flags.length == 10) (ownSetNoticeMask flags) s)

/-- CLIP_HOLD_EXPIRY (10, R177). -/
def execClipHoldExpiry (l : Lane) (s : State) : Host.Outcome State Fault Refusal :=
  .next (s.onPart (Part.clipExpire s.setup l))

end Sys2Proof.Machine
end

