-- ==== Sys2Proof/Machine/Arrival.lean ====
section
/-! DEFINITION. The head converter link and the arrival side (01, R1 to R12; 04, R67 to R75; 07, R122): FRAME_SLOT, SETTINGS_WORD_SENT, and the events that fall due at the trackers and the aligner. -/

namespace Sys2Proof.Machine

/-- A frame of the next raw index would overwrite a sample a lane still needs (01, R12). -/
def Part.overruns (p : Part) : Bool :=
  [Lane.a, Lane.b].any fun l =>
    match (p.lanes.get l).oldestNeeded with
    | some m => decide (m + (Config.ringSize : Int) ≤ (p.hcr.nextIndex : Int))
    | none => false

/-- Capture stops: the receiver writes no further frame (01, R6, R9, R12). -/
def Part.stopCapture (p : Part) : Part := { p with hcr := { p.hcr with capturing := false } }

/-- What the arrival side does with a frame just written at raw index n: both trackers, both aligner halves, and at a
block's last frame the detectors (01, R9). -/
def Part.arrived (u : Setup) (rings : Rings) (n : Nat) (f : PerTrack Int) (p : Part) : Part :=
  let p := (p.trackerFrame u n f .a).trackerFrame u n f .b
  let p := (p.azimuthFrame u rings n .a).azimuthFrame u rings n .b
  if n % Config.blockSize = 63 then p.blockComplete rings (n / Config.blockSize) else p

/-- A frame is written at the next raw index: the first of a block is stamped and judged before any block reads it, the
four rings take it, and the arrival side reads it (01, R9 to R11; 03, R53). -/
def State.writeFrame (f : PerTrack Int) (s : State) : State :=
  let u := s.setup
  let n := s.part.hcr.nextIndex
  let first := n % Config.blockSize = 0
  let rings := (if first then s.rings.setStamp (n / Config.blockSize) s.part.pos.position else s.rings).write n f
  let p := if first then s.part.blockBegin u n s.part.pos.position else s.part
  let p := { p with hcr := { p.hcr with nextIndex := n + 1 } }
  { s with rings := rings, part := (p.arrived u rings n f).takeStop u }

/-- A frame passed on: outside capture to no one; during capture written, unless it would overrun a lane (01, R9, R12). -/
def State.passOn (f : PerTrack Int) (s : State) : State :=
  if s.part.hcr.capturing then
    if s.part.overruns then
      s.onPart fun p => (p.stopCapture.occur s.setup .overrun).takeStop s.setup
    else s.writeFrame f
  else s

/-- Copies passed on, each in turn (01, R5). -/
def State.passCopies (f : PerTrack Int) : Nat → State → State
  | 0, s => s
  | k + 1, s => (s.passOn f).passCopies f k

/-- A good frame is taken: it becomes the last good frame, the run ends, the link follows its number (01, R2, R3). -/
def HeadReceiver.taken (h : HeadReceiver) (seq : Byte) (f : PerTrack Int) : HeadReceiver :=
  { h with link := .following, expected := seq + 1, lastGood := f, run := 0 }

/-- A slot that cannot be placed (01, R6, R7): the run ends, the link waits, capture stops, RAW_LOST is raised. -/
def Part.rawLost (u : Setup) (p : Part) : Part :=
  let p := { p with hcr := { p.hcr with link := .waiting, run := 0, capturing := false } }
  ((p.reportAbsent u .rawHeld).occur u .rawLost).takeStop u

/-- Take a good frame in sequence, after any copies (01, R3, R5, R7). -/
def State.takeFrame (seq : Byte) (f : PerTrack Int) (s : State) : State :=
  (s.onPart fun p => (({ p with hcr := p.hcr.taken seq f }.reportAbsent s.setup .rawHeld).takeStop s.setup)).passOn f

/-- Raise the run count by the copies of a slot; RAW_HELD is present (01, R4, R5, R7). -/
def Part.hold (u : Setup) (copies : Nat) (p : Part) : Part :=
  ({ p with hcr := { p.hcr with run := p.hcr.run + copies,
                                expected := p.hcr.expected + BitVec.ofNat 8 copies } }.reportPresent u .rawHeld).takeStop u

/-- The gap g of a good frame (01, R1). -/
def HeadReceiver.gap (h : HeadReceiver) (seq : Byte) : Nat := (seq - h.expected).toNat

/-- A frame slot closes: the table of R2 to R6 (01). -/
def frameSlot (bytes : List Byte) (s : State) : State :=
  let h := s.part.hcr
  match h.link, readRawFrame bytes with
  | .waiting, none => s
  | .waiting, some (seq, f) => s.takeFrame seq f
  | .following, none =>
    if h.run < 4 then (s.onPart (Part.hold s.setup 1)).passOn h.lastGood else s.onPart (Part.rawLost s.setup)
  | .following, some (seq, f) =>
    let g := h.gap seq
    if g = 0 then s.takeFrame seq f
    else if h.run + g ≤ 4 then ((s.onPart (Part.hold s.setup g)).passCopies h.lastGood g).takeFrame seq f
    else s.onPart (Part.rawLost s.setup)

/-- A settings word has been sent: it becomes the word last sent, and a waiting word begins to be sent (01, R8). Nothing
while none is being sent. -/
def HeadReceiver.wordSent (h : HeadReceiver) : HeadReceiver :=
  match h.wordSending with
  | none => h
  | some w => { h with wordLast := some w, wordSending := h.wordWaiting, wordWaiting := none }

/-- FRAME_SLOT (01, R1). -/
def execFrameSlot (bytes : List Byte) (s : State) : Host.Outcome State Fault Refusal := .next (frameSlot bytes s)

/-- SETTINGS_WORD_SENT (01, R8). -/
def execSettingsWordSent (s : State) : Host.Outcome State Fault Refusal :=
  .next (s.onPart fun p => { p with hcr := p.hcr.wordSent })

/-- MEASUREMENT_COMPLETE (04, R67). -/
def execMeasurementComplete (l : Lane) (s : State) : Host.Outcome State Fault Refusal :=
  .next (s.onPart fun p => (p.measurementComplete s.setup l).takeStop s.setup)

/-- MISS (04, R68). -/
def execMiss (l : Lane) (s : State) : Host.Outcome State Fault Refusal :=
  .next (s.onPart fun p => (p.missIfDue s.setup l).takeStop s.setup)

/-- TACH_MEASUREMENT_COMPLETE (04, R69). -/
def execTachMeasurementComplete (l : Lane) (s : State) : Host.Outcome State Fault Refusal := .next (s.onPart (Part.tachComplete l))

/-- HOLD_TIMER_EXPIRY (04, R74). -/
def execHoldTimerExpiry (l : Lane) (s : State) : Host.Outcome State Fault Refusal :=
  .next (s.onPart fun p => (p.holdIfDue s.setup l).takeStop s.setup)

/-- RAMP_MOVE (05, R92). -/
def execRampMove (l : Lane) (s : State) : Host.Outcome State Fault Refusal := .next (s.onPart (Part.rampIfDue s.setup l))

/-- AZIMUTH_WINDOW_COMPLETE (07, R122). -/
def execAzimuthWindowComplete (l : Lane) (s : State) : Host.Outcome State Fault Refusal :=
  .next (s.onPart (Part.azimuthComplete s.setup l))

end Sys2Proof.Machine
end

