-- ==== Sys2Proof/Machine/Link.lean ====
section
/-! DEFINITION. The capture link: DOWNSTREAM_CELL (11, R192 to R195) and UPSTREAM_SLOT (09, R169 to R171; 11, R198, R199). -/

namespace Sys2Proof.Machine

/-! ## Downstream cells -/

/-- The command a complete message spells is judged, acts, and is answered (11, R195). Rows that are not commands are
spelled by no message. -/
def runMessage : Instr → State → State
  | .softReset tag => runCommand .softReset tag ownSoftReset
  | .identify tag => runCommand .identify tag ownIdentify
  | .readStatus tag => runCommand .readStatus tag ownReadStatus
  | .setState tag target => runCommand .setState tag (ownSetState target)
  | .lockTables tag flag => runCommand .lockTables tag (ownLockTables flag)
  | .setRates tag fr fo => runCommand .setRates tag (ownSetRates fr fo)
  | .loadCoeffRow tag row coeffs => runCommand .loadCoeffRow tag (ownLoadCoeffRow row coeffs)
  | .selectBank tag bank => runCommand .selectBank tag (ownSelectBank bank)
  | .setDeck tag deck => runCommand .setDeck tag (ownSetDeck deck)
  | .setPosition tag position => runCommand .setPosition tag (ownSetPosition position)
  | .wind tag direction => runCommand .wind tag (ownWind direction)
  | .seek tag target => runCommand .seek tag (ownSeek target)
  | .rewindToLeader tag => runCommand .rewindToLeader tag ownRewindToLeader
  | .stop tag => runCommand .stop tag ownStop
  | .survey tag args => runCommand .survey tag (ownSurvey args)
  | .loadSegment tag args => runCommand .loadSegment tag (ownLoadSegment args)
  | .deleteSegment tag start => runCommand .deleteSegment tag (ownDeleteSegment start)
  | .clearSegments tag => runCommand .clearSegments tag ownClearSegments
  | .readSegment tag index => runCommand .readSegment tag (ownReadSegment index)
  | .startTake tag flag position => runCommand .startTake tag (ownStartTake flag position)
  | .readDropouts tag n => runCommand .readDropouts tag (ownReadDropouts n)
  | .setPolicy tag args => runCommand .setPolicy tag (ownSetPolicy args)
  | .clearConditions tag => runCommand .clearConditions tag ownClearConditions
  | .setNoticeMask tag flags => runCommand .setNoticeMask tag (ownSetNoticeMask flags)
  | .setMonitor tag source freeze => runCommand .setMonitor tag (ownSetMonitor source freeze)
  | .setOutput tag threshold => runCommand .setOutput tag (ownSetOutput threshold)
  | .hardReset _ | .downstreamCell _ | .frameSlot _ | .settingsWordSent | .measurementComplete _ | .miss _
  | .tachMeasurementComplete _ | .holdTimerExpiry _ | .rampMove _ | .azimuthWindowComplete _ | .productionStep _
  | .upstreamSlot | .tick _ _ | .qualificationComplete | .surveySpanCounted | .capstanPulse | .slipWindowClose
  | .leaderSensorChange | .cassetteInsertion | .cassetteRemoval | .settleTimerExpiry | .stallTimerExpiry
  | .startingLimit | .leaderSearchLimit | .clipHoldExpiry _ | .takeEnded | .bothPhasesChange => id

/-- A complete message, the assembler IDLE again: an unknown kind is INVALID, a wrong length MALFORMED (11, R195). -/
def completeMessage (kind tag : Byte) (args : List Byte) (s : State) : State :=
  match Cmd.ofCode kind with
  | none => s.replyTo kind tag .invalid []
  | some k =>
    if args.length = k.argLength then
      match readMessage k tag args with
      | some i => runMessage i s
      | none => s.replyTo kind tag .malformed []
    else s.replyTo kind tag .malformed []

/-- The open message has gathered bytes: complete at its declared length, otherwise open (11, R193, R194). -/
def gather (m : OpenMessage) (bytes : List Byte) (s : State) : State :=
  let args := m.args ++ bytes.take (m.length - m.args.length)
  let open_ (a : Option OpenMessage) : State := s.onPart fun p => { p with msp := { p.msp with assembler := a } }
  if m.length ≤ args.length then completeMessage m.kind m.tag args (open_ none)
  else open_ (some { m with args := args })

/-- A good START cell (11, R193). -/
def startCell (kind tag length : Byte) (bytes : List Byte) (s : State) : State :=
  if s.part.ready then
    if Config.maxArgs < length.toNat then s.replyTo kind tag .malformed []
    else gather ⟨kind, tag, length.toNat, []⟩ bytes s
  else s.startRefused

/-- A good CONT cell (11, R194). -/
def contCell (bytes : List Byte) (s : State) : State :=
  match s.part.msp.assembler with
  | some m => gather m bytes s
  | none => s.cellError

/-- A bad cell: CELL_ERROR, and an open message is abandoned (11, R192). -/
def badCell (s : State) : State := s.cellError.abandon

/-- A cell is good if its eight bytes sum to 0 and its kind field names one of the three kinds (11, R192, R203). -/
def goodCell (bytes : List Byte) : Bool :=
  bytes.length == Config.cellBytes && byteSum bytes == 0 && (bytes.headD 0).extractLsb' 0 2 != 3

/-- A downstream cell arrives (11, R192): a good one gives ACCEPT (09, R172), then EMPTY, START or CONT. -/
def downstreamCell (bytes : List Byte) (s : State) : State :=
  if goodCell bytes then
    let flags := bytes.headD 0
    let s := s.onPart fun p => { p with osc := { p.osc with accept := flags.getLsbD 7 } }
    match (flags.extractLsb' 0 2).toNat, bytes with
    | 1, [_, kind, tag, length, a, b, c, _] => startCell kind tag length [a, b, c] s
    | 2, [_, a, b, c, d, e, f, _] => contCell [a, b, c, d, e, f] s
    | _, _ => s
  else badCell s

/-! ## Upstream slots -/

/-- The notice the queue offers: the one nearest the front whose kind is not masked, and the queue without it (10, R187). -/
def offerNotice (mask : List NoticeKind) : List Notice → Option (Notice × List Notice)
  | [] => none
  | n :: rest =>
    if mask.contains n.content.kind then (offerNotice mask rest).map fun r => (r.1, n :: r.2) else some (n, rest)

/-- A message is waiting (09, R169). -/
def Part.messageWaiting (u : Setup) (p : Part) : Bool :=
  p.osc.underway.isSome || !p.msp.replies.isEmpty || (offerNotice u.mask p.msp.notices).isSome

/-- The message a message slot sends from, with whether it continues and the port after it has left its queue: the message
under way, else the front reply, else the offered notice (09, R170). -/
def Part.nextMessage (u : Setup) (p : Part) : Option (Bool × Underway × MessagePort) :=
  match p.osc.underway, p.msp.replies with
  | some m, _ => some (true, m, p.msp)
  | none, r :: rest => some (false, ⟨false, r.bytes.length, r.bytes⟩, { p.msp with replies := rest })
  | none, [] =>
    (offerNotice u.mask p.msp.notices).map fun x =>
      (false, ⟨true, x.1.bytes.length, x.1.bytes⟩, { p.msp with notices := x.2 })

/-- Step 1's conditions of R169 (09). -/
def Part.messageSlot (u : Setup) (p : Part) : Bool :=
  p.messageWaiting u
    && ((decide (p.lanes.a.fifo.length < u.threshold) && decide (p.lanes.b.fifo.length < u.threshold))
        || !p.osc.accept || p.osc.slotsSince == 15)

/-- The lane a sample slot serves (09, R171). -/
def Part.servedLane (p : Part) : Lane :=
  if p.lanes.a.fifo.length < p.lanes.b.fifo.length then .b
  else if p.lanes.b.fifo.length < p.lanes.a.fifo.length then .a
  else p.osc.lastServed.other

/-- The slot counter after a slot without a message frame (09, R168). -/
def Scheduler.countSlot (o : Scheduler) : Scheduler := { o with slotsSince := min 15 (o.slotsSince + 1) }

/-- A message frame is sent (09, R170; 11, R199). -/
def Part.sendMessage (octet : Byte) (continues : Bool) (m : Underway) (port : MessagePort) (p : Part) : Part :=
  let rest := m.rest.drop Config.messageChunk
  { p with
    msp := port,
    osc := { p.osc with
      slotsSince := 0,
      underway := if rest.isEmpty then none else some { m with rest := rest },
      upstream := frameBytes 1 octet (messageContent continues m.notice m.total (m.rest.take Config.messageChunk)) } }

/-- A lane is stalled: producing from a source other than OFF, with a full FIFO (06, R109). -/
def Producer.stalled (x : Producer) : Bool :=
  x.producing && x.settings.source != .off && decide (Config.maxFifo ≤ x.fifo.length)

/-- A lane that was stalled takes its next production step at the removal that left room, if R107 or R117 allows it
(09, R171; 06, R109). -/
def Part.resumeLane (u : Setup) (rings : Rings) (bank : LoadedBank) (l : Lane) (wasStalled : Bool) (p : Part) : Part :=
  if wasStalled && p.canStep l then p.laneStep u rings bank l else p

/-- A sample frame is sent: the front frame of the lane served, which resumes if it was stalled; the take is closed if the
frame was the last awaited (09, R163, R171). -/
def Part.sendSample (u : Setup) (rings : Rings) (bank : LoadedBank) (octet : Byte) (p : Part) : Part :=
  let l := p.servedLane
  let x := p.lanes.get l
  match x.fifo with
  | [] => p
  | f :: rest =>
    (({ p with osc := { p.osc.countSlot with lastServed := l, upstream := frameBytes 0 octet f.bytes } }.setProducer l
      { x with fifo := rest }).resumeLane u rings bank l x.stalled).closeTake

/-- A link-check frame is sent and the pattern turns (09, R169). -/
def Part.sendLinkCheck (octet : Byte) (p : Part) : Part :=
  { p with osc := { p.osc.countSlot with
      pattern := if p.osc.pattern = 0x55 then 0xAA else 0x55,
      upstream := frameBytes 2 octet (List.replicate 21 p.osc.pattern) } }

/-- An idle frame is sent (09, R169). -/
def Part.sendIdle (octet : Byte) (p : Part) : Part :=
  { p with osc := { p.osc.countSlot with upstream := frameBytes 3 octet [] } }

/-- An upstream slot: the octet is composed first, and the first claimant of R169 has the slot (09, R169; 10, R185). -/
def Part.upstreamSlot (u : Setup) (rings : Rings) (bank : LoadedBank) (p : Part) : Part :=
  let octet := statusOctet u p
  match (if p.messageSlot u then p.nextMessage u else none) with
  | some (continues, m, port) => p.sendMessage octet continues m port
  | none =>
    if p.osc.accept && (!p.lanes.a.fifo.isEmpty || !p.lanes.b.fifo.isEmpty) then
      p.sendSample u rings bank octet
    else if p.take.device = .standby then p.sendLinkCheck octet
    else p.sendIdle octet

/-- DOWNSTREAM_CELL (11, R192). -/
def execDownstreamCell (bytes : List Byte) (s : State) : Host.Outcome State Fault Refusal := .next (downstreamCell bytes s)

/-- UPSTREAM_SLOT (09, R169). -/
def execUpstreamSlot (s : State) : Host.Outcome State Fault Refusal :=
  .next (s.onPart (Part.upstreamSlot s.setup s.rings s.bank))

end Sys2Proof.Machine
end

