-- ==== Sys2Proof/Machine/Sensors.lean ====
section
/-! DEFINITION. The transport line and the transport's timers: ticks, pulses, sensors, expiries (01, R13, R16; 02, R23 to R37). -/

namespace Sys2Proof.Machine

/-- Both phases change at one sampling: no tick, and the new levels are the phase state (01, R13). -/
def Part.bothPhases (p : Part) : Part :=
  { p with pos := { p.pos with phase1 := !p.pos.phase1, phase2 := !p.pos.phase2 } }

/-- A capstan pulse counts in an open slip window (02, R36). -/
def Part.pulse (p : Part) : Part :=
  match p.trc.slipWindow with
  | none => p
  | some w => { p with trc := { p.trc with slipWindow := some { w with pulses := w.pulses + 1 } } }

/-- TICK (01, R13). -/
def execTick (phase : Phase) (now : Nat) (s : State) : Host.Outcome State Fault Refusal :=
  .next (s.onPart (Part.tick s.setup phase now))

/-- QUALIFICATION_COMPLETE (02, R24). -/
def execQualificationComplete (s : State) : Host.Outcome State Fault Refusal := .next (s.onPart Part.qualify)

/-- SURVEY_SPAN_COUNTED (02, R26). -/
def execSurveySpanCounted (s : State) : Host.Outcome State Fault Refusal :=
  .next (s.onPart fun p => (p.surveyIfCounted s.setup).takeStop s.setup)

/-- CAPSTAN_PULSE (02, R36). -/
def execCapstanPulse (s : State) : Host.Outcome State Fault Refusal := .next (s.onPart Part.pulse)

/-- SLIP_WINDOW_CLOSE (02, R36, R37). -/
def execSlipWindowClose (s : State) : Host.Outcome State Fault Refusal :=
  .next (s.onPart fun p => (p.slipClose s.setup).takeStop s.setup)

/-- LEADER_SENSOR_CHANGE (02, R26, R27, R30 to R32). -/
def execLeaderSensorChange (s : State) : Host.Outcome State Fault Refusal :=
  .next (s.onPart fun p => (p.leaderChange s.setup).takeStop s.setup)

/-- CASSETTE_INSERTION (01, R16). -/
def execCassetteInsertion (s : State) : Host.Outcome State Fault Refusal := .next (s.onPart (Part.insertCassette s.setup))

/-- CASSETTE_REMOVAL (01, R16; 02, R39). -/
def execCassetteRemoval (s : State) : Host.Outcome State Fault Refusal :=
  .next (s.onPart fun p => (p.removeCassette s.setup).takeStop s.setup)

/-- SETTLE_TIMER_EXPIRY (02, R23). -/
def execSettleTimerExpiry (s : State) : Host.Outcome State Fault Refusal := .next (s.onPart (Part.settleExpiry s.setup))

/-- STALL_TIMER_EXPIRY (02, R35). -/
def execStallTimerExpiry (s : State) : Host.Outcome State Fault Refusal := .next (s.onPart (Part.stallExpiry s.setup))

/-- STARTING_LIMIT (02, R25). -/
def execStartingLimit (s : State) : Host.Outcome State Fault Refusal := .next (s.onPart (Part.startingExpiry s.setup))

/-- LEADER_SEARCH_LIMIT (02, R33). -/
def execLeaderSearchLimit (s : State) : Host.Outcome State Fault Refusal :=
  .next (s.onPart fun p => (p.leaderLimitExpiry s.setup).takeStop s.setup)

/-- BOTH_PHASES_CHANGE (01, R13). -/
def execBothPhasesChange (s : State) : Host.Outcome State Fault Refusal := .next (s.onPart Part.bothPhases)

end Sys2Proof.Machine
end

