-- ==== Sys2Proof/Machine/Dispatch.lean ====
section
/-! DEFINITION. One arm per row of the opcode table, each a direct call of the row's meaning. -/

namespace Sys2Proof.Machine

/-- A row's effect on everything but the queue. -/
def exec (i : Instr) (s : State) : Host.Outcome State Fault Refusal :=
  match i with
  | .hardReset levels => Sys2Proof.Machine.execHardReset levels s
  | .softReset tag => Sys2Proof.Machine.execSoftReset tag s
  | .identify tag => Sys2Proof.Machine.execIdentify tag s
  | .readStatus tag => Sys2Proof.Machine.execReadStatus tag s
  | .setState tag target => Sys2Proof.Machine.execSetState tag target s
  | .lockTables tag flag => Sys2Proof.Machine.execLockTables tag flag s
  | .setRates tag fr fo => Sys2Proof.Machine.execSetRates tag fr fo s
  | .loadCoeffRow tag row coeffs => Sys2Proof.Machine.execLoadCoeffRow tag row coeffs s
  | .selectBank tag bank => Sys2Proof.Machine.execSelectBank tag bank s
  | .setDeck tag deck => Sys2Proof.Machine.execSetDeck tag deck s
  | .setPosition tag position => Sys2Proof.Machine.execSetPosition tag position s
  | .wind tag direction => Sys2Proof.Machine.execWind tag direction s
  | .seek tag target => Sys2Proof.Machine.execSeek tag target s
  | .rewindToLeader tag => Sys2Proof.Machine.execRewindToLeader tag s
  | .stop tag => Sys2Proof.Machine.execStop tag s
  | .survey tag args => Sys2Proof.Machine.execSurvey tag args s
  | .loadSegment tag args => Sys2Proof.Machine.execLoadSegment tag args s
  | .deleteSegment tag start => Sys2Proof.Machine.execDeleteSegment tag start s
  | .clearSegments tag => Sys2Proof.Machine.execClearSegments tag s
  | .readSegment tag index => Sys2Proof.Machine.execReadSegment tag index s
  | .startTake tag endFlag endPosition => Sys2Proof.Machine.execStartTake tag endFlag endPosition s
  | .readDropouts tag n => Sys2Proof.Machine.execReadDropouts tag n s
  | .setPolicy tag args => Sys2Proof.Machine.execSetPolicy tag args s
  | .clearConditions tag => Sys2Proof.Machine.execClearConditions tag s
  | .setNoticeMask tag flags => Sys2Proof.Machine.execSetNoticeMask tag flags s
  | .setMonitor tag source freeze => Sys2Proof.Machine.execSetMonitor tag source freeze s
  | .setOutput tag threshold => Sys2Proof.Machine.execSetOutput tag threshold s
  | .downstreamCell bytes => Sys2Proof.Machine.execDownstreamCell bytes s
  | .frameSlot bytes => Sys2Proof.Machine.execFrameSlot bytes s
  | .settingsWordSent => Sys2Proof.Machine.execSettingsWordSent s
  | .measurementComplete lane => Sys2Proof.Machine.execMeasurementComplete lane s
  | .miss lane => Sys2Proof.Machine.execMiss lane s
  | .tachMeasurementComplete lane => Sys2Proof.Machine.execTachMeasurementComplete lane s
  | .holdTimerExpiry lane => Sys2Proof.Machine.execHoldTimerExpiry lane s
  | .rampMove lane => Sys2Proof.Machine.execRampMove lane s
  | .azimuthWindowComplete lane => Sys2Proof.Machine.execAzimuthWindowComplete lane s
  | .productionStep lane => Sys2Proof.Machine.execProductionStep lane s
  | .upstreamSlot => Sys2Proof.Machine.execUpstreamSlot s
  | .tick phase now => Sys2Proof.Machine.execTick phase now s
  | .qualificationComplete => Sys2Proof.Machine.execQualificationComplete s
  | .surveySpanCounted => Sys2Proof.Machine.execSurveySpanCounted s
  | .capstanPulse => Sys2Proof.Machine.execCapstanPulse s
  | .slipWindowClose => Sys2Proof.Machine.execSlipWindowClose s
  | .leaderSensorChange => Sys2Proof.Machine.execLeaderSensorChange s
  | .cassetteInsertion => Sys2Proof.Machine.execCassetteInsertion s
  | .cassetteRemoval => Sys2Proof.Machine.execCassetteRemoval s
  | .settleTimerExpiry => Sys2Proof.Machine.execSettleTimerExpiry s
  | .stallTimerExpiry => Sys2Proof.Machine.execStallTimerExpiry s
  | .startingLimit => Sys2Proof.Machine.execStartingLimit s
  | .leaderSearchLimit => Sys2Proof.Machine.execLeaderSearchLimit s
  | .clipHoldExpiry lane => Sys2Proof.Machine.execClipHoldExpiry lane s
  | .takeEnded => Sys2Proof.Machine.execTakeEnded s
  | .bothPhasesChange => Sys2Proof.Machine.execBothPhasesChange s

end Sys2Proof.Machine
end

