-- ==== Sys2Proof/Safety.lean ====
section
/-! DEFINITION. What is meant to hold of every state the part passes through: canonical buffers, configured values in their ranges, bounded queues, a position within its counter, and a device state that agrees with the operation. -/

namespace Sys2Proof.Safety

open Sys2Proof.Machine

/-- The addressed buffers are in canonical form (01, R10, R11; 06, R114; log 17). -/
def buffersCanonical (s : State) : Bool :=
  s.rings.samples.t1.wf && s.rings.samples.t2.wf && s.rings.samples.t3.wf && s.rings.samples.t4.wf && s.rings.stamps.wf
    && s.bank.coeffs.wf && s.bank.written.wf

/-- A number lies in a range. -/
def within (lo hi v : Nat) : Bool := decide (lo ≤ v) && decide (v ≤ hi)

/-- The deck parameters lie in the ranges of R20 (02). -/
def deckInRange (d : Deck) : Bool :=
  within 160 16000 d.tickRate && within 16 65535 d.nc && within 128 255 d.slipThreshold && within 1 15 d.slipCount
    && within 16 4096 d.approach && within 100 2000 d.stallTime && within 100 1000 d.settleTime && within 10 600 d.leaderLimit

/-- f_ref and C as R44 and R45 (03) leave them at a raw rate. -/
def referenceInRange (fr : Nat) (s : Settings) : Bool :=
  if s.source.isAudio then
    decide (clampFRef s.source s.fRef = s.fRef) && !fRefConflict fr s.source s.fRef && decide (ceilDiv s.fRef fr ≤ s.c)
      && decide (s.c ≤ s.fRef / 4) && decide (s.c ≤ 4096)
  else decide (s.fRef = 0) && decide (s.c = 16)

/-- A stored lane part lies in the ranges of R42 (03). -/
def partInRange (fr : Nat) (s : Settings) : Bool :=
  referenceInRange fr s && within 5 80 s.w && within 0 7 s.k && within 1 16777215 s.slew && within 1 15 s.acquire
    && within 1 15 s.missCount && within 0 255 s.hold && within 0 8388607 s.gate && decide (-4096 ≤ s.fixedOffset)
    && decide (s.fixedOffset ≤ 4096) && within 0 255 s.theta && within 0 7 s.ka && within 1 255 s.depth
    && within s.depth 255 s.release && within 1 15 s.onset && within 1 15 s.releaseCount && within 0 255 s.blanking

/-- An entry's start, label and parts (03, R41, R42). -/
def entryInRange (fr : Nat) (e : Entry) : Bool :=
  decide (e.start ≤ Config.maxPosition) && decide (e.label ≤ 65535) && e.parts.a.all (partInRange fr)
    && e.parts.b.all (partInRange fr)

/-- Start positions rise strictly (03, R41). -/
def ascending : List Entry → Bool
  | [] => true
  | [_] => true
  | x :: y :: rest => decide (x.start < y.start) && ascending (y :: rest)

/-- The table (03, R41, R42). -/
def tableLegal (fr : Nat) (entries : List Entry) : Bool :=
  ascending entries && decide (entries.length ≤ Config.maxEntries) && entries.all (entryInRange fr)

/-- Every record's policy is one its condition allows (10, R176). -/
def policiesAllowed (p : PerCond PolicyRec) : Bool := condIds.all fun id => id.allowed.contains (p.get id).policy

/-- What commands configure stays within its rules: deck, table, policies, threshold, and a LOADED selection only over a
fully written bank (02, R20; 03, R41; 10, R176; 09, R168; 06, R116). -/
def setupLegal (s : State) : Bool :=
  deckInRange s.setup.deck && tableLegal s.setup.rates.fr s.setup.entries && policiesAllowed s.setup.policies
    && within 64 960 s.setup.threshold && decide (s.setup.threshold % 64 = 0) && (!s.setup.bankLoaded || s.bank.full)

/-- No kind is queued twice (10, R186). -/
def kindsDistinct : List Notice → Bool
  | [] => true
  | n :: rest => rest.all (fun m => decide (m.content.kind ≠ n.content.kind)) && kindsDistinct rest

/-- The notice queue (10, R186). -/
def noticesLegal (q : List Notice) : Bool := kindsDistinct q && q.all fun n => within 1 255 n.count

/-- The reply queue holds at most 8 replies, and leaves room for the open message's own (11, R191, R196). -/
def repliesFit (m : MessagePort) : Bool :=
  decide (m.replies.length + (if m.assembler.isSome then 1 else 0) ≤ Config.maxReplies)

/-- The message port's queues (10, R186; 11, R191). -/
def portLegal (s : State) : Bool := noticesLegal s.part.msp.notices && repliesFit s.part.msp

/-- A lane's FIFO and timeline are within their capacities (09, R165; 05, R94). -/
def laneFits (x : Producer) : Bool :=
  decide (x.fifo.length ≤ Config.maxFifo) && decide (x.timeline.length ≤ Config.maxTimeline)

/-- The buffers between the arrival side and the workstation are within their capacities (08, R152; 09, R165; 05, R94). -/
def capacitiesHold (s : State) : Bool :=
  laneFits s.part.lanes.a && laneFits s.part.lanes.b && decide (s.part.log.length ≤ Config.maxLog)

/-- The tape position fits its counter (01, R13). -/
def positionFits (s : State) : Bool := decide (s.part.pos.position ≤ Config.maxPosition)

/-- The held-frame run count is at most 4, and 0 while the link waits (01, R2, R4, R5, R6). -/
def runFits (s : State) : Bool :=
  decide (s.part.hcr.run ≤ 4) && (s.part.hcr.link == .following || decide (s.part.hcr.run = 0))

/-- How the device state, the operation and the transport state go together (09, R155, R159, R162; 02, R18, R21, R22;
01, R9): the device is in RUN exactly while a take's operation runs without an ending; STARTING and PLAYING are exactly the
states of a take or survey without an ending; a transport with no operation is still; an operation that has ended is
settling; capture runs only in PLAYING; only a take ends with a take end cause. -/
def Part.playLegal (p : Part) : Prop :=
  (p.take.device = .run ↔ p.trc.op.kind = .take ∧ p.trc.op.ending = none)
    ∧ ((p.trc.state = .starting ∨ p.trc.state = .playing)
        ↔ (p.trc.op.kind = .take ∨ p.trc.op.kind = .survey) ∧ p.trc.op.ending = none)
    ∧ (p.trc.op.kind = .none → p.trc.state.moving = false)
    ∧ (p.trc.op.ending ≠ none → p.trc.state = .settling)
    ∧ (p.hcr.capturing = true → p.trc.state = .playing)
    ∧ (∀ c, p.trc.op.ending = some (.cause c) → p.trc.op.kind = .take)

/-- Nothing works inside a take outside RUN (09, R162; 04, R77; 06, R117; 07, R131; 08, R142): no tracker follows a take and each is
IDLE, no lane is ACTIVE, no aligner half runs or has a window open, no detector runs or holds a dropout open. -/
def Part.restsOutsideRun (p : Part) : Prop :=
  p.take.device ≠ .run → ∀ l : Lane,
    (p.rft.get l).lock = .idle ∧ (p.rft.get l).mode ≠ .take ∧ (p.lanes.get l).state ≠ .active
      ∧ (p.aza.get l).running = false ∧ (p.aza.get l).window = none
      ∧ ∀ tr : Track, tr.lane = l → (p.det.get tr).running = false ∧ (p.det.get tr).openDropout = none

/-- A span without a last raw index is listed only while its track's detector holds a dropout open, which it does only in PLAYING,
once a frame has been written (08, R138, R142, R143). -/
def Part.spansFollow (p : Part) : Prop :=
  ∀ tr : Track, ((p.det.get tr).openDropout = none → ∀ x ∈ (p.con.get tr).spans, x.last ≠ none)
    ∧ ((p.det.get tr).openDropout ≠ none → p.trc.state = .playing ∧ 0 < p.hcr.nextIndex)

/-- No condition stop request is left waiting: the event that made it took it (10, R178; log 8). -/
def stopTaken (s : State) : Bool := !s.part.stopPending

/-- The registers with a range of their own stay in it between events. -/
def registersHold (s : State) : Bool := positionFits s && runFits s && stopTaken s

/-- The queues and buffers stay within their rules between events. -/
def queuesHold (s : State) : Bool := portLegal s && capacitiesHold s

/-- A state with one more reply at the back of its reply queue (11, R197). -/
def withReply (s : State) (kind tag : Byte) (code : ReplyCode) (results : List Byte) : State :=
  { s with part := { s.part with msp := { s.part.msp with replies := s.part.msp.replies ++ [⟨kind, tag, code, results⟩] } } }

/-- A record under its policy makes no condition stop request when it is raised (10, R178, R179). -/
def neverStops (r : PolicyRec) : Prop := r.policy ≠ .stop ∧ ¬(r.policy = .muteLane ∧ r.scope = .device)

/-- What the event that ends a take makes of lane l, its tracker, its aligner half, its tracks and the current entry, from the part p
before the event to the part q after it (09, R162): an ACTIVE lane drains, or finishes at once where nothing is left to make; the tracker
is IDLE with S kept and reports the change; the aligner half and the detectors stop; an open dropout is closed as truncated; the
current and governing entries are those of the position again. (Log 12: an end raw index that is absent is absent from LOCK_CHANGED
too.) -/
def Part.tornDown (u : Setup) (l : Lane) (p q : Part) : Prop :=
  (p.take.record ≠ none → ∀ spent : Prop,
      (spent ↔ ∀ e, p.hcr.nextIndex = e + 1 → e < (p.lanes.get l).acc / 16777216 + 32) →
      ((p.lanes.get l).state = .active → spent →
        q.lanes.get l = { p.lanes.get l with state := .idle, timeline := [] }
          ∧ ∀ tr : Track, tr.lane = l → (q.con.get tr).spans = [])
      ∧ ((p.lanes.get l).state = .active → ¬spent → q.lanes.get l = { p.lanes.get l with state := .draining }))
  ∧ ((p.lanes.get l).state ≠ .active → q.lanes.get l = p.lanes.get l)
  ∧ q.rft.get l = { p.rft.get l with lock := .idle, mode := .none }
  ∧ ((p.rft.get l).lock ≠ .idle → (q.cmn.lockLost.get l).present = false
      ∧ ∃ n ∈ q.msp.notices, n.content = .lockChanged l (p.rft.get l).lock .idle
          (if p.hcr.nextIndex = 0 then none else some (p.hcr.nextIndex - 1)) (p.rft.get l).step)
  ∧ ((p.rft.get l).lock = .idle → ∀ n : Notice,
      n.content.kind = (match l with | .a => .lockChangedA | .b => .lockChangedB) → (n ∈ q.msp.notices ↔ n ∈ p.msp.notices))
  ∧ (q.cmn.range.get l).present = false
  ∧ q.aza.get l = { p.aza.get l with running := false, window := none }
  ∧ q.sgt.current = (u.entries.filter fun e => decide (e.start ≤ p.pos.position)).getLast?
  ∧ q.sgt.arrival.get l = q.sgt.current.bind (fun c =>
      (u.entries.filter fun e => decide (e.start ≤ c.start) && (e.parts.get l).isSome).getLast?)
  ∧ ∀ tr : Track, tr.lane = l →
      q.det.get tr = { p.det.get tr with
        running := false, blank := 0, state := .clear, run := 0, pendingStart := none, openDropout := none }
      ∧ ∀ e, p.hcr.nextIndex = e + 1 → p.take.record ≠ none →
          ((p.lanes.get l).state = .active → (p.lanes.get l).acc / 16777216 + 32 ≤ e) →
          ((p.det.get tr).openDropout = none → q.con.get tr = p.con.get tr)
          ∧ ∀ o, (p.det.get tr).openDropout = some o → q.con.get tr = { p.con.get tr with
              spans := (p.con.get tr).spans.map fun x => if x.last = none then
                { x with last := some e, length := min 65535 (e / 64 - o.block + 1), least := o.least, truncated := true } else x }

/-- The rows that are commands of the workstation (11, R203). -/
def isCommand : Instr → Bool
  | .softReset _ | .identify _ | .readStatus _ | .setState _ _ | .lockTables _ _ | .setRates _ _ _ | .loadCoeffRow _ _ _
  | .selectBank _ _ | .setDeck _ _ | .setPosition _ _ | .wind _ _ | .seek _ _ | .rewindToLeader _ | .stop _ | .survey _ _
  | .loadSegment _ _ | .deleteSegment _ _ | .clearSegments _ | .readSegment _ _ | .startTake _ _ _ | .readDropouts _ _
  | .setPolicy _ _ | .clearConditions _ | .setNoticeMask _ _ | .setMonitor _ _ _ | .setOutput _ _ => true
  | .hardReset _ | .downstreamCell _ | .frameSlot _ | .settingsWordSent | .measurementComplete _ | .miss _
  | .tachMeasurementComplete _ | .holdTimerExpiry _ | .rampMove _ | .azimuthWindowComplete _ | .productionStep _
  | .upstreamSlot | .tick _ _ | .qualificationComplete | .surveySpanCounted | .capstanPulse | .slipWindowClose
  | .leaderSensorChange | .cassetteInsertion | .cassetteRemoval | .settleTimerExpiry | .stallTimerExpiry
  | .startingLimit | .leaderSearchLimit | .clipHoldExpiry _ | .takeEnded | .bothPhasesChange => false

/-- No lane's oldest needed sample stands where a frame of the next raw index would be written (01, R12). -/
def ringHasRoom (p : Part) : Prop := ∀ l m, (p.lanes.get l).oldestNeeded = some m → (p.hcr.nextIndex : Int) < m + 65536

/-- The slot brings the good frame f with the expected number to a link that follows, while capture runs with room for it: the
frame is written at the next raw index (01, R3, R9, R12). -/
def bringsFrame (bytes : List Byte) (f : PerTrack Int) (s : State) : Prop :=
  s.part.hcr.link = .following ∧ readRawFrame bytes = some (s.part.hcr.expected, f) ∧ s.part.stopPending = false
    ∧ s.part.hcr.capturing = true ∧ ringHasRoom s.part ∧ buffersCanonical s = true

/-- No condition that a frame can raise on the arrival side makes a stop request: the policies are ones their conditions allow, and
LOCK_LOST's neither stops nor mutes the device (10, R176, R178, R179). -/
def framesNeverStop (u : Setup) : Prop := policiesAllowed u.policies = true ∧ ∀ l, neverStops (u.policies.lockLost.get l)

/-- A lane may take a production step: ACTIVE with its horizon written, or DRAINING with its reach at or below the end raw index;
and with room in its FIFO unless its production settings are OFF (06, R107, R117). -/
def mayStep (p : Part) (l : Lane) : Prop :=
  ((p.lanes.get l).state = .active ∧ (p.lanes.get l).acc / 16777216 + 1056 < p.hcr.nextIndex
    ∨ (p.lanes.get l).state = .draining
      ∧ ∃ r e, p.take.record = some r ∧ r.endIndex = some e ∧ (p.lanes.get l).acc / 16777216 + 32 ≤ e)
  ∧ ((p.lanes.get l).settings.source = .off ∨ (p.lanes.get l).fifo.length < 1024)

/-- A command message as the workstation sends it: a START cell with the kind, the tag, the length and the first three
argument bytes, then CONT cells of six bytes, zeros after the last, each cell with the ACCEPT flag given (11, R192 to R194,
R203). -/
def commandCells (accept : Bool) (kind tag : Byte) (args : List Byte) : List (List Byte) :=
  let cell (code : Byte) (payload : List Byte) : List Byte :=
    let body := (if accept then code + 0x80 else code) :: payload
    body ++ [checkByte body]
  let rec conts (fuel : Nat) (rest : List Byte) : List (List Byte) :=
    match fuel, rest with
    | 0, _ | _, [] => []
    | fuel + 1, rest => cell 2 (padTo 6 (rest.take 6)) :: conts fuel (rest.drop 6)
  cell 1 ([kind, tag, BitVec.ofNat 8 args.length] ++ padTo 3 (args.take 3)) :: conts args.length (args.drop 3)

/-- Take rows one after another, stopping at none: every row answers a next state. -/
def afterRows (s : State) : List Instr → State
  | [] => s
  | i :: rest =>
    match exec i s with
    | .next t => afterRows t rest
    | .fault _ | .refused _ => s

end Sys2Proof.Safety
end

