-- ==== Sys2Proof/Certificates/Slice0/Obligations.lean ====
section
/-! DEFINITION. The statements for the provers: what a step is, what each row of the table does and leaves alone, and the invariants every step keeps. -/

section

open Sys2Proof Sys2Proof.Machine Sys2Proof.Safety

/-! ## The machine -/

/-- A step runs the row at the front of the queue on the queue's rest, every row answers a next state and leaves the queue as it
found it, and an empty queue leaves the block idle (log 2: the idle step is the model's choice). -/
def Obligations.StepRunsFrontRow : Prop :=
  ((∀ (c : Instr) (rest : List Instr) (s : State), step { s with pending := c :: rest } = exec c { s with pending := rest })
      ∧ ∀ s : State, s.pending = [] → step s = .next s)
  ∧ (∀ (i : Instr) (s : State), ∃ t, exec i s = .next t ∧ t.pending = s.pending)

/-! ## Resets -/

/-- HARD_RESET sets what commands configure, the rings, the stamps and the loaded bank to their reset values, and every block to
its own, with the sensor levels it finds. -/
def Obligations.HardReset : Prop :=
  (∀ (v : Levels) (s : State), ∃ t, exec (.hardReset v) s = .next t
      ∧ t.setup.rates.fr = 384000 ∧ t.setup.rates.fo = 96000
      ∧ t.setup.deck = { tickRate := 3046, nc := 1024, slipThreshold := 224, slipCount := 3, approach := 400, stallTime := 500,
                         settleTime := 400, leaderLimit := 240 }
      ∧ t.setup.entries = [] ∧ t.setup.locked = false ∧ t.setup.bankLoaded = false ∧ t.setup.threshold = 256
      ∧ t.setup.mask = [] ∧ t.setup.monitor = ⟨.off, false, 0⟩
      ∧ t.setup.policies.rawHeld = ⟨.auto, .lane⟩ ∧ t.setup.policies.rawLost = ⟨.stop, .lane⟩
      ∧ t.setup.policies.cellError = ⟨.warn, .lane⟩ ∧ t.setup.policies.overrun = ⟨.stop, .lane⟩
      ∧ t.setup.policies.stall = ⟨.stop, .lane⟩ ∧ t.setup.policies.slip = ⟨.stop, .lane⟩
      ∧ t.setup.policies.logFull = ⟨.warn, .lane⟩
      ∧ (∀ l, t.setup.policies.lockLost.get l = ⟨.warn, .lane⟩) ∧ (∀ l, t.setup.policies.range.get l = ⟨.auto, .lane⟩)
      ∧ (∀ l, t.setup.policies.clip.get l = ⟨.warn, .lane⟩)
      ∧ (∀ tr n, t.rings.sample tr n = 0) ∧ (∀ b, t.rings.stamp b = 0)
      ∧ (∀ r, t.bank.row r = List.replicate 32 0) ∧ (∀ r, t.bank.written.read r = 0))
  ∧ (∀ (v : Levels) (s : State), ∃ t, exec (.hardReset v) s = .next t
      ∧ t.part.hcr.link = .waiting ∧ t.part.hcr.expected = 0 ∧ t.part.hcr.lastGood = ⟨0, 0, 0, 0⟩ ∧ t.part.hcr.run = 0
      ∧ t.part.hcr.wordWaiting = none ∧ t.part.hcr.wordLast = none
      ∧ t.part.pos = ⟨0, false, v.phase1, v.phase2, v.cassette⟩
      ∧ t.part.trc.state = .stopped ∧ t.part.trc.op = OpRecord.idle ∧ t.part.trc.leader = v.leader ∧ t.part.trc.slipLow = 0
      ∧ t.part.sgt.current = none ∧ (∀ l, t.part.sgt.arrival.get l = none)
      ∧ (∀ l, (t.part.rft.get l).lock = .idle ∧ (t.part.rft.get l).mode = .none ∧ (t.part.rft.get l).step = 67108864
          ∧ (t.part.rft.get l).meas = none ∧ (t.part.rft.get l).hold = none ∧ (t.part.rft.get l).ramp = none)
      ∧ (∀ l, (t.part.lanes.get l).state = .idle ∧ (t.part.lanes.get l).frameCount = 0
          ∧ (t.part.lanes.get l).applied = 67108864 ∧ (t.part.lanes.get l).az = 0 ∧ (t.part.lanes.get l).governing = none
          ∧ (t.part.lanes.get l).timeline = [] ∧ (t.part.lanes.get l).fifo = [])
      ∧ (∀ l, t.part.aza.get l = ⟨false, .fixed, 0, 128, 3, 0, none⟩)
      ∧ (∀ tr, (t.part.det.get tr).running = false ∧ (t.part.det.get tr).state = .clear ∧ (t.part.det.get tr).level = 0
          ∧ (t.part.det.get tr).ref = 0 ∧ (t.part.det.get tr).blank = 0)
      ∧ (∀ tr, t.part.con.get tr = ⟨64, .zero, []⟩)
      ∧ t.part.log = [] ∧ t.part.take = ⟨.standby, 0, none⟩
      ∧ (∀ id, t.part.cmn.get id = ⟨false, false, 0⟩)
      ∧ t.part.osc.accept = false ∧ t.part.osc.slotsSince = 0 ∧ t.part.osc.lastServed = .b ∧ t.part.osc.underway = none
      ∧ t.part.osc.pattern = 0x55
      ∧ t.part.msp = ⟨none, [], []⟩
      ∧ t.setup = Setup.reset ∧ t.part = Part.reset v)

/-- SOFT_RESET, taken in any device state: every block's record at its soft-reset values, what is kept, and its own reply as the only
one. The coefficients a tracker holds and STARTING's qualification count and last tick are left out: the manual gives them no soft-reset
value, and the model's is its own choice (log 10). -/
def Obligations.SoftReset : Prop :=
  ∀ (tag : Byte) (s : State) (lane : Settings), s.part.ready = true →
    lane = { source := .nominal, fRef := 0, c := 16, w := 20, k := 2, slew := 100000, acquire := 4, missCount := 3, hold := 50,
             gate := 2048, azMode := .fixed, fixedOffset := 0, theta := 128, ka := 3, pairing := .stereo, policy := .mark, depth := 64,
             release := 128, onset := 2, releaseCount := 4, blanking := 32, eq := .us120 } →
    ∃ t, exec (.softReset tag) s = .next t
    ∧ t.setup = (if s.setup.locked then s.setup else { s.setup with entries := [], bankLoaded := false })
    ∧ t.rings = s.rings
    ∧ t.bank = (if s.setup.locked then s.bank else ⟨[], []⟩)
    ∧ t.part.pos = s.part.pos ∧ t.part.take = ⟨.standby, s.part.take.number, none⟩
    ∧ t.part.trc.op = OpRecord.idle ∧ t.part.trc.leader = s.part.trc.leader
    ∧ (s.part.trc.state = .stopped → t.part.trc.state = .stopped)
    ∧ (s.part.trc.state = .settling → t.part.trc.state = .settling ∧ t.part.trc.settleTimer = s.part.trc.settleTimer)
    ∧ (s.part.trc.state.moving = true → t.part.trc.state = .settling ∧ t.part.trc.settleTimer = some s.part.timebase)
    ∧ t.part.trc.stallTimer = none ∧ t.part.trc.slipWindow = none ∧ t.part.trc.slipLow = 0 ∧ t.part.hcr.capturing = false
    ∧ t.part.hcr.run = 0 ∧ t.part.hcr.wordWaiting = none
    ∧ t.part.hcr.link = s.part.hcr.link ∧ t.part.hcr.expected = s.part.hcr.expected
    ∧ t.part.hcr.lastGood = s.part.hcr.lastGood ∧ t.part.hcr.wordLast = s.part.hcr.wordLast
    ∧ t.part.sgt.current = (t.setup.entries.filter fun e => decide (e.start ≤ s.part.pos.position)).getLast?
    ∧ (∀ l, t.part.sgt.arrival.get l = t.part.sgt.current.bind fun c =>
        (t.setup.entries.filter fun e => decide (e.start ≤ c.start) && (e.parts.get l).isSome).getLast?)
    ∧ (∀ l, t.part.rft.get l = { t.part.rft.get l with
        lock := .idle, mode := .none, settings := lane, filter := ⟨0, 0, 0, 0⟩, armed := false, last := 0, meas := none, origin := 0,
        acquire := 0, missCount := 0, step := s.setup.rates.nominal, hold := none, ramp := none, tachOpen := none, tachLast := none,
        survey := ⟨0, 0, 0, none, none⟩ })
    ∧ (∀ l, t.part.lanes.get l =
        { state := .idle, acc := 0, frameCount := 0, mark := false, applied := s.setup.rates.nominal, az := 0, settings := lane,
          governing := none, timeline := [], fifo := [] })
    ∧ (∀ l, t.part.aza.get l = ⟨false, .fixed, 0, 128, 3, 0, none⟩)
    ∧ (∀ tr, t.part.det.get tr = ⟨false, ⟨.mark, 64, 128, 2, 4, 32⟩, 0, 0, 0, .clear, 0, none, none⟩
        ∧ t.part.con.get tr = ⟨64, .zero, []⟩)
    ∧ t.part.log = [] ∧ (∀ id, t.part.cmn.get id = ⟨false, false, 0⟩)
    ∧ t.part.osc.accept = s.part.osc.accept ∧ t.part.osc.slotsSince = 0 ∧ t.part.osc.lastServed = .b ∧ t.part.osc.underway = none
    ∧ t.part.osc.pattern = 0x55
    ∧ t.part.msp = ⟨none, [⟨0x04, tag, .ok, []⟩], []⟩ ∧ t.part.ready = true

/-! ## Identification and configuration -/

/-- IDENTIFY answers OK with the family, the part, the revision and the capacities, and changes nothing. -/
def Obligations.Identify : Prop :=
  ∀ (tag : Byte) (s : State), s.part.ready = true →
    exec (.identify tag) s
      = .next (withReply s 0x01 tag .ok [0xD1, 0x01, 0xB8, 0x01, 0x04, 0x40, 0x01, 0x00, 0x01, 0x00, 0x04, 0x00])

/-- READ_STATUS answers OK with the 49-byte status record, and changes nothing. -/
def Obligations.ReadStatus : Prop :=
  ∀ (tag : Byte) (s : State), s.part.ready = true → ∃ record detectors,
    exec (.readStatus tag) s = .next (withReply s 0x02 tag .ok record)
      ∧ record.length = 49
      ∧ record.take 8
          = [s.part.take.device.code, s.part.trc.state.code] ++ bytesOf 3 s.part.pos.position
            ++ bytesOf 1 ((if s.part.pos.referenced then 1 else 0) + (if s.part.pos.cassette then 2 else 0))
            ++ bytesOf 2 s.part.take.number
      ∧ (∀ l start, start = (if (s.part.lanes.get l).state = .idle then (s.part.sgt.arrival.get l).map Entry.start
            else (s.part.lanes.get l).governing) →
          ((record.drop (match l with | .a => 8 | .b => 24)).take 16)
          = [(s.part.rft.get l).lock.code, (s.part.lanes.get l).state.code, flagByte start.isSome]
            ++ bytesOf 4 (s.part.rft.get l).step ++ bytesOf 4 (s.part.lanes.get l).applied
            ++ signedBytes 2 (s.part.lanes.get l).az ++ bytesOf 3 (start.getD 0))
      ∧ record[40]? = some detectors
      ∧ (∀ tr : Track, detectors.toNat / 4 ^ (trackCode tr).toNat % 4 = match (s.part.det.get tr).state with
          | .clear => 0 | .onset => 1 | .dropped => 2 | .releasing => 3)
      ∧ record.drop 41
          = bytesOf 2 s.part.log.length ++ bytesOf 2 s.part.lanes.a.fifo.length ++ bytesOf 2 s.part.lanes.b.fifo.length
            ++ bytesOf 2 (flagSet s.part.cmn).toNat

/-- SET_STATE moves the part between STANDBY and CONFIGURE, and changes no other state. -/
def Obligations.SetState : Prop :=
  ∀ (tag target : Byte) (s : State), s.part.ready = true →
    (s.part.take.device = .run → exec (.setState tag target) s = .next (withReply s 0x03 tag .wrongState []))
    ∧ (s.part.take.device ≠ .run → 2 ≤ target.toNat →
        exec (.setState tag target) s = .next (withReply s 0x03 tag .badValue []))
    ∧ (s.part.take.device = .standby → target = 0 → exec (.setState tag target) s = .next (withReply s 0x03 tag .ok []))
    ∧ (s.part.take.device = .configure → target = 1 → exec (.setState tag target) s = .next (withReply s 0x03 tag .ok []))
    ∧ (s.part.take.device = .standby → target = 1 →
        exec (.setState tag target) s
          = .next (if s.part.trc.state = .stopped then
                     withReply { s with part := { s.part with take := { s.part.take with device := .configure } } } 0x03 tag .ok []
                   else withReply s 0x03 tag .busy []))
    ∧ (s.part.take.device = .configure → target = 0 →
        exec (.setState tag target) s
          = .next (if s.part.trc.state = .stopped ∧ s.part.trc.op.kind = .none ∧ s.part.lanes.a.state = .idle
                       ∧ s.part.lanes.b.state = .idle ∧ s.part.lanes.a.fifo = [] ∧ s.part.lanes.b.fifo = [] then
                     withReply { s with part := { s.part with take := { s.part.take with device := .standby } } } 0x03 tag .ok []
                   else withReply s 0x03 tag .busy []))

/-- LOCK_TABLES sets the table lock, and the lock decides what a soft reset keeps. CLEAR_SEGMENTS empties the table, under the lock
too, and both lanes fall to their lane defaults. -/
def Obligations.TableEdits : Prop :=
  ((∀ (tag flag : Byte) (s : State), s.part.ready = true →
      (s.part.take.device ≠ .configure → exec (.lockTables tag flag) s = .next (withReply s 0x05 tag .wrongState []))
      ∧ (s.part.take.device = .configure → flag = 0 →
          exec (.lockTables tag flag) s = .next (withReply { s with setup := { s.setup with locked := false } } 0x05 tag .ok []))
      ∧ (s.part.take.device = .configure → flag = 1 →
          exec (.lockTables tag flag) s = .next (withReply { s with setup := { s.setup with locked := true } } 0x05 tag .ok []))
      ∧ (s.part.take.device = .configure → 2 ≤ flag.toNat →
          exec (.lockTables tag flag) s = .next (withReply s 0x05 tag .badValue [])))
    ∧ (∀ (tag : Byte) (s : State), s.part.ready = true → ∃ t, exec (.softReset tag) s = .next t
        ∧ t.setup.locked = s.setup.locked
        ∧ (s.setup.locked = true → t.setup.entries = s.setup.entries ∧ t.bank = s.bank)
        ∧ (s.setup.locked = false → t.setup.entries = [] ∧ t.bank = ⟨[], []⟩))
    ∧ ∀ (v : Levels) (s : State), ∃ t, exec (.hardReset v) s = .next t ∧ t.setup.entries = [] ∧ t.setup.locked = false)
  ∧ (∀ (tag : Byte) (s : State), s.part.ready = true →
      (s.part.take.device ≠ .configure → exec (.clearSegments tag) s = .next (withReply s 0x12 tag .wrongState []))
      ∧ (s.part.take.device = .configure →
          exec (.clearSegments tag) s
            = .next (withReply { s with setup := { s.setup with entries := [] },
                                        part := { s.part with sgt := ⟨none, ⟨none, none⟩⟩ } } 0x12 tag .ok [])))

/-- SET_RATES: a pair that is none of the four, a play or a drain, a conflicting part, and otherwise the new pair with
what it brings. (That the current entry is found again over the raised entries, as R51 finds it at a table edit, is the model's
reading, log 24.) -/
def Obligations.SetRates : Prop :=
  ∀ (tag : Byte) (fr fo : BitVec 24) (s : State), s.part.ready = true → s.part.take.device = .configure →
    ((∀ r : RatePair, ¬(r.fr = fr.toNat ∧ r.fo = fo.toNat)) →
      exec (.setRates tag fr fo) s = .next (withReply s 0x06 tag .badValue []))
    ∧ ∀ r : RatePair, r.fr = fr.toNat → r.fo = fo.toNat →
      ((s.part.trc.op.kind = .take ∨ s.part.trc.op.kind = .survey ∨ s.part.lanes.a.state ≠ .idle ∨ s.part.lanes.b.state ≠ .idle
          ∨ s.part.lanes.a.fifo ≠ [] ∨ s.part.lanes.b.fifo ≠ []) →
        exec (.setRates tag fr fo) s = .next (withReply s 0x06 tag .busy []))
      ∧ (s.part.trc.op.kind ≠ .take → s.part.trc.op.kind ≠ .survey → s.part.lanes.a.state = .idle → s.part.lanes.b.state = .idle →
          s.part.lanes.a.fifo = [] → s.part.lanes.b.fifo = [] →
        ((∃ e ∈ s.setup.entries, ∃ l x, e.parts.get l = some x ∧ x.source.isAudio = true ∧ r.fr * 72 ≤ x.fRef * 10) →
          exec (.setRates tag fr fo) s = .next (withReply s 0x06 tag .conflict []))
        ∧ ((∀ e ∈ s.setup.entries, ∀ l x, e.parts.get l = some x → x.source.isAudio = true → x.fRef * 10 < r.fr * 72) →
          ∃ t, exec (.setRates tag fr fo) s = .next t
            ∧ t.setup = { s.setup with rates := r, entries := s.setup.entries.map (Entry.raiseC r.fr) }
            ∧ t.rings = s.rings ∧ t.bank = s.bank ∧ t.part.pos = s.part.pos ∧ t.part.trc = s.part.trc ∧ t.part.take = s.part.take
            ∧ t.part.log = s.part.log ∧ t.part.osc = s.part.osc
            ∧ t.part.sgt.current = currentAt t.setup.entries s.part.pos.position
            ∧ (r.fr ≠ s.setup.rates.fr → t.part.hcr = { s.part.hcr with link := .waiting, run := 0 }
                ∧ t.part.cmn.rawHeld.present = false)
            ∧ (r.fr = s.setup.rates.fr → t.part.hcr = s.part.hcr ∧ t.part.cmn = s.part.cmn)
            ∧ (∀ l, (r.ratio ≠ s.setup.rates.ratio → t.part.rft.get l = { s.part.rft.get l with step := r.nominal }
                  ∧ t.part.lanes.get l = { s.part.lanes.get l with applied := r.nominal })
                ∧ (r.ratio = s.setup.rates.ratio → t.part.rft.get l = s.part.rft.get l
                  ∧ t.part.lanes.get l = s.part.lanes.get l))
            ∧ t.part.msp.notices = s.part.msp.notices
            ∧ t.part.msp.replies = s.part.msp.replies
                ++ [⟨0x06, tag, if s.setup.entries.map (Entry.raiseC r.fr) = s.setup.entries then .ok else .adjusted, []⟩]))

/-- LOAD_COEFF_ROW replaces one row of the loaded bank whole and marks it written. -/
def Obligations.LoadCoeffRow : Prop :=
  ∀ (tag row : Byte) (coeffs : List (BitVec 24)) (s : State), s.part.ready = true → coeffs.length = 32 →
    (s.part.take.device ≠ .configure → exec (.loadCoeffRow tag row coeffs) s = .next (withReply s 0x07 tag .wrongState []))
    ∧ (s.part.take.device = .configure → (s.part.lanes.a.state ≠ .idle ∨ s.part.lanes.b.state ≠ .idle) →
        exec (.loadCoeffRow tag row coeffs) s = .next (withReply s 0x07 tag .busy []))
    ∧ (s.part.take.device = .configure → s.part.lanes.a.state = .idle → s.part.lanes.b.state = .idle →
        s.bank.coeffs.wf = true → s.bank.written.wf = true → ∃ bank : LoadedBank,
          exec (.loadCoeffRow tag row coeffs) s
              = .next (withReply { s with bank := bank } 0x07 tag
                  (if ∀ c ∈ coeffs, -524288 ≤ c.toInt ∧ c.toInt ≤ 524287 then .ok else .adjusted) [])
            ∧ bank.row row.toNat = (coeffs.map fun c => clampInt (-524288) 524287 c.toInt)
            ∧ (∀ r, r ≠ row.toNat → bank.row r = s.bank.row r)
            ∧ bank.written.read row.toNat = 1
            ∧ ∀ r, r ≠ row.toNat → bank.written.read r = s.bank.written.read r)

/-- SELECT_BANK selects the built-in or the loaded bank, the loaded one only once every row is written; SET_MONITOR selects a source,
and freezes its live value or lets the monitor run. -/
def Obligations.Selections : Prop :=
  (∀ (tag bank : Byte) (s : State), s.part.ready = true → s.part.take.device = .configure →
      (2 ≤ bank.toNat → exec (.selectBank tag bank) s = .next (withReply s 0x08 tag .badValue []))
      ∧ (bank.toNat ≤ 1 → (s.part.lanes.a.state ≠ .idle ∨ s.part.lanes.b.state ≠ .idle) →
          exec (.selectBank tag bank) s = .next (withReply s 0x08 tag .busy []))
      ∧ (s.part.lanes.a.state = .idle → s.part.lanes.b.state = .idle →
          (bank = 0 → exec (.selectBank tag bank) s
              = .next (withReply { s with setup := { s.setup with bankLoaded := false } } 0x08 tag .ok []))
          ∧ (bank = 1 → (∃ r < 256, s.bank.written.read r = 0) →
              exec (.selectBank tag bank) s = .next (withReply s 0x08 tag .conflict []))
          ∧ (bank = 1 → (∀ r < 256, s.bank.written.read r ≠ 0) →
              exec (.selectBank tag bank) s
                = .next (withReply { s with setup := { s.setup with bankLoaded := true } } 0x08 tag .ok []))))
  ∧ (∀ (tag source freeze : Byte) (s : State), s.part.ready = true →
      (s.part.take.device = .standby → exec (.setMonitor tag source freeze) s = .next (withReply s 0x19 tag .wrongState []))
      ∧ (s.part.take.device ≠ .standby → (13 ≤ source.toNat ∨ 2 ≤ freeze.toNat) →
          exec (.setMonitor tag source freeze) s = .next (withReply s 0x19 tag .badValue []))
      ∧ ∀ src : MonitorSource, s.part.take.device ≠ .standby → MonitorSource.ofCode source = some src →
          (freeze = 0 → exec (.setMonitor tag source freeze) s
              = .next (withReply { s with setup := { s.setup with monitor := ⟨src, false, s.setup.monitor.value⟩ } } 0x19 tag .ok []))
          ∧ (freeze = 1 → exec (.setMonitor tag source freeze) s
              = .next (withReply { s with setup := { s.setup with monitor := ⟨src, true, s.part.monitorLive s.setup src⟩ } } 0x19
                  tag .ok [])))

/-- SET_DECK replaces the eight deck parameters, each brought into its range. -/
def Obligations.SetDeck : Prop :=
  (∀ (tag : Byte) (a : DeckArgs) (s : State), s.part.ready = true →
    (s.part.take.device ≠ .configure → exec (.setDeck tag a) s = .next (withReply s 0x09 tag .wrongState []))
    ∧ (s.part.take.device = .configure → ¬(s.part.trc.state = .stopped ∧ s.part.trc.op.kind = .none) →
        exec (.setDeck tag a) s = .next (withReply s 0x09 tag .busy []))
    ∧ (s.part.take.device = .configure → s.part.trc.state = .stopped → s.part.trc.op.kind = .none → ∀ d : Deck,
        d = { tickRate := clampNat 160 16000 a.tickRate.toNat, nc := clampNat 16 65535 a.nc.toNat,
              slipThreshold := clampNat 128 255 a.slipThreshold.toNat, slipCount := clampNat 1 15 a.slipCount.toNat,
              approach := clampNat 16 4096 a.approach.toNat, stallTime := clampNat 100 2000 a.stallTime.toNat,
              settleTime := clampNat 100 1000 a.settleTime.toNat, leaderLimit := clampNat 10 600 a.leaderLimit.toNat } →
        exec (.setDeck tag a) s
          = .next (withReply { s with setup := { s.setup with deck := d } } 0x09 tag
              (if d.tickRate = a.tickRate.toNat ∧ d.nc = a.nc.toNat ∧ d.slipThreshold = a.slipThreshold.toNat
                  ∧ d.slipCount = a.slipCount.toNat ∧ d.approach = a.approach.toNat ∧ d.stallTime = a.stallTime.toNat
                  ∧ d.settleTime = a.settleTime.toNat ∧ d.leaderLimit = a.leaderLimit.toNat then .ok else .adjusted) [])))
  ∧ (∀ (v : Levels) (s : State), ∃ t, exec (.hardReset v) s = .next t
      ∧ t.setup.deck = { tickRate := 3046, nc := 1024, slipThreshold := 224, slipCount := 3, approach := 400, stallTime := 500,
                         settleTime := 400, leaderLimit := 240 })
  ∧ ∀ (tag : Byte) (s : State), s.part.ready = true → ∃ t, exec (.softReset tag) s = .next t ∧ t.setup.deck = s.setup.deck

/-- SET_OUTPUT sets the message threshold: 64..960, a multiple of 64. -/
def Obligations.SetOutput : Prop :=
  ∀ (tag : Byte) (v : BitVec 16) (s : State), s.part.ready = true →
    (s.part.take.device ≠ .configure → exec (.setOutput tag v) s = .next (withReply s 0x1A tag .wrongState []))
    ∧ (s.part.take.device = .configure →
        (v.toNat < 64 → exec (.setOutput tag v) s
            = .next (withReply { s with setup := { s.setup with threshold := 64 } } 0x1A tag .adjusted []))
        ∧ (960 < v.toNat → exec (.setOutput tag v) s
            = .next (withReply { s with setup := { s.setup with threshold := 960 } } 0x1A tag .adjusted []))
        ∧ (64 ≤ v.toNat → v.toNat ≤ 960 → v.toNat % 64 = 0 → exec (.setOutput tag v) s
            = .next (withReply { s with setup := { s.setup with threshold := v.toNat } } 0x1A tag .ok []))
        ∧ (64 ≤ v.toNat → v.toNat ≤ 960 → v.toNat % 64 ≠ 0 → exec (.setOutput tag v) s
            = .next (withReply { s with setup := { s.setup with threshold := v.toNat - v.toNat % 64 } } 0x1A tag .adjusted [])))

/-! ## The deck -/

/-- SET_POSITION sets the position and references it; it changes nothing when refused. -/
def Obligations.SetPosition : Prop :=
  ∀ (tag : Byte) (x : BitVec 24) (s : State), s.part.ready = true →
    (s.part.take.device ≠ .configure → exec (.setPosition tag x) s = .next (withReply s 0x0A tag .wrongState []))
    ∧ (s.part.take.device = .configure → s.part.trc.state ≠ .stopped →
        exec (.setPosition tag x) s = .next (withReply s 0x0A tag .busy []))
    ∧ (s.part.take.device = .configure → s.part.trc.state = .stopped → s.part.pos.cassette = false →
        exec (.setPosition tag x) s = .next (withReply s 0x0A tag .conflict []))
    ∧ (s.part.take.device = .configure → s.part.trc.state = .stopped → s.part.pos.cassette = true → ∀ current,
        current = currentAt s.setup.entries x.toNat →
        exec (.setPosition tag x) s
          = .next (withReply { s with part := { s.part with
              pos := { s.part.pos with position := x.toNat, referenced := true },
              sgt := ⟨current, ⟨governingAt s.setup.entries current .a, governingAt s.setup.entries current .b⟩⟩ } } 0x0A tag .ok []))

/-- WIND and REWIND_TO_LEADER that pass R21's checks begin at once, and a SEEK plans from the current position: wind forward, wind
back, approach, or done at once. The checks fail in their order. -/
def Obligations.MotionBegins : Prop :=
  (∀ (tag direction : Byte) (s : State), s.part.ready = true → s.part.take.device = .configure →
      (2 ≤ direction.toNat → exec (.wind tag direction) s = .next (withReply s 0x0B tag .badValue []))
      ∧ (direction.toNat ≤ 1 →
          (¬(s.part.trc.state = .stopped ∧ s.part.trc.op.kind = .none) →
            exec (.wind tag direction) s = .next (withReply s 0x0B tag .busy [])
              ∧ exec (.rewindToLeader tag) s = .next (withReply s 0x0D tag .busy []))
          ∧ (s.part.trc.state = .stopped → s.part.trc.op.kind = .none → s.part.pos.cassette = false →
            exec (.wind tag direction) s = .next (withReply s 0x0B tag .conflict [])
              ∧ exec (.rewindToLeader tag) s = .next (withReply s 0x0D tag .conflict []))
          ∧ (s.part.trc.state = .stopped → s.part.trc.op.kind = .none → s.part.pos.cassette = true →
            ∀ moved : TransportState → OpRecord → State,
              (moved = fun st op => { s with part := { s.part with trc := { s.part.trc with
                  state := st, op := op, settleTimer := none, stallTimer := some s.part.timebase, startTimer := none,
                  slipWindow := none, slipLow := 0 } } }) →
              (direction = 0 → exec (.wind tag direction) s
                = .next (withReply (moved .windingFwd { OpRecord.idle with
                    kind := .wind, direction := some .forward, startTime := some s.part.timebase, windCount := some 0 }) 0x0B tag .accepted []))
              ∧ (direction = 1 → exec (.wind tag direction) s
                = .next (withReply (moved .windingRev { OpRecord.idle with
                    kind := .wind, direction := some .reverse, startTime := some s.part.timebase, windCount := some 0 }) 0x0B tag .accepted []))
              ∧ exec (.rewindToLeader tag) s
                = .next (withReply (moved .windingRev { OpRecord.idle with
                    kind := .rewindToLeader, phase := some .reverse, startTime := some s.part.timebase, windCount := some 0 })
                  0x0D tag .accepted []))))
  ∧ (∀ (tag : Byte) (target : BitVec 24) (s : State), s.part.ready = true → s.part.take.device = .configure →
      (¬(s.part.trc.state = .stopped ∧ s.part.trc.op.kind = .none) →
        exec (.seek tag target) s = .next (withReply s 0x0C tag .busy []))
      ∧ (s.part.trc.state = .stopped → s.part.trc.op.kind = .none → s.part.pos.cassette = false →
        exec (.seek tag target) s = .next (withReply s 0x0C tag .conflict []))
      ∧ (s.part.trc.state = .stopped → s.part.trc.op.kind = .none → s.part.pos.cassette = true → ∃ t,
          exec (.seek tag target) s = .next t
          ∧ t.setup = s.setup ∧ t.rings = s.rings ∧ t.bank = s.bank ∧ t.part.pos = s.part.pos ∧ t.part.hcr = s.part.hcr
          ∧ t.part.rft = s.part.rft ∧ t.part.lanes = s.part.lanes ∧ t.part.cmn = s.part.cmn ∧ t.part.take = s.part.take
          ∧ t.part.msp.replies = s.part.msp.replies ++ [⟨0x0C, tag, .accepted, []⟩]
          ∧ (s.part.pos.position < target.toNat - s.setup.deck.approach →
              t.part.trc.state = .windingFwd ∧ t.part.msp.notices = s.part.msp.notices
                ∧ t.part.trc.op = { OpRecord.idle with
                    kind := .seek, target := some target.toNat, windPoint := some (target.toNat - s.setup.deck.approach),
                    startTime := some s.part.timebase, phase := some .wind, windCount := some 1 })
          ∧ (target.toNat < s.part.pos.position →
              t.part.trc.state = .windingRev ∧ t.part.msp.notices = s.part.msp.notices
                ∧ t.part.trc.op = { OpRecord.idle with
                    kind := .seek, target := some target.toNat, windPoint := some (target.toNat - s.setup.deck.approach),
                    startTime := some s.part.timebase, phase := some .wind, windCount := some 1 })
          ∧ (target.toNat - s.setup.deck.approach ≤ s.part.pos.position → s.part.pos.position < target.toNat →
              t.part.trc.state = .approaching ∧ t.part.msp.notices = s.part.msp.notices
                ∧ t.part.trc.op = { OpRecord.idle with
                    kind := .seek, target := some target.toNat, windPoint := some (target.toNat - s.setup.deck.approach),
                    startTime := some s.part.timebase, phase := some .approach, windCount := some 0 })
          ∧ (s.part.pos.position = target.toNat →
              t.part.trc.state = .stopped ∧ t.part.trc.op = OpRecord.idle
                ∧ t.part.msp.notices = postNotice (.transportDone .seek .done s.part.pos.position) s.part.msp.notices)))

/-- STOP ends a running operation, and changes nothing where none runs or its end is already set. A take's end tears down what works
inside it (`Part.tornDown`): an ACTIVE lane drains, or finishes at once where nothing is left to make; each tracker is IDLE with S kept and
reports the change; both aligner halves and the detectors stop, an open dropout truncated; the current and governing entries are those
of the position again. (Log 30: an ended operation holds no phase. Log 12: an end raw index that is absent is absent from LOCK_CHANGED
too.) -/
def Obligations.Stop : Prop :=
  ∀ (tag : Byte) (s : State), s.part.ready = true → s.part.stopPending = false →
    (s.part.take.device = .standby → exec (.stop tag) s = .next (withReply s 0x0E tag .wrongState []))
    ∧ (s.part.take.device ≠ .standby → (s.part.trc.op.kind = .none ∨ s.part.trc.op.ending ≠ none) →
        exec (.stop tag) s = .next (withReply s 0x0E tag .ok []))
    ∧ (s.part.take.device ≠ .standby → s.part.trc.op.kind ≠ .none → s.part.trc.op.ending = none → ∃ t,
        exec (.stop tag) s = .next t
        ∧ t.setup = s.setup ∧ t.rings = s.rings ∧ t.bank = s.bank ∧ t.part.pos = s.part.pos ∧ t.part.osc = s.part.osc
        ∧ t.part.trc.state = .settling
        ∧ (s.part.trc.state ≠ .settling → t.part.trc.settleTimer = some s.part.timebase)
        ∧ (s.part.trc.state = .settling → t.part.trc.settleTimer = s.part.trc.settleTimer)
        ∧ t.part.trc.op = { s.part.trc.op with
            phase := none, ending := some (if s.part.trc.op.kind = .take then .cause .stopCommand else .term .aborted) }
        ∧ t.part.msp.replies = s.part.msp.replies ++ [⟨0x0E, tag, .ok, []⟩]
        ∧ (s.part.trc.op.kind = .survey → t.part.hcr.capturing = false)
        ∧ (s.part.trc.op.kind = .take → t.part.hcr.capturing = false ∧ t.part.take.device = .configure
            ∧ t.part.take.number = s.part.take.number
            ∧ t.part.take.record = s.part.take.record.map fun r =>
                ⟨r.endPosition, some .stopCommand,
                 if s.part.hcr.nextIndex = 0 then none else some (s.part.hcr.nextIndex - 1), r.finalPosition⟩)
        ∧ (s.part.trc.op.kind = .take → ∀ l : Lane, Part.tornDown s.setup l s.part t.part))

/-- SURVEY: its checks in their order, and the operation an accepted one begins. The settings fields the arguments do not give are
the lane's effective settings: R81 says so of the gate alone, the rest is the model's reading (log 22). What SURVEY does to
the counters and timers R81 does not list is log 31 and is left out here. -/
def Obligations.Survey : Prop :=
  ∀ (tag : Byte) (a : SurveyArgs) (s : State), s.part.ready = true → s.part.take.device = .configure →
    ((2 ≤ a.lane.toNat ∨ 4 ≤ a.source.toNat) → exec (.survey tag a) s = .next (withReply s 0x0F tag .badValue []))
    ∧ ∀ (l : Lane) (src : Source), laneOfCode a.lane = some l → Source.ofCode a.source = some src → src.isMeasured = true →
      ((src.isAudio = true ∧ s.setup.rates.fr * 72 ≤ clampFRef src a.fRef.toNat * 10) →
        exec (.survey tag a) s = .next (withReply s 0x0F tag .conflict []))
      ∧ ∀ f c w span : Nat,
        (f = if src.isAudio then clampFRef src a.fRef.toNat else 0) →
        (c = if src.isAudio then clampNat (ceilDiv f s.setup.rates.fr) (f / 4) (clampNat 1 4096 a.c.toNat) else 16) →
        w = clampNat 5 80 a.w.toNat → span = max 1 a.span.toNat →
        (src.isAudio = true → f * 10 < s.setup.rates.fr * 72) →
        ((¬(s.part.trc.state = .stopped ∧ s.part.trc.op.kind = .none ∧ s.part.lanes.a.state = .idle ∧ s.part.lanes.b.state = .idle
            ∧ s.part.lanes.a.fifo = [] ∧ s.part.lanes.b.fifo = []) →
          exec (.survey tag a) s = .next (withReply s 0x0F tag .busy []))
        ∧ (s.part.trc.state = .stopped → s.part.trc.op.kind = .none → s.part.lanes.a.state = .idle → s.part.lanes.b.state = .idle →
            s.part.lanes.a.fifo = [] → s.part.lanes.b.fifo = [] →
          (s.part.pos.cassette = false → exec (.survey tag a) s = .next (withReply s 0x0F tag .conflict []))
          ∧ (s.part.pos.cassette = true → faultActive s.setup s.part = true →
              exec (.survey tag a) s = .next (withReply s 0x0F tag .faultActive []))
          ∧ (s.part.pos.cassette = true → faultActive s.setup s.part = false → ∃ t,
              exec (.survey tag a) s = .next t
              ∧ t.setup = s.setup ∧ t.rings = s.rings ∧ t.bank = s.bank ∧ t.part.pos = s.part.pos ∧ t.part.take = s.part.take
              ∧ t.part.lanes = s.part.lanes ∧ t.part.aza = s.part.aza ∧ t.part.det = s.part.det ∧ t.part.cmn = s.part.cmn
              ∧ t.part.msp.notices = s.part.msp.notices
              ∧ t.part.trc.state = .starting
              ∧ t.part.trc.op = { OpRecord.idle with kind := .survey, span := some span, startTime := some s.part.timebase }
              ∧ t.part.hcr = { s.part.hcr.wordDue s.part.eqPair with nextIndex := 0 }
              ∧ (t.part.rft.get l).mode = .survey ∧ (t.part.rft.get l).lock = (s.part.rft.get l).lock
              ∧ (t.part.rft.get l).settings = { s.part.effective l with source := src, fRef := f, c := c, w := w }
              ∧ (t.part.rft.get l).survey = SurveyAcc.empty ∧ (t.part.rft.get l).meas = none
              ∧ (t.part.rft.get l).coeffs = filterFor s.setup.rates (t.part.rft.get l).settings
              ∧ (t.part.rft.get l).filter = ⟨0, 0, 0, 0⟩ ∧ (t.part.rft.get l).armed = false ∧ (t.part.rft.get l).last = 0
              ∧ (t.part.rft.get l).tachOpen = none ∧ (t.part.rft.get l).tachLast = none
              ∧ (t.part.rft.get l).origin = 0 ∧ (t.part.rft.get l).step = (s.part.rft.get l).step
              ∧ t.part.rft.get l.other = s.part.rft.get l.other
              ∧ t.part.msp.replies = s.part.msp.replies
                  ++ [⟨0x0F, tag,
                       if (src.isAudio = true → f = a.fRef.toNat ∧ c = a.c.toNat) ∧ w = a.w.toNat ∧ span = a.span.toNat
                       then .accepted else .adjusted, []⟩])))

/-! ## The segment table -/

/-- LOAD_SEGMENT: a flag or enumeration outside its list, an f_ref the raw rate cannot carry, the live edit, a start already
held, a full table, and otherwise the table with the clamped entry in its place, ascending. -/
def Obligations.LoadSegment : Prop :=
  ∀ (tag : Byte) (a : SegmentArgs) (s : State), s.part.ready = true → s.part.take.device ≠ .standby →
    ((2 ≤ a.replace.toNat ∨ 2 ≤ a.presentA.toNat ∨ 2 ≤ a.presentB.toNat ∨ (a.presentA = 1 ∧ rawPart a.partA = none)
        ∨ (a.presentB = 1 ∧ rawPart a.partB = none)) →
      exec (.loadSegment tag a) s = .next (withReply s 0x10 tag .badValue []))
    ∧ ∀ rawA rawB : Option Settings, a.replace.toNat ≤ 1 →
      ((a.presentA = 0 ∧ rawA = none) ∨ (a.presentA = 1 ∧ rawA.isSome ∧ rawPart a.partA = rawA)) →
      ((a.presentB = 0 ∧ rawB = none) ∨ (a.presentB = 1 ∧ rawB.isSome ∧ rawPart a.partB = rawB)) →
      (((∃ x, (rawA = some x ∨ rawB = some x) ∧ x.source.isAudio = true
            ∧ s.setup.rates.fr * 72 ≤ clampFRef x.source x.fRef * 10) →
        exec (.loadSegment tag a) s = .next (withReply s 0x10 tag .conflict []))
      ∧ ((∀ x, (rawA = some x ∨ rawB = some x) → x.source.isAudio = true →
            clampFRef x.source x.fRef * 10 < s.setup.rates.fr * 72) →
        ∀ e : Entry, e = ⟨a.start.toNat, a.label.toNat,
            ⟨rawA.map fun x => x.storeUnmeasured.clampRanges s.setup.rates.fr,
             rawB.map fun x => x.storeUnmeasured.clampRanges s.setup.rates.fr⟩⟩ →
        (s.part.take.device = .run → liveEditPasses s.part e.start = false →
          exec (.loadSegment tag a) s = .next (withReply s 0x10 tag .tooLate []))
        ∧ ((s.part.take.device = .run → liveEditPasses s.part e.start = true) →
          (((∃ x ∈ s.setup.entries, x.start = e.start) → a.replace = 0 →
            exec (.loadSegment tag a) s = .next (withReply s 0x10 tag .duplicate []))
          ∧ ((∀ x ∈ s.setup.entries, x.start ≠ e.start) → 64 ≤ s.setup.entries.length →
            exec (.loadSegment tag a) s = .next (withReply s 0x10 tag .full []))
          ∧ (((∃ x ∈ s.setup.entries, x.start = e.start) ∧ a.replace = 1
                ∨ (∀ x ∈ s.setup.entries, x.start ≠ e.start) ∧ s.setup.entries.length < 64) →
              ascending s.setup.entries = true → ∃ t,
              exec (.loadSegment tag a) s = .next t
              ∧ t.setup = { s.setup with entries := t.setup.entries }
              ∧ ascending t.setup.entries = true
              ∧ (∀ x, x ∈ t.setup.entries ↔ x = e ∨ x ∈ s.setup.entries ∧ x.start ≠ e.start)
              ∧ t.rings = s.rings ∧ t.bank = s.bank
              ∧ t.part = { s.part with
                  sgt := if s.part.take.device = .run then s.part.sgt else
                    ⟨currentAt t.setup.entries s.part.pos.position,
                     ⟨governingAt t.setup.entries (currentAt t.setup.entries s.part.pos.position) .a,
                      governingAt t.setup.entries (currentAt t.setup.entries s.part.pos.position) .b⟩⟩,
                  msp := { s.part.msp with replies := s.part.msp.replies
                    ++ [⟨0x10, tag,
                         if e.parts.a = rawA.map Settings.storeUnmeasured ∧ e.parts.b = rawB.map Settings.storeUnmeasured
                         then .ok else .adjusted, []⟩] } }))))
      )

/-- DELETE_SEGMENT removes the entry at a start position. -/
def Obligations.DeleteSegment : Prop :=
  ∀ (tag : Byte) (x : BitVec 24) (s : State), s.part.ready = true →
    (s.part.take.device = .standby → exec (.deleteSegment tag x) s = .next (withReply s 0x11 tag .wrongState []))
    ∧ (s.part.take.device ≠ .standby → (∀ e ∈ s.setup.entries, e.start ≠ x.toNat) →
        exec (.deleteSegment tag x) s = .next (withReply s 0x11 tag .notFound []))
    ∧ ((∃ e ∈ s.setup.entries, e.start = x.toNat) →
        (s.part.take.device = .run → liveEditPasses s.part x.toNat = false →
          exec (.deleteSegment tag x) s = .next (withReply s 0x11 tag .tooLate []))
        ∧ ∀ rest current, (rest = s.setup.entries.filter fun e => e.start != x.toNat) →
            current = currentAt rest s.part.pos.position →
          (s.part.take.device = .run → liveEditPasses s.part x.toNat = true →
            exec (.deleteSegment tag x) s
              = .next (withReply { s with setup := { s.setup with entries := rest } } 0x11 tag .ok []))
          ∧ (s.part.take.device = .configure →
            exec (.deleteSegment tag x) s
              = .next (withReply { s with
                  setup := { s.setup with entries := rest },
                  part := { s.part with sgt := ⟨current, ⟨governingAt rest current .a, governingAt rest current .b⟩⟩ } }
                0x11 tag .ok [])))

/-- READ_SEGMENT answers with the entry at an index, and changes nothing; and the entry's 67 bytes, a lane part's 30 among them. -/
def Obligations.ReadSegment : Prop :=
  (∀ (tag index : Byte) (s : State), s.part.ready = true →
    (s.part.take.device = .standby → exec (.readSegment tag index) s = .next (withReply s 0x13 tag .wrongState []))
    ∧ (s.part.take.device ≠ .standby →
        (∀ h : index.toNat < s.setup.entries.length,
          exec (.readSegment tag index) s = .next (withReply s 0x13 tag .ok (s.setup.entries[index.toNat].bytes)))
        ∧ (s.setup.entries.length ≤ index.toNat →
          exec (.readSegment tag index) s = .next (withReply s 0x13 tag .notFound []))))
  ∧ ∀ (e : Entry) (part : Lane → List Byte),
      (∀ l, e.parts.get l = none → part l = List.replicate 30 0) →
      (∀ l x, e.parts.get l = some x → part l =
        [x.source.code] ++ bytesOf 3 x.fRef ++ bytesOf 2 x.c ++ bytesOf 1 x.w ++ bytesOf 1 x.k ++ bytesOf 3 x.slew
          ++ bytesOf 1 x.acquire ++ bytesOf 1 x.missCount ++ bytesOf 1 x.hold ++ bytesOf 3 x.gate ++ [x.azMode.code]
          ++ signedBytes 2 x.fixedOffset ++ bytesOf 1 x.theta ++ bytesOf 1 x.ka ++ [x.pairing.code] ++ [x.policy.code]
          ++ bytesOf 1 x.depth ++ bytesOf 1 x.release ++ bytesOf 1 x.onset ++ bytesOf 1 x.releaseCount ++ bytesOf 1 x.blanking
          ++ [x.eq.code]) →
      e.bytes = bytesOf 3 e.start ++ bytesOf 2 e.label ++ [if (e.parts.get .a).isSome then 1 else 0]
          ++ [if (e.parts.get .b).isSome then 1 else 0] ++ part .a ++ part .b
        ∧ e.bytes.length = 67

/-! ## Takes -/

/-- START_TAKE: its checks, of which the first that fails gives the reply and nothing else changes; where all pass, the take opens and
every block takes its starting state, down to each tracker's filter and each aligner's window. Where both trackers' lock states change,
LOCK_CHANGED of lane A is posted before lane B's: the manual gives the two no order, and this one is the model's choice (log 7). -/
def Obligations.StartTake : Prop :=
  (∀ (tag flag : Byte) (x : BitVec 24) (s : State), s.part.ready = true → s.part.take.device = .configure → flag.toNat ≤ 1 →
      s.part.trc.state = .stopped → s.part.trc.op.kind = .none → s.part.lanes.a.state = .idle → s.part.lanes.b.state = .idle →
      s.part.lanes.a.fifo = [] → s.part.lanes.b.fifo = [] → s.part.pos.cassette = true → s.part.pos.referenced = true →
      faultActive s.setup s.part = false → (flag = 1 → s.part.pos.position < x.toNat) →
      ¬((s.part.effective .a).source = .off ∧ (s.part.effective .b).source = .off) →
      ∀ e : Option Nat, e = (if flag = 1 then some x.toNat else none) → ∃ t, exec (.startTake tag flag x) s = .next t
        ∧ t.setup = s.setup ∧ t.rings = s.rings ∧ t.bank = s.bank ∧ t.part.pos = s.part.pos ∧ t.part.sgt = s.part.sgt
        ∧ t.part.log = s.part.log ∧ t.part.osc = s.part.osc ∧ t.part.timebase = s.part.timebase
        ∧ t.part.take = ⟨.run, if s.part.take.number = 65535 then 1 else s.part.take.number + 1, some ⟨e, none, none, none⟩⟩
        ∧ t.part.trc.state = .starting ∧ t.part.trc.qualCount = 0 ∧ t.part.trc.lastTick = none
        ∧ t.part.trc.op = { OpRecord.idle with kind := .take, endPosition := e, startTime := some s.part.timebase }
        ∧ t.part.trc.stallTimer = some s.part.timebase ∧ t.part.trc.startTimer = some s.part.timebase
        ∧ t.part.hcr = { s.part.hcr.wordDue s.part.eqPair with nextIndex := 0 }
        ∧ (∀ l, t.part.lanes.get l =
            { state := .active, acc := 16 * 16777216, frameCount := 0, mark := false, applied := s.setup.rates.nominal,
              settings := s.part.effective l, governing := (s.part.sgt.arrival.get l).map Entry.start,
              az := (if (s.part.effective l).azMode = .track then 0 else (s.part.effective l).fixedOffset), timeline := [], fifo := [] })
        ∧ (∀ l, t.part.rft.get l = { s.part.rft.get l with
            mode := .take, settings := s.part.effective l, coeffs := filterFor s.setup.rates (s.part.effective l),
            filter := ⟨0, 0, 0, 0⟩, armed := false, last := 0, meas := none, origin := 0, acquire := 0, missCount := 0, hold := none,
            ramp := none, tachOpen := none, tachLast := none, step := s.setup.rates.nominal,
            lock := if (s.part.effective l).source.isMeasured then .search else .idle })
        ∧ (∀ (changed : Lane → List Notice → List Notice),
            (∀ l q, changed l q = if (s.part.rft.get l).lock = (t.part.rft.get l).lock then q else
              postNotice (.lockChanged l (s.part.rft.get l).lock (t.part.rft.get l).lock (some 0) s.setup.rates.nominal) q) →
            t.part.msp.notices = changed .b (changed .a s.part.msp.notices))
        ∧ (∀ l, t.part.aza.get l =
            { running := true, mode := (s.part.effective l).azMode, fixedOffset := (s.part.effective l).fixedOffset,
              theta := (s.part.effective l).theta, ka := (s.part.effective l).ka,
              estimate := if (s.part.effective l).azMode = .track then 0 else (s.part.effective l).fixedOffset,
              window := if (s.part.effective l).azMode = .fixed then none else some ⟨0, List.replicate 33 0, 0, 0⟩ })
        ∧ (∀ tr, t.part.det.get tr =
            { running := true, settings := (s.part.effective tr.lane).dropout, level := 0, ref := 0,
              blank := (s.part.effective tr.lane).blanking, state := .clear, run := 0, pendingStart := none, openDropout := none }
            ∧ t.part.con.get tr = ⟨64, .zero, []⟩)
        ∧ t.part.msp.replies = s.part.msp.replies ++ [⟨0x14, tag, .accepted, bytesOf 2 t.part.take.number⟩])
  ∧ (∀ (tag flag : Byte) (x : BitVec 24) (s : State), s.part.ready = true → s.part.take.device = .configure →
      ∀ still free armed above : Prop,
        (still ↔ s.part.trc.state = .stopped ∧ s.part.trc.op.kind = .none ∧ s.part.lanes.a.state = .idle
            ∧ s.part.lanes.b.state = .idle ∧ s.part.lanes.a.fifo = [] ∧ s.part.lanes.b.fifo = []) →
        (free ↔ still ∧ s.part.pos.cassette = true) → (armed ↔ free ∧ s.part.pos.referenced = true) →
        (above ↔ armed ∧ faultActive s.setup s.part = false ∧ (flag = 1 → s.part.pos.position < x.toNat)) →
        (2 ≤ flag.toNat → exec (.startTake tag flag x) s = .next (withReply s 0x14 tag .badValue []))
        ∧ (flag.toNat ≤ 1 →
            (¬still → exec (.startTake tag flag x) s = .next (withReply s 0x14 tag .busy []))
            ∧ (still → s.part.pos.cassette = false → exec (.startTake tag flag x) s = .next (withReply s 0x14 tag .conflict []))
            ∧ (free → s.part.pos.referenced = false →
                exec (.startTake tag flag x) s = .next (withReply s 0x14 tag .notReferenced []))
            ∧ (armed → faultActive s.setup s.part = true →
                exec (.startTake tag flag x) s = .next (withReply s 0x14 tag .faultActive []))
            ∧ (armed → faultActive s.setup s.part = false → flag = 1 → x.toNat ≤ s.part.pos.position →
                exec (.startTake tag flag x) s = .next (withReply s 0x14 tag .conflict []))
            ∧ (above → (s.part.effective .a).source = .off → (s.part.effective .b).source = .off →
                exec (.startTake tag flag x) s = .next (withReply s 0x14 tag .conflict []))))

/-- The dropout log: what a record says of its span; a production step writes the records of the spans it has passed, the first track's
before the second's, up to 256, with LOG_HIGH at the 192nd and LOG_FULL for one that finds no room, which under STOP ends the take; a lane
that finishes at the end of a take writes every span it still lists; READ_DROPOUTS removes the oldest and answers with them, 31 bytes each.
Where both lanes finish in the event that ends a take, lane A's records enter the log before lane B's: R151 allows either order, and this
one is the model's choice (log 7). -/
def Obligations.DropoutLog : Prop :=
  (∀ (tag n : Byte) (s : State), s.part.ready = true →
    (s.part.take.device = .standby → exec (.readDropouts tag n) s = .next (withReply s 0x15 tag .wrongState []))
    ∧ (s.part.take.device ≠ .standby → ∀ k, k = (if n.toNat < 1 then 1 else if 8 < n.toNat then 8 else n.toNat) →
        exec (.readDropouts tag n) s
          = .next (withReply { s with part := { s.part with log := s.part.log.drop k } } 0x15 tag
              (if n.toNat = 0 ∨ 8 < n.toNat then .adjusted else .ok)
              (BitVec.ofNat 8 (min k s.part.log.length) :: ((s.part.log.take k).map DropoutRecord.bytes).flatten))))
  ∧ (∀ r : DropoutRecord, r.bytes.length = 31 ∧ r.bytes = bytesOf 2 r.take ++ [trackCode r.track] ++ bytesOf 6 r.start
      ++ bytesOf 3 r.position ++ bytesOf 2 r.length ++ bytesOf 1 r.ratio ++ [r.action.code]
      ++ bytesOf 1 ((if r.truncated then 1 else 0) + (if r.firstFrame.isSome then 2 else 0)) ++ bytesOf 2 r.label
      ++ bytesOf 6 (r.firstFrame.getD 0) ++ bytesOf 6 (r.lastFrame.getD 0))
  ∧ (∀ x : Span, ∃ action, x.toRecord = ⟨x.take, x.track, x.start, x.position, x.length, min 255 (256 * x.least / x.ref), action,
        x.truncated, x.label, x.firstFrame, x.lastFrame⟩
      ∧ (x.actions = ⟨false, true, false⟩ → action = .crossfilled) ∧ (x.actions = ⟨false, false, true⟩ → action = .muted)
      ∧ (x.actions.crossfill = false → x.actions.mute = false → action = .marked)
      ∧ ((x.actions.marked = true ∧ (x.actions.crossfill = true ∨ x.actions.mute = true)
          ∨ x.actions.crossfill = true ∧ x.actions.mute = true) → action = .mixed))
  ∧ (∀ (l : Lane) (s : State) (x : Producer) (passed : Track → Int → List DropoutRecord) (records : List DropoutRecord),
      mayStep s.part l → s.part.stopPending = false → policiesAllowed s.setup.policies = true → s.part.log.length ≤ 256 →
      x = (s.part.lanes.get l).applyDue s.setup.rates →
      (∀ tr i, passed tr i = ((s.part.con.get tr).spans.filter fun sp => sp.last.any fun last => decide ((last : Int) < i)).map
        Span.toRecord) →
      records = passed l.first ((x.acc / 16777216 : Nat) : Int) ++ passed l.second ((x.acc + x.az * 65536) / 16777216) →
      ∃ t, exec (.productionStep l) s = .next t
        ∧ (neverStops s.setup.policies.logFull → (t.part.lanes.get l).state ≠ .idle →
            t.part.log = (s.part.log ++ records).take 256
            ∧ (s.part.log.length + records.length ≤ 256 → t.part.cmn.logFull = s.part.cmn.logFull)
            ∧ (256 < s.part.log.length + records.length → t.part.cmn.logFull.flag = true)
            ∧ (∀ r, records[191 - s.part.log.length]? = some r → s.part.log.length < 192 →
                ∃ n ∈ t.part.msp.notices, n.content = .logHigh 192 r.take))
        ∧ (s.setup.policies.logFull.policy = .stop → 256 < s.part.log.length + records.length → s.part.trc.op.kind = .take →
            s.part.trc.op.ending = none → s.part.trc.state = .playing →
            t.part.trc.op.ending = some (.cause .condition) ∧ t.part.cmn.logFull.flag = true))
  ∧ ∀ (tag : Byte) (s : State) (e : Nat) (closed : Track → List Span) (records : Lane → List DropoutRecord),
      s.part.ready = true → s.part.stopPending = false → s.part.take.device ≠ .standby → s.part.trc.op.kind = .take →
      s.part.trc.op.ending = none → s.part.hcr.nextIndex = e + 1 → s.part.log.length ≤ 256 → s.part.take.record ≠ none →
      (∀ tr, closed tr = match (s.part.det.get tr).openDropout with
        | some o => (s.part.con.get tr).spans.map fun x => if x.last = none then
            { x with last := some e, length := min 65535 (e / 64 - o.block + 1), least := o.least, truncated := true } else x
        | none => (s.part.con.get tr).spans) →
      (∀ l, records l = if (s.part.lanes.get l).state = .active ∧ e < (s.part.lanes.get l).acc / 16777216 + 32 then
          (closed l.first ++ closed l.second).map Span.toRecord else []) →
      ∃ t, exec (.stop tag) s = .next t ∧ t.part.log = (s.part.log ++ records .a ++ records .b).take 256

/-- The lane timeline: what each kind of entry does when it is applied, that every due entry is applied in list order and removed,
that a posted entry is inserted behind every stamp at or below its own, applied at once if it is due and after the first entry's
early application if the list is full, and that posting keeps the stamps in order. -/
def Obligations.Timeline : Prop :=
  (∀ (r : RatePair) (x : Producer) (stamp : Nat),
      (∀ v : Nat, x.apply r ⟨stamp, .step v⟩ = { x with
        applied := clampNat (r.nominal - r.nominal * x.settings.w / 1000) (r.nominal + r.nominal * x.settings.w / 1000) v })
      ∧ (∀ v : Int, x.apply r ⟨stamp, .azimuth v⟩ = { x with az := v })
      ∧ ∀ (start : Option Nat) (new : Settings), x.apply r ⟨stamp, .settings start new⟩ = { x with
          settings := new, governing := start, mark := true,
          applied := clampNat (r.nominal - r.nominal * new.w / 1000) (r.nominal + r.nominal * new.w / 1000) x.applied,
          az := if new.azMode = .track then x.az else new.fixedOffset })
  ∧ (∀ (r : RatePair) (x : Producer) (due rest : List TimelineEntry), x.timeline = due ++ rest →
      (∀ e ∈ due, e.stamp ≤ x.acc / 16777216) → (∀ e ∈ rest, x.acc / 16777216 < e.stamp) →
      x.applyDue r = due.foldl (Producer.apply r) { x with timeline := rest })
  ∧ (∀ (r : RatePair) (x : Producer) (e : TimelineEntry) (front back : List TimelineEntry),
      (∀ y ∈ front, y.stamp ≤ e.stamp) → (∀ y ∈ back, e.stamp < y.stamp) →
      (x.timeline = front ++ back → e.stamp ≤ x.acc / 16777216 →
        x.post r e = ({ x with timeline := front ++ e :: back } : Producer).applyDue r)
      ∧ (x.timeline = front ++ back → x.acc / 16777216 < e.stamp → x.timeline.length < 128 →
        x.post r e = { x with timeline := front ++ e :: back })
      ∧ ∀ first, x.timeline = first :: (front ++ back) → x.acc / 16777216 < e.stamp → 128 ≤ x.timeline.length →
        x.post r e = { ({ x with timeline := front ++ back } : Producer).apply r first with timeline := front ++ e :: back })
  ∧ ∀ (r : RatePair) (x : Producer) (e : TimelineEntry), (x.timeline.map TimelineEntry.stamp).Pairwise (· ≤ ·) →
      ((x.post r e).timeline.map TimelineEntry.stamp).Pairwise (· ≤ ·)

/-- The production step of a lane that may take one: after its due timeline entries it makes one frame and advances the accumulator by
the applied step; under OFF it only advances; out of OFF with a full FIFO it makes nothing and does not advance. Saturation
is a CLIP occurrence, a frame without one counts CLIP's hold down. A DRAINING lane finishes once its next point is too near the end
raw index. A lane that may not step leaves the state as it is. -/
def Obligations.ProductionStep : Prop :=
  (∀ (l : Lane) (s : State), mayStep s.part l →
      ∀ (x : Producer) (first second : Int), x = (s.part.lanes.get l).applyDue s.setup.rates →
      first = convolve (bankRow s.setup s.bank (x.acc % 16777216 / 65536)) s.rings l.first ((x.acc / 16777216 : Nat) : Int) →
      second = convolve (bankRow s.setup s.bank ((x.acc + x.az * 65536) % 16777216 / 65536).toNat) s.rings l.second
        ((x.acc + x.az * 65536) / 16777216) → ∃ t, exec (.productionStep l) s = .next t
        ∧ t.setup = s.setup ∧ t.rings = s.rings ∧ t.bank = s.bank ∧ t.part.pos = s.part.pos
        ∧ (t.part.lanes.get l).applied = x.applied ∧ (t.part.lanes.get l).az = x.az
        ∧ (t.part.lanes.get l).settings = x.settings ∧ (t.part.lanes.get l).governing = x.governing
        ∧ (x.settings.source = .off → (t.part.lanes.get l).acc = x.acc + x.applied ∧ (t.part.lanes.get l).fifo = x.fifo
            ∧ (t.part.lanes.get l).frameCount = x.frameCount ∧ (t.part.lanes.get l).mark = x.mark)
        ∧ (x.settings.source ≠ .off → 1024 ≤ x.fifo.length → (t.part.lanes.get l).acc = x.acc
            ∧ (t.part.lanes.get l).fifo = x.fifo ∧ (t.part.lanes.get l).frameCount = x.frameCount
            ∧ (t.part.lanes.get l).mark = x.mark)
        ∧ (x.settings.source ≠ .off → x.fifo.length < 1024 → (t.part.lanes.get l).acc = x.acc + x.applied
            ∧ (t.part.lanes.get l).frameCount = x.frameCount + 1 ∧ (t.part.lanes.get l).mark = false
            ∧ (∃ f : SampleFrame, (t.part.lanes.get l).fifo = (s.part.lanes.get l).fifo ++ [f]
              ∧ f.lane = l ∧ f.count = x.frameCount % 65536 ∧ f.applied = x.mark ∧ f.take = s.part.take.number % 256
              ∧ f.lock = (s.part.rft.get l).lock
              ∧ f.monitor = (if s.setup.monitor.frozen then s.setup.monitor.value else match s.setup.monitor.source with
                  | .off => 0
                  | .speed m => clampInt (-8388608) 8388607
                      (((if m = l then x.applied else (s.part.lanes.get m).applied) : Int) - s.setup.rates.nominal)
                  | .azimuth m => if m = l then x.az else (s.part.lanes.get m).az
                  | .level tr => (s.part.det.get tr).level
                  | .dropRef tr => (s.part.det.get tr).ref)
              ∧ ((s.part.con.get l.first).spans = [] → (s.part.con.get l.second).spans = [] → f.muted = false →
                  ((s.part.con.get l.first).g = 64 → f.first.sample = saturate24 first)
                  ∧ ((s.part.con.get l.second).g = 64 → f.second.sample = saturate24 second)))
            ∧ ∀ (before after : CondStatus) (clipped : Prop), before = s.part.cmn.clip.get l → after = t.part.cmn.clip.get l →
                (clipped ↔ saturate24 first ≠ first ∨ saturate24 second ≠ second) →
                (clipped → after.hold = 4096 ∧ ((s.setup.policies.clip.get l).policy ≠ .off → after.flag = true))
                ∧ (¬clipped → after.hold = before.hold - 1
                    ∧ (before.hold = 1 → (s.setup.policies.clip.get l).policy = .auto → after.flag = false)
                    ∧ (before.hold ≠ 1 ∨ (s.setup.policies.clip.get l).policy ≠ .auto → after.flag = before.flag)))
        ∧ ((s.part.lanes.get l).state = .draining → ∀ r e, s.part.take.record = some r → r.endIndex = some e →
            (e < (t.part.lanes.get l).acc / 16777216 + 32 → (t.part.lanes.get l).state = .idle
              ∧ (t.part.lanes.get l).timeline = [] ∧ (t.part.con.get l.first).spans = [] ∧ (t.part.con.get l.second).spans = [])
            ∧ ((t.part.lanes.get l).acc / 16777216 + 32 ≤ e → (t.part.lanes.get l).state = .draining
              ∧ (t.part.lanes.get l).timeline = x.timeline))
        ∧ ((s.part.lanes.get l).state = .active → s.part.stopPending = false → policiesAllowed s.setup.policies = true →
            neverStops s.setup.policies.logFull → (t.part.lanes.get l).state = .active
              ∧ (t.part.lanes.get l).timeline = x.timeline))
  ∧ (∀ (l : Lane) (s : State),
      ((s.part.lanes.get l).state = .idle
        ∨ (s.part.lanes.get l).state = .active ∧ s.part.hcr.nextIndex ≤ (s.part.lanes.get l).acc / 16777216 + 1056
        ∨ (s.part.lanes.get l).state = .draining ∧ (∀ r, s.part.take.record = some r → ∀ e, r.endIndex = some e →
            e < (s.part.lanes.get l).acc / 16777216 + 32)
        ∨ (s.part.lanes.get l).settings.source ≠ .off ∧ 1024 ≤ (s.part.lanes.get l).fifo.length) →
      exec (.productionStep l) s = .next s)

/-- What a production step does to a track's concealment record and its part of the frame: the source by R145, at a step that makes no
frame too (log 32), the weight, the mix, the flags, the marks on the spans it meets; spans passed leave the list first. -/
def Obligations.Concealment : Prop :=
  ∀ (l : Lane) (tr other : Track) (s : State) (x : Producer) (place own : Track → Int) (inside : Track → Prop)
    (holds : Span → Prop) (affected muted conceals : Prop) (c : Concealer) (kept : List Span),
    mayStep s.part l → s.part.stopPending = false → policiesAllowed s.setup.policies = true → neverStops s.setup.policies.logFull →
    (tr = l.first ∧ other = l.second ∨ tr = l.second ∧ other = l.first) →
    x = (s.part.lanes.get l).applyDue s.setup.rates → c = s.part.con.get tr →
    place l.first = ((x.acc / 16777216 : Nat) : Int) → place l.second = (x.acc + x.az * 65536) / 16777216 →
    own l.first = saturate24 (convolve (bankRow s.setup s.bank (x.acc % 16777216 / 65536)) s.rings l.first (place l.first)) →
    own l.second = saturate24 (convolve (bankRow s.setup s.bank ((x.acc + x.az * 65536) % 16777216 / 65536).toNat) s.rings
      l.second (place l.second)) →
    (∀ k, inside k ↔ ∃ sp ∈ (s.part.con.get k).spans, (sp.start : Int) ≤ place k ∧ ∀ last, sp.last = some last → place k ≤ last) →
    (∀ sp, holds sp ↔ (sp.start : Int) ≤ place tr ∧ ∀ last, sp.last = some last → place tr ≤ last) →
    (affected ↔ inside tr ∧ x.settings.policy ≠ .off) →
    (muted ↔ (s.part.cmn.lockLost.get l).flag = true ∧ (s.setup.policies.lockLost.get l).policy = .muteLane
      ∧ (s.setup.policies.lockLost.get l).scope = .lane) →
    (conceals ↔ affected ∧ (x.settings.policy = .conceal ∨ x.settings.policy = .mute)) →
    kept = (c.spans.filter fun sp => sp.last.all fun last => decide (place tr ≤ last)) → ∃ t, exec (.productionStep l) s = .next t
      ∧ (muted → (t.part.con.get tr).source = .zero)
      ∧ (¬muted → affected → x.settings.policy = .conceal → x.settings.pairing = .monoPair →
          (inside other → (t.part.con.get tr).source = .zero) ∧ (¬inside other → (t.part.con.get tr).source = .partner))
      ∧ (¬muted → conceals → ¬(x.settings.policy = .conceal ∧ x.settings.pairing = .monoPair) →
          (t.part.con.get tr).source = .zero)
      ∧ (¬muted → ¬conceals → (c.source = .partner → inside other → (t.part.con.get tr).source = .zero)
          ∧ (¬(c.source = .partner ∧ inside other) → (t.part.con.get tr).source = c.source))
      ∧ ((x.settings.source = .off ∨ 1024 ≤ x.fifo.length) → (t.part.con.get tr).g = c.g
          ∧ ((t.part.lanes.get l).state ≠ .idle → (t.part.con.get tr).spans = kept))
      ∧ (x.settings.source ≠ .off → x.fifo.length < 1024 →
          (muted ∨ conceals → (t.part.con.get tr).g = c.g - 1) ∧ (¬(muted ∨ conceals) → (t.part.con.get tr).g = min 64 (c.g + 1))
          ∧ ∃ (frame : SampleFrame) (part : TrackPart) (mark : Span → Span),
              (t.part.lanes.get l).fifo = x.fifo ++ [frame] ∧ (frame.muted = true ↔ muted)
              ∧ part = (if tr = l.first then frame.first else frame.second)
              ∧ part.sample = (own tr * (t.part.con.get tr).g
                  + (if (t.part.con.get tr).source = .partner then own other else 0) * (64 - ((t.part.con.get tr).g : Int)) + 32) / 64
              ∧ (part.below = true ↔ (t.part.con.get tr).g < 64)
              ∧ (part.switched = true ↔ (t.part.con.get tr).source ≠ c.source ∧ (t.part.con.get tr).g < 64)
              ∧ (¬affected → part.action = .none)
              ∧ (affected → ¬muted → x.settings.policy = .mark → part.action = .marked)
              ∧ (affected → ¬muted → x.settings.policy ≠ .mark → (t.part.con.get tr).source = .partner → part.action = .crossfill)
              ∧ (affected → (muted ∨ x.settings.policy ≠ .mark ∧ (t.part.con.get tr).source = .zero) → part.action = .mute)
              ∧ (∀ sp, ¬(affected ∧ holds sp) → mark sp = sp)
              ∧ (∀ sp, affected → holds sp → mark sp = { sp with
                  actions := ⟨sp.actions.marked || part.action == .marked, sp.actions.crossfill || part.action == .crossfill,
                    sp.actions.mute || part.action == .mute⟩,
                  firstFrame := some (sp.firstFrame.getD x.frameCount), lastFrame := some x.frameCount })
              ∧ ((t.part.lanes.get l).state ≠ .idle → (t.part.con.get tr).spans = kept.map mark))

/-- TAKE_ENDED: posted, and the record closed, once the cause and the final position are known, both lanes have finished and
both FIFOs are empty; not before. CLIP_HOLD_EXPIRY: at a clip hold count of 0 under AUTO the lane's CLIP flag is cleared;
otherwise nothing happens. (That a row which is not due changes nothing is the model's choice: logs 4 and 6.) -/
def Obligations.TakeEndedAndClipHold : Prop :=
  ((∀ (s : State) (e : Option Nat) (cause : TakeCause) (endIndex : Option Nat) (final : Nat),
      s.part.take.record = some ⟨e, some cause, endIndex, some final⟩ →
      s.part.lanes.a.state = .idle → s.part.lanes.b.state = .idle → s.part.lanes.a.fifo = [] → s.part.lanes.b.fifo = [] →
      exec .takeEnded s
        = .next { s with part := { s.part with
            take := { s.part.take with record := none },
            msp := { s.part.msp with
              notices := postNotice
                (.takeEnded s.part.take.number cause endIndex s.part.lanes.a.frameCount s.part.lanes.b.frameCount final)
                s.part.msp.notices } } })
    ∧ ∀ s : State,
      (s.part.take.record = none ∨ (∃ r, s.part.take.record = some r ∧ (r.cause = none ∨ r.finalPosition = none))
        ∨ s.part.lanes.a.state ≠ .idle ∨ s.part.lanes.b.state ≠ .idle ∨ s.part.lanes.a.fifo ≠ [] ∨ s.part.lanes.b.fifo ≠ []) →
      exec .takeEnded s = .next s)
  ∧ (∀ (l : Lane) (s : State),
      ((s.part.cmn.clip.get l).hold = 0 → (s.setup.policies.clip.get l).policy = .auto →
        exec (.clipHoldExpiry l) s
          = .next { s with part := { s.part with cmn := { s.part.cmn with
              clip := s.part.cmn.clip.set l { s.part.cmn.clip.get l with flag := false } } } })
      ∧ (((s.part.cmn.clip.get l).hold ≠ 0 ∨ (s.setup.policies.clip.get l).policy ≠ .auto) →
        exec (.clipHoldExpiry l) s = .next s))

/-! ## Conditions and notices -/

/-- SET_POLICY: a value outside its list, a policy the condition does not allow, and otherwise the named records' policies,
and for LOCK_LOST the scope, with the flags as R183 leaves them. CLIP's presence is R177's, judged under the policy that is being
set: the model's reading (log 26). -/
def Obligations.SetPolicy : Prop :=
  ∀ (tag : Byte) (a : PolicyArgs) (s : State), s.part.ready = true → s.part.take.device = .configure →
    s.part.stopPending = false → Part.playLegal s.part → policiesAllowed s.setup.policies = true →
    ((10 ≤ a.condition.toNat ∨ 3 ≤ a.lane.toNat ∨ 5 ≤ a.policy.toNat ∨ 2 ≤ a.scope.toNat) →
      exec (.setPolicy tag a) s = .next (withReply s 0x16 tag .badValue []))
    ∧ ∀ (lanes : LaneSet) (policy : Policy) (scope : Scope) (ids : List CondId), LaneSet.ofCode a.lane = some lanes →
      Policy.ofCode a.policy = some policy → Scope.ofCode a.scope = some scope → condRecords a.condition lanes = some ids →
      ((∃ id ∈ ids, policy ∉ CondId.allowed id) → exec (.setPolicy tag a) s = .next (withReply s 0x16 tag .conflict []))
      ∧ ((∀ id ∈ ids, policy ∈ CondId.allowed id) → ∃ t, exec (.setPolicy tag a) s = .next t
          ∧ t.setup = { s.setup with policies := t.setup.policies } ∧ t.rings = s.rings ∧ t.bank = s.bank ∧ t.part.pos = s.part.pos
          ∧ (∀ id, t.setup.policies.get id
              = if id ∈ ids then
                  ⟨policy, match id with | .lockLost _ => scope | _ => (s.setup.policies.get id).scope⟩
                else s.setup.policies.get id)
          ∧ (∀ id ∈ ids, (t.part.cmn.get id).flag =
              match policy with
              | .stop | .muteLane | .warn => (s.part.cmn.get id).flag || (s.part.cmn.get id).isPresent id policy
              | .auto => (s.part.cmn.get id).isPresent id policy
              | .off => false)
          ∧ (∀ id, id ∉ ids → (t.part.cmn.get id).flag = (s.part.cmn.get id).flag)
          ∧ t.part.msp.replies = s.part.msp.replies ++ [⟨0x16, tag, .ok, []⟩])

/-- CLEAR_CONDITIONS clears the latched flags of absent records and answers with the flags still set; SET_NOTICE_MASK masks the
kinds whose flags are set. -/
def Obligations.ClearAndMask : Prop :=
  (∀ (tag : Byte) (s : State), s.part.ready = true →
      (s.part.take.device = .standby → exec (.clearConditions tag) s = .next (withReply s 0x17 tag .wrongState []))
      ∧ (s.part.take.device ≠ .standby → ∃ cmn,
          exec (.clearConditions tag) s
              = .next (withReply { s with part := { s.part with cmn := cmn } } 0x17 tag .ok (bytesOf 2 (flagSet cmn).toNat))
            ∧ ∀ id, cmn.get id = { s.part.cmn.get id with
                flag := (s.part.cmn.get id).flag &&
                  match (s.setup.policies.get id).policy with
                  | .stop | .muteLane | .warn => (s.part.cmn.get id).isPresent id (s.setup.policies.get id).policy
                  | .auto | .off => true }))
  ∧ (∀ (tag : Byte) (flags : List Byte) (s : State), s.part.ready = true → flags.length = 10 →
      (s.part.take.device = .standby → exec (.setNoticeMask tag flags) s = .next (withReply s 0x18 tag .wrongState []))
      ∧ (s.part.take.device ≠ .standby →
          ((∃ b ∈ flags, 2 ≤ b.toNat) → exec (.setNoticeMask tag flags) s = .next (withReply s 0x18 tag .badValue []))
          ∧ ((∀ b ∈ flags, b.toNat ≤ 1) → ∃ mask,
              exec (.setNoticeMask tag flags) s = .next (withReply { s with setup := { s.setup with mask := mask } } 0x18 tag .ok [])
                ∧ ∀ k : NoticeKind, k ∈ mask ↔ flags[k.code.toNat]? = some 1)))

/-- Posting a notice: a kind not in the queue enters at the back with a count of 1; a kind in the queue keeps its place,
counts one more up to 255, and takes the new content, CONDITION_RAISED the union of both. -/
def Obligations.PostNotice : Prop :=
  (∀ (c : NoticeContent) (q : List Notice), (∀ n ∈ q, n.content.kind ≠ c.kind) → postNotice c q = q ++ [⟨c, 1⟩])
  ∧ (∀ (c : NoticeContent) (front back : List Notice) (n : Notice), (∀ m ∈ front, m.content.kind ≠ c.kind) →
      n.content.kind = c.kind → c.kind ≠ .conditionRaised →
      postNotice c (front ++ n :: back) = front ++ ⟨c, min 255 (n.count + 1)⟩ :: back)
  ∧ ∀ (x y : BitVec 16) (front back : List Notice) (k : Nat), (∀ m ∈ front, m.content.kind ≠ .conditionRaised) →
      postNotice (.conditionRaised y) (front ++ ⟨.conditionRaised x, k⟩ :: back)
        = front ++ ⟨.conditionRaised (x ||| y), min 255 (k + 1)⟩ :: back

/-! ## The command port -/

/-- Admission: in each device state the commands its column of R156 refuses change nothing and are answered WRONG_STATE, and
the commands it takes are judged by their owners, which answer otherwise. -/
def Obligations.Admission : Prop :=
  ∀ (tag b b2 : Byte) (x y : BitVec 24) (v : BitVec 16) (row : List (BitVec 24)) (flags : List Byte) (deck : DeckArgs)
    (survey : SurveyArgs) (segment : SegmentArgs) (policy : PolicyArgs) (s : State),
    s.part.ready = true → row.length = 32 → flags.length = 10 →
    ∀ always both takes configure : List (Instr × Byte),
      always = [(.identify tag, 0x01), (.readStatus tag, 0x02), (.softReset tag, 0x04)] →
      both = [(.setState tag b, 0x03)] →
      takes = [(.stop tag, 0x0E), (.readSegment tag b, 0x13), (.readDropouts tag b, 0x15), (.loadSegment tag segment, 0x10),
        (.deleteSegment tag x, 0x11), (.clearConditions tag, 0x17), (.setNoticeMask tag flags, 0x18),
        (.setMonitor tag b b2, 0x19)] →
      configure = [(.startTake tag b x, 0x14), (.survey tag survey, 0x0F), (.wind tag b, 0x0B), (.seek tag x, 0x0C),
        (.rewindToLeader tag, 0x0D), (.setRates tag x y, 0x06), (.loadCoeffRow tag b row, 0x07), (.selectBank tag b, 0x08),
        (.setDeck tag deck, 0x09), (.setPosition tag x, 0x0A), (.lockTables tag b, 0x05), (.clearSegments tag, 0x12),
        (.setPolicy tag policy, 0x16), (.setOutput tag v, 0x1A)] →
      (∀ c, (c ∈ takes ++ configure ∧ s.part.take.device = .standby ∨ c ∈ both ++ configure ∧ s.part.take.device = .run) →
        exec c.1 s = .next (withReply s c.2 tag .wrongState []))
      ∧ ∀ c, (c ∈ always ∨ c ∈ both ∧ s.part.take.device = .standby ∨ c ∈ takes ∧ s.part.take.device = .run
          ∨ c ∈ both ++ takes ++ configure ∧ s.part.take.device = .configure) →
        ∃ t r, exec c.1 s = .next t ∧ t.part.msp.replies.getLast? = some r ∧ r.kind = c.2 ∧ r.tag = tag ∧ r.code ≠ .wrongState

/-- A command that comes while READY is clear is not taken: an open message is answered MALFORMED, and CELL_ERROR is
reported. (That a command's row meets READY as its START cell would is the model's reading, log 1.) -/
def Obligations.NotReady : Prop :=
  ∀ (c : Instr) (s : State), isCommand c = true → s.part.ready = false → s.part.stopPending = false →
    policiesAllowed s.setup.policies = true → ∃ t, exec c s = .next t
      ∧ t.setup = s.setup ∧ t.rings = s.rings ∧ t.bank = s.bank
      ∧ t.part = { s.part with
          cmn := { s.part.cmn with cellError := { s.part.cmn.cellError with flag := true } },
          msp := ⟨none,
            s.part.msp.replies ++ (match s.part.msp.assembler with
              | some m => [⟨m.kind, m.tag, .malformed, []⟩]
              | none => []),
            if s.part.cmn.cellError.flag then s.part.msp.notices else postNotice (.conditionRaised 0x0004) s.part.msp.notices⟩ }

/-- ACCEPT: a good cell sets it whatever its kind, a bad cell leaves it; an EMPTY cell does nothing else. A START cell taken
while READY opens a message that its three bytes do not complete, one that declares more than 250 bytes is MALFORMED at once,
and CONT cells gather up to the declared length; a complete message of an unknown kind is INVALID and one of a wrong length
MALFORMED. A bad cell, a START that meets READY clear and a CONT that meets no open message are CELL_ERROR occurrences, and the
first two abandon an open message with MALFORMED. -/
def Obligations.CellsGather : Prop :=
  ((∀ (f a b c d e g check : Byte) (s : State), (f + a + b + c + d + e + g + check : Byte) = 0 → f.extractLsb' 0 2 = 0 →
      exec (.downstreamCell [f, a, b, c, d, e, g, check]) s
        = .next { s with part := { s.part with osc := { s.part.osc with accept := f.getLsbD 7 } } })
    ∧ (∀ (f a b c d e g check : Byte) (s : State), (f + a + b + c + d + e + g + check : Byte) = 0 → f.extractLsb' 0 2 ≠ 3 →
      ∃ t, exec (.downstreamCell [f, a, b, c, d, e, g, check]) s = .next t ∧ t.part.osc.accept = f.getLsbD 7))
  ∧ (∀ (s : State) (cell : List Byte) (accept : Bool), s.part.stopPending = false → policiesAllowed s.setup.policies = true →
      (goodCell cell = false ∧ accept = s.part.osc.accept
        ∨ (∃ f kind tag length a b c check : Byte, cell = [f, kind, tag, length, a, b, c, check]
            ∧ (f + kind + tag + length + a + b + c + check : Byte) = 0 ∧ f.extractLsb' 0 2 = 1 ∧ s.part.ready = false
            ∧ accept = f.getLsbD 7)
        ∨ (∃ f a b c d e g check : Byte, cell = [f, a, b, c, d, e, g, check]
            ∧ (f + a + b + c + d + e + g + check : Byte) = 0 ∧ f.extractLsb' 0 2 = 2 ∧ s.part.msp.assembler = none
            ∧ accept = f.getLsbD 7)) →
      exec (.downstreamCell cell) s = .next { s with part := { s.part with
        osc := { s.part.osc with accept := accept },
        cmn := { s.part.cmn with cellError := { s.part.cmn.cellError with flag := true } },
        msp := ⟨none,
          s.part.msp.replies ++ (match s.part.msp.assembler with
            | some m => [⟨m.kind, m.tag, .malformed, []⟩]
            | none => []),
          if s.part.cmn.cellError.flag then s.part.msp.notices else postNotice (.conditionRaised 0x0004) s.part.msp.notices⟩ } })
  ∧ ((∀ (f kind tag length a b c check : Byte) (s : State), (f + kind + tag + length + a + b + c + check : Byte) = 0 →
      f.extractLsb' 0 2 = 1 → s.part.ready = true → 3 < length.toNat → length.toNat ≤ 250 →
      exec (.downstreamCell [f, kind, tag, length, a, b, c, check]) s
        = .next { s with part := { s.part with
            osc := { s.part.osc with accept := f.getLsbD 7 },
            msp := { s.part.msp with assembler := some ⟨kind, tag, length.toNat, [a, b, c]⟩ } } })
    ∧ (∀ (f kind tag length a b c check : Byte) (s : State), (f + kind + tag + length + a + b + c + check : Byte) = 0 →
      f.extractLsb' 0 2 = 1 → s.part.ready = true → 250 < length.toNat →
      exec (.downstreamCell [f, kind, tag, length, a, b, c, check]) s
        = .next (withReply { s with part := { s.part with osc := { s.part.osc with accept := f.getLsbD 7 } } } kind tag .malformed []))
    ∧ (∀ (f a b c d e g check : Byte) (m : OpenMessage) (s : State), (f + a + b + c + d + e + g + check : Byte) = 0 →
      f.extractLsb' 0 2 = 2 → s.part.msp.assembler = some m → m.args.length + 6 < m.length →
      exec (.downstreamCell [f, a, b, c, d, e, g, check]) s
        = .next { s with part := { s.part with
            osc := { s.part.osc with accept := f.getLsbD 7 },
            msp := { s.part.msp with assembler := some { m with args := m.args ++ [a, b, c, d, e, g] } } } }))
  ∧ (∀ (kind tag : Byte) (length : Nat) (code : ReplyCode),
      ((kind = 0 ∨ 0x1A < kind.toNat) ∧ code = .invalid
        ∨ (∃ k : Cmd, k.code = kind ∧ length ≠ k.argLength) ∧ code = .malformed) →
      (∀ (f a b c check : Byte) (s : State), (f + kind + tag + BitVec.ofNat 8 length + a + b + c + check : Byte) = 0 →
        f.extractLsb' 0 2 = 1 → s.part.ready = true → length ≤ 3 →
        exec (.downstreamCell [f, kind, tag, BitVec.ofNat 8 length, a, b, c, check]) s
          = .next (withReply { s with part := { s.part with osc := { s.part.osc with accept := f.getLsbD 7 } } } kind tag code []))
      ∧ ∀ (f a b c d e g check : Byte) (args : List Byte) (s : State), (f + a + b + c + d + e + g + check : Byte) = 0 →
        f.extractLsb' 0 2 = 2 → s.part.msp.assembler = some ⟨kind, tag, length, args⟩ → args.length < length →
        length ≤ args.length + 6 →
        exec (.downstreamCell [f, a, b, c, d, e, g, check]) s
          = .next (withReply { s with part := { s.part with
              osc := { s.part.osc with accept := f.getLsbD 7 }, msp := { s.part.msp with assembler := none } } } kind tag code []))

/-! ## The head converter link -/

/-- A raw frame: sequence number, four signed 24-bit samples, check byte; complete, and summing to 0. In WAITING, an empty or
bad slot is discarded, and a good frame is taken whatever its gap and passed on: written at the next raw index while capture runs, to
no one otherwise. -/
def Obligations.SlotWaiting : Prop :=
  ((∀ (seq a2 a1 a0 b2 b1 b0 c2 c1 c0 d2 d1 d0 check : Byte),
      (seq + a2 + a1 + a0 + b2 + b1 + b0 + c2 + c1 + c0 + d2 + d1 + d0 + check : Byte) = 0 →
      readRawFrame [seq, a2, a1, a0, b2, b1, b0, c2, c1, c0, d2, d1, d0, check]
        = some (seq, ⟨(a2 ++ a1 ++ a0 : BitVec 24).toInt, (b2 ++ b1 ++ b0 : BitVec 24).toInt, (c2 ++ c1 ++ c0 : BitVec 24).toInt,
                      (d2 ++ d1 ++ d0 : BitVec 24).toInt⟩))
    ∧ ∀ bytes : List Byte, (bytes.length ≠ 14 ∨ bytes.foldl (· + ·) 0 ≠ 0) → readRawFrame bytes = none)
  ∧ (∀ (bytes : List Byte) (s : State), s.part.hcr.link = .waiting → s.part.stopPending = false →
      (readRawFrame bytes = none → exec (.frameSlot bytes) s = .next s)
      ∧ ∀ seq f, readRawFrame bytes = some (seq, f) → ∃ t, exec (.frameSlot bytes) s = .next t
        ∧ t.part.hcr.link = .following ∧ t.part.hcr.expected = seq + 1 ∧ t.part.hcr.lastGood = f ∧ t.part.hcr.run = 0
        ∧ (s.part.hcr.capturing = false → t.rings = s.rings ∧ t.part.hcr.nextIndex = s.part.hcr.nextIndex)
        ∧ (s.part.hcr.capturing = true → ringHasRoom s.part → buffersCanonical s = true →
            t.part.hcr.nextIndex = s.part.hcr.nextIndex + 1 ∧ ∀ tr, t.rings.sample tr s.part.hcr.nextIndex = f.get tr))

/-- In FOLLOWING, a good frame with gap 0 is taken in sequence, the replacement run ends, and the frame is passed on: written
at the next raw index while capture runs, to no one otherwise. -/
def Obligations.SlotInSequence : Prop :=
  ∀ (bytes : List Byte) (seq : Byte) (f : PerTrack Int) (s : State), s.part.hcr.link = .following →
    readRawFrame bytes = some (seq, f) → seq = s.part.hcr.expected → s.part.stopPending = false → ∃ t,
      exec (.frameSlot bytes) s = .next t
      ∧ t.part.hcr.link = .following ∧ t.part.hcr.lastGood = f ∧ t.part.hcr.expected = s.part.hcr.expected + 1
      ∧ t.part.hcr.run = 0 ∧ t.setup = s.setup ∧ t.bank = s.bank
      ∧ (s.part.hcr.capturing = false → t.rings = s.rings ∧ t.part.hcr.nextIndex = s.part.hcr.nextIndex)
      ∧ (s.part.hcr.capturing = true → ringHasRoom s.part → buffersCanonical s = true →
          t.part.hcr.nextIndex = s.part.hcr.nextIndex + 1 ∧ ∀ tr, t.rings.sample tr s.part.hcr.nextIndex = f.get tr)

/-- A frame written: the four rings take it at its raw index and keep every other place; the frame that begins a block stamps
it with the tape position and no other frame changes a stamp. -/
def Obligations.FrameWritten : Prop :=
  ∀ (bytes : List Byte) (seq : Byte) (f : PerTrack Int) (s : State), s.part.hcr.link = .following →
    readRawFrame bytes = some (seq, f) → seq = s.part.hcr.expected → s.part.stopPending = false →
    s.part.hcr.capturing = true → ringHasRoom s.part → buffersCanonical s = true → ∃ t, exec (.frameSlot bytes) s = .next t
      ∧ (∀ (tr : Track) (k : Nat), k % 65536 ≠ s.part.hcr.nextIndex % 65536 → t.rings.sample tr k = s.rings.sample tr k)
      ∧ (∀ (tr : Track) (k : Int), k < 0 → t.rings.sample tr k = 0)
      ∧ (s.part.hcr.nextIndex % 64 = 0 → t.rings.stamp (s.part.hcr.nextIndex / 64) = s.part.pos.position)
      ∧ (∀ b, (s.part.hcr.nextIndex % 64 = 0 → b % 1024 ≠ s.part.hcr.nextIndex / 64 % 1024) → t.rings.stamp b = s.rings.stamp b)

/-- A slot that cannot be placed: nothing is passed on, the link waits with a run count of 0, capture stops, and RAW_LOST is
raised; under its policy STOP a take that plays ends with cause CONDITION at the last raw index written, and a survey with CONDITION. A
frame that would overwrite a sample a lane still needs is discarded: capture stops, and OVERRUN is raised, which ends a take alike. The
end of the take tears down what works inside it (`Part.tornDown`). -/
def Obligations.SlotLost : Prop :=
  (∀ (bytes : List Byte) (s : State), s.part.hcr.link = .following → s.part.stopPending = false →
      policiesAllowed s.setup.policies = true →
      ((readRawFrame bytes = none ∧ 4 ≤ s.part.hcr.run)
        ∨ ∃ seq f, readRawFrame bytes = some (seq, f) ∧ 4 < s.part.hcr.run + (seq - s.part.hcr.expected).toNat
            ∧ seq ≠ s.part.hcr.expected) → ∃ t, exec (.frameSlot bytes) s = .next t
        ∧ t.rings = s.rings ∧ t.setup = s.setup ∧ t.part.hcr.link = .waiting ∧ t.part.hcr.run = 0 ∧ t.part.hcr.capturing = false
        ∧ t.part.hcr.expected = s.part.hcr.expected ∧ t.part.hcr.lastGood = s.part.hcr.lastGood
        ∧ t.part.hcr.nextIndex = s.part.hcr.nextIndex ∧ t.part.cmn.rawLost.flag = true ∧ t.part.cmn.rawHeld.present = false
        ∧ (s.part.trc.op.kind = .take → s.part.trc.op.ending = none → s.part.trc.state = .playing →
            t.part.trc.op.ending = some (.cause .condition) ∧ t.part.trc.state = .settling ∧ t.part.take.device = .configure
              ∧ t.part.take.record = (s.part.take.record.map fun r =>
                  ⟨r.endPosition, some .condition,
                   if s.part.hcr.nextIndex = 0 then none else some (s.part.hcr.nextIndex - 1), r.finalPosition⟩)
              ∧ ∀ l, Part.tornDown s.setup l s.part t.part)
        ∧ (s.part.trc.op.kind = .survey → s.part.trc.op.ending = none → s.part.trc.state = .playing →
            t.part.trc.op.ending = some (.term .condition) ∧ t.part.trc.state = .settling))
  ∧ (∀ (bytes : List Byte) (seq : Byte) (f : PerTrack Int) (s : State), s.part.hcr.link = .following →
      readRawFrame bytes = some (seq, f) → seq = s.part.hcr.expected → s.part.stopPending = false →
      s.part.hcr.capturing = true → ¬ringHasRoom s.part → policiesAllowed s.setup.policies = true → ∃ t,
        exec (.frameSlot bytes) s = .next t
        ∧ t.rings = s.rings ∧ t.part.hcr.nextIndex = s.part.hcr.nextIndex ∧ t.part.hcr.capturing = false
        ∧ t.part.cmn.overrun.flag = true
        ∧ (s.part.trc.op.kind = .take → s.part.trc.op.ending = none → s.part.trc.state = .playing →
            t.part.trc.op.ending = some (.cause .condition) ∧ t.part.trc.state = .settling ∧ t.part.take.device = .configure
              ∧ ∀ l, Part.tornDown s.setup l s.part t.part))

/-- In FOLLOWING, an empty or bad slot with a run count of 0..3 is replaced by one copy of the last good raw frame; a good frame
with a gap of 1..4 that the run allows is taken after as many copies, and the run returns to 0: under capture the copies stand at
the next raw indexes, the frame after them, and the raw index has advanced by one more than the gap. -/
def Obligations.SlotReplaced : Prop :=
  (∀ (bytes : List Byte) (s : State), s.part.hcr.link = .following → readRawFrame bytes = none → s.part.hcr.run < 4 →
      s.part.stopPending = false → neverStops s.setup.policies.rawHeld → ∃ t, exec (.frameSlot bytes) s = .next t
        ∧ t.part.hcr.link = .following ∧ t.part.hcr.run = s.part.hcr.run + 1 ∧ t.part.hcr.expected = s.part.hcr.expected + 1
        ∧ t.part.hcr.lastGood = s.part.hcr.lastGood ∧ t.part.cmn.rawHeld.present = true
        ∧ (s.part.hcr.capturing = false → t.rings = s.rings ∧ t.part.hcr.nextIndex = s.part.hcr.nextIndex)
        ∧ (s.part.hcr.capturing = true → ringHasRoom s.part → buffersCanonical s = true →
            t.part.hcr.nextIndex = s.part.hcr.nextIndex + 1
              ∧ ∀ tr, t.rings.sample tr s.part.hcr.nextIndex = s.part.hcr.lastGood.get tr))
  ∧ (∀ (bytes : List Byte) (seq : Byte) (f : PerTrack Int) (g : Nat) (s : State), s.part.hcr.link = .following →
      readRawFrame bytes = some (seq, f) → g = (seq - s.part.hcr.expected).toNat → 1 ≤ g → s.part.hcr.run + g ≤ 4 →
      s.part.stopPending = false → ∃ t, exec (.frameSlot bytes) s = .next t
        ∧ t.part.hcr.link = .following ∧ t.part.hcr.lastGood = f ∧ t.part.hcr.expected = seq + 1 ∧ t.part.hcr.run = 0
        ∧ t.part.cmn.rawHeld.present = false
        ∧ (s.part.hcr.capturing = false → t.rings = s.rings ∧ t.part.hcr.nextIndex = s.part.hcr.nextIndex)
        ∧ (s.part.hcr.capturing = true → buffersCanonical s = true → framesNeverStop s.setup →
            (∀ l, (s.part.lanes.get l).state ≠ .idle →
              s.part.hcr.nextIndex + g + 32 < (s.part.lanes.get l).acc / 16777216 + 65536) →
            t.part.hcr.nextIndex = s.part.hcr.nextIndex + g + 1
              ∧ ∀ tr, (∀ j < g, t.rings.sample tr ((s.part.hcr.nextIndex + j : Nat) : Int) = s.part.hcr.lastGood.get tr)
                ∧ t.rings.sample tr ((s.part.hcr.nextIndex + g : Nat) : Int) = f.get tr))

/-- A block's first frame in RUN: the current entry is judged against the stamp, forward at once and back only below its start
minus 8, the governing entries follow, and a block that gives a lane another governing entry posts one SEGMENT_ENTERED. Outside RUN
no frame judges anything. -/
def Obligations.SegmentJudged : Prop :=
  ∀ (bytes : List Byte) (f : PerTrack Int) (b : Nat) (s : State), bringsFrame bytes f s → framesNeverStop s.setup →
    s.part.hcr.nextIndex = 64 * b → ascending s.setup.entries = true → ∃ t, exec (.frameSlot bytes) s = .next t
    ∧ (s.part.take.device ≠ .run → t.part.sgt = s.part.sgt
        ∧ ∀ n : Notice, n.content.kind = .segmentEntered → (n ∈ t.part.msp.notices ↔ n ∈ s.part.msp.notices))
    ∧ (s.part.take.device = .run →
        ∀ (p : Nat) (ahead : Prop) (last : Nat → Entry → Prop) (carrier : Lane → Entry → Entry → Prop) (moved : Lane → Prop),
        p = s.part.pos.position →
        (ahead ↔ ∃ e ∈ s.setup.entries, (∀ c, s.part.sgt.current = some c → c.start < e.start) ∧ e.start ≤ p) →
        (∀ q e, last q e ↔ e ∈ s.setup.entries ∧ e.start ≤ q ∧ ∀ x ∈ s.setup.entries, x.start ≤ q → x.start ≤ e.start) →
        (∀ l c e, carrier l c e ↔ e ∈ s.setup.entries ∧ e.start ≤ c.start ∧ (e.parts.get l).isSome = true
            ∧ ∀ x ∈ s.setup.entries, x.start ≤ c.start → (x.parts.get l).isSome = true → x.start ≤ e.start) →
        (∀ l, moved l ↔ (s.part.sgt.arrival.get l).map Entry.start ≠ (t.part.sgt.arrival.get l).map Entry.start) →
        (ahead → ∃ e, last p e ∧ t.part.sgt.current = some e)
        ∧ (¬ahead → s.part.sgt.current = none → t.part.sgt.current = none)
        ∧ (¬ahead → ∀ c, s.part.sgt.current = some c →
            (c.start ≤ p + 8 → t.part.sgt.current = some c)
            ∧ (p + 8 < c.start → (∀ e, last (p + 8) e → t.part.sgt.current = some e)
                ∧ ((∀ e, ¬last (p + 8) e) → t.part.sgt.current = none)))
        ∧ (t.part.sgt.current = none → t.part.sgt.arrival = ⟨none, none⟩)
        ∧ (∀ c l, t.part.sgt.current = some c → (∀ e, carrier l c e → t.part.sgt.arrival.get l = some e)
            ∧ ((∀ e, ¬carrier l c e) → t.part.sgt.arrival.get l = none))
        ∧ (∀ lanes : LaneSet, (moved .a ∧ moved .b → lanes = .both) → (moved .a ∧ ¬moved .b → lanes = .a) →
            (¬moved .a ∧ moved .b → lanes = .b) → moved .a ∨ moved .b → ∃ n ∈ t.part.msp.notices,
            n.content = .segmentEntered lanes (t.part.sgt.current.map fun e => (e.start, e.label)) (64 * b) p)
        ∧ (¬moved .a → ¬moved .b →
            ∀ n : Notice, n.content.kind = .segmentEntered → (n ∈ t.part.msp.notices ↔ n ∈ s.part.msp.notices)))

/-- A lane transition at the block that gives the lane another governing entry: the SETTINGS entry in the lane's timeline before any
STEP, the tracker with its new settings (restarted in SEARCH, stopped at N, or stopped, where source or f_ref differ), the aligner
half with a new window, the detectors of both tracks blanked under their new settings, and the settings word if the pair
differs. A change of lock state posts LOCK_CHANGED with the block's first raw index. A restart zeroes the filter and disarms the
detector before the block's first frame is read; the clauses give both as that frame leaves them. A tracker whose source and f_ref
stay keeps everything but its settings and the coefficients they give. (Log 29: when the settings word is due. Log 23: at a
transition to NOMINAL or OFF the open measurement and the two timers are absent, the model's reading of a tracker that stops.) -/
def Obligations.LaneTransition : Prop :=
  (∀ (bytes : List Byte) (f : PerTrack Int) (b : Nat) (l : Lane) (s : State), bringsFrame bytes f s → framesNeverStop s.setup →
      setupLegal s = true → s.part.hcr.nextIndex = 64 * b → s.part.take.device = .run → ∃ t, exec (.frameSlot bytes) s = .next t
      ∧ ((s.part.sgt.arrival.get l).map Entry.start ≠ (t.part.sgt.arrival.get l).map Entry.start → ∀ new : Settings,
          new = ((t.part.sgt.arrival.get l).bind fun e => e.parts.get l).getD Settings.defaults →
          (∃ steps : List TimelineEntry, (∀ e ∈ steps, ∃ stamp v, e = ⟨stamp, .step v⟩)
              ∧ (new.source = .nominal →
                  ¬(new.source = (s.part.rft.get l).settings.source ∧ new.fRef = (s.part.rft.get l).settings.fRef) →
                  steps.head? = some ⟨64 * b, .step s.setup.rates.nominal⟩)
              ∧ t.part.lanes.get l = steps.foldl (Producer.post s.setup.rates) ((s.part.lanes.get l).post s.setup.rates
                  ⟨64 * b, .settings ((t.part.sgt.arrival.get l).map Entry.start) new⟩))
          ∧ (t.part.rft.get l).settings = new ∧ (t.part.rft.get l).coeffs = filterFor s.setup.rates new
          ∧ (¬(new.source = (s.part.rft.get l).settings.source ∧ new.fRef = (s.part.rft.get l).settings.fRef) →
              (t.part.rft.get l).meas = none ∧ (t.part.rft.get l).hold = none ∧ (t.part.rft.get l).ramp = none
              ∧ (new.source.isMeasured = true → (t.part.rft.get l).lock = .search
                  ∧ (t.part.rft.get l).step = (s.part.rft.get l).step ∧ (t.part.rft.get l).acquire = 0
                  ∧ (t.part.rft.get l).missCount = 0 ∧ (t.part.rft.get l).origin = 64 * b)
              ∧ (new.source = .nominal → (t.part.rft.get l).lock = .idle
                  ∧ (t.part.rft.get l).step = s.setup.rates.nominal)
              ∧ (new.source = .off → (t.part.rft.get l).lock = .idle ∧ (t.part.rft.get l).step = (s.part.rft.get l).step)
              ∧ (t.part.cmn.range.get l).present = false
              ∧ ((s.part.rft.get l).lock = .fallback → (t.part.cmn.lockLost.get l).present = false)
              ∧ ((s.part.rft.get l).lock ≠ (t.part.rft.get l).lock → ∃ n ∈ t.part.msp.notices,
                  n.content = .lockChanged l (s.part.rft.get l).lock (t.part.rft.get l).lock (some (64 * b)) (t.part.rft.get l).step)
              ∧ ((s.part.rft.get l).lock = (t.part.rft.get l).lock → ∀ n : Notice,
                  n.content.kind = (match l with | .a => .lockChangedA | .b => .lockChangedB) →
                  (n ∈ t.part.msp.notices ↔ n ∈ s.part.msp.notices))
              ∧ (new.source.isMeasured = true →
                  (new.source = .tach ∨ (s.part.rft.get l).mode = .none → (t.part.rft.get l).filter = ⟨0, 0, 0, 0⟩
                    ∧ (t.part.rft.get l).armed = false ∧ (t.part.rft.get l).last = 0)
                  ∧ (new.source ≠ .tach → (s.part.rft.get l).mode ≠ .none → ∀ sum y : Int,
                      sum = f.get l.first + f.get l.second →
                      y = clampInt (-16777216) 16777215 ((filterFor s.setup.rates new).b0 * sum / 1073741824) →
                      (t.part.rft.get l).filter = ⟨sum, 0, y, 0⟩ ∧ (t.part.rft.get l).last = y
                      ∧ ((t.part.rft.get l).armed = true ↔ y < -(new.gate : Int)))))
          ∧ t.part.aza.get l = { s.part.aza.get l with
              mode := new.azMode, fixedOffset := new.fixedOffset, theta := new.theta, ka := new.ka,
              estimate := if new.azMode = .track then (s.part.aza.get l).estimate else new.fixedOffset,
              window := if new.azMode = .fixed then none else some ⟨64 * b, List.replicate 33 0, 0, 0⟩ }
          ∧ (∀ tr : Track, tr.lane = l → ∀ d : Detector, d = { s.part.det.get tr with
                settings := ⟨new.policy, new.depth, new.release, new.onset, new.releaseCount, new.blanking⟩,
                blank := new.blanking } →
              (new.policy ≠ .off → t.part.con.get tr = s.part.con.get tr
                ∧ (0 < new.blanking → d.state = .onset →
                    t.part.det.get tr = { d with state := .clear, run := 0, pendingStart := none })
                ∧ (¬(0 < new.blanking ∧ d.state = .onset) → t.part.det.get tr = d))
              ∧ (new.policy = .off →
                  t.part.det.get tr = { d with state := .clear, run := 0, pendingStart := none, openDropout := none }
                  ∧ (d.openDropout = none → t.part.con.get tr = s.part.con.get tr)
                  ∧ ∀ o run, d.openDropout = some o → run = (if d.state = .releasing then d.run else 0) →
                      t.part.con.get tr = { s.part.con.get tr with spans := (s.part.con.get tr).spans.map fun x =>
                        if x.last = none then { x with last := some (64 * b - 1), length := min 65535 (o.length + run),
                                                       least := o.least, truncated := false } else x }))
          ∧ ∀ pair : EqPair, pair = ⟨(((t.part.sgt.arrival.a).bind fun e => e.parts.a).getD Settings.defaults).eq,
                (((t.part.sgt.arrival.b).bind fun e => e.parts.b).getD Settings.defaults).eq⟩ →
              ∀ latest : Option EqPair,
              latest = ((s.part.hcr.wordWaiting.or s.part.hcr.wordSending).or s.part.hcr.wordLast) →
              (latest = some pair → t.part.hcr.wordSending = s.part.hcr.wordSending
                ∧ t.part.hcr.wordWaiting = s.part.hcr.wordWaiting)
              ∧ (latest ≠ some pair → s.part.hcr.wordSending = none → t.part.hcr.wordSending = some pair
                ∧ t.part.hcr.wordWaiting = s.part.hcr.wordWaiting)
              ∧ (latest ≠ some pair → s.part.hcr.wordSending ≠ none → t.part.hcr.wordSending = s.part.hcr.wordSending
                ∧ t.part.hcr.wordWaiting = some pair)))
  ∧ ∀ (u : Setup) (l : Lane) (new : Settings) (index : Nat) (p : Part), new.source = (p.rft.get l).settings.source →
      new.fRef = (p.rft.get l).settings.fRef → p.trackerTransition u l new index
        = { p with rft := p.rft.set l { p.rft.get l with settings := new, coeffs := filterFor u.rates new } }

/-- The frame that completes a block: the level of each track whose detector runs is the greatest magnitude of the block's 64
samples as written, and the detector judges it by the table of R139, with blanking counted down. A tracker that enters LOCKED in
the same event starts blanking before the block is judged: R136 allows either order, and the model takes the lock first
(log 7). At the end of a take the detector stops and closes an open dropout as truncated. -/
def Obligations.DetectorJudges : Prop :=
  (∀ (bytes : List Byte) (f : PerTrack Int) (b : Nat) (tr : Track) (s : State), bringsFrame bytes f s → framesNeverStop s.setup →
      s.part.hcr.nextIndex = 64 * b + 63 → (s.part.det.get tr).running = true →
      ((s.part.rft.get tr.lane).settings.source.isMeasured = true → 0 < (s.part.rft.get tr.lane).span s.setup) →
      ∃ t level d, exec (.frameSlot bytes) s = .next t
        ∧ (∀ k < 64, (t.rings.sample tr ((64 * b + k : Nat) : Int)).natAbs ≤ level)
        ∧ (∃ k < 64, (t.rings.sample tr ((64 * b + k : Nat) : Int)).natAbs = level)
        ∧ (¬((s.part.rft.get tr.lane).lock ≠ .locked ∧ (t.part.rft.get tr.lane).lock = .locked) → d = s.part.det.get tr)
        ∧ ((s.part.rft.get tr.lane).lock ≠ .locked → (t.part.rft.get tr.lane).lock = .locked →
            ∀ blank, blank = (s.part.det.get tr).settings.blanking →
            (0 < blank → (s.part.det.get tr).state = .onset →
              d = { s.part.det.get tr with blank := blank, state := .clear, run := 0, pendingStart := none })
            ∧ (¬(0 < blank ∧ (s.part.det.get tr).state = .onset) → d = { s.part.det.get tr with blank := blank }))
        ∧ (d.settings.policy = .off → t.part.det.get tr = { d with level := level } ∧ t.part.con.get tr = s.part.con.get tr)
        ∧ (d.settings.policy ≠ .off →
          ∀ (low release : Prop) (spans : List Span) (after : Detector → List Span → Prop)
            (confirmed : PendingStart → Nat → Prop) (ended : OpenDropout → Nat → Prop),
          (low ↔ level * 256 < d.ref * d.settings.depth) → (release ↔ d.ref * d.settings.release ≤ level * 256) →
          spans = (s.part.con.get tr).spans →
          (∀ d' spans', after d' spans' ↔ t.part.det.get tr = { d' with level := level, blank := d.blank - 1 }
              ∧ t.part.con.get tr = { s.part.con.get tr with spans := spans' }) →
          (∀ ps n, confirmed ps n ↔ after
              { d with state := .dropped, run := 0, pendingStart := none,
                       openDropout := some ⟨ps.block, ps.stamp, ps.label, ps.least, n⟩ }
              (spans ++ [⟨64 * ps.block, none, s.part.take.number, tr, ps.stamp, ps.label, n, ps.least, d.ref, false,
                ⟨false, false, false⟩, none, none⟩])) →
          (∀ o n, ended o n ↔ after { d with state := .clear, run := 0, openDropout := none }
              (spans.map fun x => if x.last = none then
                { x with last := some (64 * (b - n) + 63), length := o.length, least := o.least, truncated := false } else x)) →
          (d.state = .clear →
              (low → 0 < d.blank → after d spans)
              ∧ (low → d.blank = 0 → ∀ ps : PendingStart,
                  ps = ⟨b, s.rings.stamp b, (s.part.sgt.current.map Entry.label).getD 0, level⟩ →
                  (d.settings.onset ≤ 1 → confirmed ps 1)
                  ∧ (1 < d.settings.onset → after { d with state := .onset, run := 1, pendingStart := some ps } spans))
              ∧ (¬low → 0 < d.blank → after d spans)
              ∧ (¬low → d.blank = 0 → d.ref = 0 → after { d with ref := level } spans)
              ∧ (¬low → d.blank = 0 → 0 < d.ref →
                  after { d with ref := ((d.ref : Int) + ((level : Int) - d.ref) / 64).toNat } spans))
          ∧ (∀ ps, d.state = .onset → d.pendingStart = some ps →
              (low → d.settings.onset ≤ d.run + 1 → confirmed { ps with least := min ps.least level } (d.run + 1))
              ∧ (low → d.run + 1 < d.settings.onset →
                  after { d with run := d.run + 1, pendingStart := some { ps with least := min ps.least level } } spans)
              ∧ (¬low → after { d with state := .clear, run := 0, pendingStart := none } spans))
          ∧ (∀ o, d.state = .dropped → d.openDropout = some o →
              (release → d.settings.releaseCount ≤ 1 → ended o 1)
              ∧ (release → 1 < d.settings.releaseCount → after { d with state := .releasing, run := 1 } spans)
              ∧ (¬release →
                  after { d with openDropout := some { o with length := min 65535 (o.length + 1), least := min o.least level } } spans))
          ∧ (∀ o, d.state = .releasing → d.openDropout = some o →
              (release → d.settings.releaseCount ≤ d.run + 1 → ended o (d.run + 1))
              ∧ (release → d.run + 1 < d.settings.releaseCount → after { d with run := d.run + 1 } spans)
              ∧ (¬release → after { d with
                  state := .dropped, run := 0,
                  openDropout := some { o with length := min 65535 (o.length + (d.run + 1)), least := min o.least level } } spans))))
  ∧ (∀ (tag : Byte) (tr : Track) (s : State), s.part.ready = true → s.part.stopPending = false → s.part.take.device ≠ .standby →
      s.part.trc.op.kind = .take → s.part.trc.op.ending = none → ∃ t, exec (.stop tag) s = .next t
        ∧ t.part.det.get tr = { s.part.det.get tr with
            running := false, blank := 0, state := .clear, run := 0, pendingStart := none, openDropout := none }
        ∧ ∀ e, s.part.hcr.nextIndex = e + 1 → s.part.take.record ≠ none →
            ((s.part.lanes.get tr.lane).state = .active → (s.part.lanes.get tr.lane).acc / 16777216 + 32 ≤ e) →
            ((s.part.det.get tr).openDropout = none → t.part.con.get tr = s.part.con.get tr)
            ∧ ∀ o, (s.part.det.get tr).openDropout = some o → t.part.con.get tr = { s.part.con.get tr with
                spans := (s.part.con.get tr).spans.map fun x => if x.last = none then
                  { x with last := some e, length := min 65535 (e / 64 - o.block + 1), least := o.least, truncated := true } else x })

/-- SETTINGS_WORD_SENT: the word being sent becomes the word last sent, and a waiting word begins to be sent. A settings word is two bytes:
the two equalisations in bits 0 and 1, and the check byte. TACH_MEASUREMENT_COMPLETE: the sixteenth tick completes the tach measurement,
whatever the lane's lock state, and opens the next. (SETTINGS_WORD_SENT with no word being sent changes nothing: log 6, the model's choice.)
-/
def Obligations.WordSentAndTachMeasurement : Prop :=
  (∀ s : State,
      (∀ w, s.part.hcr.wordSending = some w → exec .settingsWordSent s
        = .next { s with part := { s.part with hcr := { s.part.hcr with
            wordLast := some w, wordSending := s.part.hcr.wordWaiting, wordWaiting := none } } })
      ∧ (s.part.hcr.wordSending = none → exec .settingsWordSent s = .next s))
  ∧ (∀ w : EqPair, ∃ b : Byte, settingsWordBytes w = [b, 0 - b]
      ∧ (b.getLsbD 0 = true ↔ w.a = .us70) ∧ (b.getLsbD 1 = true ↔ w.b = .us70) ∧ ∀ i, 2 ≤ i → b.getLsbD i = false)
  ∧ (∀ (l : Lane) (s : State) (o : TachOpen), (s.part.rft.get l).tachOpen = some o → 16 ≤ o.counted →
      exec (.tachMeasurementComplete l) s
        = .next { s with part := { s.part with rft := s.part.rft.set l { s.part.rft.get l with
            tachLast := some ⟨o.lastStamp - o.t0, o.lastStamp / 256⟩, tachOpen := some ⟨o.lastStamp, 0, o.lastStamp⟩ } } })

/-! ## Trackers and aligner -/

/-- A frame written inside a block reaches the tracker of a lane whose source is in the audio tracks: the filter moves on by one,
the crossing detector arms below the gate and counts the rise through zero, its timestamp is interpolated, and the crossing
opens a measurement, counts in the open one, or closes it and opens the next. What then falls due at the frame is done in the same
event, and leaves the lane as its rows do one after another on the part that has read the frame: the measurement that the crossing
completes, the timeout, the hold timer, the ramp timer, and the aligner half's window (log 4: that FRAME_SLOT performs what falls due,
and that the rows are then no longer due, is the model's reading; log 7: the order of the timers). The filter coefficients are the ones
the tracker holds; how they are worked out is log 13. -/
def Obligations.TrackerCrossing : Prop :=
  (∀ (bytes : List Byte) (f : PerTrack Int) (l : Lane) (n c : Nat) (T : Tracker) (sum y : Int) (counted : Prop) (s : State),
    bringsFrame bytes f s → framesNeverStop s.setup → n = s.part.hcr.nextIndex → n % 64 ≠ 0 → T = s.part.rft.get l →
    T.settings.source.isAudio = true → (T.mode = .take ∨ T.mode = .survey) → c = T.settings.c →
    0 < c * s.setup.rates.fr * 16 / T.settings.fRef → sum = f.get l.first + f.get l.second →
    y = clampInt (-16777216) 16777215 ((T.coeffs.b0 * sum + T.coeffs.b1 * T.filter.x1 + T.coeffs.b2 * T.filter.x2
      - T.coeffs.g1 * T.filter.y1 - T.coeffs.g2 * T.filter.y2) / 1073741824) →
    (counted ↔ T.armed = true ∧ T.last < 0 ∧ 0 ≤ y) → ∃ t, exec (.frameSlot bytes) s = .next t
      ∧ (t.part.rft.get l).filter = ⟨sum, T.filter.x1, y, T.filter.y1⟩ ∧ (t.part.rft.get l).last = y
      ∧ (counted → (t.part.rft.get l).armed = false ∧ ∀ (stamp : Nat) (opened : Measurement),
          (stamp : Int) = 256 * ((n : Int) - 1) + 256 * -T.last / (y - T.last) →
          opened = ⟨stamp, 0, c, T.settings.fRef, s.setup.rates.nominal - s.setup.rates.nominal * T.settings.w / 1000,
            s.setup.rates.nominal + s.setup.rates.nominal * T.settings.w / 1000, stamp, n⟩ →
          (T.meas = none → (t.part.rft.get l).meas = some opened ∧ (t.part.rft.get l).origin = n)
          ∧ ∀ m, T.meas = some m →
              (m.counted + 1 < m.c → n < T.origin + 2 * (m.c * s.setup.rates.fr * 16 / m.fRef) →
                (t.part.rft.get l).meas = some { m with counted := m.counted + 1, lastStamp := stamp, lastIndex := n }
                  ∧ (t.part.rft.get l).origin = T.origin)
              ∧ (m.c ≤ m.counted + 1 → (t.part.rft.get l).meas = some opened ∧ (t.part.rft.get l).origin = n))
      ∧ (¬counted → ((t.part.rft.get l).armed = true ↔ T.armed = true ∨ y < -(T.settings.gate : Int))
          ∧ (n < T.origin + 2 * (match T.meas with
                | some m => m.c * s.setup.rates.fr * 16 / m.fRef
                | none => c * s.setup.rates.fr * 16 / T.settings.fRef) →
              (t.part.rft.get l).meas = T.meas ∧ (t.part.rft.get l).origin = T.origin)))
  ∧ ∀ (bytes : List Byte) (f : PerTrack Int) (l : Lane) (n stamp : Nat) (T read : Tracker) (sum y : Int) (hears counted : Prop)
      (rows : List Instr) (s : State),
    bringsFrame bytes f s → framesNeverStop s.setup → n = s.part.hcr.nextIndex → T = s.part.rft.get l →
    (hears ↔ T.settings.source.isAudio = true ∧ T.mode ≠ .none) → sum = f.get l.first + f.get l.second →
    y = clampInt (-16777216) 16777215 ((T.coeffs.b0 * sum + T.coeffs.b1 * T.filter.x1 + T.coeffs.b2 * T.filter.x2
      - T.coeffs.g1 * T.filter.y1 - T.coeffs.g2 * T.filter.y2) / 1073741824) →
    (counted ↔ hears ∧ T.armed = true ∧ T.last < 0 ∧ 0 ≤ y) →
    (counted → (stamp : Int) = 256 * ((n : Int) - 1) + 256 * -T.last / (y - T.last)) →
    (¬hears → read = T) →
    (hears → ¬counted → read = { T with
      filter := ⟨sum, T.filter.x1, y, T.filter.y1⟩, last := y, armed := T.armed || decide (y < -(T.settings.gate : Int)) }) →
    (counted → T.meas = none → read = { T with
      filter := ⟨sum, T.filter.x1, y, T.filter.y1⟩, last := y, armed := false, origin := n,
      meas := some ⟨stamp, 0, T.settings.c, T.settings.fRef, s.setup.rates.nominal - s.setup.rates.nominal * T.settings.w / 1000,
        s.setup.rates.nominal + s.setup.rates.nominal * T.settings.w / 1000, stamp, n⟩ }) →
    (∀ m, counted → T.meas = some m → read = { T with
      filter := ⟨sum, T.filter.x1, y, T.filter.y1⟩, last := y, armed := false,
      meas := some { m with counted := m.counted + 1, lastStamp := stamp, lastIndex := n } }) →
    (counted ∧ T.meas ≠ none →
      rows = [.measurementComplete l, .miss l, .holdTimerExpiry l, .rampMove l, .azimuthWindowComplete l]) →
    (¬(counted ∧ T.meas ≠ none) → rows = [.miss l, .holdTimerExpiry l, .rampMove l, .azimuthWindowComplete l]) →
    ∃ t, exec (.frameSlot bytes) s = .next t
      ∧ ((n % 64 ≠ 0 ∨ s.part.take.device ≠ .run
            ∨ (s.part.sgt.arrival.get l).map Entry.start = (t.part.sgt.arrival.get l).map Entry.start) →
          ∀ (half : Aligner) (done : State),
          (half = if (s.part.aza.get l).running then
              { s.part.aza.get l with window := (s.part.aza.get l).window.map (AzimuthWindow.gather t.rings l n) }
            else s.part.aza.get l) →
          done = afterRows { s with part := { s.part with
            hcr := { s.part.hcr with nextIndex := n + 1 }, rft := s.part.rft.set l read, aza := s.part.aza.set l half } } rows →
          t.part.rft.get l = done.part.rft.get l ∧ t.part.lanes.get l = done.part.lanes.get l ∧ t.part.aza.get l = done.part.aza.get l
          ∧ t.part.cmn.lockLost.get l = done.part.cmn.lockLost.get l ∧ t.part.cmn.range.get l = done.part.cmn.range.get l
          ∧ (∀ k : Notice, k.content.kind = (match l with | .a => .lockChangedA | .b => .lockChangedB) →
              (k ∈ t.part.msp.notices ↔ k ∈ done.part.msp.notices))
          ∧ (n % 64 ≠ 63 → ∀ tr : Track, tr.lane = l → t.part.det.get tr = done.part.det.get tr))

/-- A completed in-window measurement: in a survey it is accumulated; in LOCKED it clears the miss counter, moves S by the
smoothed, slewed, clamped difference, posts a STEP entry stamped with its midpoint and reports RANGE; in SEARCH, HOLD and FALLBACK
it counts toward the acquire count, and the one that meets it locks: with its step whole from SEARCH and FALLBACK, by a smoothing
update from HOLD. Its closing crossing opens the next. -/
def Obligations.MeasurementComplete : Prop :=
  ∀ (l : Lane) (s : State) (m : Measurement) (new span acquired : Nat) (T next : Tracker) (stamp : Nat), T = s.part.rft.get l →
    T.meas = some m → m.c ≤ m.counted → s.part.hcr.capturing = true → s.part.stopPending = false → span = m.lastStamp - m.t0 →
    new = (span * m.fRef * 4096 + m.c * s.setup.rates.fo / 2) / (m.c * s.setup.rates.fo) → stamp = (m.t0 + m.lastStamp) / 512 →
    next = { T with meas := some (T.opening s.setup m.lastStamp m.lastIndex), origin := m.lastIndex } →
    acquired = min 15 (T.acquire + 1) →
    (T.mode = .survey → exec (.measurementComplete l) s
      = .next { s with part := { s.part with rft := s.part.rft.set l { next with
          survey := T.survey.measured (decide (m.lo ≤ new ∧ new ≤ m.hi)) span } } })
    ∧ (T.mode = .take → T.settings.source.isMeasured = true → m.lo ≤ new → new ≤ m.hi →
        ((T.lock = .search ∨ T.lock = .hold ∨ T.lock = .fallback) → acquired < T.settings.acquire →
          exec (.measurementComplete l) s = .next { s with part := { s.part with
            rft := s.part.rft.set l { next with missCount := 0, acquire := acquired } } })
        ∧ (∀ moved : Int, moved = (T.step : Int) + clampInt (-(T.settings.slew : Int)) T.settings.slew
              (((new : Int) - T.step) / (2 ^ T.settings.k : Int)) → neverStops (s.setup.policies.range.get l) →
            (T.lock = .locked → ∃ t, exec (.measurementComplete l) s = .next t
              ∧ t.setup = s.setup ∧ t.rings = s.rings ∧ t.bank = s.bank ∧ t.part.pos = s.part.pos ∧ t.part.trc = s.part.trc
              ∧ t.part.rft = s.part.rft.set l { next with missCount := 0, step := (clampInt m.lo m.hi moved).toNat }
              ∧ t.part.lanes = s.part.lanes.set l ((s.part.lanes.get l).post s.setup.rates
                  ⟨stamp, .step (clampInt m.lo m.hi moved).toNat⟩)
              ∧ t.part.det = s.part.det
              ∧ (t.part.cmn.range.get l).present = decide (clampInt m.lo m.hi moved ≠ moved))
            ∧ (T.lock = .hold → T.settings.acquire ≤ acquired → ∃ t, exec (.measurementComplete l) s = .next t
              ∧ t.setup = s.setup ∧ t.rings = s.rings ∧ t.bank = s.bank ∧ t.part.pos = s.part.pos ∧ t.part.trc = s.part.trc
              ∧ t.part.rft = s.part.rft.set l { next with
                  missCount := 0, acquire := acquired, hold := none, ramp := none, lock := .locked,
                  step := (clampInt m.lo m.hi moved).toNat }
              ∧ t.part.lanes = s.part.lanes.set l ((s.part.lanes.get l).post s.setup.rates
                  ⟨stamp, .step (clampInt m.lo m.hi moved).toNat⟩)
              ∧ (∀ tr : Track, tr.lane = l → (t.part.det.get tr).blank = (s.part.det.get tr).settings.blanking)
              ∧ (t.part.cmn.range.get l).present = decide (clampInt m.lo m.hi moved ≠ moved)
              ∧ ∃ n ∈ t.part.msp.notices,
                  n.content = .lockChanged l .hold .locked (some m.lastIndex) (clampInt m.lo m.hi moved).toNat))
        ∧ ((T.lock = .search ∨ T.lock = .fallback) → T.settings.acquire ≤ acquired → ∃ t,
            exec (.measurementComplete l) s = .next t
            ∧ t.setup = s.setup ∧ t.rings = s.rings ∧ t.bank = s.bank ∧ t.part.pos = s.part.pos ∧ t.part.trc = s.part.trc
            ∧ t.part.rft = s.part.rft.set l { next with
                missCount := 0, acquire := acquired, hold := none, ramp := none, lock := .locked, step := new }
            ∧ t.part.lanes = s.part.lanes.set l ((s.part.lanes.get l).post s.setup.rates ⟨stamp, .step new⟩)
            ∧ (∀ tr : Track, tr.lane = l → (t.part.det.get tr).blank = (s.part.det.get tr).settings.blanking)
            ∧ (t.part.cmn.range.get l).present = false ∧ (t.part.cmn.lockLost.get l).present = false
            ∧ t.part.msp.notices = postNotice (.lockChanged l T.lock .locked (some m.lastIndex) new) s.part.msp.notices))

/-- A timeout of twice P_span is a MISS: the open measurement is abandoned and the timeout runs anew; a survey's total rises. In a
take a MISS, and an out-of-window measurement at its closing crossing, set the acquire counter to 0 and raise the miss counter;
in LOCKED the one that reaches the miss count enters HOLD, or FALLBACK at once where the hold time is 0. -/
def Obligations.Miss : Prop :=
  (∀ (l : Lane) (s : State) (n : Nat), s.part.hcr.capturing = true → s.part.stopPending = false →
    s.part.hcr.nextIndex = n + 1 → (s.part.rft.get l).origin + 2 * (s.part.rft.get l).timeoutSpan s.setup ≤ n →
    (s.part.rft.get l).mode = .survey → exec (.miss l) s
      = .next { s with part := { s.part with rft := s.part.rft.set l { s.part.rft.get l with
          meas := none, origin := n,
          survey := { (s.part.rft.get l).survey with total := (s.part.rft.get l).survey.total + 1 } } } })
  ∧ ∀ (l : Lane) (s : State) (n missed : Nat) (row : Instr) (T base : Tracker), T = s.part.rft.get l →
    s.part.hcr.capturing = true → s.part.stopPending = false → T.mode = .take → T.settings.source.isMeasured = true →
    (row = .miss l ∧ s.part.hcr.nextIndex = n + 1 ∧ T.origin + 2 * T.timeoutSpan s.setup ≤ n
        ∧ base = { T with meas := none, origin := n }
      ∨ row = .measurementComplete l ∧ ∃ m new, T.meas = some m ∧ m.c ≤ m.counted ∧ n = m.lastIndex
        ∧ new = ((m.lastStamp - m.t0) * m.fRef * 4096 + m.c * s.setup.rates.fo / 2) / (m.c * s.setup.rates.fo)
        ∧ (new < m.lo ∨ m.hi < new)
        ∧ base = { T with meas := some (T.opening s.setup m.lastStamp m.lastIndex), origin := m.lastIndex }) →
    missed = min 15 (T.missCount + 1) →
    ((T.lock ≠ .locked ∨ missed < T.settings.missCount) → exec row s
      = .next { s with part := { s.part with rft := s.part.rft.set l { base with acquire := 0, missCount := missed } } })
    ∧ (T.lock = .locked → T.settings.missCount ≤ missed → T.settings.hold ≠ 0 → exec row s
      = .next { s with part := { s.part with
          rft := s.part.rft.set l { base with acquire := 0, missCount := missed, lock := .hold, hold := some n },
          cmn := { s.part.cmn with lockLost := s.part.cmn.lockLost.set l { s.part.cmn.lockLost.get l with
            present := false,
            flag := (s.part.cmn.lockLost.get l).flag
              && !((s.part.cmn.lockLost.get l).present && (s.setup.policies.lockLost.get l).policy == .auto) } },
          msp := { s.part.msp with
            notices := postNotice (.lockChanged l .locked .hold (some n) T.step) s.part.msp.notices } } })
    ∧ (T.lock = .locked → T.settings.missCount ≤ missed → T.settings.hold = 0 →
        neverStops (s.setup.policies.lockLost.get l) →
        ∀ step, step = rampTo T.step T.settings.slew (T.target s.setup n) → ∃ t, exec row s = .next t
        ∧ t.setup = s.setup ∧ t.rings = s.rings ∧ t.bank = s.bank ∧ t.part.trc = s.part.trc ∧ t.part.pos = s.part.pos
        ∧ t.part.rft = s.part.rft.set l { base with
            acquire := 0, missCount := missed, lock := .fallback, hold := none, ramp := some (n + T.span s.setup), step := step }
        ∧ t.part.lanes = s.part.lanes.set l ((s.part.lanes.get l).post s.setup.rates ⟨n, .step step⟩)
        ∧ (t.part.cmn.lockLost.get l).present = true
        ∧ ∃ notice ∈ t.part.msp.notices, notice.content = .lockChanged l .locked .fallback (some n) step)

/-- The hold timer's expiry enters FALLBACK: one ramp move, the ramp timer one P_span ahead, and LOCK_LOST present. RAMP_MOVE: when
the ramp timer is reached, S moves toward the fallback target by at most the slew limit, a STEP entry is posted, and the timer
advances by P_span. The target is the tach step, clamped to the window, while the latest tach measurement is younger than Fr raw
samples, and otherwise N; P_span is C cycles of the reference, which for TACH are 16 ticks. -/
def Obligations.FallbackRamp : Prop :=
  (∀ (l : Lane) (s : State) (start n : Nat), (s.part.rft.get l).lock = .hold → (s.part.rft.get l).hold = some start →
      s.part.hcr.nextIndex = n + 1 → start + (s.part.rft.get l).settings.hold * (s.setup.rates.fr / 100) ≤ n →
      s.part.stopPending = false → neverStops (s.setup.policies.lockLost.get l) → ∀ step : Nat,
      step = rampTo (s.part.rft.get l).step (s.part.rft.get l).settings.slew ((s.part.rft.get l).target s.setup n) → ∃ t,
        exec (.holdTimerExpiry l) s = .next t
        ∧ t.setup = s.setup ∧ t.rings = s.rings ∧ t.part.trc = s.part.trc ∧ t.part.pos = s.part.pos
        ∧ t.part.rft = s.part.rft.set l { s.part.rft.get l with
            lock := .fallback, acquire := 0, hold := none, ramp := some (n + (s.part.rft.get l).span s.setup), step := step }
        ∧ t.part.lanes = s.part.lanes.set l ((s.part.lanes.get l).post s.setup.rates ⟨n, .step step⟩)
        ∧ (t.part.cmn.lockLost.get l).present = true)
  ∧ (∀ (l : Lane) (s : State) (due n target step : Nat), (s.part.rft.get l).lock = .fallback →
      (s.part.rft.get l).ramp = some due → s.part.hcr.nextIndex = n + 1 → due ≤ n →
      target = (s.part.rft.get l).target s.setup n →
      ((s.part.rft.get l).step ≤ target → step = min target ((s.part.rft.get l).step + (s.part.rft.get l).settings.slew)) →
      (target ≤ (s.part.rft.get l).step → step = max target ((s.part.rft.get l).step - (s.part.rft.get l).settings.slew)) →
      exec (.rampMove l) s
        = .next { s with part := { s.part with
            rft := s.part.rft.set l { s.part.rft.get l with ramp := some (due + (s.part.rft.get l).span s.setup), step := step },
            lanes := s.part.lanes.set l ((s.part.lanes.get l).post s.setup.rates ⟨n, .step step⟩) } })
  ∧ (∀ (u : Setup) (T : Tracker) (n : Nat),
      (∀ (last : TachLast) (v lo hi : Nat), T.tachLast = some last → n < last.index + u.rates.fr →
          v = (last.span * u.deck.tickRate * 4096 + 16 * u.rates.fo / 2) / (16 * u.rates.fo) →
          lo = u.rates.nominal - u.rates.nominal * T.settings.w / 1000 →
          hi = u.rates.nominal + u.rates.nominal * T.settings.w / 1000 →
          (v < lo → T.target u n = lo) ∧ (lo ≤ v → v ≤ hi → T.target u n = v) ∧ (hi < v → T.target u n = hi))
      ∧ ((∀ last, T.tachLast = some last → last.index + u.rates.fr ≤ n) → T.target u n = u.rates.nominal))
  ∧ (∀ step slew target : Nat, (step ≤ target → rampTo step slew target = min target (step + slew))
      ∧ (target ≤ step → rampTo step slew target = max target (step - slew)))
  ∧ ∀ (u : Setup) (T : Tracker),
      (T.settings.source = .tach → T.span u = 16 * u.rates.fr * 16 / u.deck.tickRate)
      ∧ (T.settings.source ≠ .tach → T.span u = T.settings.c * u.rates.fr * 16 / T.settings.fRef)
      ∧ (T.meas = none → T.timeoutSpan u = T.span u)
      ∧ ∀ m, T.meas = some m → T.timeoutSpan u = m.c * u.rates.fr * 16 / m.fRef

/-- An azimuth window. Each frame within it adds its products to the window's sums, and over its 2,048 frames they come to the correlations
and energies of R123. The frame that writes the last of them completes the window in its own event, as AZIMUTH_WINDOW_COMPLETE does (log 4),
behind whatever STEP entries the lane's tracker posts there (log 7, the model's choice: the tracker acts before the aligner half, which shows
at a full timeline). (Log 14: when a product joins its sum.) A complete window: a rejected one leaves the estimate, an accepted one moves it
by the smoothed difference within -4,096..4,096 and posts it at the window's middle; the next window opens where this one ended. -/
def Obligations.AzimuthWindows : Prop :=
  (∀ (l : Lane) (s : State) (w : AzimuthWindow) (x : Aligner) (next : AzimuthWindow), x = s.part.aza.get l → x.window = some w →
    x.running = true → w.start + 2048 ≤ s.part.hcr.nextIndex → next = ⟨w.start + 2048, List.replicate 33 0, 0, 0⟩ →
    (windowEstimate w x.theta = none →
      exec (.azimuthWindowComplete l) s
        = .next { s with part := { s.part with aza := s.part.aza.set l { x with window := some next } } })
    ∧ ∀ e : Int, windowEstimate w x.theta = some e → ∀ az : Int,
      az = clampInt (-4096) 4096 (x.estimate + (e - x.estimate) / (2 ^ x.ka : Int)) →
      exec (.azimuthWindowComplete l) s
        = .next { s with part := { s.part with
            aza := s.part.aza.set l { x with window := some next, estimate := az },
            lanes := s.part.lanes.set l ((s.part.lanes.get l).post s.setup.rates ⟨w.start + 1024, .azimuth az⟩) } })
  ∧ (∀ (bytes : List Byte) (f : PerTrack Int) (l : Lane) (n : Nat) (w : AzimuthWindow) (s : State), bringsFrame bytes f s →
      framesNeverStop s.setup → n = s.part.hcr.nextIndex → (s.part.aza.get l).running = true →
      (s.part.aza.get l).window = some w → w.start ≤ n → ∃ t, exec (.frameSlot bytes) s = .next t
        ∧ ((n % 64 ≠ 0 ∨ s.part.take.device ≠ .run
              ∨ (s.part.sgt.arrival.get l).map Entry.start = (t.part.sgt.arrival.get l).map Entry.start) →
          (n + 1 < w.start + 2048 → t.part.aza.get l = { s.part.aza.get l with window := some (w.gather t.rings l n) })
          ∧ (n + 1 = w.start + 2048 → ∀ (x : Aligner) (full next : AzimuthWindow), x = s.part.aza.get l →
              full = w.gather t.rings l n → next = ⟨w.start + 2048, List.replicate 33 0, 0, 0⟩ →
              ∃ steps : List TimelineEntry, (∀ e ∈ steps, ∃ stamp v, e = ⟨stamp, .step v⟩)
                ∧ (windowEstimate full x.theta = none → t.part.aza.get l = { x with window := some next }
                  ∧ t.part.lanes.get l = steps.foldl (Producer.post s.setup.rates) (s.part.lanes.get l))
                ∧ ∀ e : Int, windowEstimate full x.theta = some e → ∀ az : Int,
                    az = clampInt (-4096) 4096 (x.estimate + (e - x.estimate) / (2 ^ x.ka : Int)) →
                    t.part.aza.get l = { x with window := some next, estimate := az }
                    ∧ t.part.lanes.get l = (steps.foldl (Producer.post s.setup.rates) (s.part.lanes.get l)).post s.setup.rates
                        ⟨w.start + 1024, .azimuth az⟩)))
  ∧ (∀ (rings : Rings) (l : Lane) (start : Nat) (w : AzimuthWindow) (first second : Int → Int),
      w = (List.range 2048).foldl (fun w k => w.gather rings l (start + k)) ⟨start, List.replicate 33 0, 0, 0⟩ →
      (∀ n, first n = rings.sample l.first n) → (∀ n, second n = rings.sample l.second n) →
      w.start = start
      ∧ (∀ m < 33, w.lag m = ((List.range 2016).map fun k => first ((start + 16 + k : Nat) : Int)
          * second (((start + 16 + k : Nat) : Int) + ((m : Int) - 16))).sum)
      ∧ w.e1 = ((List.range 2016).map fun k => first ((start + 16 + k : Nat) : Int) ^ 2).sum
      ∧ w.e2 = ((List.range 2016).map fun k => second ((start + 16 + k : Nat) : Int) ^ 2).sum)
  ∧ ∀ (w : AzimuthWindow) (theta : Nat) (l : Int) (c : Int → Int), (∀ m : Int, -16 ≤ m → m ≤ 16 → c m = w.lag (m + 16).toNat) →
      -16 ≤ l → l ≤ 16 →
      (∀ m, -16 ≤ m → m ≤ 16 → c m < c l ∨ c m = c l ∧ (l.natAbs < m.natAbs ∨ l.natAbs = m.natAbs ∧ l ≤ m)) →
      ((l = -16 ∨ l = 16 ∨ c l ≤ 0 ∨ c l ^ 2 * 65536 < (theta : Int) ^ 2 * w.e1 * w.e2) → windowEstimate w theta = none)
      ∧ (-16 < l → l < 16 → 0 < c l → (theta : Int) ^ 2 * w.e1 * w.e2 ≤ c l ^ 2 * 65536 → ∀ q : Int,
          q = c (l - 1) - 2 * c l + c (l + 1) →
          (q = 0 → windowEstimate w theta = some (256 * l))
          ∧ (q < 0 → windowEstimate w theta = some (256 * l
              + clampInt (-128) 128 ((2 * (256 * (c (l + 1) - c (l - 1))) + 2 * -q) / (2 * (2 * -q))))))

/-- What the events of the trackers and the aligner leave alone: everything commands configure, the buffers, the position,
the link, the upstream side and the replies. -/
def Obligations.ArrivalFrame : Prop :=
  ∀ (l : Lane) (i : Instr) (s t : State),
    i ∈ [Instr.measurementComplete l, .miss l, .tachMeasurementComplete l, .holdTimerExpiry l, .rampMove l,
      .azimuthWindowComplete l] → exec i s = .next t →
    t.setup = s.setup ∧ t.rings = s.rings ∧ t.bank = s.bank ∧ t.pending = s.pending ∧ t.part.pos = s.part.pos
      ∧ t.part.osc = s.part.osc ∧ t.part.timebase = s.part.timebase ∧ t.part.msp.replies = s.part.msp.replies
      ∧ t.part.msp.assembler = s.part.msp.assembler ∧ t.part.take.number = s.part.take.number
      ∧ t.part.hcr.link = s.part.hcr.link ∧ t.part.hcr.expected = s.part.hcr.expected ∧ t.part.hcr.run = s.part.hcr.run
      ∧ t.part.hcr.lastGood = s.part.hcr.lastGood ∧ t.part.hcr.nextIndex = s.part.hcr.nextIndex

/-! ## The transport -/

/-- A tick: its direction comes from the level of the other phase, the position moves by one and saturates UNREFERENCED, and
the phase that changed has its new level. A change of both phases is no tick: only the phase levels change. -/
def Obligations.TickCounts : Prop :=
  (∀ (phase : Phase) (now : Nat) (s : State) (forward : Bool),
      (forward = match phase with
        | .one => !s.part.pos.phase1 != s.part.pos.phase2
        | .two => !s.part.pos.phase2 == s.part.pos.phase1) → ∃ t,
        exec (.tick phase now) s = .next t
        ∧ t.setup = s.setup ∧ t.rings = s.rings ∧ t.bank = s.bank ∧ t.part.osc = s.part.osc
        ∧ t.part.msp.replies = s.part.msp.replies ∧ t.part.hcr.link = s.part.hcr.link
        ∧ t.part.pos.phase1 = (if phase = .one then !s.part.pos.phase1 else s.part.pos.phase1)
        ∧ t.part.pos.phase2 = (if phase = .two then !s.part.pos.phase2 else s.part.pos.phase2)
        ∧ t.part.pos.cassette = s.part.pos.cassette
        ∧ (forward = true → s.part.pos.position < 16777215 →
            t.part.pos.position = s.part.pos.position + 1 ∧ t.part.pos.referenced = s.part.pos.referenced)
        ∧ (forward = true → s.part.pos.position = 16777215 → t.part.pos.position = 16777215 ∧ t.part.pos.referenced = false)
        ∧ (forward = false → 0 < s.part.pos.position →
            t.part.pos.position = s.part.pos.position - 1 ∧ t.part.pos.referenced = s.part.pos.referenced)
        ∧ (forward = false → s.part.pos.position = 0 → t.part.pos.position = 0 ∧ t.part.pos.referenced = false))
  ∧ (∀ s : State, exec .bothPhasesChange s
      = .next { s with part := { s.part with
          pos := { s.part.pos with phase1 := !s.part.pos.phase1, phase2 := !s.part.pos.phase2 } } })

/-- What a tick does to an operation. In STARTING the first forward tick starts the first interval, an interval within a tenth of the
nominal one counts and another clears the count, a reverse tick clears it and starts afresh, and the tick that brings the count to 32 enters
PLAYING with capture begun. A forward tick in PLAYING that brings a take to its end position ends it, and one of a survey counts and ends it
DONE at its span. A wind phase of a SEEK ends at the wind point, its approach at the target. A forward tick of a capture is stamped into the
tach channel of every working tracker, and counts for a TACH tracker's own measurement, which it completes as MEASUREMENT_COMPLETE does; in
PLAYING and APPROACHING it counts in the slip window or opens one, which a reverse tick discards, and the tick that closes the window judges
it as SLIP_WINDOW_CLOSE does (log 4: that the tick performs what falls due). A take's end tears down, on the part its own tick has stamped,
what works inside it (`Part.tornDown`). (Log 3: a settle timer starts at the tick's own time, or at the latest time seen if that is later.
Log 30: an ended operation holds no phase. Log 15: a tracker with no mode is not handed the stamp. Log 7, the model's choice: the stamp
reaches the tach channel before the lane's own measurement, and the operation's own end comes before the slip monitor.) -/
def Obligations.TickJudged : Prop :=
  ∀ (phase : Phase) (now : Nat) (s : State) (forward : Bool),
    (forward = match phase with
      | .one => !s.part.pos.phase1 != s.part.pos.phase2
      | .two => !s.part.pos.phase2 == s.part.pos.phase1) → ∃ t, exec (.tick phase now) s = .next t
    ∧ (∀ e, forward = true → s.part.trc.state = .playing → s.part.trc.op.kind = .take → s.part.trc.op.ending = none →
        s.part.trc.op.endPosition = some e → e ≤ t.part.pos.position →
        t.part.trc.state = .settling ∧ t.part.trc.settleTimer = some (max s.part.timebase now)
        ∧ t.part.trc.op = { s.part.trc.op with phase := none, ending := some (.cause .endPosition) }
        ∧ t.part.take.device = .configure ∧ t.part.hcr.capturing = false ∧ t.part.hcr.nextIndex = s.part.hcr.nextIndex
        ∧ (s.part.stopPending = false → ∀ m, exec (.tick phase now)
              { s with part := { s.part with trc := { s.part.trc with op := { s.part.trc.op with endPosition := none } } } } = .next m →
            m.part.trc.op.ending = none → ∀ l, Part.tornDown s.setup l m.part t.part))
    ∧ (∀ nominal : Nat, Part.playLegal s.part → s.part.trc.state = .starting → s.part.stopPending = false → s.part.timebase ≤ now →
        nominal = 16000000 / s.setup.deck.tickRate → t.part.trc.stallTimer = some now
        ∧ (forward = false → t.part.trc.state = .starting ∧ t.part.trc.op = s.part.trc.op
          ∧ t.part.trc.lastTick = none ∧ t.part.trc.qualCount = 0)
        ∧ (forward = true → ∀ count : Nat, (s.part.trc.lastTick = none → count = s.part.trc.qualCount) →
          (∀ last, s.part.trc.lastTick = some last → count =
            if (((now - last : Nat) : Int) - nominal).natAbs * 10 ≤ nominal then s.part.trc.qualCount + 1 else 0) →
          t.part.trc.lastTick = some now ∧ t.part.trc.qualCount = count
          ∧ (count < 32 → t.part.trc.state = .starting ∧ t.part.trc.op = s.part.trc.op ∧ t.part.hcr = s.part.hcr
            ∧ t.part.msp = s.part.msp)
          ∧ (32 ≤ count → t.part.trc.state = .playing ∧ t.part.trc.slipWindow = none ∧ t.part.trc.slipLow = 0
            ∧ t.part.hcr = { s.part.hcr with capturing := true, nextIndex := 0 }
            ∧ (s.part.trc.op.kind = .take → t.part.trc.op = s.part.trc.op ∧ t.part.msp = { s.part.msp with
                notices := postNotice (.takeStarted s.part.take.number t.part.pos.position) s.part.msp.notices })
            ∧ (s.part.trc.op.kind = .survey → t.part.trc.op = { s.part.trc.op with surveyTicks := some 0 }
                ∧ t.part.msp = s.part.msp))))
    ∧ (∀ span ticks : Nat, s.part.trc.state = .playing → s.part.trc.op.kind = .survey → s.part.trc.op.ending = none →
        s.part.trc.op.span = some span → s.part.trc.op.surveyTicks = some ticks →
        (forward = true → span ≤ ticks + 1 → t.part.trc.state = .settling
          ∧ t.part.trc.settleTimer = some (max s.part.timebase now)
          ∧ t.part.trc.op = { s.part.trc.op with surveyTicks := some (ticks + 1), phase := none, ending := some (.term .done) }
          ∧ t.part.hcr = { s.part.hcr with capturing := false }
          ∧ ∀ l, (s.part.rft.get l).mode = .survey → (t.part.rft.get l).meas = none)
        ∧ (s.part.stopPending = false → (∀ l, (s.part.rft.get l).mode ≠ .take) →
          (neverStops s.setup.policies.slip ∨ ∀ w, s.part.trc.slipWindow = some w → w.ticks + 1 < 64) →
          (forward = true → ticks + 1 < span → t.part.trc.state = .playing ∧ t.part.hcr = s.part.hcr
            ∧ t.part.trc.op = { s.part.trc.op with surveyTicks := some (ticks + 1) })
          ∧ (forward = false → t.part.trc.state = .playing ∧ t.part.hcr = s.part.hcr ∧ t.part.trc.op = s.part.trc.op)))
    ∧ (∀ (winding reached : Prop) (point : Nat), s.part.trc.op.kind = .seek → s.part.trc.op.windPoint = some point →
        (winding ↔ s.part.trc.state = .windingFwd ∨ s.part.trc.state = .windingRev) →
        (reached ↔ s.part.trc.state = .windingFwd ∧ point ≤ t.part.pos.position
          ∨ s.part.trc.state = .windingRev ∧ t.part.pos.position ≤ point) →
        (reached → t.part.trc.state = .settling ∧ t.part.trc.settleTimer = some (max s.part.timebase now)
          ∧ t.part.trc.op = { s.part.trc.op with phase := some .settle })
        ∧ (winding → ¬reached → t.part.trc.state = s.part.trc.state ∧ t.part.trc.op = s.part.trc.op))
    ∧ (∀ target : Nat, s.part.trc.state = .approaching → s.part.trc.op.kind = .seek →
        s.part.trc.op.ending = none → s.part.trc.op.target = some target →
        (forward = true → target ≤ t.part.pos.position → t.part.trc.state = .settling
          ∧ t.part.trc.op = { s.part.trc.op with phase := none, ending := some (.term .done) })
        ∧ (forward = false ∨ t.part.pos.position < target →
          t.part.trc.state = .approaching ∧ t.part.trc.op = s.part.trc.op))
    ∧ (∀ (l : Lane) (n : Nat),
        (forward = true → s.part.hcr.capturing = true → s.part.hcr.nextIndex = n + 1 → (s.part.rft.get l).mode ≠ .none →
          ((s.part.rft.get l).tachOpen = none → (t.part.rft.get l).tachOpen = some ⟨256 * n, 0, 256 * n⟩
            ∧ (t.part.rft.get l).tachLast = (s.part.rft.get l).tachLast)
          ∧ ∀ o, (s.part.rft.get l).tachOpen = some o →
            (o.counted + 1 < 16 → (t.part.rft.get l).tachOpen = some ⟨o.t0, o.counted + 1, 256 * n⟩
              ∧ (t.part.rft.get l).tachLast = (s.part.rft.get l).tachLast)
            ∧ (16 ≤ o.counted + 1 → (t.part.rft.get l).tachOpen = some ⟨256 * n, 0, 256 * n⟩
              ∧ (t.part.rft.get l).tachLast = some ⟨256 * n - o.t0, n⟩))
        ∧ ((forward = false ∨ s.part.hcr.capturing = false ∨ s.part.hcr.nextIndex = 0 ∨ (s.part.rft.get l).mode = .none) →
          (t.part.rft.get l).tachOpen = (s.part.rft.get l).tachOpen ∧ (t.part.rft.get l).tachLast = (s.part.rft.get l).tachLast)
        ∧ (forward = true → s.part.hcr.capturing = true → s.part.hcr.nextIndex = n + 1 → (s.part.rft.get l).mode ≠ .none →
          (s.part.rft.get l).settings.source = .tach → t.part.trc.op.ending = s.part.trc.op.ending →
          ((s.part.rft.get l).meas = none → (t.part.rft.get l).meas = some ⟨256 * n, 0, 16, s.setup.deck.tickRate,
              windowLo s.setup.rates (s.part.rft.get l).settings.w, windowHi s.setup.rates (s.part.rft.get l).settings.w, 256 * n, n⟩)
          ∧ ∀ m, (s.part.rft.get l).meas = some m →
            (m.counted + 1 < m.c →
              (t.part.rft.get l).meas = some { m with counted := m.counted + 1, lastStamp := 256 * n, lastIndex := n })
            ∧ (m.c ≤ m.counted + 1 → s.part.stopPending = false → framesNeverStop s.setup → ∀ done,
              exec (.measurementComplete l) { s with part := { s.part with rft := s.part.rft.set l { s.part.rft.get l with
                  meas := some { m with counted := m.counted + 1, lastStamp := 256 * n, lastIndex := n },
                  tachOpen := (t.part.rft.get l).tachOpen, tachLast := (t.part.rft.get l).tachLast } } } = .next done →
              t.part.rft.get l = done.part.rft.get l ∧ t.part.lanes.get l = done.part.lanes.get l
              ∧ t.part.cmn.lockLost.get l = done.part.cmn.lockLost.get l ∧ t.part.cmn.range.get l = done.part.cmn.range.get l
              ∧ ∀ k : Notice, k.content.kind = (match l with | .a => .lockChangedA | .b => .lockChangedB) →
                  (k ∈ t.part.msp.notices ↔ k ∈ done.part.msp.notices))))
    ∧ ((s.part.trc.state = .playing ∨ s.part.trc.state = .approaching) → t.part.trc.state = s.part.trc.state →
        (forward = false → t.part.trc.slipWindow = none)
        ∧ (forward = true → s.part.trc.slipWindow = none → t.part.trc.slipWindow = some ⟨0, 0⟩)
        ∧ (forward = true → ∀ w, s.part.trc.slipWindow = some w →
          (w.ticks + 1 < 64 → t.part.trc.slipWindow = some ⟨w.ticks + 1, w.pulses⟩)
          ∧ (64 ≤ w.ticks + 1 → t.part.trc.slipWindow = some ⟨0, 0⟩)))
    ∧ (∀ (w : SlipWindow) (reached : Prop) (closed : State), forward = true →
        (s.part.trc.state = .playing ∨ s.part.trc.state = .approaching) → s.part.trc.slipWindow = some w → 64 ≤ w.ticks + 1 →
        s.part.stopPending = false → framesNeverStop s.setup →
        (reached ↔ (s.part.trc.op.kind = .take ∧ ∃ e, s.part.trc.op.endPosition = some e ∧ e ≤ t.part.pos.position)
          ∨ (s.part.trc.op.kind = .survey ∧ ∃ a b, s.part.trc.op.span = some a ∧ s.part.trc.op.surveyTicks = some b ∧ a ≤ b + 1)
          ∨ (s.part.trc.op.kind = .seek ∧ ∃ e, s.part.trc.op.target = some e ∧ e ≤ t.part.pos.position)) → ¬reached →
        exec .slipWindowClose { s with part := { s.part with trc := { s.part.trc with slipWindow := some ⟨w.ticks + 1, w.pulses⟩ } } }
          = .next closed →
        t.part.trc.slipLow = closed.part.trc.slipLow ∧ t.part.cmn.slip = closed.part.cmn.slip
        ∧ t.part.trc.slipWindow = closed.part.trc.slipWindow ∧ t.part.trc.state = closed.part.trc.state
        ∧ t.part.trc.op.ending = closed.part.trc.op.ending)

/-- The qualification's end enters PLAYING: capture begins at raw index 0, the slip monitor waits, a take posts TAKE_STARTED, a
survey counts its ticks from 0. A survey whose span is counted ends DONE. (Log 30: an ended operation holds no phase. Logs 4 and
6: a completion that is not due changes nothing, the model's choice.) -/
def Obligations.Qualification : Prop :=
  (∀ s : State,
      (s.part.trc.state = .starting → 32 ≤ s.part.trc.qualCount →
        (s.part.trc.op.kind = .take → ∃ t, exec .qualificationComplete s = .next t
          ∧ t.setup = s.setup ∧ t.rings = s.rings ∧ t.part.pos = s.part.pos ∧ t.part.lanes = s.part.lanes
          ∧ t.part.trc.state = .playing ∧ t.part.trc.op = s.part.trc.op ∧ t.part.trc.slipWindow = none ∧ t.part.trc.slipLow = 0
          ∧ t.part.trc.stallTimer = some s.part.timebase ∧ t.part.hcr = { s.part.hcr with capturing := true, nextIndex := 0 }
          ∧ t.part.msp.notices = postNotice (.takeStarted s.part.take.number s.part.pos.position) s.part.msp.notices)
        ∧ (s.part.trc.op.kind = .survey → ∃ t, exec .qualificationComplete s = .next t
          ∧ t.part.trc.state = .playing ∧ t.part.trc.op = { s.part.trc.op with surveyTicks := some 0 }
          ∧ t.part.hcr = { s.part.hcr with capturing := true, nextIndex := 0 } ∧ t.part.msp = s.part.msp))
      ∧ ((s.part.trc.state ≠ .starting ∨ s.part.trc.qualCount < 32) → exec .qualificationComplete s = .next s))
  ∧ (∀ (s : State) (l : Lane) (span ticks : Nat), s.part.trc.state = .playing → s.part.trc.op.kind = .survey →
      s.part.trc.op.ending = none → s.part.trc.op.span = some span → s.part.trc.op.surveyTicks = some ticks → span ≤ ticks →
      s.part.stopPending = false → (s.part.rft.get l).mode = .survey → ∃ t, exec .surveySpanCounted s = .next t
        ∧ t.part.trc.state = .settling ∧ t.part.trc.settleTimer = some s.part.timebase
        ∧ t.part.trc.op = { s.part.trc.op with phase := none, ending := some (.term .done) } ∧ t.part.hcr = { s.part.hcr with capturing := false }
        ∧ t.part.rft.get l = { s.part.rft.get l with meas := none } ∧ t.part.msp = s.part.msp ∧ t.part.take = s.part.take)

/-- A capstan pulse counts in an open slip window and nowhere else. A closed window's ratio counts toward the slip count or
clears it, SLIP is reported, and the next window opens. SLIP present under STOP ends a take or a survey that plays, and no SEEK or
rewind; a take's end tears down what works inside it (`Part.tornDown`). (Log 30: an ended operation holds no phase.) -/
def Obligations.SlipMonitor : Prop :=
  (∀ s : State,
      (∀ w, s.part.trc.slipWindow = some w → exec .capstanPulse s
        = .next { s with part := { s.part with trc := { s.part.trc with slipWindow := some ⟨w.ticks, w.pulses + 1⟩ } } })
      ∧ (s.part.trc.slipWindow = none → exec .capstanPulse s = .next s))
  ∧ (∀ (s : State) (w : SlipWindow) (q : Nat), (s.part.trc.state = .playing ∨ s.part.trc.state = .approaching) →
      s.part.trc.slipWindow = some w → 64 ≤ w.ticks → s.part.stopPending = false →
      (q = if w.pulses = 0 then 255 else min 255 (s.setup.deck.nc * 16 / w.pulses)) →
      (q < s.setup.deck.slipThreshold → s.part.trc.slipLow + 1 < s.setup.deck.slipCount → exec .slipWindowClose s
        = .next { s with part := { s.part with trc := { s.part.trc with
            slipWindow := some ⟨0, 0⟩, slipLow := s.part.trc.slipLow + 1 } } })
      ∧ (q < s.setup.deck.slipThreshold → s.setup.deck.slipCount ≤ s.part.trc.slipLow + 1 →
          (s.setup.policies.slip.policy = .stop ∨ s.setup.policies.slip.policy = .warn) → s.part.cmn.slip.present = false →
          ∃ t, exec .slipWindowClose s = .next t ∧ t.part.cmn.slip.flag = true ∧ t.part.pos = s.part.pos
            ∧ ((s.setup.policies.slip.policy = .warn ∨ s.part.trc.op.kind ≠ .take ∧ s.part.trc.op.kind ≠ .survey) →
                t.part.trc = { s.part.trc with slipWindow := some ⟨0, 0⟩, slipLow := s.part.trc.slipLow + 1 }
                ∧ t.part.cmn.slip.present = true ∧ t.part.take = s.part.take)
            ∧ (s.setup.policies.slip.policy = .stop → s.part.trc.state = .playing → s.part.trc.op.ending = none →
                (s.part.trc.op.kind = .take ∨ s.part.trc.op.kind = .survey) →
                t.part.trc.state = .settling ∧ t.part.trc.settleTimer = some s.part.timebase ∧ t.part.trc.slipWindow = none
                ∧ t.part.trc.slipLow = 0 ∧ t.part.cmn.slip.present = false ∧ t.part.hcr = { s.part.hcr with capturing := false }
                ∧ t.part.trc.op = { s.part.trc.op with
                    phase := none, ending := some (if s.part.trc.op.kind = .take then .cause .condition else .term .condition) }
                ∧ (s.part.trc.op.kind = .take → t.part.take.device = .configure ∧ ∀ l, Part.tornDown s.setup l s.part t.part)
                ∧ (s.part.trc.op.kind = .survey → ∀ l, t.part.rft.get l = if (s.part.rft.get l).mode = .survey then
                    { s.part.rft.get l with meas := none } else s.part.rft.get l)))
      ∧ (s.setup.deck.slipThreshold ≤ q → ∃ t, exec .slipWindowClose s = .next t
          ∧ t.part.trc = { s.part.trc with slipWindow := some ⟨0, 0⟩, slipLow := 0 } ∧ t.part.cmn.slip.present = false
          ∧ t.part.pos = s.part.pos ∧ t.part.take = s.part.take ∧ t.part.msp = s.part.msp))

/-- The leader sensor: leader seen ends a wind, and a rewind in its forward phase, END_OF_TAPE and a play TAPE_END, ends a rewind's reverse
phase without ending the rewind, and at rest ends nothing; oxide in a rewind's forward phase zeroes the position and ends it DONE. A
take's end tears down what works inside it (`Part.tornDown`). The cassette: an insertion sets the position to 0,
UNREFERENCED; a removal keeps the position, makes it UNREFERENCED and ends a running operation; both post CASSETTE_CHANGED. An
insertion of a present cassette and a removal of an absent one change nothing (log 6, the model's choice). (Log 30: an ended
operation holds no phase.) -/
def Obligations.SensorsAndCassette : Prop :=
  (∀ s : State, s.part.stopPending = false → s.part.trc.op.ending = none →
      (s.part.trc.leader = false → s.part.trc.state.moving = true → s.part.trc.op.kind ≠ .none →
          s.part.trc.op.kind ≠ .take → s.part.trc.op.kind ≠ .rewindToLeader → ∃ t, exec .leaderSensorChange s = .next t
          ∧ t.part.trc.leader = true ∧ t.part.trc.state = .settling ∧ t.part.trc.settleTimer = some s.part.timebase
          ∧ t.part.trc.op = { s.part.trc.op with phase := none, ending := some (.term .endOfTape) } ∧ t.part.pos = s.part.pos)
      ∧ (s.part.trc.leader = false → s.part.trc.state.moving = true → s.part.trc.op.kind = .take → ∃ t,
          exec .leaderSensorChange s = .next t
          ∧ t.part.trc.leader = true ∧ t.part.trc.state = .settling
          ∧ t.part.trc.op = { s.part.trc.op with phase := none, ending := some (.cause .tapeEnd) } ∧ t.part.take.device = .configure
          ∧ t.part.hcr.capturing = false ∧ ∀ l, Part.tornDown s.setup l s.part t.part)
      ∧ (s.part.trc.leader = false → s.part.trc.state.moving = true → s.part.trc.op.kind = .rewindToLeader →
          s.part.trc.op.phase = some .reverse → ∃ t, exec .leaderSensorChange s = .next t
          ∧ t.part.trc.leader = true ∧ t.part.trc.state = .settling ∧ t.part.trc.settleTimer = some s.part.timebase
          ∧ t.part.trc.op = { s.part.trc.op with phase := some .settle } ∧ t.part.pos = s.part.pos)
      ∧ (s.part.trc.leader = false → s.part.trc.state.moving = true → s.part.trc.op.kind = .rewindToLeader →
          s.part.trc.op.phase = some .forward → ∃ t, exec .leaderSensorChange s = .next t
          ∧ t.part.trc.leader = true ∧ t.part.trc.state = .settling ∧ t.part.trc.settleTimer = some s.part.timebase
          ∧ t.part.trc.op = { s.part.trc.op with phase := none, ending := some (.term .endOfTape) } ∧ t.part.pos = s.part.pos)
      ∧ (s.part.trc.leader = true → s.part.trc.state = .approaching → s.part.trc.op.kind = .rewindToLeader →
          s.part.trc.op.phase = some .forward → ∃ t, exec .leaderSensorChange s = .next t
          ∧ t.part.trc.leader = false ∧ t.part.trc.state = .settling
          ∧ t.part.trc.op = { s.part.trc.op with phase := none, ending := some (.term .done) }
          ∧ t.part.pos = { s.part.pos with position := 0, referenced := true })
      ∧ (s.part.trc.leader = true → (s.part.trc.state ≠ .approaching ∨ s.part.trc.op.kind ≠ .rewindToLeader
            ∨ s.part.trc.op.phase ≠ some .forward) → exec .leaderSensorChange s
          = .next { s with part := { s.part with trc := { s.part.trc with leader := false } } }))
  ∧ (∀ s : State, s.part.stopPending = false → s.part.trc.leader = false →
      (s.part.trc.state = .stopped ∨ s.part.trc.state = .settling) → exec .leaderSensorChange s
        = .next { s with part := { s.part with trc := { s.part.trc with leader := true } } })
  ∧ (∀ s : State, s.part.stopPending = false →
      (s.part.pos.cassette = false → ∃ t, exec .cassetteInsertion s = .next t
        ∧ t.setup = s.setup ∧ t.rings = s.rings ∧ t.bank = s.bank ∧ t.part.trc = s.part.trc ∧ t.part.take = s.part.take
        ∧ t.part.hcr = s.part.hcr ∧ t.part.lanes = s.part.lanes ∧ t.part.rft = s.part.rft ∧ t.part.cmn = s.part.cmn
        ∧ t.part.pos = { s.part.pos with cassette := true, position := 0, referenced := false }
        ∧ t.part.msp = { s.part.msp with notices := postNotice (.cassetteChanged true) s.part.msp.notices })
      ∧ (s.part.pos.cassette = true → exec .cassetteInsertion s = .next s)
      ∧ (s.part.pos.cassette = false → exec .cassetteRemoval s = .next s)
      ∧ (s.part.pos.cassette = true → (s.part.trc.op.kind = .none ∨ s.part.trc.op.ending ≠ none) → exec .cassetteRemoval s
          = .next { s with part := { s.part with
              pos := { s.part.pos with cassette := false, referenced := false },
              msp := { s.part.msp with notices := postNotice (.cassetteChanged false) s.part.msp.notices } } })
      ∧ (s.part.pos.cassette = true → s.part.trc.op.kind ≠ .none → s.part.trc.op.ending = none → ∃ t,
          exec .cassetteRemoval s = .next t
          ∧ t.part.pos = { s.part.pos with cassette := false, referenced := false } ∧ t.part.trc.state = .settling
          ∧ t.part.trc.op = { s.part.trc.op with
              phase := none, ending := some (if s.part.trc.op.kind = .take then .cause .cassetteOut else .term .cassetteOut) }
          ∧ (s.part.trc.op.kind = .take → t.part.take.device = .configure ∧ t.part.hcr.capturing = false
              ∧ ∀ l, Part.tornDown s.setup l s.part t.part)
          ∧ ∃ n ∈ t.part.msp.notices, n.content = .cassetteChanged false))

/-- The settle timer's expiry: an ended wind, seek or rewind completes at STOPPED with TRANSPORT_DONE, an ended survey with
SURVEY_DONE and its accumulators, a take hands over its final position, which closes its record if that was the last thing
awaited; a rewind at rest on leader goes forward and on oxide winds back again, and a SEEK at rest plans again: approach, done,
another wind back, or NOT_REACHED before a fourth. The timebase takes the reading at which the timer expires and never falls
(log 3: the model's choice). -/
def Obligations.SettleTimerExpiry : Prop :=
  (∀ (s : State) (start : Nat), s.part.trc.state = .settling → s.part.trc.settleTimer = some start →
      (∀ e, (s.part.trc.op.kind = .wind ∨ s.part.trc.op.kind = .seek ∨ s.part.trc.op.kind = .rewindToLeader) →
          s.part.trc.op.ending = some (.term e) → ∃ t, exec .settleTimerExpiry s = .next t
          ∧ t.setup = s.setup ∧ t.rings = s.rings ∧ t.part.pos = s.part.pos ∧ t.part.take = s.part.take
          ∧ t.part.timebase = max s.part.timebase (start + s.setup.deck.settleTime * 1000)
          ∧ t.part.trc.state = .stopped ∧ t.part.trc.settleTimer = none ∧ t.part.trc.op = OpRecord.idle
          ∧ t.part.msp = { s.part.msp with
              notices := postNotice (.transportDone s.part.trc.op.kind e s.part.pos.position) s.part.msp.notices })
      ∧ (∀ (e : Termination) (l : Lane) (T : Tracker) (c : Nat) (frequency : Nat → Nat → Nat),
          s.part.trc.op.kind = .survey → s.part.trc.op.ending = some (.term e) → T = s.part.rft.get l → T.mode = .survey →
          (s.part.rft.get l.other).mode ≠ .survey → c = (if T.settings.source = .tach then 16 else T.settings.c) →
          (∀ n sum, frequency n sum = (2 * (c * s.setup.rates.fr * 4096 * n) + sum) / (2 * sum)) → ∃ t, exec .settleTimerExpiry s = .next t
          ∧ t.setup = s.setup ∧ t.rings = s.rings ∧ t.part.pos = s.part.pos ∧ t.part.take = s.part.take
          ∧ t.part.trc.state = .stopped ∧ t.part.trc.settleTimer = none ∧ t.part.trc.op = OpRecord.idle
          ∧ t.part.rft = s.part.rft.set l { T with mode := .none }
          ∧ (T.survey.least = none ∨ T.survey.greatest = none → t.part.msp = { s.part.msp with
              notices := postNotice (.surveyDone l T.settings.source e T.survey.total T.survey.inWindow none) s.part.msp.notices })
          ∧ ∀ lo hi, T.survey.least = some lo → T.survey.greatest = some hi → t.part.msp = { s.part.msp with
              notices := postNotice (.surveyDone l T.settings.source e T.survey.total T.survey.inWindow
                (some (frequency T.survey.inWindow T.survey.sum, frequency 1 hi, frequency 1 lo))) s.part.msp.notices })
      ∧ (∀ cause c r, s.part.trc.op.kind = .take → s.part.trc.op.ending = some (.cause cause) → s.part.take.record = some r →
          r.cause = some c → ∃ t, exec .settleTimerExpiry s = .next t
          ∧ t.part.trc.state = .stopped ∧ t.part.trc.op = OpRecord.idle ∧ t.part.pos = s.part.pos
          ∧ (s.part.lanes.a.state = .idle ∧ s.part.lanes.b.state = .idle ∧ s.part.lanes.a.fifo = [] ∧ s.part.lanes.b.fifo = [] →
              t.part.take.record = none ∧ t.part.msp.notices = postNotice (.takeEnded s.part.take.number c r.endIndex
                s.part.lanes.a.frameCount s.part.lanes.b.frameCount s.part.pos.position) s.part.msp.notices)
          ∧ (¬(s.part.lanes.a.state = .idle ∧ s.part.lanes.b.state = .idle ∧ s.part.lanes.a.fifo = [] ∧ s.part.lanes.b.fifo = []) →
              t.part.take.record = some { r with finalPosition := some s.part.pos.position } ∧ t.part.msp = s.part.msp))
      ∧ (s.part.trc.op.kind = .rewindToLeader → s.part.trc.op.ending = none → ∃ t, exec .settleTimerExpiry s = .next t
          ∧ t.part.pos = s.part.pos ∧ t.part.msp = s.part.msp
          ∧ (s.part.trc.leader = true →
              t.part.trc.state = .approaching ∧ t.part.trc.op = { s.part.trc.op with phase := some .forward })
          ∧ (s.part.trc.leader = false →
              t.part.trc.state = .windingRev ∧ t.part.trc.op = { s.part.trc.op with phase := some .reverse }))
      ∧ (s.part.trc.op.kind = .none → s.part.trc.op.ending = none → ∃ t, exec .settleTimerExpiry s = .next t
          ∧ t.part.trc.state = .stopped ∧ t.part.trc.op = s.part.trc.op ∧ t.part.msp = s.part.msp))
  ∧ (∀ (s : State) (start target winds : Nat), s.part.trc.state = .settling → s.part.trc.settleTimer = some start →
      s.part.trc.op.kind = .seek → s.part.trc.op.ending = none → s.part.trc.op.target = some target →
      s.part.trc.op.windCount = some winds →
      (s.part.pos.position < target → ∃ t, exec .settleTimerExpiry s = .next t
        ∧ t.part.trc.state = .approaching ∧ t.part.trc.op = { s.part.trc.op with phase := some .approach } ∧ t.part.msp = s.part.msp)
      ∧ (s.part.pos.position = target → ∃ t, exec .settleTimerExpiry s = .next t
        ∧ t.part.trc.state = .stopped ∧ t.part.trc.op = OpRecord.idle
        ∧ t.part.msp.notices = postNotice (.transportDone .seek .done target) s.part.msp.notices)
      ∧ (target < s.part.pos.position → winds < 3 → ∃ t, exec .settleTimerExpiry s = .next t
        ∧ t.part.trc.state = .windingRev
        ∧ t.part.trc.op = { s.part.trc.op with phase := some .wind, windCount := some (winds + 1) } ∧ t.part.msp = s.part.msp)
      ∧ (target < s.part.pos.position → 3 ≤ winds → ∃ t, exec .settleTimerExpiry s = .next t
        ∧ t.part.trc.state = .stopped ∧ t.part.trc.op = OpRecord.idle
        ∧ t.part.msp.notices = postNotice (.transportDone .seek .notReached s.part.pos.position) s.part.msp.notices))

/-- The limits that end an operation: the stall timer, the STARTING limit, the leader search limit. A take's end tears down what works
inside it (`Part.tornDown`). (Log 3: the settle timer starts at
the limit's own time, or at the latest time seen if that is later, the model's choice. Log 30: an ended operation holds no phase.) -/
def Obligations.LimitsEnd : Prop :=
  ∀ (s : State) (start : Nat), s.part.stopPending = false → policiesAllowed s.setup.policies = true →
    s.part.trc.op.ending = none →
    (s.part.trc.stallTimer = some start → s.part.trc.state.moving = true → s.part.trc.op.kind ≠ .none →
        ¬(s.part.trc.op.kind = .rewindToLeader ∧ s.part.trc.op.phase = some .reverse ∧ s.part.trc.leader = true) →
        ∃ t, exec .stallTimerExpiry s = .next t
        ∧ t.part.cmn.stall.flag = true ∧ t.part.trc.state = .settling ∧ t.part.pos = s.part.pos
        ∧ t.part.trc.settleTimer = some (max s.part.timebase (start + s.setup.deck.stallTime * 1000))
        ∧ t.part.trc.op = { s.part.trc.op with
            phase := none, ending := some (if s.part.trc.op.kind = .take then .cause .condition else .term .stalled) }
        ∧ (s.part.trc.op.kind = .take → t.part.take.device = .configure ∧ t.part.hcr.capturing = false
            ∧ ∀ l, Part.tornDown s.setup l s.part t.part))
    ∧ (s.part.trc.stallTimer = some start → s.part.trc.state.moving = true → s.part.trc.op.kind = .rewindToLeader →
        s.part.trc.op.phase = some .reverse → s.part.trc.leader = true → ∃ t, exec .stallTimerExpiry s = .next t
        ∧ t.part.trc.state = .settling ∧ t.part.trc.op = { s.part.trc.op with phase := some .settle }
        ∧ t.part.cmn.stall = s.part.cmn.stall)
    ∧ (s.part.trc.startTimer = some start → s.part.trc.state = .starting →
        (s.part.trc.op.kind = .take ∨ s.part.trc.op.kind = .survey) → ∃ t, exec .startingLimit s = .next t
        ∧ t.part.cmn.stall.flag = true ∧ t.part.trc.state = .settling
        ∧ t.part.trc.settleTimer = some (max s.part.timebase (start + 2000000))
        ∧ t.part.trc.op = { s.part.trc.op with
            phase := none, ending := some (if s.part.trc.op.kind = .take then .cause .condition else .term .stalled) }
        ∧ (s.part.trc.op.kind = .take → t.part.take.device = .configure ∧ t.part.hcr.capturing = false
            ∧ ∀ l, Part.tornDown s.setup l s.part t.part))
    ∧ (s.part.trc.op.startTime = some start → s.part.trc.op.kind = .rewindToLeader → ∃ t, exec .leaderSearchLimit s = .next t
        ∧ t.part.trc.state = .settling ∧ t.part.trc.op = { s.part.trc.op with phase := none, ending := some (.term .leaderNotFound) }
        ∧ t.part.pos = s.part.pos ∧ t.part.cmn.stall = s.part.cmn.stall)

/-! ## Upstream slots -/

/-- Every upstream slot carries one frame of 24 bytes whose bytes sum to 0 and whose second byte is the status octet of the
slot's start; and the octet's eight flags. The bytes of what a frame carries: numbers most significant byte first, signed ones in two's
complement, the enumeration codes, the condition flag set, a sample frame, a piece of a message, a reply and the notices. (Log 12: a raw
index that LOCK_CHANGED lacks is sent as zeros, as an absent field is.) -/
def Obligations.UpstreamFrameSound : Prop :=
  (∀ s : State, ∃ t, exec .upstreamSlot s = .next t
      ∧ t.part.osc.upstream.length = 24 ∧ t.part.osc.upstream.foldl (· + ·) (0 : Byte) = 0
      ∧ t.part.osc.upstream[1]? = some (statusOctet s.setup s.part))
  ∧ (∀ (u : Setup) (p : Part),
      ((statusOctet u p).getLsbD 7 = true ↔ ∃ id, (p.cmn.get id).flag = true
          ∧ ((u.policies.get id).policy = .stop ∨ (u.policies.get id).policy = .muteLane))
      ∧ ((statusOctet u p).getLsbD 6 = true ↔ ∃ id, (p.cmn.get id).flag = true
          ∧ ((u.policies.get id).policy = .warn ∨ (u.policies.get id).policy = .auto))
      ∧ ((statusOctet u p).getLsbD 5 = true ↔ p.rft.a.lock = .locked)
      ∧ ((statusOctet u p).getLsbD 4 = true ↔ p.rft.b.lock = .locked)
      ∧ ((statusOctet u p).getLsbD 3 = true ↔ p.trc.state ≠ .stopped)
      ∧ ((statusOctet u p).getLsbD 2 = true ↔ p.msp.notices ≠ [])
      ∧ ((statusOctet u p).getLsbD 1 = true ↔ p.msp.assembler = none ∧ p.msp.replies.length < 8)
      ∧ ((statusOctet u p).getLsbD 0 = true ↔ p.take.device = .run))
  ∧ (∀ (n v : Nat) (value : List Byte → Nat), (∀ bs, value bs = bs.foldl (fun x b => 256 * x + b.toNat) 0) →
      (bytesOf n v).length = n ∧ (v < 256 ^ n → value (bytesOf n v) = v)
      ∧ ∀ k : Nat, (n = 2 ∧ k = 32768 ∨ n = 3 ∧ k = 8388608) → ∀ x : Int, -k ≤ x → x < k →
          (signedBytes n x).length = n ∧ (value (signedBytes n x) : Int) = if 0 ≤ x then x else x + 2 * k)
  ∧ ([Source.bias, .hum, .pilot, .tach, .nominal, .off].map Source.code = [0, 1, 2, 3, 4, 5]
      ∧ [AzMode.fixed, .track, .seeded].map AzMode.code = [0, 1, 2] ∧ [Pairing.stereo, .monoPair].map Pairing.code = [0, 1]
      ∧ [DropoutPolicy.off, .mark, .conceal, .mute].map DropoutPolicy.code = [0, 1, 2, 3]
      ∧ [Equalisation.us120, .us70].map Equalisation.code = [0, 1]
      ∧ [DeviceState.standby, .configure, .run].map DeviceState.code = [0, 1, 2]
      ∧ [TransportState.stopped, .settling, .starting, .playing, .approaching, .windingFwd, .windingRev].map TransportState.code
        = [0, 1, 2, 3, 4, 5, 6]
      ∧ [LockState.idle, .search, .locked, .hold, .fallback].map LockState.code = [0, 1, 2, 3, 4]
      ∧ [ProductionState.idle, .active, .draining].map ProductionState.code = [0, 1, 2]
      ∧ [Lane.a, .b].map laneCode = [0, 1] ∧ [LaneSet.a, .b, .both].map LaneSet.code = [0, 1, 2]
      ∧ [Track.t1, .t2, .t3, .t4].map trackCode = [0, 1, 2, 3]
      ∧ [OpKind.none, .wind, .seek, .rewindToLeader, .take, .survey].map OpKind.code = [0, 1, 2, 3, 4, 5]
      ∧ [Termination.done, .aborted, .endOfTape, .leaderNotFound, .notReached, .stalled, .cassetteOut, .condition].map Termination.code
        = [0, 1, 2, 3, 4, 5, 6, 7]
      ∧ [TakeCause.stopCommand, .endPosition, .tapeEnd, .cassetteOut, .condition].map TakeCause.code = [0, 1, 2, 3, 4]
      ∧ [RecordAction.marked, .crossfilled, .muted, .mixed].map RecordAction.code = [0, 1, 2, 3]
      ∧ [NoticeKind.transportDone, .takeStarted, .takeEnded, .segmentEntered, .lockChangedA, .lockChangedB, .conditionRaised, .logHigh,
          .cassetteChanged, .surveyDone].map NoticeKind.code = [0, 1, 2, 3, 4, 5, 6, 7, 8, 9]
      ∧ [ReplyCode.ok, .adjusted, .accepted, .invalid, .malformed, .badValue, .wrongState, .busy, .tooLate, .full, .notFound, .duplicate,
          .faultActive, .notReferenced, .conflict].map ReplyCode.code = [0, 1, 2, 3, 4, 5, 6, 7, 8, 9, 10, 11, 12, 13, 14]
      ∧ ∀ (c : PerCond CondStatus) (i : Nat) (id : CondId),
          [CondId.rawHeld, .rawLost, .cellError, .overrun, .stall, .slip, .logFull, .lockLost .a, .lockLost .b, .range .a, .range .b,
            .clip .a, .clip .b][i]? = some id → (flagSet c).getLsbD i = (c.get id).flag ∧ (flagSet c).toNat < 8192)
  ∧ (∀ (f : SampleFrame) (track : TrackPart → Nat),
      (∀ p, track p = (match p.action with | .none => 0 | .marked => 1 | .crossfill => 2 | .mute => 3)
        + (if p.below then 4 else 0) + (if p.switched then 8 else 0)) →
      f.bytes = [laneCode f.lane] ++ bytesOf 2 f.count ++ signedBytes 3 f.first.sample ++ signedBytes 3 f.second.sample
        ++ signedBytes 3 f.monitor ++ bytesOf 1 (track f.first + 16 * track f.second)
        ++ bytesOf 1 (f.lock.code.toNat + (if f.muted then 8 else 0) + (if f.applied then 16 else 0)) ++ bytesOf 1 f.take)
  ∧ (∀ (kind octet : Byte) (content : List Byte), content.length ≤ 21 → ∃ check : Byte,
      frameBytes kind octet content = [kind, octet] ++ content ++ List.replicate (21 - content.length) 0 ++ [check])
  ∧ (∀ (continues notice : Bool) (total : Nat) (piece : List Byte),
      messageContent continues notice total piece = [(if continues then 1 else 0) + (if notice then 2 else 0)] ++ bytesOf 2 total ++ piece
        ++ List.replicate (18 - piece.length) 0)
  ∧ (∀ r : Reply, r.bytes = [r.kind, r.tag, r.code.code] ++ r.results)
  ∧ (∀ n : Notice, n.bytes = [n.content.kind.code] ++ bytesOf 1 n.count ++ n.content.bytes)
  ∧ (∀ (kind : OpKind) (e : Termination) (x y take frames frames' : Nat) (cause : TakeCause) (i : Option Nat) (lanes : LaneSet)
      (entry : Option (Nat × Nat)) (l : Lane) (old new : LockState) (set : BitVec 16) (here : Bool) (src : Source)
      (freq : Option (Nat × Nat × Nat)),
      (NoticeContent.transportDone kind e x).bytes = [kind.code, e.code] ++ bytesOf 3 x
      ∧ (NoticeContent.takeStarted take x).bytes = bytesOf 2 take ++ bytesOf 3 x
      ∧ (NoticeContent.takeEnded take cause i frames frames' x).bytes = bytesOf 2 take ++ [cause.code, if i.isSome then 1 else 0]
          ++ bytesOf 6 (i.getD 0) ++ bytesOf 6 frames ++ bytesOf 6 frames' ++ bytesOf 3 x
      ∧ (NoticeContent.segmentEntered lanes entry y x).bytes = [lanes.code, if entry.isSome then 1 else 0]
          ++ bytesOf 3 (entry.getD (0, 0)).1 ++ bytesOf 2 (entry.getD (0, 0)).2 ++ bytesOf 6 y ++ bytesOf 3 x
      ∧ (NoticeContent.lockChanged l old new i x).bytes = [old.code, new.code] ++ bytesOf 6 (i.getD 0) ++ bytesOf 4 x
      ∧ (NoticeContent.conditionRaised set).bytes = bytesOf 2 set.toNat
      ∧ (NoticeContent.logHigh x take).bytes = bytesOf 2 x ++ bytesOf 2 take
      ∧ (NoticeContent.cassetteChanged here).bytes = [if here then 1 else 0]
      ∧ (NoticeContent.surveyDone l src e x y freq).bytes = [laneCode l, src.code, e.code] ++ bytesOf 4 x ++ bytesOf 4 y
          ++ [if freq.isSome then 1 else 0] ++ bytesOf 3 (freq.getD (0, 0, 0)).1 ++ bytesOf 3 (freq.getD (0, 0, 0)).2.1
          ++ bytesOf 3 (freq.getD (0, 0, 0)).2.2)

/-- A slot given to a message carries the message under way first, else the front reply, else the notice nearest the front that
is not masked, 18 bytes a frame. With no message waiting, or with none of R169's conditions met: the sample frame of the lane that
R171 chooses, else in STANDBY a link-check frame, else an idle frame. A lane that stood stalled on its full FIFO takes its next
production step at the removal. -/
def Obligations.UpstreamSlot : Prop :=
  (∀ s : State,
      ((s.part.osc.underway = none ∧ s.part.msp.replies = [] ∧ (∀ n ∈ s.part.msp.notices, n.content.kind ∈ s.setup.mask))
          ∨ ((s.setup.threshold ≤ s.part.lanes.a.fifo.length ∨ s.setup.threshold ≤ s.part.lanes.b.fifo.length)
            ∧ s.part.osc.accept = true ∧ s.part.osc.slotsSince ≠ 15)) →
        ((s.part.osc.accept = false ∨ s.part.lanes.a.fifo = [] ∧ s.part.lanes.b.fifo = []) →
          (s.part.take.device = .standby → exec .upstreamSlot s
            = .next { s with part := { s.part with osc := { s.part.osc with
                slotsSince := min 15 (s.part.osc.slotsSince + 1), pattern := if s.part.osc.pattern = 0x55 then 0xAA else 0x55,
                upstream := frameBytes 2 (statusOctet s.setup s.part) (List.replicate 21 s.part.osc.pattern) } } })
          ∧ (s.part.take.device ≠ .standby → exec .upstreamSlot s
            = .next { s with part := { s.part with osc := { s.part.osc with
                slotsSince := min 15 (s.part.osc.slotsSince + 1),
                upstream := frameBytes 3 (statusOctet s.setup s.part) [] } } }))
        ∧ ∀ (l : Lane) (f : SampleFrame) (rest : List SampleFrame) (removed : State), s.part.osc.accept = true →
          (s.part.lanes.get l).fifo = f :: rest →
          ((s.part.lanes.get l.other).fifo.length < (s.part.lanes.get l).fifo.length
            ∨ (s.part.lanes.get l.other).fifo.length = (s.part.lanes.get l).fifo.length ∧ s.part.osc.lastServed ≠ l) →
          removed = { s with part := { s.part with
            lanes := s.part.lanes.set l { s.part.lanes.get l with fifo := rest },
            osc := { s.part.osc with
              slotsSince := min 15 (s.part.osc.slotsSince + 1), lastServed := l,
              upstream := frameBytes 0 (statusOctet s.setup s.part) f.bytes } } } →
          (((s.part.lanes.get l).state = .idle ∨ (s.part.lanes.get l).settings.source = .off
              ∨ (s.part.lanes.get l).fifo.length < 1024) →
            exec .upstreamSlot s = exec .takeEnded removed)
          ∧ ((s.part.lanes.get l).state ≠ .idle → (s.part.lanes.get l).settings.source ≠ .off →
            1024 ≤ (s.part.lanes.get l).fifo.length → exec .upstreamSlot s = exec (.productionStep l) removed))
  ∧ (∀ s : State, ((s.part.lanes.a.fifo.length < s.setup.threshold ∧ s.part.lanes.b.fifo.length < s.setup.threshold)
        ∨ s.part.osc.accept = false ∨ s.part.osc.slotsSince = 15) →
      ∀ sent : Bool → Underway → MessagePort → State,
        (sent = fun continues m port => { s with part := { s.part with
          msp := port,
          osc := { s.part.osc with
            slotsSince := 0,
            underway := if m.rest.length ≤ 18 then none else some { m with rest := m.rest.drop 18 },
            upstream := frameBytes 1 (statusOctet s.setup s.part)
              (messageContent continues m.notice m.total (m.rest.take 18)) } } }) →
        (∀ m, s.part.osc.underway = some m → exec .upstreamSlot s = .next (sent true m s.part.msp))
        ∧ (∀ r rest, s.part.osc.underway = none → s.part.msp.replies = r :: rest → exec .upstreamSlot s
            = .next (sent false ⟨false, r.bytes.length, r.bytes⟩ { s.part.msp with replies := rest }))
        ∧ ∀ front n back, s.part.osc.underway = none → s.part.msp.replies = [] → s.part.msp.notices = front ++ n :: back →
            (∀ m ∈ front, m.content.kind ∈ s.setup.mask) → n.content.kind ∉ s.setup.mask → exec .upstreamSlot s
            = .next (sent false ⟨true, n.bytes.length, n.bytes⟩ { s.part.msp with notices := front ++ back }))

/-! ## Delivered in cells -/

/-- A command delivered as downstream cells does what its row does: the same state but for the ACCEPT flag, which takes the
value the cells carry. (That a command's row stands for the whole message is the model's reading, log 1.) -/
def Obligations.CellsDeliverCommand : Prop :=
  ∀ (k : Cmd) (tag : Byte) (args : List Byte) (i : Instr) (s : State), s.part.ready = true → args.length = k.argLength →
    readMessage k tag args = some i →
    exec i s = .next (afterRows s ((commandCells s.part.osc.accept k.code tag args).map Instr.downstreamCell))

/-! ## Invariants -/

/-- At reset every invariant below holds. -/
def Obligations.ResetLegal : Prop :=
  Part.playLegal State.reset.part ∧ Part.restsOutsideRun State.reset.part ∧ Part.spansFollow State.reset.part
    ∧ buffersCanonical State.reset = true ∧ setupLegal State.reset = true
    ∧ queuesHold State.reset = true ∧ registersHold State.reset = true

/-- The device state, the operation and the transport keep agreeing; and outside RUN nothing works inside a take, so that whatever event
ends a take, by whatever cause, leaves every tracker IDLE, no lane ACTIVE, no aligner half or detector running, and every span closed. -/
def Obligations.StepKeepsPlayLegal : Prop :=
  (∀ s t : State, Part.playLegal s.part → step s = .next t → Part.playLegal t.part)
  ∧ ∀ s t : State, Part.playLegal s.part → Part.restsOutsideRun s.part → Part.spansFollow s.part → step s = .next t →
      Part.restsOutsideRun t.part ∧ Part.spansFollow t.part

/-- The rings, the stamps, the loaded bank and its map keep their canonical form; the queues stay within their rules (no notice
kind twice, at most 8 replies with room for the open message's own, FIFOs, timelines and the dropout log within their
capacities); the position fits its counter, the run count is at most 4 and 0 in WAITING, and no stop request is left waiting. (Log 8, the
model's reading of R38 and R178: the event that makes a stop request takes it, so none waits between events. Log 17: the canonical form.) -/
def Obligations.StepKeepsBounds : Prop :=
  (∀ s t : State, buffersCanonical s = true → step s = .next t → buffersCanonical t = true)
  ∧ (∀ s t : State, queuesHold s = true → step s = .next t → queuesHold t = true)
  ∧ (∀ s t : State, registersHold s = true → step s = .next t → registersHold t = true)

/-- What commands configure stays within its rules: deck ranges, an ascending table of at most 64 entries in their ranges,
allowed policies, the threshold, and LOADED only over a fully written bank. -/
def Obligations.StepKeepsSetupLegal : Prop :=
  ∀ s t : State, setupLegal s = true → step s = .next t → setupLegal t = true

end
end

