-- ==== Sys2Proof/Laws/State.lean ====
section
/-! SUPPORT. One lemma per field per update: what each named update of the part leaves alone and what it sets. -/

namespace Sys2Proof.Machine

@[simp] theorem Part.setTracker_hcr (p : Part) (l : Lane) (t : Tracker) : (p.setTracker l t).hcr = p.hcr := rfl
@[simp] theorem Part.setTracker_pos (p : Part) (l : Lane) (t : Tracker) : (p.setTracker l t).pos = p.pos := rfl
@[simp] theorem Part.setTracker_trc (p : Part) (l : Lane) (t : Tracker) : (p.setTracker l t).trc = p.trc := rfl
@[simp] theorem Part.setTracker_sgt (p : Part) (l : Lane) (t : Tracker) : (p.setTracker l t).sgt = p.sgt := rfl
@[simp] theorem Part.setTracker_rft (p : Part) (l : Lane) (t : Tracker) : (p.setTracker l t).rft = p.rft.set l t := rfl
@[simp] theorem Part.setTracker_lanes (p : Part) (l : Lane) (t : Tracker) : (p.setTracker l t).lanes = p.lanes := rfl
@[simp] theorem Part.setTracker_aza (p : Part) (l : Lane) (t : Tracker) : (p.setTracker l t).aza = p.aza := rfl
@[simp] theorem Part.setTracker_det (p : Part) (l : Lane) (t : Tracker) : (p.setTracker l t).det = p.det := rfl
@[simp] theorem Part.setTracker_con (p : Part) (l : Lane) (t : Tracker) : (p.setTracker l t).con = p.con := rfl
@[simp] theorem Part.setTracker_log (p : Part) (l : Lane) (t : Tracker) : (p.setTracker l t).log = p.log := rfl
@[simp] theorem Part.setTracker_take (p : Part) (l : Lane) (t : Tracker) : (p.setTracker l t).take = p.take := rfl
@[simp] theorem Part.setTracker_cmn (p : Part) (l : Lane) (t : Tracker) : (p.setTracker l t).cmn = p.cmn := rfl
@[simp] theorem Part.setTracker_stopPending (p : Part) (l : Lane) (t : Tracker) : (p.setTracker l t).stopPending = p.stopPending := rfl
@[simp] theorem Part.setTracker_osc (p : Part) (l : Lane) (t : Tracker) : (p.setTracker l t).osc = p.osc := rfl
@[simp] theorem Part.setTracker_msp (p : Part) (l : Lane) (t : Tracker) : (p.setTracker l t).msp = p.msp := rfl
@[simp] theorem Part.setTracker_timebase (p : Part) (l : Lane) (t : Tracker) : (p.setTracker l t).timebase = p.timebase := rfl

@[simp] theorem Part.setProducer_hcr (p : Part) (l : Lane) (x : Producer) : (p.setProducer l x).hcr = p.hcr := rfl
@[simp] theorem Part.setProducer_pos (p : Part) (l : Lane) (x : Producer) : (p.setProducer l x).pos = p.pos := rfl
@[simp] theorem Part.setProducer_trc (p : Part) (l : Lane) (x : Producer) : (p.setProducer l x).trc = p.trc := rfl
@[simp] theorem Part.setProducer_sgt (p : Part) (l : Lane) (x : Producer) : (p.setProducer l x).sgt = p.sgt := rfl
@[simp] theorem Part.setProducer_rft (p : Part) (l : Lane) (x : Producer) : (p.setProducer l x).rft = p.rft := rfl
@[simp] theorem Part.setProducer_lanes (p : Part) (l : Lane) (x : Producer) : (p.setProducer l x).lanes = p.lanes.set l x := rfl
@[simp] theorem Part.setProducer_aza (p : Part) (l : Lane) (x : Producer) : (p.setProducer l x).aza = p.aza := rfl
@[simp] theorem Part.setProducer_det (p : Part) (l : Lane) (x : Producer) : (p.setProducer l x).det = p.det := rfl
@[simp] theorem Part.setProducer_con (p : Part) (l : Lane) (x : Producer) : (p.setProducer l x).con = p.con := rfl
@[simp] theorem Part.setProducer_log (p : Part) (l : Lane) (x : Producer) : (p.setProducer l x).log = p.log := rfl
@[simp] theorem Part.setProducer_take (p : Part) (l : Lane) (x : Producer) : (p.setProducer l x).take = p.take := rfl
@[simp] theorem Part.setProducer_cmn (p : Part) (l : Lane) (x : Producer) : (p.setProducer l x).cmn = p.cmn := rfl
@[simp] theorem Part.setProducer_stopPending (p : Part) (l : Lane) (x : Producer) : (p.setProducer l x).stopPending = p.stopPending := rfl
@[simp] theorem Part.setProducer_osc (p : Part) (l : Lane) (x : Producer) : (p.setProducer l x).osc = p.osc := rfl
@[simp] theorem Part.setProducer_msp (p : Part) (l : Lane) (x : Producer) : (p.setProducer l x).msp = p.msp := rfl
@[simp] theorem Part.setProducer_timebase (p : Part) (l : Lane) (x : Producer) : (p.setProducer l x).timebase = p.timebase := rfl

@[simp] theorem Part.setAligner_hcr (p : Part) (l : Lane) (x : Aligner) : (p.setAligner l x).hcr = p.hcr := rfl
@[simp] theorem Part.setAligner_pos (p : Part) (l : Lane) (x : Aligner) : (p.setAligner l x).pos = p.pos := rfl
@[simp] theorem Part.setAligner_trc (p : Part) (l : Lane) (x : Aligner) : (p.setAligner l x).trc = p.trc := rfl
@[simp] theorem Part.setAligner_sgt (p : Part) (l : Lane) (x : Aligner) : (p.setAligner l x).sgt = p.sgt := rfl
@[simp] theorem Part.setAligner_rft (p : Part) (l : Lane) (x : Aligner) : (p.setAligner l x).rft = p.rft := rfl
@[simp] theorem Part.setAligner_lanes (p : Part) (l : Lane) (x : Aligner) : (p.setAligner l x).lanes = p.lanes := rfl
@[simp] theorem Part.setAligner_aza (p : Part) (l : Lane) (x : Aligner) : (p.setAligner l x).aza = p.aza.set l x := rfl
@[simp] theorem Part.setAligner_det (p : Part) (l : Lane) (x : Aligner) : (p.setAligner l x).det = p.det := rfl
@[simp] theorem Part.setAligner_con (p : Part) (l : Lane) (x : Aligner) : (p.setAligner l x).con = p.con := rfl
@[simp] theorem Part.setAligner_log (p : Part) (l : Lane) (x : Aligner) : (p.setAligner l x).log = p.log := rfl
@[simp] theorem Part.setAligner_take (p : Part) (l : Lane) (x : Aligner) : (p.setAligner l x).take = p.take := rfl
@[simp] theorem Part.setAligner_cmn (p : Part) (l : Lane) (x : Aligner) : (p.setAligner l x).cmn = p.cmn := rfl
@[simp] theorem Part.setAligner_stopPending (p : Part) (l : Lane) (x : Aligner) : (p.setAligner l x).stopPending = p.stopPending := rfl
@[simp] theorem Part.setAligner_osc (p : Part) (l : Lane) (x : Aligner) : (p.setAligner l x).osc = p.osc := rfl
@[simp] theorem Part.setAligner_msp (p : Part) (l : Lane) (x : Aligner) : (p.setAligner l x).msp = p.msp := rfl
@[simp] theorem Part.setAligner_timebase (p : Part) (l : Lane) (x : Aligner) : (p.setAligner l x).timebase = p.timebase := rfl

@[simp] theorem Part.setDetector_hcr (p : Part) (t : Track) (d : Detector) : (p.setDetector t d).hcr = p.hcr := rfl
@[simp] theorem Part.setDetector_pos (p : Part) (t : Track) (d : Detector) : (p.setDetector t d).pos = p.pos := rfl
@[simp] theorem Part.setDetector_trc (p : Part) (t : Track) (d : Detector) : (p.setDetector t d).trc = p.trc := rfl
@[simp] theorem Part.setDetector_sgt (p : Part) (t : Track) (d : Detector) : (p.setDetector t d).sgt = p.sgt := rfl
@[simp] theorem Part.setDetector_rft (p : Part) (t : Track) (d : Detector) : (p.setDetector t d).rft = p.rft := rfl
@[simp] theorem Part.setDetector_lanes (p : Part) (t : Track) (d : Detector) : (p.setDetector t d).lanes = p.lanes := rfl
@[simp] theorem Part.setDetector_aza (p : Part) (t : Track) (d : Detector) : (p.setDetector t d).aza = p.aza := rfl
@[simp] theorem Part.setDetector_det (p : Part) (t : Track) (d : Detector) : (p.setDetector t d).det = p.det.set t d := rfl
@[simp] theorem Part.setDetector_con (p : Part) (t : Track) (d : Detector) : (p.setDetector t d).con = p.con := rfl
@[simp] theorem Part.setDetector_log (p : Part) (t : Track) (d : Detector) : (p.setDetector t d).log = p.log := rfl
@[simp] theorem Part.setDetector_take (p : Part) (t : Track) (d : Detector) : (p.setDetector t d).take = p.take := rfl
@[simp] theorem Part.setDetector_cmn (p : Part) (t : Track) (d : Detector) : (p.setDetector t d).cmn = p.cmn := rfl
@[simp] theorem Part.setDetector_stopPending (p : Part) (t : Track) (d : Detector) : (p.setDetector t d).stopPending = p.stopPending := rfl
@[simp] theorem Part.setDetector_osc (p : Part) (t : Track) (d : Detector) : (p.setDetector t d).osc = p.osc := rfl
@[simp] theorem Part.setDetector_msp (p : Part) (t : Track) (d : Detector) : (p.setDetector t d).msp = p.msp := rfl
@[simp] theorem Part.setDetector_timebase (p : Part) (t : Track) (d : Detector) : (p.setDetector t d).timebase = p.timebase := rfl

@[simp] theorem Part.setConcealer_hcr (p : Part) (t : Track) (c : Concealer) : (p.setConcealer t c).hcr = p.hcr := rfl
@[simp] theorem Part.setConcealer_pos (p : Part) (t : Track) (c : Concealer) : (p.setConcealer t c).pos = p.pos := rfl
@[simp] theorem Part.setConcealer_trc (p : Part) (t : Track) (c : Concealer) : (p.setConcealer t c).trc = p.trc := rfl
@[simp] theorem Part.setConcealer_sgt (p : Part) (t : Track) (c : Concealer) : (p.setConcealer t c).sgt = p.sgt := rfl
@[simp] theorem Part.setConcealer_rft (p : Part) (t : Track) (c : Concealer) : (p.setConcealer t c).rft = p.rft := rfl
@[simp] theorem Part.setConcealer_lanes (p : Part) (t : Track) (c : Concealer) : (p.setConcealer t c).lanes = p.lanes := rfl
@[simp] theorem Part.setConcealer_aza (p : Part) (t : Track) (c : Concealer) : (p.setConcealer t c).aza = p.aza := rfl
@[simp] theorem Part.setConcealer_det (p : Part) (t : Track) (c : Concealer) : (p.setConcealer t c).det = p.det := rfl
@[simp] theorem Part.setConcealer_con (p : Part) (t : Track) (c : Concealer) : (p.setConcealer t c).con = p.con.set t c := rfl
@[simp] theorem Part.setConcealer_log (p : Part) (t : Track) (c : Concealer) : (p.setConcealer t c).log = p.log := rfl
@[simp] theorem Part.setConcealer_take (p : Part) (t : Track) (c : Concealer) : (p.setConcealer t c).take = p.take := rfl
@[simp] theorem Part.setConcealer_cmn (p : Part) (t : Track) (c : Concealer) : (p.setConcealer t c).cmn = p.cmn := rfl
@[simp] theorem Part.setConcealer_stopPending (p : Part) (t : Track) (c : Concealer) : (p.setConcealer t c).stopPending = p.stopPending := rfl
@[simp] theorem Part.setConcealer_osc (p : Part) (t : Track) (c : Concealer) : (p.setConcealer t c).osc = p.osc := rfl
@[simp] theorem Part.setConcealer_msp (p : Part) (t : Track) (c : Concealer) : (p.setConcealer t c).msp = p.msp := rfl
@[simp] theorem Part.setConcealer_timebase (p : Part) (t : Track) (c : Concealer) : (p.setConcealer t c).timebase = p.timebase := rfl

@[simp] theorem Part.setStatus_hcr (p : Part) (id : CondId) (c : CondStatus) : (p.setStatus id c).hcr = p.hcr := rfl
@[simp] theorem Part.setStatus_pos (p : Part) (id : CondId) (c : CondStatus) : (p.setStatus id c).pos = p.pos := rfl
@[simp] theorem Part.setStatus_trc (p : Part) (id : CondId) (c : CondStatus) : (p.setStatus id c).trc = p.trc := rfl
@[simp] theorem Part.setStatus_sgt (p : Part) (id : CondId) (c : CondStatus) : (p.setStatus id c).sgt = p.sgt := rfl
@[simp] theorem Part.setStatus_rft (p : Part) (id : CondId) (c : CondStatus) : (p.setStatus id c).rft = p.rft := rfl
@[simp] theorem Part.setStatus_lanes (p : Part) (id : CondId) (c : CondStatus) : (p.setStatus id c).lanes = p.lanes := rfl
@[simp] theorem Part.setStatus_aza (p : Part) (id : CondId) (c : CondStatus) : (p.setStatus id c).aza = p.aza := rfl
@[simp] theorem Part.setStatus_det (p : Part) (id : CondId) (c : CondStatus) : (p.setStatus id c).det = p.det := rfl
@[simp] theorem Part.setStatus_con (p : Part) (id : CondId) (c : CondStatus) : (p.setStatus id c).con = p.con := rfl
@[simp] theorem Part.setStatus_log (p : Part) (id : CondId) (c : CondStatus) : (p.setStatus id c).log = p.log := rfl
@[simp] theorem Part.setStatus_take (p : Part) (id : CondId) (c : CondStatus) : (p.setStatus id c).take = p.take := rfl
@[simp] theorem Part.setStatus_cmn (p : Part) (id : CondId) (c : CondStatus) : (p.setStatus id c).cmn = p.cmn.set id c := rfl
@[simp] theorem Part.setStatus_stopPending (p : Part) (id : CondId) (c : CondStatus) : (p.setStatus id c).stopPending = p.stopPending := rfl
@[simp] theorem Part.setStatus_osc (p : Part) (id : CondId) (c : CondStatus) : (p.setStatus id c).osc = p.osc := rfl
@[simp] theorem Part.setStatus_msp (p : Part) (id : CondId) (c : CondStatus) : (p.setStatus id c).msp = p.msp := rfl
@[simp] theorem Part.setStatus_timebase (p : Part) (id : CondId) (c : CondStatus) : (p.setStatus id c).timebase = p.timebase := rfl

@[simp] theorem Part.setOp_hcr (p : Part) (op : OpRecord) : (p.setOp op).hcr = p.hcr := rfl
@[simp] theorem Part.setOp_pos (p : Part) (op : OpRecord) : (p.setOp op).pos = p.pos := rfl
@[simp] theorem Part.setOp_trc (p : Part) (op : OpRecord) : (p.setOp op).trc = { p.trc with op := op } := rfl
@[simp] theorem Part.setOp_sgt (p : Part) (op : OpRecord) : (p.setOp op).sgt = p.sgt := rfl
@[simp] theorem Part.setOp_rft (p : Part) (op : OpRecord) : (p.setOp op).rft = p.rft := rfl
@[simp] theorem Part.setOp_lanes (p : Part) (op : OpRecord) : (p.setOp op).lanes = p.lanes := rfl
@[simp] theorem Part.setOp_aza (p : Part) (op : OpRecord) : (p.setOp op).aza = p.aza := rfl
@[simp] theorem Part.setOp_det (p : Part) (op : OpRecord) : (p.setOp op).det = p.det := rfl
@[simp] theorem Part.setOp_con (p : Part) (op : OpRecord) : (p.setOp op).con = p.con := rfl
@[simp] theorem Part.setOp_log (p : Part) (op : OpRecord) : (p.setOp op).log = p.log := rfl
@[simp] theorem Part.setOp_take (p : Part) (op : OpRecord) : (p.setOp op).take = p.take := rfl
@[simp] theorem Part.setOp_cmn (p : Part) (op : OpRecord) : (p.setOp op).cmn = p.cmn := rfl
@[simp] theorem Part.setOp_stopPending (p : Part) (op : OpRecord) : (p.setOp op).stopPending = p.stopPending := rfl
@[simp] theorem Part.setOp_osc (p : Part) (op : OpRecord) : (p.setOp op).osc = p.osc := rfl
@[simp] theorem Part.setOp_msp (p : Part) (op : OpRecord) : (p.setOp op).msp = p.msp := rfl
@[simp] theorem Part.setOp_timebase (p : Part) (op : OpRecord) : (p.setOp op).timebase = p.timebase := rfl

@[simp] theorem Part.post_hcr (p : Part) (c : NoticeContent) : (p.post c).hcr = p.hcr := rfl
@[simp] theorem Part.post_pos (p : Part) (c : NoticeContent) : (p.post c).pos = p.pos := rfl
@[simp] theorem Part.post_trc (p : Part) (c : NoticeContent) : (p.post c).trc = p.trc := rfl
@[simp] theorem Part.post_sgt (p : Part) (c : NoticeContent) : (p.post c).sgt = p.sgt := rfl
@[simp] theorem Part.post_rft (p : Part) (c : NoticeContent) : (p.post c).rft = p.rft := rfl
@[simp] theorem Part.post_lanes (p : Part) (c : NoticeContent) : (p.post c).lanes = p.lanes := rfl
@[simp] theorem Part.post_aza (p : Part) (c : NoticeContent) : (p.post c).aza = p.aza := rfl
@[simp] theorem Part.post_det (p : Part) (c : NoticeContent) : (p.post c).det = p.det := rfl
@[simp] theorem Part.post_con (p : Part) (c : NoticeContent) : (p.post c).con = p.con := rfl
@[simp] theorem Part.post_log (p : Part) (c : NoticeContent) : (p.post c).log = p.log := rfl
@[simp] theorem Part.post_take (p : Part) (c : NoticeContent) : (p.post c).take = p.take := rfl
@[simp] theorem Part.post_cmn (p : Part) (c : NoticeContent) : (p.post c).cmn = p.cmn := rfl
@[simp] theorem Part.post_stopPending (p : Part) (c : NoticeContent) : (p.post c).stopPending = p.stopPending := rfl
@[simp] theorem Part.post_osc (p : Part) (c : NoticeContent) : (p.post c).osc = p.osc := rfl
@[simp] theorem Part.post_msp (p : Part) (c : NoticeContent) : (p.post c).msp = { p.msp with notices := postNotice c p.msp.notices } := rfl
@[simp] theorem Part.post_timebase (p : Part) (c : NoticeContent) : (p.post c).timebase = p.timebase := rfl

@[simp] theorem Part.reply_hcr (p : Part) (r : Reply) : (p.reply r).hcr = p.hcr := rfl
@[simp] theorem Part.reply_pos (p : Part) (r : Reply) : (p.reply r).pos = p.pos := rfl
@[simp] theorem Part.reply_trc (p : Part) (r : Reply) : (p.reply r).trc = p.trc := rfl
@[simp] theorem Part.reply_sgt (p : Part) (r : Reply) : (p.reply r).sgt = p.sgt := rfl
@[simp] theorem Part.reply_rft (p : Part) (r : Reply) : (p.reply r).rft = p.rft := rfl
@[simp] theorem Part.reply_lanes (p : Part) (r : Reply) : (p.reply r).lanes = p.lanes := rfl
@[simp] theorem Part.reply_aza (p : Part) (r : Reply) : (p.reply r).aza = p.aza := rfl
@[simp] theorem Part.reply_det (p : Part) (r : Reply) : (p.reply r).det = p.det := rfl
@[simp] theorem Part.reply_con (p : Part) (r : Reply) : (p.reply r).con = p.con := rfl
@[simp] theorem Part.reply_log (p : Part) (r : Reply) : (p.reply r).log = p.log := rfl
@[simp] theorem Part.reply_take (p : Part) (r : Reply) : (p.reply r).take = p.take := rfl
@[simp] theorem Part.reply_cmn (p : Part) (r : Reply) : (p.reply r).cmn = p.cmn := rfl
@[simp] theorem Part.reply_stopPending (p : Part) (r : Reply) : (p.reply r).stopPending = p.stopPending := rfl
@[simp] theorem Part.reply_osc (p : Part) (r : Reply) : (p.reply r).osc = p.osc := rfl
@[simp] theorem Part.reply_msp (p : Part) (r : Reply) : (p.reply r).msp = { p.msp with replies := p.msp.replies ++ [r] } := rfl
@[simp] theorem Part.reply_timebase (p : Part) (r : Reply) : (p.reply r).timebase = p.timebase := rfl

@[simp] theorem Part.advance_hcr (p : Part) (now : Nat) : (p.advance now).hcr = p.hcr := rfl
@[simp] theorem Part.advance_pos (p : Part) (now : Nat) : (p.advance now).pos = p.pos := rfl
@[simp] theorem Part.advance_trc (p : Part) (now : Nat) : (p.advance now).trc = p.trc := rfl
@[simp] theorem Part.advance_sgt (p : Part) (now : Nat) : (p.advance now).sgt = p.sgt := rfl
@[simp] theorem Part.advance_rft (p : Part) (now : Nat) : (p.advance now).rft = p.rft := rfl
@[simp] theorem Part.advance_lanes (p : Part) (now : Nat) : (p.advance now).lanes = p.lanes := rfl
@[simp] theorem Part.advance_aza (p : Part) (now : Nat) : (p.advance now).aza = p.aza := rfl
@[simp] theorem Part.advance_det (p : Part) (now : Nat) : (p.advance now).det = p.det := rfl
@[simp] theorem Part.advance_con (p : Part) (now : Nat) : (p.advance now).con = p.con := rfl
@[simp] theorem Part.advance_log (p : Part) (now : Nat) : (p.advance now).log = p.log := rfl
@[simp] theorem Part.advance_take (p : Part) (now : Nat) : (p.advance now).take = p.take := rfl
@[simp] theorem Part.advance_cmn (p : Part) (now : Nat) : (p.advance now).cmn = p.cmn := rfl
@[simp] theorem Part.advance_stopPending (p : Part) (now : Nat) : (p.advance now).stopPending = p.stopPending := rfl
@[simp] theorem Part.advance_osc (p : Part) (now : Nat) : (p.advance now).osc = p.osc := rfl
@[simp] theorem Part.advance_msp (p : Part) (now : Nat) : (p.advance now).msp = p.msp := rfl
@[simp] theorem Part.advance_timebase (p : Part) (now : Nat) : (p.advance now).timebase = max p.timebase now := rfl

@[simp] theorem State.onPart_pending (s : State) (f : Part → Part) : (s.onPart f).pending = s.pending := rfl
@[simp] theorem State.onPart_setup (s : State) (f : Part → Part) : (s.onPart f).setup = s.setup := rfl
@[simp] theorem State.onPart_rings (s : State) (f : Part → Part) : (s.onPart f).rings = s.rings := rfl
@[simp] theorem State.onPart_bank (s : State) (f : Part → Part) : (s.onPart f).bank = s.bank := rfl
@[simp] theorem State.onPart_part (s : State) (f : Part → Part) : (s.onPart f).part = f s.part := rfl

@[simp] theorem PerLane.get_set_same {α : Type} (x : PerLane α) (l : Lane) (v : α) : (x.set l v).get l = v := by cases l <;> rfl

@[simp] theorem PerLane.set_get {α : Type} (x : PerLane α) (l : Lane) : x.set l (x.get l) = x := by cases l <;> rfl

@[simp] theorem PerLane.set_set {α : Type} (x : PerLane α) (l : Lane) (v w : α) : (x.set l v).set l w = x.set l w := by
  cases l <;> rfl

theorem PerLane.get_set_other {α : Type} (x : PerLane α) {l m : Lane} (v : α) (h : m ≠ l) : (x.set l v).get m = x.get m := by
  cases l <;> cases m <;> first | rfl | exact absurd rfl h

@[simp] theorem PerTrack.get_set_same {α : Type} (x : PerTrack α) (t : Track) (v : α) : (x.set t v).get t = v := by
  cases t <;> rfl

theorem PerTrack.get_set_other {α : Type} (x : PerTrack α) {t r : Track} (v : α) (h : r ≠ t) : (x.set t v).get r = x.get r := by
  cases t <;> cases r <;> first | rfl | exact absurd rfl h

@[simp] theorem PerCond.get_set_same {α : Type} (x : PerCond α) (id : CondId) (v : α) : (x.set id v).get id = v := by
  rcases id with _ | _ | _ | _ | _ | _ | _ | l | l | l <;> first | rfl | (cases l <;> rfl)

theorem PerCond.get_set_other {α : Type} (x : PerCond α) {id jd : CondId} (v : α) (h : jd ≠ id) :
    (x.set id v).get jd = x.get jd := by
  rcases id with _ | _ | _ | _ | _ | _ | _ | l | l | l <;> rcases jd with _ | _ | _ | _ | _ | _ | _ | m | m | m <;>
    first | rfl | exact absurd rfl h | (cases l <;> cases m <;> first | rfl | exact absurd rfl h)

end Sys2Proof.Machine
end

