-- ==== Sys2Proof/Laws/Flags.lean ====
section
/-! SUPPORT. What a report to the Condition Monitor can do, said once: the condition records, the notice queue and the stop request, and nothing else of the part. -/

namespace Sys2Proof.Machine

open Sys2Proof.Safety

/-- Without a stop request nothing is taken. -/
theorem Part.takeStop_none {p : Part} (u : Setup) (h : p.stopPending = false) : p.takeStop u = p := by
  unfold Part.takeStop; rw [h]; rfl

/-- Setting a flag touches one record and the notice queue. -/
theorem Part.setFlag_spec (p : Part) (id : CondId) : ∃ c m,
    p.setFlag id = { p with cmn := c, msp := { p.msp with notices := m } }
      ∧ (c.get id).flag = true ∧ (c.get id).present = (p.cmn.get id).present ∧ (c.get id).hold = (p.cmn.get id).hold
      ∧ (∀ jd, jd ≠ id → c.get jd = p.cmn.get jd) ∧ m = (if (p.cmn.get id).flag then p.msp.notices
          else postNotice (.conditionRaised id.mask) p.msp.notices) := by
  unfold Part.setFlag
  simp only
  split
  · rename_i h; exact ⟨p.cmn, p.msp.notices, rfl, h, rfl, rfl, fun _ _ => rfl, rfl⟩
  · rename_i h
    exact ⟨p.cmn.set id { p.cmn.get id with flag := true }, _, rfl, by rw [PerCond.get_set_same], by rw [PerCond.get_set_same],
      by rw [PerCond.get_set_same], fun jd hj => PerCond.get_set_other _ _ hj, rfl⟩

/-- A raised condition: its flag is set unless its policy is OFF, and the stop request is made only under STOP, or under
MUTE_LANE with scope DEVICE. -/
theorem Part.raise_spec (u : Setup) (id : CondId) (p : Part) : ∃ c b m,
    p.raise u id = { p with cmn := c, stopPending := b, msp := { p.msp with notices := m } }
      ∧ ((u.policies.get id).policy ≠ .off → (c.get id).flag = true)
      ∧ (c.get id).present = (p.cmn.get id).present ∧ (c.get id).hold = (p.cmn.get id).hold
      ∧ (∀ jd, jd ≠ id → c.get jd = p.cmn.get jd)
      ∧ (neverStops (u.policies.get id) → b = p.stopPending)
      ∧ ((u.policies.get id).policy = .stop → b = true)
      ∧ (p.stopPending = true → b = true) := by
  obtain ⟨c, m, e, hf, hp, hh, ho, -⟩ := p.setFlag_spec id
  unfold Part.raise neverStops
  simp only
  cases hpol : (u.policies.get id).policy
  · exact ⟨c, true, m, by rw [e], fun _ => hf, hp, hh, ho, by simp, fun _ => rfl, fun _ => rfl⟩
  · cases hs : (u.policies.get id).scope
    · exact ⟨c, p.stopPending, m, by rw [e], fun _ => hf, hp, hh, ho, fun _ => rfl, by simp, fun h => h⟩
    · exact ⟨c, true, m, by rw [e], fun _ => hf, hp, hh, ho, by simp, fun _ => rfl, fun _ => rfl⟩
  · exact ⟨c, p.stopPending, m, by rw [e], fun _ => hf, hp, hh, ho, fun _ => rfl, by simp, fun h => h⟩
  · exact ⟨c, p.stopPending, m, by rw [e], fun _ => hf, hp, hh, ho, fun _ => rfl, by simp, fun h => h⟩
  · exact ⟨p.cmn, p.stopPending, p.msp.notices, rfl, by simp, rfl, rfl, fun _ _ => rfl, fun _ => rfl, by simp, fun h => h⟩

/-- A report of presence. -/
theorem Part.reportPresent_spec (u : Setup) (id : CondId) (p : Part) : ∃ c b m,
    p.reportPresent u id = { p with cmn := c, stopPending := b, msp := { p.msp with notices := m } }
      ∧ (c.get id).present = true ∧ (c.get id).hold = (p.cmn.get id).hold
      ∧ ((p.cmn.get id).present = false → (u.policies.get id).policy ≠ .off → (c.get id).flag = true)
      ∧ (∀ jd, jd ≠ id → c.get jd = p.cmn.get jd)
      ∧ (neverStops (u.policies.get id) → b = p.stopPending) := by
  unfold Part.reportPresent
  simp only
  split
  · rename_i h; exact ⟨p.cmn, p.stopPending, p.msp.notices, rfl, h, rfl, by simp [h], fun _ _ => rfl, fun _ => rfl⟩
  · obtain ⟨c, b, m, e, hf, hp, hh, ho, hn, -, -⟩ :=
      Part.raise_spec u id (p.setStatus id { p.cmn.get id with present := true })
    refine ⟨c, b, m, e, ?_, ?_, fun _ h => hf h, fun jd hj => ?_, hn⟩
    · rw [hp]; simp
    · rw [hh]; simp
    · rw [ho jd hj]; exact PerCond.get_set_other _ _ hj

/-- A report of absence: the flag goes only under AUTO. -/
theorem Part.reportAbsent_spec (u : Setup) (id : CondId) (p : Part) : ∃ c,
    p.reportAbsent u id = { p with cmn := c } ∧ (c.get id).present = false ∧ (c.get id).hold = (p.cmn.get id).hold
      ∧ ((u.policies.get id).policy ≠ .auto → (c.get id).flag = (p.cmn.get id).flag)
      ∧ (∀ jd, jd ≠ id → c.get jd = p.cmn.get jd) := by
  unfold Part.reportAbsent
  simp only
  split
  · refine ⟨p.cmn.set id _, rfl, by rw [PerCond.get_set_same], by rw [PerCond.get_set_same], fun h => ?_,
      fun jd hj => PerCond.get_set_other _ _ hj⟩
    rw [PerCond.get_set_same]; simp [h]
  · rename_i h; exact ⟨p.cmn, rfl, by simpa using h, rfl, fun _ => rfl, fun _ _ => rfl⟩

end Sys2Proof.Machine
end

