-- ==== Sys2Proof/Laws/Memory.lean ====
section
/-! SUPPORT. The addressed buffers: what a read sees after a write, and every write keeps the canonical form. -/

namespace Sys2Proof.Machine

@[simp] theorem Memory.read_nil (a : Nat) : Memory.read [] a = 0 := rfl

theorem Memory.wfFrom_mono {m : Memory} {b c : Nat} (h : Memory.wfFrom c m = true) (hb : b ≤ c) : Memory.wfFrom b m = true := by
  cases m with
  | nil => rfl
  | cons x rest =>
    simp only [Memory.wfFrom, Bool.and_eq_true, decide_eq_true_eq] at h ⊢
    exact ⟨⟨le_trans hb h.1.1, h.1.2⟩, h.2⟩

theorem Memory.read_below {m : Memory} {b a : Nat} (h : Memory.wfFrom b m = true) (ha : a < b) : m.read a = 0 := by
  induction m generalizing b with
  | nil => rfl
  | cons x rest ih =>
    simp only [Memory.wfFrom, Bool.and_eq_true, decide_eq_true_eq] at h
    simp only [Memory.read]
    rw [if_neg (by omega)]
    exact ih h.2 (by omega)

/-- A place just written reads what was written. -/
theorem Memory.read_write_same {m : Memory} {b : Nat} (h : Memory.wfFrom b m = true) (a : Nat) (v : Int) :
    (m.write a v).read a = v := by
  induction m generalizing b with
  | nil => by_cases hv : v = 0 <;> simp [Memory.write, Memory.read, hv]
  | cons x rest ih =>
    simp only [Memory.wfFrom, Bool.and_eq_true, decide_eq_true_eq] at h
    simp only [Memory.write]
    split
    · rename_i hlt
      split
      · rename_i hv
        have hx : x.1 ≠ a := by omega
        simp only [Memory.read, if_neg hx]
        exact (Memory.read_below h.2 (by omega)).trans hv.symm
      · simp [Memory.read]
    · split
      · rename_i _ heq
        split
        · rename_i hv
          exact (Memory.read_below h.2 (by omega)).trans hv.symm
        · simp [Memory.read]
      · rename_i hge hne
        have hx : x.1 ≠ a := by omega
        simp only [Memory.read, if_neg hx]
        exact ih h.2

/-- A place just written with a value that is not 0 reads it, in any list. -/
theorem Memory.read_write_mark (m : Memory) (a : Nat) (v : Int) (hv : v ≠ 0) : (m.write a v).read a = v := by
  induction m with
  | nil => simp [Memory.write, Memory.read, hv]
  | cons x rest ih =>
    simp only [Memory.write, if_neg hv]
    split
    · simp [Memory.read]
    · split
      · simp [Memory.read]
      · rename_i hne
        simp only [Memory.read, if_neg (Ne.symm hne)]
        exact ih

/-- Every other place reads what it read before. -/
theorem Memory.read_write_other (m : Memory) {a c : Nat} (v : Int) (h : c ≠ a) : (m.write a v).read c = m.read c := by
  induction m with
  | nil =>
    by_cases hv : v = 0
    · simp [Memory.write, hv]
    · simp [Memory.write, hv, Memory.read, h.symm]
  | cons x rest ih =>
    simp only [Memory.write]
    split
    · split
      · rfl
      · simp [Memory.read, h.symm]
    · split
      · rename_i heq
        have hx : x.1 ≠ c := by omega
        split
        · simp [Memory.read, hx]
        · simp [Memory.read, hx, h.symm]
      · simp only [Memory.read, ih]

theorem Memory.wfFrom_write {m : Memory} {b a : Nat} (v : Int) (h : Memory.wfFrom b m = true) (ha : b ≤ a) :
    Memory.wfFrom b (m.write a v) = true := by
  induction m generalizing b with
  | nil => by_cases hv : v = 0 <;> simp [Memory.write, Memory.wfFrom, hv, ha]
  | cons x rest ih =>
    have h' := h
    simp only [Memory.wfFrom, Bool.and_eq_true, decide_eq_true_eq] at h
    simp only [Memory.write]
    split
    · rename_i hlt
      split
      · exact h'
      · rename_i hv
        simp only [Memory.wfFrom, Bool.and_eq_true, decide_eq_true_eq]
        exact ⟨⟨ha, hv⟩, ⟨by omega, h.1.2⟩, h.2⟩
    · split
      · rename_i heq
        split
        · exact Memory.wfFrom_mono h.2 (by omega)
        · rename_i hv
          simp only [Memory.wfFrom, Bool.and_eq_true, decide_eq_true_eq]
          exact ⟨⟨ha, hv⟩, heq ▸ h.2⟩
      · simp only [Memory.wfFrom, Bool.and_eq_true, decide_eq_true_eq]
        exact ⟨h.1, ih h.2 (by omega)⟩

/-- A write keeps the canonical form. -/
theorem Memory.wf_write {m : Memory} (a : Nat) (v : Int) (h : m.wf = true) : (m.write a v).wf = true :=
  Memory.wfFrom_write v h (Nat.zero_le a)

theorem Memory.wf_writeFrom {m : Memory} (a : Nat) (vs : List Int) (h : m.wf = true) : (writeFrom m a vs).wf = true := by
  induction vs generalizing m a with
  | nil => exact h
  | cons v rest ih => exact ih (a + 1) (Memory.wf_write a v h)

/-- Places before the first written keep their values. -/
theorem Memory.read_writeFrom_outside (m : Memory) (a c : Nat) (vs : List Int) (h : c < a ∨ a + vs.length ≤ c) :
    (writeFrom m a vs).read c = m.read c := by
  induction vs generalizing m a with
  | nil => rfl
  | cons v rest ih =>
    simp only [List.length_cons] at h
    simp only [writeFrom]
    rw [ih (m.write a v) (a + 1) (by omega), Memory.read_write_other m v (by omega)]

/-- The k-th place written holds the k-th value. -/
theorem Memory.read_writeFrom_inside {m : Memory} (a : Nat) (vs : List Int) (h : m.wf = true) (k : Nat) (hk : k < vs.length) :
    (writeFrom m a vs).read (a + k) = vs[k] := by
  induction vs generalizing m a k with
  | nil => simp at hk
  | cons v rest ih =>
    simp only [writeFrom]
    cases k with
    | zero =>
      rw [Memory.read_writeFrom_outside _ _ _ _ (by omega)]
      exact Memory.read_write_same h a v
    | succ k =>
      have := ih (a := a + 1) (Memory.wf_write a v h) k (by simpa using hk)
      rw [show a + (k + 1) = a + 1 + k by omega, this]
      simp

end Sys2Proof.Machine
end

