-- ==== Sys2Proof/Laws/Works.lean ====
section
/-! SUPPORT. What the blocks that work inside a capture (trackers, aligner, detectors, lanes, Condition Monitor) can do to the part, said once: they leave the position, the transport, the take, the link and the replies alone, and keep every queue within its capacity. -/

namespace Sys2Proof.Machine

open Sys2Proof.Safety

/-- The notice queue, lane buffers and log are within their rules. -/
def Part.bounded (p : Part) : Prop :=
  noticesLegal p.msp.notices = true ∧ laneFits p.lanes.a = true ∧ laneFits p.lanes.b = true
    ∧ p.log.length ≤ Config.maxLog

/-- q is what working on p can lead to. -/
structure Part.Works (p q : Part) : Prop where
  pos : q.pos = p.pos
  trc : q.trc = p.trc
  device : q.take.device = p.take.device
  number : q.take.number = p.take.number
  osc : q.osc = p.osc
  timebase : q.timebase = p.timebase
  assembler : q.msp.assembler = p.msp.assembler
  replies : q.msp.replies = p.msp.replies
  link : q.hcr.link = p.hcr.link
  expected : q.hcr.expected = p.hcr.expected
  lastGood : q.hcr.lastGood = p.hcr.lastGood
  run : q.hcr.run = p.hcr.run
  capturing : q.hcr.capturing = p.hcr.capturing
  nextIndex : q.hcr.nextIndex = p.hcr.nextIndex
  bounded : p.bounded → q.bounded

theorem Part.Works.refl (p : Part) : p.Works p := ⟨rfl, rfl, rfl, rfl, rfl, rfl, rfl, rfl, rfl, rfl, rfl, rfl, rfl, rfl, id⟩

theorem Part.Works.trans {p q r : Part} (h : p.Works q) (k : q.Works r) : p.Works r :=
  ⟨k.pos.trans h.pos, k.trc.trans h.trc, k.device.trans h.device, k.number.trans h.number, k.osc.trans h.osc,
   k.timebase.trans h.timebase, k.assembler.trans h.assembler, k.replies.trans h.replies, k.link.trans h.link,
   k.expected.trans h.expected, k.lastGood.trans h.lastGood, k.run.trans h.run, k.capturing.trans h.capturing,
   k.nextIndex.trans h.nextIndex, fun b => k.bounded (h.bounded b)⟩

theorem Part.Works.ite {p q r : Part} {c : Prop} [Decidable c] (h : p.Works q) (k : p.Works r) : p.Works (if c then q else r) := by
  split <;> assumption

/-- Each step of a fold works. -/
theorem Part.Works.foldl {α : Type} (f : Part → α → Part) (hf : ∀ (p : Part) (x : α), p.Works (f p x)) (xs : List α) (p : Part) :
    p.Works (xs.foldl f p) := by
  induction xs generalizing p with
  | nil => exact .refl p
  | cons x rest ih => exact (hf p x).trans (ih (f p x))

/-! ## The records -/

theorem Part.works_setTracker (p : Part) (l : Lane) (t : Tracker) : p.Works (p.setTracker l t) :=
  ⟨rfl, rfl, rfl, rfl, rfl, rfl, rfl, rfl, rfl, rfl, rfl, rfl, rfl, rfl, id⟩

theorem Part.works_setAligner (p : Part) (l : Lane) (x : Aligner) : p.Works (p.setAligner l x) :=
  ⟨rfl, rfl, rfl, rfl, rfl, rfl, rfl, rfl, rfl, rfl, rfl, rfl, rfl, rfl, id⟩

theorem Part.works_setDetector (p : Part) (t : Track) (d : Detector) : p.Works (p.setDetector t d) :=
  ⟨rfl, rfl, rfl, rfl, rfl, rfl, rfl, rfl, rfl, rfl, rfl, rfl, rfl, rfl, id⟩

theorem Part.works_setConcealer (p : Part) (t : Track) (c : Concealer) : p.Works (p.setConcealer t c) :=
  ⟨rfl, rfl, rfl, rfl, rfl, rfl, rfl, rfl, rfl, rfl, rfl, rfl, rfl, rfl, id⟩

theorem Part.works_setStatus (p : Part) (id : CondId) (c : CondStatus) : p.Works (p.setStatus id c) :=
  ⟨rfl, rfl, rfl, rfl, rfl, rfl, rfl, rfl, rfl, rfl, rfl, rfl, rfl, rfl, fun h => h⟩

theorem Part.works_setProducer (p : Part) (l : Lane) (x : Producer)
    (h : laneFits (p.lanes.get l) = true → laneFits x = true) : p.Works (p.setProducer l x) := by
  refine ⟨rfl, rfl, rfl, rfl, rfl, rfl, rfl, rfl, rfl, rfl, rfl, rfl, rfl, rfl, fun ⟨hn, ha, hb, hl⟩ => ?_⟩
  cases l
  · exact ⟨hn, h ha, hb, hl⟩
  · exact ⟨hn, ha, h hb, hl⟩

theorem Part.works_stopPending (p : Part) (b : Bool) : p.Works { p with stopPending := b } :=
  ⟨rfl, rfl, rfl, rfl, rfl, rfl, rfl, rfl, rfl, rfl, rfl, rfl, rfl, rfl, id⟩

theorem HeadReceiver.wordDue_cases (h : HeadReceiver) (pair : EqPair) :
    h.wordDue pair = { h with wordSending := some pair } ∨ h.wordDue pair = { h with wordWaiting := some pair } := by
  unfold HeadReceiver.wordDue
  split
  · exact .inl rfl
  · exact .inr rfl

theorem Part.works_word (p : Part) (pair : EqPair) : p.Works { p with hcr := p.hcr.wordDue pair } := by
  rcases p.hcr.wordDue_cases pair with h | h <;> rw [h] <;>
    exact ⟨rfl, rfl, rfl, rfl, rfl, rfl, rfl, rfl, rfl, rfl, rfl, rfl, rfl, rfl, id⟩

/-! ## Notices (10, R186) -/

theorem NoticeContent.kind_replaceBy (old new : NoticeContent) (h : old.kind = new.kind) : (old.replaceBy new).kind = old.kind := by
  unfold NoticeContent.replaceBy
  split
  · rfl
  · exact h.symm

theorem postNotice_kinds (c : NoticeContent) (k : NoticeKind) (q : List Notice) (h : (postNotice c q).any fun m => decide (m.content.kind = k)) :
    (q.any fun m => decide (m.content.kind = k)) ∨ c.kind = k := by
  induction q with
  | nil => right; simpa [postNotice] using h
  | cons n rest ih =>
    simp only [postNotice] at h
    split at h
    · rename_i hk
      left
      simp only [List.any_cons, Bool.or_eq_true, decide_eq_true_eq, NoticeContent.kind_replaceBy _ _ hk] at h ⊢
      exact h
    · simp only [List.any_cons, Bool.or_eq_true] at h ⊢
      rcases h with h | h
      · exact .inl (.inl h)
      · rcases ih h with h | h
        · exact .inl (.inr h)
        · exact .inr h

/-- Posting keeps the queue's rules: no kind twice, every count in 1..255. -/
theorem postNotice_legal (c : NoticeContent) (q : List Notice) (h : noticesLegal q = true) :
    noticesLegal (postNotice c q) = true := by
  simp only [noticesLegal, Bool.and_eq_true] at h ⊢
  induction q with
  | nil => exact ⟨rfl, rfl⟩
  | cons n rest ih =>
    obtain ⟨hd, hc⟩ := h
    simp only [kindsDistinct, Bool.and_eq_true, List.all_cons] at hd hc
    simp only [postNotice]
    split
    · rename_i hk
      refine ⟨?_, ?_⟩
      · simp only [kindsDistinct, Bool.and_eq_true, NoticeContent.kind_replaceBy _ _ hk]
        exact hd
      · simp only [List.all_cons, Bool.and_eq_true]
        refine ⟨?_, hc.2⟩
        simp only [within, Bool.and_eq_true, decide_eq_true_eq]
        omega
    · rename_i hk
      have := ih ⟨hd.2, hc.2⟩
      refine ⟨?_, by simp only [List.all_cons, Bool.and_eq_true]; exact ⟨hc.1, this.2⟩⟩
      simp only [kindsDistinct, Bool.and_eq_true]
      refine ⟨?_, this.1⟩
      rw [List.all_eq_true]
      intro m hm
      simp only [decide_eq_true_eq]
      intro hkind
      rcases postNotice_kinds c n.content.kind rest (by
        rw [List.any_eq_true]; exact ⟨m, hm, by simpa using hkind⟩) with h | h
      · rw [List.any_eq_true] at h
        obtain ⟨x, hx, he⟩ := h
        have := (List.all_eq_true.mp hd.1) x hx
        simp only [decide_eq_true_eq] at this he
        exact this he
      · exact hk h.symm

theorem Part.works_post (p : Part) (c : NoticeContent) : p.Works (p.post c) :=
  ⟨rfl, rfl, rfl, rfl, rfl, rfl, rfl, rfl, rfl, rfl, rfl, rfl, rfl, rfl,
   fun ⟨hn, ha, hb, hl⟩ => ⟨postNotice_legal c _ hn, ha, hb, hl⟩⟩

/-! ## Conditions (10) -/

theorem Part.works_setFlag (p : Part) (id : CondId) : p.Works (p.setFlag id) := by
  unfold Part.setFlag
  exact .ite (.refl p) ((p.works_setStatus id _).trans (Part.works_post _ _))

theorem Part.works_raise (u : Setup) (id : CondId) (p : Part) : p.Works (p.raise u id) := by
  unfold Part.raise
  dsimp only
  split
  · exact (p.works_setFlag id).trans (Part.works_stopPending _ true)
  · split
    · exact p.works_setFlag id
    · exact (p.works_setFlag id).trans (Part.works_stopPending _ true)
  · exact p.works_setFlag id
  · exact p.works_setFlag id
  · exact .refl p

theorem Part.works_occur (u : Setup) (id : CondId) (p : Part) : p.Works (p.occur u id) := p.works_raise u id

theorem Part.works_reportPresent (u : Setup) (id : CondId) (p : Part) : p.Works (p.reportPresent u id) := by
  unfold Part.reportPresent
  exact .ite (.refl p) ((p.works_setStatus id _).trans (Part.works_raise u id _))

theorem Part.works_reportAbsent (u : Setup) (id : CondId) (p : Part) : p.Works (p.reportAbsent u id) := by
  unfold Part.reportAbsent
  exact .ite (p.works_setStatus id _) (.refl p)

theorem Part.works_report (u : Setup) (id : CondId) (b : Bool) (p : Part) : p.Works (p.report u id b) := by
  unfold Part.report
  exact .ite (p.works_reportPresent u id) (p.works_reportAbsent u id)

theorem Part.works_clipExpire (u : Setup) (l : Lane) (p : Part) : p.Works (p.clipExpire u l) := by
  unfold Part.clipExpire
  exact .ite (p.works_setStatus _ _) (.refl p)

theorem Part.works_clipReport (u : Setup) (l : Lane) (a b : Int) (p : Part) : p.Works (p.clipReport u l a b) := by
  unfold Part.clipReport Part.clipOccur Part.clipLower
  refine .ite ((p.works_setStatus _ _).trans (Part.works_raise u _ _)) ?_
  exact .ite (.refl p) ((p.works_setStatus _ _).trans (Part.works_clipExpire u l _))

theorem Part.works_policySet (u : Setup) (id : CondId) (p : Part) : p.Works (p.policySet u id) := by
  unfold Part.policySet
  dsimp only
  split
  · exact .ite (p.works_raise u id) (.refl p)
  · exact .ite (p.works_raise u id) (.refl p)
  · exact .ite (p.works_raise u id) (.refl p)
  · exact .ite (p.works_setFlag id) (p.works_setStatus id _)
  · exact p.works_setStatus id _

/-! ## Lane timelines (05, R95 to R100) -/

theorem Producer.apply_fifo (r : RatePair) (x : Producer) (e : TimelineEntry) : (x.apply r e).fifo = x.fifo := by
  unfold Producer.apply; split <;> rfl

theorem Producer.apply_timeline (r : RatePair) (x : Producer) (e : TimelineEntry) : (x.apply r e).timeline = x.timeline := by
  unfold Producer.apply; split <;> rfl

theorem Producer.applyAll_keeps (r : RatePair) (es : List TimelineEntry) (x : Producer) :
    (es.foldl (Producer.apply r) x).fifo = x.fifo ∧ (es.foldl (Producer.apply r) x).timeline = x.timeline := by
  induction es generalizing x with
  | nil => exact ⟨rfl, rfl⟩
  | cons e rest ih =>
    simp only [List.foldl_cons]
    exact ⟨(ih _).1.trans (x.apply_fifo r e), (ih _).2.trans (x.apply_timeline r e)⟩

theorem Producer.applyDue_fifo (r : RatePair) (x : Producer) : (x.applyDue r).fifo = x.fifo :=
  (Producer.applyAll_keeps r _ _).1

theorem Producer.applyDue_timeline (r : RatePair) (x : Producer) :
    (x.applyDue r).timeline = x.timeline.filter fun e => decide (x.index < e.stamp) :=
  (Producer.applyAll_keeps r _ _).2

theorem insertEntry_length (e : TimelineEntry) (xs : List TimelineEntry) : (insertEntry e xs).length = xs.length + 1 := by
  induction xs with
  | nil => rfl
  | cons x rest ih => simp only [insertEntry]; split <;> simp [ih]

theorem insertEntry_filter (e : TimelineEntry) (keep : TimelineEntry → Bool) (h : keep e = false) (xs : List TimelineEntry) :
    (insertEntry e xs).filter keep = xs.filter keep := by
  induction xs with
  | nil => simp [insertEntry, h]
  | cons x rest ih => simp only [insertEntry]; split <;> simp [List.filter_cons, ih, h]

/-- An entry stands behind the entries at or below its stamp and before the later ones. -/
theorem insertEntry_split (e : TimelineEntry) (front back : List TimelineEntry) (hf : ∀ y ∈ front, y.stamp ≤ e.stamp)
    (hb : ∀ y ∈ back, e.stamp < y.stamp) : insertEntry e (front ++ back) = front ++ e :: back := by
  induction front with
  | nil =>
    cases back with
    | nil => rfl
    | cons b bs =>
      have := hb b (by simp)
      simp only [List.nil_append, insertEntry]
      rw [if_neg (by omega)]
  | cons a as ih =>
    simp only [List.cons_append, insertEntry]
    rw [if_pos (hf a (by simp)), ih fun y hy => hf y (by simp [hy])]

theorem insertEntry_mem (e y : TimelineEntry) (xs : List TimelineEntry) : y ∈ insertEntry e xs ↔ y = e ∨ y ∈ xs := by
  induction xs with
  | nil => simp [insertEntry]
  | cons a as ih =>
    unfold insertEntry
    split
    · simp only [List.mem_cons, ih]
      constructor <;> rintro (h | h | h) <;> simp [h]
    · simp

/-- Insertion keeps the stamps in order. -/
theorem insertEntry_ordered (e : TimelineEntry) (xs : List TimelineEntry) (h : (xs.map TimelineEntry.stamp).Pairwise (· ≤ ·)) :
    ((insertEntry e xs).map TimelineEntry.stamp).Pairwise (· ≤ ·) := by
  induction xs with
  | nil => simp [insertEntry]
  | cons a as ih =>
    simp only [List.map_cons, List.pairwise_cons, List.mem_map, forall_exists_index, and_imp, forall_apply_eq_imp_iff₂] at h
    unfold insertEntry
    split
    · simp only [List.map_cons, List.pairwise_cons, List.mem_map, forall_exists_index, and_imp, forall_apply_eq_imp_iff₂]
      refine ⟨fun y hy => ?_, ih h.2⟩
      rcases (insertEntry_mem e y as).mp hy with rfl | hy
      · assumption
      · exact h.1 y hy
    · simp only [List.map_cons, List.pairwise_cons, List.mem_cons, List.mem_map, forall_eq_or_imp, forall_exists_index, and_imp,
        forall_apply_eq_imp_iff₂]
      exact ⟨⟨by omega, fun y hy => by have := h.1 y hy; omega⟩, h⟩

theorem Producer.overflow_fits (r : RatePair) (x : Producer) (h : laneFits x = true) :
    (x.overflow r).fifo.length ≤ Config.maxFifo ∧ (x.overflow r).timeline.length + 1 ≤ Config.maxTimeline := by
  simp only [laneFits, Bool.and_eq_true, decide_eq_true_eq] at h
  unfold Producer.overflow
  split
  · rename_i ht; rw [ht]; exact ⟨h.1, by decide⟩
  · rename_i e rest ht
    split
    · rw [Producer.apply_fifo, Producer.apply_timeline]
      rw [ht] at h
      simp only [List.length_cons] at h
      exact ⟨h.1, by have := h.2; simpa using this⟩
    · rename_i hlt; exact ⟨h.1, by omega⟩

/-- A posted entry never makes a timeline longer than 128 (05, R96). -/
theorem Producer.post_fits (r : RatePair) (x : Producer) (e : TimelineEntry) (h : laneFits x = true) :
    laneFits (x.post r e) = true := by
  have h' := h
  simp only [laneFits, Bool.and_eq_true, decide_eq_true_eq] at h' ⊢
  unfold Producer.post
  split
  · rename_i hdue
    rw [Producer.applyDue_fifo, Producer.applyDue_timeline]
    refine ⟨h'.1, ?_⟩
    refine le_trans (le_of_eq (congrArg List.length (insertEntry_filter e _ ?_ x.timeline)))
      (le_trans (List.length_filter_le _ _) h'.2)
    exact decide_eq_false (not_lt.mpr hdue)
  · have := x.overflow_fits r h
    simp only [insertEntry_length]
    exact ⟨this.1, this.2⟩

theorem Part.works_postEntry (u : Setup) (l : Lane) (e : TimelineEntry) (p : Part) : p.Works (p.postEntry u l e) :=
  p.works_setProducer l _ (Producer.post_fits u.rates _ e)

/-! ## Trackers (04, 05) -/

theorem Part.works_changeLock (u : Setup) (l : Lane) (new : LockState) (index : Option Nat) (p : Part) :
    p.Works (p.changeLock u l new index) := by
  unfold Part.changeLock
  exact .ite (.refl p) (((p.works_setTracker l _).trans (Part.works_post _ _)).trans (Part.works_report u _ _ _))

theorem Part.works_postStep (u : Setup) (l : Lane) (stamp : Nat) (p : Part) : p.Works (p.postStep u l stamp) :=
  p.works_postEntry u l _

theorem Part.works_startBlanking (l : Lane) (p : Part) : p.Works (p.startBlanking l) :=
  (p.works_setDetector _ _).trans (Part.works_setDetector _ _ _)

theorem Part.works_enterLocked (u : Setup) (l : Lane) (index : Nat) (p : Part) : p.Works (p.enterLocked u l index) :=
  ((p.works_setTracker l _).trans (Part.works_changeLock u l _ _ _)).trans (Part.works_startBlanking l _)

theorem Part.works_lockWhole (u : Setup) (l : Lane) (m : Measurement) (a b : Nat) (p : Part) : p.Works (p.lockWhole u l m a b) :=
  (((p.works_setTracker l _).trans (Part.works_postStep u l _ _)).trans (Part.works_reportAbsent u _ _)).trans
    (Part.works_enterLocked u l _ _)

theorem Part.works_smooth (u : Setup) (l : Lane) (m : Measurement) (a b : Nat) (p : Part) : p.Works (p.smooth u l m a b) :=
  ((p.works_setTracker l _).trans (Part.works_postStep u l _ _)).trans (Part.works_report u _ _ _)

theorem Part.works_moveRamp (u : Setup) (l : Lane) (n : Nat) (p : Part) : p.Works (p.moveRamp u l n) :=
  (p.works_setTracker l _).trans (Part.works_postStep u l _ _)

theorem Part.works_enterFallback (u : Setup) (l : Lane) (n : Nat) (p : Part) : p.Works (p.enterFallback u l n) :=
  ((p.works_setTracker l _).trans (Part.works_moveRamp u l n _)).trans (Part.works_changeLock u l _ _ _)

theorem Part.works_inWindow (u : Setup) (l : Lane) (m : Measurement) (a b : Nat) (p : Part) : p.Works (p.inWindow u l m a b) := by
  unfold Part.inWindow
  dsimp only
  split
  · exact p.works_setTracker l _
  · exact .ite ((p.works_setTracker l _).trans (Part.works_lockWhole u l m a b _)) (p.works_setTracker l _)
  · exact (p.works_setTracker l _).trans (Part.works_smooth u l m a b _)
  · exact .ite (((p.works_setTracker l _).trans (Part.works_smooth u l m a b _)).trans (Part.works_enterLocked u l _ _))
      (p.works_setTracker l _)
  · exact .ite ((p.works_setTracker l _).trans (Part.works_lockWhole u l m a b _)) (p.works_setTracker l _)

theorem Part.works_missed (u : Setup) (l : Lane) (n : Nat) (p : Part) : p.Works (p.missed u l n) := by
  unfold Part.missed
  refine .ite (.ite ((p.works_setTracker l _).trans (Part.works_enterFallback u l n _)) ?_) (p.works_setTracker l _)
  exact ((p.works_setTracker l _).trans (Part.works_setTracker _ l _)).trans (Part.works_changeLock u l _ _ _)

theorem Part.works_measurementComplete (u : Setup) (l : Lane) (p : Part) : p.Works (p.measurementComplete u l) := by
  unfold Part.measurementComplete
  dsimp only
  split
  · exact .refl p
  · refine .ite ?_ (.refl p)
    split
    · exact p.works_setTracker l _
    · exact .ite ((p.works_setTracker l _).trans (Part.works_inWindow u l _ _ _ _))
        ((p.works_setTracker l _).trans (Part.works_missed u l _ _))
    · exact .refl p

theorem Part.works_crossing (u : Setup) (l : Lane) (stamp index : Nat) (p : Part) : p.Works (p.crossing u l stamp index) := by
  unfold Part.crossing
  dsimp only
  split
  · exact p.works_setTracker l _
  · exact (p.works_setTracker l _).trans (Part.works_measurementComplete u l _)

theorem Part.works_missIfDue (u : Setup) (l : Lane) (p : Part) : p.Works (p.missIfDue u l) := by
  unfold Part.missIfDue
  dsimp only
  refine .ite ?_ (.refl p)
  split
  · exact p.works_setTracker l _
  · exact (p.works_setTracker l _).trans (Part.works_missed u l _ _)
  · exact .refl p

theorem Part.works_holdIfDue (u : Setup) (l : Lane) (p : Part) : p.Works (p.holdIfDue u l) := by
  unfold Part.holdIfDue
  dsimp only
  split
  · exact .ite (p.works_enterFallback u l _) (.refl p)
  · exact .refl p

theorem Part.works_rampIfDue (u : Setup) (l : Lane) (p : Part) : p.Works (p.rampIfDue u l) := by
  unfold Part.rampIfDue
  dsimp only
  split
  · exact .ite ((p.works_setTracker l _).trans (Part.works_moveRamp u l _ _)) (.refl p)
  · exact .refl p

theorem Part.works_detect (u : Setup) (l : Lane) (n : Nat) (sum : Int) (p : Part) : p.Works (p.detect u l n sum) := by
  unfold Part.detect
  exact .ite ((p.works_setTracker l _).trans (Part.works_crossing u l _ _ _)) (p.works_setTracker l _)

theorem Part.works_trackerFrame (u : Setup) (n : Nat) (f : PerTrack Int) (l : Lane) (p : Part) : p.Works (p.trackerFrame u n f l) := by
  unfold Part.trackerFrame
  exact (((Part.Works.ite (p.works_detect u l _ _) (.refl p)).trans (Part.works_missIfDue u l _)).trans
    (Part.works_holdIfDue u l _)).trans (Part.works_rampIfDue u l _)

theorem Part.works_tachComplete (l : Lane) (p : Part) : p.Works (p.tachComplete l) := by
  unfold Part.tachComplete
  dsimp only
  split
  · exact .ite (p.works_setTracker l _) (.refl p)
  · exact .refl p

theorem Part.works_tachTick (l : Lane) (stamp : Nat) (p : Part) : p.Works (p.tachTick l stamp) := by
  unfold Part.tachTick
  dsimp only
  split
  · exact p.works_setTracker l _
  · exact (p.works_setTracker l _).trans (Part.works_tachComplete l _)

theorem Part.works_trackerTick (u : Setup) (stamp index : Nat) (l : Lane) (p : Part) : p.Works (p.trackerTick u stamp index l) := by
  unfold Part.trackerTick
  exact .ite (.refl p) (.ite ((p.works_tachTick l stamp).trans (Part.works_crossing u l _ _ _)) (p.works_tachTick l stamp))

theorem Part.works_stampTick (u : Setup) (p : Part) : p.Works (p.stampTick u) := by
  unfold Part.stampTick
  exact .ite ((p.works_trackerTick u _ _ .a).trans (Part.works_trackerTick u _ _ .b _)) (.refl p)

theorem Part.works_trackerTakeStart (u : Setup) (l : Lane) (p : Part) : p.Works (p.trackerTakeStart u l) := by
  unfold Part.trackerTakeStart
  refine .trans ?_ (Part.works_reportAbsent u _ _)
  exact .ite ((p.works_setTracker l _).trans (Part.works_changeLock u l _ _ _))
    ((p.works_setTracker l _).trans (Part.works_changeLock u l _ _ _))

theorem Part.works_trackerTakeEnd (u : Setup) (e : Option Nat) (l : Lane) (p : Part) : p.Works (p.trackerTakeEnd u e l) :=
  ((p.works_changeLock u l _ _).trans (Part.works_reportAbsent u _ _)).trans (Part.works_setTracker _ l _)

theorem Part.works_trackerTransition (u : Setup) (l : Lane) (new : Settings) (index : Nat) (p : Part) :
    p.Works (p.trackerTransition u l new index) := by
  unfold Part.trackerTransition
  refine .ite (p.works_setTracker l _) ?_
  split
  · exact ((p.works_setTracker l _).trans (Part.works_changeLock u l _ _ _)).trans (Part.works_reportAbsent u _ _)
  · exact ((p.works_setTracker l _).trans (Part.works_changeLock u l _ _ _)).trans (Part.works_reportAbsent u _ _)
  · exact ((p.works_setTracker l _).trans (Part.works_changeLock u l _ _ _)).trans (Part.works_reportAbsent u _ _)
  · exact ((p.works_setTracker l _).trans (Part.works_changeLock u l _ _ _)).trans (Part.works_reportAbsent u _ _)
  · exact (((p.works_setTracker l _).trans (Part.works_postStep u l _ _)).trans (Part.works_changeLock u l _ _ _)).trans
      (Part.works_reportAbsent u _ _)
  · exact ((p.works_setTracker l _).trans (Part.works_changeLock u l _ _ _)).trans (Part.works_reportAbsent u _ _)

theorem Part.works_surveyStop (p : Part) : p.Works p.surveyStop := by
  unfold Part.surveyStop
  have stop (l : Lane) (p : Part) : p.Works (if (p.rft.get l).mode = .survey then p.setTracker l { p.rft.get l with meas := none } else p) :=
    .ite (p.works_setTracker l _) (.refl p)
  exact (stop .a p).trans (stop .b _)

theorem Part.works_surveyDone (u : Setup) (t : Termination) (p : Part) : p.Works (p.surveyDone u t) := by
  unfold Part.surveyDone
  have finish (l : Lane) (p : Part) : p.Works (if (p.rft.get l).mode = .survey then
      (p.setTracker l { p.rft.get l with mode := .none }).post ((p.rft.get l).surveyDone u l t) else p) :=
    .ite ((p.works_setTracker l _).trans (Part.works_post _ _)) (.refl p)
  exact (finish .a p).trans (finish .b _)

/-! ## Aligner (07) -/

theorem Part.works_azimuthComplete (u : Setup) (l : Lane) (p : Part) : p.Works (p.azimuthComplete u l) := by
  unfold Part.azimuthComplete
  dsimp only
  split
  · exact .refl p
  · refine .ite ?_ (.refl p)
    split
    · exact p.works_setAligner l _
    · exact (p.works_setAligner l _).trans (Part.works_postEntry u l _ _)

theorem Part.works_azimuthFrame (u : Setup) (rings : Rings) (n : Nat) (l : Lane) (p : Part) :
    p.Works (p.azimuthFrame u rings n l) := by
  unfold Part.azimuthFrame
  exact .ite ((p.works_setAligner l _).trans (Part.works_azimuthComplete u l _)) (.refl p)

theorem Part.works_alignerTakeEnd (l : Lane) (p : Part) : p.Works (p.alignerTakeEnd l) := p.works_setAligner l _

theorem Part.works_alignerTakeStart (l : Lane) (p : Part) : p.Works (p.alignerTakeStart l) := p.works_setAligner l _

/-! ## Detectors and concealment (08) -/

theorem Part.works_trackBlock (rings : Rings) (b : Nat) (t : Track) (p : Part) : p.Works (p.trackBlock rings b t) := by
  unfold Part.trackBlock
  dsimp only
  refine .ite (.ite (p.works_setDetector t _) ?_) (.refl p)
  exact (p.works_setDetector t _).trans (Part.works_setConcealer _ t _)

theorem Part.works_blockComplete (rings : Rings) (b : Nat) (p : Part) : p.Works (p.blockComplete rings b) :=
  Part.Works.foldl _ (fun p t => p.works_trackBlock rings b t) _ p

theorem Part.works_trackTransition (new : DropoutSettings) (b : Nat) (t : Track) (p : Part) : p.Works (p.trackTransition new b t) :=
  (p.works_setDetector t _).trans (Part.works_setConcealer _ t _)

theorem Part.works_detectorsTakeEnd (e : Option Nat) (p : Part) : p.Works (p.detectorsTakeEnd e) :=
  Part.Works.foldl _ (fun p t => (p.works_setDetector t _).trans (Part.works_setConcealer _ t _)) _ p

theorem Part.works_logRecord (u : Setup) (p : Part) (r : DropoutRecord) : p.Works (p.logRecord u r) := by
  unfold Part.logRecord
  have add (h : p.log.length < Config.maxLog) : p.Works { p with log := p.log ++ [r] } :=
    ⟨rfl, rfl, rfl, rfl, rfl, rfl, rfl, rfl, rfl, rfl, rfl, rfl, rfl, rfl,
     fun ⟨hn, ha, hb, _⟩ => ⟨hn, ha, hb, by simp only [List.length_append, List.length_singleton]; exact h⟩⟩
  split
  · rename_i h
    exact .ite ((add h).trans (Part.works_post _ _)) (add h)
  · exact p.works_occur u _

theorem Part.works_writeSpans (u : Setup) (t : Track) (pick : Span → Bool) (p : Part) : p.Works (p.writeSpans u t pick) :=
  (p.works_setConcealer t _).trans (Part.Works.foldl _ (fun p r => p.works_logRecord u r) _ _)

theorem Part.works_writePassed (u : Setup) (l : Lane) (p : Part) : p.Works (p.writePassed u l) :=
  (p.works_writeSpans u _ _).trans (Part.works_writeSpans u _ _ _)

theorem Part.works_writeAll (u : Setup) (l : Lane) (p : Part) : p.Works (p.writeAll u l) :=
  (p.works_writeSpans u _ _).trans (Part.works_writeSpans u _ _ _)

/-! ## Production (06) -/

theorem Part.works_applyDue (r : RatePair) (l : Lane) (p : Part) : p.Works (p.setProducer l ((p.lanes.get l).applyDue r)) := by
  refine p.works_setProducer l _ fun h => ?_
  simp only [laneFits, Bool.and_eq_true, decide_eq_true_eq] at h ⊢
  rw [Producer.applyDue_fifo, Producer.applyDue_timeline]
  exact ⟨h.1, le_trans (List.length_filter_le _ _) h.2⟩

theorem Part.works_advanceLane (l : Lane) (p : Part) : p.Works (p.advanceLane l) := p.works_setProducer l _ fun h => h

theorem Part.works_makeFrame (u : Setup) (rings : Rings) (bank : LoadedBank) (l : Lane) (p : Part)
    (room : (p.lanes.get l).fifo.length < Config.maxFifo) : p.Works (p.makeFrame u rings bank l) := by
  unfold Part.makeFrame
  refine .trans (.trans ((p.works_setConcealer _ _).trans (Part.works_setConcealer _ _ _)) (Part.works_setProducer _ l _ ?_))
    (Part.works_clipReport u l _ _ _)
  intro h
  simp only [laneFits, Bool.and_eq_true, decide_eq_true_eq, List.length_append, List.length_singleton]
  exact ⟨room, of_decide_eq_true (Bool.and_eq_true_iff.mp h).2⟩

theorem Part.works_chooseSources (u : Setup) (l : Lane) (p : Part) : p.Works (p.chooseSources u l) :=
  (p.works_setConcealer _ _).trans (Part.works_setConcealer _ _ _)

theorem Part.works_stepLane (u : Setup) (rings : Rings) (bank : LoadedBank) (l : Lane) (p : Part) : p.Works (p.stepLane u rings bank l) := by
  unfold Part.stepLane
  dsimp only
  have base := (p.works_applyDue u.rates l).trans (Part.works_writePassed u l _)
  split
  · exact (base.trans (Part.works_chooseSources u l _)).trans (Part.works_advanceLane l _)
  · split
    · rename_i room
      exact (base.trans (Part.works_makeFrame u rings bank l _ room)).trans (Part.works_advanceLane l _)
    · exact base.trans (Part.works_chooseSources u l _)

theorem Part.works_finishLane (u : Setup) (l : Lane) (p : Part) : p.Works (p.finishLane u l) := by
  refine (p.works_writeAll u l).trans (Part.works_setProducer _ l _ fun h => ?_)
  simp only [laneFits, Bool.and_eq_true, decide_eq_true_eq] at h ⊢
  exact ⟨h.1, by simp⟩

theorem Part.works_finishIfDone (u : Setup) (l : Lane) (p : Part) : p.Works (p.finishIfDone u l) := by
  unfold Part.finishIfDone
  dsimp only
  refine .ite ?_ (.refl p)
  split
  · exact .ite (p.works_finishLane u l) (.refl p)
  · exact p.works_finishLane u l

theorem Part.works_laneTakeEnd (u : Setup) (l : Lane) (p : Part) : p.Works (p.laneTakeEnd u l) := by
  unfold Part.laneTakeEnd
  dsimp only
  exact .ite ((p.works_setProducer l { p.lanes.get l with state := .draining } fun h => h).trans (Part.works_finishIfDone u l _)) (.refl p)

theorem Part.works_laneTakeStart (u : Setup) (l : Lane) (p : Part) : p.Works (p.laneTakeStart u l) := by
  refine p.works_setProducer l _ fun h => ?_
  simp only [laneFits, Bool.and_eq_true, decide_eq_true_eq] at h ⊢
  exact ⟨h.1, by simp⟩

theorem Part.works_closeTake (p : Part) : p.Works p.closeTake := by
  unfold Part.closeTake
  split
  · refine .ite (.trans (q := { p with take := { p.take with record := none } }) ?_ (Part.works_post _ _)) (.refl p)
    exact ⟨rfl, rfl, rfl, rfl, rfl, rfl, rfl, rfl, rfl, rfl, rfl, rfl, rfl, rfl, id⟩
  · exact .refl p

/-! ## The segment table (03) -/

theorem Part.works_underEntry (u : Setup) (e : Option Entry) (p : Part) : p.Works (p.underEntry u e) :=
  ⟨rfl, rfl, rfl, rfl, rfl, rfl, rfl, rfl, rfl, rfl, rfl, rfl, rfl, rfl, id⟩

theorem Part.works_refind (u : Setup) (p : Part) : p.Works (p.refind u) := p.works_underEntry u _

theorem Part.works_follow (u : Setup) (p : Part) : p.Works (p.follow u) := by
  unfold Part.follow
  exact .ite (.refl p) (p.works_refind u)

theorem Part.works_laneTransition (u : Setup) (index : Nat) (l : Lane) (p : Part) : p.Works (p.laneTransition u index l) :=
  ((((p.works_postEntry u l _).trans (Part.works_trackerTransition u l _ _ _)).trans (Part.works_setAligner _ l _)).trans
    (Part.works_trackTransition _ _ _ _)).trans (Part.works_trackTransition _ _ _ _)

theorem Part.works_transitionWord (p : Part) : p.Works p.transitionWord := by
  unfold Part.transitionWord
  exact .ite (.refl p) (p.works_word _)

theorem Part.works_blockBegin (u : Setup) (index stamp : Nat) (p : Part) : p.Works (p.blockBegin u index stamp) := by
  unfold Part.blockBegin
  dsimp only
  refine .ite ?_ (.refl p)
  have base := p.works_underEntry u (judgeStamp u.entries p.sgt.current stamp)
  refine .ite ?_ base
  have a (c : Bool) : p.Works (if c then (p.underEntry u (judgeStamp u.entries p.sgt.current stamp)).laneTransition u index .a
      else p.underEntry u (judgeStamp u.entries p.sgt.current stamp)) :=
    .ite (base.trans (Part.works_laneTransition u index .a _)) base
  refine .trans (.trans ?_ (Part.works_post _ _)) (Part.works_transitionWord _)
  exact .ite ((a _).trans (Part.works_laneTransition u index .b _)) (a _)

theorem Part.works_arrived (u : Setup) (rings : Rings) (n : Nat) (f : PerTrack Int) (p : Part) : p.Works (p.arrived u rings n f) := by
  unfold Part.arrived
  have base := (((p.works_trackerFrame u n f .a).trans (Part.works_trackerFrame u n f .b _)).trans
    (Part.works_azimuthFrame u rings n .a _)).trans (Part.works_azimuthFrame u rings n .b _)
  exact .ite (base.trans (Part.works_blockComplete rings _ _)) base

end Sys2Proof.Machine
end

