-- ==== Sys2Proof/Laws/Moves.lean ====
section
/-! SUPPORT. What the transport's beginnings, endings, ticks, sensors and timers can do to the part, said once: they leave the replies, the assembler, the scheduler and the link alone, keep every queue and the position within bounds, and keep the device state, the operation and the transport state together. -/

namespace Sys2Proof.Machine

open Sys2Proof.Safety

/-- q is what moving the tape of p can lead to. -/
structure Part.Moves (p q : Part) : Prop where
  osc : q.osc = p.osc
  assembler : q.msp.assembler = p.msp.assembler
  replies : q.msp.replies = p.msp.replies
  link : q.hcr.link = p.hcr.link
  expected : q.hcr.expected = p.hcr.expected
  lastGood : q.hcr.lastGood = p.hcr.lastGood
  run : q.hcr.run = p.hcr.run
  position : p.pos.position ≤ Config.maxPosition → q.pos.position ≤ Config.maxPosition
  bounded : p.bounded → q.bounded

theorem Part.Moves.refl (p : Part) : p.Moves p := ⟨rfl, rfl, rfl, rfl, rfl, rfl, rfl, id, id⟩

theorem Part.Moves.trans {p q r : Part} (h : p.Moves q) (k : q.Moves r) : p.Moves r :=
  ⟨k.osc.trans h.osc, k.assembler.trans h.assembler, k.replies.trans h.replies, k.link.trans h.link,
   k.expected.trans h.expected, k.lastGood.trans h.lastGood, k.run.trans h.run, fun b => k.position (h.position b),
   fun b => k.bounded (h.bounded b)⟩

theorem Part.Works.moves {p q : Part} (h : p.Works q) : p.Moves q :=
  ⟨h.osc, h.assembler, h.replies, h.link, h.expected, h.lastGood, h.run, fun b => by rw [h.pos]; exact b, h.bounded⟩

theorem Part.Moves.ite {p q r : Part} {c : Prop} [Decidable c] (h : p.Moves q) (k : p.Moves r) : p.Moves (if c then q else r) := by
  split <;> assumption

/-- Working keeps the agreement of device, operation and transport. -/
theorem Part.Works.play {p q : Part} (h : p.Works q) (k : Part.playLegal p) : Part.playLegal q := by
  unfold Part.playLegal at k ⊢
  rw [h.device, h.trc, h.capturing]
  exact k

/-! ## The transport's own record -/

theorem Part.moves_trc (p : Part) (t : Transport) : p.Moves { p with trc := t } :=
  ⟨rfl, rfl, rfl, rfl, rfl, rfl, rfl, id, id⟩

theorem Part.moves_setOp (p : Part) (op : OpRecord) : p.Moves (p.setOp op) := ⟨rfl, rfl, rfl, rfl, rfl, rfl, rfl, id, id⟩

theorem Part.moves_enterMoving (st : TransportState) (p : Part) : p.Moves (p.enterMoving st) :=
  ⟨rfl, rfl, rfl, rfl, rfl, rfl, rfl, id, id⟩

theorem Part.moves_enterStopped (p : Part) : p.Moves p.enterStopped := ⟨rfl, rfl, rfl, rfl, rfl, rfl, rfl, id, id⟩

theorem Part.moves_advance (p : Part) (now : Nat) : p.Moves (p.advance now) := ⟨rfl, rfl, rfl, rfl, rfl, rfl, rfl, id, id⟩

theorem Part.moves_take (p : Part) (t : TakeControl) : p.Moves { p with take := t } :=
  ⟨rfl, rfl, rfl, rfl, rfl, rfl, rfl, id, id⟩

/-- Entering SETTLING changes the transport's timers and monitors, the presence of SLIP, and nothing else. -/
theorem Part.enterSettling_spec (u : Setup) (p : Part) :
    (p.enterSettling u).trc.state = .settling ∧ (p.enterSettling u).trc.op = p.trc.op
      ∧ (p.enterSettling u).take.device = p.take.device ∧ (p.enterSettling u).hcr.capturing = p.hcr.capturing
      ∧ p.Moves (p.enterSettling u) := by
  unfold Part.enterSettling
  split
  · rename_i h; exact ⟨h, rfl, rfl, rfl, .refl p⟩
  · have w := p.works_reportAbsent u .slip
    refine ⟨rfl, ?_, w.device, w.capturing, w.moves.trans (Part.moves_trc _ _)⟩
    simp only [w.trc]

theorem Part.works_takeTeardown (u : Setup) (e : Option Nat) (p : Part) : p.Works (p.takeTeardown u e) :=
  (((((((p.works_trackerTakeEnd u e .a).trans (Part.works_trackerTakeEnd u e .b _)).trans
    (Part.works_alignerTakeEnd .a _)).trans (Part.works_alignerTakeEnd .b _)).trans
    (Part.works_detectorsTakeEnd e _)).trans (Part.works_refind u _)).trans (Part.works_laneTakeEnd u .a _)).trans
    (Part.works_laneTakeEnd u .b _)

/-- The end of a take stops capture, returns the device to CONFIGURE and leaves the transport as it is. -/
theorem Part.takeEnd_spec (u : Setup) (c : TakeCause) (p : Part) :
    (p.takeEnd u c).trc = p.trc ∧ (p.takeEnd u c).take.device = .configure ∧ (p.takeEnd u c).hcr.capturing = false
      ∧ p.Moves (p.takeEnd u c) := by
  have w := Part.works_takeTeardown u p.lastWritten { p with
    take := { p.take with
      device := .configure,
      record := p.take.record.map fun (r : TakeRecord) => { r with cause := some c, endIndex := p.lastWritten } },
    hcr := { p.hcr with capturing := false } }
  refine ⟨w.trc, w.device, w.capturing, Part.Moves.trans ?_ w.moves⟩
  exact ⟨rfl, rfl, rfl, rfl, rfl, rfl, rfl, id, id⟩

theorem Part.surveyEnd_spec (p : Part) :
    p.surveyEnd.trc = p.trc ∧ p.surveyEnd.take.device = p.take.device ∧ p.surveyEnd.hcr.capturing = false
      ∧ p.Moves p.surveyEnd := by
  have w := ({ p with hcr := { p.hcr with capturing := false } } : Part).works_surveyStop
  refine ⟨w.trc, w.device, w.capturing, Part.Moves.trans ?_ w.moves⟩
  exact ⟨rfl, rfl, rfl, rfl, rfl, rfl, rfl, id, id⟩

theorem Part.moves_endOperation (u : Setup) (e : Ending) (p : Part) : p.Moves (p.endOperation u e) := by
  unfold Part.endOperation
  dsimp only
  refine .ite (.refl p) ?_
  have m := (p.moves_setOp { p.trc.op with phase := none, ending := some e }).trans (Part.enterSettling_spec u _).2.2.2.2
  split
  · exact m.trans (Part.takeEnd_spec u _ _).2.2.2
  · exact m.trans (Part.surveyEnd_spec _).2.2.2
  · exact m

theorem Part.moves_endAs (u : Setup) (t : Termination) (c : TakeCause) (p : Part) : p.Moves (p.endAs u t c) :=
  p.moves_endOperation u _

theorem Part.moves_stopRequest (u : Setup) (p : Part) : p.Moves (p.stopRequest u) := by
  unfold Part.stopRequest
  exact .ite (p.moves_endAs u _ _) (.refl p)

theorem Part.moves_takeStop (u : Setup) (p : Part) : p.Moves (p.takeStop u) := by
  unfold Part.takeStop
  refine .ite ?_ (.refl p)
  exact ((p.works_stopPending false).moves.trans (Part.moves_stopRequest u _)).trans (Part.works_stopPending _ false).moves

theorem Part.moves_completeOperation (u : Setup) (p : Part) : p.Moves (p.completeOperation u) := by
  unfold Part.completeOperation
  split
  · exact ((p.moves_setOp _).trans (Part.moves_take _ _)).trans (Part.works_closeTake _).moves
  · exact (p.works_surveyDone u _).moves.trans (Part.moves_setOp _ _)
  · exact (p.works_post _).moves.trans (Part.moves_setOp _ _)
  · exact .refl p

/-! ## Device, operation and transport agree -/

/-- The agreement reads only the device state, the operation, the transport state and the capture flag. -/
theorem Part.playLegal_congr {p q : Part} (hd : q.take.device = p.take.device) (ho : q.trc.op = p.trc.op)
    (hs : q.trc.state = p.trc.state) (hc : q.hcr.capturing = p.hcr.capturing) (k : Part.playLegal p) : Part.playLegal q := by
  unfold Part.playLegal at k ⊢
  rw [hd, ho, hs, hc]
  exact k

/-- While the operation is no play, capture does not run. -/
theorem Part.playLegal_noCapture {p : Part} (k : Part.playLegal p)
    (h : ¬((p.trc.op.kind = .take ∨ p.trc.op.kind = .survey) ∧ p.trc.op.ending = none)) : p.hcr.capturing = false := by
  by_contra hc
  exact h (k.2.1.mp (.inr (k.2.2.2.2.1 (by simpa using hc))))

/-- A part whose operation is no play, in a state that is none of a play's. -/
theorem Part.playLegal_of {p : Part} (hd : p.take.device ≠ .run)
    (hk : ¬((p.trc.op.kind = .take ∨ p.trc.op.kind = .survey) ∧ p.trc.op.ending = none))
    (hs : p.trc.state ≠ .starting ∧ p.trc.state ≠ .playing) (hn : p.trc.op.kind = .none → p.trc.state.moving = false)
    (he : p.trc.op.ending ≠ none → p.trc.state = .settling) (hc : p.hcr.capturing = false)
    (ht : ∀ c, p.trc.op.ending = some (.cause c) → p.trc.op.kind = .take) : Part.playLegal p := by
  refine ⟨⟨fun h => absurd h hd, fun h => absurd ⟨.inl h.1, h.2⟩ hk⟩, ⟨?_, fun h => absurd h hk⟩, hn, he, ?_, ht⟩
  · rintro (h | h)
    · exact absurd h hs.1
    · exact absurd h hs.2
  · rw [hc]; intro h; cases h

/-- An ended operation that settles. -/
theorem Part.playLegal_ended {p : Part} {e : Ending} (hd : p.take.device ≠ .run) (hs : p.trc.state = .settling)
    (he : p.trc.op.ending = some e) (hc : p.hcr.capturing = false) (ht : ∀ c, e = .cause c → p.trc.op.kind = .take) :
    Part.playLegal p := by
  refine Part.playLegal_of hd (fun h => by rw [he] at h; exact absurd h.2 (by simp)) (by rw [hs]; decide)
    (fun _ => by rw [hs]; rfl) (fun _ => hs) hc (fun c h => ht c ?_)
  rw [he] at h
  exact Option.some.inj h

/-- Ending an operation keeps the agreement: a take by a cause, anything else by a termination. -/
theorem Part.play_endOperation (u : Setup) (e : Ending) (p : Part) (he : p.trc.op.kind = .take ↔ ∃ c, e = .cause c)
    (k : Part.playLegal p) : Part.playLegal (p.endOperation u e) := by
  unfold Part.endOperation
  dsimp only
  split
  · exact k
  rename_i hrun
  simp only [not_or, Bool.not_eq_true, Option.isSome_eq_false_iff, Option.isNone_iff_eq_none] at hrun
  obtain ⟨-, hnone⟩ := hrun
  obtain ⟨sst, sop, sdev, scap, -⟩ := Part.enterSettling_spec u (p.setOp { p.trc.op with phase := none, ending := some e })
  generalize Part.enterSettling u (p.setOp { p.trc.op with phase := none, ending := some e }) = q at sst sop sdev scap ⊢
  simp only [Part.setOp_trc, Part.setOp_take, Part.setOp_hcr] at sop sdev scap
  have hop : q.trc.op.ending = some e := by rw [sop]
  have ht : ∀ c, e = .cause c → q.trc.op.kind = .take := fun c h => by rw [sop]; exact he.mpr ⟨c, h⟩
  split
  · obtain ⟨t1, t2, t3, -⟩ := Part.takeEnd_spec u _ q
    refine Part.playLegal_ended (by rw [t2]; decide) (by rw [t1]; exact sst) (by rw [t1]; exact hop) t3 (by rw [t1]; exact ht)
  · rename_i hk
    obtain ⟨t1, t2, t3, -⟩ := Part.surveyEnd_spec q
    refine Part.playLegal_ended ?_ (by rw [t1]; exact sst) (by rw [t1]; exact hop) t3 (by rw [t1]; exact ht)
    rw [t2, sdev]
    intro h
    have := (k.1.mp h).1
    rw [hk] at this
    cases this
  · rename_i h2 h1
    have hnt : p.trc.op.kind ≠ .take := fun h => by
      obtain ⟨c, hc⟩ := he.mp h
      exact h1 c h hc
    refine Part.playLegal_ended ?_ sst hop ?_ ht
    · rw [sdev]; exact fun h => hnt (k.1.mp h).1
    · rw [scap]
      exact Part.playLegal_noCapture k fun h => h.1.elim hnt h2

theorem Part.play_endAs (u : Setup) (t : Termination) (c : TakeCause) (p : Part) (k : Part.playLegal p) :
    Part.playLegal (p.endAs u t c) := by
  unfold Part.endAs
  refine p.play_endOperation u _ ?_ k
  split
  · rename_i h; exact ⟨fun _ => ⟨c, rfl⟩, fun _ => h⟩
  · rename_i h; exact ⟨fun h' => absurd h' h, fun ⟨_, h'⟩ => by cases h'⟩

theorem Part.play_takeStop (u : Setup) (p : Part) (k : Part.playLegal p) : Part.playLegal (p.takeStop u) := by
  unfold Part.takeStop
  split
  · refine (Part.works_stopPending _ false).play ?_
    unfold Part.stopRequest
    split
    · exact Part.play_endAs u _ _ _ ((p.works_stopPending false).play k)
    · exact (p.works_stopPending false).play k
  · exact k

/-! ## Beginnings -/

/-- A motion operation begins or goes on: kind WIND, SEEK or REWIND_TO_LEADER without an ending. -/
theorem Part.playLegal_motion {p : Part} (hd : p.take.device ≠ .run)
    (hk : p.trc.op.kind = .wind ∨ p.trc.op.kind = .seek ∨ p.trc.op.kind = .rewindToLeader)
    (hs : p.trc.state ≠ .starting ∧ p.trc.state ≠ .playing) (he : p.trc.op.ending = none) (hc : p.hcr.capturing = false) :
    Part.playLegal p := by
  refine Part.playLegal_of hd ?_ hs ?_ (fun h => absurd he h) hc (fun c h => by rw [he] at h; cases h)
  · rintro ⟨h1 | h1, -⟩ <;> rw [h1] at hk <;> simp at hk
  · intro h; rw [h] at hk; simp at hk

/-- A transport at rest with no operation. -/
theorem Part.playLegal_idle {p : Part} (hd : p.take.device ≠ .run) (hk : p.trc.op = OpRecord.idle)
    (hs : p.trc.state.moving = false) (hc : p.hcr.capturing = false) : Part.playLegal p := by
  refine Part.playLegal_of hd (by rw [hk]; simp [OpRecord.idle]) ?_ (fun _ => hs) (by rw [hk]; simp [OpRecord.idle]) hc
    (by rw [hk]; simp [OpRecord.idle])
  constructor <;> intro h <;> rw [h] at hs <;> cases hs

theorem Part.atRest_iff (p : Part) : p.atRest = true ↔ p.trc.state = .stopped ∧ p.trc.op.kind = .none := by
  simp [Part.atRest]

/-- At rest the device is not in RUN and capture does not run. -/
theorem Part.atRest_facts {p : Part} (k : Part.playLegal p) (h : p.atRest = true) :
    p.take.device ≠ .run ∧ p.hcr.capturing = false ∧ p.trc.op.ending = none := by
  obtain ⟨hs, hk⟩ := (Part.atRest_iff p).mp h
  refine ⟨fun hd => ?_, ?_, ?_⟩
  · have := (k.1.mp hd).1; rw [hk] at this; cases this
  · exact Part.playLegal_noCapture k fun h => by rw [hk] at h; simp at h
  · by_contra he
    have := k.2.2.2.1 he
    rw [hs] at this
    cases this

theorem Part.moves_windStart (d : Direction) (p : Part) : p.Moves (p.windStart d) :=
  (p.moves_setOp _).trans (Part.moves_enterMoving _ _)

theorem Part.play_windStart (d : Direction) (p : Part) (k : Part.playLegal p) (h : p.atRest = true) : Part.playLegal (p.windStart d) := by
  obtain ⟨hd, hc, -⟩ := Part.atRest_facts k h
  refine Part.playLegal_motion hd (.inl rfl) ?_ rfl hc
  cases d <;> simp [Part.windStart, Part.enterMoving]

theorem Part.moves_rewindStart (p : Part) : p.Moves p.rewindStart := (p.moves_setOp _).trans (Part.moves_enterMoving _ _)

theorem Part.play_rewindStart (p : Part) (k : Part.playLegal p) (h : p.atRest = true) : Part.playLegal p.rewindStart := by
  obtain ⟨hd, hc, -⟩ := Part.atRest_facts k h
  exact Part.playLegal_motion hd (.inr (.inr rfl)) (by simp [Part.rewindStart, Part.enterMoving]) rfl hc

/-- Completing an operation that has ended leaves no operation; completing one that has not does nothing. -/
theorem Part.completeOperation_spec (u : Setup) (p : Part) :
    (p.completeOperation u).trc.state = p.trc.state ∧ (p.completeOperation u).take.device = p.take.device
      ∧ (p.completeOperation u).hcr.capturing = p.hcr.capturing
      ∧ ((p.completeOperation u).trc.op = OpRecord.idle
          ∨ (p.completeOperation u).trc.op = p.trc.op ∧ (p.trc.op.ending = none ∨ ∃ c, p.trc.op.kind ≠ .take ∧ p.trc.op.ending = some (.cause c))) := by
  unfold Part.completeOperation
  split
  · rename_i hk he
    have w := Part.works_closeTake { p.setOp OpRecord.idle with
       take := { p.take with record := p.take.record.map fun (r : TakeRecord) => { r with finalPosition := some p.pos.position } } }
    exact ⟨by rw [w.trc]; rfl, w.device, w.capturing, .inl (by rw [w.trc]; rfl)⟩
  · have w := p.works_surveyDone u
    refine ⟨by simp [(w _).trc], by simp [(w _).device], by simp [(w _).capturing], .inl (by simp)⟩
  · exact ⟨rfl, rfl, rfl, .inl rfl⟩
  · rename_i h3 h1 h2
    refine ⟨rfl, rfl, rfl, .inr ⟨rfl, ?_⟩⟩
    cases he : p.trc.op.ending with
    | none => exact .inl rfl
    | some e =>
      right
      cases e with
      | term t => exact (h3 t he).elim
      | cause c => exact ⟨c, fun hk => h1 _ hk he, rfl⟩

/-- A still transport whose operation ends here completes it. -/
theorem Part.play_completeOperation (u : Setup) (p : Part) (hd : p.take.device ≠ .run) (hs : p.trc.state.moving = false)
    (hc : p.hcr.capturing = false) (ht : ∀ c, p.trc.op.ending = some (.cause c) → p.trc.op.kind = .take)
    (hk : p.trc.op.ending = none → p.trc.op.kind ≠ .take ∧ p.trc.op.kind ≠ .survey) : Part.playLegal (p.completeOperation u) := by
  obtain ⟨c1, c2, c3, c4⟩ := Part.completeOperation_spec u p
  rcases c4 with h | ⟨h, h'⟩
  · exact Part.playLegal_idle (by rw [c2]; exact hd) h (by rw [c1]; exact hs) (by rw [c3]; exact hc)
  · have he : p.trc.op.ending = none := by
      rcases h' with h' | ⟨c, hne, h'⟩
      · exact h'
      · exact absurd (ht c h') hne
    refine Part.playLegal_of (by rw [c2]; exact hd) ?_ ?_ (fun _ => by rw [c1]; exact hs) (fun h1 => absurd (by rw [h]; exact he) h1)
      (by rw [c3]; exact hc) (by rw [h]; exact ht)
    · rw [h]; exact fun h1 => h1.1.elim (hk he).1 (hk he).2
    · rw [c1]; constructor <;> intro h1 <;> rw [h1] at hs <;> cases hs

theorem Part.moves_seekStart (u : Setup) (t : Nat) (p : Part) : p.Moves (p.seekStart u t) := by
  unfold Part.seekStart
  dsimp only
  refine .ite ((p.moves_setOp _).trans (Part.moves_enterMoving _ _)) (.ite ((p.moves_setOp _).trans (Part.moves_enterMoving _ _))
    (.ite ((p.moves_setOp _).trans (Part.moves_completeOperation u _)) ((p.moves_setOp _).trans (Part.moves_enterMoving _ _))))

theorem Part.play_seekStart (u : Setup) (t : Nat) (p : Part) (k : Part.playLegal p) (h : p.atRest = true) :
    Part.playLegal (p.seekStart u t) := by
  obtain ⟨hd, hc, -⟩ := Part.atRest_facts k h
  have hs := ((Part.atRest_iff p).mp h).1
  unfold Part.seekStart
  dsimp only
  split
  · exact Part.playLegal_motion hd (.inr (.inl rfl)) (by simp [Part.enterMoving]) rfl hc
  · split
    · exact Part.playLegal_motion hd (.inr (.inl rfl)) (by simp [Part.enterMoving]) rfl hc
    · split
      · refine Part.play_completeOperation u _ hd (by rw [Part.setOp_trc, hs]; rfl) hc (fun c h => ?_) (fun h => ?_)
        · simp at h
        · simp at h
      · exact Part.playLegal_motion hd (.inr (.inl rfl)) (by simp [Part.enterMoving]) rfl hc

theorem Part.works_takeSetup (u : Setup) (p : Part) : p.Works (p.takeSetup u) := by
  have det (t : Part) (d : PerTrack Detector) (c : PerTrack Concealer) : t.Works { t with det := d, con := c } :=
    ⟨rfl, rfl, rfl, rfl, rfl, rfl, rfl, rfl, rfl, rfl, rfl, rfl, rfl, rfl, id⟩
  have w := (((p.works_trackerTakeStart u .a).trans (Part.works_trackerTakeStart u .b _)).trans
    (Part.works_alignerTakeStart .a _)).trans (Part.works_alignerTakeStart .b _)
  exact ((w.trans (det _ _ _)).trans (Part.works_laneTakeStart u .a _)).trans (Part.works_laneTakeStart u .b _)

/-- Accepting a take enters RUN and STARTING together. -/
theorem Part.takeStart_spec (u : Setup) (e : Option Nat) (p : Part) :
    (p.takeStart u e).take.device = .run ∧ (p.takeStart u e).trc.op.kind = .take ∧ (p.takeStart u e).trc.op.ending = none
      ∧ (p.takeStart u e).trc.state = .starting ∧ (p.takeStart u e).hcr.capturing = p.hcr.capturing
      ∧ (p.takeStart u e).pos = p.pos ∧ p.Moves (p.takeStart u e) := by
  have w := Part.works_takeSetup u (((p.takeOpen e).setOp { (p.takeOpen e).opStart .take with endPosition := e }).enterMoving .starting)
  have m : p.Moves (p.takeOpen e) := by
    unfold Part.takeOpen
    rcases p.hcr.wordDue_cases p.eqPair with h | h <;> rw [h] <;> exact ⟨rfl, rfl, rfl, rfl, rfl, rfl, rfl, id, id⟩
  have hc : (p.hcr.wordDue p.eqPair).capturing = p.hcr.capturing := by
    rcases p.hcr.wordDue_cases p.eqPair with h | h <;> rw [h]
  refine ⟨w.device, ?_, ?_, ?_, w.capturing.trans hc, w.pos,
    ((m.trans (Part.moves_setOp _ _)).trans (Part.moves_enterMoving _ _)).trans w.moves⟩
  · exact congrArg (fun t => t.op.kind) w.trc
  · exact congrArg (fun t => t.op.ending) w.trc
  · exact congrArg (fun t => t.state) w.trc

theorem Part.play_takeStart (u : Setup) (e : Option Nat) (p : Part) (k : Part.playLegal p) (h : p.atRest = true) :
    Part.playLegal (p.takeStart u e) := by
  obtain ⟨-, hc, -⟩ := Part.atRest_facts k h
  obtain ⟨h1, h2, h3, h4, h5, -⟩ := Part.takeStart_spec u e p
  unfold Part.playLegal
  rw [h1, h2, h3, h4, h5, hc]
  simp

theorem Part.surveyStart_spec (u : Setup) (l : Lane) (src : Source) (f c w n : Nat) (p : Part) :
    (p.surveyStart u l src f c w n).take = p.take ∧ (p.surveyStart u l src f c w n).trc.op.kind = .survey
      ∧ (p.surveyStart u l src f c w n).trc.op.ending = none ∧ (p.surveyStart u l src f c w n).trc.state = .starting
      ∧ (p.surveyStart u l src f c w n).hcr.capturing = p.hcr.capturing ∧ p.Moves (p.surveyStart u l src f c w n) := by
  have hc : (p.hcr.wordDue p.eqPair).capturing = p.hcr.capturing := by
    rcases p.hcr.wordDue_cases p.eqPair with h | h <;> rw [h]
  refine ⟨rfl, rfl, rfl, rfl, hc, ?_⟩
  refine Part.Moves.trans (q := { p with hcr := { p.hcr.wordDue p.eqPair with nextIndex := 0 } }) ?_
    (((Part.moves_setOp _ _).trans (Part.moves_enterMoving _ _)).trans (Part.works_setTracker _ l _).moves)
  rcases p.hcr.wordDue_cases p.eqPair with h | h <;> rw [h] <;> exact ⟨rfl, rfl, rfl, rfl, rfl, rfl, rfl, id, id⟩

theorem Part.play_surveyStart (u : Setup) (l : Lane) (src : Source) (f c w n : Nat) (p : Part) (k : Part.playLegal p)
    (h : p.atRest = true) : Part.playLegal (p.surveyStart u l src f c w n) := by
  obtain ⟨hd, hc, -⟩ := Part.atRest_facts k h
  obtain ⟨h1, h2, h3, h4, h5, -⟩ := Part.surveyStart_spec u l src f c w n p
  unfold Part.playLegal
  rw [h1, h2, h3, h4, h5, hc]
  simp [hd]

end Sys2Proof.Machine
end

