-- ==== Sys2Proof/Laws/Transport.lean ====
section
/-! SUPPORT. Ticks, sensors and timers: each moves the part, and keeps the device state, the operation and the transport state together. -/

namespace Sys2Proof.Machine

open Sys2Proof.Safety

/-! ## Steps that keep operation and state -/

theorem Part.play_trc {p : Part} (t : Transport) (ho : t.op.kind = p.trc.op.kind) (he : t.op.ending = p.trc.op.ending)
    (hs : t.state = p.trc.state) (k : Part.playLegal p) : Part.playLegal { p with trc := t } := by
  unfold Part.playLegal at k ⊢
  simp only [ho, he, hs]
  exact k

theorem Part.play_pos {p : Part} (x : PositionCounter) (k : Part.playLegal p) : Part.playLegal { p with pos := x } := k

theorem Part.play_advance {p : Part} (now : Nat) (k : Part.playLegal p) : Part.playLegal (p.advance now) := k

/-! ## Qualification, slip, survey count -/

theorem Part.moves_qualify (p : Part) : p.Moves p.qualify := by
  unfold Part.qualify
  dsimp only
  have m : p.Moves { p.enterMoving .playing with hcr := { (p.enterMoving .playing).hcr with capturing := true, nextIndex := 0 } } :=
    ⟨rfl, rfl, rfl, rfl, rfl, rfl, rfl, id, id⟩
  refine .ite ?_ (.refl p)
  split
  · exact m.trans (Part.moves_setOp _ _)
  · exact m.trans (Part.works_post _ _).moves
  all_goals exact m

theorem Part.play_qualify (p : Part) (k : Part.playLegal p) : Part.playLegal p.qualify := by
  unfold Part.qualify
  dsimp only
  split
  · rename_i h
    obtain ⟨k1, k2, -, k4, -, k6⟩ := k
    have hp := k2.mp (.inl h.1)
    have base : Part.playLegal { p.enterMoving .playing with hcr := { (p.enterMoving .playing).hcr with capturing := true, nextIndex := 0 } } := by
      refine ⟨k1, ⟨fun _ => hp, fun _ => .inr rfl⟩, ?_, fun he => absurd hp.2 he, fun _ => rfl, k6⟩
      intro hn
      have hn' : p.trc.op.kind = .none := hn
      rw [hn'] at hp
      simp at hp
    split
    · exact Part.play_trc _ rfl rfl rfl base
    · exact (Part.works_post _ _).play base
    all_goals exact base
  · exact k

theorem Part.moves_slipClose (u : Setup) (p : Part) : p.Moves (p.slipClose u) := by
  unfold Part.slipClose
  dsimp only
  split
  · refine .ite (.ite (.ite ((p.moves_trc _).trans (Part.works_reportPresent u _ _).moves) (p.moves_trc _)) ?_) (.refl p)
    exact (p.moves_trc _).trans (Part.works_reportAbsent u _ _).moves
  · exact .refl p

theorem Part.play_slipClose (u : Setup) (p : Part) (k : Part.playLegal p) : Part.playLegal (p.slipClose u) := by
  unfold Part.slipClose
  dsimp only
  split
  · split
    · split
      · split
        · exact (Part.works_reportPresent u _ _).play (Part.play_trc _ rfl rfl rfl k)
        · exact Part.play_trc _ rfl rfl rfl k
      · exact (Part.works_reportAbsent u _ _).play (Part.play_trc _ rfl rfl rfl k)
    · exact k
  · exact k

theorem Part.moves_slipTick (u : Setup) (f : Bool) (p : Part) : p.Moves (p.slipTick u f) := by
  unfold Part.slipTick
  refine .ite (.ite ?_ (p.moves_trc _)) (.refl p)
  split
  · exact p.moves_trc _
  · exact (p.moves_trc _).trans (Part.moves_slipClose u _)

theorem Part.play_slipTick (u : Setup) (f : Bool) (p : Part) (k : Part.playLegal p) : Part.playLegal (p.slipTick u f) := by
  unfold Part.slipTick
  split
  · split
    · split
      · exact Part.play_trc _ rfl rfl rfl k
      · exact Part.play_slipClose u _ (Part.play_trc _ rfl rfl rfl k)
    · exact Part.play_trc _ rfl rfl rfl k
  · exact k

theorem Part.moves_surveyIfCounted (u : Setup) (p : Part) : p.Moves (p.surveyIfCounted u) := by
  unfold Part.surveyIfCounted
  split
  · exact .ite (p.moves_endOperation u _) (.refl p)
  · exact .refl p

theorem Part.play_surveyIfCounted (u : Setup) (p : Part) (k : Part.playLegal p) : Part.playLegal (p.surveyIfCounted u) := by
  unfold Part.surveyIfCounted
  split
  · rename_i hk _ _
    split
    · refine p.play_endOperation u _ ?_ k
      rw [hk]; simp
    · exact k
  · exact k

/-! ## Ticks -/

theorem Part.moves_startingTick (u : Setup) (f : Bool) (p : Part) : p.Moves (p.startingTick u f) := by
  unfold Part.startingTick
  exact .ite ((p.moves_trc _).trans (Part.moves_qualify _)) (p.moves_trc _)

theorem Part.play_startingTick (u : Setup) (f : Bool) (p : Part) (k : Part.playLegal p) : Part.playLegal (p.startingTick u f) := by
  unfold Part.startingTick
  split
  · exact Part.play_qualify _ (Part.play_trc _ rfl rfl rfl k)
  · exact Part.play_trc _ rfl rfl rfl k

theorem Part.moves_playingTick (u : Setup) (p : Part) : p.Moves (p.playingTick u) := by
  unfold Part.playingTick
  split
  · split
    · exact .ite (p.moves_endOperation u _) (.refl p)
    · exact .refl p
  · exact (p.moves_setOp _).trans (Part.moves_surveyIfCounted u _)
  all_goals exact .refl p

theorem Part.play_playingTick (u : Setup) (p : Part) (k : Part.playLegal p) : Part.playLegal (p.playingTick u) := by
  unfold Part.playingTick
  split
  · rename_i hk
    split
    · split
      · refine p.play_endOperation u _ ?_ k
        rw [hk]; simp
      · exact k
    · exact k
  · exact Part.play_surveyIfCounted u _ (Part.play_trc _ rfl rfl rfl k)
  all_goals exact k

/-- A wind or rewind phase that ends in a settle phase. -/
theorem Part.play_settlePhase (u : Setup) (p : Part) (k : Part.playLegal p)
    (hk : p.trc.op.kind = .seek ∨ p.trc.op.kind = .rewindToLeader) (hm : p.trc.state.moving = true) :
    Part.playLegal ((p.setOp { p.trc.op with phase := some .settle }).enterSettling u) := by
  have hnp : ¬((p.trc.op.kind = .take ∨ p.trc.op.kind = .survey) ∧ p.trc.op.ending = none) := by
    rintro ⟨h1 | h1, -⟩ <;> rw [h1] at hk <;> simp at hk
  have hc := Part.playLegal_noCapture k hnp
  have he : p.trc.op.ending = none := by
    by_contra he
    have := k.2.2.2.1 he
    rw [this] at hm
    cases hm
  obtain ⟨s1, s2, s3, s4, -⟩ := Part.enterSettling_spec u (p.setOp { p.trc.op with phase := some .settle })
  refine Part.playLegal_motion ?_ ?_ ?_ ?_ ?_
  · rw [s3]; exact fun h => hnp ⟨.inl (k.1.mp h).1, he⟩
  · rw [s2]; rcases hk with h | h
    · exact .inr (.inl h)
    · exact .inr (.inr h)
  · rw [s1]; decide
  · rw [s2]; exact he
  · rw [s4]; exact hc

theorem Part.moves_windingTick (u : Setup) (p : Part) : p.Moves (p.windingTick u) := by
  unfold Part.windingTick
  split
  · exact .ite ((p.moves_setOp _).trans (Part.enterSettling_spec u _).2.2.2.2) (.refl p)
  · exact .refl p

theorem Part.play_windingTick (u : Setup) (p : Part) (k : Part.playLegal p) : Part.playLegal (p.windingTick u) := by
  unfold Part.windingTick
  split
  · rename_i hk _
    split
    · rename_i h
      refine Part.play_settlePhase u p k (.inl hk) ?_
      rcases h with ⟨h, -⟩ | ⟨h, -⟩ <;> rw [h] <;> rfl
    · exact k
  · exact k

theorem Part.moves_approachingTick (u : Setup) (p : Part) : p.Moves (p.approachingTick u) := by
  unfold Part.approachingTick
  split
  · exact .ite (p.moves_endOperation u _) (.refl p)
  · exact .refl p

theorem Part.play_approachingTick (u : Setup) (p : Part) (k : Part.playLegal p) : Part.playLegal (p.approachingTick u) := by
  unfold Part.approachingTick
  split
  · rename_i hk _
    split
    · refine p.play_endOperation u _ ?_ k
      rw [hk]; simp
    · exact k
  · exact k

theorem Part.moves_transportTick (u : Setup) (f : Bool) (p : Part) : p.Moves (p.transportTick u f) := by
  unfold Part.transportTick
  dsimp only
  refine Part.Moves.trans (q := if p.trc.state.moving then { p with trc := { p.trc with stallTimer := some p.timebase } } else p)
    (.ite (p.moves_trc _) (.refl p)) ?_
  generalize (if p.trc.state.moving then { p with trc := { p.trc with stallTimer := some p.timebase } } else p) = q
  split
  · exact .refl q
  · exact .refl q
  · exact q.moves_startingTick u f
  · exact Part.Moves.trans (.ite (q.moves_playingTick u) (.refl q)) (Part.moves_slipTick u f _)
  · exact Part.Moves.trans (.ite (q.moves_approachingTick u) (.refl q)) (Part.moves_slipTick u f _)
  · exact q.moves_windingTick u
  · exact q.moves_windingTick u

theorem Part.play_ite {c : Prop} [Decidable c] {p q : Part} (h : Part.playLegal p) (k : Part.playLegal q) :
    Part.playLegal (if c then p else q) := by
  split <;> assumption

theorem Part.play_transportTick (u : Setup) (f : Bool) (p : Part) (k : Part.playLegal p) : Part.playLegal (p.transportTick u f) := by
  unfold Part.transportTick
  dsimp only
  have k' : Part.playLegal (if p.trc.state.moving then { p with trc := { p.trc with stallTimer := some p.timebase } } else p) :=
    Part.play_ite (Part.play_trc _ rfl rfl rfl k) k
  generalize (if p.trc.state.moving then { p with trc := { p.trc with stallTimer := some p.timebase } } else p) = q at k' ⊢
  split
  · exact k'
  · exact k'
  · exact q.play_startingTick u f k'
  · exact Part.play_slipTick u f _ (Part.play_ite (q.play_playingTick u k') k')
  · exact Part.play_slipTick u f _ (Part.play_ite (q.play_approachingTick u k') k')
  · exact q.play_windingTick u k'
  · exact q.play_windingTick u k'

theorem countTick_position (pc : PositionCounter) (phase : Phase) (h : pc.position ≤ Config.maxPosition) :
    (countTick pc phase).position ≤ Config.maxPosition := by
  unfold countTick
  cases phase <;> dsimp only <;> split <;> split <;> simp only <;> omega

theorem Part.moves_tick (u : Setup) (phase : Phase) (now : Nat) (p : Part) : p.Moves (p.tick u phase now) := by
  unfold Part.tick
  dsimp only
  have m : p.Moves ({ p with pos := countTick p.pos phase }.advance now) :=
    ⟨rfl, rfl, rfl, rfl, rfl, rfl, rfl, countTick_position _ _, id⟩
  have f := m.trans (Part.works_follow u _).moves
  exact ((f.trans (.ite (Part.works_stampTick u _).moves (.refl _))).trans (Part.moves_transportTick u _ _)).trans
    (Part.moves_takeStop u _)

theorem Part.play_tick (u : Setup) (phase : Phase) (now : Nat) (p : Part) (k : Part.playLegal p) : Part.playLegal (p.tick u phase now) := by
  unfold Part.tick
  dsimp only
  have f : Part.playLegal (({ p with pos := countTick p.pos phase }.advance now).follow u) := (Part.works_follow u _).play k
  exact Part.play_takeStop u _ (Part.play_transportTick u _ _ (Part.play_ite ((Part.works_stampTick u _).play f) f))

/-! ## Sensors -/

theorem Part.moves_zeroPosition (u : Setup) (p : Part) : p.Moves (p.zeroPosition u) := by
  unfold Part.zeroPosition
  refine Part.Moves.trans (q := { p with pos := { p.pos with position := 0, referenced := true } }) ?_ (Part.works_follow u _).moves
  exact ⟨rfl, rfl, rfl, rfl, rfl, rfl, rfl, fun _ => Nat.zero_le _, id⟩

theorem Part.zeroPosition_trc (u : Setup) (p : Part) : (p.zeroPosition u).trc = p.trc :=
  (Part.works_follow u { p with pos := { p.pos with position := 0, referenced := true } }).trc

theorem Part.play_zeroPosition (u : Setup) (p : Part) (k : Part.playLegal p) : Part.playLegal (p.zeroPosition u) :=
  (Part.works_follow u { p with pos := { p.pos with position := 0, referenced := true } }).play k

theorem Part.moves_leaderSeen (u : Setup) (p : Part) : p.Moves (p.leaderSeen u) := by
  unfold Part.leaderSeen
  exact .ite (.ite ((p.moves_setOp _).trans (Part.enterSettling_spec u _).2.2.2.2) (p.moves_endAs u _ _)) (.refl p)

theorem Part.moves_leaderLeft (u : Setup) (p : Part) : p.Moves (p.leaderLeft u) := by
  unfold Part.leaderLeft
  exact .ite ((p.moves_zeroPosition u).trans (Part.moves_endOperation u _ _)) (.refl p)

theorem Part.moves_leaderChange (u : Setup) (p : Part) : p.Moves (p.leaderChange u) := by
  unfold Part.leaderChange
  exact .ite ((p.moves_trc _).trans (Part.moves_leaderLeft u _)) ((p.moves_trc _).trans (Part.moves_leaderSeen u _))

theorem Part.play_leaderSeen (u : Setup) (p : Part) (k : Part.playLegal p) : Part.playLegal (p.leaderSeen u) := by
  unfold Part.leaderSeen
  split
  · rename_i hm
    split
    · rename_i h
      exact Part.play_settlePhase u p k (.inr h.1) hm
    · exact Part.play_endAs u _ _ p k
  · exact k

theorem Part.play_leaderLeft (u : Setup) (p : Part) (k : Part.playLegal p) : Part.playLegal (p.leaderLeft u) := by
  unfold Part.leaderLeft
  split
  · rename_i h
    refine Part.play_endOperation u _ _ ?_ (Part.play_zeroPosition u p k)
    rw [Part.zeroPosition_trc, h.2.1]; simp
  · exact k

theorem Part.play_leaderChange (u : Setup) (p : Part) (k : Part.playLegal p) : Part.playLegal (p.leaderChange u) := by
  unfold Part.leaderChange
  exact Part.play_ite (Part.play_leaderLeft u _ (Part.play_trc _ rfl rfl rfl k)) (Part.play_leaderSeen u _ (Part.play_trc _ rfl rfl rfl k))

theorem Part.moves_insertCassette (u : Setup) (p : Part) : p.Moves (p.insertCassette u) := by
  unfold Part.insertCassette
  refine .ite (.refl p) (Part.Moves.trans (q := { p with pos := { p.pos with cassette := true, position := 0, referenced := false } }) ?_
    ((Part.works_follow u _).trans (Part.works_post _ _)).moves)
  exact ⟨rfl, rfl, rfl, rfl, rfl, rfl, rfl, fun _ => Nat.zero_le _, id⟩

theorem Part.play_insertCassette (u : Setup) (p : Part) (k : Part.playLegal p) : Part.playLegal (p.insertCassette u) := by
  unfold Part.insertCassette
  refine Part.play_ite k ?_
  exact ((Part.works_follow u { p with pos := { p.pos with cassette := true, position := 0, referenced := false } }).trans
    (Part.works_post _ _)).play k

theorem Part.moves_removeCassette (u : Setup) (p : Part) : p.Moves (p.removeCassette u) := by
  unfold Part.removeCassette
  refine .ite (Part.Moves.trans (q := { p with pos := { p.pos with cassette := false, referenced := false } }) ?_
    ((Part.works_post _ _).moves.trans (Part.moves_endAs u _ _ _))) (.refl p)
  exact ⟨rfl, rfl, rfl, rfl, rfl, rfl, rfl, id, id⟩

theorem Part.play_removeCassette (u : Setup) (p : Part) (k : Part.playLegal p) : Part.playLegal (p.removeCassette u) := by
  unfold Part.removeCassette
  refine Part.play_ite ?_ k
  exact Part.play_endAs u _ _ _ ((Part.works_post { p with pos := { p.pos with cassette := false, referenced := false } } _).play k)

/-! ## Timers -/

theorem Part.moves_stall (u : Setup) (p : Part) : p.Moves (p.stall u) :=
  ((p.works_occur u _).moves.trans (Part.moves_endAs u _ _ _)).trans (Part.moves_takeStop u _)

theorem Part.play_stall (u : Setup) (p : Part) (k : Part.playLegal p) : Part.playLegal (p.stall u) :=
  Part.play_takeStop u _ (Part.play_endAs u _ _ _ ((p.works_occur u _).play k))

theorem Part.moves_endAtRest (u : Setup) (t : Termination) (p : Part) : p.Moves (p.endAtRest u t) :=
  ((p.moves_setOp _).trans (Part.moves_enterStopped _)).trans (Part.moves_completeOperation u _)

theorem Part.moves_seekReplan (u : Setup) (p : Part) : p.Moves (p.seekReplan u) := by
  unfold Part.seekReplan
  dsimp only
  exact .ite ((p.moves_setOp _).trans (Part.moves_enterMoving _ _)) (.ite (p.moves_endAtRest u _)
    (.ite ((p.moves_setOp _).trans (Part.moves_enterMoving _ _)) (p.moves_endAtRest u _)))

theorem Part.play_endAtRest (u : Setup) (t : Termination) (p : Part) (hd : p.take.device ≠ .run) (hc : p.hcr.capturing = false) :
    Part.playLegal (p.endAtRest u t) := by
  refine Part.play_completeOperation u _ hd rfl hc (fun c h => ?_) (fun h => ?_)
  · simp [Part.setOp, Part.enterStopped] at h
  · simp [Part.setOp, Part.enterStopped] at h

theorem Part.play_seekReplan (u : Setup) (p : Part) (hd : p.take.device ≠ .run) (hc : p.hcr.capturing = false)
    (hk : p.trc.op.kind = .seek) (he : p.trc.op.ending = none) : Part.playLegal (p.seekReplan u) := by
  unfold Part.seekReplan
  dsimp only
  refine Part.play_ite ?_ (Part.play_ite (p.play_endAtRest u _ hd hc) (Part.play_ite ?_ (p.play_endAtRest u _ hd hc)))
  · exact Part.playLegal_motion hd (.inr (.inl hk)) (by simp [Part.enterMoving]) he hc
  · exact Part.playLegal_motion hd (.inr (.inl hk)) (by simp [Part.enterMoving]) he hc

theorem Part.moves_settled (u : Setup) (p : Part) : p.Moves (p.settled u) := by
  unfold Part.settled
  split
  · exact p.moves_seekReplan u
  · exact .ite ((p.moves_setOp _).trans (Part.moves_enterMoving _ _)) ((p.moves_setOp _).trans (Part.moves_enterMoving _ _))
  · exact p.moves_enterStopped.trans (Part.moves_completeOperation u _)

theorem Part.play_settled (u : Setup) (p : Part) (k : Part.playLegal p) (hs : p.trc.state = .settling) : Part.playLegal (p.settled u) := by
  have hnp : ¬((p.trc.op.kind = .take ∨ p.trc.op.kind = .survey) ∧ p.trc.op.ending = none) := fun h => by
    have := k.2.1.mpr h
    rw [hs] at this
    simp at this
  have hc := Part.playLegal_noCapture k hnp
  have hd : p.take.device ≠ .run := fun h => hnp ⟨.inl (k.1.mp h).1, (k.1.mp h).2⟩
  unfold Part.settled
  split
  · rename_i hk he
    exact p.play_seekReplan u hd hc hk he
  · rename_i hk he
    refine Part.play_ite ?_ ?_
    · exact Part.playLegal_motion hd (.inr (.inr hk)) (by simp [Part.enterMoving]) he hc
    · exact Part.playLegal_motion hd (.inr (.inr hk)) (by simp [Part.enterMoving]) he hc
  · refine Part.play_completeOperation u _ hd rfl hc k.2.2.2.2.2 (fun he => ?_)
    constructor
    · exact fun h => hnp ⟨.inl h, he⟩
    · exact fun h => hnp ⟨.inr h, he⟩

theorem Part.moves_settleExpiry (u : Setup) (p : Part) : p.Moves (p.settleExpiry u) := by
  unfold Part.settleExpiry
  split
  · exact .ite ((p.moves_advance _).trans (Part.moves_settled u _)) (.refl p)
  · exact .refl p

theorem Part.play_settleExpiry (u : Setup) (p : Part) (k : Part.playLegal p) : Part.playLegal (p.settleExpiry u) := by
  unfold Part.settleExpiry
  split
  · split
    · rename_i hs
      exact Part.play_settled u _ (Part.play_advance _ k) hs
    · exact k
  · exact k

theorem Part.moves_stallExpiry (u : Setup) (p : Part) : p.Moves (p.stallExpiry u) := by
  unfold Part.stallExpiry
  dsimp only
  split
  · refine .ite (Part.Moves.trans (p.moves_advance _) (.ite ?_ (Part.moves_stall u _))) (.refl p)
    exact (Part.moves_setOp _ _).trans (Part.enterSettling_spec u _).2.2.2.2
  · exact .refl p

theorem Part.play_stallExpiry (u : Setup) (p : Part) (k : Part.playLegal p) : Part.playLegal (p.stallExpiry u) := by
  unfold Part.stallExpiry
  dsimp only
  split
  · split
    · rename_i hm
      split
      · rename_i h
        exact Part.play_settlePhase u _ (Part.play_advance _ k) (.inr h.1) hm
      · exact Part.play_stall u _ (Part.play_advance _ k)
    · exact k
  · exact k

theorem Part.moves_startingExpiry (u : Setup) (p : Part) : p.Moves (p.startingExpiry u) := by
  unfold Part.startingExpiry
  split
  · exact .ite ((p.moves_advance _).trans (Part.moves_stall u _)) (.refl p)
  · exact .refl p

theorem Part.play_startingExpiry (u : Setup) (p : Part) (k : Part.playLegal p) : Part.playLegal (p.startingExpiry u) := by
  unfold Part.startingExpiry
  split
  · exact Part.play_ite (Part.play_stall u _ (Part.play_advance _ k)) k
  · exact k

theorem Part.moves_leaderLimitExpiry (u : Setup) (p : Part) : p.Moves (p.leaderLimitExpiry u) := by
  unfold Part.leaderLimitExpiry
  split
  · exact .ite ((p.moves_advance _).trans (Part.moves_endOperation u _ _)) (.refl p)
  · exact .refl p

theorem Part.play_leaderLimitExpiry (u : Setup) (p : Part) (k : Part.playLegal p) : Part.playLegal (p.leaderLimitExpiry u) := by
  unfold Part.leaderLimitExpiry
  split
  · split
    · rename_i h
      refine Part.play_endOperation u _ _ ?_ (Part.play_advance _ k)
      show p.trc.op.kind = .take ↔ _
      rw [h.1]; simp
    · exact k
  · exact k

theorem Part.moves_pulse (p : Part) : p.Moves p.pulse := by
  unfold Part.pulse
  split
  · exact .refl p
  · exact p.moves_trc _

theorem Part.play_pulse (p : Part) (k : Part.playLegal p) : Part.playLegal p.pulse := by
  unfold Part.pulse
  split
  · exact k
  · exact Part.play_trc _ rfl rfl rfl k

theorem Part.moves_bothPhases (p : Part) : p.Moves p.bothPhases := ⟨rfl, rfl, rfl, rfl, rfl, rfl, rfl, id, id⟩

theorem Part.play_bothPhases (p : Part) (k : Part.playLegal p) : Part.playLegal p.bothPhases := k

end Sys2Proof.Machine
end

