-- ==== Sys2Proof/Laws/Owners.lean ====
section
/-! SUPPORT. What each command's owner can answer, said once: the state it was given, or the one state its rule gives, with the checks that were passed. -/

namespace Sys2Proof.Machine

open Sys2Proof.Safety

@[simp] theorem State.refuse_state (s : State) (c : ReplyCode) : (s.refuse c).state = s := rfl
@[simp] theorem State.refuse_code (s : State) (c : ReplyCode) : (s.refuse c).code = c := rfl
@[simp] theorem State.done_state (s : State) (c : ReplyCode) : (s.done c).state = s := rfl
@[simp] theorem State.done_code (s : State) (c : ReplyCode) : (s.done c).code = c := rfl

theorem judge_cases (k : Cmd) (owner : State → Answer) (s : State) :
    (judge k owner s).state = s ∨ k.admitted s.part.take.device = true ∧ judge k owner s = owner s := by
  unfold judge
  split
  · rename_i h; exact .inr ⟨h, rfl⟩
  · exact .inl rfl

theorem ownSetState_cases (target : Byte) (s : State) :
    (ownSetState target s).state = s
      ∨ ∃ d, d ≠ .run ∧ (ownSetState target s).state = s.enter d := by
  unfold ownSetState
  split
  · exact .inl rfl
  · exact .inl rfl
  · split
    · exact .inl rfl
    · split
      · exact .inr ⟨_, by decide, rfl⟩
      · exact .inl rfl
  · split
    · exact .inl rfl
    · split
      · exact .inr ⟨_, by decide, rfl⟩
      · exact .inl rfl

theorem ownLockTables_cases (flag : Byte) (s : State) :
    (ownLockTables flag s).state = s ∨ ∃ b, (ownLockTables flag s).state = { s with setup := { s.setup with locked := b } } := by
  unfold ownLockTables
  split
  · exact .inl rfl
  · exact .inr ⟨_, rfl⟩

theorem ownSetRates_cases (fr fo : BitVec 24) (s : State) :
    (ownSetRates fr fo s).state = s
      ∨ ∃ new, s.setup.entries.any (Entry.conflicts new.fr) = false ∧ (ownSetRates fr fo s).state = s.takeRates new := by
  unfold ownSetRates
  split
  · exact .inl rfl
  · split
    · exact .inl rfl
    · split
      · exact .inl rfl
      · rename_i new _ _ h
        exact .inr ⟨new, by simpa using h, rfl⟩

theorem ownLoadCoeffRow_cases (row : Byte) (coeffs : List (BitVec 24)) (s : State) :
    (ownLoadCoeffRow row coeffs s).state = s
      ∨ (ownLoadCoeffRow row coeffs s).state
          = { s with bank := s.bank.writeRow row.toNat ((coeffs.map BitVec.toInt).map (clampInt (-524288) 524287)) } := by
  unfold ownLoadCoeffRow
  split
  · exact .inl rfl
  · exact .inr rfl

theorem ownSelectBank_cases (bank : Byte) (s : State) :
    (ownSelectBank bank s).state = s
      ∨ ∃ b, (b = true → s.bank.full = true) ∧ (ownSelectBank bank s).state = { s with setup := { s.setup with bankLoaded := b } } := by
  unfold ownSelectBank
  split
  · exact .inl rfl
  · split
    · exact .inl rfl
    · split
      · exact .inl rfl
      · rename_i b _ _ h
        refine .inr ⟨b, fun hb => ?_, rfl⟩
        simpa [hb] using h

theorem ownSetDeck_cases (args : DeckArgs) (s : State) :
    (ownSetDeck args s).state = s
      ∨ (ownSetDeck args s).state = { s with setup := { s.setup with deck := (sentDeck args).clamped } } := by
  unfold ownSetDeck
  split
  · exact .inr rfl
  · exact .inl rfl

theorem ownSetMonitor_cases (source freeze : Byte) (s : State) :
    (ownSetMonitor source freeze s).state = s
      ∨ ∃ m, (ownSetMonitor source freeze s).state = { s with setup := { s.setup with monitor := m } } := by
  unfold ownSetMonitor
  split
  · exact .inr ⟨_, rfl⟩
  · exact .inl rfl

theorem ownSetPosition_cases (position : BitVec 24) (s : State) :
    (ownSetPosition position s).state = s
      ∨ (ownSetPosition position s).state
          = s.onPart fun p => { p with pos := { p.pos with position := position.toNat, referenced := true } }.follow s.setup := by
  unfold ownSetPosition
  split
  · exact .inl rfl
  · split
    · exact .inl rfl
    · exact .inr rfl

theorem motion_cases (begin : Part → Part) (s : State) :
    (motion begin s).state = s ∨ s.part.atRest = true ∧ (motion begin s).state = s.onPart begin := by
  unfold motion
  split
  · exact .inl rfl
  · rename_i h
    split
    · exact .inl rfl
    · exact .inr ⟨by simpa using h, rfl⟩

theorem ownWind_cases (direction : Byte) (s : State) :
    (ownWind direction s).state = s
      ∨ ∃ d, s.part.atRest = true ∧ (ownWind direction s).state = s.onPart (Part.windStart d) := by
  unfold ownWind
  split
  · exact .inl rfl
  · rcases motion_cases (Part.windStart _) s with h | h
    · exact .inl h
    · exact .inr ⟨_, h⟩

theorem ownSurvey_cases (a : SurveyArgs) (s : State) :
    (ownSurvey a s).state = s
      ∨ ∃ l src f c w n, s.part.atRest = true ∧ (ownSurvey a s).state = s.onPart (Part.surveyStart s.setup l src f c w n) := by
  unfold ownSurvey
  split
  · split
    · split
      · exact .inl rfl
      · split
        · exact .inl rfl
        · rename_i hb
          refine .inr ⟨_, _, _, _, _, _, ?_, rfl⟩
          unfold surveyBlocked at hb
          split at hb
          · cases hb
          · rename_i h
            simp only [not_or, Bool.not_eq_false] at h
            exact h.1
    · exact .inl rfl
  · exact .inl rfl

theorem ownLoadSegment_cases (a : SegmentArgs) (s : State) :
    (ownLoadSegment a s).state = s
      ∨ ∃ x, checkSegment s.setup.rates.fr a = .passed x ∧ loadBlocked s.setup s.part x = none
          ∧ (ownLoadSegment a s).state = s.editTable (insertSegment x.entry s.setup.entries) := by
  unfold ownLoadSegment
  split
  · exact .inl rfl
  · rename_i x hx
    split
    · exact .inl rfl
    · rename_i hb
      exact .inr ⟨x, hx, hb, rfl⟩

theorem ownDeleteSegment_cases (start : BitVec 24) (s : State) :
    (ownDeleteSegment start s).state = s
      ∨ (ownDeleteSegment start s).state = s.editTable (s.setup.entries.filter fun e => e.start != start.toNat) := by
  unfold ownDeleteSegment
  split
  · exact .inl rfl
  · split
    · exact .inl rfl
    · exact .inr rfl

theorem ownReadSegment_state (index : Byte) (s : State) : (ownReadSegment index s).state = s := by
  unfold ownReadSegment
  split <;> rfl

theorem ownStartTake_cases (flag : Byte) (position : BitVec 24) (s : State) :
    (ownStartTake flag position s).state = s
      ∨ ∃ e, takeBlocked s.setup s.part e = none ∧ s.part.atRest = true
          ∧ (ownStartTake flag position s).state = s.onPart (Part.takeStart s.setup e) := by
  unfold ownStartTake
  split
  · exact .inl rfl
  · dsimp only
    split
    · exact .inl rfl
    · rename_i hb
      refine .inr ⟨_, hb, ?_, rfl⟩
      unfold takeBlocked at hb
      split at hb
      · cases hb
      · rename_i h
        simp only [not_or, Bool.not_eq_false] at h
        exact h.1

theorem ownSetPolicy_cases (a : PolicyArgs) (s : State) :
    (ownSetPolicy a s).state = s
      ∨ ∃ ids policy scope, (∀ id ∈ ids, policy ∈ id.allowed) ∧ (ownSetPolicy a s).state = s.takePolicies ids policy scope := by
  unfold ownSetPolicy
  split
  · split
    · exact .inl rfl
    · split
      · rename_i ids _ h
        refine .inr ⟨ids, _, _, fun id hid => ?_, rfl⟩
        have := List.all_eq_true.mp h id hid
        simpa using this
      · exact .inl rfl
  · exact .inl rfl

theorem ownSetNoticeMask_cases (flags : List Byte) (s : State) :
    (ownSetNoticeMask flags s).state = s
      ∨ ∃ mask, (ownSetNoticeMask flags s).state = { s with setup := { s.setup with mask := mask } } := by
  unfold ownSetNoticeMask
  split
  · exact .inr ⟨_, rfl⟩
  · exact .inl rfl

/-! ## Through the port -/

/-- Anything that looks at nothing of the message port but its notices and survives a CELL_ERROR and the owner survives a command row. -/
theorem keeps_runCommand {P : State → Prop} (hm : ∀ s m, m.notices = s.part.msp.notices → P s → P { s with part := { s.part with msp := m } }) (k : Cmd)
    (tag : Byte) (owner : State → Answer) (s : State)
    (ho : k.admitted s.part.take.device = true → P (owner s).state) (h : P s) : P (runCommand k tag owner s) := by
  unfold runCommand
  dsimp only
  refine hm _ _ rfl ?_
  rcases judge_cases k owner s with hj | ⟨ha, hj⟩
  · rw [hj]; exact h
  · rw [hj]; exact ho ha

theorem keeps_abandon {P : State → Prop} (hm : ∀ s m, m.notices = s.part.msp.notices → P s → P { s with part := { s.part with msp := m } }) (s : State)
    (h : P s) : P s.abandon := by
  unfold State.abandon
  split
  · exact h
  · exact hm _ _ rfl (hm _ _ rfl h)

theorem keeps_startRefused {P : State → Prop} (hm : ∀ s m, m.notices = s.part.msp.notices → P s → P { s with part := { s.part with msp := m } })
    (hc : ∀ s, P s → P s.cellError) (s : State) (h : P s) : P s.startRefused :=
  hc _ (keeps_abandon hm s h)

theorem keeps_portCommand {P : State → Prop} (hm : ∀ s m, m.notices = s.part.msp.notices → P s → P { s with part := { s.part with msp := m } })
    (hc : ∀ s, P s → P s.cellError) (k : Cmd) (tag : Byte) (owner : State → Answer) (s : State)
    (ho : k.admitted s.part.take.device = true → P (owner s).state) (h : P s) : P (portCommand k tag owner s) := by
  unfold portCommand
  split
  · exact keeps_runCommand hm k tag owner s ho h
  · exact keeps_startRefused hm hc s h

theorem keeps_portSized {P : State → Prop} (hm : ∀ s m, m.notices = s.part.msp.notices → P s → P { s with part := { s.part with msp := m } })
    (hc : ∀ s, P s → P s.cellError) (k : Cmd) (tag : Byte) (b : Bool) (owner : State → Answer) (s : State)
    (ho : k.admitted s.part.take.device = true → P (owner s).state) (h : P s) : P (portSized k tag b owner s) := by
  unfold portSized
  split
  · split
    · exact keeps_runCommand hm k tag owner s ho h
    · exact hm _ _ rfl h
  · exact keeps_startRefused hm hc s h

end Sys2Proof.Machine
end

