-- ==== Sys2Proof/Laws/Slots.lean ====
section
/-! SUPPORT. What a frame slot and an upstream slot can do to the state, said once. -/

namespace Sys2Proof.Machine

open Sys2Proof.Safety

/-! ## Frame slots (01, R2 to R12) -/

/-- A change of the receiver that does not start capture keeps the agreement of device, operation and transport. -/
theorem Part.play_hcr {p : Part} (h : HeadReceiver) (hc : h.capturing = true → p.hcr.capturing = true) (k : Part.playLegal p) :
    Part.playLegal { p with hcr := h } :=
  ⟨k.1, k.2.1, k.2.2.1, k.2.2.2.1, fun x => k.2.2.2.2.1 (hc x), k.2.2.2.2.2⟩

theorem Part.play_overrun (u : Setup) (p : Part) (k : Part.playLegal p) :
    Part.playLegal ((p.stopCapture.occur u .overrun).takeStop u) :=
  Part.play_takeStop u _ ((Part.works_occur u _ _).play (Part.play_hcr _ (fun h => by cases h) k))

theorem State.play_writeFrame (f : PerTrack Int) (s : State) (k : Part.playLegal s.part) : Part.playLegal (s.writeFrame f).part := by
  unfold State.writeFrame
  dsimp only
  refine Part.play_takeStop _ _ ((Part.works_arrived _ _ _ _ _).play (Part.play_hcr _ (fun h => ?_) ?_))
  · exact h
  · split
    · exact (Part.works_blockBegin _ _ _ _).play k
    · exact k

theorem State.play_passOn (f : PerTrack Int) (s : State) (k : Part.playLegal s.part) : Part.playLegal (s.passOn f).part := by
  unfold State.passOn
  split
  · split
    · exact Part.play_overrun _ _ k
    · exact s.play_writeFrame f k
  · exact k

theorem State.play_passCopies (f : PerTrack Int) (n : Nat) (s : State) (k : Part.playLegal s.part) :
    Part.playLegal (s.passCopies f n).part := by
  induction n generalizing s with
  | zero => exact k
  | succ n ih => exact ih _ (s.play_passOn f k)

theorem Part.play_hold (u : Setup) (n : Nat) (p : Part) (k : Part.playLegal p) : Part.playLegal (p.hold u n) :=
  Part.play_takeStop _ _ ((Part.works_reportPresent _ _ _).play (Part.play_hcr _ id k))

theorem Part.play_rawLost (u : Setup) (p : Part) (k : Part.playLegal p) : Part.playLegal (p.rawLost u) :=
  Part.play_takeStop _ _ (((Part.works_reportAbsent _ _ _).trans (Part.works_occur _ _ _)).play
    (Part.play_hcr _ (fun h => by cases h) k))

theorem State.play_takeFrame (seq : Byte) (f : PerTrack Int) (s : State) (k : Part.playLegal s.part) :
    Part.playLegal (s.takeFrame seq f).part :=
  State.play_passOn f _ (Part.play_takeStop _ _ ((Part.works_reportAbsent _ _ _).play (Part.play_hcr _ id k)))

theorem play_frameSlot (bytes : List Byte) (s : State) (k : Part.playLegal s.part) : Part.playLegal (frameSlot bytes s).part := by
  unfold frameSlot
  dsimp only
  split
  · exact k
  · exact s.play_takeFrame _ _ k
  · split
    · exact State.play_passOn _ _ (Part.play_hold _ _ _ k)
    · exact Part.play_rawLost _ _ k
  · split
    · exact s.play_takeFrame _ _ k
    · split
      · exact State.play_takeFrame _ _ _ (State.play_passCopies _ _ _ (Part.play_hold _ _ _ k))
      · exact Part.play_rawLost _ _ k

/-! ## The other things a frame slot keeps -/

/-- A frame written leaves setup, bank, position, replies and the queue alone, and keeps every capacity. -/
theorem State.writeFrame_spec (f : PerTrack Int) (s : State) :
    (s.writeFrame f).pending = s.pending ∧ (s.writeFrame f).setup = s.setup ∧ (s.writeFrame f).bank = s.bank
      ∧ s.part.Moves (s.writeFrame f).part
      ∧ (s.writeFrame f).rings
          = ((if s.part.hcr.nextIndex % Config.blockSize = 0 then
                s.rings.setStamp (s.part.hcr.nextIndex / Config.blockSize) s.part.pos.position
              else s.rings).write s.part.hcr.nextIndex f) := by
  refine ⟨rfl, rfl, rfl, ?_, rfl⟩
  unfold State.writeFrame
  dsimp only
  refine Part.Moves.trans ?_ ((Part.works_arrived _ _ _ _ _).moves.trans (Part.moves_takeStop _ _))
  refine Part.Moves.trans (q := if s.part.hcr.nextIndex % Config.blockSize = 0 then
    s.part.blockBegin s.setup s.part.hcr.nextIndex s.part.pos.position else s.part) ?_ ?_
  · exact .ite (Part.works_blockBegin _ _ _ _).moves (.refl _)
  · exact ⟨rfl, rfl, rfl, rfl, rfl, rfl, rfl, id, id⟩

/-- Passing a frame on leaves setup, bank, position, replies and the queue alone, and keeps every capacity. -/
theorem State.passOn_spec (f : PerTrack Int) (s : State) :
    (s.passOn f).pending = s.pending ∧ (s.passOn f).setup = s.setup ∧ (s.passOn f).bank = s.bank
      ∧ s.part.Moves (s.passOn f).part
      ∧ ((s.passOn f).rings = s.rings ∨ (s.passOn f).rings = (s.writeFrame f).rings) := by
  unfold State.passOn
  split
  · split
    · refine ⟨rfl, rfl, rfl, ?_, .inl rfl⟩
      refine Part.Moves.trans (q := s.part.stopCapture) ?_ ((Part.works_occur _ _ _).moves.trans (Part.moves_takeStop _ _))
      exact ⟨rfl, rfl, rfl, rfl, rfl, rfl, rfl, id, id⟩
    · exact ⟨(s.writeFrame_spec f).1, (s.writeFrame_spec f).2.1, (s.writeFrame_spec f).2.2.1, (s.writeFrame_spec f).2.2.2.1,
        .inr rfl⟩
  · exact ⟨rfl, rfl, rfl, .refl _, .inl rfl⟩

/-! ## Queues at an upstream slot -/

theorem kindsDistinct_sublist {a b : List Notice} (h : a.Sublist b) (k : kindsDistinct b = true) : kindsDistinct a = true := by
  induction h with
  | slnil => rfl
  | cons x _ ih =>
    simp only [kindsDistinct, Bool.and_eq_true] at k
    exact ih k.2
  | cons_cons x hs ih =>
    simp only [kindsDistinct, Bool.and_eq_true] at k ⊢
    refine ⟨?_, ih k.2⟩
    rw [List.all_eq_true] at k ⊢
    exact fun y hy => k.1 y (hs.subset hy)

/-- A queue that has lost notices keeps its rules. -/
theorem noticesLegal_sublist {a b : List Notice} (h : a.Sublist b) (k : noticesLegal b = true) : noticesLegal a = true := by
  simp only [noticesLegal, Bool.and_eq_true] at k ⊢
  refine ⟨kindsDistinct_sublist h k.1, ?_⟩
  rw [List.all_eq_true] at k ⊢
  exact fun y hy => k.2 y (h.subset hy)

theorem offerNotice_sublist (mask : List NoticeKind) (q : List Notice) (r : Notice × List Notice)
    (h : offerNotice mask q = some r) : r.2.Sublist q := by
  induction q generalizing r with
  | nil => cases h
  | cons n rest ih =>
    unfold offerNotice at h
    split at h
    · rw [Option.map_eq_some_iff] at h
      obtain ⟨x, hx, h⟩ := h
      rw [← h]
      exact (ih x hx).cons_cons n
    · injection h with h
      rw [← h]
      exact List.sublist_cons_self n rest

/-! ## Upstream slots (09, R169 to R171) -/

/-- What a slot itself does, before the production step that a stalled lane takes at its removal: the scheduler, at most one
message out of the port, at most one frame out of a FIFO. -/
structure Part.Sends (p q : Part) : Prop where
  pos : q.pos = p.pos
  trc : q.trc = p.trc
  hcr : q.hcr = p.hcr
  take : q.take = p.take
  cmn : q.cmn = p.cmn
  log : q.log = p.log
  stopPending : q.stopPending = p.stopPending
  assembler : q.msp.assembler = p.msp.assembler
  accept : q.osc.accept = p.osc.accept
  replies : q.msp.replies.length ≤ p.msp.replies.length
  bounded : p.bounded → q.bounded
  blocks : q.rft = p.rft ∧ q.aza = p.aza ∧ q.det = p.det ∧ q.con = p.con
  states : ∀ l, (q.lanes.get l).state = (p.lanes.get l).state

/-- A message taken from the port leaves a port without it. -/
theorem Part.nextMessage_port (u : Setup) (p : Part) (b : Bool) (m : Underway) (port : MessagePort)
    (h : p.nextMessage u = some (b, m, port)) :
    port.assembler = p.msp.assembler ∧ port.replies.length ≤ p.msp.replies.length ∧ port.notices.Sublist p.msp.notices := by
  unfold Part.nextMessage at h
  split at h
  · simp only [Option.some.injEq, Prod.mk.injEq] at h
    rw [← h.2.2]
    exact ⟨rfl, le_refl _, .refl _⟩
  · rename_i _ _ _ hr
    simp only [Option.some.injEq, Prod.mk.injEq] at h
    rw [← h.2.2]
    exact ⟨rfl, by simp [hr], .refl _⟩
  · rw [Option.map_eq_some_iff] at h
    obtain ⟨x, hx, h⟩ := h
    simp only [Prod.mk.injEq] at h
    rw [← h.2.2]
    exact ⟨rfl, le_refl _, offerNotice_sublist _ _ _ hx⟩

/-- An upstream slot sends; where it sends a sample frame the lane served may resume, and the take may close. -/
theorem Part.upstreamSlot_sends (u : Setup) (rings : Rings) (bank : LoadedBank) (p : Part) :
    ∃ q : Part, p.Sends q ∧ (p.upstreamSlot u rings bank = q
      ∨ ∃ l b, p.upstreamSlot u rings bank = (q.resumeLane u rings bank l b).closeTake) := by
  unfold Part.upstreamSlot
  dsimp only
  split
  · rename_i continues m port h
    have h : p.nextMessage u = some (continues, m, port) := by
      split at h
      · exact h
      · cases h
    obtain ⟨ha, hr, hn⟩ := p.nextMessage_port u _ _ _ h
    exact ⟨p.sendMessage (statusOctet u p) continues m port,
      ⟨rfl, rfl, rfl, rfl, rfl, rfl, rfl, ha, rfl, hr, fun k => ⟨noticesLegal_sublist hn k.1, k.2⟩,
        ⟨rfl, rfl, rfl, rfl⟩, fun _ => rfl⟩, .inl rfl⟩
  · split
    · unfold Part.sendSample
      dsimp only
      split
      · exact ⟨p, ⟨rfl, rfl, rfl, rfl, rfl, rfl, rfl, rfl, rfl, le_refl _, id, ⟨rfl, rfl, rfl, rfl⟩, fun _ => rfl⟩, .inl rfl⟩
      · rename_i f rest hf
        refine ⟨({ p with osc := { p.osc.countSlot with lastServed := p.servedLane, upstream := frameBytes 0 (statusOctet u p) f.bytes } } : Part).setProducer
            p.servedLane { p.lanes.get p.servedLane with fifo := rest },
          ⟨rfl, rfl, rfl, rfl, rfl, rfl, rfl, rfl, rfl, le_refl _, fun k => ?_, ⟨rfl, rfl, rfl, rfl⟩, fun l => ?_⟩, .inr ⟨_, _, rfl⟩⟩
        swap
        · rw [Part.setProducer_lanes]
          by_cases hl : l = p.servedLane
          · subst hl; simp
          · rw [PerLane.get_set_other _ _ hl]
        refine (Part.works_setProducer { p with osc := _ } p.servedLane _ fun hl => ?_).bounded k
        simp only [laneFits, Bool.and_eq_true, decide_eq_true_eq, hf, List.length_cons] at hl ⊢
        exact ⟨by omega, hl.2⟩
    · split
      · exact ⟨p.sendLinkCheck (statusOctet u p), ⟨rfl, rfl, rfl, rfl, rfl, rfl, rfl, rfl, rfl, le_refl _, id, ⟨rfl, rfl, rfl, rfl⟩, fun _ => rfl⟩, .inl rfl⟩
      · exact ⟨p.sendIdle (statusOctet u p), ⟨rfl, rfl, rfl, rfl, rfl, rfl, rfl, rfl, rfl, le_refl _, id, ⟨rfl, rfl, rfl, rfl⟩, fun _ => rfl⟩, .inl rfl⟩

/-- A lane that resumes moves as a production step moves. -/
theorem Part.moves_resumeLane (u : Setup) (rings : Rings) (bank : LoadedBank) (l : Lane) (b : Bool) (p : Part) :
    p.Moves (p.resumeLane u rings bank l b) := by
  unfold Part.resumeLane Part.laneStep
  exact .ite (((Part.works_stepLane u rings bank l p).trans (Part.works_finishIfDone u l _)).moves.trans (Part.moves_takeStop u _))
    (.refl p)

/-- An upstream slot leaves the assembler and ACCEPT alone and queues no reply. -/
theorem Part.upstreamSlot_port (u : Setup) (rings : Rings) (bank : LoadedBank) (p : Part) :
    (p.upstreamSlot u rings bank).msp.assembler = p.msp.assembler
      ∧ (p.upstreamSlot u rings bank).osc.accept = p.osc.accept
      ∧ (p.upstreamSlot u rings bank).msp.replies.length ≤ p.msp.replies.length := by
  obtain ⟨q, s, e | ⟨l, b, e⟩⟩ := p.upstreamSlot_sends u rings bank
  · rw [e]; exact ⟨s.assembler, s.accept, s.replies⟩
  · have m := (q.moves_resumeLane u rings bank l b).trans (Part.works_closeTake _).moves
    rw [e, m.assembler, m.osc, m.replies]
    exact ⟨s.assembler, s.accept, s.replies⟩

/-- An upstream slot keeps every queue within its rules. -/
theorem Part.bounded_upstreamSlot (u : Setup) (rings : Rings) (bank : LoadedBank) (p : Part) (h : p.bounded) :
    (p.upstreamSlot u rings bank).bounded := by
  obtain ⟨q, s, e | ⟨l, b, e⟩⟩ := p.upstreamSlot_sends u rings bank
  · rw [e]; exact s.bounded h
  · rw [e]
    exact ((q.moves_resumeLane u rings bank l b).trans (Part.works_closeTake _).moves).bounded (s.bounded h)

theorem Part.play_upstreamSlot (u : Setup) (rings : Rings) (bank : LoadedBank) (p : Part) (k : Part.playLegal p) :
    Part.playLegal (p.upstreamSlot u rings bank) := by
  obtain ⟨q, s, e⟩ := p.upstreamSlot_sends u rings bank
  have kq : Part.playLegal q :=
    Part.playLegal_congr (congrArg TakeControl.device s.take) (by rw [s.trc]) (by rw [s.trc]) (by rw [s.hcr]) k
  rcases e with e | ⟨l, b, e⟩
  · rw [e]; exact kq
  · rw [e]
    refine (Part.works_closeTake _).play ?_
    unfold Part.resumeLane Part.laneStep
    split
    · exact Part.play_takeStop u _ (((Part.works_stepLane u rings bank l q).trans (Part.works_finishIfDone u l _)).play kq)
    · exact kq

end Sys2Proof.Machine
end

