-- ==== Sys2Proof/Laws/Arrive.lean ====
section
/-! SUPPORT. What a frame on the arrival side can do, said once: what one lane's tracker touches, what its aligner half touches, and where a frame in sequence is written. -/

namespace Sys2Proof.Machine

open Sys2Proof.Safety

/-! ## Notices of another kind -/

/-- Posting leaves the queued notices of every other kind. -/
theorem postNotice_other (c : NoticeContent) (q : List Notice) (n : Notice) (h : n.content.kind ≠ c.kind) :
    n ∈ postNotice c q ↔ n ∈ q := by
  induction q with
  | nil =>
    simp only [postNotice, List.mem_singleton, List.not_mem_nil, iff_false]
    rintro rfl
    exact h rfl
  | cons m rest ih =>
    simp only [postNotice]
    split
    · rename_i hk
      have ne1 : n ≠ m := by rintro rfl; exact h hk
      have ne2 : n ≠ ⟨m.content.replaceBy c, min 255 (m.count + 1)⟩ := by
        rintro rfl
        exact h ((NoticeContent.kind_replaceBy _ _ hk).trans hk)
      simp [ne1, ne2]
    · simp only [List.mem_cons, ih]

/-- A posted notice stands in the queue. -/
theorem postNotice_mem (c : NoticeContent) (q : List Notice) (h : c.kind ≠ .conditionRaised) : ∃ n ∈ postNotice c q, n.content = c := by
  induction q with
  | nil => exact ⟨⟨c, 1⟩, by simp [postNotice], rfl⟩
  | cons m rest ih =>
    simp only [postNotice]
    split
    · rename_i hk
      refine ⟨_, List.mem_cons_self .., ?_⟩
      cases hm : m.content <;> cases c <;> first | rfl | (rw [hm] at hk; simp [NoticeContent.kind] at hk h)
    · obtain ⟨n, hn, e⟩ := ih
      exact ⟨n, List.mem_cons_of_mem _ hn, e⟩

/-- The queued notices of one kind, in order. -/
def queued (k : NoticeKind) (q : List Notice) : List Notice := q.filter fun n => decide (n.content.kind = k)

@[simp] theorem mem_queued (k : NoticeKind) (q : List Notice) (n : Notice) : n ∈ queued k q ↔ n ∈ q ∧ n.content.kind = k := by
  simp [queued]

/-- Queues with the same notices of a kind hold the same ones. -/
theorem mem_of_queued {k : NoticeKind} {q r : List Notice} (h : queued k q = queued k r) (n : Notice) (hn : n.content.kind = k) :
    n ∈ q ↔ n ∈ r := by
  have a := mem_queued k q n
  have b := mem_queued k r n
  rw [h] at a
  simp only [hn, and_true] at a b
  exact a.symm.trans b

/-- Posting another kind leaves a kind's notices. -/
theorem queued_post_other (k : NoticeKind) (c : NoticeContent) (q : List Notice) (h : k ≠ c.kind) :
    queued k (postNotice c q) = queued k q := by
  induction q with
  | nil => simp [postNotice, queued, h.symm]
  | cons m rest ih =>
    simp only [postNotice]
    split
    · rename_i hk
      have e := NoticeContent.kind_replaceBy _ _ hk
      simp [queued, e, hk, h.symm]
    · by_cases e : m.content.kind = k
      · simpa [queued, e] using ih
      · simpa [queued, e] using ih

/-- Posting a kind is posting among the notices of that kind. -/
theorem queued_post_same (c : NoticeContent) (q : List Notice) : queued c.kind (postNotice c q) = postNotice c (queued c.kind q) := by
  induction q with
  | nil => simp [postNotice, queued]
  | cons m rest ih =>
    simp only [postNotice]
    split
    · rename_i hk
      have e := NoticeContent.kind_replaceBy _ _ hk
      simp [queued, e, hk, postNotice]
    · rename_i hk
      simpa [queued, hk] using ih

/-! ## One lane's tracker -/

@[simp] theorem Detector.startBlanking_settings (d : Detector) (v : Nat) : (d.startBlanking v).settings = d.settings := by
  unfold Detector.startBlanking; split <;> rfl

/-- Blanking that has just started starts the same. -/
theorem Detector.startBlanking_twice (d : Detector) (v : Nat) : (d.startBlanking v).startBlanking v = d.startBlanking v := by
  by_cases h : 0 < v ∧ d.state = .onset
  · have e : d.startBlanking v = { d with blank := v, state := .clear, run := 0, pendingStart := none } := if_pos h
    rw [e]
    exact if_neg (by simp)
  · have e : d.startBlanking v = { d with blank := v } := if_neg h
    rw [e]
    exact if_neg h

/-- The kind of LOCK_CHANGED of a lane (04, R76). -/
def lockKind : Lane → NoticeKind
  | .a => .lockChangedA
  | .b => .lockChangedB

@[simp] theorem NoticeContent.lockChanged_kind (l : Lane) (old new : LockState) (index : Option Nat) (step : Nat) :
    (NoticeContent.lockChanged l old new index step).kind = lockKind l := by cases l <;> rfl

@[simp] theorem lockKind_ne_condition (l : Lane) : lockKind l ≠ .conditionRaised := by cases l <;> simp [lockKind]

@[simp] theorem lockKind_ne_entered (l : Lane) : lockKind l ≠ .segmentEntered := by cases l <;> simp [lockKind]

@[simp] theorem lockKind_inj (l m : Lane) : lockKind l = lockKind m ↔ l = m := by cases l <;> cases m <;> simp [lockKind]

/-- q is what the tracker of lane l, at work, can make of p: its own record but not what it works with, STEP entries in its lane's
timeline, its own tracks' detectors, its two condition records, notices, and no stop request under policies that make none. -/
structure Part.Tracks (u : Setup) (l : Lane) (p q : Part) : Prop where
  hcr : q.hcr = p.hcr
  pos : q.pos = p.pos
  trc : q.trc = p.trc
  sgt : q.sgt = p.sgt
  aza : q.aza = p.aza
  con : q.con = p.con
  log : q.log = p.log
  take : q.take = p.take
  osc : q.osc = p.osc
  timebase : q.timebase = p.timebase
  assembler : q.msp.assembler = p.msp.assembler
  replies : q.msp.replies = p.msp.replies
  other : q.rft.get l.other = p.rft.get l.other
  lane : q.lanes.get l.other = p.lanes.get l.other
  det : ∀ tr : Track, tr.lane ≠ l → q.det.get tr = p.det.get tr
  blanked : ∀ tr : Track, tr.lane = l → q.det.get tr = p.det.get tr
    ∨ q.det.get tr = (p.det.get tr).startBlanking (p.det.get tr).settings.blanking
  cmn : ∀ id : CondId, id ≠ .lockLost l → id ≠ .range l → q.cmn.get id = p.cmn.get id
  settings : (q.rft.get l).settings = (p.rft.get l).settings
  mode : (q.rft.get l).mode = (p.rft.get l).mode
  coeffs : (q.rft.get l).coeffs = (p.rft.get l).coeffs
  steps : ∃ es : List TimelineEntry, (∀ e ∈ es, ∃ stamp v, e = ⟨stamp, .step v⟩)
    ∧ q.lanes.get l = es.foldl (Producer.post u.rates) (p.lanes.get l)
  stop : framesNeverStop u → q.stopPending = p.stopPending
  queue : ∀ k : NoticeKind, k ≠ .conditionRaised → k ≠ lockKind l → queued k q.msp.notices = queued k p.msp.notices

/-- A tracker at work leaves the queued notices of every other kind. -/
theorem Part.Tracks.notices {u : Setup} {l : Lane} {p q : Part} (h : p.Tracks u l q) (n : Notice) (hc : n.content.kind ≠ .conditionRaised)
    (hl : n.content.kind ≠ lockKind l) : n ∈ q.msp.notices ↔ n ∈ p.msp.notices := mem_of_queued (h.queue _ hc hl) n rfl

theorem Part.Tracks.refl (u : Setup) (l : Lane) (p : Part) : p.Tracks u l p :=
  ⟨rfl, rfl, rfl, rfl, rfl, rfl, rfl, rfl, rfl, rfl, rfl, rfl, rfl, rfl, fun _ _ => rfl, fun _ _ => .inl rfl,
   fun _ _ _ => rfl, rfl, rfl, rfl, ⟨[], by simp, rfl⟩, fun _ => rfl, fun _ _ _ => rfl⟩

theorem Part.Tracks.trans {u : Setup} {l : Lane} {p q r : Part} (h : p.Tracks u l q) (k : q.Tracks u l r) : p.Tracks u l r := by
  obtain ⟨es, hes, he⟩ := h.steps
  obtain ⟨ks, hks, hk⟩ := k.steps
  exact ⟨k.hcr.trans h.hcr, k.pos.trans h.pos, k.trc.trans h.trc, k.sgt.trans h.sgt, k.aza.trans h.aza, k.con.trans h.con,
    k.log.trans h.log, k.take.trans h.take, k.osc.trans h.osc, k.timebase.trans h.timebase, k.assembler.trans h.assembler,
    k.replies.trans h.replies, k.other.trans h.other, k.lane.trans h.lane, fun tr ht => (k.det tr ht).trans (h.det tr ht),
    fun tr ht => by
      rcases h.blanked tr ht with a | a <;> rcases k.blanked tr ht with b | b <;> rw [b, a]
      · exact .inl rfl
      · exact .inr rfl
      · exact .inr rfl
      · exact .inr (by rw [Detector.startBlanking_settings, Detector.startBlanking_twice]),
    fun id a b => (k.cmn id a b).trans (h.cmn id a b), k.settings.trans h.settings, k.mode.trans h.mode,
    k.coeffs.trans h.coeffs,
    ⟨es ++ ks, fun e m => (List.mem_append.mp m).elim (hes e) (hks e), by rw [hk, he, List.foldl_append]⟩,
    fun f => (k.stop f).trans (h.stop f), fun n hc hl => (k.queue n hc hl).trans (h.queue n hc hl)⟩

/-- A tracker at work leaves the queued notices of segments. -/
theorem Part.Tracks.entered {u : Setup} {l : Lane} {p q : Part} (h : p.Tracks u l q) (n : Notice) (hn : n.content.kind = .segmentEntered) :
    n ∈ q.msp.notices ↔ n ∈ p.msp.notices := h.notices n (by simp [hn]) (by rw [hn]; exact (lockKind_ne_entered l).symm)

theorem Part.Tracks.ite {u : Setup} {l : Lane} {p q r : Part} {c : Prop} [Decidable c] (h : p.Tracks u l q) (k : p.Tracks u l r) :
    p.Tracks u l (if c then q else r) := by
  split <;> assumption

@[simp] theorem Lane.other_ne (l : Lane) : l.other ≠ l := by cases l <;> simp [Lane.other]

theorem Lane.eq_other {l m : Lane} (h : m ≠ l) : m = l.other := by cases l <;> cases m <;> first | rfl | exact absurd rfl h

@[simp] theorem Lane.first_lane (l : Lane) : l.first.lane = l := by cases l <;> rfl
@[simp] theorem Lane.second_lane (l : Lane) : l.second.lane = l := by cases l <;> rfl

theorem Lane.track_cases {l : Lane} {tr : Track} (h : tr.lane = l) : tr = l.first ∨ tr = l.second := by
  subst h; cases tr <;> simp [Track.lane, Lane.first, Lane.second]

@[simp] theorem Lane.first_ne_second (l : Lane) : l.first ≠ l.second := by cases l <;> simp [Lane.first, Lane.second]

theorem Part.tracks_setTracker (u : Setup) (l : Lane) (p : Part) (t : Tracker) (hs : t.settings = (p.rft.get l).settings)
    (hm : t.mode = (p.rft.get l).mode) (hc : t.coeffs = (p.rft.get l).coeffs) : p.Tracks u l (p.setTracker l t) :=
  ⟨rfl, rfl, rfl, rfl, rfl, rfl, rfl, rfl, rfl, rfl, rfl, rfl, PerLane.get_set_other _ _ (Lane.other_ne l), rfl, fun _ _ => rfl,
   fun _ _ => .inl rfl, fun _ _ _ => rfl, by simpa using hs, by simpa using hm, by simpa using hc, ⟨[], by simp, rfl⟩, fun _ => rfl,
   fun _ _ _ => rfl⟩

theorem Part.tracks_post (u : Setup) (l : Lane) (p : Part) (c : NoticeContent) (h : c.kind = .conditionRaised ∨ c.kind = lockKind l) :
    p.Tracks u l (p.post c) :=
  ⟨rfl, rfl, rfl, rfl, rfl, rfl, rfl, rfl, rfl, rfl, rfl, rfl, rfl, rfl, fun _ _ => rfl, fun _ _ => .inl rfl,
   fun _ _ _ => rfl, rfl, rfl, rfl, ⟨[], by simp, rfl⟩, fun _ => rfl,
   fun k hc hl => queued_post_other _ _ _ (by rcases h with h | h <;> rw [h] <;> assumption)⟩

theorem Part.tracks_setStatus (u : Setup) (l : Lane) (p : Part) (id : CondId) (c : CondStatus) (h : id = .lockLost l ∨ id = .range l) :
    p.Tracks u l (p.setStatus id c) :=
  ⟨rfl, rfl, rfl, rfl, rfl, rfl, rfl, rfl, rfl, rfl, rfl, rfl, rfl, rfl, fun _ _ => rfl,
   fun _ _ => .inl rfl, fun jd a b => PerCond.get_set_other _ _ (by rcases h with h | h <;> rw [h] <;> assumption), rfl, rfl, rfl,
   ⟨[], by simp, rfl⟩, fun _ => rfl, fun _ _ _ => rfl⟩

/-- A condition of the trackers stops nothing under policies that stop no frame. -/
theorem neverStops_tracker {u : Setup} (h : framesNeverStop u) {l : Lane} {id : CondId} (k : id = .lockLost l ∨ id = .range l) :
    neverStops (u.policies.get id) := by
  rcases k with k | k <;> subst k
  · exact h.2 l
  · have a := h.1
    simp only [policiesAllowed, condIds, List.all_cons, Bool.and_eq_true] at a
    cases l
    · obtain ⟨-, -, -, -, -, -, -, -, -, a, -⟩ := a
      simp only [CondId.allowed, List.contains_eq_mem, decide_eq_true_eq] at a
      constructor
      · intro e; rw [e] at a; simp at a
      · rintro ⟨e, -⟩; rw [e] at a; simp at a
    · obtain ⟨-, -, -, -, -, -, -, -, -, -, a, -⟩ := a
      simp only [CondId.allowed, List.contains_eq_mem, decide_eq_true_eq] at a
      constructor
      · intro e; rw [e] at a; simp at a
      · rintro ⟨e, -⟩; rw [e] at a; simp at a

theorem Part.tracks_setFlag (u : Setup) (l : Lane) (p : Part) (id : CondId) (h : id = .lockLost l ∨ id = .range l) :
    p.Tracks u l (p.setFlag id) := by
  unfold Part.setFlag
  exact .ite (.refl u l p) ((p.tracks_setStatus u l id _ h).trans (Part.tracks_post u l _ _ (by simp [NoticeContent.kind])))

theorem Part.tracks_raise (u : Setup) (l : Lane) (p : Part) (id : CondId) (h : id = .lockLost l ∨ id = .range l) :
    p.Tracks u l (p.raise u id) := by
  have f := p.tracks_setFlag u l id h
  have s (k : ¬neverStops (u.policies.get id)) : p.Tracks u l { p.setFlag id with stopPending := true } :=
    { f with stop := fun x => absurd (neverStops_tracker x h) k }
  unfold Part.raise
  dsimp only
  split
  · rename_i e; exact s fun k => k.1 e
  · rename_i e
    split
    · exact f
    · rename_i e'; exact s fun k => k.2 ⟨e, e'⟩
  · exact f
  · exact f
  · exact .refl u l p

theorem Part.tracks_report (u : Setup) (l : Lane) (b : Bool) (p : Part) (id : CondId) (h : id = .lockLost l ∨ id = .range l) :
    p.Tracks u l (p.report u id b) := by
  unfold Part.report Part.reportPresent Part.reportAbsent
  exact .ite (.ite (.refl u l p) ((p.tracks_setStatus u l id _ h).trans (Part.tracks_raise u l _ id h)))
    (.ite (p.tracks_setStatus u l id _ h) (.refl u l p))

theorem Part.tracks_reportAbsent (u : Setup) (l : Lane) (p : Part) (id : CondId) (h : id = .lockLost l ∨ id = .range l) :
    p.Tracks u l (p.reportAbsent u id) := p.tracks_report u l false id h

theorem Part.tracks_postStep (u : Setup) (l : Lane) (stamp : Nat) (p : Part) : p.Tracks u l (p.postStep u l stamp) :=
  ⟨rfl, rfl, rfl, rfl, rfl, rfl, rfl, rfl, rfl, rfl, rfl, rfl, rfl, PerLane.get_set_other _ _ (Lane.other_ne l), fun _ _ => rfl,
   fun _ _ => .inl rfl, fun _ _ _ => rfl, rfl, rfl, rfl, ⟨[⟨stamp, .step (p.rft.get l).step⟩], by simp, by simp [Part.postStep, Part.postEntry]⟩,
   fun _ => rfl, fun _ _ _ => rfl⟩

theorem Part.tracks_changeLock (u : Setup) (l : Lane) (new : LockState) (index : Option Nat) (p : Part) :
    p.Tracks u l (p.changeLock u l new index) := by
  unfold Part.changeLock
  refine .ite (.refl u l p) (((p.tracks_setTracker u l { p.rft.get l with lock := new } rfl rfl rfl).trans
    (Part.tracks_post u l _ _ ?_)).trans (Part.tracks_report u l _ _ _ (.inl rfl)))
  exact .inr (by simp)

/-- Blanking started for a lane stands in both its tracks. -/
theorem Part.startBlanking_det (l : Lane) (p : Part) (tr : Track) : (p.startBlanking l).det.get tr
    = if tr.lane = l then (p.det.get tr).startBlanking (p.det.get tr).settings.blanking else p.det.get tr := by
  unfold Part.startBlanking
  dsimp only
  split
  · rename_i h
    rcases Lane.track_cases h with rfl | rfl
    · rw [Part.setDetector_det, PerTrack.get_set_other _ _ (Lane.first_ne_second l)]; simp
    · simp [PerTrack.get_set_other _ _ (Lane.first_ne_second l).symm]
  · rename_i h
    have h1 : tr ≠ l.first := by rintro rfl; simp at h
    have h2 : tr ≠ l.second := by rintro rfl; simp at h
    simp [PerTrack.get_set_other _ _ h1, PerTrack.get_set_other _ _ h2]

theorem Part.tracks_startBlanking (u : Setup) (l : Lane) (p : Part) : p.Tracks u l (p.startBlanking l) :=
  ⟨rfl, rfl, rfl, rfl, rfl, rfl, rfl, rfl, rfl, rfl, rfl, rfl, rfl, rfl,
   fun tr h => by rw [Part.startBlanking_det, if_neg h], fun tr h => by rw [Part.startBlanking_det, if_pos h]; exact .inr rfl,
   fun _ _ _ => rfl, rfl, rfl, rfl, ⟨[], by simp, rfl⟩, fun _ => rfl, fun _ _ _ => rfl⟩

theorem Part.tracks_enterLocked (u : Setup) (l : Lane) (index : Nat) (p : Part) : p.Tracks u l (p.enterLocked u l index) :=
  ((p.tracks_setTracker u l _ (by rfl) (by rfl) (by rfl)).trans (Part.tracks_changeLock u l _ _ _)).trans (Part.tracks_startBlanking u l _)

theorem Part.tracks_lockWhole (u : Setup) (l : Lane) (m : Measurement) (a b : Nat) (p : Part) : p.Tracks u l (p.lockWhole u l m a b) :=
  (((p.tracks_setTracker u l _ (by rfl) (by rfl) (by rfl)).trans (Part.tracks_postStep u l _ _)).trans
    (Part.tracks_reportAbsent u l _ _ (.inr rfl))).trans (Part.tracks_enterLocked u l _ _)

theorem Part.tracks_smooth (u : Setup) (l : Lane) (m : Measurement) (a b : Nat) (p : Part) : p.Tracks u l (p.smooth u l m a b) :=
  ((p.tracks_setTracker u l _ (by rfl) (by rfl) (by rfl)).trans (Part.tracks_postStep u l _ _)).trans (Part.tracks_report u l _ _ _ (.inr rfl))

theorem Part.tracks_moveRamp (u : Setup) (l : Lane) (n : Nat) (p : Part) : p.Tracks u l (p.moveRamp u l n) :=
  (p.tracks_setTracker u l _ (by rfl) (by rfl) (by rfl)).trans (Part.tracks_postStep u l _ _)

theorem Part.tracks_enterFallback (u : Setup) (l : Lane) (n : Nat) (p : Part) : p.Tracks u l (p.enterFallback u l n) :=
  ((p.tracks_setTracker u l _ (by rfl) (by rfl) (by rfl)).trans (Part.tracks_moveRamp u l _ _)).trans (Part.tracks_changeLock u l _ _ _)

theorem Part.tracks_inWindow (u : Setup) (l : Lane) (m : Measurement) (a b : Nat) (p : Part) : p.Tracks u l (p.inWindow u l m a b) := by
  unfold Part.inWindow
  dsimp only
  have t (x : Tracker) (q : Part) (h : x.settings = (p.rft.get l).settings ∧ x.mode = (p.rft.get l).mode
      ∧ x.coeffs = (p.rft.get l).coeffs) (k : (p.setTracker l x).Tracks u l q) : p.Tracks u l q :=
    (p.tracks_setTracker u l x h.1 h.2.1 h.2.2).trans k
  split
  · exact t _ _ (by exact ⟨rfl, rfl, rfl⟩) (.refl u l _)
  · split
    · exact t _ _ (by exact ⟨rfl, rfl, rfl⟩) (Part.tracks_lockWhole u l m a b _)
    · exact t _ _ (by exact ⟨rfl, rfl, rfl⟩) (.refl u l _)
  · exact t _ _ (by exact ⟨rfl, rfl, rfl⟩) (Part.tracks_smooth u l m a b _)
  · split
    · exact t _ _ (by exact ⟨rfl, rfl, rfl⟩) ((Part.tracks_smooth u l m a b _).trans (Part.tracks_enterLocked u l _ _))
    · exact t _ _ (by exact ⟨rfl, rfl, rfl⟩) (.refl u l _)
  · split
    · exact t _ _ (by exact ⟨rfl, rfl, rfl⟩) (Part.tracks_lockWhole u l m a b _)
    · exact t _ _ (by exact ⟨rfl, rfl, rfl⟩) (.refl u l _)

theorem Part.tracks_missed (u : Setup) (l : Lane) (n : Nat) (p : Part) : p.Tracks u l (p.missed u l n) := by
  unfold Part.missed
  have t := p.tracks_setTracker u l
    { p.rft.get l with acquire := 0, missCount := min 15 ((p.rft.get l).missCount + 1) } rfl rfl rfl
  exact .ite (.ite (t.trans (Part.tracks_enterFallback u l _ _))
    ((t.trans (Part.tracks_setTracker u l _ _ (by simp) (by simp) (by simp))).trans (Part.tracks_changeLock u l _ _ _))) t

theorem Part.tracks_measurementComplete (u : Setup) (l : Lane) (p : Part) : p.Tracks u l (p.measurementComplete u l) := by
  unfold Part.measurementComplete
  dsimp only
  split
  · exact .refl u l p
  · refine .ite ?_ (.refl u l p)
    split
    · exact p.tracks_setTracker u l _ (by rfl) (by rfl) (by rfl)
    · exact .ite ((p.tracks_setTracker u l _ (by rfl) (by rfl) (by rfl)).trans (Part.tracks_inWindow u l _ _ _ _))
        ((p.tracks_setTracker u l _ (by rfl) (by rfl) (by rfl)).trans (Part.tracks_missed u l _ _))
    · exact .refl u l p

theorem Part.tracks_crossing (u : Setup) (l : Lane) (stamp index : Nat) (p : Part) : p.Tracks u l (p.crossing u l stamp index) := by
  unfold Part.crossing
  dsimp only
  split
  · exact p.tracks_setTracker u l _ (by rfl) (by rfl) (by rfl)
  · exact (p.tracks_setTracker u l _ (by rfl) (by rfl) (by rfl)).trans (Part.tracks_measurementComplete u l _)

theorem Part.tracks_missIfDue (u : Setup) (l : Lane) (p : Part) : p.Tracks u l (p.missIfDue u l) := by
  unfold Part.missIfDue
  dsimp only
  refine .ite ?_ (.refl u l p)
  split
  · exact p.tracks_setTracker u l _ (by rfl) (by rfl) (by rfl)
  · exact (p.tracks_setTracker u l _ (by rfl) (by rfl) (by rfl)).trans (Part.tracks_missed u l _ _)
  · exact .refl u l p

theorem Part.tracks_holdIfDue (u : Setup) (l : Lane) (p : Part) : p.Tracks u l (p.holdIfDue u l) := by
  unfold Part.holdIfDue
  dsimp only
  split
  · exact .ite (p.tracks_enterFallback u l _) (.refl u l p)
  · exact .refl u l p

theorem Part.tracks_rampIfDue (u : Setup) (l : Lane) (p : Part) : p.Tracks u l (p.rampIfDue u l) := by
  unfold Part.rampIfDue
  dsimp only
  split
  · exact .ite ((p.tracks_setTracker u l _ (by rfl) (by rfl) (by rfl)).trans (Part.tracks_moveRamp u l _ _)) (.refl u l p)
  · exact .refl u l p

theorem Part.tracks_detect (u : Setup) (l : Lane) (n : Nat) (sum : Int) (p : Part) : p.Tracks u l (p.detect u l n sum) := by
  unfold Part.detect
  dsimp only
  exact .ite ((p.tracks_setTracker u l _ (by rfl) (by rfl) (by rfl)).trans (Part.tracks_crossing u l _ _ _)) (p.tracks_setTracker u l _ (by rfl) (by rfl) (by rfl))

/-- What a lane's tracker can do with a frame. -/
theorem Part.tracks_trackerFrame (u : Setup) (n : Nat) (f : PerTrack Int) (l : Lane) (p : Part) :
    p.Tracks u l (p.trackerFrame u n f l) := by
  unfold Part.trackerFrame
  dsimp only
  exact ((Part.Tracks.ite (p.tracks_detect u l _ _) (.refl u l p)).trans (Part.tracks_missIfDue u l _)).trans
    ((Part.tracks_holdIfDue u l _).trans (Part.tracks_rampIfDue u l _))

/-! ## One lane's aligner half, and a completed block -/

/-- What a lane's aligner half can do with a frame: its own record and its lane. -/
theorem Part.azimuthFrame_spec (u : Setup) (rings : Rings) (n : Nat) (l : Lane) (p : Part) : ∃ x y,
    p.azimuthFrame u rings n l = { p with aza := p.aza.set l x, lanes := p.lanes.set l y } := by
  have same (q : Part) (x : Aligner) : ∃ x' y', q.setAligner l x = { q with aza := q.aza.set l x', lanes := q.lanes.set l y' } :=
    ⟨x, q.lanes.get l, by simp [Part.setAligner]⟩
  have id_ (q : Part) : ∃ x' y', q = { q with aza := q.aza.set l x', lanes := q.lanes.set l y' } :=
    ⟨q.aza.get l, q.lanes.get l, by simp⟩
  have complete (q : Part) : ∃ x y, q.azimuthComplete u l = { q with aza := q.aza.set l x, lanes := q.lanes.set l y } := by
    unfold Part.azimuthComplete
    dsimp only
    split
    · exact id_ q
    · split
      · split
        · exact same q _
        · exact ⟨_, _, rfl⟩
      · exact id_ q
  unfold Part.azimuthFrame
  dsimp only
  split
  · obtain ⟨x, y, e⟩ := complete (p.setAligner l { p.aza.get l with
      window := (p.aza.get l).window.map (AzimuthWindow.gather rings l n) })
    exact ⟨x, y, by rw [e]; simp [Part.setAligner]⟩
  · exact id_ p

/-- A completed block touches the detectors and the span lists alone. -/
theorem Part.blockComplete_spec (rings : Rings) (b : Nat) (p : Part) : ∃ d c,
    p.blockComplete rings b = { p with det := d, con := c } := by
  have track (t : Track) (q : Part) : ∃ d c, q.trackBlock rings b t = { q with det := d, con := c } := by
    unfold Part.trackBlock
    dsimp only
    split
    · split
      · exact ⟨_, q.con, rfl⟩
      · exact ⟨_, _, rfl⟩
    · exact ⟨q.det, q.con, rfl⟩
  unfold Part.blockComplete
  simp only [List.foldl_cons, List.foldl_nil]
  obtain ⟨d1, c1, e1⟩ := track .t1 p
  rw [e1]
  obtain ⟨d2, c2, e2⟩ := track .t2 { p with det := d1, con := c1 }
  rw [e2]
  obtain ⟨d3, c3, e3⟩ := track .t3 { p with det := d2, con := c2 }
  rw [e3]
  obtain ⟨d4, c4, e4⟩ := track .t4 { p with det := d3, con := c3 }
  rw [e4]
  exact ⟨d4, c4, rfl⟩

/-! ## A block's first frame -/

/-- What a lane transition makes of the tracker: work begun from the record with the new settings (04, R78, R79). -/
theorem Part.tracks_trackerTransition (u : Setup) (l : Lane) (new : Settings) (index : Nat) (p : Part) :
    (p.setTracker l { p.rft.get l with settings := new, coeffs := filterFor u.rates new }).Tracks u l
      (p.trackerTransition u l new index) := by
  have again (x : Tracker) (hx : x.settings = new ∧ x.mode = (p.rft.get l).mode ∧ x.coeffs = filterFor u.rates new) (q : Part)
      (k : (p.setTracker l x).Tracks u l q) :
      (p.setTracker l { p.rft.get l with settings := new, coeffs := filterFor u.rates new }).Tracks u l q := by
    have e : p.setTracker l x
        = (p.setTracker l { p.rft.get l with settings := new, coeffs := filterFor u.rates new }).setTracker l x := by
      simp [Part.setTracker]
    rw [e] at k
    exact (Part.tracks_setTracker u l _ x (by simpa using hx.1) (by simpa using hx.2.1) (by simpa using hx.2.2)).trans k
  unfold Part.trackerTransition
  dsimp only
  split
  · exact .refl u l _
  · have measured (x : Tracker) (hx : x.settings = new ∧ x.mode = (p.rft.get l).mode ∧ x.coeffs = filterFor u.rates new) :
        (p.setTracker l { p.rft.get l with settings := new, coeffs := filterFor u.rates new }).Tracks u l
          (((p.setTracker l x).changeLock u l .search (some index)).reportAbsent u (.range l)) :=
      again x hx _ ((Part.tracks_changeLock u l _ _ _).trans (Part.tracks_reportAbsent u l _ _ (.inr rfl)))
    split
    · exact measured _ (by exact ⟨rfl, rfl, rfl⟩)
    · exact measured _ (by exact ⟨rfl, rfl, rfl⟩)
    · exact measured _ (by exact ⟨rfl, rfl, rfl⟩)
    · exact measured _ (by exact ⟨rfl, rfl, rfl⟩)
    · exact again _ (by exact ⟨rfl, rfl, rfl⟩) _ (((Part.tracks_postStep u l _ _).trans (Part.tracks_changeLock u l _ _ _)).trans
        (Part.tracks_reportAbsent u l _ _ (.inr rfl)))
    · exact again _ (by exact ⟨rfl, rfl, rfl⟩) _ ((Part.tracks_changeLock u l _ _ _).trans (Part.tracks_reportAbsent u l _ _ (.inr rfl)))

/-- A lane transition makes no stop request under policies that stop no frame. -/
theorem Part.stop_laneTransition {u : Setup} (h : framesNeverStop u) (index : Nat) (l : Lane) (p : Part) :
    (p.laneTransition u index l).stopPending = p.stopPending := by
  have aligner (q : Part) (new : Settings) : (q.alignerTransition l new index).stopPending = q.stopPending := rfl
  have track (q : Part) (new : DropoutSettings) (b : Nat) (t : Track) : (q.trackTransition new b t).stopPending = q.stopPending := by
    unfold Part.trackTransition; rfl
  unfold Part.laneTransition
  dsimp only
  rw [track, track, aligner, (Part.tracks_trackerTransition u l _ index _).stop h]
  rfl

theorem Part.stop_blockBegin {u : Setup} (h : framesNeverStop u) (index stamp : Nat) (p : Part) :
    (p.blockBegin u index stamp).stopPending = p.stopPending := by
  have word (q : Part) : q.transitionWord.stopPending = q.stopPending := by unfold Part.transitionWord; split <;> rfl
  unfold Part.blockBegin
  dsimp only
  split
  · split
    · rw [word, Part.post_stopPending]
      split <;> split <;> (try rw [Part.stop_laneTransition h]) <;> (try rw [Part.stop_laneTransition h]) <;> rfl
    · rfl
  · rfl

/-- The arrival side makes no stop request under policies that stop no frame. -/
theorem Part.stop_arrived {u : Setup} (h : framesNeverStop u) (rings : Rings) (n : Nat) (f : PerTrack Int) (p : Part) :
    (p.arrived u rings n f).stopPending = p.stopPending := by
  have two (q : Part) : ((q.azimuthFrame u rings n .a).azimuthFrame u rings n .b).stopPending = q.stopPending := by
    obtain ⟨x, y, e⟩ := q.azimuthFrame_spec u rings n .a
    obtain ⟨x', y', e'⟩ := (q.azimuthFrame u rings n .a).azimuthFrame_spec u rings n .b
    rw [e', e]
  have t := ((p.tracks_trackerFrame u n f .a).stop h)
  have t' := ((p.trackerFrame u n f .a).tracks_trackerFrame u n f .b).stop h
  unfold Part.arrived
  dsimp only
  split
  · obtain ⟨d, c, e⟩ := Part.blockComplete_spec rings (n / Config.blockSize)
      ((((p.trackerFrame u n f .a).trackerFrame u n f .b).azimuthFrame u rings n .a).azimuthFrame u rings n .b)
    rw [e]
    exact ((two _).trans t').trans t
  · exact ((two _).trans t').trans t

/-! ## The frame written -/

/-- The rings after a frame is written at the next raw index. -/
def State.ringsAfter (s : State) (f : PerTrack Int) : Rings :=
  (if s.part.hcr.nextIndex % Config.blockSize = 0 then
    s.rings.setStamp (s.part.hcr.nextIndex / Config.blockSize) s.part.pos.position else s.rings).write s.part.hcr.nextIndex f

/-- What the arrival side reads a frame from: the block judged if the frame begins one, and the frame counted. -/
def Part.counted (u : Setup) (p : Part) : Part :=
  let q := if p.hcr.nextIndex % Config.blockSize = 0 then p.blockBegin u p.hcr.nextIndex p.pos.position else p
  { q with hcr := { q.hcr with nextIndex := p.hcr.nextIndex + 1 } }

/-- A frame written under policies that stop no frame. -/
theorem State.writeFrame_quiet (f : PerTrack Int) (s : State) (h : framesNeverStop s.setup) (hs : s.part.stopPending = false) :
    s.writeFrame f = { s with rings := s.ringsAfter f,
                              part := (s.part.counted s.setup).arrived s.setup (s.ringsAfter f) s.part.hcr.nextIndex f } := by
  have e : s.writeFrame f = { s with
      rings := s.ringsAfter f,
      part := ((s.part.counted s.setup).arrived s.setup (s.ringsAfter f) s.part.hcr.nextIndex f).takeStop s.setup } := rfl
  rw [e, Part.takeStop_none]
  rw [Part.stop_arrived h]
  unfold Part.counted
  dsimp only
  split
  · rw [Part.stop_blockBegin h, hs]
  · exact hs

/-- The part as the receiver hands a good frame on: the frame taken, RAW_HELD absent. -/
def State.taking (s : State) (seq : Byte) (f : PerTrack Int) : State :=
  s.onPart fun p => { p with hcr := p.hcr.taken seq f }.reportAbsent s.setup .rawHeld

theorem State.taking_spec (s : State) (seq : Byte) (f : PerTrack Int) : ∃ c,
    s.taking seq f = { s with part := { s.part with hcr := s.part.hcr.taken seq f, cmn := c } }
      ∧ c.rawHeld.present = false ∧ ∀ id, id ≠ .rawHeld → c.get id = s.part.cmn.get id := by
  obtain ⟨c, e, hp, -, -, ho⟩ := Part.reportAbsent_spec s.setup .rawHeld { s.part with hcr := s.part.hcr.taken seq f }
  exact ⟨c, congrArg (fun q => ({ s with part := q } : State)) e, hp, ho⟩

theorem ringHasRoom_overruns {p : Part} (h : ringHasRoom p) : p.overruns = false := by
  have k (l : Lane) : (match (p.lanes.get l).oldestNeeded with
      | some m => decide (m + (Config.ringSize : Int) ≤ (p.hcr.nextIndex : Int))
      | none => false) = false := by
    split
    · rename_i m e
      have := h l m e
      rw [decide_eq_false_iff_not]
      unfold Config.ringSize
      omega
    · rfl
  unfold Part.overruns
  simp only [List.any_cons, List.any_nil, Bool.or_false]
  exact Bool.or_eq_false_iff.mpr ⟨k .a, k .b⟩

/-- A frame that a slot brings in sequence is taken and written. -/
theorem frameSlot_brings {bytes : List Byte} {f : PerTrack Int} {s : State} (h : bringsFrame bytes f s) :
    frameSlot bytes s = (s.taking s.part.hcr.expected f).writeFrame f := by
  obtain ⟨hl, hr, hs, hc, hroom, -⟩ := h
  have gap : s.part.hcr.gap s.part.hcr.expected = 0 := by simp [HeadReceiver.gap]
  have e : frameSlot bytes s = s.takeFrame s.part.hcr.expected f := by
    unfold frameSlot
    simp only [hl, hr, gap, if_true]
  obtain ⟨c, et, -, -⟩ := s.taking_spec s.part.hcr.expected f
  have q : s.takeFrame s.part.hcr.expected f = (s.taking s.part.hcr.expected f).passOn f := by
    unfold State.takeFrame State.taking State.onPart
    dsimp only
    rw [Part.takeStop_none]
    obtain ⟨c', e', -⟩ := Part.reportAbsent_spec s.setup .rawHeld { s.part with hcr := s.part.hcr.taken s.part.hcr.expected f }
    exact (congrArg Part.stopPending e').trans hs
  rw [e, q]
  unfold State.passOn
  have cap : (s.taking s.part.hcr.expected f).part.hcr.capturing = true := by rw [et]; exact hc
  have room : (s.taking s.part.hcr.expected f).part.overruns = false := by
    rw [et]
    exact ringHasRoom_overruns (p := { s.part with hcr := s.part.hcr.taken s.part.hcr.expected f, cmn := c }) hroom
  rw [cap, room]
  rfl

end Sys2Proof.Machine
end

