-- ==== Sys2Proof/Laws/Table.lean ====
section
/-! SUPPORT. What the table's edits and the argument checks give: an ascending table of entries in their ranges. -/

namespace Sys2Proof.Machine

open Sys2Proof.Safety

theorem within_iff (lo hi v : Nat) : within lo hi v = true ↔ lo ≤ v ∧ v ≤ hi := by simp [within]

theorem clampNat_within {lo hi : Nat} (h : lo ≤ hi) (v : Nat) : within lo hi (clampNat lo hi v) = true := by
  rw [within_iff]
  unfold clampNat
  split
  · omega
  · split <;> omega

theorem clampInt_bounds {lo hi : Int} (h : lo ≤ hi) (v : Int) : lo ≤ clampInt lo hi v ∧ clampInt lo hi v ≤ hi := by
  unfold clampInt
  split
  · omega
  · split <;> omega

/-! ## Insertion (03, R46) -/

theorem insertSegment_length_le (e : Entry) (xs : List Entry) : (insertSegment e xs).length ≤ xs.length + 1 := by
  induction xs with
  | nil => exact Nat.le_refl _
  | cons x rest ih =>
    unfold insertSegment
    split
    · simp only [List.length_cons]; omega
    · split <;> simp

/-- Over a held start the table keeps its length. -/
theorem insertSegment_length_held (e : Entry) (xs : List Entry) (ha : ascending xs = true) (h : holdsStart xs e.start = true) :
    (insertSegment e xs).length = xs.length := by
  induction xs with
  | nil => cases h
  | cons x rest ih =>
    unfold insertSegment
    split
    · rename_i hlt
      have : holdsStart rest e.start = true := by
        simp only [holdsStart, List.any_cons, Bool.or_eq_true, beq_iff_eq] at h ⊢
        rcases h with h | h
        · omega
        · exact h
      have hr : ascending rest = true := by
        cases rest with
        | nil => rfl
        | cons y r =>
          simp only [ascending, Bool.and_eq_true] at ha
          exact ha.2
      simp [ih hr this]
    · split
      · simp
      · rename_i hge hne
        exfalso
        simp only [holdsStart, List.any_cons, Bool.or_eq_true, beq_iff_eq, List.any_eq_true] at h
        rcases h with h | ⟨y, hy, hys⟩
        · omega
        · have mono : ∀ (zs : List Entry) (z : Entry), ascending (z :: zs) = true → ∀ y ∈ zs, z.start < y.start := by
            intro zs
            induction zs with
            | nil => intro z _ y hy; cases hy
            | cons w ws ihw =>
              intro z hz y hy
              simp only [ascending, Bool.and_eq_true, decide_eq_true_eq] at hz
              rcases List.mem_cons.mp hy with rfl | hy
              · exact hz.1
              · exact lt_trans hz.1 (ihw w hz.2 y hy)
          have := mono rest x ha y hy
          omega

theorem ascending_tail {x : Entry} {xs : List Entry} (h : ascending (x :: xs) = true) : ascending xs = true := by
  cases xs with
  | nil => rfl
  | cons y r =>
    simp only [ascending, Bool.and_eq_true] at h
    exact h.2

/-- The head of an ascending table starts below every later entry. -/
theorem ascending_head {x : Entry} {xs : List Entry} (h : ascending (x :: xs) = true) : ∀ y ∈ xs, x.start < y.start := by
  induction xs generalizing x with
  | nil => intro y hy; cases hy
  | cons w ws ih =>
    intro y hy
    have h' := ascending_tail h
    simp only [ascending, Bool.and_eq_true, decide_eq_true_eq] at h
    rcases List.mem_cons.mp hy with rfl | hy
    · exact h.1
    · exact lt_trans h.1 (ih h' y hy)

theorem ascending_cons {x : Entry} {xs : List Entry} (h : ascending xs = true) (hx : ∀ y ∈ xs, x.start < y.start) :
    ascending (x :: xs) = true := by
  cases xs with
  | nil => rfl
  | cons y r =>
    simp only [ascending, Bool.and_eq_true, decide_eq_true_eq]
    exact ⟨hx y List.mem_cons_self, h⟩

/-- The entries of a table after an insertion: the new one, and every old one with another start. -/
theorem insertSegment_mem (e : Entry) (xs : List Entry) (ha : ascending xs = true) (y : Entry) :
    y ∈ insertSegment e xs ↔ y = e ∨ y ∈ xs ∧ y.start ≠ e.start := by
  induction xs with
  | nil => simp [insertSegment]
  | cons x rest ih =>
    have hr := ascending_tail ha
    have hh := ascending_head ha
    unfold insertSegment
    split
    · rename_i hlt
      rw [List.mem_cons, ih hr, List.mem_cons]
      constructor
      · rintro (rfl | rfl | h)
        · exact .inr ⟨.inl rfl, by omega⟩
        · exact .inl rfl
        · exact .inr ⟨.inr h.1, h.2⟩
      · rintro (rfl | ⟨rfl | h, h'⟩)
        · exact .inr (.inl rfl)
        · exact .inl rfl
        · exact .inr (.inr ⟨h, h'⟩)
    · split
      · rename_i _ heq
        rw [List.mem_cons, List.mem_cons]
        constructor
        · rintro (rfl | h)
          · exact .inl rfl
          · have := hh y h
            exact .inr ⟨.inr h, by omega⟩
        · rintro (rfl | ⟨rfl | h, h'⟩)
          · exact .inl rfl
          · exact absurd heq h'
          · exact .inr h
      · rename_i hge hne
        rw [List.mem_cons]
        constructor
        · rintro (rfl | h)
          · exact .inl rfl
          · refine .inr ⟨h, ?_⟩
            rcases List.mem_cons.mp h with rfl | h
            · exact hne
            · have := hh y h
              omega
        · rintro (rfl | ⟨h, -⟩)
          · exact .inl rfl
          · exact .inr h

theorem insertSegment_ascending (e : Entry) (xs : List Entry) (ha : ascending xs = true) : ascending (insertSegment e xs) = true := by
  induction xs with
  | nil => rfl
  | cons x rest ih =>
    have hr := ascending_tail ha
    have hh := ascending_head ha
    unfold insertSegment
    split
    · rename_i hlt
      refine ascending_cons (ih hr) fun y hy => ?_
      rcases (insertSegment_mem e rest hr y).mp hy with rfl | ⟨h, -⟩
      · exact hlt
      · exact hh y h
    · split
      · rename_i _ heq
        exact ascending_cons hr fun y hy => by have := hh y hy; omega
      · rename_i hge hne
        refine ascending_cons ha fun y hy => ?_
        rcases List.mem_cons.mp hy with rfl | hy
        · omega
        · have := hh y hy
          omega

theorem ascending_filter (keep : Entry → Bool) (xs : List Entry) (h : ascending xs = true) : ascending (xs.filter keep) = true := by
  induction xs with
  | nil => rfl
  | cons x rest ih =>
    rw [List.filter_cons]
    split
    · exact ascending_cons (ih (ascending_tail h)) fun y hy => ascending_head h y (List.mem_of_mem_filter hy)
    · exact ih (ascending_tail h)

theorem ascending_map (f : Entry → Entry) (hf : ∀ e, (f e).start = e.start) (xs : List Entry) (h : ascending xs = true) :
    ascending (xs.map f) = true := by
  induction xs with
  | nil => rfl
  | cons x rest ih =>
    refine ascending_cons (ih (ascending_tail h)) fun y hy => ?_
    obtain ⟨z, hz, rfl⟩ := List.mem_map.mp hy
    rw [hf, hf]
    exact ascending_head h z hz

/-! ## Ranges (03, R42 to R45, R60) -/

theorem RatePair.fr_pos (r : RatePair) : 352800 ≤ r.fr := by cases r <;> decide

theorem clampFRef_idem (src : Source) (f : Nat) : clampFRef src (clampFRef src f) = clampFRef src f := by
  cases src <;> simp only [clampFRef, clampNat] <;> repeat' split
  all_goals omega

theorem clampFRef_low (src : Source) (f : Nat) (h : src.isAudio = true) : 16 ≤ clampFRef src f ∧ clampFRef src f ≤ 3200000 := by
  have key (lo hi v : Nat) (h : lo ≤ hi) (h1 : 16 ≤ lo) (h2 : hi ≤ 3200000) : 16 ≤ clampNat lo hi v ∧ clampNat lo hi v ≤ 3200000 := by
    have := (within_iff _ _ _).mp (clampNat_within h v)
    omega
  cases src
  case bias => exact key _ _ f (by omega) (by omega) (by omega)
  case hum => exact key _ _ f (by omega) (by omega) (by omega)
  case pilot => exact key _ _ f (by omega) (by omega) (by omega)
  all_goals exact absurd h Bool.false_ne_true

/-- The least C of an f_ref that can be sampled is at most a quarter of the f_ref, and at most 8. -/
theorem ceilDiv_small {f fr : Nat} (hf : 16 ≤ f) (hr : 352800 ≤ fr) (h : f * 10 < fr * 72) :
    ceilDiv f fr ≤ f / 4 ∧ ceilDiv f fr ≤ 8 := by
  unfold ceilDiv
  have h8 : (f + fr - 1) / fr ≤ 8 := by
    apply Nat.le_of_lt_succ
    rw [Nat.div_lt_iff_lt_mul (by omega)]
    omega
  refine ⟨?_, h8⟩
  by_cases hs : f ≤ fr
  · have : (f + fr - 1) / fr ≤ 1 := by
      apply Nat.le_of_lt_succ
      rw [Nat.div_lt_iff_lt_mul (by omega)]
      omega
    omega
  · omega

/-- A part after the checks lies in its ranges. -/
theorem clampRanges_inRange (r : RatePair) (raw : Settings)
    (h : fRefConflict r.fr raw.source (clampFRef raw.storeUnmeasured.source raw.storeUnmeasured.fRef) = false) :
    partInRange r.fr (raw.storeUnmeasured.clampRanges r.fr) = true := by
  have hr := r.fr_pos
  have ref : referenceInRange r.fr (raw.storeUnmeasured.clampRanges r.fr) = true := by
    unfold referenceInRange
    by_cases ha : raw.source.isAudio = true
    · have hs : raw.storeUnmeasured = raw := by simp [Settings.storeUnmeasured, ha]
      rw [hs] at h ⊢
      have hc : clampFRef raw.source raw.fRef * 10 < r.fr * 72 := by simpa [fRefConflict, ha] using h
      obtain ⟨l1, -⟩ := clampFRef_low raw.source raw.fRef ha
      obtain ⟨l3, l4⟩ := ceilDiv_small l1 hr hc
      have low : 1 ≤ ceilDiv (clampFRef raw.source raw.fRef) r.fr := by
        unfold ceilDiv
        rw [Nat.le_div_iff_mul_le (by omega)]
        omega
      have src : (raw.clampRanges r.fr).source = raw.source := rfl
      have fref : (raw.clampRanges r.fr).fRef = clampFRef raw.source raw.fRef := rfl
      have cc : (raw.clampRanges r.fr).c = clampNat (ceilDiv (clampFRef raw.source raw.fRef) r.fr)
          (clampFRef raw.source raw.fRef / 4) (clampNat 1 4096 raw.c) := by
        simp [Settings.clampRanges, clampCrossings, ha]
      rw [src, fref, cc, if_pos ha, clampFRef_idem, h]
      have b1 := clampNat_within l3 (clampNat 1 4096 raw.c)
      have b2 := clampNat_within (show 1 ≤ 4096 by omega) raw.c
      rw [within_iff] at b1 b2
      have b3 : clampNat (ceilDiv (clampFRef raw.source raw.fRef) r.fr) (clampFRef raw.source raw.fRef / 4)
          (clampNat 1 4096 raw.c) ≤ 4096 := by
        generalize clampNat 1 4096 raw.c = v at b2
        unfold clampNat
        split
        · omega
        · split <;> omega
      simp [b1.1, b1.2, b3]
    · have src : (raw.storeUnmeasured.clampRanges r.fr).source = raw.source := by
        simp [Settings.storeUnmeasured, ha, Settings.clampRanges]
      rw [src, if_neg ha]
      have : raw.source = .tach ∨ raw.source = .nominal ∨ raw.source = .off := by
        cases hsrc : raw.source <;> simp [hsrc, Source.isAudio] at ha ⊢
      rcases this with e | e | e <;>
        simp [Settings.storeUnmeasured, Settings.clampRanges, clampCrossings, Source.isAudio, clampFRef, e]
  have dep : 1 ≤ (raw.storeUnmeasured.clampRanges r.fr).depth ∧ (raw.storeUnmeasured.clampRanges r.fr).depth ≤ 255 :=
    (within_iff _ _ _).mp (clampNat_within (by omega) _)
  unfold partInRange
  rw [ref]
  simp only [Bool.true_and, Bool.and_eq_true, decide_eq_true_eq]
  refine ⟨⟨⟨⟨⟨⟨⟨⟨⟨⟨⟨⟨⟨⟨⟨?_, ?_⟩, ?_⟩, ?_⟩, ?_⟩, ?_⟩, ?_⟩, ?_⟩, ?_⟩, ?_⟩, ?_⟩, ?_⟩, ?_⟩, ?_⟩, ?_⟩, ?_⟩
  all_goals first
    | exact clampNat_within (by omega) _
    | exact clampNat_within dep.2 _
    | exact (clampInt_bounds (by omega) _).1
    | exact (clampInt_bounds (by omega) _).2

/-- Raising C to a new raw rate's lower bound keeps a part in its ranges there. -/
theorem raiseC_inRange (old new : RatePair) (s : Settings) (hs : partInRange old.fr s = true)
    (hc : fRefConflict new.fr s.source s.fRef = false) : partInRange new.fr (s.raiseC new.fr) = true := by
  have hn := new.fr_pos
  have ho := old.fr_pos
  unfold partInRange at hs ⊢
  simp only [Bool.and_eq_true] at hs ⊢
  have ref : referenceInRange new.fr (s.raiseC new.fr) = true := by
    have hr := hs.1.1.1.1.1.1.1.1.1.1.1.1.1.1.1.1
    unfold referenceInRange at hr ⊢
    by_cases ha : s.source.isAudio = true
    · rw [if_pos ha] at hr
      simp only [Bool.and_eq_true, decide_eq_true_eq] at hr
      obtain ⟨⟨⟨⟨h1, -⟩, h3⟩, h4⟩, h5⟩ := hr
      have hlt : s.fRef * 10 < new.fr * 72 := by simpa [fRefConflict, ha] using hc
      have hf := clampFRef_low s.source s.fRef ha
      rw [h1] at hf
      obtain ⟨l3, l4⟩ := ceilDiv_small hf.1 hn hlt
      have src : (s.raiseC new.fr).source = s.source := by unfold Settings.raiseC; split <;> rfl
      have fref : (s.raiseC new.fr).fRef = s.fRef := by unfold Settings.raiseC; split <;> rfl
      rw [src, fref, if_pos ha]
      simp only [Bool.and_eq_true, decide_eq_true_eq, Bool.not_eq_true']
      refine ⟨⟨⟨⟨h1, hc⟩, ?_⟩, ?_⟩, ?_⟩ <;> unfold Settings.raiseC <;> rw [ha] <;> simp only [Bool.true_and, decide_eq_true_eq] <;>
        split <;> first | omega | (simp only; omega)
    · have e : s.raiseC new.fr = s := by
        unfold Settings.raiseC
        rw [if_neg]
        simp [ha]
      rw [e, if_neg ha]
      rw [if_neg ha] at hr
      exact hr
  have fields : ∀ b : Settings → Bool, (∀ c, b { s with c := c } = b s) → b (s.raiseC new.fr) = b s := by
    intro b hb
    unfold Settings.raiseC
    split
    · exact hb _
    · rfl
  refine ⟨⟨⟨⟨⟨⟨⟨⟨⟨⟨⟨⟨⟨⟨⟨⟨ref, ?_⟩, ?_⟩, ?_⟩, ?_⟩, ?_⟩, ?_⟩, ?_⟩, ?_⟩, ?_⟩, ?_⟩, ?_⟩, ?_⟩, ?_⟩, ?_⟩, ?_⟩, ?_⟩
  · exact (fields (fun s => within 5 80 s.w) fun _ => rfl).trans hs.1.1.1.1.1.1.1.1.1.1.1.1.1.1.1.2
  · exact (fields (fun s => within 0 7 s.k) fun _ => rfl).trans hs.1.1.1.1.1.1.1.1.1.1.1.1.1.1.2
  · exact (fields (fun s => within 1 16777215 s.slew) fun _ => rfl).trans hs.1.1.1.1.1.1.1.1.1.1.1.1.1.2
  · exact (fields (fun s => within 1 15 s.acquire) fun _ => rfl).trans hs.1.1.1.1.1.1.1.1.1.1.1.1.2
  · exact (fields (fun s => within 1 15 s.missCount) fun _ => rfl).trans hs.1.1.1.1.1.1.1.1.1.1.1.2
  · exact (fields (fun s => within 0 255 s.hold) fun _ => rfl).trans hs.1.1.1.1.1.1.1.1.1.1.2
  · exact (fields (fun s => within 0 8388607 s.gate) fun _ => rfl).trans hs.1.1.1.1.1.1.1.1.1.2
  · exact (fields (fun s => decide (-4096 ≤ s.fixedOffset)) fun _ => rfl).trans hs.1.1.1.1.1.1.1.1.2
  · exact (fields (fun s => decide (s.fixedOffset ≤ 4096)) fun _ => rfl).trans hs.1.1.1.1.1.1.1.2
  · exact (fields (fun s => within 0 255 s.theta) fun _ => rfl).trans hs.1.1.1.1.1.1.2
  · exact (fields (fun s => within 0 7 s.ka) fun _ => rfl).trans hs.1.1.1.1.1.2
  · exact (fields (fun s => within 1 255 s.depth) fun _ => rfl).trans hs.1.1.1.1.2
  · exact (fields (fun s => within s.depth 255 s.release) fun _ => rfl).trans hs.1.1.1.2
  · exact (fields (fun s => within 1 15 s.onset) fun _ => rfl).trans hs.1.1.2
  · exact (fields (fun s => within 1 15 s.releaseCount) fun _ => rfl).trans hs.1.2
  · exact (fields (fun s => within 0 255 s.blanking) fun _ => rfl).trans hs.2

/-! ## Policies (10, R182) -/

theorem PolicyRec.with_policy (id : CondId) (policy : Policy) (scope : Scope) (r : PolicyRec) :
    (r.with id policy scope).policy = policy := by cases id <;> rfl

/-- The records a SET_POLICY names take the policy; every other record stays. -/
theorem setPolicies_policy (ids : List CondId) (policy : Policy) (scope : Scope) (u : Setup) (jd : CondId) :
    ((u.setPolicies ids policy scope).policies.get jd).policy
      = if jd ∈ ids then policy else (u.policies.get jd).policy := by
  unfold Setup.setPolicies
  dsimp only
  generalize u.policies = t
  induction ids generalizing t with
  | nil => simp
  | cons id rest ih =>
    rw [List.foldl_cons, ih]
    by_cases h : jd ∈ rest
    · simp [h]
    · by_cases he : jd = id
      · subst he
        simp [h, PolicyRec.with_policy]
      · simp [h, he, PerCond.get_set_other _ _ he]

end Sys2Proof.Machine
end

