-- ==== Sys2Proof/Laws/Judge.lean ====
section
/-! SUPPORT. The judgement of a block's first frame, said once: which entry a search of an ascending table finds, what a lane transition touches, and what the first frame of a block makes of one lane. -/

namespace Sys2Proof.Machine

open Sys2Proof.Safety

/-! ## Searching the table -/

/-- Start positions that rise strictly rise between any two places. -/
theorem ascending_pairwise {es : List Entry} (h : ascending es = true) : es.Pairwise fun x y => x.start < y.start := by
  induction es with
  | nil => exact .nil
  | cons x rest ih => exact .cons (ascending_head h) (ih (ascending_tail h))

/-- In an ascending table the last entry that passes a test is the one of greatest start that passes it. -/
theorem lastEntry_iff {es : List Entry} (h : ascending es = true) (test : Entry → Bool) (e : Entry) :
    lastEntry test es = some e ↔ e ∈ es ∧ test e = true ∧ ∀ x ∈ es, test x = true → x.start ≤ e.start := by
  have key : ∀ fs : List Entry, fs.Pairwise (fun x y => x.start < y.start) →
      (fs.getLast? = some e ↔ e ∈ fs ∧ ∀ x ∈ fs, x.start ≤ e.start) := by
    intro fs hp
    constructor
    · intro hl
      refine ⟨List.mem_of_getLast? hl, fun x hx => ?_⟩
      obtain ⟨ys, rfl⟩ := List.getLast?_eq_some_iff.mp hl
      rcases List.mem_append.mp hx with hx | hx
      · exact ((List.pairwise_append.mp hp).2.2 x hx e (by simp)).le
      · simp at hx; rw [hx]
    · rintro ⟨hm, ha⟩
      obtain ⟨a, b, rfl⟩ := List.append_of_mem hm
      cases b with
      | nil => simp
      | cons y ys =>
        have h1 := (List.pairwise_cons.mp (List.pairwise_append.mp hp).2.1).1 y (by simp)
        have h2 := ha y (by simp)
        omega
  unfold lastEntry
  rw [key _ ((ascending_pairwise h).filter _)]
  simp only [List.mem_filter]
  exact ⟨fun ⟨⟨a, b⟩, c⟩ => ⟨a, b, fun x hx ht => c x ⟨hx, ht⟩⟩, fun ⟨a, b, c⟩ => ⟨⟨a, b⟩, fun x hx => c x hx.1 hx.2⟩⟩

theorem lastEntry_none (test : Entry → Bool) (es : List Entry) : lastEntry test es = none ↔ ∀ x ∈ es, test x = false := by
  unfold lastEntry
  rw [List.getLast?_eq_none_iff, List.filter_eq_nil_iff]
  simp

/-- The entry that governs a lane under a current entry is the one of greatest start, at or below the current one's, that carries
the lane (03, R50). -/
theorem governingAt_iff {es : List Entry} (h : ascending es = true) (l : Lane) (c e : Entry) :
    governingAt es (some c) l = some e ↔ e ∈ es ∧ (e.start ≤ c.start ∧ (e.parts.get l).isSome = true)
      ∧ ∀ x ∈ es, x.start ≤ c.start → (x.parts.get l).isSome = true → x.start ≤ e.start := by
  unfold governingAt
  dsimp only
  rw [lastEntry_iff h]
  simp

/-- The test of R53 (03) for an entry that follows the current one. -/
theorem follows_iff (current : Option Entry) (e : Entry) :
    (match current with
      | none => true
      | some c => decide (c.start < e.start)) = true ↔ ∀ c, current = some c → c.start < e.start := by
  cases current <;> simp

/-- The current entry moves on to the last entry that follows it at or below the stamp, where there is one (03, R53). -/
theorem judgeStamp_ahead {es : List Entry} (h : ascending es = true) {current : Option Entry} {stamp : Nat} {e : Entry}
    (hm : e ∈ es) (hf : ∀ c, current = some c → c.start < e.start) (hs : e.start ≤ stamp) :
    ∃ e', judgeStamp es current stamp = some e' ∧ e' ∈ es ∧ e'.start ≤ stamp ∧ ∀ x ∈ es, x.start ≤ stamp → x.start ≤ e'.start := by
  unfold judgeStamp
  dsimp only
  generalize hF : lastEntry _ es = found
  cases found with
  | none =>
    have := (lastEntry_none _ _).mp hF e hm
    exact Bool.noConfusion (this.symm.trans (Bool.and_eq_true_iff.mpr ⟨(follows_iff current e).mpr hf, decide_eq_true hs⟩))
  | some e' =>
    obtain ⟨h1, h2, h3⟩ := (lastEntry_iff h _ e').mp hF
    obtain ⟨h2, h4⟩ := Bool.and_eq_true_iff.mp h2
    refine ⟨e', rfl, h1, of_decide_eq_true h4, fun x hx hp => ?_⟩
    by_cases hh : ∀ c, current = some c → c.start < x.start
    · exact h3 x hx (Bool.and_eq_true_iff.mpr ⟨(follows_iff current x).mpr hh, decide_eq_true hp⟩)
    · push Not at hh
      obtain ⟨c, hc, hcx⟩ := hh
      have := (follows_iff current e').mp h2 c hc
      omega

/-- With no entry ahead, the current entry stays while its start is no more than 8 above the stamp; below that the search goes back
from the stamp and 8 (03, R53). -/
theorem judgeStamp_behind {es : List Entry} {current : Option Entry} {stamp : Nat}
    (h : ∀ e ∈ es, (∀ c, current = some c → c.start < e.start) → stamp < e.start) :
    judgeStamp es current stamp = match current with
      | none => none
      | some c => if stamp + 8 < c.start then lastEntry (fun e => decide (e.start < c.start) && decide (e.start ≤ stamp + 8)) es
          else some c := by
  unfold judgeStamp
  dsimp only
  generalize hF : lastEntry _ es = found
  cases found with
  | none => cases current <;> rfl
  | some e =>
    obtain ⟨h1, h2⟩ := List.mem_filter.mp (List.mem_of_getLast? hF)
    obtain ⟨h2, h3⟩ := Bool.and_eq_true_iff.mp h2
    have := h e h1 ((follows_iff current e).mp h2)
    have := of_decide_eq_true h3
    omega

/-! ## A lane transition -/

/-- A lane transition up to the tracker's part of it: the SETTINGS entry posted, then the tracker's transition (05, R100; 04, R78). -/
def Part.turned (u : Setup) (index : Nat) (l : Lane) (p : Part) : Part :=
  (p.postEntry u l ⟨index, .settings ((p.sgt.arrival.get l).map Entry.start) (p.effective l)⟩).trackerTransition u l (p.effective l) index

theorem Part.tracks_turned (u : Setup) (index : Nat) (l : Lane) (p : Part) :
    ((p.postEntry u l ⟨index, .settings ((p.sgt.arrival.get l).map Entry.start) (p.effective l)⟩).setTracker l
      { p.rft.get l with settings := p.effective l, coeffs := filterFor u.rates (p.effective l) }).Tracks u l (p.turned u index l) :=
  Part.tracks_trackerTransition u l _ index _

/-- What a lane transition makes: beyond the tracker's part, the lane's aligner half and its two tracks' detectors. -/
theorem Part.laneTransition_spec (u : Setup) (index : Nat) (l : Lane) (p : Part) : ∃ d c,
    p.laneTransition u index l = { p.turned u index l with
      aza := p.aza.set l ((p.aza.get l).takeSettings (p.effective l) (p.aza.get l).estimate index), det := d, con := c }
    ∧ (∀ tr : Track, tr.lane = l →
        (d.get tr, (c.get tr).spans)
          = detectorTransition (p.effective l).dropout (index / 64) ((p.turned u index l).det.get tr) (p.con.get tr).spans
        ∧ (c.get tr).g = (p.con.get tr).g ∧ (c.get tr).source = (p.con.get tr).source)
    ∧ (∀ tr : Track, tr.lane ≠ l → d.get tr = (p.turned u index l).det.get tr ∧ c.get tr = p.con.get tr) := by
  have haza : (p.turned u index l).aza = p.aza := (p.tracks_turned u index l).aza
  have hcon : (p.turned u index l).con = p.con := (p.tracks_turned u index l).con
  have one (q : Part) (s : DropoutSettings) (b : Nat) (t : Track) : q.trackTransition s b t = { q with
      det := q.det.set t (detectorTransition s b (q.det.get t) (q.con.get t).spans).1,
      con := q.con.set t { q.con.get t with spans := (detectorTransition s b (q.det.get t) (q.con.get t).spans).2 } } := rfl
  have al (q : Part) (s : Settings) : q.alignerTransition l s index
      = { q with aza := q.aza.set l ((q.aza.get l).takeSettings s (q.aza.get l).estimate index) } := rfl
  have e : p.laneTransition u index l
      = (((p.turned u index l).alignerTransition l (p.effective l) index).trackTransition (p.effective l).dropout (index / 64)
          l.first).trackTransition (p.effective l).dropout (index / 64) l.second := rfl
  rw [e, al, one, one]
  generalize hr : p.turned u index l = r at *
  subst hr
  refine ⟨_, _, by rw [← haza], fun tr ht => ?_, fun tr ht => ?_⟩
  · rcases Lane.track_cases ht with rfl | rfl
    · rw [PerTrack.get_set_other _ _ (Lane.first_ne_second l), PerTrack.get_set_other _ _ (Lane.first_ne_second l)]
      simp [hcon]
    · simp [PerTrack.get_set_other _ _ (Lane.first_ne_second l).symm, hcon]
  · have h1 : tr ≠ l.first := by rintro rfl; simp at ht
    have h2 : tr ≠ l.second := by rintro rfl; simp at ht
    rw [PerTrack.get_set_other _ _ h2, PerTrack.get_set_other _ _ h2, PerTrack.get_set_other _ _ h1, PerTrack.get_set_other _ _ h1]
    exact ⟨rfl, by simp [hcon]⟩

@[simp] theorem Part.laneTransition_sgt (u : Setup) (index : Nat) (l : Lane) (p : Part) : (p.laneTransition u index l).sgt = p.sgt := by
  obtain ⟨d, c, e, -⟩ := p.laneTransition_spec u index l
  rw [e]
  exact (p.tracks_turned u index l).sgt

/-- A lane transition leaves the queued notices of segments. -/
theorem Part.laneTransition_entered (u : Setup) (index : Nat) (l : Lane) (p : Part) (n : Notice)
    (h : n.content.kind = .segmentEntered) : n ∈ (p.laneTransition u index l).msp.notices ↔ n ∈ p.msp.notices := by
  obtain ⟨d, c, e, -⟩ := p.laneTransition_spec u index l
  rw [e]
  exact (p.tracks_turned u index l).entered n h

/-! ## A block's first frame in RUN -/

/-- The part with the current entry judged and the governing entries found, before any lane turns (03, R53, R54). -/
def Part.judged (u : Setup) (stamp : Nat) (p : Part) : Part := p.underEntry u (judgeStamp u.entries p.sgt.current stamp)

/-- The judgement gives a lane another governing entry. -/
def Part.turns (p : Part) (l : Lane) (q : Part) : Bool := !sameEntry (p.sgt.arrival.get l) (q.sgt.arrival.get l)

/-- A block's first frame in RUN: the judgement; where a lane turns, its transition, one SEGMENT_ENTERED and the settings word. -/
theorem Part.blockBegin_run (u : Setup) (index stamp : Nat) (p : Part) (h : p.take.device = .run) (j : Part)
    (hj : j = p.judged u stamp) :
    p.blockBegin u index stamp =
      if p.turns .a j || p.turns .b j then
        let q := if p.turns .a j then j.laneTransition u index .a else j
        let q := if p.turns .b j then q.laneTransition u index .b else q
        let lanes : LaneSet := if p.turns .a j && p.turns .b j then .both else if p.turns .a j then .a else .b
        (q.post (segmentEntered lanes q.sgt.current index stamp)).transitionWord
      else j := by
  subst hj
  unfold Part.blockBegin
  rw [if_pos h]
  rfl

/-- A settings word at a transition touches the receiver alone. -/
theorem Part.transitionWord_spec (p : Part) : ∃ h, p.transitionWord = { p with hcr := h } := by
  unfold Part.transitionWord
  split <;> exact ⟨_, rfl⟩

/-- After a block's first frame the Segment Table stands as judged. -/
theorem Part.blockBegin_sgt (u : Setup) (index stamp : Nat) (p : Part) (h : p.take.device = .run) :
    (p.blockBegin u index stamp).sgt = (p.judged u stamp).sgt := by
  rw [p.blockBegin_run u index stamp h _ rfl]
  split
  · dsimp only
    obtain ⟨x, e⟩ := Part.transitionWord_spec _
    rw [e]
    simp only [Part.post_sgt]
    split <;> split <;> simp
  · rfl

/-- A block's first frame posts SEGMENT_ENTERED for the lanes that turn, and leaves the message port where none does. -/
theorem Part.blockBegin_entered (u : Setup) (index stamp : Nat) (p : Part) (h : p.take.device = .run) (j : Part)
    (hj : j = p.judged u stamp) :
    (p.turns .a j = false → p.turns .b j = false → (p.blockBegin u index stamp).msp = p.msp)
    ∧ ((p.turns .a j || p.turns .b j) = true → ∃ n ∈ (p.blockBegin u index stamp).msp.notices,
        n.content = segmentEntered (if p.turns .a j && p.turns .b j then .both else if p.turns .a j then .a else .b) j.sgt.current
          index stamp) := by
  rw [p.blockBegin_run u index stamp h _ hj]
  constructor
  · intro a b
    simp [a, b]
    rw [hj]; rfl
  · intro a
    rw [if_pos a]
    dsimp only
    generalize hq : (if p.turns .b j = true then _ else _ : Part) = q
    obtain ⟨x, e⟩ := (q.post (segmentEntered
      (if p.turns .a j && p.turns .b j then .both else if p.turns .a j then .a else .b) q.sgt.current index stamp)).transitionWord_spec
    rw [e]
    have : q.sgt = j.sgt := by rw [← hq]; split <;> split <;> simp
    rw [this]
    exact postNotice_mem _ _ (by simp [segmentEntered, NoticeContent.kind])

/-! ## One lane at a time -/

/-- Two parts agree on everything of lane l and its two tracks, on its queued LOCK_CHANGED, on the Segment Table and on the receiver. -/
structure Part.SameLane (l : Lane) (p q : Part) : Prop where
  rft : q.rft.get l = p.rft.get l
  lanes : q.lanes.get l = p.lanes.get l
  aza : q.aza.get l = p.aza.get l
  det : ∀ tr : Track, tr.lane = l → q.det.get tr = p.det.get tr
  con : ∀ tr : Track, tr.lane = l → q.con.get tr = p.con.get tr
  cmn : ∀ id : CondId, id = .lockLost l ∨ id = .range l → q.cmn.get id = p.cmn.get id
  sgt : q.sgt = p.sgt
  hcr : q.hcr = p.hcr
  queue : queued (lockKind l) q.msp.notices = queued (lockKind l) p.msp.notices

theorem Part.SameLane.changes {l : Lane} {p q : Part} (h : p.SameLane l q) (n : Notice) (hn : n.content.kind = lockKind l) :
    n ∈ q.msp.notices ↔ n ∈ p.msp.notices := mem_of_queued h.queue n hn

theorem Part.SameLane.refl (l : Lane) (p : Part) : p.SameLane l p :=
  ⟨rfl, rfl, rfl, fun _ _ => rfl, fun _ _ => rfl, fun _ _ => rfl, rfl, rfl, rfl⟩

theorem Part.SameLane.trans {l : Lane} {p q r : Part} (h : p.SameLane l q) (k : q.SameLane l r) : p.SameLane l r :=
  ⟨k.rft.trans h.rft, k.lanes.trans h.lanes, k.aza.trans h.aza, fun t e => (k.det t e).trans (h.det t e),
   fun t e => (k.con t e).trans (h.con t e), fun t e => (k.cmn t e).trans (h.cmn t e), k.sgt.trans h.sgt, k.hcr.trans h.hcr,
   k.queue.trans h.queue⟩

/-- One lane's tracker leaves the other lane. -/
theorem Part.Tracks.sameLane {u : Setup} {l m : Lane} {p q : Part} (h : p.Tracks u m q) (hm : m ≠ l) : p.SameLane l q := by
  have hl := Lane.eq_other (l := m) (m := l) hm.symm
  refine ⟨by rw [hl]; exact h.other, by rw [hl]; exact h.lane, by rw [h.aza], fun tr ht => h.det tr (by rw [ht]; exact hm.symm),
    fun tr _ => by rw [h.con], fun id hid => h.cmn id ?_ ?_, h.sgt, h.hcr,
    h.queue _ (by simp) (by simpa using hm.symm)⟩ <;> rcases hid with rfl | rfl <;> simp <;> exact hm.symm

/-- One lane's transition leaves the other lane. -/
theorem Part.sameLane_laneTransition (u : Setup) (index : Nat) {l m : Lane} (hm : m ≠ l) (p : Part) :
    p.SameLane l (p.laneTransition u index m) := by
  obtain ⟨d, c, e, -, ho⟩ := p.laneTransition_spec u index m
  have h1 : p.SameLane l ((p.postEntry u m
      ⟨index, .settings ((p.sgt.arrival.get m).map Entry.start) (p.effective m)⟩).setTracker m
      { p.rft.get m with settings := p.effective m, coeffs := filterFor u.rates (p.effective m) }) :=
    ⟨PerLane.get_set_other _ _ hm.symm, PerLane.get_set_other _ _ hm.symm, rfl, fun _ _ => rfl, fun _ _ => rfl, fun _ _ => rfl,
     rfl, rfl, rfl⟩
  have h2 := h1.trans ((p.tracks_turned u index m).sameLane hm)
  rw [e]
  refine ⟨h2.rft, h2.lanes, ?_, fun tr ht => ?_, fun tr ht => ?_, h2.cmn, h2.sgt, h2.hcr, h2.queue⟩
  · show (p.aza.set m _).get l = _
    rw [PerLane.get_set_other _ _ hm.symm]
  · exact ((ho tr (by rw [ht]; exact hm.symm)).1).trans (h2.det tr ht)
  · exact (ho tr (by rw [ht]; exact hm.symm)).2

/-- A block's first frame seen by a lane that turns: its transition is taken from a part that agrees with the judged one on all of
the lane, and the settings word follows the judged pair. -/
theorem Part.blockBegin_lane (u : Setup) (index stamp : Nat) (p : Part) (h : p.take.device = .run) (l : Lane)
    (hm : p.turns l (p.judged u stamp) = true) :
    ∃ j : Part, (p.judged u stamp).SameLane l j
      ∧ (j.laneTransition u index l).SameLane l { p.blockBegin u index stamp with hcr := (j.laneTransition u index l).hcr }
      ∧ (p.blockBegin u index stamp).hcr
          = (if p.hcr.latestWord = some (p.judged u stamp).eqPair then p.hcr else p.hcr.wordDue (p.judged u stamp).eqPair) := by
  rw [p.blockBegin_run u index stamp h _ rfl]
  set j := p.judged u stamp with hj
  have lth (q : Part) (m : Lane) : (q.laneTransition u index m).hcr = q.hcr := by
    obtain ⟨d, c, e, -⟩ := q.laneTransition_spec u index m
    rw [e]; exact (q.tracks_turned u index m).hcr
  have eqp (q : Part) (h : q.sgt = j.sgt) : q.eqPair = j.eqPair := by unfold Part.eqPair Part.effective; rw [h]
  have wd (q : Part) (n : NoticeContent) (h : q.sgt = j.sgt) (hh : q.hcr = p.hcr) : (q.post n).transitionWord.hcr
      = (if p.hcr.latestWord = some j.eqPair then p.hcr else p.hcr.wordDue j.eqPair) := by
    unfold Part.transitionWord
    rw [show (q.post n).eqPair = j.eqPair from eqp (q.post n) h, show (q.post n).hcr = p.hcr from hh]
    split
    · exact hh
    · rfl
  have fin (q : Part) (lanes : LaneSet) (current : Option Entry) :
      q.SameLane l { (q.post (segmentEntered lanes current index stamp)).transitionWord with hcr := q.hcr } := by
    obtain ⟨x, e⟩ := (q.post (segmentEntered lanes current index stamp)).transitionWord_spec
    rw [e]
    refine ⟨rfl, rfl, rfl, fun _ _ => rfl, fun _ _ => rfl, fun _ _ => rfl, rfl, rfl, ?_⟩
    exact queued_post_other _ _ _ (lockKind_ne_entered l)
  cases l
  · rw [hm]
    simp only [Bool.true_or, if_true]
    refine ⟨j, .refl _ _, ?_, ?_⟩
    · split
      · have s := Part.sameLane_laneTransition u index (l := .a) (m := .b) (by simp) (j.laneTransition u index .a)
        have := s.trans (fin (Part.laneTransition u index .b (j.laneTransition u index .a))
          (if (true && p.turns .b j) = true then LaneSet.both else LaneSet.a)
          ((j.laneTransition u index .a).laneTransition u index .b).sgt.current)
        rw [s.hcr] at this
        exact this
      · exact fin (j.laneTransition u index .a) _ _
    · split
      · exact wd _ _ (by simp) (by rw [lth, lth]; rfl)
      · exact wd _ _ (by simp) (by rw [lth]; rfl)
  · rw [hm]
    simp only [Bool.or_true, if_true]
    refine ⟨if p.turns .a j then j.laneTransition u index .a else j, ?_, fin _ _ _, ?_⟩
    · split
      · exact Part.sameLane_laneTransition u index (l := .b) (m := .a) (by simp) j
      · exact .refl _ _
    · split
      · exact wd _ _ (by simp) (by rw [lth, lth]; rfl)
      · exact wd _ _ (by simp) (by rw [lth]; rfl)

end Sys2Proof.Machine
end

