-- ==== Sys2Proof/Laws/Frame.lean ====
section
/-! SUPPORT. A frame brought in sequence, from the row to each block of the arrival side, said once: what exec answers, what one lane's tracker, aligner half and detectors see of it, and when a tracker locks. -/

namespace Sys2Proof.Machine

open Sys2Proof.Safety

/-! ## The row -/

/-- What FRAME_SLOT answers for a frame it brings, under policies that stop no frame. -/
theorem exec_brings {bytes : List Byte} {f : PerTrack Int} {s : State} (h : bringsFrame bytes f s) (hf : framesNeverStop s.setup) :
    ∃ c : PerCond CondStatus, c.rawHeld.present = false ∧ (∀ id, id ≠ .rawHeld → c.get id = s.part.cmn.get id)
      ∧ ∀ p : Part, p = { s.part with hcr := s.part.hcr.taken s.part.hcr.expected f, cmn := c } →
        exec (.frameSlot bytes) s = .next { s with
          rings := s.ringsAfter f,
          part := (p.counted s.setup).arrived s.setup (s.ringsAfter f) s.part.hcr.nextIndex f } := by
  obtain ⟨c, e, hc, ho⟩ := s.taking_spec s.part.hcr.expected f
  refine ⟨c, hc, ho, ?_⟩
  rintro _ rfl
  show Host.Outcome.next _ = _
  rw [frameSlot_brings h, State.writeFrame_quiet _ _ (by rw [e]; exact hf) (by rw [e]; exact h.2.2.1), e]
  rfl

/-- A frame inside a block is counted and nothing else. -/
theorem Part.counted_inside (u : Setup) (p : Part) (h : p.hcr.nextIndex % 64 ≠ 0) :
    p.counted u = { p with hcr := { p.hcr with nextIndex := p.hcr.nextIndex + 1 } } := by
  have e : (if p.hcr.nextIndex % Config.blockSize = 0 then p.blockBegin u p.hcr.nextIndex p.pos.position else p) = p := if_neg h
  unfold Part.counted
  rw [e]

/-- What the arrival side makes of a frame: the two trackers' work, the aligner halves and their lanes, and at a block's last frame
the detectors and the span lists. -/
theorem Part.arrived_spec (u : Setup) (rings : Rings) (n : Nat) (f : PerTrack Int) (p : Part) : ∃ aza lanes d c,
    p.arrived u rings n f
        = { (p.trackerFrame u n f .a).trackerFrame u n f .b with aza := aza, lanes := lanes, det := d, con := c }
      ∧ (n % 64 ≠ 63 → d = ((p.trackerFrame u n f .a).trackerFrame u n f .b).det ∧ c = p.con) := by
  obtain ⟨x, y, e⟩ := ((p.trackerFrame u n f .a).trackerFrame u n f .b).azimuthFrame_spec u rings n .a
  obtain ⟨x', y', e'⟩ := (((p.trackerFrame u n f .a).trackerFrame u n f .b).azimuthFrame u rings n .a).azimuthFrame_spec u rings n .b
  have hcon : ((p.trackerFrame u n f .a).trackerFrame u n f .b).con = p.con :=
    (Part.tracks_trackerFrame u n f .b _).con.trans (Part.tracks_trackerFrame u n f .a _).con
  unfold Part.arrived
  dsimp only
  split
  · rename_i h
    obtain ⟨d, c, e''⟩ := Part.blockComplete_spec rings (n / Config.blockSize)
      ((((p.trackerFrame u n f .a).trackerFrame u n f .b).azimuthFrame u rings n .a).azimuthFrame u rings n .b)
    exact ⟨_, _, d, c, by rw [e'', e', e], fun k => absurd h k⟩
  · exact ⟨_, _, _, _, by rw [e', e], fun _ => ⟨rfl, hcon⟩⟩

/-- A frame leaves the Segment Table and the queued notices of segments. -/
theorem Part.arrived_sgt (u : Setup) (rings : Rings) (n : Nat) (f : PerTrack Int) (p : Part) :
    (p.arrived u rings n f).sgt = p.sgt
      ∧ ∀ k : Notice, k.content.kind = .segmentEntered → (k ∈ (p.arrived u rings n f).msp.notices ↔ k ∈ p.msp.notices) := by
  obtain ⟨_, _, _, _, e, -⟩ := p.arrived_spec u rings n f
  have t1 := p.tracks_trackerFrame u n f .a
  have t2 := (p.trackerFrame u n f .a).tracks_trackerFrame u n f .b
  rw [e]
  exact ⟨t2.sgt.trans t1.sgt, fun k h => (t2.entered k h).trans (t1.entered k h)⟩

/-! ## One lane's view of a frame -/

/-- The tracker of a lane reads a frame from a part that agrees with the start on all of the lane. -/
theorem Part.arrived_rft (u : Setup) (rings : Rings) (n : Nat) (f : PerTrack Int) (l : Lane) (p : Part) :
    ∃ p' : Part, p.SameLane l p' ∧ (p.arrived u rings n f).rft.get l = (p'.trackerFrame u n f l).rft.get l := by
  have ta := p.tracks_trackerFrame u n f .a
  have tb := (p.trackerFrame u n f .a).tracks_trackerFrame u n f .b
  obtain ⟨_, _, _, _, e, -⟩ := p.arrived_spec u rings n f
  rw [e]
  cases l
  · exact ⟨p, .refl _ _, (tb.sameLane (l := .a) (by simp)).rft⟩
  · exact ⟨_, ta.sameLane (l := .b) (by simp), rfl⟩

/-- The aligner half of a lane, likewise. -/
theorem Part.arrived_aza (u : Setup) (rings : Rings) (n : Nat) (f : PerTrack Int) (l : Lane) (p : Part) :
    ∃ r : Part, r.aza.get l = p.aza.get l ∧ r.hcr = p.hcr
      ∧ (p.arrived u rings n f).aza.get l = (r.azimuthFrame u rings n l).aza.get l := by
  have ta := p.tracks_trackerFrame u n f .a
  have tb := (p.trackerFrame u n f .a).tracks_trackerFrame u n f .b
  have e : (p.arrived u rings n f).aza
      = ((((p.trackerFrame u n f .a).trackerFrame u n f .b).azimuthFrame u rings n .a).azimuthFrame u rings n .b).aza := by
    unfold Part.arrived
    dsimp only
    split
    · obtain ⟨d, c, e''⟩ := Part.blockComplete_spec rings (n / Config.blockSize)
        ((((p.trackerFrame u n f .a).trackerFrame u n f .b).azimuthFrame u rings n .a).azimuthFrame u rings n .b)
      rw [e'']
    · rfl
  obtain ⟨x, y, e1⟩ := ((p.trackerFrame u n f .a).trackerFrame u n f .b).azimuthFrame_spec u rings n .a
  obtain ⟨x', y', e2⟩ := (((p.trackerFrame u n f .a).trackerFrame u n f .b).azimuthFrame u rings n .a).azimuthFrame_spec u rings n .b
  cases l
  · refine ⟨_, by rw [tb.aza, ta.aza], tb.hcr.trans ta.hcr, ?_⟩
    rw [e, e2]
    rfl
  · refine ⟨((p.trackerFrame u n f .a).trackerFrame u n f .b).azimuthFrame u rings n .a, ?_, ?_, by rw [e]⟩
    · rw [e1]
      show (PerLane.set _ .a x).get .b = _
      rw [PerLane.get_set_other _ _ (by simp), tb.aza, ta.aza]
    · rw [e1]
      exact tb.hcr.trans ta.hcr

/-- A frame that completes no block, seen from one lane. -/
theorem Part.arrived_lane (u : Setup) (rings : Rings) (n : Nat) (f : PerTrack Int) (l : Lane) (p : Part) (h63 : n % 64 ≠ 63) :
    ∃ p' : Part, p.SameLane l p' ∧ (p.arrived u rings n f).rft.get l = (p'.trackerFrame u n f l).rft.get l
      ∧ (∀ tr : Track, tr.lane = l → (p.arrived u rings n f).det.get tr = (p'.trackerFrame u n f l).det.get tr
          ∧ (p.arrived u rings n f).con.get tr = p.con.get tr)
      ∧ (∀ id : CondId, id = .lockLost l ∨ id = .range l →
          (p.arrived u rings n f).cmn.get id = (p'.trackerFrame u n f l).cmn.get id)
      ∧ (∀ k : Notice, k.content.kind = lockKind l →
          (k ∈ (p.arrived u rings n f).msp.notices ↔ k ∈ (p'.trackerFrame u n f l).msp.notices))
      ∧ (p.arrived u rings n f).hcr = p.hcr
      ∧ ∃ r : Part, r.aza.get l = p.aza.get l ∧ r.hcr = p.hcr ∧ r.lanes.get l = (p'.trackerFrame u n f l).lanes.get l
          ∧ (p.arrived u rings n f).aza.get l = (r.azimuthFrame u rings n l).aza.get l
          ∧ (p.arrived u rings n f).lanes.get l = (r.azimuthFrame u rings n l).lanes.get l := by
  have ta := p.tracks_trackerFrame u n f .a
  have tb := (p.trackerFrame u n f .a).tracks_trackerFrame u n f .b
  have e : p.arrived u rings n f
      = ((((p.trackerFrame u n f .a).trackerFrame u n f .b).azimuthFrame u rings n .a).azimuthFrame u rings n .b) := by
    unfold Part.arrived
    exact if_neg h63
  obtain ⟨x, y, e1⟩ := ((p.trackerFrame u n f .a).trackerFrame u n f .b).azimuthFrame_spec u rings n .a
  obtain ⟨x', y', e2⟩ := (((p.trackerFrame u n f .a).trackerFrame u n f .b).azimuthFrame u rings n .a).azimuthFrame_spec u rings n .b
  have hrft : (p.arrived u rings n f).rft = ((p.trackerFrame u n f .a).trackerFrame u n f .b).rft := by rw [e, e2, e1]
  have hdet : (p.arrived u rings n f).det = ((p.trackerFrame u n f .a).trackerFrame u n f .b).det := by rw [e, e2, e1]
  have hcon : (p.arrived u rings n f).con = p.con := by rw [e, e2, e1]; exact tb.con.trans ta.con
  have hcmn : (p.arrived u rings n f).cmn = ((p.trackerFrame u n f .a).trackerFrame u n f .b).cmn := by rw [e, e2, e1]
  have hmsp : (p.arrived u rings n f).msp = ((p.trackerFrame u n f .a).trackerFrame u n f .b).msp := by rw [e, e2, e1]
  have hhcr : (p.arrived u rings n f).hcr = p.hcr := by rw [e, e2, e1]; exact tb.hcr.trans ta.hcr
  cases l
  · have sb := tb.sameLane (l := .a) (by simp)
    refine ⟨p, .refl _ _, by rw [hrft, sb.rft], fun tr ht => ⟨by rw [hdet, sb.det tr ht], by rw [hcon]⟩,
      fun id hid => by rw [hcmn, sb.cmn id hid], fun k hk => by rw [hmsp, sb.changes k hk], hhcr, (p.trackerFrame u n f .a).trackerFrame u n f .b, ?_,
      tb.hcr.trans ta.hcr, sb.lanes, ?_, ?_⟩
    · rw [tb.aza, ta.aza]
    · rw [e, e2]; rfl
    · rw [e, e2]; rfl
  · refine ⟨_, ta.sameLane (l := .b) (by simp), by rw [hrft], fun tr ht => ⟨by rw [hdet], by rw [hcon]⟩,
      fun id hid => by rw [hcmn], fun k hk => by rw [hmsp], hhcr, ((p.trackerFrame u n f .a).trackerFrame u n f .b).azimuthFrame u rings n .a, ?_, ?_, ?_,
      by rw [e], by rw [e]⟩
    · rw [e1]
      show (PerLane.set _ .a x).get .b = _
      rw [PerLane.get_set_other _ _ (by simp), tb.aza, ta.aza]
    · rw [e1]; exact tb.hcr.trans ta.hcr
    · rw [e1]; rfl

/-- An aligner half whose window the frame does not complete only gathers it. -/
theorem Part.azimuthFrame_incomplete (u : Setup) (rings : Rings) (n : Nat) (l : Lane) (p : Part)
    (h : ∀ w, (p.aza.get l).window = some w → p.hcr.nextIndex < w.start + 2048) :
    p.azimuthFrame u rings n l = { p with aza := p.aza.set l (if (p.aza.get l).running then
      { p.aza.get l with window := (p.aza.get l).window.map (AzimuthWindow.gather rings l n) } else p.aza.get l) } := by
  unfold Part.azimuthFrame
  dsimp only
  split
  · unfold Part.azimuthComplete
    simp only [Part.setAligner, PerLane.get_set_same]
    cases hw : (p.aza.get l).window with
    | none => rfl
    | some w =>
      have hs : (w.gather rings l n).start = w.start := by unfold AzimuthWindow.gather; split <;> rfl
      simp only [Option.map_some, hs]
      rw [if_neg]
      have := h w hw
      intro k
      have k : w.start + 2048 ≤ p.hcr.nextIndex := of_decide_eq_true (Bool.and_eq_true_iff.mp k).2
      omega
  · rw [PerLane.set_get]

/-! ## What a tracker keeps, and when it locks -/

/-- A change of lock state: the record, LOCK_LOST's status, and notices. -/
theorem Part.changeLock_spec (u : Setup) (l : Lane) (new : LockState) (index : Option Nat) (p : Part) : ∃ c b m,
    p.changeLock u l new index = { p with
      rft := p.rft.set l { p.rft.get l with lock := new }, cmn := c, stopPending := b, msp := { p.msp with notices := m } }
    ∧ ((p.rft.get l).lock ≠ new → (c.get (.lockLost l)).present = (new == .fallback))
    ∧ (∀ id, id ≠ .lockLost l → c.get id = p.cmn.get id) ∧ ((p.rft.get l).lock = new → c = p.cmn)
    ∧ (new ≠ .fallback → b = p.stopPending
        ∧ m = if (p.rft.get l).lock = new then p.msp.notices else
            postNotice (.lockChanged l (p.rft.get l).lock new index (p.rft.get l).step) p.msp.notices) := by
  unfold Part.changeLock
  dsimp only
  split
  · rename_i h
    refine ⟨p.cmn, p.stopPending, p.msp.notices, ?_, fun k => absurd h k, fun _ _ => rfl, fun _ => rfl, fun _ => ⟨rfl, rfl⟩⟩
    have : ({ p.rft.get l with lock := new } : Tracker) = p.rft.get l := by rw [← h]
    rw [this, PerLane.set_get]
  · rename_i h
    unfold Part.report
    split
    · rename_i hb
      obtain ⟨c, b, m, e, a1, -, -, a4, -⟩ := Part.reportPresent_spec u (.lockLost l)
        ((p.setTracker l { p.rft.get l with lock := new }).post (.lockChanged l (p.rft.get l).lock new index (p.rft.get l).step))
      exact ⟨c, b, m, by rw [e]; rfl, fun _ => by rw [a1, hb], fun id hid => a4 id hid, fun k => absurd k h,
        fun k => absurd hb (by simpa using k)⟩
    · rename_i hb
      obtain ⟨c, e, a1, -, -, a4⟩ := Part.reportAbsent_spec u (.lockLost l)
        ((p.setTracker l { p.rft.get l with lock := new }).post (.lockChanged l (p.rft.get l).lock new index (p.rft.get l).step))
      exact ⟨c, _, _, by rw [e]; rfl, fun _ => by rw [a1]; simpa using hb, fun id hid => a4 id hid, fun k => absurd k h,
        fun _ => ⟨rfl, rfl⟩⟩

@[simp] theorem Part.report_rft (u : Setup) (id : CondId) (b : Bool) (p : Part) : (p.report u id b).rft = p.rft := by
  unfold Part.report
  split
  · obtain ⟨c, b, m, e, -⟩ := Part.reportPresent_spec u id p; rw [e]
  · obtain ⟨c, e, -⟩ := Part.reportAbsent_spec u id p; rw [e]

@[simp] theorem Part.report_det (u : Setup) (id : CondId) (b : Bool) (p : Part) : (p.report u id b).det = p.det := by
  unfold Part.report
  split
  · obtain ⟨c, b, m, e, -⟩ := Part.reportPresent_spec u id p; rw [e]
  · obtain ⟨c, e, -⟩ := Part.reportAbsent_spec u id p; rw [e]

/-- The lock state machine leaves the filter, the crossing detector, the open measurement, the timeout and the tach channel. -/
structure Part.KeepsMeasure (l : Lane) (p q : Part) : Prop where
  filter : (q.rft.get l).filter = (p.rft.get l).filter
  last : (q.rft.get l).last = (p.rft.get l).last
  armed : (q.rft.get l).armed = (p.rft.get l).armed
  meas : (q.rft.get l).meas = (p.rft.get l).meas
  origin : (q.rft.get l).origin = (p.rft.get l).origin
  tachOpen : (q.rft.get l).tachOpen = (p.rft.get l).tachOpen
  tachLast : (q.rft.get l).tachLast = (p.rft.get l).tachLast

theorem Part.KeepsMeasure.refl (l : Lane) (p : Part) : p.KeepsMeasure l p := ⟨rfl, rfl, rfl, rfl, rfl, rfl, rfl⟩

theorem Part.KeepsMeasure.trans {l : Lane} {p q r : Part} (h : p.KeepsMeasure l q) (k : q.KeepsMeasure l r) : p.KeepsMeasure l r :=
  ⟨k.filter.trans h.filter, k.last.trans h.last, k.armed.trans h.armed, k.meas.trans h.meas, k.origin.trans h.origin,
   k.tachOpen.trans h.tachOpen, k.tachLast.trans h.tachLast⟩

theorem Part.KeepsMeasure.of_rft {l : Lane} {p q : Part} (h : q.rft.get l = p.rft.get l) : p.KeepsMeasure l q := by
  constructor <;> rw [h]

/-- A tracker record put in place keeps what it does not differ in. -/
theorem Part.keepsMeasure_set (l : Lane) (p : Part) (t : Tracker) (h : t.filter = (p.rft.get l).filter ∧ t.last = (p.rft.get l).last
    ∧ t.armed = (p.rft.get l).armed ∧ t.meas = (p.rft.get l).meas ∧ t.origin = (p.rft.get l).origin
    ∧ t.tachOpen = (p.rft.get l).tachOpen ∧ t.tachLast = (p.rft.get l).tachLast) : p.KeepsMeasure l (p.setTracker l t) := by
  obtain ⟨a, b, c, d, e, f, g⟩ := h
  constructor <;> simp [*]

theorem Part.keepsMeasure_changeLock (u : Setup) (l : Lane) (new : LockState) (index : Option Nat) (p : Part) :
    p.KeepsMeasure l (p.changeLock u l new index) := by
  obtain ⟨c, b, m, e, -⟩ := p.changeLock_spec u l new index
  exact (p.keepsMeasure_set l { p.rft.get l with lock := new } ⟨rfl, rfl, rfl, rfl, rfl, rfl, rfl⟩).trans (.of_rft (by rw [e]; simp))

theorem Part.keepsMeasure_enterLocked (u : Setup) (l : Lane) (index : Nat) (p : Part) : p.KeepsMeasure l (p.enterLocked u l index) := by
  refine ((p.keepsMeasure_set l { p.rft.get l with missCount := 0, hold := none, ramp := none }
    ⟨rfl, rfl, rfl, rfl, rfl, rfl, rfl⟩).trans (Part.keepsMeasure_changeLock u l .locked (some index) _)).trans (.of_rft ?_)
  unfold Part.enterLocked Part.startBlanking
  rfl

theorem Part.keepsMeasure_lockWhole (u : Setup) (l : Lane) (m : Measurement) (a b : Nat) (p : Part) :
    p.KeepsMeasure l (p.lockWhole u l m a b) := by
  refine ((p.keepsMeasure_set l { p.rft.get l with step := clampNat m.lo m.hi a } ⟨rfl, rfl, rfl, rfl, rfl, rfl, rfl⟩).trans
    (.of_rft ?_)).trans (Part.keepsMeasure_enterLocked u l _ _)
  show ((Part.report u (.range l) false _).rft).get l = _
  rw [Part.report_rft]
  rfl

theorem Part.keepsMeasure_smooth (u : Setup) (l : Lane) (m : Measurement) (a b : Nat) (p : Part) :
    p.KeepsMeasure l (p.smooth u l m a b) := by
  refine (p.keepsMeasure_set l { p.rft.get l with
    step := (smoothed (p.rft.get l).step (p.rft.get l).settings.k (p.rft.get l).settings.slew m.lo m.hi a).1 }
    ⟨rfl, rfl, rfl, rfl, rfl, rfl, rfl⟩).trans (.of_rft ?_)
  unfold Part.smooth
  dsimp only
  rw [Part.report_rft]
  rfl

theorem Part.keepsMeasure_moveRamp (u : Setup) (l : Lane) (n : Nat) (p : Part) : p.KeepsMeasure l (p.moveRamp u l n) :=
  (p.keepsMeasure_set l { p.rft.get l with step := rampTo (p.rft.get l).step (p.rft.get l).settings.slew ((p.rft.get l).target u n) }
    ⟨rfl, rfl, rfl, rfl, rfl, rfl, rfl⟩).trans (.of_rft rfl)

theorem Part.keepsMeasure_enterFallback (u : Setup) (l : Lane) (n : Nat) (p : Part) : p.KeepsMeasure l (p.enterFallback u l n) :=
  ((p.keepsMeasure_set l { p.rft.get l with acquire := 0, hold := none, ramp := some (n + (p.rft.get l).span u) }
    ⟨rfl, rfl, rfl, rfl, rfl, rfl, rfl⟩).trans (Part.keepsMeasure_moveRamp u l n _)).trans (Part.keepsMeasure_changeLock u l _ _ _)

theorem Part.keepsMeasure_inWindow (u : Setup) (l : Lane) (m : Measurement) (a b : Nat) (p : Part) :
    p.KeepsMeasure l (p.inWindow u l m a b) := by
  have one : p.KeepsMeasure l (p.setTracker l { p.rft.get l with missCount := 0 }) :=
    p.keepsMeasure_set l _ ⟨rfl, rfl, rfl, rfl, rfl, rfl, rfl⟩
  have two (k : Nat) : p.KeepsMeasure l (p.setTracker l { p.rft.get l with missCount := 0, acquire := k }) :=
    p.keepsMeasure_set l _ ⟨rfl, rfl, rfl, rfl, rfl, rfl, rfl⟩
  unfold Part.inWindow
  dsimp only
  split
  · exact one
  · split
    · exact (two _).trans (Part.keepsMeasure_lockWhole ..)
    · exact two _
  · exact one.trans (Part.keepsMeasure_smooth ..)
  · split
    · exact (two _).trans ((Part.keepsMeasure_smooth ..).trans (Part.keepsMeasure_enterLocked ..))
    · exact two _
  · split
    · exact (two _).trans (Part.keepsMeasure_lockWhole ..)
    · exact two _

theorem Part.keepsMeasure_missed (u : Setup) (l : Lane) (n : Nat) (p : Part) : p.KeepsMeasure l (p.missed u l n) := by
  have t := p.keepsMeasure_set l { p.rft.get l with acquire := 0, missCount := min 15 ((p.rft.get l).missCount + 1) }
    ⟨rfl, rfl, rfl, rfl, rfl, rfl, rfl⟩
  unfold Part.missed
  dsimp only
  split
  · split
    · exact t.trans (Part.keepsMeasure_enterFallback ..)
    · exact (t.trans (Part.keepsMeasure_set l _ _ (by simp))).trans (Part.keepsMeasure_changeLock ..)
  · exact t

theorem Part.keepsMeasure_holdIfDue (u : Setup) (l : Lane) (p : Part) : p.KeepsMeasure l (p.holdIfDue u l) := by
  unfold Part.holdIfDue
  dsimp only
  split
  · split
    · exact Part.keepsMeasure_enterFallback ..
    · exact .refl _ _
  · exact .refl _ _

theorem Part.keepsMeasure_rampIfDue (u : Setup) (l : Lane) (p : Part) : p.KeepsMeasure l (p.rampIfDue u l) := by
  unfold Part.rampIfDue
  dsimp only
  split
  · split
    · exact (p.keepsMeasure_set l _ (by exact ⟨rfl, rfl, rfl, rfl, rfl, rfl, rfl⟩)).trans (Part.keepsMeasure_moveRamp ..)
    · exact .refl _ _
  · exact .refl _ _

/-- No timeout before twice P_span is reached. -/
theorem Part.missIfDue_early (u : Setup) (l : Lane) (p : Part) (n : Nat) (hn : p.hcr.nextIndex = n + 1)
    (h : n < (p.rft.get l).origin + 2 * (p.rft.get l).timeoutSpan u) : p.missIfDue u l = p := by
  unfold Part.missIfDue
  dsimp only
  rw [if_neg]
  simp only [Bool.and_eq_true, decide_eq_true_eq, hn, Nat.add_sub_cancel]
  omega

/-- No detector of any track changes and the lane does not enter LOCKED. -/
structure Part.Quiet (l : Lane) (p q : Part) : Prop where
  det : q.det = p.det
  lock : (q.rft.get l).lock = .locked → (p.rft.get l).lock = .locked

theorem Part.Quiet.refl (l : Lane) (p : Part) : p.Quiet l p := ⟨rfl, id⟩

theorem Part.Quiet.trans {l : Lane} {p q r : Part} (h : p.Quiet l q) (k : q.Quiet l r) : p.Quiet l r :=
  ⟨k.det.trans h.det, fun x => h.lock (k.lock x)⟩

theorem Part.quiet_set (l : Lane) (p : Part) (t : Tracker) (h : t.lock = .locked → (p.rft.get l).lock = .locked) :
    p.Quiet l (p.setTracker l t) := ⟨rfl, by simpa using h⟩

theorem Part.quiet_changeLock (u : Setup) (l : Lane) (new : LockState) (index : Option Nat) (p : Part) (h : new ≠ .locked) :
    p.Quiet l (p.changeLock u l new index) := by
  obtain ⟨c, b, m, e, -⟩ := p.changeLock_spec u l new index
  rw [e]
  exact ⟨rfl, by simp [h]⟩

theorem Part.quiet_moveRamp (u : Setup) (l : Lane) (n : Nat) (p : Part) : p.Quiet l (p.moveRamp u l n) :=
  ⟨rfl, by simp [Part.moveRamp, Part.postStep, Part.postEntry]⟩

theorem Part.quiet_enterFallback (u : Setup) (l : Lane) (n : Nat) (p : Part) : p.Quiet l (p.enterFallback u l n) :=
  ((p.quiet_set l { p.rft.get l with acquire := 0, hold := none, ramp := some (n + (p.rft.get l).span u) } id).trans
    (Part.quiet_moveRamp u l n _)).trans (Part.quiet_changeLock u l _ _ _ (by simp))

theorem Part.quiet_missed (u : Setup) (l : Lane) (n : Nat) (p : Part) : p.Quiet l (p.missed u l n) := by
  have t := p.quiet_set l { p.rft.get l with acquire := 0, missCount := min 15 ((p.rft.get l).missCount + 1) } id
  unfold Part.missed
  dsimp only
  split
  · split
    · exact t.trans (Part.quiet_enterFallback ..)
    · exact (t.trans (Part.quiet_set l _ _ (by simp))).trans (Part.quiet_changeLock _ _ _ _ _ (by simp))
  · exact t

theorem Part.quiet_missIfDue (u : Setup) (l : Lane) (p : Part) : p.Quiet l (p.missIfDue u l) := by
  unfold Part.missIfDue
  dsimp only
  split
  · split
    · exact p.quiet_set l _ (by exact id)
    · exact (p.quiet_set l _ (by exact id)).trans (Part.quiet_missed ..)
    · exact .refl _ _
  · exact .refl _ _

theorem Part.quiet_holdIfDue (u : Setup) (l : Lane) (p : Part) : p.Quiet l (p.holdIfDue u l) := by
  unfold Part.holdIfDue
  dsimp only
  split
  · split
    · exact Part.quiet_enterFallback ..
    · exact .refl _ _
  · exact .refl _ _

theorem Part.quiet_rampIfDue (u : Setup) (l : Lane) (p : Part) : p.Quiet l (p.rampIfDue u l) := by
  unfold Part.rampIfDue
  dsimp only
  split
  · split
    · exact (p.quiet_set l _ (by exact id)).trans (Part.quiet_moveRamp ..)
    · exact .refl _ _
  · exact .refl _ _

/-- The lane has just entered LOCKED: no hold or ramp timer runs, and blanking has started in its two tracks (08, R136). -/
def Part.Locks (l : Lane) (p q : Part) : Prop :=
  (p.rft.get l).lock ≠ .locked ∧ (q.rft.get l).lock = .locked ∧ (q.rft.get l).hold = none ∧ (q.rft.get l).ramp = none
    ∧ ∀ tr : Track, tr.lane = l → q.det.get tr = (p.det.get tr).startBlanking (p.det.get tr).settings.blanking

theorem Part.Quiet.locks {l : Lane} {p q r : Part} (h : p.Quiet l q) (hp : (p.rft.get l).lock ≠ .locked) (k : q.Locks l r) :
    p.Locks l r := by
  obtain ⟨-, a, b, c, d⟩ := k
  exact ⟨hp, a, b, c, fun tr ht => by rw [d tr ht, h.det]⟩

theorem Part.locks_enterLocked (u : Setup) (l : Lane) (index : Nat) (p : Part) (h : (p.rft.get l).lock ≠ .locked) :
    p.Locks l (p.enterLocked u l index) := by
  unfold Part.enterLocked
  dsimp only
  obtain ⟨c, b, m, e, -⟩ := Part.changeLock_spec u l .locked (some index)
    (p.setTracker l { p.rft.get l with missCount := 0, hold := none, ramp := none })
  rw [e]
  refine ⟨h, by simp [Part.startBlanking], by simp [Part.startBlanking], by simp [Part.startBlanking], fun tr ht => ?_⟩
  rw [Part.startBlanking_det, if_pos ht]
  rfl

theorem Part.quiet_smooth (u : Setup) (l : Lane) (m : Measurement) (a b : Nat) (p : Part) :
    p.Quiet l (p.smooth u l m a b) ∧ ((p.smooth u l m a b).rft.get l).lock = (p.rft.get l).lock := by
  unfold Part.smooth
  dsimp only
  refine ⟨⟨by rw [Part.report_det]; rfl, ?_⟩, ?_⟩ <;> rw [Part.report_rft] <;> simp [Part.postStep, Part.postEntry]

theorem Part.locks_lockWhole (u : Setup) (l : Lane) (m : Measurement) (a b : Nat) (p : Part) (h : (p.rft.get l).lock ≠ .locked) :
    p.Locks l (p.lockWhole u l m a b) := by
  have same : ((Part.report u (.range l) false
      (Part.postStep u l b (p.setTracker l { p.rft.get l with step := clampNat m.lo m.hi a }))).rft.get l).lock = (p.rft.get l).lock := by
    rw [Part.report_rft]
    simp [Part.postStep, Part.postEntry]
  exact Part.Quiet.locks (q := Part.reportAbsent u (.range l)
    (Part.postStep u l b (p.setTracker l { p.rft.get l with step := clampNat m.lo m.hi a })))
    ⟨(Part.report_det u (.range l) false _).trans rfl, fun k => same ▸ k⟩ h (Part.locks_enterLocked _ _ _ _ (same ▸ h))

/-- An in-window measurement either locks the lane or is quiet. -/
theorem Part.inWindow_cases (u : Setup) (l : Lane) (m : Measurement) (a b : Nat) (p : Part) :
    p.Quiet l (p.inWindow u l m a b) ∨ p.Locks l (p.inWindow u l m a b) := by
  have one : p.Quiet l (p.setTracker l { p.rft.get l with missCount := 0 }) := p.quiet_set l _ (by exact id)
  have two (k : Nat) : p.Quiet l (p.setTracker l { p.rft.get l with missCount := 0, acquire := k }) := p.quiet_set l _ (by exact id)
  unfold Part.inWindow
  dsimp only
  split
  · exact .inl one
  · rename_i h
    split
    · exact .inr ((two _).locks (by rw [h]; simp) (Part.locks_lockWhole _ _ _ _ _ _ (by simp [h])))
    · exact .inl (two _)
  · exact .inl (one.trans (Part.quiet_smooth ..).1)
  · rename_i h
    split
    · exact .inr (((two _).trans (Part.quiet_smooth ..).1).locks (by rw [h]; simp)
        (Part.locks_enterLocked _ _ _ _ (by rw [(Part.quiet_smooth ..).2]; simp [h])))
    · exact .inl (two _)
  · rename_i h
    split
    · exact .inr ((two _).locks (by rw [h]; simp) (Part.locks_lockWhole _ _ _ _ _ _ (by simp [h])))
    · exact .inl (two _)

/-- A completed measurement either locks the lane, its closing crossing opening the next, or is quiet. -/
theorem Part.measurementComplete_cases (u : Setup) (l : Lane) (p : Part) :
    p.Quiet l (p.measurementComplete u l)
    ∨ p.Locks l (p.measurementComplete u l) ∧ ∃ m, (p.rft.get l).meas = some m
      ∧ ((p.measurementComplete u l).rft.get l).origin = m.lastIndex
      ∧ ((p.measurementComplete u l).rft.get l).meas = some ((p.rft.get l).opening u m.lastStamp m.lastIndex) := by
  unfold Part.measurementComplete
  dsimp only
  split
  · exact .inl (.refl _ _)
  · rename_i m hm
    split
    · split
      · exact .inl (p.quiet_set l _ (by exact id))
      · split
        · have q1 : p.Quiet l (p.setTracker l { p.rft.get l with
              meas := some ((p.rft.get l).opening u m.lastStamp m.lastIndex), origin := m.lastIndex }) := p.quiet_set l _ (by exact id)
          have kk := Part.keepsMeasure_inWindow u l m (stepOf u.rates.fo m.c m.fRef (m.lastStamp - m.t0))
            ((m.t0 + m.lastStamp) / 512) (p.setTracker l { p.rft.get l with
              meas := some ((p.rft.get l).opening u m.lastStamp m.lastIndex), origin := m.lastIndex })
          rcases Part.inWindow_cases u l m (stepOf u.rates.fo m.c m.fRef (m.lastStamp - m.t0)) ((m.t0 + m.lastStamp) / 512)
            (p.setTracker l { p.rft.get l with
              meas := some ((p.rft.get l).opening u m.lastStamp m.lastIndex), origin := m.lastIndex }) with h | h
          · exact .inl (q1.trans h)
          · exact .inr ⟨q1.locks (by simpa using h.1) h, m, hm, by rw [kk.origin]; simp, by rw [kk.meas]; simp⟩
        · exact .inl ((p.quiet_set l _ (by exact id)).trans (Part.quiet_missed ..))
      · exact .inl (.refl _ _)
    · exact .inl (.refl _ _)

/-- A counted crossing, likewise. -/
theorem Part.crossing_cases (u : Setup) (l : Lane) (stamp index : Nat) (p : Part) :
    p.Quiet l (p.crossing u l stamp index)
    ∨ p.Locks l (p.crossing u l stamp index) ∧ ((p.crossing u l stamp index).rft.get l).origin = index
      ∧ ((p.crossing u l stamp index).rft.get l).meas = some ((p.rft.get l).opening u stamp index) := by
  unfold Part.crossing
  dsimp only
  split
  · exact .inl (p.quiet_set l _ (by exact id))
  · rename_i m hm
    have q1 : p.Quiet l (p.setTracker l { p.rft.get l with
        meas := some { m with counted := m.counted + 1, lastStamp := stamp, lastIndex := index } }) := p.quiet_set l _ (by exact id)
    rcases Part.measurementComplete_cases u l (p.setTracker l { p.rft.get l with
        meas := some { m with counted := m.counted + 1, lastStamp := stamp, lastIndex := index } }) with h | ⟨h, m', hm', ho, hme⟩
    · exact .inl (q1.trans h)
    · simp only [Part.setTracker_rft, PerLane.get_set_same, Option.some.injEq] at hm'
      subst hm'
      exact .inr ⟨q1.locks (by simpa using h.1) h, ho, by rw [hme]; simp; rfl⟩

/-- A frame seen by the crossing detector, likewise. -/
theorem Part.detect_cases (u : Setup) (l : Lane) (n : Nat) (sum : Int) (p : Part) :
    p.Quiet l (p.detect u l n sum)
    ∨ p.Locks l (p.detect u l n sum) ∧ ((p.detect u l n sum).rft.get l).origin = n
      ∧ ∃ stamp, ((p.detect u l n sum).rft.get l).meas = some ((p.rft.get l).opening u stamp n) := by
  unfold Part.detect
  dsimp only
  generalize hc : ((p.rft.get l).armed && decide ((p.rft.get l).last < 0)
    && decide (0 ≤ filtered (p.rft.get l).coeffs (p.rft.get l).filter sum)) = counted
  have q1 (fi : FilterState) (la : Int) (ar : Bool) : p.Quiet l (p.setTracker l { p.rft.get l with
      filter := fi, last := la, armed := ar }) := p.quiet_set l _ (by exact id)
  split
  · rcases Part.crossing_cases u l (crossingStamp n (p.rft.get l).last (filtered (p.rft.get l).coeffs (p.rft.get l).filter sum)) n
      (p.setTracker l { p.rft.get l with
        filter := ⟨sum, (p.rft.get l).filter.x1, filtered (p.rft.get l).coeffs (p.rft.get l).filter sum, (p.rft.get l).filter.y1⟩,
        last := filtered (p.rft.get l).coeffs (p.rft.get l).filter sum, armed := false }) with h | ⟨h, ho, hm⟩
    · exact .inl ((q1 _ _ _).trans h)
    · exact .inr ⟨(q1 _ _ _).locks (by simpa using h.1) h, ho, _, by rw [hm]; simp; rfl⟩
  · exact .inl (q1 _ _ _)

/-- A frame read by a tracker whose P_span is no 0 either locks its lane or is quiet: a lane that locks in it misses nothing in it. -/
theorem Part.trackerFrame_cases (u : Setup) (n : Nat) (f : PerTrack Int) (l : Lane) (p : Part) (hn : p.hcr.nextIndex = n + 1)
    (hs : (p.rft.get l).settings.source.isMeasured = true → 0 < (p.rft.get l).span u) :
    p.Quiet l (p.trackerFrame u n f l) ∨ p.Locks l (p.trackerFrame u n f l) := by
  unfold Part.trackerFrame
  dsimp only
  split
  · rename_i hc
    have hm : (p.rft.get l).settings.source.isMeasured = true := by
      have := (Bool.and_eq_true_iff.mp hc).2
      cases hs : (p.rft.get l).settings.source <;> rw [hs] at this <;> simp [Source.isAudio, Source.isMeasured] at this ⊢
    rcases p.detect_cases u l n (f.get l.first + f.get l.second) with h | ⟨h, ho, stamp, hme⟩
    · exact .inl (((h.trans (Part.quiet_missIfDue ..)).trans (Part.quiet_holdIfDue ..)).trans (Part.quiet_rampIfDue ..))
    · right
      have t := p.tracks_detect u l n (f.get l.first + f.get l.second)
      have e1 := Part.missIfDue_early u l (p.detect u l n (f.get l.first + f.get l.second)) n (by rw [t.hcr, hn]) (by
        rw [ho]
        unfold Tracker.timeoutSpan
        rw [hme]
        have := hs hm
        show n < n + 2 * (p.rft.get l).span u
        omega)
      have e2 : (p.detect u l n (f.get l.first + f.get l.second)).holdIfDue u l = p.detect u l n (f.get l.first + f.get l.second) := by
        unfold Part.holdIfDue
        dsimp only
        rw [h.2.2.1]
      have e3 : (p.detect u l n (f.get l.first + f.get l.second)).rampIfDue u l = p.detect u l n (f.get l.first + f.get l.second) := by
        unfold Part.rampIfDue
        dsimp only
        rw [h.2.2.2.1]
      rw [e1, e2, e3]
      exact h
  · exact .inl (((Part.quiet_missIfDue ..).trans (Part.quiet_holdIfDue ..)).trans (Part.quiet_rampIfDue ..))

/-! ## A completed block, one track at a time -/

/-- A block's level is the greatest magnitude among its 64 samples. -/
theorem Rings.blockLevel_spec (r : Rings) (t : Track) (b : Nat) :
    (∀ k < 64, (r.sample t ((64 * b + k : Nat) : Int)).natAbs ≤ r.blockLevel t b)
      ∧ ∃ k < 64, (r.sample t ((64 * b + k : Nat) : Int)).natAbs = r.blockLevel t b := by
  have gen (g : Nat → Nat) : ∀ n, (∀ k < n, g k ≤ (List.range n).foldl (fun acc k => max acc (g k)) 0)
      ∧ (n = 0 ∨ ∃ k < n, g k = (List.range n).foldl (fun acc k => max acc (g k)) 0) := by
    intro n
    induction n with
    | zero => simp
    | succ n ih =>
      rw [List.range_succ, List.foldl_append]
      simp only [List.foldl_cons, List.foldl_nil]
      obtain ⟨i1, i2⟩ := ih
      refine ⟨fun k hk => ?_, .inr ?_⟩
      · rcases Nat.lt_succ_iff_lt_or_eq.mp hk with h | rfl
        · exact (i1 k h).trans (le_max_left _ _)
        · exact le_max_right _ _
      · by_cases hg : (List.range n).foldl (fun acc k => max acc (g k)) 0 ≤ g n
        · exact ⟨n, by omega, (max_eq_right hg).symm⟩
        · rcases i2 with rfl | ⟨k, hk, e⟩
          · simp at hg
          · exact ⟨k, by omega, by rw [e, max_eq_left (by omega)]⟩
  obtain ⟨a, c⟩ := gen (fun k => (r.sample t ((64 * b + k : Nat) : Int)).natAbs) 64
  exact ⟨a, c.resolve_left (by simp)⟩

/-- One track's block leaves every other track, take control and the Segment Table. -/
theorem Part.trackBlock_other (rings : Rings) (b : Nat) (t : Track) (p : Part) :
    (∀ tr, tr ≠ t → (p.trackBlock rings b t).det.get tr = p.det.get tr ∧ (p.trackBlock rings b t).con.get tr = p.con.get tr)
      ∧ (p.trackBlock rings b t).take = p.take ∧ (p.trackBlock rings b t).sgt = p.sgt := by
  unfold Part.trackBlock
  dsimp only
  split
  · split
    · exact ⟨fun tr h => by simp [PerTrack.get_set_other _ _ h], by simp, by simp⟩
    · exact ⟨fun tr h => by simp [PerTrack.get_set_other _ _ h], by simp, by simp⟩
  · exact ⟨fun _ _ => ⟨rfl, rfl⟩, rfl, rfl⟩

/-- What a track's block makes of the track depends on the track, the take number and the item label alone. -/
theorem Part.trackBlock_congr (rings : Rings) (b : Nat) (t : Track) {p q : Part} (h1 : p.det.get t = q.det.get t)
    (h2 : p.con.get t = q.con.get t) (h3 : p.take = q.take) (h4 : p.sgt = q.sgt) :
    (p.trackBlock rings b t).det.get t = (q.trackBlock rings b t).det.get t
      ∧ (p.trackBlock rings b t).con.get t = (q.trackBlock rings b t).con.get t := by
  unfold Part.trackBlock Part.itemLabel
  dsimp only
  rw [h1, h2, h3, h4]
  split
  · split
    · simp [h2]
    · simp
  · simp [h1, h2]

/-- A completed block judges each track by itself. -/
theorem Part.blockComplete_track (rings : Rings) (b : Nat) (tr : Track) (p : Part) :
    (p.blockComplete rings b).det.get tr = (p.trackBlock rings b tr).det.get tr
      ∧ (p.blockComplete rings b).con.get tr = (p.trackBlock rings b tr).con.get tr := by
  unfold Part.blockComplete
  simp only [List.foldl_cons, List.foldl_nil]
  obtain ⟨o1, k1, g1⟩ := p.trackBlock_other rings b .t1
  obtain ⟨o2, k2, g2⟩ := (p.trackBlock rings b .t1).trackBlock_other rings b .t2
  obtain ⟨o3, k3, g3⟩ := ((p.trackBlock rings b .t1).trackBlock rings b .t2).trackBlock_other rings b .t3
  obtain ⟨o4, -, -⟩ := (((p.trackBlock rings b .t1).trackBlock rings b .t2).trackBlock rings b .t3).trackBlock_other rings b .t4
  cases tr
  · exact ⟨by rw [(o4 .t1 (by simp)).1, (o3 .t1 (by simp)).1, (o2 .t1 (by simp)).1],
      by rw [(o4 .t1 (by simp)).2, (o3 .t1 (by simp)).2, (o2 .t1 (by simp)).2]⟩
  · obtain ⟨d1, d2⟩ := Part.trackBlock_congr rings b .t2 (o1 .t2 (by simp)).1 (o1 .t2 (by simp)).2 k1 g1
    exact ⟨by rw [(o4 .t2 (by simp)).1, (o3 .t2 (by simp)).1, d1], by rw [(o4 .t2 (by simp)).2, (o3 .t2 (by simp)).2, d2]⟩
  · obtain ⟨d1, d2⟩ := Part.trackBlock_congr rings b .t3 ((o2 .t3 (by simp)).1.trans (o1 .t3 (by simp)).1)
      ((o2 .t3 (by simp)).2.trans (o1 .t3 (by simp)).2) (k2.trans k1) (g2.trans g1)
    exact ⟨by rw [(o4 .t3 (by simp)).1, d1], by rw [(o4 .t3 (by simp)).2, d2]⟩
  · exact Part.trackBlock_congr rings b .t4 ((o3 .t4 (by simp)).1.trans ((o2 .t4 (by simp)).1.trans (o1 .t4 (by simp)).1))
      ((o3 .t4 (by simp)).2.trans ((o2 .t4 (by simp)).2.trans (o1 .t4 (by simp)).2)) (k3.trans (k2.trans k1)) (g3.trans (g2.trans g1))

/-- A frame that completes a block, seen from one track: its block is judged on its detector as the lane's tracker left it. -/
theorem Part.arrived_block (u : Setup) (rings : Rings) (n : Nat) (f : PerTrack Int) (tr : Track) (p : Part) (h63 : n % 64 = 63) :
    ∃ p' q : Part, p.SameLane tr.lane p' ∧ (p.arrived u rings n f).rft.get tr.lane = (p'.trackerFrame u n f tr.lane).rft.get tr.lane
      ∧ q.det.get tr = (p'.trackerFrame u n f tr.lane).det.get tr ∧ q.con = p.con ∧ q.take = p.take ∧ q.sgt = p.sgt
      ∧ (p.arrived u rings n f).det.get tr = (q.trackBlock rings (n / 64) tr).det.get tr
      ∧ (p.arrived u rings n f).con.get tr = (q.trackBlock rings (n / 64) tr).con.get tr := by
  have ta := p.tracks_trackerFrame u n f .a
  have tb := (p.trackerFrame u n f .a).tracks_trackerFrame u n f .b
  have e : p.arrived u rings n f
      = ((((p.trackerFrame u n f .a).trackerFrame u n f .b).azimuthFrame u rings n .a).azimuthFrame u rings n .b).blockComplete rings
          (n / 64) := by
    unfold Part.arrived
    exact if_pos h63
  obtain ⟨x, y, e1⟩ := ((p.trackerFrame u n f .a).trackerFrame u n f .b).azimuthFrame_spec u rings n .a
  obtain ⟨x', y', e2⟩ := (((p.trackerFrame u n f .a).trackerFrame u n f .b).azimuthFrame u rings n .a).azimuthFrame_spec u rings n .b
  obtain ⟨d, c, e3⟩ := Part.blockComplete_spec rings (n / 64)
    ((((p.trackerFrame u n f .a).trackerFrame u n f .b).azimuthFrame u rings n .a).azimuthFrame u rings n .b)
  have hrft : (p.arrived u rings n f).rft = ((p.trackerFrame u n f .a).trackerFrame u n f .b).rft := by rw [e, e3, e2, e1]
  obtain ⟨b1, b2⟩ := Part.blockComplete_track rings (n / 64) tr
    ((((p.trackerFrame u n f .a).trackerFrame u n f .b).azimuthFrame u rings n .a).azimuthFrame u rings n .b)
  have base : ((((p.trackerFrame u n f .a).trackerFrame u n f .b).azimuthFrame u rings n .a).azimuthFrame u rings n .b).con = p.con
      ∧ ((((p.trackerFrame u n f .a).trackerFrame u n f .b).azimuthFrame u rings n .a).azimuthFrame u rings n .b).take = p.take
      ∧ ((((p.trackerFrame u n f .a).trackerFrame u n f .b).azimuthFrame u rings n .a).azimuthFrame u rings n .b).sgt = p.sgt := by
    rw [e2, e1]
    exact ⟨tb.con.trans ta.con, tb.take.trans ta.take, tb.sgt.trans ta.sgt⟩
  obtain ⟨c1, c2, c3⟩ := base
  cases hl : tr.lane
  · have sb := tb.sameLane (l := .a) (by simp)
    exact ⟨p, _, .refl _ _, by rw [hrft, sb.rft], by rw [e2, e1]; exact sb.det tr hl, c1, c2, c3, by rw [e, b1], by rw [e, b2]⟩
  · exact ⟨_, _, ta.sameLane (l := .b) (by simp), by rw [hrft], by rw [e2, e1], c1, c2, c3, by rw [e, b1], by rw [e, b2]⟩

end Sys2Proof.Machine
end

