-- ==== Sys2Proof/Laws/Alike.lean ====
section
/-! SUPPORT. A lane's tracker and aligner half see their own lane alone: what each of their events makes of two parts that agree on that lane agrees on it too, so that a frame's work can be read as the rows of the same names, one after another. -/

namespace Sys2Proof.Machine

open Sys2Proof.Safety

/-! ## Two parts a lane cannot tell apart -/

/-- Two parts agree on all that the tracker of lane l reads and writes. -/
structure Part.Hears (l : Lane) (p q : Part) : Prop where
  rft : q.rft.get l = p.rft.get l
  lanes : q.lanes.get l = p.lanes.get l
  det : ∀ tr : Track, tr.lane = l → q.det.get tr = p.det.get tr
  cmn : ∀ id : CondId, id = .lockLost l ∨ id = .range l → q.cmn.get id = p.cmn.get id
  capturing : q.hcr.capturing = p.hcr.capturing
  nextIndex : q.hcr.nextIndex = p.hcr.nextIndex
  queue : queued (lockKind l) q.msp.notices = queued (lockKind l) p.msp.notices

/-- Two parts agree on all that the tracker and the aligner half of lane l read and write. -/
structure Part.Alike (l : Lane) (p q : Part) : Prop extends Part.Hears l p q where
  aza : q.aza.get l = p.aza.get l

theorem Part.Hears.refl (l : Lane) (p : Part) : p.Hears l p := ⟨rfl, rfl, fun _ _ => rfl, fun _ _ => rfl, rfl, rfl, rfl⟩

theorem Part.Alike.refl (l : Lane) (p : Part) : p.Alike l p := ⟨.refl l p, rfl⟩

theorem Part.Hears.trans {l : Lane} {p q r : Part} (h : p.Hears l q) (k : q.Hears l r) : p.Hears l r :=
  ⟨k.rft.trans h.rft, k.lanes.trans h.lanes, fun t e => (k.det t e).trans (h.det t e), fun t e => (k.cmn t e).trans (h.cmn t e),
   k.capturing.trans h.capturing, k.nextIndex.trans h.nextIndex, k.queue.trans h.queue⟩

theorem Part.Alike.trans {l : Lane} {p q r : Part} (h : p.Alike l q) (k : q.Alike l r) : p.Alike l r :=
  ⟨h.toHears.trans k.toHears, k.aza.trans h.aza⟩

theorem Part.SameLane.alike {l : Lane} {p q : Part} (h : p.SameLane l q) : p.Alike l q :=
  ⟨⟨h.rft, h.lanes, h.det, h.cmn, by rw [h.hcr], by rw [h.hcr], h.queue⟩, h.aza⟩

variable {u : Setup} {l : Lane} {p q : Part}

/-! ## The records -/

theorem Part.Hears.setTracker (h : p.Hears l q) (t : Tracker) : (p.setTracker l t).Hears l (q.setTracker l t) :=
  { h with rft := by simp [Part.setTracker] }

theorem Part.Hears.postEntry (h : p.Hears l q) (e : TimelineEntry) : (p.postEntry u l e).Hears l (q.postEntry u l e) :=
  { h with lanes := by simp [Part.postEntry, Part.setProducer, h.lanes] }

theorem Part.Hears.post (h : p.Hears l q) (c : NoticeContent) : (p.post c).Hears l (q.post c) := by
  refine { h with queue := ?_ }
  by_cases k : lockKind l = c.kind
  · have e (r : Part) : queued (lockKind l) (r.post c).msp.notices = postNotice c (queued (lockKind l) r.msp.notices) := by
      rw [k]; exact queued_post_same c _
    rw [e, e, h.queue]
  · exact (queued_post_other _ _ _ k).trans (h.queue.trans (queued_post_other _ _ _ k).symm)

theorem Part.Hears.setStatus (h : p.Hears l q) (id : CondId) (c : CondStatus) : (p.setStatus id c).Hears l (q.setStatus id c) := by
  refine { h with cmn := fun jd hj => ?_ }
  by_cases e : jd = id
  · subst e; simp [Part.setStatus]
  · show (q.cmn.set id c).get jd = (p.cmn.set id c).get jd
    rw [PerCond.get_set_other _ _ e, PerCond.get_set_other _ _ e]; exact h.cmn jd hj

theorem Part.Hears.ite {p' q' : Part} {c : Prop} [Decidable c] (h : p.Hears l q) (k : p'.Hears l q') :
    (if c then p else p').Hears l (if c then q else q') := by
  split <;> assumption

/-! ## Conditions, lock state, blanking -/

theorem Part.Hears.setFlag (h : p.Hears l q) {id : CondId} (hid : id = .lockLost l ∨ id = .range l) : (p.setFlag id).Hears l (q.setFlag id) := by
  unfold Part.setFlag
  dsimp only
  rw [h.cmn id hid]
  exact .ite h ((h.setStatus id _).post _)

theorem Part.Hears.raise (h : p.Hears l q) {id : CondId} (hid : id = .lockLost l ∨ id = .range l) : (p.raise u id).Hears l (q.raise u id) := by
  have f := h.setFlag hid
  unfold Part.raise
  dsimp only
  split
  · exact { f with }
  · split
    · exact f
    · exact { f with }
  · exact f
  · exact f
  · exact h

theorem Part.Hears.report (h : p.Hears l q) {id : CondId} (hid : id = .lockLost l ∨ id = .range l) (b : Bool) :
    (p.report u id b).Hears l (q.report u id b) := by
  unfold Part.report Part.reportPresent Part.reportAbsent
  dsimp only
  rw [h.cmn id hid]
  exact .ite (.ite h (Part.Hears.raise (h.setStatus id _) hid)) (.ite (h.setStatus id _) h)

theorem Part.Hears.reportAbsent (h : p.Hears l q) {id : CondId} (hid : id = .lockLost l ∨ id = .range l) :
    (p.reportAbsent u id).Hears l (q.reportAbsent u id) := h.report hid false

theorem Part.Hears.postStep (h : p.Hears l q) (stamp : Nat) : (p.postStep u l stamp).Hears l (q.postStep u l stamp) := by
  unfold Part.postStep
  rw [h.rft]
  exact h.postEntry _

theorem Part.Hears.changeLock (h : p.Hears l q) (new : LockState) (index : Option Nat) :
    (p.changeLock u l new index).Hears l (q.changeLock u l new index) := by
  unfold Part.changeLock
  dsimp only
  rw [h.rft]
  exact .ite h (((h.setTracker _).post _).report (.inl rfl) _)

theorem Part.Hears.startBlanking (h : p.Hears l q) : (p.startBlanking l).Hears l (q.startBlanking l) := by
  have d := h.det
  exact { h with det := fun tr ht => by rw [Part.startBlanking_det, Part.startBlanking_det, if_pos ht, if_pos ht, h.det tr ht] }

/-! ## The lock state machine -/

theorem Part.Hears.enterLocked (h : p.Hears l q) (index : Nat) : (p.enterLocked u l index).Hears l (q.enterLocked u l index) := by
  unfold Part.enterLocked
  dsimp only
  rw [h.rft]
  exact ((h.setTracker _).changeLock _ _).startBlanking

theorem Part.Hears.lockWhole (h : p.Hears l q) (m : Measurement) (a b : Nat) : (p.lockWhole u l m a b).Hears l (q.lockWhole u l m a b) := by
  unfold Part.lockWhole
  dsimp only
  rw [h.rft]
  exact (((h.setTracker _).postStep _).reportAbsent (.inr rfl)).enterLocked _

theorem Part.Hears.smooth (h : p.Hears l q) (m : Measurement) (a b : Nat) : (p.smooth u l m a b).Hears l (q.smooth u l m a b) := by
  unfold Part.smooth
  dsimp only
  rw [h.rft]
  exact ((h.setTracker _).postStep _).report (.inr rfl) _

theorem Part.Hears.moveRamp (h : p.Hears l q) (n : Nat) : (p.moveRamp u l n).Hears l (q.moveRamp u l n) := by
  unfold Part.moveRamp
  dsimp only
  rw [h.rft]
  exact (h.setTracker _).postStep _

theorem Part.Hears.enterFallback (h : p.Hears l q) (n : Nat) : (p.enterFallback u l n).Hears l (q.enterFallback u l n) := by
  unfold Part.enterFallback
  dsimp only
  rw [h.rft]
  exact ((h.setTracker _).moveRamp _).changeLock _ _

theorem Part.Hears.inWindow (h : p.Hears l q) (m : Measurement) (a b : Nat) : (p.inWindow u l m a b).Hears l (q.inWindow u l m a b) := by
  unfold Part.inWindow
  dsimp only
  rw [h.rft]
  split
  · exact h.setTracker _
  · exact .ite ((h.setTracker _).lockWhole m a b) (h.setTracker _)
  · exact (h.setTracker _).smooth m a b
  · exact .ite (((h.setTracker _).smooth m a b).enterLocked _) (h.setTracker _)
  · exact .ite ((h.setTracker _).lockWhole m a b) (h.setTracker _)

theorem Part.Hears.missed (h : p.Hears l q) (n : Nat) : (p.missed u l n).Hears l (q.missed u l n) := by
  unfold Part.missed
  dsimp only
  rw [h.rft]
  exact .ite (.ite ((h.setTracker _).enterFallback _) (((h.setTracker _).setTracker _).changeLock _ _)) (h.setTracker _)

/-! ## The events themselves -/

theorem Part.Hears.measuring (h : p.Hears l q) : q.measuring l = p.measuring l := by
  unfold Part.measuring
  rw [h.capturing, h.rft]

theorem Part.Hears.measurementComplete (h : p.Hears l q) : (p.measurementComplete u l).Hears l (q.measurementComplete u l) := by
  unfold Part.measurementComplete
  dsimp only
  rw [h.rft, h.measuring]
  split
  · exact h
  · refine .ite ?_ h
    split
    · exact h.setTracker _
    · exact .ite ((h.setTracker _).inWindow _ _ _) ((h.setTracker _).missed _)
    · exact h

theorem Part.Hears.missIfDue (h : p.Hears l q) : (p.missIfDue u l).Hears l (q.missIfDue u l) := by
  unfold Part.missIfDue
  dsimp only
  rw [h.rft, h.measuring, h.nextIndex]
  refine .ite ?_ h
  split
  · exact h.setTracker _
  · exact (h.setTracker _).missed _
  · exact h

theorem Part.Hears.holdIfDue (h : p.Hears l q) : (p.holdIfDue u l).Hears l (q.holdIfDue u l) := by
  unfold Part.holdIfDue
  dsimp only
  rw [h.rft, h.nextIndex]
  split
  · exact .ite (h.enterFallback _) h
  · exact h

theorem Part.Hears.rampIfDue (h : p.Hears l q) : (p.rampIfDue u l).Hears l (q.rampIfDue u l) := by
  unfold Part.rampIfDue
  dsimp only
  rw [h.rft, h.nextIndex]
  split
  · exact .ite ((h.setTracker _).moveRamp _) h
  · exact h

theorem Part.Hears.crossing (h : p.Hears l q) (stamp index : Nat) : (p.crossing u l stamp index).Hears l (q.crossing u l stamp index) := by
  unfold Part.crossing
  dsimp only
  rw [h.rft]
  split
  · exact h.setTracker _
  · exact (h.setTracker _).measurementComplete

theorem Part.Hears.detect (h : p.Hears l q) (n : Nat) (sum : Int) : (p.detect u l n sum).Hears l (q.detect u l n sum) := by
  unfold Part.detect
  dsimp only
  rw [h.rft]
  exact .ite ((h.setTracker _).crossing _ _) (h.setTracker _)

theorem Part.Hears.trackerFrame (h : p.Hears l q) (n : Nat) (f : PerTrack Int) : (p.trackerFrame u n f l).Hears l (q.trackerFrame u n f l) := by
  unfold Part.trackerFrame
  dsimp only
  rw [h.measuring, h.rft]
  exact (((Part.Hears.ite (h.detect n _) h).missIfDue).holdIfDue).rampIfDue

/-! ## The aligner half -/

theorem Part.Alike.trackerFrame (h : p.Alike l q) (n : Nat) (f : PerTrack Int) : (p.trackerFrame u n f l).Alike l (q.trackerFrame u n f l) :=
  ⟨h.toHears.trackerFrame n f, by rw [(q.tracks_trackerFrame u n f l).aza, (p.tracks_trackerFrame u n f l).aza]; exact h.aza⟩

theorem Part.Alike.setAligner (h : p.Alike l q) (x : Aligner) : (p.setAligner l x).Alike l (q.setAligner l x) :=
  ⟨{ h with }, by simp [Part.setAligner]⟩

theorem Part.Alike.ite {p' q' : Part} {c : Prop} [Decidable c] (h : p.Alike l q) (k : p'.Alike l q') :
    (if c then p else p').Alike l (if c then q else q') := by
  split <;> assumption

theorem Part.Alike.azimuthComplete (h : p.Alike l q) : (p.azimuthComplete u l).Alike l (q.azimuthComplete u l) := by
  unfold Part.azimuthComplete
  dsimp only
  rw [h.aza, h.nextIndex]
  split
  · exact h
  · refine .ite ?_ h
    split
    · exact h.setAligner _
    · exact ⟨((h.setAligner _).toHears).postEntry _, (h.setAligner _).aza⟩

theorem Part.Alike.azimuthFrame (h : p.Alike l q) (rings : Rings) (n : Nat) :
    (p.azimuthFrame u rings n l).Alike l (q.azimuthFrame u rings n l) := by
  unfold Part.azimuthFrame
  dsimp only
  rw [h.aza]
  exact .ite (h.setAligner _).azimuthComplete h

/-! ## A frame's work as rows -/

/-- The rows that fall due at a frame, taken one after another under policies that stop no frame, are the events of their names. -/
theorem afterRows_frame (s : State) (l : Lane) (h : framesNeverStop s.setup) (hs : s.part.stopPending = false) :
    afterRows s [.miss l, .holdTimerExpiry l, .rampMove l, .azimuthWindowComplete l]
        = { s with part := (((s.part.missIfDue s.setup l).holdIfDue s.setup l).rampIfDue s.setup l).azimuthComplete s.setup l }
      ∧ afterRows s [.measurementComplete l, .miss l, .holdTimerExpiry l, .rampMove l, .azimuthWindowComplete l]
        = { s with part := ((((s.part.measurementComplete s.setup l).missIfDue s.setup l).holdIfDue s.setup l).rampIfDue
            s.setup l).azimuthComplete s.setup l } := by
  have m (p : Part) (hp : p.stopPending = false) : (p.missIfDue s.setup l).stopPending = false :=
    ((p.tracks_missIfDue s.setup l).stop h).trans hp
  have k (p : Part) (hp : p.stopPending = false) : (p.holdIfDue s.setup l).stopPending = false :=
    ((p.tracks_holdIfDue s.setup l).stop h).trans hp
  have c : (s.part.measurementComplete s.setup l).stopPending = false := ((s.part.tracks_measurementComplete s.setup l).stop h).trans hs
  have rows (p : Part) (hp : p.stopPending = false) :
      afterRows { s with part := p } [.miss l, .holdTimerExpiry l, .rampMove l, .azimuthWindowComplete l]
        = { s with part := (((p.missIfDue s.setup l).holdIfDue s.setup l).rampIfDue s.setup l).azimuthComplete s.setup l } := by
    simp only [afterRows, exec, execMiss, execHoldTimerExpiry, execRampMove, execAzimuthWindowComplete, State.onPart]
    rw [Part.takeStop_none _ (m p hp), Part.takeStop_none _ (k _ (m p hp))]
  refine ⟨rows s.part hs, ?_⟩
  rw [← rows _ c]
  show afterRows { s with part := (s.part.measurementComplete s.setup l).takeStop s.setup } _ = _
  rw [Part.takeStop_none _ c]

/-- What a frame makes of one lane is what its own tracker and aligner half make of it; a block's last frame then judges the
detectors. -/
theorem Part.arrived_alike (u : Setup) (rings : Rings) (n : Nat) (f : PerTrack Int) (l : Lane) (p : Part) : ∃ r d c,
    p.arrived u rings n f = { r with det := d, con := c } ∧ ((p.trackerFrame u n f l).azimuthFrame u rings n l).Alike l r
      ∧ (n % 64 ≠ 63 → d = r.det) := by
  obtain ⟨r, hr⟩ : ∃ r, r = (((p.trackerFrame u n f .a).trackerFrame u n f .b).azimuthFrame u rings n .a).azimuthFrame u rings n .b :=
    ⟨_, rfl⟩
  have half (m l : Lane) (hm : m ≠ l) (q : Part) : q.Alike l (q.azimuthFrame u rings n m) := by
    obtain ⟨x, y, e⟩ := q.azimuthFrame_spec u rings n m
    rw [e]
    exact ⟨⟨rfl, PerLane.get_set_other _ _ hm.symm, fun _ _ => rfl, fun _ _ => rfl, rfl, rfl, rfl⟩, PerLane.get_set_other _ _ hm.symm⟩
  have alike : ((p.trackerFrame u n f l).azimuthFrame u rings n l).Alike l r := by
    have ta := p.tracks_trackerFrame u n f .a
    have tb := (p.trackerFrame u n f .a).tracks_trackerFrame u n f .b
    rw [hr]
    cases l
    · exact ((tb.sameLane (l := .a) (by simp)).alike.azimuthFrame rings n).trans (half .b .a (by simp) _)
    · exact (((ta.sameLane (l := .b) (by simp)).alike.trackerFrame n f).trans (half .a .b (by simp) _)).azimuthFrame rings n
  unfold Part.arrived
  dsimp only
  rw [← hr]
  split
  · rename_i h
    obtain ⟨d, c, e⟩ := Part.blockComplete_spec rings (n / Config.blockSize) r
    exact ⟨r, d, c, e, alike, fun k => absurd h k⟩
  · exact ⟨r, r.det, r.con, rfl, alike, fun _ => rfl⟩

/-- A block's first frame leaves a lane whose governing entry it leaves. -/
theorem Part.blockBegin_still (u : Setup) (index stamp : Nat) (l : Lane) (p : Part)
    (h : p.take.device ≠ .run ∨ (p.sgt.arrival.get l).map Entry.start = ((p.blockBegin u index stamp).sgt.arrival.get l).map Entry.start) :
    p.Alike l (p.blockBegin u index stamp) := by
  by_cases hd : p.take.device = .run
  swap
  · unfold Part.blockBegin
    rw [if_neg hd]
    exact .refl l p
  have still : p.turns l (p.judged u stamp) = false := by
    rcases h with h | h
    · exact absurd hd h
    · rw [p.blockBegin_sgt u index stamp hd] at h
      simp [Part.turns, sameEntry, h]
  rw [p.blockBegin_run u index stamp hd _ rfl]
  obtain ⟨j, hj⟩ : ∃ j, j = p.judged u stamp := ⟨_, rfl⟩
  rw [← hj] at still ⊢
  have start : p.Alike l j := by rw [hj]; exact ⟨⟨rfl, rfl, fun _ _ => rfl, fun _ _ => rfl, rfl, rfl, rfl⟩, rfl⟩
  split
  swap
  · exact start
  dsimp only
  obtain ⟨q, hq⟩ : ∃ q, q = (if p.turns .b j = true then Part.laneTransition u index .b
    (if p.turns .a j = true then j.laneTransition u index .a else j) else if p.turns .a j = true then j.laneTransition u index .a else j) :=
    ⟨_, rfl⟩
  have other : j.Alike l q := by
    rw [hq]
    cases l
    · rw [still]
      simp only [Bool.false_eq_true, if_false]
      split
      · exact (j.sameLane_laneTransition u index (l := .a) (m := .b) (by simp)).alike
      · exact .refl _ _
    · rw [still]
      simp only [Bool.false_eq_true, if_false]
      split
      · exact (j.sameLane_laneTransition u index (l := .b) (m := .a) (by simp)).alike
      · exact .refl _ _
  rw [← hq]
  refine (start.trans other).trans ?_
  have word (r : Part) : r.Alike l r.transitionWord := by
    unfold Part.transitionWord HeadReceiver.wordDue
    split
    · exact .refl l r
    · split <;> exact ⟨⟨rfl, rfl, fun _ _ => rfl, fun _ _ => rfl, rfl, rfl, rfl⟩, rfl⟩
  refine .trans ?_ (word _)
  exact ⟨⟨rfl, rfl, fun _ _ => rfl, fun _ _ => rfl, rfl, rfl, queued_post_other _ _ _ (lockKind_ne_entered l)⟩, rfl⟩

/-- What FRAME_SLOT makes of a lane whose governing entry its frame leaves: its own tracker's and aligner half's work on the part with
the frame counted, and at a block's last frame the detectors'. -/
theorem exec_brings_lane {bytes : List Byte} {f : PerTrack Int} {s : State} (h : bringsFrame bytes f s) (hf : framesNeverStop s.setup)
    (l : Lane) (n : Nat) (hn : n = s.part.hcr.nextIndex) : ∃ t, exec (.frameSlot bytes) s = .next t
      ∧ ((n % 64 ≠ 0 ∨ s.part.take.device ≠ .run
            ∨ (s.part.sgt.arrival.get l).map Entry.start = (t.part.sgt.arrival.get l).map Entry.start) → ∃ r d c,
          t.part = { r with det := d, con := c } ∧ (n % 64 ≠ 63 → d = r.det)
          ∧ ((Part.trackerFrame s.setup n f l { s.part with hcr := { s.part.hcr with nextIndex := n + 1 } }).azimuthFrame s.setup t.rings n
              l).Alike l r) := by
  obtain ⟨c, -, ho, e⟩ := exec_brings h hf
  refine ⟨_, e _ rfl, fun still => ?_⟩
  dsimp only at still ⊢
  obtain ⟨q, hq⟩ : ∃ q : Part, q = { s.part with hcr := s.part.hcr.taken s.part.hcr.expected f, cmn := c } := ⟨_, rfl⟩
  rw [← hq, (Part.arrived_sgt ..).1] at still
  rw [← hq, ← hn]
  have qn : q.hcr.nextIndex = n := by rw [hq, hn]; rfl
  have qs : q.sgt = s.part.sgt := by rw [hq]
  obtain ⟨x, hx⟩ : ∃ x : Part, x = { s.part with hcr := { s.part.hcr with nextIndex := n + 1 } } := ⟨_, rfl⟩
  have base : x.Alike l { q with hcr := { q.hcr with nextIndex := n + 1 } } := by
    rw [hx, hq]
    exact ⟨⟨rfl, rfl, fun _ _ => rfl, fun id hid => ho id (by rcases hid with rfl | rfl <;> simp), rfl, rfl, rfl⟩, rfl⟩
  have start : x.Alike l (q.counted s.setup) := by
    by_cases h0 : n % 64 = 0
    · obtain ⟨b, hb⟩ : ∃ b, b = q.blockBegin s.setup n q.pos.position := ⟨_, rfl⟩
      have e1 : q.counted s.setup = { b with hcr := { b.hcr with nextIndex := n + 1 } } := by
        rw [hb]
        unfold Part.counted Config.blockSize
        dsimp only
        rw [qn, if_pos h0]
      have a : q.Alike l b := by
        rw [hb]
        refine Part.blockBegin_still s.setup n q.pos.position l q ?_
        rw [e1] at still
        rw [← hb]
        rcases still with k | k | k
        · exact absurd h0 k
        · exact .inl (by rw [hq]; exact k)
        · exact .inr (by rw [qs]; exact k)
      rw [e1]
      exact base.trans ⟨⟨a.rft, a.lanes, a.det, a.cmn, a.capturing, rfl, a.queue⟩, a.aza⟩
    · rw [Part.counted_inside _ _ (by rw [qn]; exact h0), qn]
      exact base
  obtain ⟨r, d, c', er, alike, last⟩ := Part.arrived_alike s.setup (s.ringsAfter f) n f l (q.counted s.setup)
  rw [← hx]
  exact ⟨r, d, c', er, last, ((start.trackerFrame n f).azimuthFrame _ n).trans alike⟩

end Sys2Proof.Machine
end

