-- ==== Sys2Proof/Laws/Endings.lean ====
section
/-! SUPPORT. What ending an operation leaves, field by field: the transport settling with the ending set, the position and the configuration of the link untouched, and for a take its record. -/

namespace Sys2Proof.Machine

open Sys2Proof.Safety

/-- Entering SETTLING from elsewhere, exactly. -/
theorem Part.enterSettling_exact (u : Setup) (p : Part) (h : p.trc.state ≠ .settling) : ∃ c,
    p.enterSettling u
        = { p with cmn := c, trc := { p.trc with state := .settling, settleTimer := some p.timebase, stallTimer := none,
                                                 startTimer := none, slipWindow := none, slipLow := 0 } }
      ∧ (∀ jd, jd ≠ .slip → c.get jd = p.cmn.get jd)
      ∧ ((u.policies.get .slip).policy ≠ .auto → (c.get .slip).flag = (p.cmn.get .slip).flag) := by
  unfold Part.enterSettling
  rw [if_neg h]
  obtain ⟨c, e, -, -, hf, ho⟩ := p.reportAbsent_spec u .slip
  simp only [e]
  exact ⟨c, rfl, ho, hf⟩

/-- Entering SETTLING changes nothing but the transport and the record of SLIP. -/
theorem Part.enterSettling_parts (u : Setup) (p : Part) : ∃ c t,
    p.enterSettling u = { p with cmn := c, trc := t }
      ∧ t.state = .settling ∧ t.op = p.trc.op ∧ t.leader = p.trc.leader
      ∧ (p.trc.state ≠ .settling → t.settleTimer = some p.timebase)
      ∧ (p.trc.state = .settling → t = p.trc)
      ∧ (∀ jd, jd ≠ .slip → c.get jd = p.cmn.get jd)
      ∧ ((u.policies.get .slip).policy ≠ .auto → (c.get .slip).flag = (p.cmn.get .slip).flag) := by
  by_cases h : p.trc.state = .settling
  · exact ⟨p.cmn, p.trc, by unfold Part.enterSettling; rw [if_pos h], h, rfl, rfl, fun k => absurd h k, fun _ => rfl,
      fun _ _ => rfl, fun _ => rfl⟩
  · obtain ⟨c, e, ho, hf⟩ := p.enterSettling_exact u h
    exact ⟨c, _, e, rfl, rfl, rfl, fun _ => rfl, fun k => absurd k h, ho, hf⟩

/-- The end of a take leaves the transport, the position and the take number, and fixes the record's cause and end index. -/
theorem Part.takeEnd_parts (u : Setup) (c : TakeCause) (p : Part) :
    (p.takeEnd u c).trc = p.trc ∧ (p.takeEnd u c).pos = p.pos ∧ (p.takeEnd u c).timebase = p.timebase
      ∧ (p.takeEnd u c).take.device = .configure ∧ (p.takeEnd u c).take.number = p.take.number
      ∧ (p.takeEnd u c).hcr.capturing = false ∧ (p.takeEnd u c).hcr.nextIndex = p.hcr.nextIndex := by
  have w := Part.works_takeTeardown u p.lastWritten { p with
    take := { p.take with
      device := .configure,
      record := p.take.record.map fun (r : TakeRecord) => { r with cause := some c, endIndex := p.lastWritten } },
    hcr := { p.hcr with capturing := false } }
  exact ⟨w.trc, w.pos, w.timebase, w.device, w.number, w.capturing, w.nextIndex⟩

/-- The event that ends a running operation. -/
theorem Part.endOperation_spec (u : Setup) (e : Ending) (p : Part) (hk : p.trc.op.kind ≠ .none) (he : p.trc.op.ending = none) :
    (p.endOperation u e).trc.state = .settling
      ∧ (p.endOperation u e).trc.op = { p.trc.op with phase := none, ending := some e }
      ∧ (p.endOperation u e).trc.leader = p.trc.leader
      ∧ (p.trc.state ≠ .settling → (p.endOperation u e).trc.settleTimer = some p.timebase)
      ∧ (p.trc.state = .settling → (p.endOperation u e).trc.settleTimer = p.trc.settleTimer)
      ∧ (p.endOperation u e).pos = p.pos ∧ (p.endOperation u e).timebase = p.timebase
      ∧ (p.endOperation u e).take.number = p.take.number := by
  unfold Part.endOperation
  rw [if_neg (by simp [hk, he])]
  generalize ({ p.trc.op with phase := none, ending := some e } : OpRecord) = q
  obtain ⟨c, t, eq, hs, ho, hl, hm, hn, -, -⟩ := (p.setOp q).enterSettling_parts u
  have hn' : p.trc.state = .settling → t.settleTimer = p.trc.settleTimer := fun h => by rw [hn h]; rfl
  simp only [eq]
  split
  · obtain ⟨a1, a2, a3, -, a5, -⟩ := Part.takeEnd_parts u _ { p.setOp q with cmn := c, trc := t }
    rw [a1, a2, a3, a5]
    exact ⟨hs, ho, hl, hm, hn', rfl, rfl, rfl⟩
  · have w := ({ p.setOp q with cmn := c, trc := t, hcr := { p.hcr with capturing := false } } : Part).works_surveyStop
    exact ⟨w.trc ▸ hs, w.trc ▸ ho, w.trc ▸ hl, fun h => w.trc ▸ hm h, fun h => w.trc ▸ hn' h, w.pos, w.timebase, w.number⟩
  · exact ⟨hs, ho, hl, hm, hn', rfl, rfl, rfl⟩

/-- An operation that is not running is left as it is. -/
theorem Part.endOperation_none (u : Setup) (e : Ending) (p : Part) (h : p.trc.op.kind = .none ∨ p.trc.op.ending ≠ none) :
    p.endOperation u e = p := by
  unfold Part.endOperation
  rw [if_pos]
  rcases h with h | h
  · exact .inl h
  · exact .inr (Option.isSome_iff_ne_none.2 h)

/-- The event that ends a running take, for take control and the receiver. -/
theorem Part.endOperation_take (u : Setup) (c : TakeCause) (p : Part) (hk : p.trc.op.kind = .take)
    (he : p.trc.op.ending = none) :
    (p.endOperation u (.cause c)).take.device = .configure ∧ (p.endOperation u (.cause c)).hcr.capturing = false
      ∧ (p.endOperation u (.cause c)).hcr.nextIndex = p.hcr.nextIndex := by
  unfold Part.endOperation
  rw [if_neg (by simp [hk, he])]
  generalize ({ p.trc.op with phase := none, ending := some (Ending.cause c) } : OpRecord) = q
  obtain ⟨c', t, eq, -⟩ := (p.setOp q).enterSettling_parts u
  simp only [eq, hk]
  obtain ⟨-, -, -, a, -, b, d⟩ := Part.takeEnd_parts u c { p.setOp q with cmn := c', trc := t }
  exact ⟨a, b, d⟩

/-- Once the operation has ended, a stop request that is waiting is dropped. -/
theorem Part.takeStop_ended (u : Setup) (p : Part) (h : p.trc.op.ending ≠ none) : p.takeStop u = { p with stopPending := false } := by
  unfold Part.takeStop
  split
  · unfold Part.stopRequest
    split
    · have e : Part.endAs u .condition .condition { p with stopPending := false } = { p with stopPending := false } :=
        Part.endOperation_none u _ { p with stopPending := false } (.inr h)
      simp only [e]
    · rfl
  · rename_i hp; cases p; simp_all

/-- A stop request that meets the event that ends the operation is dropped. -/
theorem Part.takeStop_endOperation (u : Setup) (e : Ending) (p : Part) (hk : p.trc.op.kind ≠ .none)
    (he : p.trc.op.ending = none) : (p.endOperation u e).takeStop u = { p.endOperation u e with stopPending := false } := by
  apply Part.takeStop_ended
  rw [(p.endOperation_spec u e hk he).2.1]
  simp

end Sys2Proof.Machine
end

