-- ==== Sys2Proof/Laws/Logged.lean ====
section
/-! SUPPORT. Dropout records and the end of a take, said once: what writing records touches, what a lane that finishes writes, and what the end of a take makes of detectors, span lists and the log. -/

namespace Sys2Proof.Machine

open Sys2Proof.Safety

/-- A list cut at a length, continued and cut again, is the whole cut once. -/
theorem take_append_take {α : Type} (xs ys zs : List α) (n : Nat) : ((xs ++ ys).take n ++ zs).take n = (xs ++ ys ++ zs).take n := by
  rw [List.take_append, List.take_append (l₁ := xs ++ ys)]
  simp only [List.length_take, List.take_take, Nat.min_self]
  congr 2
  omega

/-- Writing a record touches the log, up to its 256 places, the condition records and the notices. -/
theorem Part.logRecord_spec (u : Setup) (p : Part) (r : DropoutRecord) (h : p.log.length ≤ 256) : ∃ c b m,
    p.logRecord u r
      = { p with log := (p.log ++ [r]).take 256, cmn := c, stopPending := b, msp := { p.msp with notices := m } } := by
  unfold Part.logRecord Config.maxLog
  dsimp only
  split
  · rename_i hl
    have e : (p.log ++ [r]).take 256 = p.log ++ [r] := List.take_of_length_le (by simp; omega)
    rw [e]
    split
    · exact ⟨p.cmn, p.stopPending, _, rfl⟩
    · exact ⟨p.cmn, p.stopPending, p.msp.notices, rfl⟩
  · have e : (p.log ++ [r]).take 256 = p.log := by
      rw [List.take_append_of_le_length (by omega)]
      exact List.take_of_length_le h
    rw [e]
    obtain ⟨c, b, m, e, -⟩ := Part.raise_spec u .logFull p
    exact ⟨c, b, m, by unfold Part.occur; rw [e]⟩

theorem Part.logRecords_spec (u : Setup) (rs : List DropoutRecord) (p : Part) (h : p.log.length ≤ 256) : ∃ c b m,
    rs.foldl (fun p r => p.logRecord u r) p
      = { p with log := (p.log ++ rs).take 256, cmn := c, stopPending := b, msp := { p.msp with notices := m } } := by
  induction rs generalizing p with
  | nil => exact ⟨p.cmn, p.stopPending, p.msp.notices, by simp [List.take_of_length_le h]⟩
  | cons r rs ih =>
    obtain ⟨c, b, m, e⟩ := p.logRecord_spec u r h
    rw [List.foldl_cons, e]
    obtain ⟨c', b', m', e'⟩ :=
      ih { p with log := (p.log ++ [r]).take 256, cmn := c, stopPending := b, msp := { p.msp with notices := m } } (by simp)
    refine ⟨c', b', m', ?_⟩
    have whole : ((p.log ++ [r]).take 256 ++ rs).take 256 = (p.log ++ r :: rs).take 256 := by
      rw [take_append_take]
      simp
    rw [e']
    simp only [whole]

/-- Writing the spans a test picks takes them out of the track's list and their records into the log. -/
theorem Part.writeSpans_spec (u : Setup) (t : Track) (pick : Span → Bool) (p : Part) (h : p.log.length ≤ 256) : ∃ c b m,
    p.writeSpans u t pick = { p with
      con := p.con.set t { p.con.get t with spans := (p.con.get t).spans.filter fun s => !pick s },
      log := (p.log ++ ((p.con.get t).spans.filter pick).map Span.toRecord).take 256,
      cmn := c, stopPending := b, msp := { p.msp with notices := m } } := by
  unfold Part.writeSpans
  obtain ⟨c, b, m, e⟩ := Part.logRecords_spec u (((p.con.get t).spans.filter pick).map Span.toRecord)
    (p.setConcealer t { p.con.get t with spans := (p.con.get t).spans.filter fun s => !pick s }) h
  exact ⟨c, b, m, by dsimp only; rw [e]; rfl⟩

/-- Whatever the log holds, writing records touches it, LOG_FULL and the notices, and makes a stop request only where LOG_FULL's policy
makes one. -/
theorem Part.logRecords_touch (u : Setup) (rs : List DropoutRecord) (p : Part) : ∃ g c b m,
    rs.foldl (fun p r => p.logRecord u r) p = { p with log := g, cmn := c, stopPending := b, msp := { p.msp with notices := m } }
      ∧ (∀ id, id ≠ .logFull → c.get id = p.cmn.get id) ∧ (neverStops u.policies.logFull → b = p.stopPending) := by
  induction rs generalizing p with
  | nil => exact ⟨p.log, p.cmn, p.stopPending, p.msp.notices, rfl, fun _ _ => rfl, fun _ => rfl⟩
  | cons r rs ih =>
    have one : ∃ g c b m, p.logRecord u r = { p with log := g, cmn := c, stopPending := b, msp := { p.msp with notices := m } }
        ∧ (∀ id, id ≠ .logFull → c.get id = p.cmn.get id) ∧ (neverStops u.policies.logFull → b = p.stopPending) := by
      unfold Part.logRecord
      dsimp only
      split
      · split
        · exact ⟨_, p.cmn, p.stopPending, _, rfl, fun _ _ => rfl, fun _ => rfl⟩
        · exact ⟨_, p.cmn, p.stopPending, p.msp.notices, rfl, fun _ _ => rfl, fun _ => rfl⟩
      · obtain ⟨c, b, m, e, -, -, -, ho, hb, -⟩ := Part.raise_spec u .logFull p
        exact ⟨p.log, c, b, m, by unfold Part.occur; rw [e], ho, hb⟩
    obtain ⟨g, c, b, m, e, ho, hb⟩ := one
    obtain ⟨g', c', b', m', e', ho', hb'⟩ := ih { p with log := g, cmn := c, stopPending := b, msp := { p.msp with notices := m } }
    exact ⟨g', c', b', m', by rw [List.foldl_cons, e, e'], fun id h => (ho' id h).trans (ho id h),
      fun h => (hb' h).trans (hb h)⟩

theorem Part.writeSpans_touch (u : Setup) (t : Track) (pick : Span → Bool) (p : Part) : ∃ g c b m,
    p.writeSpans u t pick = { p with
      con := p.con.set t { p.con.get t with spans := (p.con.get t).spans.filter fun s => !pick s },
      log := g, cmn := c, stopPending := b, msp := { p.msp with notices := m } }
      ∧ (∀ id, id ≠ .logFull → c.get id = p.cmn.get id) ∧ (neverStops u.policies.logFull → b = p.stopPending) := by
  obtain ⟨g, c, b, m, e, ho, hb⟩ := Part.logRecords_touch u (((p.con.get t).spans.filter pick).map Span.toRecord)
    (p.setConcealer t { p.con.get t with spans := (p.con.get t).spans.filter fun s => !pick s })
  exact ⟨g, c, b, m, by unfold Part.writeSpans; dsimp only; rw [e]; rfl, ho, hb⟩

/-- Writing spans of both tracks of a lane takes them out of their lists, whatever the log holds. -/
theorem Part.writeBoth_touch (u : Setup) (l : Lane) (one two : Span → Bool) (p : Part) : ∃ g c b m con,
    (p.writeSpans u l.first one).writeSpans u l.second two
        = { p with con := con, log := g, cmn := c, stopPending := b, msp := { p.msp with notices := m } }
      ∧ con.get l.first = { p.con.get l.first with spans := (p.con.get l.first).spans.filter fun s => !one s }
      ∧ con.get l.second = { p.con.get l.second with spans := (p.con.get l.second).spans.filter fun s => !two s }
      ∧ (∀ t : Track, t.lane ≠ l → con.get t = p.con.get t)
      ∧ (∀ id, id ≠ .logFull → c.get id = p.cmn.get id) ∧ (neverStops u.policies.logFull → b = p.stopPending) := by
  obtain ⟨g, c, b, m, e, ho, hb⟩ := p.writeSpans_touch u l.first one
  obtain ⟨g', c', b', m', e', ho', hb'⟩ := (p.writeSpans u l.first one).writeSpans_touch u l.second two
  have hne := Lane.first_ne_second l
  rw [e] at e' ho' hb'
  refine ⟨g', c', b', m', _, by rw [e, e'], ?_, ?_, ?_, fun id h => (ho' id h).trans (ho id h), fun h => (hb' h).trans (hb h)⟩
  · rw [PerTrack.get_set_other _ _ hne]; simp
  · simp [PerTrack.get_set_other _ _ hne.symm]
  · intro t ht
    rw [PerTrack.get_set_other, PerTrack.get_set_other] <;> rintro rfl <;> simp at ht

/-- A lane's finish writes every span its two tracks still list, the first track's before the second's (08, R151). -/
theorem Part.writeAll_spec (u : Setup) (l : Lane) (p : Part) (h : p.log.length ≤ 256) : ∃ c b m con,
    p.writeAll u l = { p with
      con := con, log := (p.log ++ ((p.con.get l.first).spans ++ (p.con.get l.second).spans).map Span.toRecord).take 256,
      cmn := c, stopPending := b, msp := { p.msp with notices := m } }
    ∧ (∀ t : Track, t.lane ≠ l → con.get t = p.con.get t)
    ∧ ∀ t : Track, t.lane = l → con.get t = { p.con.get t with spans := [] } := by
  obtain ⟨c, b, m, e⟩ := p.writeSpans_spec u l.first (fun _ => true) h
  obtain ⟨c', b', m', e'⟩ := (p.writeSpans u l.first fun _ => true).writeSpans_spec u l.second (fun _ => true) (by rw [e]; simp)
  have hne := Lane.first_ne_second l
  refine ⟨c', b', m', (p.con.set l.first { p.con.get l.first with spans := [] }).set l.second
    { p.con.get l.second with spans := [] }, ?_, ?_, ?_⟩
  · unfold Part.writeAll
    rw [e', e]
    simp [PerTrack.get_set_other _ _ hne.symm, take_append_take, List.filter_eq_nil_iff.mpr]
  · intro t ht
    rw [PerTrack.get_set_other, PerTrack.get_set_other] <;> rintro rfl <;> simp at ht
  · intro t ht
    rcases Lane.track_cases ht with rfl | rfl
    · rw [PerTrack.get_set_other _ _ hne]; simp
    · simp

/-- A lane at the end of a take: an ACTIVE one drains, or finishes at once where its next point is too near the end raw index, and
then writes the spans it lists (06, R117, R118; 08, R151). -/
theorem Part.laneTakeEnd_spec (u : Setup) (l : Lane) (p : Part) (e : Nat) (h : p.log.length ≤ 256)
    (hr : p.take.record.bind TakeRecord.endIndex = some e) (finishes : Prop) [Decidable finishes]
    (hf : finishes ↔ (p.lanes.get l).state = .active ∧ e < (p.lanes.get l).acc / 16777216 + 32) : ∃ c b m con x,
    p.laneTakeEnd u l = { p with
      con := con, lanes := p.lanes.set l x,
      log := (p.log ++ if finishes then ((p.con.get l.first).spans ++ (p.con.get l.second).spans).map Span.toRecord else []).take 256,
      cmn := c, stopPending := b, msp := { p.msp with notices := m } }
    ∧ (∀ t : Track, t.lane ≠ l → con.get t = p.con.get t) ∧ (¬finishes → con = p.con) := by
  unfold Part.laneTakeEnd
  dsimp only
  split
  · rename_i ha
    unfold Part.finishIfDone
    simp only [Part.setProducer_lanes, PerLane.get_set_same, if_true, Part.setProducer_take, hr]
    split
    · rename_i hx
      have yes : finishes := hf.mpr ⟨ha, hx⟩
      obtain ⟨c, b, m, con, e1, e2, e3⟩ := Part.writeAll_spec u l (p.setProducer l { p.lanes.get l with state := .draining }) h
      refine ⟨c, b, m, con, { p.lanes.get l with state := .idle, timeline := [] }, ?_, e2, fun k => absurd yes k⟩
      unfold Part.finishLane
      dsimp only
      rw [e1, if_pos yes]
      simp [Part.setProducer]
    · rename_i hx
      have no : ¬finishes := fun k => hx (hf.mp k).2
      exact ⟨p.cmn, p.stopPending, p.msp.notices, p.con, _, by
        rw [if_neg no]; simp [List.take_of_length_le h, Part.setProducer]; rfl, fun _ _ => rfl, fun _ => rfl⟩
  · rename_i ha
    have no : ¬finishes := fun k => ha (hf.mp k).1
    exact ⟨p.cmn, p.stopPending, p.msp.notices, p.con, p.lanes.get l, by
      rw [if_neg no]; simp [List.take_of_length_le h], fun _ _ => rfl, fun _ => rfl⟩

/-! ## The blocks at the end of a take -/

/-- A tracker at the end of a take touches its record, the condition records and the notices. -/
theorem Part.trackerTakeEnd_spec (u : Setup) (e : Option Nat) (l : Lane) (p : Part) : ∃ r c b m,
    p.trackerTakeEnd u e l = { p with rft := r, cmn := c, stopPending := b, msp := { p.msp with notices := m } } := by
  have w : ∃ r c b m, p.changeLock u l .idle e
      = { p with rft := r, cmn := c, stopPending := b, msp := { p.msp with notices := m } } := by
    unfold Part.changeLock
    dsimp only
    split
    · exact ⟨p.rft, p.cmn, p.stopPending, p.msp.notices, rfl⟩
    · obtain ⟨c, h, -⟩ := Part.reportAbsent_spec u (.lockLost l)
        ((p.setTracker l { p.rft.get l with lock := .idle }).post (.lockChanged l (p.rft.get l).lock .idle e (p.rft.get l).step))
      exact ⟨_, c, p.stopPending, _, h⟩
  obtain ⟨r, c, b, m, h⟩ := w
  obtain ⟨c', h', -⟩ := Part.reportAbsent_spec u (.range l) (p.changeLock u l .idle e)
  unfold Part.trackerTakeEnd
  dsimp only
  exact ⟨_, c', b, m, by rw [h', h]; rfl⟩

/-- The four detectors at the end of a take, each by itself (08, R142). -/
theorem Part.detectorsTakeEnd_spec (e : Option Nat) (p : Part) : ∃ d c, p.detectorsTakeEnd e = { p with det := d, con := c }
    ∧ ∀ tr, d.get tr = (truncateDropout e (p.det.get tr) (p.con.get tr).spans).1
      ∧ c.get tr = { p.con.get tr with spans := (truncateDropout e (p.det.get tr) (p.con.get tr).spans).2 } := by
  have form (t : Track) (q : Part) : ∃ d c, q.trackTakeEnd e t = { q with det := d, con := c } := ⟨_, _, rfl⟩
  have other (t tr : Track) (q : Part) (h : tr ≠ t) :
      (q.trackTakeEnd e t).det.get tr = q.det.get tr ∧ (q.trackTakeEnd e t).con.get tr = q.con.get tr := by
    unfold Part.trackTakeEnd
    simp [PerTrack.get_set_other _ _ h]
  have same (t : Track) (q : Part) : (q.trackTakeEnd e t).det.get t = (truncateDropout e (q.det.get t) (q.con.get t).spans).1
      ∧ (q.trackTakeEnd e t).con.get t
          = { q.con.get t with spans := (truncateDropout e (q.det.get t) (q.con.get t).spans).2 } := by
    unfold Part.trackTakeEnd
    simp
  have whole : ∃ d c, p.detectorsTakeEnd e = { p with det := d, con := c } := by
    unfold Part.detectorsTakeEnd
    simp only [List.foldl_cons, List.foldl_nil]
    obtain ⟨d1, c1, e1⟩ := form .t1 p
    obtain ⟨d2, c2, e2⟩ := form .t2 (p.trackTakeEnd e .t1)
    obtain ⟨d3, c3, e3⟩ := form .t3 ((p.trackTakeEnd e .t1).trackTakeEnd e .t2)
    obtain ⟨d4, c4, e4⟩ := form .t4 (((p.trackTakeEnd e .t1).trackTakeEnd e .t2).trackTakeEnd e .t3)
    exact ⟨d4, c4, by rw [e4, e3, e2, e1]⟩
  obtain ⟨d, c, h⟩ := whole
  refine ⟨d, c, h, fun tr => ?_⟩
  have hd : d = (p.detectorsTakeEnd e).det := by rw [h]
  have hc : c = (p.detectorsTakeEnd e).con := by rw [h]
  rw [hd, hc]
  unfold Part.detectorsTakeEnd
  simp only [List.foldl_cons, List.foldl_nil]
  cases tr <;> simp [other, same]

/-- The teardown comes to the lanes with log, take control and lanes as they were, and every track's dropout truncated. -/
theorem Part.takeTeardown_lanes (u : Setup) (p : Part) (e : Option Nat) : ∃ q : Part,
    p.takeTeardown u e = (q.laneTakeEnd u .a).laneTakeEnd u .b ∧ q.log = p.log ∧ q.take = p.take ∧ q.lanes = p.lanes
      ∧ ∀ tr, q.det.get tr = (truncateDropout e (p.det.get tr) (p.con.get tr).spans).1
        ∧ q.con.get tr = { p.con.get tr with spans := (truncateDropout e (p.det.get tr) (p.con.get tr).spans).2 } := by
  obtain ⟨r1, c1, b1, m1, e1⟩ := p.trackerTakeEnd_spec u e .a
  obtain ⟨r2, c2, b2, m2, e2⟩ := (p.trackerTakeEnd u e .a).trackerTakeEnd_spec u e .b
  obtain ⟨x, hx⟩ : ∃ x, x = (p.trackerTakeEnd u e .a).trackerTakeEnd u e .b := ⟨_, rfl⟩
  have xs : x.log = p.log ∧ x.take = p.take ∧ x.lanes = p.lanes ∧ x.det = p.det ∧ x.con = p.con := by
    rw [hx, e2, e1]
    exact ⟨rfl, rfl, rfl, rfl, rfl⟩
  obtain ⟨x1, x2, x3, x4, x5⟩ := xs
  obtain ⟨d3, c3, e3, h3⟩ := ((x.alignerTakeEnd .a).alignerTakeEnd .b).detectorsTakeEnd_spec e
  refine ⟨Part.refind u (Part.detectorsTakeEnd e ((x.alignerTakeEnd .a).alignerTakeEnd .b)), ?_, ?_, ?_, ?_, fun tr => ?_⟩
  · unfold Part.takeTeardown
    rw [← hx]
  · rw [e3]; exact x1
  · rw [e3]; exact x2
  · rw [e3]; exact x3
  · rw [e3, ← x4, ← x5]
    exact h3 tr

/-- What the end of a take at raw index e makes of the span lists of lanes that do not finish, and of the log. -/
theorem Part.takeTeardown_spec (u : Setup) (p : Part) (e : Nat) (h : p.log.length ≤ 256)
    (hr : p.take.record.bind TakeRecord.endIndex = some e) (finishes : Lane → Prop) [∀ l, Decidable (finishes l)]
    (hf : ∀ l, finishes l ↔ (p.lanes.get l).state = .active ∧ e < (p.lanes.get l).acc / 16777216 + 32)
    (closed : Track → List Span) (hc : ∀ tr, closed tr = (truncateDropout (some e) (p.det.get tr) (p.con.get tr).spans).2) :
    (∀ tr, (p.takeTeardown u (some e)).det.get tr = (truncateDropout (some e) (p.det.get tr) (p.con.get tr).spans).1)
    ∧ (∀ tr, ¬finishes tr.lane → (p.takeTeardown u (some e)).con.get tr = { p.con.get tr with spans := closed tr })
    ∧ (p.takeTeardown u (some e)).log
        = (p.log ++ (if finishes .a then (closed .t1 ++ closed .t2).map Span.toRecord else [])
            ++ (if finishes .b then (closed .t3 ++ closed .t4).map Span.toRecord else [])).take 256 := by
  obtain ⟨q, hq, q1, q2, q3, q4⟩ := p.takeTeardown_lanes u (some e)
  rw [hq]
  obtain ⟨ca, ba, ma, cona, xa, ea, fa, ga⟩ := q.laneTakeEnd_spec u .a e (by rw [q1]; exact h) (by rw [q2]; exact hr) (finishes .a)
    (by rw [q3]; exact hf .a)
  obtain ⟨cb, bb, mb, conb, xb, eb, fb, gb⟩ := (q.laneTakeEnd u .a).laneTakeEnd_spec u .b e (by rw [ea]; simp)
    (by rw [ea]; rw [← q2] at hr; exact hr) (finishes .b) (by
      rw [ea]
      show _ ↔ (q.lanes.get .b).state = _ ∧ e < (q.lanes.get .b).acc / _ + 32
      rw [q3]
      exact hf .b)
  rw [eb]
  have base (tr : Track) : q.con.get tr = { p.con.get tr with spans := closed tr } := by rw [(q4 tr).2, hc]
  refine ⟨fun tr => ?_, fun tr hn => ?_, ?_⟩
  · show (q.laneTakeEnd u .a).det.get tr = _
    rw [ea]
    exact (q4 tr).1
  · show conb.get tr = _
    cases hl : tr.lane <;> rw [hl] at hn
    · rw [fb tr (by rw [hl]; simp), ea]
      show cona.get tr = _
      rw [ga hn, base]
    · rw [gb hn, ea]
      show cona.get tr = _
      rw [fa tr (by rw [hl]; simp), base]
  · rw [ea]
    dsimp only
    rw [fa _ (by rw [Lane.first_lane]; simp), fa _ (by rw [Lane.second_lane]; simp), q1]
    simp only [base]
    rw [take_append_take]
    rfl

end Sys2Proof.Machine
end

