-- ==== Sys2Proof/Laws/Steps.lean ====
section
/-! SUPPORT. A production step, said once: when a lane may take one, what its records, its two tracks' concealment, its sample frame and its advance make of the part, and what a finish leaves. -/

namespace Sys2Proof.Machine

open Sys2Proof.Safety

/-- A lane can take a production step exactly under the conditions of R107 and R117 (06). -/
theorem Part.canStep_iff (p : Part) (l : Lane) : p.canStep l = true ↔ mayStep p l := by
  unfold Part.canStep mayStep Producer.index Config.q24 Config.horizon Config.reach Config.maxFifo
  generalize p.lanes.get l = x
  obtain ⟨state, acc, count, mark, applied, az, settings, governing, timeline, fifo⟩ := x
  cases state
  · simp
  · simp
  · cases hr : p.take.record with
    | none => simp
    | some r => cases he : r.endIndex <;> simp [he]

/-- The records of spans passed go into the log, the first track's before the second's, and the spans out of their lists (08, R151). -/
theorem Part.writePassed_spec (u : Setup) (l : Lane) (p : Part) (h : p.log.length ≤ 256) (x : Producer) (hx : x = p.lanes.get l) :
    ∃ c b m con, p.writePassed u l = { p with
      con := con,
      log := (p.log ++ (((p.con.get l.first).spans.filter (Span.passed (x.trackIndex false))).map Span.toRecord
        ++ ((p.con.get l.second).spans.filter (Span.passed (x.trackIndex true))).map Span.toRecord)).take 256,
      cmn := c, stopPending := b, msp := { p.msp with notices := m } }
    ∧ con.get l.first = { p.con.get l.first with
        spans := (p.con.get l.first).spans.filter fun s => !Span.passed (x.trackIndex false) s }
    ∧ con.get l.second = { p.con.get l.second with
        spans := (p.con.get l.second).spans.filter fun s => !Span.passed (x.trackIndex true) s }
    ∧ ∀ t : Track, t.lane ≠ l → con.get t = p.con.get t := by
  subst hx
  have hne := Lane.first_ne_second l
  obtain ⟨c, b, m, e⟩ := p.writeSpans_spec u l.first (Span.passed ((p.lanes.get l).trackIndex false)) h
  obtain ⟨c', b', m', e'⟩ := (p.writeSpans u l.first (Span.passed ((p.lanes.get l).trackIndex false))).writeSpans_spec u l.second
    (Span.passed ((p.lanes.get l).trackIndex true)) (by rw [e]; simp)
  refine ⟨c', b', m', (p.con.set l.first { p.con.get l.first with
      spans := (p.con.get l.first).spans.filter fun s => !Span.passed ((p.lanes.get l).trackIndex false) s }).set l.second
    { p.con.get l.second with
      spans := (p.con.get l.second).spans.filter fun s => !Span.passed ((p.lanes.get l).trackIndex true) s }, ?_, ?_, ?_, ?_⟩
  · unfold Part.writePassed
    dsimp only
    rw [e', e]
    simp [PerTrack.get_set_other _ _ hne.symm, take_append_take]
  · rw [PerTrack.get_set_other _ _ hne]; simp
  · simp
  · intro t ht
    rw [PerTrack.get_set_other, PerTrack.get_set_other] <;> rintro rfl <;> simp at ht

/-- The same of the span lists and conditions alone, whatever the log holds (08, R151). -/
theorem Part.writePassed_touch (u : Setup) (l : Lane) (p : Part) (x : Producer) (hx : x = p.lanes.get l) : ∃ g c b m con,
    p.writePassed u l = { p with con := con, log := g, cmn := c, stopPending := b, msp := { p.msp with notices := m } }
      ∧ con.get l.first = { p.con.get l.first with
          spans := (p.con.get l.first).spans.filter fun s => !Span.passed (x.trackIndex false) s }
      ∧ con.get l.second = { p.con.get l.second with
          spans := (p.con.get l.second).spans.filter fun s => !Span.passed (x.trackIndex true) s }
      ∧ (∀ t : Track, t.lane ≠ l → con.get t = p.con.get t)
      ∧ (∀ id, id ≠ .logFull → c.get id = p.cmn.get id) ∧ (neverStops u.policies.logFull → b = p.stopPending) := by
  subst hx
  exact p.writeBoth_touch u l _ _

/-- A lane's index lies within a span that it has not passed, and within no span that it has passed. -/
theorem Span.holds_not_passed (s : Span) (index : Int) (h : s.holds index = true) : s.passed index = false := by
  unfold Span.holds at h
  unfold Span.passed
  cases hl : s.last
  · rfl
  · simp [hl] at h
    simp
    omega

/-- Taking passed spans out of a list changes nothing about what lies within it. -/
theorem insideSpans_kept (spans : List Span) (index : Int) :
    insideSpans index (spans.filter fun s => !s.passed index) = insideSpans index spans := by
  unfold insideSpans
  rw [Bool.eq_iff_iff, List.any_eq_true, List.any_eq_true]
  constructor
  · rintro ⟨s, hs, h⟩
    exact ⟨s, (List.mem_filter.mp hs).1, h⟩
  · rintro ⟨s, hs, h⟩
    exact ⟨s, List.mem_filter.mpr ⟨hs, by simp [s.holds_not_passed index h]⟩, h⟩

/-- What a report of saturation does: one condition record, notices, and a stop request only where CLIP's policy makes one. -/
theorem Part.clipReport_spec (u : Setup) (l : Lane) (a b : Int) (p : Part) : ∃ c k m,
    p.clipReport u l a b = { p with cmn := c, stopPending := k, msp := { p.msp with notices := m } }
      ∧ (∀ id, id ≠ .clip l → c.get id = p.cmn.get id) ∧ (neverStops (u.policies.get (.clip l)) → k = p.stopPending)
      ∧ (∀ n : Notice, n.content.kind ≠ .conditionRaised → (n ∈ m ↔ n ∈ p.msp.notices)) := by
  unfold Part.clipReport
  split
  · unfold Part.clipOccur
    have set : ∀ q : Part, ∃ c m, q.setFlag (.clip l) = { q with cmn := c, msp := { q.msp with notices := m } }
        ∧ (∀ id, id ≠ .clip l → c.get id = q.cmn.get id)
        ∧ (∀ n : Notice, n.content.kind ≠ .conditionRaised → (n ∈ m ↔ n ∈ q.msp.notices)) := by
      intro q
      obtain ⟨c, m, e, -, -, -, ho, hm⟩ := q.setFlag_spec (.clip l)
      refine ⟨c, m, e, ho, fun n hn => ?_⟩
      rw [hm]
      split
      · rfl
      · exact postNotice_other _ _ _ (by simpa [NoticeContent.kind] using hn)
    obtain ⟨c, m, e, ho, hm⟩ := set (p.setStatus (.clip l) { p.cmn.get (.clip l) with hold := Config.clipHold })
    have so (id : CondId) (h : id ≠ .clip l) : c.get id = p.cmn.get id := (ho id h).trans (PerCond.get_set_other _ _ h)
    unfold Part.raise
    dsimp only
    rw [e]
    split
    · exact ⟨c, true, m, rfl, so, fun h => absurd ‹_› h.1, hm⟩
    · split
      · exact ⟨c, _, m, rfl, so, fun _ => rfl, hm⟩
      · exact ⟨c, true, m, rfl, so, fun h => absurd ⟨‹_›, ‹_›⟩ h.2, hm⟩
    · exact ⟨c, _, m, rfl, so, fun _ => rfl, hm⟩
    · exact ⟨c, _, m, rfl, so, fun _ => rfl, hm⟩
    · exact ⟨_, _, p.msp.notices, rfl, fun id h => PerCond.get_set_other _ _ h, fun _ => rfl, fun _ _ => Iff.rfl⟩
  · unfold Part.clipLower
    dsimp only
    split
    · exact ⟨p.cmn, p.stopPending, p.msp.notices, rfl, fun _ _ => rfl, fun _ => rfl, fun _ _ => Iff.rfl⟩
    · unfold Part.clipExpire
      dsimp only
      split
      · exact ⟨_, p.stopPending, p.msp.notices, rfl,
          fun id h => (PerCond.get_set_other _ _ h).trans (PerCond.get_set_other _ _ h), fun _ => rfl, fun _ _ => Iff.rfl⟩
      · exact ⟨_, p.stopPending, p.msp.notices, rfl, fun id h => PerCond.get_set_other _ _ h, fun _ => rfl, fun _ _ => Iff.rfl⟩

/-- A frame made: the two tracks' concealment records, the sample frame behind the others of the FIFO, the frame count and the mark,
and the report of saturation; a stop request only where CLIP's policy makes one. -/
theorem Part.makeFrame_spec (u : Setup) (rings : Rings) (bank : LoadedBank) (l : Lane) (p : Part) (x : Producer)
    (hx : x = p.lanes.get l) (own1 own2 : Int) (h1 : own1 = saturate24 (x.firstValue u rings bank l))
    (h2 : own2 = saturate24 (x.secondValue u rings bank l)) (r1 r2 : Concealer × TrackPart)
    (hr1 : r1 = concealTrack x.settings (p.muted u l) x.frameCount own1 own2 (x.trackIndex false) (x.trackIndex true)
      (p.con.get l.second).spans (p.con.get l.first))
    (hr2 : r2 = concealTrack x.settings (p.muted u l) x.frameCount own2 own1 (x.trackIndex true) (x.trackIndex false)
      (p.con.get l.first).spans (p.con.get l.second)) : ∃ c k m,
    p.makeFrame u rings bank l = { p with
      con := (p.con.set l.first r1.1).set l.second r2.1,
      lanes := p.lanes.set l { x with
        fifo := x.fifo ++ [⟨l, x.frameCount % 65536, r1.2, r2.2, (p.rft.get l).lock, p.muted u l, x.mark, p.monitorValue u,
          p.take.number % 256⟩],
        frameCount := x.frameCount + 1, mark := false },
      cmn := c, stopPending := k, msp := { p.msp with notices := m } }
    ∧ (∀ id, id ≠ .clip l → c.get id = p.cmn.get id) ∧ (neverStops (u.policies.get (.clip l)) → k = p.stopPending)
    ∧ (∀ n : Notice, n.content.kind ≠ .conditionRaised → (n ∈ m ↔ n ∈ p.msp.notices)) := by
  subst hx h1 h2 hr1 hr2
  unfold Part.makeFrame
  exact Part.clipReport_spec u l _ _ _

/-- The second track's value with the row of its own fraction, written out (06, R112). -/
theorem Producer.secondValue_eq (u : Setup) (rings : Rings) (bank : LoadedBank) (l : Lane) (x : Producer) :
    x.secondValue u rings bank l = convolve (bankRow u bank ((x.acc + x.az * 65536) % 16777216 / 65536).toNat) rings l.second
      ((x.acc + x.az * 65536) / 16777216) := by
  have row : ((x.acc + x.az * 65536) % 16777216).toNat / 65536 = ((x.acc + x.az * 65536) % 16777216 / 65536).toNat := by omega
  rw [← row]
  rfl

/-- A DRAINING lane with nothing left to make finishes: IDLE, timeline and span lists empty (06, R118; 05, R102; 08, R151). Any other
lane stays as it is. -/
theorem Part.finishIfDone_spec (u : Setup) (l : Lane) (p : Part) (finishes : Prop)
    (hf : finishes ↔ (p.lanes.get l).state = .draining ∧ ∀ r, p.take.record = some r → ∀ e, r.endIndex = some e →
      e < (p.lanes.get l).acc / 16777216 + 32) :
    (¬finishes → p.finishIfDone u l = p)
    ∧ (finishes → ∃ g c b m con, p.finishIfDone u l = { p with
          con := con, lanes := p.lanes.set l { p.lanes.get l with state := .idle, timeline := [] },
          log := g, cmn := c, stopPending := b, msp := { p.msp with notices := m } }
        ∧ (∀ t : Track, t.lane = l → con.get t = { p.con.get t with spans := [] })
        ∧ (∀ t : Track, t.lane ≠ l → con.get t = p.con.get t)
        ∧ (∀ id, id ≠ .logFull → c.get id = p.cmn.get id) ∧ (neverStops u.policies.logFull → b = p.stopPending)) := by
  obtain ⟨g, c, b, m, con, e, h1, h2, h3, ho, hb⟩ := p.writeBoth_touch u l (fun _ => true) (fun _ => true)
  have done : p.finishLane u l = { p with
      con := con, lanes := p.lanes.set l { p.lanes.get l with state := .idle, timeline := [] },
      log := g, cmn := c, stopPending := b, msp := { p.msp with notices := m } } := by
    unfold Part.finishLane Part.writeAll
    dsimp only
    rw [e]
    rfl
  have con' (t : Track) (ht : t.lane = l) : con.get t = { p.con.get t with spans := [] } := by
    rcases Lane.track_cases ht with rfl | rfl
    · rw [h1]; simp
    · rw [h2]; simp
  unfold Part.finishIfDone Producer.index Config.reach Config.q24
  dsimp only
  by_cases hd : (p.lanes.get l).state = .draining
  · rw [if_pos hd]
    cases hr : p.take.record with
    | none =>
      have yes : finishes := hf.mpr ⟨hd, by simp [hr]⟩
      exact ⟨fun k => absurd yes k, fun _ => ⟨g, c, b, m, con, done, con', h3, ho, hb⟩⟩
    | some r =>
      cases he : r.endIndex with
      | none =>
        have yes : finishes := hf.mpr ⟨hd, by simp [hr, he]⟩
        exact ⟨fun k => absurd yes k, fun _ => ⟨g, c, b, m, con, by simp [he, done], con', h3, ho, hb⟩⟩
      | some x =>
        by_cases hx : x < (p.lanes.get l).acc / 16777216 + 32
        · have yes : finishes := hf.mpr ⟨hd, by intro q hq y hy; rw [hr] at hq; cases hq; rw [he] at hy; cases hy; exact hx⟩
          exact ⟨fun k => absurd yes k, fun _ => ⟨g, c, b, m, con, by simp [he, hx, done], con', h3, ho, hb⟩⟩
        · have no : ¬finishes := fun k => hx ((hf.mp k).2 r hr x he)
          exact ⟨fun _ => by simp [he, hx], fun k => absurd k no⟩
  · rw [if_neg hd]
    have no : ¬finishes := fun k => hd (hf.mp k).1
    exact ⟨fun _ => rfl, fun k => absurd k no⟩

/-- The close of a take changes take control and the notices alone (09, R163). -/
theorem Part.closeTake_spec (p : Part) : ∃ k m, p.closeTake = { p with take := k, msp := { p.msp with notices := m } } := by
  unfold Part.closeTake
  split
  · split
    · exact ⟨_, _, rfl⟩
    · exact ⟨p.take, p.msp.notices, rfl⟩
  · exact ⟨p.take, p.msp.notices, rfl⟩

end Sys2Proof.Machine
end

