-- ==== Sys2Proof/Laws/TakeEnd.lean ====
section
/-! SUPPORT. The end of a take, said once for the blocks that work inside one: what it leaves of each tracker, lane and aligner half, of the current entry, and which notices it posts. -/

namespace Sys2Proof.Machine

open Sys2Proof.Safety

/-! ## Notices that writing records leaves alone -/

/-- A notice that neither a condition nor the dropout log posts. -/
def NoticeKind.apart : NoticeKind → Prop
  | .conditionRaised | .logHigh => False
  | .transportDone | .takeStarted | .takeEnded | .segmentEntered | .lockChangedA | .lockChangedB | .cassetteChanged | .surveyDone => True

theorem Part.raise_notices (u : Setup) (id : CondId) (p : Part) (n : Notice) (h : n.content.kind ≠ .conditionRaised) :
    n ∈ (p.raise u id).msp.notices ↔ n ∈ p.msp.notices := by
  have flag : n ∈ (p.setFlag id).msp.notices ↔ n ∈ p.msp.notices := by
    obtain ⟨c, m, e, -, -, -, -, hm⟩ := p.setFlag_spec id
    rw [e]
    show n ∈ m ↔ _
    rw [hm]
    split
    · rfl
    · exact postNotice_other _ _ _ (by simpa [NoticeContent.kind] using h)
  unfold Part.raise
  dsimp only
  split <;> (try split) <;> first | exact flag | exact Iff.rfl

theorem Part.logRecord_notices (u : Setup) (r : DropoutRecord) (p : Part) (n : Notice) (h : n.content.kind.apart) :
    n ∈ (p.logRecord u r).msp.notices ↔ n ∈ p.msp.notices := by
  have h1 : n.content.kind ≠ .conditionRaised := fun k => by rw [k] at h; exact h
  have h2 : n.content.kind ≠ .logHigh := fun k => by rw [k] at h; exact h
  unfold Part.logRecord
  dsimp only
  split
  · split
    · exact postNotice_other _ _ _ (by simpa [NoticeContent.kind] using h2)
    · exact Iff.rfl
  · exact Part.raise_notices u .logFull p n h1

theorem Part.writeSpans_notices (u : Setup) (t : Track) (pick : Span → Bool) (p : Part) (n : Notice) (h : n.content.kind.apart) :
    n ∈ (p.writeSpans u t pick).msp.notices ↔ n ∈ p.msp.notices := by
  have fold (rs : List DropoutRecord) (q : Part) :
      n ∈ (rs.foldl (fun p r => p.logRecord u r) q).msp.notices ↔ n ∈ q.msp.notices := by
    induction rs generalizing q with
    | nil => exact Iff.rfl
    | cons r rs ih => exact (ih _).trans (q.logRecord_notices u r n h)
  exact fold _ _

theorem Part.laneTakeEnd_notices (u : Setup) (l : Lane) (p : Part) (n : Notice) (h : n.content.kind.apart) :
    n ∈ (p.laneTakeEnd u l).msp.notices ↔ n ∈ p.msp.notices := by
  have all (q : Part) : n ∈ (q.finishLane u l).msp.notices ↔ n ∈ q.msp.notices :=
    ((q.writeSpans u l.first fun _ => true).writeSpans_notices u l.second (fun _ => true) n h).trans
      (q.writeSpans_notices u l.first (fun _ => true) n h)
  unfold Part.laneTakeEnd Part.finishIfDone
  dsimp only
  split
  · split
    · split
      · split
        · exact all _
        · exact Iff.rfl
      · exact all _
    · exact Iff.rfl
  · exact Iff.rfl

/-! ## Each block -/

/-- A tracker at the end of a take is IDLE with no mode and S kept; a change of lock state posts LOCK_CHANGED with the end raw index, and
LOCK_LOST and RANGE are absent (04, R77; 05, R89). -/
theorem Part.trackerTakeEnd_exact (u : Setup) (e : Option Nat) (l : Lane) (p : Part) : ∃ c m,
    p.trackerTakeEnd u e l = { p with
      rft := p.rft.set l { p.rft.get l with lock := .idle, mode := .none }, cmn := c, msp := { p.msp with notices := m } }
    ∧ (m = if (p.rft.get l).lock = .idle then p.msp.notices else
        postNotice (.lockChanged l (p.rft.get l).lock .idle e (p.rft.get l).step) p.msp.notices)
    ∧ ((p.rft.get l).lock ≠ .idle → (c.lockLost.get l).present = false) ∧ (c.range.get l).present = false
    ∧ ∀ id, id ≠ .lockLost l → id ≠ .range l → c.get id = p.cmn.get id := by
  obtain ⟨c, b, m, h, h1, h2, -, h4⟩ := p.changeLock_spec u l .idle e
  obtain ⟨rfl, rfl⟩ := h4 (by simp)
  obtain ⟨c', h', k1, -, -, k4⟩ := Part.reportAbsent_spec u (.range l) (p.changeLock u l .idle e)
  refine ⟨c', _, ?_, rfl, fun hl => ?_, k1, fun id i1 i2 => ?_⟩
  · unfold Part.trackerTakeEnd
    dsimp only
    rw [h', h]
    simp [Part.setTracker]
  · have := k4 (.lockLost l) (by simp)
    show (c'.get (.lockLost l)).present = false
    rw [this, h]
    exact h1 hl
  · rw [k4 id i2, h]
    exact h2 id i1

/-- A lane at the end of a take: an ACTIVE one drains, or finishes at once where it has no point left to make; another stays
(06, R117, R118). -/
theorem Part.laneTakeEnd_lane (u : Setup) (l : Lane) (p : Part) (spent : Prop)
    (hs : spent ↔ ∀ r, p.take.record = some r → ∀ e, r.endIndex = some e → e < (p.lanes.get l).acc / 16777216 + 32) : ∃ g c b m con x,
    p.laneTakeEnd u l = { p with
      con := con, lanes := p.lanes.set l x, log := g, cmn := c, stopPending := b, msp := { p.msp with notices := m } }
    ∧ ((p.lanes.get l).state = .active → spent → x = { p.lanes.get l with state := .idle, timeline := [] })
    ∧ ((p.lanes.get l).state = .active → ¬spent → x = { p.lanes.get l with state := .draining })
    ∧ ((p.lanes.get l).state ≠ .active → x = p.lanes.get l)
    ∧ ∀ id, id ≠ .logFull → c.get id = p.cmn.get id := by
  unfold Part.laneTakeEnd
  dsimp only
  split
  · rename_i ha
    obtain ⟨no, yes⟩ := (p.setProducer l { p.lanes.get l with state := .draining }).finishIfDone_spec u l spent (by simpa using hs)
    by_cases k : spent
    · obtain ⟨g, c, b, m, con, e, -, -, ho, -⟩ := yes k
      exact ⟨g, c, b, m, con, { p.lanes.get l with state := .idle, timeline := [] }, by rw [e]; simp [Part.setProducer],
        fun _ _ => rfl, fun _ h => absurd k h, fun h => absurd ha h, ho⟩
    · exact ⟨p.log, p.cmn, p.stopPending, p.msp.notices, p.con, _, by rw [no k]; rfl, fun _ h => absurd h k, fun _ _ => rfl,
        fun h => absurd ha h, fun _ _ => rfl⟩
  · rename_i ha
    exact ⟨p.log, p.cmn, p.stopPending, p.msp.notices, p.con, p.lanes.get l, by rw [PerLane.set_get], fun h => absurd h ha,
      fun h => absurd h ha, fun _ => rfl, fun _ _ => rfl⟩

/-! ## All of them -/

/-- What the end of a take leaves of lane l, of the current and governing entries, and of the notices (04, R77; 05, R89; 06, R117, R118;
07, R131; 03, R58). -/
structure Part.LaneEnds (u : Setup) (endIndex : Option Nat) (l : Lane) (p q : Part) : Prop where
  rft : q.rft.get l = { p.rft.get l with lock := .idle, mode := .none }
  lockLost : (p.rft.get l).lock ≠ .idle → (q.cmn.lockLost.get l).present = false
  range : (q.cmn.range.get l).present = false
  aza : q.aza.get l = { p.aza.get l with running := false, window := none }
  sgt : q.sgt = ⟨currentAt u.entries p.pos.position, ⟨governingAt u.entries (currentAt u.entries p.pos.position) .a,
    governingAt u.entries (currentAt u.entries p.pos.position) .b⟩⟩
  changed : (p.rft.get l).lock ≠ .idle →
    ∃ n ∈ q.msp.notices, n.content = .lockChanged l (p.rft.get l).lock .idle endIndex (p.rft.get l).step
  unchanged : (p.rft.get l).lock = .idle → ∀ n : Notice,
    n.content.kind = (match l with | .a => .lockChangedA | .b => .lockChangedB) → (n ∈ q.msp.notices ↔ n ∈ p.msp.notices)
  stays : (p.lanes.get l).state ≠ .active → q.lanes.get l = p.lanes.get l
  lane : ∀ spent : Prop, (spent ↔ ∀ r, p.take.record = some r → ∀ e, r.endIndex = some e → e < (p.lanes.get l).acc / 16777216 + 32) →
    ((p.lanes.get l).state = .active → spent → q.lanes.get l = { p.lanes.get l with state := .idle, timeline := [] })
      ∧ ((p.lanes.get l).state = .active → ¬spent → q.lanes.get l = { p.lanes.get l with state := .draining })

theorem Part.takeTeardown_laneEnds (u : Setup) (endIndex : Option Nat) (l : Lane) (p : Part) :
    p.LaneEnds u endIndex l (p.takeTeardown u endIndex) := by
  obtain ⟨c1, m1, e1, n1, a1, a2, a3⟩ := p.trackerTakeEnd_exact u endIndex .a
  obtain ⟨c2, m2, e2, n2, b1, b2, b3⟩ := (p.trackerTakeEnd u endIndex .a).trackerTakeEnd_exact u endIndex .b
  obtain ⟨x, hx⟩ : ∃ x, x = (p.trackerTakeEnd u endIndex .a).trackerTakeEnd u endIndex .b := ⟨_, rfl⟩
  obtain ⟨d, con, e3, -⟩ := ((x.alignerTakeEnd .a).alignerTakeEnd .b).detectorsTakeEnd_spec endIndex
  obtain ⟨q, hq⟩ : ∃ q, q = (Part.detectorsTakeEnd endIndex ((x.alignerTakeEnd .a).alignerTakeEnd .b)).refind u := ⟨_, rfl⟩
  have whole : p.takeTeardown u endIndex = (q.laneTakeEnd u .a).laneTakeEnd u .b := by
    unfold Part.takeTeardown
    rw [hq, hx]
  have base : q.lanes = p.lanes ∧ q.take = p.take ∧ q.rft = x.rft ∧ q.cmn = x.cmn ∧ q.msp = x.msp ∧ q.pos = p.pos
      ∧ q.aza = ((x.alignerTakeEnd .a).alignerTakeEnd .b).aza ∧ x.aza = p.aza := by
    rw [hq, e3, hx, e2, e1]
    exact ⟨rfl, rfl, rfl, rfl, rfl, rfl, rfl, rfl⟩
  obtain ⟨q1, q2, q3, q4, q5, q6, q7, q8⟩ := base
  obtain ⟨g4, c4, k4, m4, con4, x4, e4, la1, la2, la3, o4⟩ := q.laneTakeEnd_lane u .a _ Iff.rfl
  obtain ⟨g5, c5, k5, m5, con5, x5, e5, lb1, lb2, lb3, o5⟩ := (q.laneTakeEnd u .a).laneTakeEnd_lane u .b _ Iff.rfl
  have kept : (p.takeTeardown u endIndex).rft = x.rft ∧ (p.takeTeardown u endIndex).aza = q.aza
      ∧ (p.takeTeardown u endIndex).sgt = q.sgt ∧ (p.takeTeardown u endIndex).lanes = (p.lanes.set .a x4).set .b x5 := by
    rw [whole, e5, e4]
    exact ⟨q3, rfl, rfl, by rw [← q1]⟩
  obtain ⟨w1, w2, w3, w4⟩ := kept
  have cond (id : CondId) (h : id ≠ .logFull) : (p.takeTeardown u endIndex).cmn.get id = x.cmn.get id := by
    rw [whole, e5]
    show c5.get id = _
    rw [o5 id h, e4]
    show c4.get id = _
    rw [o4 id h, q4]
  have note (n : Notice) (h : n.content.kind.apart) : n ∈ (p.takeTeardown u endIndex).msp.notices ↔ n ∈ x.msp.notices := by
    rw [whole, Part.laneTakeEnd_notices u .b _ n h, Part.laneTakeEnd_notices u .a _ n h, q5]
  have xm : x.msp.notices = m2 ∧ x.cmn = c2 ∧ x.rft = (p.rft.set .a { p.rft.get .a with lock := .idle, mode := .none }).set .b
      { p.rft.get .b with lock := .idle, mode := .none } := by
    rw [hx, e2, e1]
    exact ⟨rfl, rfl, rfl⟩
  obtain ⟨xm, xc, xr⟩ := xm
  have rb : (p.trackerTakeEnd u endIndex .a).rft.get .b = p.rft.get .b := by rw [e1]; rfl
  have nb : (p.trackerTakeEnd u endIndex .a).msp.notices = m1 := by rw [e1]
  have cb : (p.trackerTakeEnd u endIndex .a).cmn = c1 := by rw [e1]
  rw [rb, nb] at n2
  rw [rb] at b1
  rw [cb] at b3
  have sgt : q.sgt = ⟨currentAt u.entries p.pos.position, ⟨governingAt u.entries (currentAt u.entries p.pos.position) .a,
      governingAt u.entries (currentAt u.entries p.pos.position) .b⟩⟩ := by
    have hp : (Part.detectorsTakeEnd endIndex ((x.alignerTakeEnd .a).alignerTakeEnd .b)).pos = p.pos := by rw [← q6, hq]; rfl
    rw [hq]
    show (⟨_, _⟩ : SegmentState) = _
    rw [hp]
  have aside : ∀ l : Lane, (match l with | .a => NoticeKind.lockChangedA | .b => NoticeKind.lockChangedB).apart := by
    intro l; cases l <;> trivial
  have present (id : CondId) (h : id ≠ .logFull) (k : (x.cmn.get id).present = false) :
      ((p.takeTeardown u endIndex).cmn.get id).present = false := by rw [cond id h]; exact k
  cases l
  · refine ⟨by rw [w1, xr]; rfl, fun h => present (.lockLost .a) (by simp) ?_, present (.range .a) (by simp) ?_, ?_, by rw [w3, sgt],
      fun h => ?_, fun h n hn => ?_, fun h => ?_, fun spent hs => ⟨fun h k => ?_, fun h k => ?_⟩⟩
    · rw [xc, b3 _ (by simp) (by simp)]; exact a1 h
    · rw [xc, b3 _ (by simp) (by simp)]; exact a2
    · rw [w2, q7, ← q8]; rfl
    · obtain ⟨n, hn, e⟩ := postNotice_mem (.lockChanged .a (p.rft.get .a).lock .idle endIndex (p.rft.get .a).step) p.msp.notices
        (by simp [NoticeContent.kind])
      refine ⟨n, (note n (by rw [e]; trivial)).mpr ?_, e⟩
      rw [xm, n2]
      split
      · rw [n1, if_neg h]; exact hn
      · rw [postNotice_other _ _ _ (by rw [e]; simp [NoticeContent.kind]), n1, if_neg h]; exact hn
    · rw [note n (by rw [hn]; exact aside .a), xm, n2]
      split
      · rw [n1, if_pos h]
      · rw [postNotice_other _ _ _ (by rw [hn]; simp [NoticeContent.kind]), n1, if_pos h]
    · rw [w4]
      show x4 = _
      rw [← q1] at h ⊢
      exact la3 h
    · rw [w4]
      show x4 = _
      rw [← q1] at h hs ⊢
      rw [← q2] at hs
      exact la1 h (hs.mp k)
    · rw [w4]
      show x4 = _
      rw [← q1] at h hs ⊢
      rw [← q2] at hs
      exact la2 h fun y => k (hs.mpr y)
  · have lane : (q.laneTakeEnd u .a).lanes.get .b = p.lanes.get .b ∧ (q.laneTakeEnd u .a).take = p.take := by
      rw [e4]
      exact ⟨by rw [← q1]; rfl, q2⟩
    rw [lane.1] at lb1 lb2 lb3
    rw [lane.2] at lb1 lb2
    refine ⟨by rw [w1, xr]; rfl, fun h => present (.lockLost .b) (by simp) ?_, present (.range .b) (by simp) ?_, ?_, by rw [w3, sgt],
      fun h => ?_, fun h n hn => ?_, fun h => ?_, fun spent hs => ⟨fun h k => ?_, fun h k => ?_⟩⟩
    · rw [xc]; exact b1 h
    · rw [xc]; exact b2
    · rw [w2, q7, ← q8]; rfl
    · obtain ⟨n, hn, e⟩ := postNotice_mem (.lockChanged .b (p.rft.get .b).lock .idle endIndex (p.rft.get .b).step) m1
        (by simp [NoticeContent.kind])
      exact ⟨n, (note n (by rw [e]; trivial)).mpr (by rw [xm, n2, if_neg h]; exact hn), e⟩
    · rw [note n (by rw [hn]; exact aside .b), xm, n2, if_pos h, n1]
      split
      · rfl
      · rw [postNotice_other _ _ _ (by rw [hn]; simp [NoticeContent.kind])]
    · rw [w4]; exact lb3 h
    · rw [w4]; exact lb1 h (hs.mp k)
    · rw [w4]; exact lb2 h fun y => k (hs.mpr y)

/-- The event that ends a running take is the end of a take on the part with its transport settling and SLIP absent. -/
theorem Part.endOperation_takeEnd (u : Setup) (c : TakeCause) (p : Part) (hk : p.trc.op.kind = .take) (he : p.trc.op.ending = none) :
    ∃ k t, p.endOperation u (.cause c) = { p with cmn := k, trc := t }.takeEnd u c ∧ ∀ id, id ≠ .slip → k.get id = p.cmn.get id := by
  unfold Part.endOperation
  rw [if_neg (by simp [hk, he])]
  generalize ({ p.trc.op with phase := none, ending := some (Ending.cause c) } : OpRecord) = q
  obtain ⟨k, t, eq, -, -, -, -, -, ho, -⟩ := (p.setOp q).enterSettling_parts u
  refine ⟨k, t, ?_, ho⟩
  simp only [eq, hk]
  rfl

/-- A lane at the end of a take, for the span lists: those of a lane that finishes are emptied, every other one stays (06, R118; 08, R151). -/
theorem Part.laneTakeEnd_con (u : Setup) (l : Lane) (p : Part) (tr : Track) (spent : Prop)
    (hs : spent ↔ ∀ r, p.take.record = some r → ∀ e, r.endIndex = some e → e < (p.lanes.get l).acc / 16777216 + 32) :
    (p.laneTakeEnd u l).det = p.det
    ∧ (tr.lane = l → (p.lanes.get l).state = .active → spent → ((p.laneTakeEnd u l).con.get tr).spans = [])
    ∧ ((tr.lane ≠ l ∨ (p.lanes.get l).state ≠ .active ∨ ¬spent) → (p.laneTakeEnd u l).con.get tr = p.con.get tr) := by
  unfold Part.laneTakeEnd
  dsimp only
  split
  · rename_i ha
    obtain ⟨no, yes⟩ := (p.setProducer l { p.lanes.get l with state := .draining }).finishIfDone_spec u l spent (by simpa using hs)
    by_cases k : spent
    · obtain ⟨g, c, b, m, con, e, h1, h2, -⟩ := yes k
      rw [e]
      refine ⟨rfl, fun ht _ _ => by simp [h1 tr ht], fun h => ?_⟩
      rcases h with h | h | h
      · exact h2 tr h
      · exact absurd ha h
      · exact absurd k h
    · rw [no k]
      exact ⟨rfl, fun _ _ h => absurd h k, fun _ => rfl⟩
  · rename_i ha
    exact ⟨rfl, fun _ h => absurd h ha, fun _ => rfl⟩

/-- What the end of a take leaves of a track's detector and span list (08, R142; 06, R118). -/
theorem Part.takeTeardown_track (u : Setup) (e : Option Nat) (p : Part) (tr : Track) (spent : Prop)
    (hs : spent ↔ ∀ r, p.take.record = some r → ∀ e, r.endIndex = some e → e < (p.lanes.get tr.lane).acc / 16777216 + 32) :
    (p.takeTeardown u e).det.get tr = (truncateDropout e (p.det.get tr) (p.con.get tr).spans).1
    ∧ ((p.lanes.get tr.lane).state = .active → spent → ((p.takeTeardown u e).con.get tr).spans = [])
    ∧ (((p.lanes.get tr.lane).state ≠ .active ∨ ¬spent) → (p.takeTeardown u e).con.get tr
        = { p.con.get tr with spans := (truncateDropout e (p.det.get tr) (p.con.get tr).spans).2 }) := by
  obtain ⟨q, hq, -, q2, q3, q4⟩ := p.takeTeardown_lanes u e
  obtain ⟨d, c⟩ := q4 tr
  rw [hq]
  obtain ⟨g, c', b, m, con, x, ea, -, -, -, -⟩ := q.laneTakeEnd_lane u .a _ Iff.rfl
  have lb : (q.laneTakeEnd u .a).lanes.get .b = q.lanes.get .b ∧ (q.laneTakeEnd u .a).take = q.take := by rw [ea]; exact ⟨rfl, rfl⟩
  obtain ⟨a1, a2, a3⟩ := q.laneTakeEnd_con u .a tr (∀ r, p.take.record = some r → ∀ e, r.endIndex = some e →
    e < (p.lanes.get .a).acc / 16777216 + 32) (by rw [q2, q3])
  obtain ⟨b1, b2, b3⟩ := (q.laneTakeEnd u .a).laneTakeEnd_con u .b tr (∀ r, p.take.record = some r → ∀ e, r.endIndex = some e →
    e < (p.lanes.get .b).acc / 16777216 + 32) (by rw [lb.1, lb.2, q2, q3])
  rw [lb.1, q3] at b2 b3
  rw [q3] at a2 a3
  refine ⟨by rw [b1, a1]; exact d, fun ha hk => ?_, fun h => ?_⟩
  · cases ht : tr.lane
    · rw [ht] at ha hs
      rw [b3 (.inl (by rw [ht]; simp))]
      exact a2 ht ha (hs.mp hk)
    · rw [ht] at ha hs
      exact b2 ht ha (hs.mp hk)
  · cases ht : tr.lane
    · rw [ht] at h hs
      rw [b3 (.inl (by rw [ht]; simp)), a3 (.inr (h.imp id fun k y => k (hs.mpr y)))]
      exact c
    · rw [ht] at h hs
      rw [b3 (.inr (h.imp id fun k y => k (hs.mpr y))), a3 (.inl (by rw [ht]; simp))]
      exact c

/-- The event that ends a take tears every lane down (09, R162). -/
theorem Part.takeEnd_torn (u : Setup) (c : TakeCause) (l : Lane) (p : Part) : Part.tornDown u l p (p.takeEnd u c) := by
  obtain ⟨x, hx⟩ : ∃ x : Part, x = { p with
    take := { p.take with
      device := .configure,
      record := p.take.record.map fun (r : TakeRecord) => { r with cause := some c, endIndex := p.lastWritten } },
    hcr := { p.hcr with capturing := false } } := ⟨_, rfl⟩
  have whole : p.takeEnd u c = x.takeTeardown u p.lastWritten := by rw [hx]; rfl
  have e := x.takeTeardown_laneEnds u p.lastWritten l
  have same : x.rft = p.rft ∧ x.lanes = p.lanes ∧ x.aza = p.aza ∧ x.pos = p.pos ∧ x.msp = p.msp ∧ x.det = p.det ∧ x.con = p.con := by
    rw [hx]; exact ⟨rfl, rfl, rfl, rfl, rfl, rfl, rfl⟩
  obtain ⟨s1, s2, s3, s4, s5, s6, s7⟩ := same
  have spent (m : Lane) (hr : p.take.record ≠ none) :
      (∀ e, p.hcr.nextIndex = e + 1 → e < (p.lanes.get m).acc / 16777216 + 32)
        ↔ ∀ r, x.take.record = some r → ∀ e, r.endIndex = some e → e < (x.lanes.get m).acc / 16777216 + 32 := by
    obtain ⟨r, hr⟩ := Option.ne_none_iff_exists'.mp hr
    have hxr : x.take.record = some { r with cause := some c, endIndex := p.lastWritten } := by rw [hx]; simp [hr]
    rw [s2]
    constructor
    · intro h r' hr' e he
      rw [hxr] at hr'
      injection hr' with hr'
      subst hr'
      have he : p.lastWritten = some e := he
      unfold Part.lastWritten at he
      split at he
      · exact absurd he (by simp)
      · injection he with he
        exact h e (by omega)
    · intro h e he
      exact h _ hxr e (by unfold Part.lastWritten; rw [if_neg (by omega)]; simp [he])
  rw [whole]
  refine ⟨fun hr sp hsp => ?_, fun h => ?_, ?_, fun h => ⟨e.lockLost (by rw [s1]; exact h), ?_⟩, fun h n hn => ?_, e.range, ?_, ?_, ?_,
    fun tr ht => ?_⟩
  · obtain ⟨l1, l2⟩ := e.lane sp (hsp.trans (spent l hr))
    rw [s2] at l1 l2
    refine ⟨fun ha k => ⟨l1 ha k, fun tr ht => ?_⟩, l2⟩
    subst ht
    obtain ⟨-, t2, -⟩ := x.takeTeardown_track u p.lastWritten tr sp (hsp.trans (spent _ hr))
    exact t2 (by rw [s2]; exact ha) k
  · rw [e.stays (by rw [s2]; exact h), s2]
  · rw [e.rft, s1]
  · obtain ⟨n, hn, he⟩ := e.changed (by rw [s1]; exact h)
    exact ⟨n, hn, by rw [he, s1]; rfl⟩
  · rw [e.unchanged (by rw [s1]; exact h) n hn, s5]
  · rw [e.aza, s3]
  · rw [e.sgt, s4]; rfl
  · rw [e.sgt, s4]
    unfold governingAt lastEntry
    cases l
    · show (match currentAt u.entries p.pos.position with | none => none | some c => _) = _
      cases currentAt u.entries p.pos.position <;> rfl
    · show (match currentAt u.entries p.pos.position with | none => none | some c => _) = _
      cases currentAt u.entries p.pos.position <;> rfl
  · subst ht
    obtain ⟨d, -, k⟩ := x.takeTeardown_track u p.lastWritten tr _ Iff.rfl
    rw [s6, s7] at d k
    rw [s2] at k
    refine ⟨by rw [d]; rfl, fun e he hr hl => ?_⟩
    have key := k (by
      by_cases ha : (p.lanes.get tr.lane).state = .active
      · refine .inr fun y => ?_
        have := (spent tr.lane hr).mpr (by rw [s2]; exact y) e he
        have := hl ha
        omega
      · exact .inl ha)
    have hw : p.lastWritten = some e := by unfold Part.lastWritten; rw [if_neg (by omega)]; simp [he]
    rw [key, hw]
    constructor
    · intro ho
      simp [truncateDropout, ho]
    · intro o ho
      simp [truncateDropout, ho, closeSpans, Config.blockSize]

/-- An event that ends a running take tears every lane down, seen from any part that agrees with the one it meets on all that the
end reads and keeps. -/
theorem Part.endOperation_torn (u : Setup) (c : TakeCause) (l : Lane) (p q : Part) (hk : q.trc.op.kind = .take) (he : q.trc.op.ending = none)
    (h : q.rft = p.rft ∧ q.lanes = p.lanes ∧ q.aza = p.aza ∧ q.pos.position = p.pos.position ∧ q.det = p.det ∧ q.con = p.con
      ∧ q.take.record = p.take.record ∧ q.hcr.nextIndex = p.hcr.nextIndex)
    (hn : queued (lockKind l) q.msp.notices = queued (lockKind l) p.msp.notices) :
    Part.tornDown u l p (q.endOperation u (.cause c)) := by
  obtain ⟨k, t, e, -⟩ := q.endOperation_takeEnd u c hk he
  have torn := Part.takeEnd_torn u c l { q with cmn := k, trc := t }
  rw [← e] at torn
  obtain ⟨h1, h2, h3, h4, h5, h6, h7, h8⟩ := h
  unfold Part.tornDown at torn ⊢
  simp only [h1, h2, h3, h4, h5, h6, h7, h8] at torn
  refine ⟨torn.1, torn.2.1, torn.2.2.1, torn.2.2.2.1, fun hl n hk => ?_, torn.2.2.2.2.2⟩
  exact (torn.2.2.2.2.1 hl n hk).trans (mem_of_queued hn n (by rw [hk]; cases l <;> rfl))

end Sys2Proof.Machine
end

