-- ==== Sys2Proof/Laws/Tick.lean ====
section
/-! SUPPORT. A counted tick, said once: the part the Transport Controller takes it on, what it does in STARTING, and what it leaves of a capture whose trackers survey. -/

namespace Sys2Proof.Machine

open Sys2Proof.Safety

/-- Following the position touches the Segment Table's record alone. -/
theorem Part.follow_spec (u : Setup) (p : Part) : ∃ g, p.follow u = { p with sgt := g } := by
  unfold Part.follow
  split
  · exact ⟨p.sgt, rfl⟩
  · exact ⟨_, rfl⟩

theorem Part.tracks_tachTick (u : Setup) (l : Lane) (stamp : Nat) (p : Part) : p.Tracks u l (p.tachTick l stamp) := by
  unfold Part.tachTick Part.tachComplete
  dsimp only
  split
  · exact p.tracks_setTracker u l _ (by rfl) (by rfl) (by rfl)
  · split
    · exact .ite ((p.tracks_setTracker u l _ (by rfl) (by rfl) (by rfl)).trans
        (Part.tracks_setTracker u l _ _ (by rfl) (by rfl) (by rfl))) (p.tracks_setTracker u l _ (by rfl) (by rfl) (by rfl))
    · exact p.tracks_setTracker u l _ (by rfl) (by rfl) (by rfl)

/-- A stamped tick touches what the tracker of its lane can touch. -/
theorem Part.tracks_trackerTick (u : Setup) (stamp index : Nat) (l : Lane) (p : Part) : p.Tracks u l (p.trackerTick u stamp index l) := by
  unfold Part.trackerTick
  exact .ite (.refl u l p) (.ite ((p.tracks_tachTick u l stamp).trans (Part.tracks_crossing u l _ _ _)) (p.tracks_tachTick u l stamp))

/-- A stamped tick leaves the receiver, the transport and the trackers' modes. -/
theorem Part.stampTick_keeps (u : Setup) (p : Part) : (p.stampTick u).hcr = p.hcr ∧ (p.stampTick u).trc = p.trc
    ∧ (p.stampTick u).timebase = p.timebase ∧ ∀ l, ((p.stampTick u).rft.get l).mode = (p.rft.get l).mode := by
  unfold Part.stampTick
  split
  · have a := p.tracks_trackerTick u (256 * (p.hcr.nextIndex - 1)) (p.hcr.nextIndex - 1) .a
    have b := (p.trackerTick u (256 * (p.hcr.nextIndex - 1)) (p.hcr.nextIndex - 1) .a).tracks_trackerTick u
      (256 * (p.hcr.nextIndex - 1)) (p.hcr.nextIndex - 1) .b
    refine ⟨b.hcr.trans a.hcr, b.trc.trans a.trc, b.timebase.trans a.timebase, fun l => ?_⟩
    cases l
    · exact (congrArg Tracker.mode b.other).trans a.mode
    · exact b.mode.trans (congrArg Tracker.mode a.other)
  · exact ⟨rfl, rfl, rfl, fun _ => rfl⟩

/-- A tracker that does not work in a take makes of a stamped tick nothing but its own record. -/
theorem Part.trackerTick_apart (u : Setup) (stamp index : Nat) (l : Lane) (p : Part) (h : (p.rft.get l).mode ≠ .take) : ∃ r,
    p.trackerTick u stamp index l = { p with rft := r } := by
  have tach : ∃ r, p.tachTick l stamp = { p with rft := r } := by
    unfold Part.tachTick Part.tachComplete
    dsimp only
    split
    · exact ⟨_, rfl⟩
    · split
      · split
        · exact ⟨_, rfl⟩
        · exact ⟨_, rfl⟩
      · exact ⟨_, rfl⟩
  have judged (q : Part) (hq : (q.rft.get l).mode ≠ .take) : ∃ r, q.measurementComplete u l = { q with rft := r } := by
    unfold Part.measurementComplete
    dsimp only
    split
    · exact ⟨q.rft, rfl⟩
    · split
      · split
        · exact ⟨_, rfl⟩
        · exact absurd ‹_› hq
        · exact ⟨q.rft, rfl⟩
      · exact ⟨q.rft, rfl⟩
  have crossed (q : Part) (hq : (q.rft.get l).mode ≠ .take) : ∃ r, q.crossing u l stamp index = { q with rft := r } := by
    unfold Part.crossing
    dsimp only
    split
    · exact ⟨_, rfl⟩
    · rename_i m _
      obtain ⟨r, e⟩ := judged (q.setTracker l { q.rft.get l with
        meas := some { m with counted := m.counted + 1, lastStamp := stamp, lastIndex := index } }) (by simpa using hq)
      exact ⟨r, e⟩
  have mode := (p.tracks_tachTick u l stamp).mode
  obtain ⟨r, e⟩ := tach
  unfold Part.trackerTick
  split
  · exact ⟨p.rft, rfl⟩
  · dsimp only
    split
    · obtain ⟨r', e'⟩ := crossed (p.tachTick l stamp) (by rw [mode]; exact h)
      exact ⟨r', by rw [e', e]⟩
    · exact ⟨r, e⟩

/-- While no tracker works in a take, a stamped tick makes no stop request. -/
theorem Part.stampTick_apart (u : Setup) (p : Part) (h : ∀ l, (p.rft.get l).mode ≠ .take) : ∃ r, p.stampTick u = { p with rft := r } := by
  unfold Part.stampTick
  split
  · obtain ⟨r, e⟩ := p.trackerTick_apart u (256 * (p.hcr.nextIndex - 1)) (p.hcr.nextIndex - 1) .a (h .a)
    have hb := (p.tracks_trackerTick u (256 * (p.hcr.nextIndex - 1)) (p.hcr.nextIndex - 1) .a).other
    obtain ⟨r', e'⟩ := (p.trackerTick u (256 * (p.hcr.nextIndex - 1)) (p.hcr.nextIndex - 1) .a).trackerTick_apart u
      (256 * (p.hcr.nextIndex - 1)) (p.hcr.nextIndex - 1) .b (by
        have : ((p.trackerTick u (256 * (p.hcr.nextIndex - 1)) (p.hcr.nextIndex - 1) .a).rft.get .b) = p.rft.get .b := hb
        rw [this]
        exact h .b)
    exact ⟨r', by rw [e', e]⟩
  · exact ⟨p.rft, rfl⟩

/-- A tick in STARTING outside a capture comes to the qualification alone (02, R24, R35). -/
theorem Part.tick_starting (u : Setup) (phase : Phase) (now : Nat) (p : Part) (hs : p.trc.state = .starting)
    (hc : p.hcr.capturing = false) (ht : p.timebase ≤ now) : ∃ g, p.tick u phase now = ({ p with
      pos := countTick p.pos phase, timebase := now, sgt := g,
      trc := { p.trc with stallTimer := some now } }.startingTick u (tickForward p.pos phase)).takeStop u := by
  obtain ⟨g, hg⟩ := ({ p with pos := countTick p.pos phase }.advance now).follow_spec u
  refine ⟨g, ?_⟩
  have still : ∀ q : Part, q.hcr.capturing = false → (if tickForward p.pos phase = true then q.stampTick u else q) = q := by
    intro q hq
    unfold Part.stampTick
    rw [hq]
    simp
  unfold Part.tick
  dsimp only
  rw [hg, still]
  rotate_left
  · exact hc
  unfold Part.transportTick Part.advance
  simp [hs, TransportState.moving, ht]

/-- What a forward tick in STARTING makes the qualification count (02, R24). -/
def qualified (u : Setup) (now : Nat) (t : Transport) : Nat :=
  match t.lastTick with
  | none => t.qualCount
  | some last => if withinTolerance u (now - last) then t.qualCount + 1 else 0

/-- A forward tick in STARTING: the new count and the new interval, and PLAYING once the count has reached 32 (02, R24; 01, R9). -/
theorem Part.startingTick_forward (u : Setup) (p : Part) : p.startingTick u true
    = { p with trc := { p.trc with qualCount := qualified u p.timebase p.trc, lastTick := some p.timebase } }.qualify := rfl

/-- Entering PLAYING or not, no stop request is made, and the stall timer and the two values of the qualification stand. -/
theorem Part.qualify_keeps (p : Part) (h : p.trc.stallTimer = some p.timebase) : p.qualify.stopPending = p.stopPending
    ∧ p.qualify.trc.stallTimer = p.trc.stallTimer ∧ p.qualify.trc.lastTick = p.trc.lastTick
    ∧ p.qualify.trc.qualCount = p.trc.qualCount := by
  unfold Part.qualify Part.enterMoving
  split
  · dsimp only
    split <;> exact ⟨rfl, h.symm, rfl, rfl⟩
  · exact ⟨rfl, rfl, rfl, rfl⟩

/-- The slip monitor takes a tick: its window and count, the record of SLIP and its notice, and a stop request only where a window closes
under a policy that makes one (02, R36, R37). -/
theorem Part.slipTick_spec (u : Setup) (forward : Bool) (p : Part) : ∃ c b m w n,
    p.slipTick u forward = { p with
      trc := { p.trc with slipWindow := w, slipLow := n }, cmn := c, stopPending := b, msp := { p.msp with notices := m } }
    ∧ (neverStops u.policies.slip ∨ (∀ w, p.trc.slipWindow = some w → w.ticks + 1 < 64) → b = p.stopPending)
    ∧ (p.trc.state.slipMonitored = false → p.slipTick u forward = p) := by
  unfold Part.slipTick
  split
  · rename_i hm
    have no : ∀ q : Part, p.trc.state.slipMonitored = false → q = p := fun _ h => absurd hm (by rw [h]; simp)
    split
    · split
      · exact ⟨p.cmn, p.stopPending, p.msp.notices, _, p.trc.slipLow, rfl, fun _ => rfl, no _⟩
      · rename_i w hw
        unfold Part.slipClose Config.slipTicks
        dsimp only
        split
        · rename_i hc
          split
          · split
            · obtain ⟨c, b, m, e, -, -, -, -, hb⟩ := Part.reportPresent_spec u .slip
                { p with trc := { p.trc with slipWindow := some ⟨0, 0⟩, slipLow := p.trc.slipLow + 1 } }
              refine ⟨c, b, m, some ⟨0, 0⟩, p.trc.slipLow + 1, e, fun h => ?_, no _⟩
              rcases h with h | h
              · exact hb h
              · have := h w hw
                simp at hc
                omega
            · exact ⟨p.cmn, p.stopPending, p.msp.notices, _, _, rfl, fun _ => rfl, no _⟩
          · obtain ⟨c, e, -⟩ := Part.reportAbsent_spec u .slip
              { p with trc := { p.trc with slipWindow := some ⟨0, 0⟩, slipLow := 0 } }
            exact ⟨c, p.stopPending, p.msp.notices, some ⟨0, 0⟩, 0, e, fun _ => rfl, no _⟩
        · exact ⟨p.cmn, p.stopPending, p.msp.notices, _, p.trc.slipLow, rfl, fun _ => rfl, no _⟩
    · exact ⟨p.cmn, p.stopPending, p.msp.notices, _, p.trc.slipLow, rfl, fun _ => rfl, no _⟩
  · exact ⟨p.cmn, p.stopPending, p.msp.notices, p.trc.slipWindow, p.trc.slipLow, rfl, fun _ => rfl, fun _ => rfl⟩

/-- The end of a survey abandons the open measurement of the tracker that surveys, and touches nothing else (04, R83). -/
theorem Part.surveyStop_spec (p : Part) : ∃ r, p.surveyStop = { p with rft := r }
    ∧ ∀ l, r.get l = if (p.rft.get l).mode = .survey then { p.rft.get l with meas := none } else p.rft.get l := by
  obtain ⟨stop, whole, one⟩ : ∃ stop : Lane → Part → Part, p.surveyStop = stop .b (stop .a p) ∧ ∀ l q, ∃ r, stop l q = { q with rft := r }
      ∧ r.get l = (if (q.rft.get l).mode = .survey then { q.rft.get l with meas := none } else q.rft.get l)
      ∧ r.get l.other = q.rft.get l.other := by
    refine ⟨fun l q => if (q.rft.get l).mode = .survey then q.setTracker l { q.rft.get l with meas := none } else q, rfl,
      fun l q => ?_⟩
    dsimp only
    by_cases h : (q.rft.get l).mode = .survey
    · rw [if_pos h, if_pos h]
      exact ⟨_, rfl, by simp, by simp [PerLane.get_set_other]⟩
    · rw [if_neg h, if_neg h]
      exact ⟨q.rft, rfl, rfl, rfl⟩
  obtain ⟨r, e, ra, rb⟩ := one .a p
  obtain ⟨r', e', rb', ra'⟩ := one .b { p with rft := r }
  refine ⟨r', by rw [whole, e, e'], fun l => ?_⟩
  · cases l
    · exact ra'.trans ra
    · have rb : r.get .b = p.rft.get .b := rb
      rw [rb']
      show (if (r.get .b).mode = _ then { r.get .b with meas := none } else r.get .b) = _
      rw [rb]

/-- The event that ends a running survey is its stop on the part with its transport settling, SLIP absent and capture ended. -/
theorem Part.endOperation_survey (u : Setup) (t : Termination) (p : Part) (hk : p.trc.op.kind = .survey) (he : p.trc.op.ending = none) :
    ∃ k x, p.endOperation u (.term t)
        = Part.surveyStop { p with cmn := k, trc := x, hcr := { p.hcr with capturing := false } }
      ∧ ∀ id, id ≠ .slip → k.get id = p.cmn.get id := by
  unfold Part.endOperation
  rw [if_neg (by simp [hk, he])]
  generalize ({ p.trc.op with phase := none, ending := some (Ending.term t) } : OpRecord) = q
  obtain ⟨k, x, eq, -, -, -, -, -, ho, -⟩ := (p.setOp q).enterSettling_parts u
  refine ⟨k, x, ?_, ho⟩
  simp only [eq, hk]
  rfl

/-! ## A stamped tick, one lane at a time -/

theorem Part.Hears.symm {l : Lane} {p q : Part} (h : p.Hears l q) : q.Hears l p :=
  ⟨h.rft.symm, h.lanes.symm, fun t e => (h.det t e).symm, fun id e => (h.cmn id e).symm, h.capturing.symm, h.nextIndex.symm, h.queue.symm⟩

theorem Part.Hears.tachTick {l : Lane} {p q : Part} (h : p.Hears l q) (stamp : Nat) : (p.tachTick l stamp).Hears l (q.tachTick l stamp) := by
  unfold Part.tachTick Part.tachComplete
  simp only [h.rft, Part.setTracker_rft, PerLane.get_set_same]
  split
  · exact h.setTracker _
  · exact .ite ((h.setTracker _).setTracker _) (h.setTracker _)

theorem Part.Hears.trackerTick {l : Lane} {p q : Part} {u : Setup} (h : p.Hears l q) (stamp index : Nat) :
    (p.trackerTick u stamp index l).Hears l (q.trackerTick u stamp index l) := by
  have k := h.tachTick stamp
  unfold Part.trackerTick
  dsimp only
  rw [h.rft, k.rft, k.measuring]
  exact .ite h (.ite (k.crossing _ _) k)

/-- A stamped tick reaches each lane by itself. -/
theorem Part.stampTick_lane (u : Setup) (l : Lane) (p : Part) (n : Nat) (hc : p.hcr.capturing = true) (hn : p.hcr.nextIndex = n + 1) :
    (p.trackerTick u (256 * n) n l).Hears l (p.stampTick u) := by
  have e : p.stampTick u = (p.trackerTick u (256 * n) n .a).trackerTick u (256 * n) n .b := by
    unfold Part.stampTick
    simp [hc, hn]
  rw [e]
  cases l
  · exact ((Part.tracks_trackerTick u (256 * n) n .b _).sameLane (l := .a) (by simp)).alike.toHears
  · exact ((p.tracks_trackerTick u (256 * n) n .a).sameLane (l := .b) (by simp)).alike.toHears.trackerTick _ _

/-- What a stamped tick makes of a lane depends on what the lane's tracker hears alone. -/
theorem Part.Hears.stampTick {l : Lane} {p q : Part} (u : Setup) (h : p.Hears l q) : (p.stampTick u).Hears l (q.stampTick u) := by
  by_cases k : p.hcr.capturing = true ∧ ∃ n, p.hcr.nextIndex = n + 1
  · obtain ⟨hc, n, hn⟩ := k
    exact ((p.stampTick_lane u l n hc hn).symm.trans (h.trackerTick _ _)).trans
      (q.stampTick_lane u l n (h.capturing.trans hc) (h.nextIndex.trans hn))
  · have still (r : Part) (hr : ¬(r.hcr.capturing = true ∧ ∃ n, r.hcr.nextIndex = n + 1)) : r.stampTick u = r := by
      unfold Part.stampTick
      rw [if_neg]
      simp only [Bool.and_eq_true, decide_eq_true_eq]
      exact fun ⟨a, b⟩ => hr ⟨a, r.hcr.nextIndex - 1, by omega⟩
    rw [still p k, still q (by rw [h.capturing, h.nextIndex]; exact k)]
    exact h

/-! ## What an ending makes of the slip monitor -/

/-- The end of a take leaves SLIP and the receiver. -/
theorem Part.takeTeardown_apart (u : Setup) (e : Option Nat) (x : Part) :
    (x.takeTeardown u e).cmn.slip = x.cmn.slip ∧ (x.takeTeardown u e).hcr = x.hcr := by
  obtain ⟨c1, m1, e1, -, -, -, a3⟩ := x.trackerTakeEnd_exact u e .a
  obtain ⟨c2, m2, e2, -, -, -, b3⟩ := (x.trackerTakeEnd u e .a).trackerTakeEnd_exact u e .b
  obtain ⟨y, hy⟩ : ∃ y, y = (x.trackerTakeEnd u e .a).trackerTakeEnd u e .b := ⟨_, rfl⟩
  have ys : y.cmn.get .slip = x.cmn.get .slip ∧ y.hcr = x.hcr := by
    rw [hy, e2]
    refine ⟨(b3 _ (by simp) (by simp)).trans ?_, ?_⟩
    · rw [e1]
      exact a3 _ (by simp) (by simp)
    · rw [e1]
  obtain ⟨d, con, e3, -⟩ := ((y.alignerTakeEnd .a).alignerTakeEnd .b).detectorsTakeEnd_spec e
  obtain ⟨z, hz⟩ : ∃ z, z = (Part.detectorsTakeEnd e ((y.alignerTakeEnd .a).alignerTakeEnd .b)).refind u := ⟨_, rfl⟩
  have zs : z.cmn = y.cmn ∧ z.hcr = y.hcr := by rw [hz, e3]; exact ⟨rfl, rfl⟩
  obtain ⟨g4, c4, k4, m4, con4, x4, e4, -, -, -, o4⟩ := z.laneTakeEnd_lane u .a _ Iff.rfl
  obtain ⟨g5, c5, k5, m5, con5, x5, e5, -, -, -, o5⟩ := (z.laneTakeEnd u .a).laneTakeEnd_lane u .b _ Iff.rfl
  unfold Part.takeTeardown
  dsimp only
  rw [← hy, ← hz, e5]
  refine ⟨(o5 .slip (by simp)).trans ?_, ?_⟩
  · rw [e4]
    refine (o4 .slip (by simp)).trans ?_
    rw [zs.1]
    exact ys.1
  · rw [e4]
    exact zs.2.trans ys.2

/-- The event that ends a running operation in motion stops the monitors and makes SLIP absent, its flag kept unless the policy is AUTO
(02, R22, R35 to R37). -/
theorem Part.endOperation_slip (u : Setup) (e : Ending) (p : Part) (hk : p.trc.op.kind ≠ .none) (he : p.trc.op.ending = none)
    (hs : p.trc.state ≠ .settling) :
    (p.endOperation u e).trc = { p.trc with
        op := { p.trc.op with phase := none, ending := some e }, state := .settling, settleTimer := some p.timebase, stallTimer := none,
        startTimer := none, slipWindow := none, slipLow := 0 }
      ∧ (p.endOperation u e).cmn.slip.present = false
      ∧ (u.policies.slip.policy ≠ .auto → (p.endOperation u e).cmn.slip.flag = p.cmn.slip.flag) := by
  obtain ⟨y, hy⟩ : ∃ y, y = (p.setOp { p.trc.op with phase := none, ending := some e }).enterSettling u := ⟨_, rfl⟩
  have start : y.trc = { p.trc with
      op := { p.trc.op with phase := none, ending := some e }, state := .settling, settleTimer := some p.timebase, stallTimer := none,
      startTimer := none, slipWindow := none, slipLow := 0 }
      ∧ y.cmn.slip.present = false ∧ (u.policies.slip.policy ≠ .auto → y.cmn.slip.flag = p.cmn.slip.flag) := by
    obtain ⟨x, hx⟩ : ∃ x, x = p.setOp { p.trc.op with phase := none, ending := some e } := ⟨_, rfl⟩
    have xs : x.trc.state ≠ .settling := by rw [hx]; exact hs
    obtain ⟨c, h, h1, -, h2, -⟩ := Part.reportAbsent_spec u .slip x
    rw [hy, ← hx]
    unfold Part.enterSettling
    rw [if_neg xs]
    simp only [h]
    rw [hx] at h2 ⊢
    exact ⟨rfl, h1, h2⟩
  unfold Part.endOperation
  rw [if_neg (by simp [hk, he])]
  dsimp only
  rw [← hy]
  split
  · obtain ⟨h1, -⟩ := y.takeEnd_parts u ‹_›
    have h2 : (y.takeEnd u ‹_›).cmn.slip = y.cmn.slip := (Part.takeTeardown_apart u _ _).1
    rw [h1, h2]
    exact start
  · obtain ⟨r, h, -⟩ := Part.surveyStop_spec { y with hcr := { y.hcr with capturing := false } }
    unfold Part.surveyEnd
    rw [h]
    exact start
  · exact start

/-! ## A tick that ends nothing -/

/-- What of a part a tick's own judgement leaves while it ends no operation: the trackers, the lanes, every condition but SLIP, the
notices of a lock state, and the operation's ending. -/
structure Part.Spares (p q : Part) : Prop where
  ending : q.trc.op.ending = p.trc.op.ending
  rft : q.rft = p.rft
  lanes : q.lanes = p.lanes
  cmn : ∀ id, id ≠ .slip → q.cmn.get id = p.cmn.get id
  queue : ∀ l, queued (lockKind l) q.msp.notices = queued (lockKind l) p.msp.notices

/-- An operation ends, or the rest is spared. -/
def Part.Stays (p q : Part) : Prop := p.trc.op.ending = none ∧ q.trc.op.ending ≠ none ∨ p.Spares q

theorem Part.Spares.refl (p : Part) : p.Spares p := ⟨rfl, rfl, rfl, fun _ _ => rfl, fun _ => rfl⟩

theorem Part.Stays.refl (p : Part) : p.Stays p := .inr (.refl p)

theorem Part.Stays.trans {p q r : Part} (h : p.Stays q) (k : q.Stays r) : p.Stays r := by
  rcases h with h | h <;> rcases k with k | k
  · exact absurd k.1 h.2
  · exact .inl ⟨h.1, by rw [k.ending]; exact h.2⟩
  · exact .inl ⟨by rw [← h.ending]; exact k.1, k.2⟩
  · exact .inr ⟨k.ending.trans h.ending, k.rft.trans h.rft, k.lanes.trans h.lanes, fun id e => (k.cmn id e).trans (h.cmn id e),
      fun l => (k.queue l).trans (h.queue l)⟩

theorem Part.Stays.ite {p q r : Part} {c : Prop} [Decidable c] (h : p.Stays q) (k : p.Stays r) : p.Stays (if c then q else r) := by
  split <;> assumption

theorem Part.stays_trc (p : Part) (t : Transport) (h : t.op.ending = p.trc.op.ending) : p.Stays { p with trc := t } :=
  .inr ⟨h, rfl, rfl, fun _ _ => rfl, fun _ => rfl⟩

theorem Part.stays_endOperation (u : Setup) (e : Ending) (p : Part) : p.Stays (p.endOperation u e) := by
  by_cases h : p.trc.op.kind = .none ∨ p.trc.op.ending ≠ none
  · rw [p.endOperation_none u e h]; exact .refl p
  · rw [not_or, not_not] at h
    exact .inl ⟨h.2, by rw [(p.endOperation_spec u e h.1 h.2).2.1]; simp⟩

theorem Part.stays_enterSettling (u : Setup) (p : Part) : p.Stays (p.enterSettling u) := by
  obtain ⟨c, t, e, -, ho, -, -, -, hc, -⟩ := p.enterSettling_parts u
  rw [e]
  exact .inr ⟨by show t.op.ending = _; rw [ho], rfl, rfl, hc, fun _ => rfl⟩

theorem Part.stays_takeStop (u : Setup) (p : Part) : p.Stays (p.takeStop u) := by
  have clear (q : Part) : q.Stays { q with stopPending := false } := .inr ⟨rfl, rfl, rfl, fun _ _ => rfl, fun _ => rfl⟩
  unfold Part.takeStop
  refine .ite (.trans (.trans (clear p) ?_) (clear _)) (.refl p)
  unfold Part.stopRequest
  exact .ite (Part.stays_endOperation u _ _) (.refl _)

theorem Part.stays_qualify (p : Part) : p.Stays p.qualify := by
  unfold Part.qualify Part.enterMoving
  refine .ite ?_ (.refl p)
  dsimp only
  split
  · exact .inr ⟨rfl, rfl, rfl, fun _ _ => rfl, fun _ => rfl⟩
  · exact .inr ⟨rfl, rfl, rfl, fun _ _ => rfl, fun l => queued_post_other _ _ _ (by cases l <;> simp [lockKind, NoticeContent.kind])⟩
  all_goals exact .inr ⟨rfl, rfl, rfl, fun _ _ => rfl, fun _ => rfl⟩

/-- Reporting a condition present posts CONDITION_RAISED alone. -/
theorem Part.reportPresent_queue (u : Setup) (id : CondId) (p : Part) (k : NoticeKind) (h : k ≠ .conditionRaised) :
    queued k (p.reportPresent u id).msp.notices = queued k p.msp.notices := by
  have flag (q : Part) : queued k (q.setFlag id).msp.notices = queued k q.msp.notices := by
    unfold Part.setFlag
    dsimp only
    split
    · rfl
    · exact queued_post_other _ _ _ h
  unfold Part.reportPresent Part.raise
  dsimp only
  split
  · rfl
  · split <;> (try split) <;> first | exact flag _ | rfl

theorem Part.stays_slipTick (u : Setup) (forward : Bool) (p : Part) : p.Stays (p.slipTick u forward) := by
  obtain ⟨open_, close⟩ : (∀ w, p.Stays { p with trc := { p.trc with slipWindow := w } })
      ∧ ∀ q : Part, q.Stays (q.slipClose u) := by
    refine ⟨fun w => p.stays_trc _ rfl, fun q => ?_⟩
    unfold Part.slipClose
    dsimp only
    split
    · refine .ite (.ite (.ite ?_ (q.stays_trc _ rfl)) ?_) (.refl q)
      · have note (l : Lane) := Part.reportPresent_queue u .slip
          { q with trc := { q.trc with slipWindow := some ⟨0, 0⟩, slipLow := q.trc.slipLow + 1 } } (lockKind l) (lockKind_ne_condition l)
        obtain ⟨c, b, m, e, -, -, -, ho, -⟩ := Part.reportPresent_spec u .slip
          { q with trc := { q.trc with slipWindow := some ⟨0, 0⟩, slipLow := q.trc.slipLow + 1 } }
        rw [e] at note ⊢
        exact .inr ⟨rfl, rfl, rfl, ho, note⟩
      · obtain ⟨c, e, -, -, -, ho⟩ := Part.reportAbsent_spec u .slip
          { q with trc := { q.trc with slipWindow := some ⟨0, 0⟩, slipLow := 0 } }
        rw [e]
        exact .inr ⟨rfl, rfl, rfl, ho, fun _ => rfl⟩
    · exact .refl q
  unfold Part.slipTick
  refine .ite (.ite ?_ (open_ none)) (.refl p)
  split
  · exact open_ _
  · exact (open_ _).trans (close _)

theorem Part.stays_transportTick (u : Setup) (forward : Bool) (p : Part) : p.Stays (p.transportTick u forward) := by
  obtain ⟨q, hq⟩ : ∃ q, q = (if p.trc.state.moving then { p with trc := { p.trc with stallTimer := some p.timebase } } else p) := ⟨_, rfl⟩
  have base : p.Stays q := by rw [hq]; exact .ite (p.stays_trc _ rfl) (.refl p)
  have op (o : OpRecord) (h : o.ending = q.trc.op.ending) : q.Stays (q.setOp o) := q.stays_trc _ h
  unfold Part.transportTick
  dsimp only
  rw [← hq]
  refine base.trans ?_
  split
  · exact .refl q
  · exact .refl q
  · cases forward
    · exact q.stays_trc _ rfl
    · rw [Part.startingTick_forward]
      exact .trans (q.stays_trc { q.trc with qualCount := qualified u q.timebase q.trc, lastTick := some q.timebase } rfl)
        (Part.stays_qualify _)
  · refine .trans (.ite ?_ (.refl q)) (Part.stays_slipTick u _ _)
    unfold Part.playingTick Part.surveyIfCounted
    split
    · split
      · exact .ite (q.stays_endOperation u _) (.refl q)
      · exact .refl q
    · refine .trans (op { q.trc.op with surveyTicks := q.trc.op.surveyTicks.map (· + 1) } rfl) ?_
      split
      · exact .ite (Part.stays_endOperation u _ _) (.refl _)
      · exact .refl _
    all_goals exact .refl q
  · refine .trans (.ite ?_ (.refl q)) (Part.stays_slipTick u _ _)
    unfold Part.approachingTick
    split
    · exact .ite (q.stays_endOperation u _) (.refl q)
    · exact .refl q
  all_goals
    unfold Part.windingTick
    split
    · exact .ite (.trans (op { q.trc.op with phase := some .settle } rfl) (Part.stays_enterSettling u _)) (.refl q)
    · exact .refl q

end Sys2Proof.Machine
end

