-- ==== Sys2Proof/Laws/Calm.lean ====
section
/-! SUPPORT. What rests outside RUN stays at rest, said once for each operation of the part: no tracker, lane, aligner half or detector begins to work inside a take but at its start, and an open span goes with an open dropout. -/

namespace Sys2Proof.Machine

open Sys2Proof.Safety

/-- q begins no work inside a take that p does not do, and opens no span. -/
structure Part.Calm (p q : Part) : Prop where
  trackers : ∀ l, (p.rft.get l).lock = .idle → (p.rft.get l).mode ≠ .take → (q.rft.get l).lock = .idle ∧ (q.rft.get l).mode ≠ .take
  lanes : ∀ l, (q.lanes.get l).state = .active → (p.lanes.get l).state = .active
  aligners : ∀ l, (p.aza.get l).running = false → (p.aza.get l).window = none →
    (q.aza.get l).running = false ∧ (q.aza.get l).window = none
  detectors : ∀ tr, (p.det.get tr).running = false → (q.det.get tr).running = false
  opened : ∀ tr, (p.det.get tr).openDropout = none → (q.det.get tr).openDropout = none
  spans : ∀ tr, ((p.det.get tr).openDropout = none → ∀ x ∈ (p.con.get tr).spans, x.last ≠ none) →
    (q.det.get tr).openDropout = none → ∀ x ∈ (q.con.get tr).spans, x.last ≠ none

theorem Part.Calm.refl (p : Part) : p.Calm p :=
  ⟨fun _ a b => ⟨a, b⟩, fun _ => id, fun _ a b => ⟨a, b⟩, fun _ => id, fun _ => id, fun _ => id⟩

theorem Part.Calm.trans {p q r : Part} (h : p.Calm q) (k : q.Calm r) : p.Calm r :=
  ⟨fun l a b => (h.trackers l a b).elim (k.trackers l), fun l a => h.lanes l (k.lanes l a),
   fun l a b => (h.aligners l a b).elim (k.aligners l), fun t a => k.detectors t (h.detectors t a),
   fun t a => k.opened t (h.opened t a), fun t a => k.spans t (h.spans t a)⟩

theorem Part.Calm.ite {p q r : Part} {c : Prop} [Decidable c] (h : p.Calm q) (k : p.Calm r) : p.Calm (if c then q else r) := by
  split <;> assumption

/-- Parts with the same blocks. -/
theorem Part.Calm.of_same {p q : Part} (h : q.rft = p.rft ∧ q.lanes = p.lanes ∧ q.aza = p.aza ∧ q.det = p.det ∧ q.con = p.con) :
    p.Calm q := by
  obtain ⟨h1, h2, h3, h4, h5⟩ := h
  refine ⟨?_, ?_, ?_, ?_, ?_, ?_⟩
  · rw [h1]; exact fun _ a b => ⟨a, b⟩
  · rw [h2]; exact fun _ => id
  · rw [h3]; exact fun _ a b => ⟨a, b⟩
  · rw [h4]; exact fun _ => id
  · rw [h4]; exact fun _ => id
  · rw [h4, h5]; exact fun _ => id

/-- Trackers and lanes alone, the lanes' states kept. -/
theorem Part.Calm.of_trackers {p q : Part} (hl : ∀ l, (p.rft.get l).lock = .idle → (p.rft.get l).mode ≠ .take →
      (q.rft.get l).lock = .idle ∧ (q.rft.get l).mode ≠ .take)
    (h : q.lanes = p.lanes ∧ q.aza = p.aza ∧ q.det = p.det ∧ q.con = p.con) : p.Calm q := by
  obtain ⟨h2, h3, h4, h5⟩ := h
  refine ⟨hl, ?_, ?_, ?_, ?_, ?_⟩
  · rw [h2]; exact fun _ => id
  · rw [h3]; exact fun _ a b => ⟨a, b⟩
  · rw [h4]; exact fun _ => id
  · rw [h4]; exact fun _ => id
  · rw [h4, h5]; exact fun _ => id

/-- Lanes and span lists alone: no lane made ACTIVE, no span opened. -/
theorem Part.Calm.of_lanes {p q : Part} (hl : ∀ l, (q.lanes.get l).state = .active → (p.lanes.get l).state = .active)
    (hc : ∀ tr, (∀ x ∈ (p.con.get tr).spans, x.last ≠ none) → ∀ x ∈ (q.con.get tr).spans, x.last ≠ none)
    (h : q.rft = p.rft ∧ q.aza = p.aza ∧ q.det = p.det) : p.Calm q := by
  obtain ⟨h1, h3, h4⟩ := h
  refine ⟨?_, hl, ?_, ?_, ?_, ?_⟩
  · rw [h1]; exact fun _ a b => ⟨a, b⟩
  · rw [h3]; exact fun _ a b => ⟨a, b⟩
  · rw [h4]; exact fun _ => id
  · rw [h4]; exact fun _ => id
  · rw [h4]; exact fun tr a b => hc tr (a b)

theorem Part.calm_trc (p : Part) (t : Transport) : p.Calm { p with trc := t } := .of_same ⟨rfl, rfl, rfl, rfl, rfl⟩

theorem Part.calm_hcr (p : Part) (h : HeadReceiver) : p.Calm { p with hcr := h } := .of_same ⟨rfl, rfl, rfl, rfl, rfl⟩

theorem Part.calm_post (p : Part) (c : NoticeContent) : p.Calm (p.post c) := .of_same ⟨rfl, rfl, rfl, rfl, rfl⟩

theorem Part.calm_raise (u : Setup) (id : CondId) (p : Part) : p.Calm (p.raise u id) := by
  obtain ⟨c, b, m, e, -⟩ := p.raise_spec u id
  rw [e]
  exact .of_same ⟨rfl, rfl, rfl, rfl, rfl⟩

theorem Part.calm_reportPresent (u : Setup) (id : CondId) (p : Part) : p.Calm (p.reportPresent u id) := by
  obtain ⟨c, b, m, e, -⟩ := p.reportPresent_spec u id
  rw [e]
  exact .of_same ⟨rfl, rfl, rfl, rfl, rfl⟩

theorem Part.calm_reportAbsent (u : Setup) (id : CondId) (p : Part) : p.Calm (p.reportAbsent u id) := by
  obtain ⟨c, e, -⟩ := p.reportAbsent_spec u id
  rw [e]
  exact .of_same ⟨rfl, rfl, rfl, rfl, rfl⟩

theorem Part.calm_policySet (u : Setup) (id : CondId) (p : Part) : p.Calm (p.policySet u id) := by
  unfold Part.policySet
  dsimp only
  have flag : p.Calm (p.setFlag id) := by
    obtain ⟨c, m, e, -⟩ := p.setFlag_spec id
    rw [e]
    exact .of_same ⟨rfl, rfl, rfl, rfl, rfl⟩
  have set (c : CondStatus) : p.Calm (p.setStatus id c) := .of_same ⟨rfl, rfl, rfl, rfl, rfl⟩
  split
  · exact .ite (p.calm_raise u id) (.refl p)
  · exact .ite (p.calm_raise u id) (.refl p)
  · exact .ite (p.calm_raise u id) (.refl p)
  · exact .ite flag (set _)
  · exact set _

theorem Part.calm_clipExpire (u : Setup) (l : Lane) (p : Part) : p.Calm (p.clipExpire u l) := by
  unfold Part.clipExpire
  exact .ite (.of_same ⟨rfl, rfl, rfl, rfl, rfl⟩) (.refl p)

theorem Part.calm_closeTake (p : Part) : p.Calm p.closeTake := by
  obtain ⟨k, m, e⟩ := p.closeTake_spec
  rw [e]
  exact .of_same ⟨rfl, rfl, rfl, rfl, rfl⟩

theorem Part.calm_refind (u : Setup) (p : Part) : p.Calm (p.refind u) := .of_same ⟨rfl, rfl, rfl, rfl, rfl⟩

theorem Part.calm_follow (u : Setup) (p : Part) : p.Calm (p.follow u) := .ite (.refl p) (p.calm_refind u)

theorem Part.calm_enterSettling (u : Setup) (p : Part) : p.Calm (p.enterSettling u) := by
  obtain ⟨c, t, e, -⟩ := p.enterSettling_parts u
  rw [e]
  exact .of_same ⟨rfl, rfl, rfl, rfl, rfl⟩

/-! ## Lane states -/

theorem Producer.apply_state (r : RatePair) (x : Producer) (e : TimelineEntry) : (x.apply r e).state = x.state := by
  unfold Producer.apply; split <;> rfl

theorem Producer.applyAll_state (r : RatePair) (es : List TimelineEntry) (x : Producer) :
    (es.foldl (Producer.apply r) x).state = x.state := by
  induction es generalizing x with
  | nil => rfl
  | cons e rest ih => exact (ih _).trans (x.apply_state r e)

theorem Producer.post_state (r : RatePair) (x : Producer) (e : TimelineEntry) : (x.post r e).state = x.state := by
  unfold Producer.post
  split
  · exact Producer.applyAll_state r _ _
  · show (x.overflow r).state = _
    unfold Producer.overflow
    split
    · rfl
    · split
      · exact Producer.apply_state r _ _
      · rfl

theorem Producer.posts_state (r : RatePair) (es : List TimelineEntry) (x : Producer) :
    (es.foldl (Producer.post r) x).state = x.state := by
  induction es generalizing x with
  | nil => rfl
  | cons e rest ih => exact (ih _).trans (x.post_state r e)

theorem Part.calm_setProducer (p : Part) (l : Lane) (x : Producer) (h : x.state = .active → (p.lanes.get l).state = .active) :
    p.Calm (p.setProducer l x) := by
  refine .of_lanes (fun m => ?_) (fun _ => id) ⟨rfl, rfl, rfl⟩
  by_cases hm : m = l
  · subst hm; simpa using h
  · simp [PerLane.get_set_other _ _ hm]

/-! ## Trackers -/

/-- A tracker at work disturbs nothing that rests, if it stays IDLE outside a take. -/
theorem Part.Tracks.calm {u : Setup} {l : Lane} {p q : Part} (h : p.Tracks u l q)
    (hl : (p.rft.get l).lock = .idle → (p.rft.get l).mode ≠ .take → (q.rft.get l).lock = .idle) : p.Calm q := by
  have det (tr : Track) : (q.det.get tr).running = (p.det.get tr).running ∧ (q.det.get tr).openDropout = (p.det.get tr).openDropout := by
    by_cases ht : tr.lane = l
    · rcases h.blanked tr ht with e | e <;> rw [e]
      · exact ⟨rfl, rfl⟩
      · unfold Detector.startBlanking
        split <;> exact ⟨rfl, rfl⟩
    · rw [h.det tr ht]; exact ⟨rfl, rfl⟩
  refine ⟨fun m a b => ?_, fun m a => ?_, ?_, fun tr a => ?_, fun tr a => ?_, fun tr a b => ?_⟩
  · by_cases hm : m = l
    · subst hm; exact ⟨hl a b, by rw [h.mode]; exact b⟩
    · rw [Lane.eq_other hm, h.other, ← Lane.eq_other hm]; exact ⟨a, b⟩
  · by_cases hm : m = l
    · subst hm
      obtain ⟨es, -, e⟩ := h.steps
      rw [e, Producer.posts_state] at a
      exact a
    · rw [Lane.eq_other hm, h.lane, ← Lane.eq_other hm] at a; exact a
  · rw [h.aza]; exact fun _ a b => ⟨a, b⟩
  · rw [(det tr).1]; exact a
  · rw [(det tr).2]; exact a
  · rw [h.con]
    rw [(det tr).2] at b
    exact a b

/-- A tracker IDLE outside a take. -/
def Part.asleep (p : Part) (l : Lane) : Prop := (p.rft.get l).lock = .idle ∧ (p.rft.get l).mode ≠ .take

theorem Part.asleep_measurementComplete (u : Setup) (l : Lane) (p : Part) (h : p.asleep l) : (p.measurementComplete u l).asleep l := by
  unfold Part.measurementComplete
  dsimp only
  split
  · exact h
  · split
    · split
      · rename_i hm
        exact ⟨by simpa using h.1, by simp [hm]⟩
      · exact absurd ‹_› h.2
      · exact h
    · exact h

theorem Part.asleep_crossing (u : Setup) (l : Lane) (stamp index : Nat) (p : Part) (h : p.asleep l) : (p.crossing u l stamp index).asleep l := by
  unfold Part.crossing
  dsimp only
  split
  · exact ⟨by simpa using h.1, by simpa using h.2⟩
  · exact Part.asleep_measurementComplete u l _ ⟨by simpa using h.1, by simpa using h.2⟩

theorem Part.asleep_detect (u : Setup) (l : Lane) (n : Nat) (sum : Int) (p : Part) (h : p.asleep l) : (p.detect u l n sum).asleep l := by
  unfold Part.detect
  dsimp only
  split
  · exact Part.asleep_crossing u l _ _ _ ⟨by simpa using h.1, by simpa using h.2⟩
  · exact ⟨by simpa using h.1, by simpa using h.2⟩

theorem Part.asleep_missIfDue (u : Setup) (l : Lane) (p : Part) (h : p.asleep l) : (p.missIfDue u l).asleep l := by
  unfold Part.missIfDue
  dsimp only
  split
  · split
    · rename_i hm
      exact ⟨by simpa using h.1, by simp [hm]⟩
    · exact absurd ‹_› h.2
    · exact h
  · exact h

theorem Part.asleep_holdIfDue (u : Setup) (l : Lane) (p : Part) (h : p.asleep l) : (p.holdIfDue u l).asleep l := by
  unfold Part.holdIfDue
  dsimp only
  rw [h.1]
  split
  · split
    · rename_i k; simp at k
    · exact h
  · exact h

theorem Part.asleep_rampIfDue (u : Setup) (l : Lane) (p : Part) (h : p.asleep l) : (p.rampIfDue u l).asleep l := by
  unfold Part.rampIfDue
  dsimp only
  rw [h.1]
  split
  · split
    · rename_i k; simp at k
    · exact h
  · exact h

theorem Part.asleep_trackerFrame (u : Setup) (n : Nat) (f : PerTrack Int) (l : Lane) (p : Part) (h : p.asleep l) :
    (p.trackerFrame u n f l).asleep l := by
  unfold Part.trackerFrame
  refine Part.asleep_rampIfDue u l _ (Part.asleep_holdIfDue u l _ (Part.asleep_missIfDue u l _ ?_))
  split
  · exact p.asleep_detect u l _ _ h
  · exact h

theorem Part.asleep_tachComplete (l : Lane) (p : Part) (h : p.asleep l) : (p.tachComplete l).asleep l := by
  unfold Part.tachComplete
  dsimp only
  split
  · split
    · exact ⟨by simpa using h.1, by simpa using h.2⟩
    · exact h
  · exact h

theorem Part.asleep_trackerTick (u : Setup) (stamp index : Nat) (l : Lane) (p : Part) (h : p.asleep l) :
    (p.trackerTick u stamp index l).asleep l := by
  have tach : (p.tachTick l stamp).asleep l := by
    unfold Part.tachTick
    dsimp only
    split
    · exact ⟨by simpa using h.1, by simpa using h.2⟩
    · exact Part.asleep_tachComplete l _ ⟨by simpa using h.1, by simpa using h.2⟩
  unfold Part.trackerTick
  split
  · exact h
  · dsimp only
    split
    · exact Part.asleep_crossing u l _ _ _ tach
    · exact tach

theorem Part.calm_measurementComplete (u : Setup) (l : Lane) (p : Part) : p.Calm (p.measurementComplete u l) :=
  (p.tracks_measurementComplete u l).calm fun a b => (p.asleep_measurementComplete u l ⟨a, b⟩).1

theorem Part.calm_missIfDue (u : Setup) (l : Lane) (p : Part) : p.Calm (p.missIfDue u l) :=
  (p.tracks_missIfDue u l).calm fun a b => (p.asleep_missIfDue u l ⟨a, b⟩).1

theorem Part.calm_holdIfDue (u : Setup) (l : Lane) (p : Part) : p.Calm (p.holdIfDue u l) :=
  (p.tracks_holdIfDue u l).calm fun a b => (p.asleep_holdIfDue u l ⟨a, b⟩).1

theorem Part.calm_rampIfDue (u : Setup) (l : Lane) (p : Part) : p.Calm (p.rampIfDue u l) :=
  (p.tracks_rampIfDue u l).calm fun a b => (p.asleep_rampIfDue u l ⟨a, b⟩).1

theorem Part.calm_trackerFrame (u : Setup) (n : Nat) (f : PerTrack Int) (l : Lane) (p : Part) : p.Calm (p.trackerFrame u n f l) :=
  (p.tracks_trackerFrame u n f l).calm fun a b => (p.asleep_trackerFrame u n f l ⟨a, b⟩).1

theorem Part.calm_tachComplete (l : Lane) (p : Part) : p.Calm (p.tachComplete l) := by
  refine .of_trackers (fun m a b => ?_) ?_
  · by_cases hm : m = l
    · subst hm; exact p.asleep_tachComplete m ⟨a, b⟩
    · unfold Part.tachComplete
      dsimp only
      split
      · split
        · rw [Part.setTracker_rft, PerLane.get_set_other _ _ hm]; exact ⟨a, b⟩
        · exact ⟨a, b⟩
      · exact ⟨a, b⟩
  · unfold Part.tachComplete
    dsimp only
    split
    · split <;> exact ⟨rfl, rfl, rfl, rfl⟩
    · exact ⟨rfl, rfl, rfl, rfl⟩

theorem Part.calm_stampTick (u : Setup) (p : Part) : p.Calm (p.stampTick u) := by
  have one (l : Lane) (stamp index : Nat) (q : Part) : q.Calm (q.trackerTick u stamp index l) :=
    (q.tracks_trackerTick u stamp index l).calm fun a b => (q.asleep_trackerTick u stamp index l ⟨a, b⟩).1
  unfold Part.stampTick
  exact .ite ((one .a _ _ p).trans (one .b _ _ _)) (.refl p)

theorem Part.calm_surveyStop (p : Part) : p.Calm p.surveyStop := by
  obtain ⟨r, e, hr⟩ := p.surveyStop_spec
  rw [e]
  refine .of_trackers (fun l a b => ?_) ⟨rfl, rfl, rfl, rfl⟩
  show (r.get l).lock = _ ∧ (r.get l).mode ≠ _
  rw [hr]
  split <;> exact ⟨a, b⟩

theorem Part.calm_surveyDone (u : Setup) (t : Termination) (p : Part) : p.Calm (p.surveyDone u t) := by
  have one (l : Lane) (q : Part) : q.Calm (if (q.rft.get l).mode = .survey then
      (q.setTracker l { q.rft.get l with mode := .none }).post ((q.rft.get l).surveyDone u l t) else q) := by
    refine .ite (.of_trackers (fun m a b => ?_) ⟨rfl, rfl, rfl, rfl⟩) (.refl q)
    rw [Part.post_rft, Part.setTracker_rft]
    by_cases hm : m = l
    · subst hm; simp [a]
    · rw [PerLane.get_set_other _ _ hm]; exact ⟨a, b⟩
  unfold Part.surveyDone
  exact (one .a p).trans (one .b _)

/-! ## Aligner halves -/

theorem Part.calm_azimuthComplete (u : Setup) (l : Lane) (p : Part) : p.Calm (p.azimuthComplete u l) := by
  have set (x : Aligner) (h : (p.aza.get l).running = true) : p.Calm (p.setAligner l x) := by
    refine ⟨fun _ a b => ⟨a, b⟩, fun _ => id, fun m a b => ?_, fun _ => id, fun _ => id, fun _ => id⟩
    have hm : m ≠ l := by rintro rfl; rw [h] at a; cases a
    rw [Part.setAligner_aza, PerLane.get_set_other _ _ hm]
    exact ⟨a, b⟩
  unfold Part.azimuthComplete
  dsimp only
  split
  · exact .refl p
  · split
    · rename_i h
      have h := (Bool.and_eq_true_iff.mp h).1
      split
      · exact set _ h
      · exact (set _ h).trans (Part.calm_setProducer _ _ _ (by rw [Producer.post_state]; exact id))
    · exact .refl p

theorem Part.calm_azimuthFrame (u : Setup) (rings : Rings) (n : Nat) (l : Lane) (p : Part) : p.Calm (p.azimuthFrame u rings n l) := by
  unfold Part.azimuthFrame
  dsimp only
  refine .ite (Part.Calm.trans ?_ (Part.calm_azimuthComplete u l _)) (.refl p)
  refine ⟨fun _ a b => ⟨a, b⟩, fun _ => id, fun m a b => ?_, fun _ => id, fun _ => id, fun _ => id⟩
  by_cases hm : m = l
  · subst hm; simp [a, b]
  · rw [Part.setAligner_aza, PerLane.get_set_other _ _ hm]; exact ⟨a, b⟩

/-! ## Production -/

theorem Part.calm_writePassed (u : Setup) (l : Lane) (p : Part) : p.Calm (p.writePassed u l) := by
  obtain ⟨g, c, b, m, con, e, h1, h2, h3, -⟩ := p.writePassed_touch u l _ rfl
  rw [e]
  refine .of_lanes (fun _ => id) (fun tr h x hx => ?_) ⟨rfl, rfl, rfl⟩
  by_cases ht : tr.lane = l
  · rcases Lane.track_cases ht with rfl | rfl
    · have hx : x ∈ (con.get l.first).spans := hx
      rw [h1] at hx
      exact h x (List.mem_filter.mp hx).1
    · have hx : x ∈ (con.get l.second).spans := hx
      rw [h2] at hx
      exact h x (List.mem_filter.mp hx).1
  · have hx : x ∈ (con.get tr).spans := hx
    rw [h3 tr ht] at hx
    exact h x hx

/-- Two concealment records of a lane, neither with an open span the old one lacks. -/
theorem Part.calm_conceal (p : Part) (l : Lane) (c1 c2 : Concealer)
    (h1 : (∀ x ∈ (p.con.get l.first).spans, x.last ≠ none) → ∀ x ∈ c1.spans, x.last ≠ none)
    (h2 : (∀ x ∈ (p.con.get l.second).spans, x.last ≠ none) → ∀ x ∈ c2.spans, x.last ≠ none) :
    p.Calm ((p.setConcealer l.first c1).setConcealer l.second c2) := by
  refine .of_lanes (fun _ => id) (fun tr h => ?_) ⟨rfl, rfl, rfl⟩
  rw [Part.setConcealer_con, Part.setConcealer_con]
  by_cases e2 : tr = l.second
  · subst e2; simpa using h2 h
  · rw [PerTrack.get_set_other _ _ e2]
    by_cases e1 : tr = l.first
    · subst e1; simpa using h1 h
    · rw [PerTrack.get_set_other _ _ e1]; exact h

theorem concealTrack_closed (settings : Settings) (muted : Bool) (frame : Nat) (own partner i j : Int) (ps : List Span) (c : Concealer)
    (h : ∀ x ∈ c.spans, x.last ≠ none) : ∀ x ∈ (concealTrack settings muted frame own partner i j ps c).1.spans, x.last ≠ none := by
  intro x hx
  simp only [concealTrack] at hx
  split at hx
  · obtain ⟨y, hy, e⟩ := List.mem_map.mp hx
    split at e <;> subst e <;> exact h y hy
  · exact h x hx

theorem Part.calm_stepLane (u : Setup) (rings : Rings) (bank : LoadedBank) (l : Lane) (p : Part) : p.Calm (p.stepLane u rings bank l) := by
  have advance (q : Part) : q.Calm (q.advanceLane l) := q.calm_setProducer l _ id
  have sources (q : Part) : q.Calm (q.chooseSources u l) := q.calm_conceal l _ _ id id
  have clip (a b : Int) (q : Part) : q.Calm (q.clipReport u l a b) := by
    obtain ⟨c, k, m, e, -⟩ := q.clipReport_spec u l a b
    rw [e]
    exact .of_same ⟨rfl, rfl, rfl, rfl, rfl⟩
  have frame (q : Part) : q.Calm (q.makeFrame u rings bank l) := by
    unfold Part.makeFrame
    refine .trans (.trans (q.calm_conceal l _ _ ?_ ?_) (Part.calm_setProducer _ l _ ?_)) (clip _ _ _)
    · exact concealTrack_closed _ _ _ _ _ _ _ _ _
    · exact concealTrack_closed _ _ _ _ _ _ _ _ _
    · exact id
  unfold Part.stepLane
  dsimp only
  have base := (p.calm_setProducer l _ (by rw [show ((p.lanes.get l).applyDue u.rates).state = _ from Producer.applyAll_state _ _ _]; exact id)).trans
    (Part.calm_writePassed u l _)
  exact .ite ((base.trans (sources _)).trans (advance _)) (.ite ((base.trans (frame _)).trans (advance _)) (base.trans (sources _)))

theorem Part.calm_finishIfDone (u : Setup) (l : Lane) (p : Part) : p.Calm (p.finishIfDone u l) := by
  obtain ⟨no, yes⟩ := p.finishIfDone_spec u l _ Iff.rfl
  by_cases h : (p.lanes.get l).state = .draining ∧ ∀ r, p.take.record = some r → ∀ e, r.endIndex = some e →
      e < (p.lanes.get l).acc / 16777216 + 32
  · obtain ⟨g, c, b, m, con, e, h1, h2, -⟩ := yes h
    rw [e]
    refine .of_lanes (fun m => ?_) (fun tr k x hx => ?_) ⟨rfl, rfl, rfl⟩
    · show ((p.lanes.set l _).get m).state = _ → _
      by_cases hm : m = l
      · subst hm; simp
      · rw [PerLane.get_set_other _ _ hm]; exact id
    · have hx : x ∈ (con.get tr).spans := hx
      by_cases ht : tr.lane = l
      · rw [h1 tr ht] at hx; cases hx
      · rw [h2 tr ht] at hx; exact k x hx
  · rw [no h]; exact .refl p

end Sys2Proof.Machine
end

