-- ==== Sys2Proof/Laws/Port.lean ====
section
/-! SUPPORT. What taking a command at the Message Port comes to: one lemma per way it can go, cited instead of unfolding. -/

namespace Sys2Proof.Machine

open Sys2Proof.Safety

/-- A command taken while READY is set: its owner's state with one reply at the back. -/
theorem portCommand_ready (k : Cmd) (tag : Byte) (owner : State → Answer) (s : State) (hr : s.part.ready = true) :
    portCommand k tag owner s
      = withReply (judge k owner s).state k.code tag (judge k owner s).code
          (if (judge k owner s).code.carriesResults then (judge k owner s).results else []) := by
  unfold portCommand; rw [if_pos hr]; rfl

/-- The same for a command whose argument list has its length. -/
theorem portSized_ready (k : Cmd) (tag : Byte) (sized : Bool) (owner : State → Answer) (s : State) (hr : s.part.ready = true)
    (hb : sized = true) :
    portSized k tag sized owner s
      = withReply (judge k owner s).state k.code tag (judge k owner s).code
          (if (judge k owner s).code.carriesResults then (judge k owner s).results else []) := by
  unfold portSized; rw [if_pos hr, if_pos hb]; rfl

/-- A command that comes while READY is clear. -/
theorem portCommand_busy (k : Cmd) (tag : Byte) (owner : State → Answer) (s : State) (hr : s.part.ready = false) :
    portCommand k tag owner s = s.startRefused := by
  unfold portCommand; rw [if_neg (by simp [hr])]

theorem portSized_busy (k : Cmd) (tag : Byte) (sized : Bool) (owner : State → Answer) (s : State) (hr : s.part.ready = false) :
    portSized k tag sized owner s = s.startRefused := by
  unfold portSized; rw [if_neg (by simp [hr])]

/-- A command its device state does not admit. -/
theorem judge_refused (k : Cmd) (owner : State → Answer) (s : State) (h : k.admitted s.part.take.device = false) :
    judge k owner s = s.refuse .wrongState := by unfold judge; rw [h]; rfl

/-- A command its device state admits. -/
theorem judge_admitted (k : Cmd) (owner : State → Answer) (s : State) (h : k.admitted s.part.take.device = true) :
    judge k owner s = owner s := by unfold judge; rw [h]; rfl

/-- CONFIGURE admits every command. -/
theorem Cmd.admitted_configure (k : Cmd) : k.admitted .configure = true := by cases k <;> rfl

/-- A byte that is no flag. -/
theorem flagOf_eq_none (b : Byte) (h : 2 ≤ b.toNat) : flagOf b = none := by
  unfold flagOf; split <;> first | omega | rfl

/-- A byte at or below 1 is a flag. -/
theorem byte_zero_or_one (b : Byte) (h : b.toNat ≤ 1) : b = 0 ∨ b = 1 := by
  rcases (show b.toNat = 0 ∨ b.toNat = 1 by omega) with h | h
  · left; apply BitVec.eq_of_toNat_eq; simp [h]
  · right; apply BitVec.eq_of_toNat_eq; simp [h]

end Sys2Proof.Machine
end

