-- ==== Sys2Proof/Laws/Restart.lean ====
section
/-! SUPPORT. A tracker at a transition to another source or f_ref, said once: the record it takes, the notice of the change, and what the block's first frame then makes of it. -/

namespace Sys2Proof.Machine

open Sys2Proof.Safety

/-- The record a tracker takes at a transition to another source or f_ref, but for its lock state (04, R79; log 23). -/
def Tracker.turnedTo (u : Setup) (new : Settings) (index : Nat) (t : Tracker) : Tracker :=
  let stopped := { t with settings := new, coeffs := filterFor u.rates new, meas := none, hold := none, ramp := none }
  match new.source with
  | .bias | .hum | .pilot | .tach =>
    { stopped with acquire := 0, missCount := 0, filter := FilterState.zero, armed := false, last := 0, origin := index }
  | .nominal => { stopped with step := u.rates.nominal }
  | .off => stopped

/-- The lock state it takes (04, R79). -/
def Source.turnedLock (s : Source) : LockState := if s.isMeasured then .search else .idle

/-- Where source or f_ref differ: the record, the lock state with its LOCK_CHANGED, RANGE absent, LOCK_LOST absent after FALLBACK, and for
NOMINAL a STEP entry (04, R79; 05, R89). -/
theorem Part.trackerTransition_changed (u : Setup) (l : Lane) (new : Settings) (index : Nat) (p : Part)
    (h : ¬(new.source = (p.rft.get l).settings.source ∧ new.fRef = (p.rft.get l).settings.fRef)) : ∃ c b m,
    p.trackerTransition u l new index = { p with
      rft := p.rft.set l { (p.rft.get l).turnedTo u new index with lock := new.source.turnedLock },
      lanes := if new.source = .nominal then p.lanes.set l ((p.lanes.get l).post u.rates ⟨index, .step u.rates.nominal⟩) else p.lanes,
      cmn := c, stopPending := b, msp := { p.msp with notices := m } }
    ∧ (m = if (p.rft.get l).lock = new.source.turnedLock then p.msp.notices else
        postNotice (.lockChanged l (p.rft.get l).lock new.source.turnedLock (some index) ((p.rft.get l).turnedTo u new index).step)
          p.msp.notices)
    ∧ (c.get (.range l)).present = false ∧ ((p.rft.get l).lock = .fallback → (c.get (.lockLost l)).present = false) := by
  have tail (q : Part) (t : Tracker) (lock : LockState) (hq : q.rft.get l = t) (hl : lock ≠ .fallback) (ht : t.lock = (p.rft.get l).lock)
      (hm : q.msp = p.msp) : ∃ c b m,
      (q.changeLock u l lock (some index)).reportAbsent u (.range l) = { q with
        rft := q.rft.set l { t with lock := lock }, cmn := c, stopPending := b, msp := { p.msp with notices := m } }
      ∧ (m = if (p.rft.get l).lock = lock then p.msp.notices else
          postNotice (.lockChanged l (p.rft.get l).lock lock (some index) t.step) p.msp.notices)
      ∧ (c.get (.range l)).present = false ∧ ((p.rft.get l).lock = .fallback → (c.get (.lockLost l)).present = false) := by
    obtain ⟨c, b, m, e, h1, -, -, h4⟩ := q.changeLock_spec u l lock (some index)
    obtain ⟨c', e', k1, -, -, k4⟩ := Part.reportAbsent_spec u (.range l) (q.changeLock u l lock (some index))
    refine ⟨c', b, m, by rw [e', e, hq, hm], ?_, k1, fun k => ?_⟩
    · rw [(h4 hl).2, hq, hm, ht]
    · rw [k4 _ (by simp), e, h1 (by rw [hq, ht, k]; exact hl.symm)]
      simpa using hl
  unfold Part.trackerTransition
  dsimp only
  rw [if_neg h]
  have kept : ((p.rft.get l).turnedTo u new index).lock = (p.rft.get l).lock := by
    unfold Tracker.turnedTo
    dsimp only
    split <;> rfl
  cases hs : new.source
  case nominal =>
    have := tail (Part.postStep u l index (p.setTracker l ((p.rft.get l).turnedTo u new index))) _ .idle (by rfl) (by simp)
      (by simpa [Part.postStep, Part.postEntry] using kept) rfl
    simpa [Tracker.turnedTo, Source.turnedLock, Source.isMeasured, hs, Part.postStep, Part.postEntry, Part.setTracker, Part.setProducer]
      using this
  case off =>
    have := tail (p.setTracker l ((p.rft.get l).turnedTo u new index)) _ .idle (by simp) (by simp) kept rfl
    simpa [Tracker.turnedTo, Source.turnedLock, Source.isMeasured, hs, Part.setTracker] using this
  all_goals
    have := tail (p.setTracker l ((p.rft.get l).turnedTo u new index)) _ .search (by simp) (by simp) kept rfl
    simpa [Tracker.turnedTo, Source.turnedLock, Source.isMeasured, hs, Part.setTracker] using this

/-- A stored part of an audio source has an f_ref above 0 and no higher than C crossings a second of raw samples allow (03, R44, R45). -/
theorem partInRange_reference {fr : Nat} (hfr : 0 < fr) {s : Settings} (h : partInRange fr s = true) (ha : s.source.isAudio = true) :
    0 < s.fRef ∧ s.fRef ≤ s.c * fr := by
  simp only [partInRange, referenceInRange, ha, if_true, Bool.and_eq_true, decide_eq_true_eq] at h
  obtain ⟨⟨⟨⟨h1, -⟩, h3⟩, -⟩, -⟩ := h.1.1.1.1.1.1.1.1.1.1.1.1.1.1.1.1
  constructor
  · cases hs : s.source <;> rw [hs] at ha h1 <;> simp only [clampFRef, clampNat] at h1 <;> simp [Source.isAudio] at ha <;>
      split at h1 <;> (try split at h1) <;> omega
  · unfold ceilDiv at h3
    have : s.fRef + fr - 1 < fr * (s.c + 1) := by
      have := Nat.lt_mul_of_div_lt (Nat.lt_succ_of_le h3) hfr
      rw [Nat.mul_comm]
      exact this
    nlinarith [Nat.sub_add_cancel (show 1 ≤ s.fRef + fr by omega)]

/-- The nominal span of a measured source is at least one raw sample, so no timeout is reached at its own origin (04, R68). -/
theorem Tracker.span_pos (u : Setup) (t : Tracker) (hd : deckInRange u.deck = true)
    (hr : t.settings.source.isAudio = true → 0 < t.settings.fRef ∧ t.settings.fRef ≤ t.settings.c * u.rates.fr)
    (hm : t.settings.source.isMeasured = true) : 0 < t.span u := by
  have hfr : 352800 ≤ u.rates.fr := by cases u.rates <;> simp [RatePair.fr]
  unfold Tracker.span pSpan Tracker.crossings Tracker.reference
  by_cases ht : t.settings.source = .tach
  · simp only [ht, if_true, Config.tachCount]
    simp only [deckInRange, within, Bool.and_eq_true, decide_eq_true_eq] at hd
    apply Nat.div_pos <;> omega
  · simp only [ht, if_false]
    obtain ⟨a, b⟩ := hr (by cases hs : t.settings.source <;> simp [hs, Source.isMeasured, Source.isAudio] at hm ht ⊢)
    apply Nat.div_pos <;> nlinarith

/-- The settings a lane has at the arrival point come from the table, so their reference lies in range (03, R42, R50). -/
theorem Part.judged_reference (u : Setup) (stamp : Nat) (p : Part) (l : Lane) (h : tableLegal u.rates.fr u.entries = true)
    (ha : ((p.judged u stamp).effective l).source.isAudio = true) :
    0 < ((p.judged u stamp).effective l).fRef
      ∧ ((p.judged u stamp).effective l).fRef ≤ ((p.judged u stamp).effective l).c * u.rates.fr := by
  have hfr : 0 < u.rates.fr := by cases u.rates <;> simp [RatePair.fr]
  refine partInRange_reference hfr ?_ ha
  have hall : u.entries.all (entryInRange u.rates.fr) = true := by
    simp only [tableLegal, Bool.and_eq_true] at h
    exact h.2
  have harr : (p.judged u stamp).sgt.arrival.get l = governingAt u.entries (judgeStamp u.entries p.sgt.current stamp) l := by cases l <;> rfl
  unfold Part.effective at ha ⊢
  rw [harr] at ha ⊢
  unfold governingAt at ha ⊢
  cases hj : judgeStamp u.entries p.sgt.current stamp with
  | none => rw [hj] at ha; simp [Settings.defaults, Source.isAudio] at ha
  | some c =>
    rw [hj] at ha
    dsimp only at ha ⊢
    cases hl : lastEntry (fun e => decide (e.start ≤ c.start) && (e.parts.get l).isSome) u.entries with
    | none => rw [hl] at ha; simp [Settings.defaults, Source.isAudio] at ha
    | some e =>
      rw [hl] at ha
      dsimp only at ha ⊢
      unfold lastEntry at hl
      have hin := List.all_eq_true.mp hall e (List.mem_filter.mp (List.mem_of_getLast? hl)).1
      simp only [entryInRange, Bool.and_eq_true] at hin
      cases hp : e.parts.get l with
      | none => rw [hp] at ha; simp [Settings.defaults, Source.isAudio] at ha
      | some x =>
        rw [Option.getD_some]
        cases l
        · have := hin.1.2
          rw [show e.parts.a = some x from hp] at this
          exact this
        · have := hin.2
          rw [show e.parts.b = some x from hp] at this
          exact this

/-- A frame read by a tracker with nothing open, no timer running, a disarmed detector and its timeout not reached: the filter and the
detector take it where the tracker measures an audio source, and nothing else changes but a survey's own timeout (04, R62, R65, R68). -/
theorem Part.trackerFrame_restarted (u : Setup) (n : Nat) (f : PerTrack Int) (l : Lane) (p : Part) (t : Tracker) (ht : t = p.rft.get l)
    (hm : t.meas = none) (hh : t.hold = none) (hr : t.ramp = none) (ha : t.settings.source.isAudio = true → t.armed = false)
    (hn : p.hcr.nextIndex = n + 1)
    (ho : t.settings.source.isMeasured = true → t.mode ≠ .none → t.origin = n ∧ 0 < t.span u) : ∃ x : Tracker,
    p.trackerFrame u n f l = { p with rft := p.rft.set l x }
    ∧ (x.meas = none ∧ x.hold = none ∧ x.ramp = none ∧ x.lock = t.lock ∧ x.step = t.step ∧ x.acquire = t.acquire
      ∧ x.missCount = t.missCount ∧ x.settings = t.settings ∧ x.coeffs = t.coeffs
      ∧ (t.settings.source.isMeasured = true → x.origin = t.origin))
    ∧ ∀ y : Int, y = filtered t.coeffs t.filter (f.get l.first + f.get l.second) →
        if (p.measuring l && t.settings.source.isAudio) = true then
          x.filter = ⟨f.get l.first + f.get l.second, t.filter.x1, y, t.filter.y1⟩ ∧ x.last = y
            ∧ x.armed = decide (y < -(t.settings.gate : Int))
        else x.filter = t.filter ∧ x.last = t.last ∧ x.armed = t.armed := by
  subst ht
  have s1 : ∃ x : Tracker,
      (if p.measuring l && (p.rft.get l).settings.source.isAudio then p.detect u l n (f.get l.first + f.get l.second) else p)
        = { p with rft := p.rft.set l x }
      ∧ (∃ fi la ar, x = { p.rft.get l with filter := fi, last := la, armed := ar })
      ∧ ∀ y : Int, y = filtered (p.rft.get l).coeffs (p.rft.get l).filter (f.get l.first + f.get l.second) →
          if (p.measuring l && (p.rft.get l).settings.source.isAudio) = true then
            x.filter = ⟨f.get l.first + f.get l.second, (p.rft.get l).filter.x1, y, (p.rft.get l).filter.y1⟩ ∧ x.last = y
              ∧ x.armed = decide (y < -((p.rft.get l).settings.gate : Int))
          else x.filter = (p.rft.get l).filter ∧ x.last = (p.rft.get l).last ∧ x.armed = (p.rft.get l).armed := by
    split
    · rename_i hau
      have hau' := (Bool.and_eq_true_iff.mp hau).2
      unfold Part.detect
      simp only [ha hau', Bool.false_and, Bool.false_or]
      exact ⟨_, rfl, ⟨_, _, _, rfl⟩, fun y hy => by subst hy; exact ⟨rfl, rfl, rfl⟩⟩
    · exact ⟨p.rft.get l, by rw [PerLane.set_get], ⟨_, _, _, rfl⟩, fun _ _ => ⟨rfl, rfl, rfl⟩⟩
  obtain ⟨x, e1, ⟨fi, la, ar, ex⟩, hx⟩ := s1
  have s2 : ∃ y : Tracker, Part.missIfDue u l { p with rft := p.rft.set l x } = { p with rft := p.rft.set l y }
      ∧ (y.meas = none ∧ y.hold = none ∧ y.ramp = none ∧ y.lock = x.lock ∧ y.step = x.step ∧ y.acquire = x.acquire
        ∧ y.missCount = x.missCount ∧ y.settings = x.settings ∧ y.coeffs = x.coeffs
        ∧ (x.settings.source.isMeasured = true → y.origin = x.origin))
      ∧ y.filter = x.filter ∧ y.last = x.last ∧ y.armed = x.armed := by
    have same : ∀ y : Tracker, y = x → (y.meas = none ∧ y.hold = none ∧ y.ramp = none ∧ y.lock = x.lock ∧ y.step = x.step
        ∧ y.acquire = x.acquire ∧ y.missCount = x.missCount ∧ y.settings = x.settings ∧ y.coeffs = x.coeffs
        ∧ (x.settings.source.isMeasured = true → y.origin = x.origin))
        ∧ y.filter = x.filter ∧ y.last = x.last ∧ y.armed = x.armed := by
      rintro _ rfl
      exact ⟨⟨by rw [ex]; exact hm, by rw [ex]; exact hh, by rw [ex]; exact hr, rfl, rfl, rfl, rfl, rfl, rfl, fun _ => rfl⟩, rfl, rfl, rfl⟩
    unfold Part.missIfDue
    simp only [PerLane.get_set_same]
    split
    · rename_i hc
      simp only [Bool.and_eq_true, decide_eq_true_eq, hn, Nat.add_sub_cancel] at hc
      obtain ⟨⟨h1, -⟩, h2⟩ := hc
      unfold Part.measuring at h1
      simp only [PerLane.get_set_same, Bool.and_eq_true] at h1
      have hsp : x.timeoutSpan u = (p.rft.get l).span u := by
        unfold Tracker.timeoutSpan
        rw [ex]
        simp only [hm]
        rfl
      rw [hsp] at h2
      have hox : x.origin = (p.rft.get l).origin := by rw [ex]
      have hsx : x.settings = (p.rft.get l).settings := by rw [ex]
      have hmx : x.mode = (p.rft.get l).mode := by rw [ex]
      rw [hox] at h2
      cases hmo : x.mode
      · rw [hmo] at h1; simp at h1
      · rw [hmo] at h1
        have := ho (by rw [← hsx]; exact h1.2) (by rw [← hmx, hmo]; simp)
        omega
      · refine ⟨{ x with
            meas := none, origin := p.hcr.nextIndex - 1, mode := .survey,
            survey := { x.survey with total := x.survey.total + 1 } }, by simp [Part.setTracker], ⟨rfl, by rw [ex]; exact hh,
            by rw [ex]; exact hr, rfl, rfl, rfl, rfl, rfl, rfl, fun k => ?_⟩, rfl, rfl, rfl⟩
        have := ho (by rw [← hsx]; exact k) (by rw [← hmx, hmo]; simp)
        omega
    · exact ⟨x, rfl, same x rfl⟩
  obtain ⟨y, e2, ⟨y1, y2, y3, y4, y5, y6, y7, y8, y9, y10⟩, z1, z2, z3⟩ := s2
  refine ⟨y, ?_, ⟨y1, y2, y3, by rw [y4, ex], by rw [y5, ex], by rw [y6, ex], by rw [y7, ex], by rw [y8, ex], by rw [y9, ex],
    fun k => by rw [y10 (by rw [ex]; exact k), ex]⟩, ?_⟩
  · unfold Part.trackerFrame
    dsimp only
    rw [e1, e2]
    have e3 : Part.holdIfDue u l { p with rft := p.rft.set l y } = { p with rft := p.rft.set l y } := by
      unfold Part.holdIfDue
      simp only [PerLane.get_set_same, y2]
    rw [e3]
    unfold Part.rampIfDue
    simp only [PerLane.get_set_same, y3]
  · rw [z1, z2, z3]
    exact hx

end Sys2Proof.Machine
end

