-- ==== Sys2Proof/Laws/Rests.lean ====
section
/-! SUPPORT. Rest outside RUN through the events of the part: endings, frames, ticks, sensors, timers and beginnings each keep it. -/

namespace Sys2Proof.Machine

open Sys2Proof.Safety

/-- Nothing works inside a take outside RUN, and spans go with open dropouts. -/
def Part.Rests (p : Part) : Prop := Part.restsOutsideRun p ∧ Part.spansFollow p

/-- Calm work that leaves the device state, the transport state and the raw index. -/
theorem Part.Calm.rests {p q : Part} (c : p.Calm q) (hd : q.take.device = p.take.device) (hs : q.trc.state = p.trc.state)
    (hn : q.hcr.nextIndex = p.hcr.nextIndex) (h : p.Rests) : q.Rests := by
  refine ⟨fun k l => ?_, fun tr => ⟨c.spans tr (h.2 tr).1, fun k => ?_⟩⟩
  · rw [hd] at k
    obtain ⟨a1, a2, a3, a4, a5, a6⟩ := h.1 k l
    obtain ⟨b1, b2⟩ := c.trackers l a1 a2
    obtain ⟨b3, b4⟩ := c.aligners l a4 a5
    exact ⟨b1, b2, fun e => a3 (c.lanes l e), b3, b4, fun tr ht => ⟨c.detectors tr (a6 tr ht).1, c.opened tr (a6 tr ht).2⟩⟩
  · rw [hs, hn]
    exact (h.2 tr).2 fun e => k (c.opened tr e)

theorem Part.rests_works {p q : Part} (w : p.Works q) (c : p.Calm q) (h : p.Rests) : q.Rests :=
  c.rests w.device (by rw [w.trc]) w.nextIndex h

/-- The same whatever becomes of the transport and the receiver, while no dropout is open. -/
theorem Part.Calm.rests_still {p q : Part} (c : p.Calm q) (hd : q.take.device ≠ .run → p.take.device ≠ .run)
    (ho : ∀ tr, (p.det.get tr).openDropout = none) (h : p.Rests) : q.Rests := by
  refine ⟨fun k l => ?_, fun tr => ⟨c.spans tr (h.2 tr).1, fun k => absurd (c.opened tr (ho tr)) k⟩⟩
  obtain ⟨a1, a2, a3, a4, a5, a6⟩ := h.1 (hd k) l
  obtain ⟨b1, b2⟩ := c.trackers l a1 a2
  obtain ⟨b3, b4⟩ := c.aligners l a4 a5
  exact ⟨b1, b2, fun e => a3 (c.lanes l e), b3, b4, fun tr ht => ⟨c.detectors tr (a6 tr ht).1, c.opened tr (a6 tr ht).2⟩⟩

theorem Part.Rests.closed {p : Part} (h : p.Rests) (k : p.trc.state ≠ .playing ∨ p.take.device ≠ .run) (tr : Track) :
    (p.det.get tr).openDropout = none := by
  rcases k with k | k
  · by_contra e
    exact k ((h.2 tr).2 e).1
  · exact ((h.1 k tr.lane).2.2.2.2.2 tr rfl).2

/-- The same blocks, with no dropout open. -/
theorem Part.rests_alike {p q : Part} (e : q.rft = p.rft ∧ q.lanes = p.lanes ∧ q.aza = p.aza ∧ q.det = p.det ∧ q.con = p.con)
    (hd : q.take.device = p.take.device) (hs : p.trc.state ≠ .playing) (h : p.Rests) : q.Rests :=
  (Part.Calm.of_same e).rests_still (by rw [hd]; exact fun y => y) (h.closed (.inl hs)) h

theorem Part.rests_trc {p : Part} (t : Transport) (hs : t.state = p.trc.state) (h : p.Rests) : Part.Rests { p with trc := t } :=
  (p.calm_trc t).rests rfl hs rfl h

theorem Part.rests_ite {c : Prop} [Decidable c] {p q : Part} (h : p.Rests) (k : q.Rests) : (if c then p else q).Rests := by
  split <;> assumption

/-! ## Endings -/

/-- The end of a take puts everything at rest. -/
theorem Part.rests_takeEnd (u : Setup) (c : TakeCause) (p : Part)
    (h : ∀ tr, ((p.det.get tr).openDropout = none → ∀ x ∈ (p.con.get tr).spans, x.last ≠ none)
      ∧ ((p.det.get tr).openDropout ≠ none → 0 < p.hcr.nextIndex)) : (p.takeEnd u c).Rests := by
  obtain ⟨x, hx⟩ : ∃ x : Part, x = { p with
    take := { p.take with
      device := .configure,
      record := p.take.record.map fun (r : TakeRecord) => { r with cause := some c, endIndex := p.lastWritten } },
    hcr := { p.hcr with capturing := false } } := ⟨_, rfl⟩
  have whole : p.takeEnd u c = x.takeTeardown u p.lastWritten := by rw [hx]; rfl
  have same : x.det = p.det ∧ x.con = p.con := by rw [hx]; exact ⟨rfl, rfl⟩
  have det (tr : Track) : ((x.takeTeardown u p.lastWritten).det.get tr).running = false
      ∧ ((x.takeTeardown u p.lastWritten).det.get tr).openDropout = none := by
    rw [(x.takeTeardown_track u p.lastWritten tr _ Iff.rfl).1]
    exact ⟨rfl, rfl⟩
  rw [whole]
  refine ⟨fun _ l => ?_, fun tr => ⟨fun _ => ?_, fun k => absurd (det tr).2 k⟩⟩
  · have e := x.takeTeardown_laneEnds u p.lastWritten l
    refine ⟨by rw [e.rft], by rw [e.rft]; simp, ?_, by rw [e.aza], by rw [e.aza], fun tr _ => det tr⟩
    obtain ⟨l1, l2⟩ := e.lane _ Iff.rfl
    by_cases ha : (x.lanes.get l).state = .active
    · by_cases k : ∀ r, x.take.record = some r → ∀ e, r.endIndex = some e → e < (x.lanes.get l).acc / 16777216 + 32
      · rw [l1 ha k]; simp
      · rw [l2 ha k]; simp
    · rw [e.stays ha]; exact ha
  · obtain ⟨-, t2, t3⟩ := x.takeTeardown_track u p.lastWritten tr _ Iff.rfl
    by_cases k : (x.lanes.get tr.lane).state = .active ∧ ∀ r, x.take.record = some r → ∀ e, r.endIndex = some e →
        e < (x.lanes.get tr.lane).acc / 16777216 + 32
    · rw [t2 k.1 k.2]; simp
    · rw [t3 (not_and_or.mp k), same.1, same.2]
      unfold truncateDropout
      cases ho : (p.det.get tr).openDropout with
      | none => exact (h tr).1 ho
      | some o =>
        have hn := (h tr).2 (by rw [ho]; simp)
        have hw : p.lastWritten = some (p.hcr.nextIndex - 1) := by unfold Part.lastWritten; rw [if_neg (by omega)]
        rw [hw]
        intro y hy
        obtain ⟨z, -, e⟩ := List.mem_map.mp hy
        cases hz : z.last with
        | none => simp only [hz, Option.isNone_none, if_true] at e; subst e; simp
        | some b => simp only [hz, Option.isNone_some] at e; subst e; simp [hz]

theorem Part.rests_endOperation (u : Setup) (e : Ending) (p : Part) (he : p.trc.op.kind = .take ↔ ∃ c, e = .cause c)
    (k : Part.playLegal p) (h : p.Rests) : (p.endOperation u e).Rests := by
  by_cases hn : p.trc.op.kind = .none ∨ p.trc.op.ending ≠ none
  · rw [p.endOperation_none u e hn]; exact h
  · obtain ⟨hk, hn⟩ := not_or.mp hn
    have hn : p.trc.op.ending = none := not_not.mp hn
    by_cases ht : p.trc.op.kind = .take
    · obtain ⟨c, rfl⟩ := he.mp ht
      obtain ⟨x, t, e, -⟩ := p.endOperation_takeEnd u c ht hn
      rw [e]
      exact Part.rests_takeEnd u c _ fun tr => ⟨(h.2 tr).1, fun y => ((h.2 tr).2 y).2⟩
    · have hd : p.take.device ≠ .run := fun y => ht (k.1.mp y).1
      unfold Part.endOperation
      rw [if_neg (by simp [hk, hn])]
      obtain ⟨c, t, eq, -⟩ := (p.setOp { p.trc.op with phase := none, ending := some e }).enterSettling_parts u
      have base : p.Calm ((p.setOp { p.trc.op with phase := none, ending := some e }).enterSettling u) :=
        (p.calm_trc _).trans (Part.calm_enterSettling u _)
      have dev : ((p.setOp { p.trc.op with phase := none, ending := some e }).enterSettling u).take = p.take := by rw [eq]; rfl
      have hc := h.closed (.inr hd)
      dsimp only
      split
      · exact absurd ‹_› ht
      · refine (base.trans ((Part.calm_hcr _ _).trans (Part.calm_surveyStop _))).rests_still (fun _ => hd) hc h
      · exact base.rests_still (fun _ => hd) hc h

theorem Part.rests_endAs (u : Setup) (t : Termination) (c : TakeCause) (p : Part) (k : Part.playLegal p) (h : p.Rests) :
    (p.endAs u t c).Rests := by
  unfold Part.endAs
  refine p.rests_endOperation u _ ?_ k h
  split
  · exact ⟨fun _ => ⟨c, rfl⟩, fun _ => ‹_›⟩
  · exact ⟨fun y => absurd y ‹_›, fun ⟨_, y⟩ => by cases y⟩

theorem Part.rests_takeStop (u : Setup) (p : Part) (k : Part.playLegal p) (h : p.Rests) : (p.takeStop u).Rests := by
  have flag (q : Part) (b : Bool) (h : q.Rests) : Part.Rests { q with stopPending := b } :=
    (Part.Calm.of_same ⟨rfl, rfl, rfl, rfl, rfl⟩ : q.Calm { q with stopPending := b }).rests rfl rfl rfl h
  unfold Part.takeStop
  refine Part.rests_ite (flag _ _ ?_) h
  unfold Part.stopRequest
  exact Part.rests_ite (Part.rests_endAs u _ _ _ ((p.works_stopPending false).play k) (flag p false h)) (flag p false h)

/-- An ended operation completes at rest. -/
theorem Part.calm_completeOperation (u : Setup) (p : Part) : p.Calm (p.completeOperation u)
    ∧ (p.completeOperation u).take.device = p.take.device := by
  refine ⟨?_, (Part.completeOperation_spec u p).2.1⟩
  unfold Part.completeOperation
  split
  · refine .trans ?_ (Part.calm_closeTake _)
    exact .of_same ⟨rfl, rfl, rfl, rfl, rfl⟩
  · exact (p.calm_surveyDone u _).trans (Part.calm_trc _ _)
  · exact (p.calm_post _).trans (Part.calm_trc _ _)
  · exact .refl p

/-! ## Frames -/

/-- A detector judges a block: its spans are closed unless it holds a dropout open. -/
theorem judgeBlock_spans (t : Track) (take b stamp label level : Nat) (d : Detector) (spans : List Span)
    (h : d.openDropout = none → ∀ x ∈ spans, x.last ≠ none) :
    (judgeBlock t take b stamp label level d spans).1.openDropout = none →
      ∀ x ∈ (judgeBlock t take b stamp label level d spans).2, x.last ≠ none := by
  have ended (run : Nat) : (endDropout b run d spans).1.openDropout = none → ∀ x ∈ (endDropout b run d spans).2, x.last ≠ none := by
    intro _ x hx
    unfold endDropout at hx
    dsimp only at hx
    split at hx
    · obtain ⟨z, -, e⟩ := List.mem_map.mp hx
      cases hz : z.last with
      | none => simp only [hz, Option.isNone_none, if_true] at e; subst e; simp
      | some b => simp only [hz, Option.isNone_some] at e; subst e; simp [hz]
    · exact h ‹_› x hx
  unfold judgeBlock
  split
  · split
    · split
      · exact h
      · dsimp only
        split
        · intro y; cases y
        · exact h
    · split <;> exact h
  · split
    · split
      · dsimp only
        split
        · intro y; cases y
        · exact h
      · exact h
    · exact h
  · split
    · split
      · exact ended 1
      · exact h
    · intro y
      exact h (Option.map_eq_none_iff.mp y)
  · split
    · split
      · exact ended _
      · exact h
    · intro y
      exact h (Option.map_eq_none_iff.mp y)

/-- A block is judged in PLAYING, after its frames. -/
theorem Part.rests_trackBlock (rings : Rings) (b : Nat) (t : Track) (p : Part)
    (hp : p.trc.state = .playing ∧ 0 < p.hcr.nextIndex) (h : p.Rests) : (p.trackBlock rings b t).Rests := by
  unfold Part.trackBlock
  dsimp only
  split
  · rename_i hr
    have hd : p.take.device = .run := by
      by_contra e
      have := ((h.1 e t.lane).2.2.2.2.2 t rfl).1
      rw [hr] at this
      cases this
    have whole (d : Detector) (c : Concealer) (hc : d.openDropout = none → ∀ x ∈ c.spans, x.last ≠ none) :
        ((p.setDetector t d).setConcealer t c).Rests := by
      refine ⟨fun k => absurd hd k, fun tr => ?_⟩
      rw [Part.setConcealer_con, Part.setConcealer_det, Part.setDetector_det, Part.setDetector_con]
      by_cases ht : tr = t
      · subst ht
        simp only [PerTrack.get_set_same]
        exact ⟨hc, fun _ => hp⟩
      · simp only [PerTrack.get_set_other _ _ ht]
        exact h.2 tr
    split
    · have := whole { p.det.get t with level := rings.blockLevel t b } (p.con.get t) (h.2 t).1
      have e : (p.setDetector t { p.det.get t with level := rings.blockLevel t b }).setConcealer t (p.con.get t)
          = p.setDetector t { p.det.get t with level := rings.blockLevel t b } := by
        unfold Part.setConcealer Part.setDetector
        congr 1
        cases t <;> rfl
      rw [e] at this
      exact this
    · exact whole _ _ (judgeBlock_spans t p.take.number b (rings.stamp b) p.itemLabel (rings.blockLevel t b)
        { p.det.get t with level := rings.blockLevel t b } (p.con.get t).spans (h.2 t).1)
  · exact h

theorem Part.rests_blockComplete (rings : Rings) (b : Nat) (p : Part)
    (hp : p.trc.state = .playing ∧ 0 < p.hcr.nextIndex) (h : p.Rests) : (p.blockComplete rings b).Rests := by
  unfold Part.blockComplete
  suffices hs : ∀ (ts : List Track) (q : Part), (q.trc.state = .playing ∧ 0 < q.hcr.nextIndex) → q.Rests →
      (ts.foldl (fun p t => p.trackBlock rings b t) q).Rests from hs _ p hp h
  intro ts
  induction ts with
  | nil => exact fun _ _ => id
  | cons t rest ih =>
    intro q hq hr
    have w := q.works_trackBlock rings b t
    exact ih _ (by rw [w.trc, w.nextIndex]; exact hq) (q.rests_trackBlock rings b t hq hr)

theorem Part.rests_arrived (u : Setup) (rings : Rings) (n : Nat) (f : PerTrack Int) (p : Part)
    (hp : p.trc.state = .playing ∧ 0 < p.hcr.nextIndex) (h : p.Rests) : (p.arrived u rings n f).Rests := by
  have w := (((p.works_trackerFrame u n f .a).trans (Part.works_trackerFrame u n f .b _)).trans
    (Part.works_azimuthFrame u rings n .a _)).trans (Part.works_azimuthFrame u rings n .b _)
  have c := (((p.calm_trackerFrame u n f .a).trans (Part.calm_trackerFrame u n f .b _)).trans
    (Part.calm_azimuthFrame u rings n .a _)).trans (Part.calm_azimuthFrame u rings n .b _)
  have base := Part.rests_works w c h
  unfold Part.arrived
  exact Part.rests_ite (Part.rests_blockComplete rings _ _ (by rw [w.trc, w.nextIndex]; exact hp) base) base

/-- A detector at a lane transition. -/
theorem detectorTransition_spans (new : DropoutSettings) (b : Nat) (d : Detector) (spans : List Span)
    (h : d.openDropout = none → ∀ x ∈ spans, x.last ≠ none) :
    ((detectorTransition new b d spans).1.openDropout = none → ∀ x ∈ (detectorTransition new b d spans).2, x.last ≠ none)
      ∧ (d.openDropout = none → (detectorTransition new b d spans).1.openDropout = none) := by
  have hb : ({ d with settings := new }.startBlanking new.blanking).openDropout = d.openDropout := by
    unfold Detector.startBlanking
    split <;> rfl
  unfold detectorTransition
  dsimp only
  split
  · split
    · refine ⟨fun _ x hx => ?_, fun _ => rfl⟩
      obtain ⟨z, -, e⟩ := List.mem_map.mp hx
      cases hz : z.last with
      | none => simp only [hz, Option.isNone_none, if_true] at e; subst e; simp
      | some b => simp only [hz, Option.isNone_some] at e; subst e; simp [hz]
    · rename_i e
      rw [hb] at e
      exact ⟨fun _ => h e, fun _ => by simpa using hb.trans e⟩
  · exact ⟨fun e => h (hb.symm.trans e), fun e => hb.trans e⟩

theorem Part.rests_laneTransition (u : Setup) (index : Nat) (l : Lane) (p : Part) (hd : p.take.device = .run) (h : p.Rests) :
    (p.laneTransition u index l).Rests := by
  have w := p.works_laneTransition u index l
  obtain ⟨d, c, e, same, other⟩ := p.laneTransition_spec u index l
  have t := p.tracks_turned u index l
  have turned (tr : Track) : ((p.turned u index l).det.get tr).openDropout = (p.det.get tr).openDropout := by
    by_cases ht : tr.lane = l
    · rcases t.blanked tr ht with e | e <;> rw [e]
      · rfl
      · unfold Detector.startBlanking
        split <;> rfl
    · rw [t.det tr ht]; rfl
  refine ⟨fun k => absurd (w.device.trans hd) k, fun tr => ?_⟩
  rw [w.trc, w.nextIndex]
  have hc : ((p.laneTransition u index l).con.get tr) = c.get tr ∧ ((p.laneTransition u index l).det.get tr) = d.get tr := by
    rw [e]; exact ⟨rfl, rfl⟩
  rw [hc.1, hc.2]
  by_cases ht : tr.lane = l
  · have pair := (same tr ht).1
    have s := detectorTransition_spans (p.effective l).dropout (index / 64) ((p.turned u index l).det.get tr) (p.con.get tr).spans
      (by rw [turned tr]; exact (h.2 tr).1)
    rw [← pair] at s
    exact ⟨s.1, fun k => (h.2 tr).2 fun y => k (s.2 ((turned tr).trans y))⟩
  · rw [(other tr ht).1, (other tr ht).2, turned tr]
    exact h.2 tr

theorem Part.rests_blockBegin (u : Setup) (index stamp : Nat) (p : Part) (h : p.Rests) : (p.blockBegin u index stamp).Rests := by
  by_cases hd : p.take.device = .run
  · rw [p.blockBegin_run u index stamp hd _ rfl]
    have hj : (p.judged u stamp).Rests :=
      (Part.Calm.of_same ⟨rfl, rfl, rfl, rfl, rfl⟩ : p.Calm (p.judged u stamp)).rests rfl rfl rfl h
    have dj : (p.judged u stamp).take.device = .run := hd
    generalize p.judged u stamp = j at hj dj ⊢
    have one (l : Lane) (q : Part) (hq : q.Rests ∧ q.take.device = .run) (c : Prop) [Decidable c] :
        (if c then q.laneTransition u index l else q).Rests ∧ (if c then q.laneTransition u index l else q).take.device = .run := by
      split
      · exact ⟨q.rests_laneTransition u index l hq.2 hq.1, (q.works_laneTransition u index l).device.trans hq.2⟩
      · exact hq
    refine Part.rests_ite ?_ hj
    dsimp only
    have two := (one .b _ (one .a j ⟨hj, dj⟩ (p.turns .a j = true)) (p.turns .b j = true)).1
    generalize (if p.turns .b j = true then _ else _ : Part) = q at two ⊢
    have word (r : Part) (hr : r.Rests) : r.transitionWord.Rests := by
      have w := r.works_transitionWord
      obtain ⟨x, e⟩ := r.transitionWord_spec
      exact Part.rests_works w (by rw [e]; exact r.calm_hcr x) hr
    exact word _ (Part.rests_works (q.works_post _) (q.calm_post _) two)
  · unfold Part.blockBegin
    rw [if_neg hd]
    exact h

theorem State.rests_writeFrame (f : PerTrack Int) (s : State) (hc : s.part.hcr.capturing = true) (k : Part.playLegal s.part)
    (h : s.part.Rests) : (s.writeFrame f).part.Rests := by
  have hp := k.2.2.2.2.1 hc
  unfold State.writeFrame
  dsimp only
  obtain ⟨q, hq, hs, kq, rq⟩ : ∃ q : Part, q = (if s.part.hcr.nextIndex % Config.blockSize = 0 then
      s.part.blockBegin s.setup s.part.hcr.nextIndex s.part.pos.position else s.part) ∧ q.trc.state = .playing ∧ Part.playLegal q
      ∧ q.Rests := by
    refine ⟨_, rfl, ?_, ?_, ?_⟩
    · split
      · rw [(s.part.works_blockBegin _ _ _).trc]; exact hp
      · exact hp
    · exact Part.play_ite ((s.part.works_blockBegin _ _ _).play k) k
    · exact Part.rests_ite (Part.rests_blockBegin _ _ _ _ h) h
  rw [← hq]
  have base : Part.Rests { q with hcr := { q.hcr with nextIndex := s.part.hcr.nextIndex + 1 } } :=
    ⟨fun y => rq.1 y, fun tr => ⟨(rq.2 tr).1, fun _ => ⟨hs, Nat.succ_pos _⟩⟩⟩
  have play : Part.playLegal { q with hcr := { q.hcr with nextIndex := s.part.hcr.nextIndex + 1 } } := Part.play_hcr _ id kq
  exact Part.rests_takeStop _ _ ((Part.works_arrived _ _ _ _ _).play play) (Part.rests_arrived _ _ _ _ _ ⟨hs, Nat.succ_pos _⟩ base)

/-- The receiver changes, but not its raw index. -/
theorem Part.rests_hcr {p : Part} (x : HeadReceiver) (hn : x.nextIndex = p.hcr.nextIndex) (h : p.Rests) :
    Part.Rests { p with hcr := x } := (p.calm_hcr x).rests rfl rfl hn h

theorem State.rests_passOn (f : PerTrack Int) (s : State) (k : Part.playLegal s.part) (h : s.part.Rests) : (s.passOn f).part.Rests := by
  unfold State.passOn
  split
  · rename_i hc
    split
    · exact Part.rests_takeStop _ _ ((Part.works_occur _ _ _).play (Part.play_hcr _ (fun y => by cases y) k))
        (Part.rests_works (Part.works_occur _ _ _) (Part.calm_raise _ _ _) (Part.rests_hcr _ rfl h))
    · exact s.rests_writeFrame f hc k h
  · exact h

theorem State.rests_passCopies (f : PerTrack Int) (n : Nat) (s : State) (k : Part.playLegal s.part) (h : s.part.Rests) :
    (s.passCopies f n).part.Rests := by
  induction n generalizing s with
  | zero => exact h
  | succ n ih => exact ih _ (s.play_passOn f k) (s.rests_passOn f k h)

theorem Part.rests_hold (u : Setup) (n : Nat) (p : Part) (k : Part.playLegal p) (h : p.Rests) : (p.hold u n).Rests :=
  Part.rests_takeStop _ _ ((Part.works_reportPresent _ _ _).play (Part.play_hcr _ id k))
    (Part.rests_works (Part.works_reportPresent _ _ _) (Part.calm_reportPresent _ _ _) (Part.rests_hcr _ rfl h))

theorem Part.rests_rawLost (u : Setup) (p : Part) (k : Part.playLegal p) (h : p.Rests) : (p.rawLost u).Rests :=
  Part.rests_takeStop _ _ (((Part.works_reportAbsent _ _ _).trans (Part.works_occur _ _ _)).play
    (Part.play_hcr _ (fun h => by cases h) k))
    (Part.rests_works ((Part.works_reportAbsent _ _ _).trans (Part.works_occur _ _ _))
      ((Part.calm_reportAbsent _ _ _).trans (Part.calm_raise _ _ _)) (Part.rests_hcr _ rfl h))

theorem State.rests_takeFrame (seq : Byte) (f : PerTrack Int) (s : State) (k : Part.playLegal s.part) (h : s.part.Rests) :
    (s.takeFrame seq f).part.Rests :=
  State.rests_passOn f _ (Part.play_takeStop _ _ ((Part.works_reportAbsent _ _ _).play (Part.play_hcr _ id k)))
    (Part.rests_takeStop _ _ ((Part.works_reportAbsent _ _ _).play (Part.play_hcr _ id k))
      (Part.rests_works (Part.works_reportAbsent _ _ _) (Part.calm_reportAbsent _ _ _) (Part.rests_hcr _ rfl h)))

theorem rests_frameSlot (bytes : List Byte) (s : State) (k : Part.playLegal s.part) (h : s.part.Rests) : (frameSlot bytes s).part.Rests := by
  unfold frameSlot
  dsimp only
  split
  · exact h
  · exact s.rests_takeFrame _ _ k h
  · split
    · exact State.rests_passOn _ _ (Part.play_hold _ _ _ k) (Part.rests_hold _ _ _ k h)
    · exact Part.rests_rawLost _ _ k h
  · split
    · exact s.rests_takeFrame _ _ k h
    · split
      · exact State.rests_takeFrame _ _ _ (State.play_passCopies _ _ _ (Part.play_hold _ _ _ k))
          (State.rests_passCopies _ _ _ (Part.play_hold _ _ _ k) (Part.rests_hold _ _ _ k h))
      · exact Part.rests_rawLost _ _ k h

/-! ## Production and upstream slots -/

theorem Part.rests_upstreamSlot (u : Setup) (rings : Rings) (bank : LoadedBank) (p : Part) (k : Part.playLegal p) (h : p.Rests) :
    (p.upstreamSlot u rings bank).Rests := by
  have kq (q : Part) (s : p.Sends q) : Part.playLegal q :=
    Part.playLegal_congr (congrArg TakeControl.device s.take) (by rw [s.trc]) (by rw [s.trc]) (by rw [s.hcr]) k
  obtain ⟨q, s, e⟩ := p.upstreamSlot_sends u rings bank
  have hq : q.Rests := by
    obtain ⟨b1, b2, b3, b4⟩ := s.blocks
    have c : p.Calm q := by
      refine .of_lanes (fun l => ?_) ?_ ⟨b1, b2, b3⟩
      · rw [s.states]; exact id
      · rw [b4]; exact fun _ => id
    exact c.rests (by rw [s.take]) (by rw [s.trc]) (by rw [s.hcr]) h
  rcases e with e | ⟨l, b, e⟩
  · rw [e]; exact hq
  · rw [e]
    refine Part.rests_works (Part.works_closeTake _) (Part.calm_closeTake _) ?_
    unfold Part.resumeLane Part.laneStep
    have w := (Part.works_stepLane u rings bank l q).trans (Part.works_finishIfDone u l _)
    exact Part.rests_ite (Part.rests_takeStop u _ (w.play (kq q s))
      (Part.rests_works w ((q.calm_stepLane u rings bank l).trans (Part.calm_finishIfDone u l _)) hq)) hq

/-! ## Ticks -/

theorem Part.rests_qualify (p : Part) (h : p.Rests) : p.qualify.Rests := by
  unfold Part.qualify
  split
  · rename_i hs
    have hs : p.trc.state ≠ .playing := by rw [hs.1]; simp
    dsimp only
    split
    all_goals exact Part.rests_alike (p := p) ⟨rfl, rfl, rfl, rfl, rfl⟩ rfl hs h
  · exact h

theorem Part.rests_slipClose (u : Setup) (p : Part) (h : p.Rests) : (p.slipClose u).Rests := by
  unfold Part.slipClose
  dsimp only
  split
  · refine Part.rests_ite (Part.rests_ite (Part.rests_ite ?_ (Part.rests_trc _ rfl h)) ?_) h
    · exact Part.rests_works (Part.works_reportPresent _ _ _) (Part.calm_reportPresent _ _ _) (Part.rests_trc _ rfl h)
    · exact Part.rests_works (Part.works_reportAbsent _ _ _) (Part.calm_reportAbsent _ _ _) (Part.rests_trc _ rfl h)
  · exact h

theorem Part.rests_slipTick (u : Setup) (f : Bool) (p : Part) (h : p.Rests) : (p.slipTick u f).Rests := by
  unfold Part.slipTick
  refine Part.rests_ite (Part.rests_ite ?_ (Part.rests_trc _ rfl h)) h
  split
  · exact Part.rests_trc _ rfl h
  · exact Part.rests_slipClose u _ (Part.rests_trc _ rfl h)

theorem Part.rests_surveyIfCounted (u : Setup) (p : Part) (k : Part.playLegal p) (h : p.Rests) : (p.surveyIfCounted u).Rests := by
  unfold Part.surveyIfCounted
  split
  · rename_i hk _ _
    refine Part.rests_ite (p.rests_endOperation u _ ?_ k h) h
    rw [hk]; simp
  · exact h

theorem Part.rests_startingTick (u : Setup) (f : Bool) (p : Part) (h : p.Rests) : (p.startingTick u f).Rests := by
  unfold Part.startingTick
  exact Part.rests_ite (Part.rests_qualify _ (Part.rests_trc _ rfl h)) (Part.rests_trc _ rfl h)

theorem Part.rests_playingTick (u : Setup) (p : Part) (k : Part.playLegal p) (h : p.Rests) : (p.playingTick u).Rests := by
  unfold Part.playingTick
  split
  · rename_i hk
    split
    · refine Part.rests_ite (p.rests_endOperation u _ ?_ k h) h
      rw [hk]; simp
    · exact h
  · exact Part.rests_surveyIfCounted u _ (Part.play_trc _ rfl rfl rfl k) (Part.rests_trc _ rfl h)
  all_goals exact h

/-- A phase of a SEEK or a rewind ends in a settle phase. -/
theorem Part.rests_settlePhase (u : Setup) (op : OpRecord) (p : Part) (hs : p.trc.state ≠ .playing) (h : p.Rests) :
    ((p.setOp op).enterSettling u).Rests :=
  ((p.calm_trc _).trans (Part.calm_enterSettling u _)).rests_still
    (fun y => by rw [← show _ = p.take.device from (Part.enterSettling_spec u (p.setOp op)).2.2.1]; exact y) (h.closed (.inl hs)) h

theorem Part.rests_windingTick (u : Setup) (p : Part) (h : p.Rests) : (p.windingTick u).Rests := by
  unfold Part.windingTick
  split
  · split
    · rename_i hs
      refine p.rests_settlePhase u _ ?_ h
      rcases hs with ⟨e, -⟩ | ⟨e, -⟩ <;> rw [e] <;> simp
    · exact h
  · exact h

theorem Part.rests_approachingTick (u : Setup) (p : Part) (k : Part.playLegal p) (h : p.Rests) : (p.approachingTick u).Rests := by
  unfold Part.approachingTick
  split
  · rename_i hk _
    refine Part.rests_ite (p.rests_endOperation u _ ?_ k h) h
    rw [hk]; simp
  · exact h

theorem Part.rests_transportTick (u : Setup) (f : Bool) (p : Part) (k : Part.playLegal p) (h : p.Rests) : (p.transportTick u f).Rests := by
  unfold Part.transportTick
  dsimp only
  have k' : Part.playLegal (if p.trc.state.moving then { p with trc := { p.trc with stallTimer := some p.timebase } } else p) :=
    Part.play_ite (Part.play_trc _ rfl rfl rfl k) k
  have h' : Part.Rests (if p.trc.state.moving then { p with trc := { p.trc with stallTimer := some p.timebase } } else p) :=
    Part.rests_ite (Part.rests_trc _ rfl h) h
  generalize (if p.trc.state.moving then { p with trc := { p.trc with stallTimer := some p.timebase } } else p) = q at k' h' ⊢
  split
  · exact h'
  · exact h'
  · exact q.rests_startingTick u f h'
  · exact Part.rests_slipTick u f _ (Part.rests_ite (q.rests_playingTick u k' h') h')
  · exact Part.rests_slipTick u f _ (Part.rests_ite (q.rests_approachingTick u k' h') h')
  · exact q.rests_windingTick u h'
  · exact q.rests_windingTick u h'

theorem Part.rests_follow (u : Setup) (p : Part) (h : p.Rests) : (p.follow u).Rests :=
  Part.rests_works (p.works_follow u) (p.calm_follow u) h

theorem Part.rests_tick (u : Setup) (phase : Phase) (now : Nat) (p : Part) (k : Part.playLegal p) (h : p.Rests) :
    (p.tick u phase now).Rests := by
  unfold Part.tick
  dsimp only
  have k' : Part.playLegal (({ p with pos := countTick p.pos phase }.advance now).follow u) := (Part.works_follow u _).play k
  have f : Part.Rests (({ p with pos := countTick p.pos phase }.advance now).follow u) := Part.rests_follow u _ h
  generalize (({ p with pos := countTick p.pos phase }.advance now).follow u) = q at k' f
  have kt : Part.playLegal (if tickForward p.pos phase then q.stampTick u else q) := Part.play_ite ((q.works_stampTick u).play k') k'
  exact Part.rests_takeStop u _ (Part.play_transportTick u _ _ kt) (Part.rests_transportTick u _ _ kt
    (Part.rests_ite (Part.rests_works (q.works_stampTick u) (q.calm_stampTick u) f) f))

/-! ## Sensors and timers -/

theorem Part.rests_leaderChange (u : Setup) (p : Part) (k : Part.playLegal p) (h : p.Rests) : (p.leaderChange u).Rests := by
  unfold Part.leaderChange
  have k : Part.playLegal { p with trc := { p.trc with leader := !p.trc.leader } } := Part.play_trc _ rfl rfl rfl k
  have h : Part.Rests { p with trc := { p.trc with leader := !p.trc.leader } } := Part.rests_trc _ rfl h
  dsimp only
  generalize ({ p with trc := { p.trc with leader := !p.trc.leader } } : Part) = q at k h
  refine Part.rests_ite ?_ ?_
  · unfold Part.leaderLeft
    split
    · rename_i y
      refine Part.rests_endOperation u _ _ ?_ (Part.play_zeroPosition u q k) (Part.rests_follow u _ h)
      rw [Part.zeroPosition_trc, y.2.1]; simp
    · exact h
  · unfold Part.leaderSeen
    refine Part.rests_ite ?_ h
    split
    · rename_i y
      refine q.rests_settlePhase u _ (fun e => ?_) h
      have := (k.2.1.mp (.inr e)).1
      rw [y.1] at this
      simp at this
    · exact q.rests_endAs u _ _ k h

theorem Part.rests_insertCassette (u : Setup) (p : Part) (h : p.Rests) : (p.insertCassette u).Rests := by
  unfold Part.insertCassette
  refine Part.rests_ite h (Part.rests_works (Part.works_post _ _) (Part.calm_post _ _) (Part.rests_follow u _ ?_))
  exact h

theorem Part.rests_removeCassette (u : Setup) (p : Part) (k : Part.playLegal p) (h : p.Rests) : (p.removeCassette u).Rests := by
  unfold Part.removeCassette
  refine Part.rests_ite ?_ h
  exact Part.rests_endAs u _ _ _ k h

theorem Part.rests_stall (u : Setup) (p : Part) (k : Part.playLegal p) (h : p.Rests) : (p.stall u).Rests :=
  Part.rests_takeStop u _ (Part.play_endAs u _ _ _ ((p.works_occur u _).play k))
    (Part.rests_endAs u _ _ _ ((p.works_occur u _).play k) (Part.rests_works (p.works_occur u _) (p.calm_raise u _) h))

/-- What starts or completes an operation, or moves between its phases, while no dropout is open. -/
theorem Part.rests_settled (u : Setup) (p : Part) (hs : p.trc.state = .settling) (h : p.Rests) : (p.settled u).Rests := by
  have hn : p.trc.state ≠ .playing := by rw [hs]; simp
  have same (q : Part) (e : q.rft = p.rft ∧ q.lanes = p.lanes ∧ q.aza = p.aza ∧ q.det = p.det ∧ q.con = p.con)
      (hd : q.take.device = p.take.device) : q.Rests := Part.rests_alike e hd hn h
  have ends (q : Part) (e : q.rft = p.rft ∧ q.lanes = p.lanes ∧ q.aza = p.aza ∧ q.det = p.det ∧ q.con = p.con)
      (hd : q.take.device = p.take.device) : (q.completeOperation u).Rests := by
    obtain ⟨c', d'⟩ := q.calm_completeOperation u
    exact ((Part.Calm.of_same e).trans c').rests_still (by rw [d', hd]; exact fun y => y) (h.closed (.inl hn)) h
  unfold Part.settled
  split
  · unfold Part.seekReplan
    dsimp only
    exact Part.rests_ite (same _ ⟨rfl, rfl, rfl, rfl, rfl⟩ rfl) (Part.rests_ite (ends _ ⟨rfl, rfl, rfl, rfl, rfl⟩ rfl)
      (Part.rests_ite (same _ ⟨rfl, rfl, rfl, rfl, rfl⟩ rfl) (ends _ ⟨rfl, rfl, rfl, rfl, rfl⟩ rfl)))
  · exact Part.rests_ite (same _ ⟨rfl, rfl, rfl, rfl, rfl⟩ rfl) (same _ ⟨rfl, rfl, rfl, rfl, rfl⟩ rfl)
  · exact ends _ ⟨rfl, rfl, rfl, rfl, rfl⟩ rfl

theorem Part.rests_settleExpiry (u : Setup) (p : Part) (h : p.Rests) : (p.settleExpiry u).Rests := by
  unfold Part.settleExpiry
  split
  · split
    · exact Part.rests_settled u _ ‹_› h
    · exact h
  · exact h

theorem Part.rests_stallExpiry (u : Setup) (p : Part) (k : Part.playLegal p) (h : p.Rests) : (p.stallExpiry u).Rests := by
  unfold Part.stallExpiry
  dsimp only
  split
  · refine Part.rests_ite ?_ h
    split
    · rename_i y
      refine Part.rests_settlePhase u _ _ (fun e => ?_) h
      have := (k.2.1.mp (.inr e)).1
      rw [show p.trc.op.kind = _ from y.1] at this
      simp at this
    · exact Part.rests_stall u _ (Part.play_advance _ k) h
  · exact h

theorem Part.rests_startingExpiry (u : Setup) (p : Part) (k : Part.playLegal p) (h : p.Rests) : (p.startingExpiry u).Rests := by
  unfold Part.startingExpiry
  split
  · exact Part.rests_ite (Part.rests_stall u _ (Part.play_advance _ k) h) h
  · exact h

theorem Part.rests_leaderLimitExpiry (u : Setup) (p : Part) (k : Part.playLegal p) (h : p.Rests) : (p.leaderLimitExpiry u).Rests := by
  unfold Part.leaderLimitExpiry
  split
  · split
    · rename_i y
      refine Part.rests_endOperation u _ _ ?_ (Part.play_advance _ k) h
      rw [show (p.advance _).trc.op.kind = _ from y.1]; simp
    · exact h
  · exact h

theorem Part.rests_pulse (p : Part) (h : p.Rests) : p.pulse.Rests := by
  unfold Part.pulse
  split
  · exact h
  · exact Part.rests_trc _ rfl h

/-! ## Beginnings -/

theorem Part.rests_seekStart (u : Setup) (n : Nat) (p : Part) (hs : p.trc.state = .stopped) (h : p.Rests) : (p.seekStart u n).Rests := by
  have hn : p.trc.state ≠ .playing := by rw [hs]; simp
  have same (q : Part) (e : q.rft = p.rft ∧ q.lanes = p.lanes ∧ q.aza = p.aza ∧ q.det = p.det ∧ q.con = p.con)
      (hd : q.take.device = p.take.device) : q.Rests := Part.rests_alike e hd hn h
  unfold Part.seekStart
  dsimp only
  refine Part.rests_ite (same _ ⟨rfl, rfl, rfl, rfl, rfl⟩ rfl) (Part.rests_ite (same _ ⟨rfl, rfl, rfl, rfl, rfl⟩ rfl)
    (Part.rests_ite ?_ (same _ ⟨rfl, rfl, rfl, rfl, rfl⟩ rfl)))
  obtain ⟨c', d'⟩ := Part.calm_completeOperation u
    (p.setOp { p.opStart .seek with target := some n, windPoint := some (windPoint u n), windCount := some 0, ending := some (.term .done) })
  exact ((p.calm_trc _).trans c').rests_still (by rw [d']; exact fun y => y) (h.closed (.inl hn)) h

theorem Part.rests_surveyStart (u : Setup) (l : Lane) (src : Source) (f c w n : Nat) (p : Part) (hs : p.trc.state = .stopped)
    (h : p.Rests) : (p.surveyStart u l src f c w n).Rests := by
  have hc := h.closed (.inl (by rw [hs]; simp))
  refine (Part.Calm.of_trackers (fun m a b => ?_) ⟨rfl, rfl, rfl, rfl⟩ : p.Calm (p.surveyStart u l src f c w n)).rests_still
    (fun y => y) hc h
  show ((p.rft.set l _).get m).lock = _ ∧ ((p.rft.set l _).get m).mode ≠ _
  by_cases hm : m = l
  · subst hm
    rw [PerLane.get_set_same]
    exact ⟨a, by simp [Tracker.cleared]⟩
  · rw [PerLane.get_set_other _ _ hm]; exact ⟨a, b⟩

theorem Part.rests_takeStart (u : Setup) (e : Option Nat) (p : Part) : (p.takeStart u e).Rests := by
  have hd := (Part.takeStart_spec u e p).1
  refine ⟨fun k => absurd hd k, fun tr => ?_⟩
  have det : ((p.takeStart u e).det.get tr).openDropout = none := by cases tr <;> rfl
  have con : ((p.takeStart u e).con.get tr).spans = [] := by cases tr <;> rfl
  exact ⟨fun _ => by rw [con]; simp, fun k => absurd det k⟩

end Sys2Proof.Machine
end

