-- ==== Sys2Proof/Laws/Rows.lean ====
section
/-! SUPPORT. One lemma for every invariant that looks at nothing of the message port but its notices: if each owner and each event keeps it, every row of the table keeps it, whether a command comes as a row or as cells. -/

namespace Sys2Proof.Machine

open Sys2Proof.Safety

/-- P survives what every command's owner does. -/
structure OwnersKeep (P : State → Prop) : Prop where
  softReset : ∀ s, P s → P (ownSoftReset s).state
  enter : ∀ d s, d ≠ .run → s.part.take.device ≠ .run → P s → P (s.enter d)
  lockTables : ∀ b s, P s → P { s with setup := { s.setup with locked := b } }
  takeRates : ∀ new s, s.setup.entries.any (Entry.conflicts new.fr) = false → P s → P (s.takeRates new)
  coeffs : ∀ (row : Byte) coeffs s, P s → P { s with bank := s.bank.writeRow row.toNat coeffs }
  selectBank : ∀ b s, (b = true → s.bank.full = true) → P s → P { s with setup := { s.setup with bankLoaded := b } }
  setDeck : ∀ d s, P s → P { s with setup := { s.setup with deck := Deck.clamped d } }
  setPosition : ∀ (x : BitVec 24) s, P s
    → P (s.onPart fun p => { p with pos := { p.pos with position := x.toNat, referenced := true } }.follow s.setup)
  windStart : ∀ d s, s.part.atRest = true → P s → P (s.onPart (Part.windStart d))
  seekStart : ∀ n s, s.part.atRest = true → P s → P (s.onPart (Part.seekStart s.setup n))
  rewindStart : ∀ s, s.part.atRest = true → P s → P (s.onPart Part.rewindStart)
  stop : ∀ s, P s → P (s.onPart fun p => (p.endAs s.setup .aborted .stopCommand).takeStop s.setup)
  surveyStart : ∀ l src f c w n s, s.part.atRest = true → P s → P (s.onPart (Part.surveyStart s.setup l src f c w n))
  loadSegment : ∀ a x s, checkSegment s.setup.rates.fr a = .passed x → loadBlocked s.setup s.part x = none → P s
    → P (s.editTable (insertSegment x.entry s.setup.entries))
  deleteSegment : ∀ n s, P s → P (s.editTable (s.setup.entries.filter fun e => e.start != n))
  clearSegments : ∀ s, P s → P (s.editTable [])
  takeStart : ∀ e s, s.part.atRest = true → P s → P (s.onPart (Part.takeStart s.setup e))
  readDropouts : ∀ n s, P s → P (s.onPart fun p => { p with log := p.log.drop n })
  takePolicies : ∀ ids policy scope s, (∀ id ∈ ids, policy ∈ CondId.allowed id) → P s → P (s.takePolicies ids policy scope)
  clearConditions : ∀ c s, P s → P (s.onPart fun p => { p with cmn := c })
  setNoticeMask : ∀ m s, P s → P { s with setup := { s.setup with mask := m } }
  setMonitor : ∀ m s, P s → P { s with setup := { s.setup with monitor := m } }
  setOutput : ∀ v s, P s → P { s with setup := { s.setup with threshold := thresholdOf v } }

/-- P survives every owner, every event, and any change of the message port but its notices. -/
structure Keeps (P : State → Prop) : Prop extends OwnersKeep P where
  port : ∀ s m, m.notices = s.part.msp.notices → P s → P { s with part := { s.part with msp := m } }
  accept : ∀ s b, P s → P (s.onPart fun p => { p with osc := { p.osc with accept := b } })
  cellError : ∀ s, P s → P s.cellError
  hardReset : ∀ v s, P s → P (hardResetState v s)
  frameSlot : ∀ bytes s, P s → P (frameSlot bytes s)
  wordSent : ∀ s, P s → P (s.onPart fun p => { p with hcr := p.hcr.wordSent })
  works : ∀ s q, s.part.Works q → s.part.Calm q → P s → P { s with part := q }
  takeStop : ∀ s, P s → P (s.onPart (Part.takeStop s.setup))
  upstreamSlot : ∀ s, P s → P (s.onPart (Part.upstreamSlot s.setup s.rings s.bank))
  tick : ∀ phase now s, P s → P (s.onPart (Part.tick s.setup phase now))
  qualify : ∀ s, P s → P (s.onPart Part.qualify)
  surveyIfCounted : ∀ s, P s → P (s.onPart (Part.surveyIfCounted s.setup))
  pulse : ∀ s, P s → P (s.onPart Part.pulse)
  slipClose : ∀ s, P s → P (s.onPart (Part.slipClose s.setup))
  leaderChange : ∀ s, P s → P (s.onPart (Part.leaderChange s.setup))
  insertCassette : ∀ s, P s → P (s.onPart (Part.insertCassette s.setup))
  removeCassette : ∀ s, P s → P (s.onPart (Part.removeCassette s.setup))
  settleExpiry : ∀ s, P s → P (s.onPart (Part.settleExpiry s.setup))
  stallExpiry : ∀ s, P s → P (s.onPart (Part.stallExpiry s.setup))
  startingExpiry : ∀ s, P s → P (s.onPart (Part.startingExpiry s.setup))
  leaderLimitExpiry : ∀ s, P s → P (s.onPart (Part.leaderLimitExpiry s.setup))
  bothPhases : ∀ s, P s → P (s.onPart Part.bothPhases)

variable {P : State → Prop}

/-! ## The owners -/

theorem OwnersKeep.ownSetState (h : OwnersKeep P) (t : Byte) (s : State) (ha : Cmd.setState.admitted s.part.take.device = true) (p : P s) :
    P (ownSetState t s).state := by
  rcases ownSetState_cases t s with e | ⟨d, hd, e⟩ <;> rw [e]
  · exact p
  · refine h.enter d s hd (fun hr => ?_) p
    rw [hr] at ha
    cases ha

theorem OwnersKeep.ownLockTables (h : OwnersKeep P) (f : Byte) (s : State) (p : P s) : P (ownLockTables f s).state := by
  rcases ownLockTables_cases f s with e | ⟨b, e⟩ <;> rw [e]
  · exact p
  · exact h.lockTables b s p

theorem OwnersKeep.ownSetRates (h : OwnersKeep P) (fr fo : BitVec 24) (s : State) (p : P s) : P (ownSetRates fr fo s).state := by
  rcases ownSetRates_cases fr fo s with e | ⟨new, hc, e⟩ <;> rw [e]
  · exact p
  · exact h.takeRates new s hc p

theorem OwnersKeep.ownLoadCoeffRow (h : OwnersKeep P) (row : Byte) (c : List (BitVec 24)) (s : State) (p : P s) :
    P (ownLoadCoeffRow row c s).state := by
  rcases ownLoadCoeffRow_cases row c s with e | e <;> rw [e]
  · exact p
  · exact h.coeffs row _ s p

theorem OwnersKeep.ownSelectBank (h : OwnersKeep P) (b : Byte) (s : State) (p : P s) : P (ownSelectBank b s).state := by
  rcases ownSelectBank_cases b s with e | ⟨b, hb, e⟩ <;> rw [e]
  · exact p
  · exact h.selectBank b s hb p

theorem OwnersKeep.ownSetDeck (h : OwnersKeep P) (a : DeckArgs) (s : State) (p : P s) : P (ownSetDeck a s).state := by
  rcases ownSetDeck_cases a s with e | e <;> rw [e]
  · exact p
  · exact h.setDeck _ s p

theorem OwnersKeep.ownSetPosition (h : OwnersKeep P) (x : BitVec 24) (s : State) (p : P s) : P (ownSetPosition x s).state := by
  rcases ownSetPosition_cases x s with e | e <;> rw [e]
  · exact p
  · exact h.setPosition x s p

theorem OwnersKeep.ownWind (h : OwnersKeep P) (d : Byte) (s : State) (p : P s) : P (ownWind d s).state := by
  rcases ownWind_cases d s with e | ⟨d, hr, e⟩ <;> rw [e]
  · exact p
  · exact h.windStart d s hr p

theorem OwnersKeep.ownSeek (h : OwnersKeep P) (x : BitVec 24) (s : State) (p : P s) : P (ownSeek x s).state := by
  rcases motion_cases (Part.seekStart s.setup x.toNat) s with e | ⟨hr, e⟩ <;> rw [Machine.ownSeek, e]
  · exact p
  · exact h.seekStart _ s hr p

theorem OwnersKeep.ownRewindToLeader (h : OwnersKeep P) (s : State) (p : P s) : P (ownRewindToLeader s).state := by
  rcases motion_cases Part.rewindStart s with e | ⟨hr, e⟩ <;> rw [Machine.ownRewindToLeader, e]
  · exact p
  · exact h.rewindStart s hr p

theorem OwnersKeep.ownSurvey (h : OwnersKeep P) (a : SurveyArgs) (s : State) (p : P s) : P (ownSurvey a s).state := by
  rcases ownSurvey_cases a s with e | ⟨l, src, f, c, w, n, hr, e⟩ <;> rw [e]
  · exact p
  · exact h.surveyStart l src f c w n s hr p

theorem OwnersKeep.ownLoadSegment (h : OwnersKeep P) (a : SegmentArgs) (s : State) (p : P s) : P (ownLoadSegment a s).state := by
  rcases ownLoadSegment_cases a s with e | ⟨x, hx, hb, e⟩ <;> rw [e]
  · exact p
  · exact h.loadSegment a x s hx hb p

theorem OwnersKeep.ownDeleteSegment (h : OwnersKeep P) (x : BitVec 24) (s : State) (p : P s) : P (ownDeleteSegment x s).state := by
  rcases ownDeleteSegment_cases x s with e | e <;> rw [e]
  · exact p
  · exact h.deleteSegment _ s p

theorem OwnersKeep.ownStartTake (h : OwnersKeep P) (f : Byte) (x : BitVec 24) (s : State) (p : P s) : P (ownStartTake f x s).state := by
  rcases ownStartTake_cases f x s with e | ⟨end_, -, hr, e⟩ <;> rw [e]
  · exact p
  · exact h.takeStart end_ s hr p

theorem OwnersKeep.ownSetPolicy (h : OwnersKeep P) (a : PolicyArgs) (s : State) (p : P s) : P (ownSetPolicy a s).state := by
  rcases ownSetPolicy_cases a s with e | ⟨ids, policy, scope, ha, e⟩ <;> rw [e]
  · exact p
  · exact h.takePolicies ids policy scope s ha p

theorem OwnersKeep.ownSetNoticeMask (h : OwnersKeep P) (f : List Byte) (s : State) (p : P s) : P (ownSetNoticeMask f s).state := by
  rcases ownSetNoticeMask_cases f s with e | ⟨m, e⟩ <;> rw [e]
  · exact p
  · exact h.setNoticeMask m s p

theorem OwnersKeep.ownSetMonitor (h : OwnersKeep P) (a b : Byte) (s : State) (p : P s) : P (ownSetMonitor a b s).state := by
  rcases ownSetMonitor_cases a b s with e | ⟨m, e⟩ <;> rw [e]
  · exact p
  · exact h.setMonitor m s p

/-! ## Commands as messages and as rows -/

/-- The command a message spells is a run of its owner, and P survives that owner. -/
theorem OwnersKeep.message (h : OwnersKeep P) (i : Instr) (s : State) (p : P s) :
    runMessage i s = s ∨ ∃ (k : Cmd) (tag : Byte) (owner : State → Answer), runMessage i s = runCommand k tag owner s
      ∧ (k.admitted s.part.take.device = true → P (owner s).state) := by
  cases i <;> first
    | exact .inl rfl
    | exact .inr ⟨_, _, _, rfl, fun _ => h.softReset s p⟩
    | exact .inr ⟨_, _, _, rfl, fun _ => p⟩
    | exact .inr ⟨_, _, _, rfl, fun ha => h.ownSetState _ s ha p⟩
    | exact .inr ⟨_, _, _, rfl, fun _ => h.ownLockTables _ s p⟩
    | exact .inr ⟨_, _, _, rfl, fun _ => h.ownSetRates _ _ s p⟩
    | exact .inr ⟨_, _, _, rfl, fun _ => h.ownLoadCoeffRow _ _ s p⟩
    | exact .inr ⟨_, _, _, rfl, fun _ => h.ownSelectBank _ s p⟩
    | exact .inr ⟨_, _, _, rfl, fun _ => h.ownSetDeck _ s p⟩
    | exact .inr ⟨_, _, _, rfl, fun _ => h.ownSetPosition _ s p⟩
    | exact .inr ⟨_, _, _, rfl, fun _ => h.ownWind _ s p⟩
    | exact .inr ⟨_, _, _, rfl, fun _ => h.ownSeek _ s p⟩
    | exact .inr ⟨_, _, _, rfl, fun _ => h.ownRewindToLeader s p⟩
    | exact .inr ⟨_, _, _, rfl, fun _ => h.stop s p⟩
    | exact .inr ⟨_, _, _, rfl, fun _ => h.ownSurvey _ s p⟩
    | exact .inr ⟨_, _, _, rfl, fun _ => h.ownLoadSegment _ s p⟩
    | exact .inr ⟨_, _, _, rfl, fun _ => h.ownDeleteSegment _ s p⟩
    | exact .inr ⟨_, _, _, rfl, fun _ => h.clearSegments s p⟩
    | exact .inr ⟨_, _, _, rfl, fun _ => by rw [ownReadSegment_state]; exact p⟩
    | exact .inr ⟨_, _, _, rfl, fun _ => h.ownStartTake _ _ s p⟩
    | exact .inr ⟨_, _, _, rfl, fun _ => h.readDropouts _ s p⟩
    | exact .inr ⟨_, _, _, rfl, fun _ => h.ownSetPolicy _ s p⟩
    | exact .inr ⟨_, _, _, rfl, fun _ => h.clearConditions _ s p⟩
    | exact .inr ⟨_, _, _, rfl, fun _ => h.ownSetNoticeMask _ s p⟩
    | exact .inr ⟨_, _, _, rfl, fun _ => h.ownSetMonitor _ _ s p⟩
    | exact .inr ⟨_, _, _, rfl, fun _ => h.setOutput _ s p⟩

theorem Keeps.runMessage (h : Keeps P) (i : Instr) (s : State) (p : P s) : P (runMessage i s) := by
  rcases h.message i s p with e | ⟨k, tag, owner, e, ho⟩ <;> rw [e]
  · exact p
  · exact keeps_runCommand h.port k tag owner s ho p

/-- A command's row is its owner at the port, and P survives that owner. -/
theorem OwnersKeep.row (h : OwnersKeep P) (i : Instr) (hi : isCommand i = true) (s : State) (p : P s) :
    ∃ (k : Cmd) (tag : Byte) (b : Bool) (owner : State → Answer), exec i s = .next (portSized k tag b owner s)
      ∧ (k.admitted s.part.take.device = true → P (owner s).state) := by
  cases i
  case softReset tag => exact ⟨.softReset, tag, true, Machine.ownSoftReset, rfl, fun _ => h.softReset s p⟩
  case identify tag => exact ⟨.identify, tag, true, Machine.ownIdentify, rfl, fun _ => p⟩
  case readStatus tag => exact ⟨.readStatus, tag, true, Machine.ownReadStatus, rfl, fun _ => p⟩
  case setState tag x => exact ⟨.setState, tag, true, (Machine.ownSetState x), rfl, fun ha => h.ownSetState _ s ha p⟩
  case lockTables tag x => exact ⟨.lockTables, tag, true, (Machine.ownLockTables x), rfl, fun _ => h.ownLockTables _ s p⟩
  case setRates tag x y => exact ⟨.setRates, tag, true, (Machine.ownSetRates x y), rfl, fun _ => h.ownSetRates _ _ s p⟩
  case loadCoeffRow tag x c => exact ⟨.loadCoeffRow, tag, (c.length == 32), (Machine.ownLoadCoeffRow x c), rfl, fun _ => h.ownLoadCoeffRow _ _ s p⟩
  case selectBank tag x => exact ⟨.selectBank, tag, true, (Machine.ownSelectBank x), rfl, fun _ => h.ownSelectBank _ s p⟩
  case setDeck tag x => exact ⟨.setDeck, tag, true, (Machine.ownSetDeck x), rfl, fun _ => h.ownSetDeck _ s p⟩
  case setPosition tag x => exact ⟨.setPosition, tag, true, (Machine.ownSetPosition x), rfl, fun _ => h.ownSetPosition _ s p⟩
  case wind tag x => exact ⟨.wind, tag, true, (Machine.ownWind x), rfl, fun _ => h.ownWind _ s p⟩
  case seek tag x => exact ⟨.seek, tag, true, (Machine.ownSeek x), rfl, fun _ => h.ownSeek _ s p⟩
  case rewindToLeader tag => exact ⟨.rewindToLeader, tag, true, Machine.ownRewindToLeader, rfl, fun _ => h.ownRewindToLeader s p⟩
  case stop tag => exact ⟨.stop, tag, true, Machine.ownStop, rfl, fun _ => h.stop s p⟩
  case survey tag x => exact ⟨.survey, tag, true, (Machine.ownSurvey x), rfl, fun _ => h.ownSurvey _ s p⟩
  case loadSegment tag x => exact ⟨.loadSegment, tag, true, (Machine.ownLoadSegment x), rfl, fun _ => h.ownLoadSegment _ s p⟩
  case deleteSegment tag x => exact ⟨.deleteSegment, tag, true, (Machine.ownDeleteSegment x), rfl, fun _ => h.ownDeleteSegment _ s p⟩
  case clearSegments tag => exact ⟨.clearSegments, tag, true, Machine.ownClearSegments, rfl, fun _ => h.clearSegments s p⟩
  case readSegment tag x => exact ⟨.readSegment, tag, true, (Machine.ownReadSegment x), rfl, fun _ => by rw [ownReadSegment_state]; exact p⟩
  case startTake tag x y => exact ⟨.startTake, tag, true, (Machine.ownStartTake x y), rfl, fun _ => h.ownStartTake _ _ s p⟩
  case readDropouts tag x => exact ⟨.readDropouts, tag, true, (Machine.ownReadDropouts x), rfl, fun _ => h.readDropouts _ s p⟩
  case setPolicy tag x => exact ⟨.setPolicy, tag, true, (Machine.ownSetPolicy x), rfl, fun _ => h.ownSetPolicy _ s p⟩
  case clearConditions tag => exact ⟨.clearConditions, tag, true, Machine.ownClearConditions, rfl, fun _ => h.clearConditions _ s p⟩
  case setNoticeMask tag x => exact ⟨.setNoticeMask, tag, (x.length == 10), (Machine.ownSetNoticeMask x), rfl, fun _ => h.ownSetNoticeMask _ s p⟩
  case setMonitor tag x y => exact ⟨.setMonitor, tag, true, (Machine.ownSetMonitor x y), rfl, fun _ => h.ownSetMonitor _ _ s p⟩
  case setOutput tag x => exact ⟨.setOutput, tag, true, (Machine.ownSetOutput x), rfl, fun _ => h.setOutput _ s p⟩
  all_goals exact absurd hi Bool.false_ne_true

theorem Keeps.completeMessage (h : Keeps P) (kind tag : Byte) (args : List Byte) (s : State) (p : P s) :
    P (completeMessage kind tag args s) := by
  unfold Machine.completeMessage
  split
  · exact h.port _ _ rfl p
  · split
    · split
      · exact h.runMessage _ s p
      · exact h.port _ _ rfl p
    · exact h.port _ _ rfl p

theorem Keeps.gather (h : Keeps P) (m : OpenMessage) (bytes : List Byte) (s : State) (p : P s) : P (gather m bytes s) := by
  unfold Machine.gather
  dsimp only
  split
  · exact h.completeMessage _ _ _ _ (h.port _ _ rfl p)
  · exact h.port _ _ rfl p

theorem Keeps.downstreamCell (h : Keeps P) (bytes : List Byte) (s : State) (p : P s) : P (downstreamCell bytes s) := by
  unfold Machine.downstreamCell
  split
  · dsimp only
    have p := h.accept s ((bytes.headD 0).getLsbD 7) p
    generalize State.onPart s (fun p => { p with osc := { p.osc with accept := (bytes.headD 0).getLsbD 7 } }) = s at p
    split
    · unfold startCell
      split
      · split
        · exact h.port _ _ rfl p
        · exact h.gather _ _ s p
      · exact keeps_startRefused h.port h.cellError s p
    · unfold contCell
      split
      · exact h.gather _ _ s p
      · exact h.cellError s p
    · exact p
  · exact keeps_abandon h.port _ (h.cellError s p)

theorem Keeps.onWorks (h : Keeps P) (s : State) (f : Part → Part) (w : s.part.Works (f s.part)) (c : s.part.Calm (f s.part)) (p : P s) :
    P (s.onPart f) := h.works s _ w c p

/-- Every row of the table keeps P. -/
theorem Keeps.exec (h : Keeps P) (i : Instr) (s t : State) (p : P s) (e : exec i s = .next t) : P t := by
  by_cases hi : isCommand i = true
  · obtain ⟨k, tag, b, owner, he, ho⟩ := h.row i hi s p
    rw [he] at e
    injection e with e
    rw [← e]
    exact keeps_portSized h.port h.cellError k tag b owner s ho p
  have stop (f : Part → Part) (w : P (s.onPart f)) : P (s.onPart fun p => (f p).takeStop s.setup) := h.takeStop _ w
  cases i <;> first | (exact absurd rfl hi) | (injection e with e; rw [← e]; clear e t hi)
  case hardReset v => exact h.hardReset v s p
  case downstreamCell bytes => exact h.downstreamCell bytes s p
  case frameSlot bytes => exact h.frameSlot bytes s p
  case settingsWordSent => exact h.wordSent s p
  case measurementComplete l => exact stop _ (h.onWorks s _ (Part.works_measurementComplete _ l _) (Part.calm_measurementComplete _ l _) p)
  case miss l => exact stop _ (h.onWorks s _ (Part.works_missIfDue _ l _) (Part.calm_missIfDue _ l _) p)
  case tachMeasurementComplete l => exact h.onWorks s _ (Part.works_tachComplete l _) (Part.calm_tachComplete l _) p
  case holdTimerExpiry l => exact stop _ (h.onWorks s _ (Part.works_holdIfDue _ l _) (Part.calm_holdIfDue _ l _) p)
  case rampMove l => exact h.onWorks s _ (Part.works_rampIfDue _ l _) (Part.calm_rampIfDue _ l _) p
  case azimuthWindowComplete l => exact h.onWorks s _ (Part.works_azimuthComplete _ l _) (Part.calm_azimuthComplete _ l _) p
  case productionStep l =>
    unfold productionStep
    split
    · have p := h.takeStop _ (h.onWorks s (fun p => (p.stepLane s.setup s.rings s.bank l).finishIfDone s.setup l)
        ((Part.works_stepLane _ _ _ l _).trans (Part.works_finishIfDone _ l _))
        ((Part.calm_stepLane _ _ _ l _).trans (Part.calm_finishIfDone _ l _)) p)
      exact h.onWorks _ Part.closeTake (Part.works_closeTake _) (Part.calm_closeTake _) p
    · exact p
  case upstreamSlot => exact h.upstreamSlot s p
  case tick phase now => exact h.tick phase now s p
  case qualificationComplete => exact h.qualify s p
  case surveySpanCounted => exact stop _ (h.surveyIfCounted s p)
  case capstanPulse => exact h.pulse s p
  case slipWindowClose => exact stop _ (h.slipClose s p)
  case leaderSensorChange => exact stop _ (h.leaderChange s p)
  case cassetteInsertion => exact h.insertCassette s p
  case cassetteRemoval => exact stop _ (h.removeCassette s p)
  case settleTimerExpiry => exact h.settleExpiry s p
  case stallTimerExpiry => exact h.stallExpiry s p
  case startingLimit => exact h.startingExpiry s p
  case leaderSearchLimit => exact stop _ (h.leaderLimitExpiry s p)
  case clipHoldExpiry l => exact h.onWorks s _ (Part.works_clipExpire _ l _) (Part.calm_clipExpire _ l _) p
  case takeEnded => exact h.onWorks s _ (Part.works_closeTake _) (Part.calm_closeTake _) p
  case bothPhasesChange => exact h.bothPhases s p

/-- Every step keeps P, if P does not look at the queue. -/
theorem Keeps.step (h : Keeps P) (hq : ∀ s q, P s → P { s with pending := q }) (s t : State) (p : P s)
    (e : step s = .next t) : P t := by
  unfold Machine.step at e
  split at e
  · injection e with e
    exact e ▸ p
  · exact h.exec _ _ t (hq s _ p) e

end Sys2Proof.Machine
end

