-- ==== Sys2Proof/Tests/Slice0.lean ====
section
/-! SUPPORT. The model's own tests: ill-formed rows refused, the manual's worked numbers, and for every statement of the obligations states that meet its hypotheses. -/

namespace Sys2Proof.Tests

open Sys2Proof.Machine Sys2Proof.Safety

set_option Elab.async false

/-! ## Well-formedness -/

theorem test_wf_coefficients : WellFormed (.loadCoeffRow 0 0 (List.replicate 32 0)) = true
    ∧ WellFormed (.loadCoeffRow 0 0 (List.replicate 31 0)) = false ∧ WellFormed (.loadCoeffRow 0 0 []) = false := by decide

theorem test_wf_mask : WellFormed (.setNoticeMask 0 (List.replicate 10 0)) = true
    ∧ WellFormed (.setNoticeMask 0 (List.replicate 11 0)) = false := by decide

theorem test_wf_cell : WellFormed (.downstreamCell (List.replicate 8 0)) = true
    ∧ WellFormed (.downstreamCell (List.replicate 7 0)) = false ∧ WellFormed (.downstreamCell (List.replicate 9 0)) = false := by
  decide

theorem test_wf_slot : WellFormed (.frameSlot []) = true ∧ WellFormed (.frameSlot (List.replicate 14 0)) = true
    ∧ WellFormed (.frameSlot (List.replicate 15 0)) = false := by decide

/-- No row of the table has bits. -/
theorem test_decode_no_bits : decodeTableWord 8 0x01 = none ∧ decodeTableWord 16 0x1234 = none := by decide

/-! ## Small states -/

/-- One row taken. -/
def ran (i : Instr) (s : State) : State := afterRows s [i]

/-- Kind and code of every queued reply. -/
def answers (s : State) : List (Byte × ReplyCode) := s.part.msp.replies.map fun r => (r.kind, r.code)

/-- The contents of the queued notices. -/
def posted (s : State) : List NoticeContent := s.part.msp.notices.map Notice.content

def onTransport (f : Transport → Transport) (s : State) : State := s.onPart fun p => { p with trc := f p.trc }

def onReceiver (f : HeadReceiver → HeadReceiver) (s : State) : State := s.onPart fun p => { p with hcr := f p.hcr }

def onTake (f : TakeControl → TakeControl) (s : State) : State := s.onPart fun p => { p with take := f p.take }

def onPort (f : MessagePort → MessagePort) (s : State) : State := s.onPart fun p => { p with msp := f p.msp }

def onOutput (f : Scheduler → Scheduler) (s : State) : State := s.onPart fun p => { p with osc := f p.osc }

def onLaneA (f : Producer → Producer) (s : State) : State := s.onPart fun p => { p with lanes := { p.lanes with a := f p.lanes.a } }

def onTrackerA (f : Tracker → Tracker) (s : State) : State := s.onPart fun p => { p with rft := { p.rft with a := f p.rft.a } }

def onSetup (f : Setup → Setup) (s : State) : State := { s with setup := f s.setup }

/-- CONFIGURE, a cassette present, position 1,000 referenced. -/
def cfg : State :=
  State.reset.onPart fun p => { p with take := { p.take with device := .configure }, pos := ⟨1000, true, false, false, true⟩ }

/-- The transport in a state with an operation record, its settle, stall and STARTING timers started at 5. -/
def moves (st : TransportState) (op : OpRecord) (s : State) : State :=
  onTransport (fun t => { t with state := st, op := op, settleTimer := some 5, stallTimer := some 5, startTimer := some 5 }) s

/-- A SEEK to 2,000 in a phase, with its wind-phase count. -/
def seekOp (phase : OpPhase) (winds : Nat) : OpRecord :=
  { OpRecord.idle with kind := .seek, target := some 2000, windPoint := some 1600, phase := some phase, windCount := some winds }

/-- A take in PLAYING in RUN, its record open, its end position 1,001, frames 0..99 written, the link following at 7. -/
def playing : State :=
  onReceiver (fun h => { h with link := .following, expected := 7, capturing := true, nextIndex := 100 })
    (onTake (fun t => { t with device := .run, number := 3, record := some ⟨some 1001, none, none, none⟩ })
      (moves .playing { OpRecord.idle with kind := .take, endPosition := some 1001 } cfg))

/-- A lane part as sent that lies in every range: BIAS at 96,000 Hz, C 16. -/
def biasPart : PartArgs :=
  { source := 0, fRef := 1536000, c := 16, w := 20, k := 2, slew := 1000, acquire := 4, missCount := 3, hold := 50, gate := 2048,
    azMode := 0, fixedOffset := 0, theta := 128, ka := 3, pairing := 0, policy := 1, depth := 64, release := 128, onset := 2,
    releaseCount := 4, blanking := 32, eq := 0 }

/-- LOAD_SEGMENT of a BIAS part for lane A at a start position. -/
def segment (start : BitVec 24) (replace : Byte) : SegmentArgs := ⟨start, 7, replace, 1, 0, biasPart, biasPart⟩

/-- A state at a tape position with the two phase levels. -/
def at_ (position : Nat) (phase1 phase2 : Bool) (s : State) : State :=
  s.onPart fun p => { p with pos := { p.pos with position := position, phase1 := phase1, phase2 := phase2 } }

/-- A table entry with the default part for lane A. -/
def entryAt (start : Nat) : Entry := ⟨start, 1, ⟨some Settings.defaults, none⟩⟩

/-! ## The machine and its resets -/

theorem test_step_front : (step { cfg with pending := [.identify 9] }) matches .next _ := by decide +kernel

theorem test_hardReset_levels : (ran (.hardReset ⟨true, false, true, true⟩) playing).part = Part.reset ⟨true, false, true, true⟩
    ∧ (ran (.hardReset ⟨true, false, true, true⟩) playing).setup = Setup.reset := by decide +kernel

theorem test_softReset : playing.part.ready = true ∧ playing.part.trc.state.moving = true
    ∧ answers (ran (.softReset 1) playing) = [(0x04, .ok)] ∧ (ran (.softReset 1) playing).part.trc.state = .settling
    ∧ (ran (.softReset 1) playing).part.take = ⟨.standby, 3, none⟩ := by decide +kernel

theorem test_softReset_still : (ran (.softReset 1) cfg).part.trc.state = .stopped
    ∧ (ran (.softReset 1) (moves .settling OpRecord.idle cfg)).part.trc.settleTimer = some 5
    ∧ (ran (.softReset 1) (onSetup (fun u => { u with locked := true, entries := [entryAt 5] }) cfg)).setup.entries = [entryAt 5]
    ∧ (ran (.softReset 1) (onSetup (fun u => { u with entries := [entryAt 5] }) cfg)).setup.entries = [] := by decide +kernel

/-- A dirty lane, tracker, half, detector and concealment record are as after reset; the governing entry is the position's. -/
theorem test_softReset_blocks (s t : State) (hs : s = onTrackerA (fun x => { x with lock := .hold, hold := some 5, tachOpen := some ⟨1, 2, 3⟩ })
      (onLaneA (fun x => { x with state := .active, acc := 9, az := 4 }) (cfg.onPart fun p => { p with
        con := { p.con with t1 := ⟨3, .partner, []⟩ }, osc := { p.osc with slotsSince := 9, lastServed := .a, pattern := 0xAA } })))
    (ht : t = ran (.softReset 1) (onSetup (fun u => { u with entries := [entryAt 5], locked := true }) s)) :
    t.part.lanes.a = Producer.reset 67108864 ∧ t.part.rft.a.settings = Settings.defaults ∧ t.part.rft.a.tachOpen = none
      ∧ t.part.con.t1 = ⟨64, .zero, []⟩ ∧ (t.part.osc.slotsSince, t.part.osc.lastServed, t.part.osc.pattern) = (0, .b, 0x55)
      ∧ t.part.sgt = ⟨some (entryAt 5), ⟨some (entryAt 5), none⟩⟩ := by subst ht hs; decide +kernel

theorem test_invariants_at_playing : buffersCanonical playing = true ∧ queuesHold playing = true ∧ registersHold playing = true
    ∧ setupLegal playing = true := by decide +kernel

theorem test_playing_legal : Part.playLegal playing.part :=
  ⟨by decide, by decide, by decide, by decide, by decide, fun _ h => by cases h⟩

theorem test_cfg_legal : Part.playLegal cfg.part :=
  ⟨by decide, by decide, by decide, by decide, by decide, fun _ h => by cases h⟩

theorem test_cfg_rests : Part.restsOutsideRun cfg.part ∧ Part.spansFollow cfg.part := by
  constructor
  · intro _ l; cases l <;> exact ⟨rfl, by decide, by decide, rfl, rfl, fun tr _ => by cases tr <;> exact ⟨rfl, rfl⟩⟩
  · intro tr; cases tr <;> exact ⟨fun _ _ hx => (List.not_mem_nil hx).elim, fun h => absurd rfl h⟩

/-! ## Commands -/

theorem test_identify : answers (ran (.identify 1) State.reset) = [(0x01, .ok)]
    ∧ (ran (.identify 1) State.reset).part.msp.replies.map (fun r => r.results.length) = [12] := by decide +kernel

theorem test_readStatus : answers (ran (.readStatus 1) playing) = [(0x02, .ok)]
    ∧ (ran (.readStatus 1) playing).part.msp.replies.map (fun r => (r.results.length, r.results.take 8))
        = [(49, [2, 3, 0, 3, 0xE8, 3, 0, 3])] := by decide +kernel

/-- Byte 40: T2 DROPPED and T4 RELEASING. -/
theorem test_readStatus_detectors : (ran (.readStatus 1) (cfg.onPart fun p => { p with det := { p.det with
      t2 := { p.det.t2 with state := .dropped }, t4 := { p.det.t4 with state := .releasing } } })).part.msp.replies.map
        (fun r => r.results[40]?) = [some 0xC8] := by decide +kernel

theorem test_setState_taken : (ran (.setState 1 1) State.reset).part.take.device = .configure
    ∧ (ran (.setState 1 0) State.reset).part.take.device = .standby ∧ (ran (.setState 1 0) cfg).part.take.device = .standby
    ∧ answers (ran (.setState 1 1) cfg) = [(0x03, .ok)] := by decide +kernel

theorem test_setState_refused : answers (ran (.setState 1 1) playing) = [(0x03, .wrongState)]
    ∧ answers (ran (.setState 1 2) cfg) = [(0x03, .badValue)] ∧ answers (ran (.setState 1 255) cfg) = [(0x03, .badValue)]
    ∧ answers (ran (.setState 1 1) (moves .settling OpRecord.idle State.reset)) = [(0x03, .busy)]
    ∧ answers (ran (.setState 1 0) (moves .settling OpRecord.idle cfg)) = [(0x03, .busy)] := by decide +kernel

theorem test_lockTables : answers (ran (.lockTables 1 1) State.reset) = [(0x05, .wrongState)]
    ∧ (ran (.lockTables 1 1) cfg).setup.locked = true ∧ (ran (.lockTables 1 0) cfg).setup.locked = false
    ∧ answers (ran (.lockTables 1 2) cfg) = [(0x05, .badValue)] := by decide +kernel

/-- An entry whose f_ref, 160,000 Hz, only the greater raw rate can carry. -/
def fastEntry : Entry := ⟨5, 1, ⟨some { Settings.defaults with source := .bias, fRef := 2560000, c := 7 }, none⟩⟩

/-- An entry whose C stands at the lower bound of the greater raw rate. -/
def slowEntry : Entry := ⟨5, 1, ⟨some { Settings.defaults with source := .bias, fRef := 1536000, c := 4 }, none⟩⟩

theorem test_setRates_taken : answers (ran (.setRates 1 352800 44100) cfg) = [(0x06, .ok)]
    ∧ (ran (.setRates 1 352800 44100) cfg).setup.rates = .r352x44
    ∧ (ran (.setRates 1 352800 44100) cfg).part.rft.a.step = 134217728
    ∧ (ran (.setRates 1 384000 96000) cfg).setup.rates = .r384x96
    ∧ answers (ran (.setRates 1 352800 88200) (onSetup (fun u => { u with entries := [slowEntry] }) cfg)) = [(0x06, .adjusted)] := by
  decide +kernel

theorem test_setRates_refused : answers (ran (.setRates 1 384000 44100) cfg) = [(0x06, .badValue)]
    ∧ answers (ran (.setRates 1 384000 48000) (onLaneA (fun x => { x with state := .draining }) cfg)) = [(0x06, .busy)]
    ∧ answers (ran (.setRates 1 352800 88200) (onSetup (fun u => { u with entries := [fastEntry] }) cfg)) = [(0x06, .conflict)] := by
  decide +kernel

theorem test_loadCoeffRow : answers (ran (.loadCoeffRow 1 255 (List.replicate 32 0x07FFFF)) cfg) = [(0x07, .ok)]
    ∧ (ran (.loadCoeffRow 1 255 (List.replicate 32 0x080000)) cfg).bank.row 255 = List.replicate 32 524287
    ∧ (ran (.loadCoeffRow 1 0 (List.replicate 32 0xF7FFFF)) cfg).bank.row 0 = List.replicate 32 (-524288)
    ∧ answers (ran (.loadCoeffRow 1 0 (List.replicate 32 0xF7FFFF)) cfg) = [(0x07, .adjusted)]
    ∧ answers (ran (.loadCoeffRow 1 0 (List.replicate 32 0)) State.reset) = [(0x07, .wrongState)]
    ∧ answers (ran (.loadCoeffRow 1 0 (List.replicate 32 0)) (onLaneA (fun x => { x with state := .active }) cfg))
        = [(0x07, .busy)]
    ∧ cfg.bank.coeffs.wf = true ∧ cfg.bank.written.wf = true := by decide +kernel

/-- A bank whose 256 rows are all marked written. -/
def fullBank : LoadedBank := ⟨[], (List.range 256).map fun r => (r, 1)⟩

theorem test_selectBank : answers (ran (.selectBank 1 2) cfg) = [(0x08, .badValue)]
    ∧ answers (ran (.selectBank 1 1) (onLaneA (fun x => { x with state := .active }) cfg)) = [(0x08, .busy)]
    ∧ answers (ran (.selectBank 1 0) cfg) = [(0x08, .ok)] ∧ answers (ran (.selectBank 1 1) cfg) = [(0x08, .conflict)]
    ∧ (ran (.selectBank 1 1) { cfg with bank := fullBank }).setup.bankLoaded = true := by decide +kernel

/-- Every row of the full bank is marked: the premise of the selection that is taken. -/
theorem test_fullBank : ∀ r < 256, fullBank.written.read r ≠ 0 := by decide +kernel

/-- SET_DECK at and below the lower bounds. -/
def lowDeck : DeckArgs := ⟨160, 16, 128, 1, 16, 100, 100, 9⟩

theorem test_setDeck : (ran (.setDeck 1 lowDeck) cfg).setup.deck = ⟨160, 16, 128, 1, 16, 100, 100, 10⟩
    ∧ answers (ran (.setDeck 1 lowDeck) cfg) = [(0x09, .adjusted)]
    ∧ answers (ran (.setDeck 1 ⟨16000, 65535, 255, 15, 4096, 2000, 1000, 600⟩) cfg) = [(0x09, .ok)]
    ∧ answers (ran (.setDeck 1 lowDeck) State.reset) = [(0x09, .wrongState)]
    ∧ answers (ran (.setDeck 1 lowDeck) (moves .settling OpRecord.idle cfg)) = [(0x09, .busy)] := by decide +kernel

theorem test_setMonitor : (ran (.setMonitor 1 1 1) cfg).setup.monitor = ⟨.speed .a, true, 0⟩
    ∧ (ran (.setMonitor 1 12 0) cfg).setup.monitor = ⟨.dropRef .t4, false, 0⟩
    ∧ answers (ran (.setMonitor 1 13 0) cfg) = [(0x19, .badValue)] ∧ answers (ran (.setMonitor 1 0 2) cfg) = [(0x19, .badValue)]
    ∧ answers (ran (.setMonitor 1 0 0) State.reset) = [(0x19, .wrongState)] := by decide +kernel

theorem test_setOutput : [63, 64, 127, 128, 960, 961].map (fun v => (ran (.setOutput 1 v) cfg).setup.threshold)
      = [64, 64, 64, 128, 960, 960]
    ∧ answers (ran (.setOutput 1 127) cfg) = [(0x1A, .adjusted)] ∧ answers (ran (.setOutput 1 128) cfg) = [(0x1A, .ok)]
    ∧ answers (ran (.setOutput 1 128) State.reset) = [(0x1A, .wrongState)] := by decide +kernel

theorem test_setPosition : (ran (.setPosition 1 0xFFFFFF) cfg).part.pos = ⟨16777215, true, false, false, true⟩
    ∧ answers (ran (.setPosition 1 5) playing) = [(0x0A, .wrongState)]
    ∧ answers (ran (.setPosition 1 5) (moves .settling OpRecord.idle cfg)) = [(0x0A, .busy)]
    ∧ answers (ran (.setPosition 1 5) (ran .cassetteRemoval cfg)) = [(0x0A, .conflict)] := by decide +kernel

theorem test_wind : (ran (.wind 1 0) cfg).part.trc.state = .windingFwd ∧ (ran (.wind 1 1) cfg).part.trc.state = .windingRev
    ∧ answers (ran (.wind 1 2) cfg) = [(0x0B, .badValue)]
    ∧ answers (ran (.wind 1 1) (moves .settling OpRecord.idle cfg)) = [(0x0B, .busy)]
    ∧ answers (ran (.wind 1 1) (ran .cassetteRemoval cfg)) = [(0x0B, .conflict)] := by decide +kernel

theorem test_rewindToLeader : (ran (.rewindToLeader 1) cfg).part.trc.state = .windingRev
    ∧ answers (ran (.rewindToLeader 1) cfg) = [(0x0D, .accepted)]
    ∧ answers (ran (.rewindToLeader 1) (ran .cassetteRemoval cfg)) = [(0x0D, .conflict)] := by decide +kernel

theorem test_seek : [1000, 999, 1001, 1400, 1401].map (fun x => (ran (.seek 1 x) cfg).part.trc.state)
      = [.stopped, .windingRev, .approaching, .approaching, .windingFwd]
    ∧ posted (ran (.seek 1 1000) cfg) = [.transportDone .seek .done 1000]
    ∧ answers (ran (.seek 1 5) (moves .settling OpRecord.idle cfg)) = [(0x0C, .busy)]
    ∧ answers (ran (.seek 1 5) (ran .cassetteRemoval cfg)) = [(0x0C, .conflict)] := by decide +kernel

theorem test_stop : answers (ran (.stop 1) State.reset) = [(0x0E, .wrongState)] ∧ answers (ran (.stop 1) cfg) = [(0x0E, .ok)]
    ∧ (ran (.stop 1) (moves .settling { seekOp .settle 1 with ending := some (.term .done) } cfg)).part.trc.op.ending
        = some (.term .done)
    ∧ (ran (.stop 1) (moves .settling (seekOp .settle 1) cfg)).part.trc.settleTimer = some 5
    ∧ (ran (.stop 1) (moves .approaching (seekOp .approach 1) cfg)).part.trc.op.ending = some (.term .aborted)
    ∧ (ran (.stop 1) (moves .playing { OpRecord.idle with kind := .survey } cfg)).part.trc.state = .settling := by decide +kernel

theorem test_stop_take : (ran (.stop 1) playing).part.trc.op.ending = some (.cause .stopCommand)
    ∧ (ran (.stop 1) playing).part.take = ⟨.configure, 3, some ⟨some 1001, some .stopCommand, some 99, none⟩⟩
    ∧ (ran (.stop 1) playing).part.hcr.capturing = false := by decide +kernel

/-- A take with its next raw index, lane A at an index with an entry in its timeline, tracker A LOCKED, aligner half A with a window, in
the table's entry at 700 while the current entry is still that at 500, LOCK_LOST and RANGE of lane A present. -/
def working (next index : Nat) (state : ProductionState) : State :=
  onReceiver (fun h => { h with nextIndex := next }) (onLaneA (fun x => { x with
      state := state, acc := index * 16777216, timeline := [⟨200, .azimuth 3⟩] })
    (onTrackerA (fun t => { t with lock := .locked, mode := .take, step := 68000000 })
      (onSetup (fun u => { u with entries := [entryAt 500, entryAt 700] }) (playing.onPart fun p => { p with
        sgt := ⟨some (entryAt 500), ⟨some (entryAt 500), none⟩⟩,
        aza := { p.aza with a := { p.aza.a with running := true, estimate := 7, window := some (AzimuthWindow.opened 0) } },
        cmn := { p.cmn with lockLost := ⟨⟨true, true, 0⟩, p.cmn.lockLost.b⟩, range := ⟨⟨true, true, 0⟩, p.cmn.range.b⟩ } }))))

/-- With the end raw index 99 a lane at 67 drains and one at 68 finishes; one that is IDLE stays; without an end raw index it finishes. -/
theorem test_stop_lanes : [(100, 67), (100, 68), (0, 16)].map (fun q => ((ran (.stop 1) (working q.1 q.2 .active)).part.lanes.a.state,
        (ran (.stop 1) (working q.1 q.2 .active)).part.lanes.a.timeline.length))
      = [(.draining, 1), (.idle, 0), (.idle, 0)]
    ∧ (ran (.stop 1) (working 100 68 .idle)).part.lanes = (working 100 68 .idle).part.lanes := by decide +kernel

theorem test_stop_blocks (s t : State) (hs : s = working 100 67 .active) (ht : t = ran (.stop 1) s) :
    posted t = [.lockChanged .a .locked .idle (some 99) 68000000]
      ∧ posted (ran (.stop 1) (working 0 16 .active)) = [.lockChanged .a .locked .idle none 68000000]
      ∧ t.part.rft = ⟨{ s.part.rft.a with lock := .idle, mode := .none }, { s.part.rft.b with lock := .idle, mode := .none }⟩
      ∧ t.part.cmn.lockLost.a.present = false ∧ t.part.cmn.range.a.present = false
      ∧ t.part.aza = { s.part.aza with a := { s.part.aza.a with running := false, window := none } }
      ∧ t.part.sgt = ⟨some (entryAt 700), ⟨some (entryAt 700), none⟩⟩ := by subst ht hs; decide +kernel

/-- Whatever ends the take, the lane drains, the tracker rests, the half stops and the entries are the position's. -/
theorem test_endings_tear_down (f : Instr → State → ProductionState × LockState × Bool × Option Nat)
    (hf : f = fun i s => let t := ran i s
      (t.part.lanes.a.state, t.part.rft.a.lock, t.part.aza.a.running, t.part.sgt.current.map Entry.start)) :
    [Instr.leaderSensorChange, .cassetteRemoval, .stallTimerExpiry].map (fun i => f i (working 100 67 .active))
      = List.replicate 3 (.draining, .idle, false, some 700)
    ∧ f (.tick .one 9) (at_ 1000 false false (working 100 67 .active)) = (.draining, .idle, false, some 700)
    ∧ f (.frameSlot []) (onReceiver (fun h => { h with run := 4 }) (working 100 67 .active)) = (.draining, .idle, false, some 700)
    ∧ f .startingLimit (onReceiver (fun h => { h with nextIndex := 0, capturing := false })
        (onTransport (fun t => { t with state := .starting }) (working 0 16 .active))) = (.idle, .idle, false, some 700) := by
  subst hf; decide +kernel

/-- A SURVEY of lane A for BIAS at 96,000 Hz. -/
def biasSurvey : SurveyArgs := ⟨0, 0, 1536000, 16, 20, 500⟩

theorem test_survey : answers (ran (.survey 1 biasSurvey) cfg) = [(0x0F, .accepted)]
    ∧ (ran (.survey 1 biasSurvey) cfg).part.trc.state = .starting
    ∧ answers (ran (.survey 1 { biasSurvey with span := 0 }) cfg) = [(0x0F, .adjusted)]
    ∧ answers (ran (.survey 1 { biasSurvey with lane := 1, source := 3, fRef := 0, c := 16 }) cfg) = [(0x0F, .accepted)]
    ∧ (ran (.survey 1 { biasSurvey with lane := 1, source := 3 }) cfg).part.rft.b.settings.fRef = 0 := by decide +kernel

/-- A survey's tracker starts with its filter, its crossing detector and its tach channel empty, and its own coefficients. -/
theorem test_survey_empties (t : Tracker) (ht : t = (ran (.survey 1 biasSurvey) (onTrackerA (fun t => { t with
      filter := ⟨1, 2, 3, 4⟩, last := -9, armed := true, tachOpen := some ⟨1, 2, 3⟩, tachLast := some ⟨4, 5⟩ }) cfg)).part.rft.a) :
    t.filter = ⟨0, 0, 0, 0⟩ ∧ t.last = 0 ∧ t.armed = false ∧ t.tachOpen = none ∧ t.tachLast = none
      ∧ t.coeffs = filterFor .r384x96 t.settings ∧ t.settings.fRef = 1536000 := by subst ht; decide +kernel

theorem test_survey_refused : answers (ran (.survey 1 { biasSurvey with lane := 2 }) cfg) = [(0x0F, .badValue)]
    ∧ answers (ran (.survey 1 { biasSurvey with source := 4 }) cfg) = [(0x0F, .badValue)]
    ∧ answers (ran (.survey 1 { biasSurvey with fRef := 2764800 }) cfg) = [(0x0F, .conflict)]
    ∧ answers (ran (.survey 1 { biasSurvey with fRef := 2764799 }) cfg) = [(0x0F, .accepted)]
    ∧ answers (ran (.survey 1 biasSurvey) (moves .settling OpRecord.idle cfg)) = [(0x0F, .busy)]
    ∧ answers (ran (.survey 1 biasSurvey) (ran .cassetteRemoval cfg)) = [(0x0F, .conflict)]
    ∧ answers (ran (.survey 1 biasSurvey) (cfg.onPart fun p => p.setFlag .stall)) = [(0x0F, .faultActive)] := by decide +kernel

/-- Sixty-four entries, at 10, 20, … 640. -/
def fullTable : List Entry := (List.range 64).map fun k => entryAt (10 * (k + 1))

theorem test_loadSegment : answers (ran (.loadSegment 1 (segment 500 0)) cfg) = [(0x10, .ok)]
    ∧ (ran (.loadSegment 1 (segment 15 0)) (onSetup (fun u => { u with entries := [entryAt 10, entryAt 20] }) cfg)).setup.entries.map
        Entry.start = [10, 15, 20]
    ∧ answers (ran (.loadSegment 1 (segment 20 1)) (onSetup (fun u => { u with entries := fullTable }) cfg)) = [(0x10, .ok)]
    ∧ answers (ran (.loadSegment 1 { segment 500 0 with presentA := 0 }) cfg) = [(0x10, .ok)]
    ∧ answers (ran (.loadSegment 1 { segment 500 0 with partA := { biasPart with depth := 0 } }) cfg) = [(0x10, .adjusted)]
    ∧ ascending fullTable = true := by decide +kernel

theorem test_loadSegment_refused : answers (ran (.loadSegment 1 (segment 500 2)) cfg) = [(0x10, .badValue)]
    ∧ answers (ran (.loadSegment 1 { segment 500 0 with partA := { biasPart with eq := 2 } }) cfg) = [(0x10, .badValue)]
    ∧ answers (ran (.loadSegment 1 { segment 500 0 with partA := { biasPart with fRef := 2764800 } }) cfg) = [(0x10, .conflict)]
    ∧ answers (ran (.loadSegment 1 (segment 1064 0)) playing) = [(0x10, .tooLate)]
    ∧ answers (ran (.loadSegment 1 (segment 1065 0)) playing) = [(0x10, .ok)]
    ∧ answers (ran (.loadSegment 1 (segment 20 0)) (onSetup (fun u => { u with entries := fullTable }) cfg)) = [(0x10, .duplicate)]
    ∧ answers (ran (.loadSegment 1 (segment 25 1)) (onSetup (fun u => { u with entries := fullTable }) cfg)) = [(0x10, .full)] := by
  decide +kernel

theorem test_deleteSegment : answers (ran (.deleteSegment 1 5) State.reset) = [(0x11, .wrongState)]
    ∧ answers (ran (.deleteSegment 1 5) cfg) = [(0x11, .notFound)]
    ∧ (ran (.deleteSegment 1 10) (onSetup (fun u => { u with entries := fullTable }) cfg)).setup.entries.length = 63
    ∧ answers (ran (.deleteSegment 1 10) (onSetup (fun u => { u with entries := fullTable }) playing)) = [(0x11, .tooLate)]
    ∧ answers (ran (.deleteSegment 1 1065) (onSetup (fun u => { u with entries := [entryAt 1065] }) playing)) = [(0x11, .ok)] := by
  decide +kernel

theorem test_clearSegments : (ran (.clearSegments 1) (onSetup (fun u => { u with entries := fullTable, locked := true }) cfg)).setup.entries = []
    ∧ answers (ran (.clearSegments 1) playing) = [(0x12, .wrongState)] := by decide +kernel

theorem test_readSegment : answers (ran (.readSegment 1 0) State.reset) = [(0x13, .wrongState)]
    ∧ answers (ran (.readSegment 1 63) (onSetup (fun u => { u with entries := fullTable }) cfg)) = [(0x13, .ok)]
    ∧ (ran (.readSegment 1 63) (onSetup (fun u => { u with entries := fullTable }) cfg)).part.msp.replies.map
        (fun r => (r.results.length, r.results.take 7)) = [(67, [0, 2, 0x80, 0, 1, 1, 0])]
    ∧ answers (ran (.readSegment 1 64) (onSetup (fun u => { u with entries := fullTable }) cfg)) = [(0x13, .notFound)] := by
  decide +kernel

/-! ## Takes -/

theorem test_startTake : answers (ran (.startTake 1 1 1001) cfg) = [(0x14, .accepted)]
    ∧ (ran (.startTake 1 1 1001) cfg).part.take = ⟨.run, 1, some ⟨some 1001, none, none, none⟩⟩
    ∧ (ran (.startTake 1 0 0) (onTake (fun t => { t with number := 65535 }) cfg)).part.take.number = 1
    ∧ faultActive cfg.setup cfg.part = false ∧ (cfg.part.effective .a).source = .nominal := by decide +kernel

/-- An entry that gives lane A a BIAS part. -/
def biasEntry (start : Nat) : Entry :=
  ⟨start, 9, ⟨some { Settings.defaults with source := .bias, fRef := 1536000, azMode := .track, blanking := 0 }, none⟩⟩

theorem test_entry_bytes : (biasEntry 5).bytes.take 37 = [0, 0, 5, 0, 9, 1, 0, 0, 0x17, 0x70, 0, 0, 16, 20, 2, 1, 0x86, 0xA0, 4, 3, 50, 0, 8,
      0, 1, 0, 0, 128, 3, 0, 1, 64, 128, 2, 4, 0, 0]
    ∧ (biasEntry 5).bytes.drop 37 = List.replicate 30 0 := by decide +kernel

/-- The tape in a BIAS entry: the tracker searches, the aligner half opens a window at 0. -/
theorem test_startTake_measured (s t : State) (hs : s = cfg.onPart fun p => { p with sgt := ⟨some (biasEntry 5), ⟨some (biasEntry 5), none⟩⟩ })
    (ht : t = ran (.startTake 1 0 0) s) : posted t = [.lockChanged .a .idle .search (some 0) 67108864]
      ∧ t.part.rft.a.lock = .search ∧ t.part.rft.b.lock = .idle ∧ t.part.aza.a.window = some (AzimuthWindow.opened 0)
      ∧ t.part.aza.b.window = none := by subst hs ht; decide +kernel

/-- Both lanes OFF, by an entry the tape is in. -/
def bothOff : State :=
  cfg.onPart fun p => { p with sgt := { p.sgt with arrival := .both (some ⟨0, 0, .both (some { Settings.defaults with source := .off })⟩) } }

theorem test_startTake_refused : answers (ran (.startTake 1 2 0) cfg) = [(0x14, .badValue)]
    ∧ answers (ran (.startTake 1 0 0) (moves .settling OpRecord.idle cfg)) = [(0x14, .busy)]
    ∧ answers (ran (.startTake 1 0 0) (ran .cassetteRemoval cfg)) = [(0x14, .conflict)]
    ∧ answers (ran (.startTake 1 0 0) (ran .cassetteInsertion (ran .cassetteRemoval cfg))) = [(0x14, .notReferenced)]
    ∧ answers (ran (.startTake 1 0 0) (cfg.onPart fun p => p.setFlag .stall)) = [(0x14, .faultActive)]
    ∧ answers (ran (.startTake 1 1 1000) cfg) = [(0x14, .conflict)] ∧ answers (ran (.startTake 1 0 0) bothOff) = [(0x14, .conflict)] := by
  decide +kernel

/-- A dropout record of a take and a start block. -/
def someRecord (take start : Nat) : DropoutRecord := ⟨take, .t1, start, 1000, 2, 10, .marked, false, 0, none, none⟩

/-- Nine records in the log. -/
def logged : State := cfg.onPart fun p => { p with log := (List.range 9).map fun k => someRecord 1 (64 * k) }

theorem test_record_bytes : { someRecord 1 64 with firstFrame := some 3, truncated := true }.bytes
    = [0, 1, 0, 0, 0, 0, 0, 0, 64, 0, 3, 0xE8, 0, 2, 10, 0, 3, 0, 0, 0, 0, 0, 0, 0, 3, 0, 0, 0, 0, 0, 0] := by decide +kernel

theorem test_readDropouts : answers (ran (.readDropouts 1 1) State.reset) = [(0x15, .wrongState)]
    ∧ [0, 1, 8, 9].map (fun n => (ran (.readDropouts 1 n) logged).part.log.length) = [8, 8, 1, 1]
    ∧ [0, 1, 8, 9].map (fun n => answers (ran (.readDropouts 1 n) logged))
        = [[(0x15, .adjusted)], [(0x15, .ok)], [(0x15, .ok)], [(0x15, .adjusted)]]
    ∧ (ran (.readDropouts 1 8) logged).part.msp.replies.map (fun r => r.results.length) = [249] := by decide +kernel

/-- The action of a record, from the actions its samples carried. -/
theorem test_record_action : [ActionSet.mk false false false, ⟨true, false, false⟩, ⟨false, true, false⟩, ⟨false, false, true⟩,
      ⟨true, true, false⟩, ⟨false, true, true⟩].map ActionSet.record = [.marked, .marked, .crossfilled, .muted, .mixed, .mixed] := by
  decide +kernel

/-- Lane A ACTIVE at raw index 16 with frames 0..1072 written: the first raw index at which it may step. -/
def ready16 : State :=
  onLaneA (fun x => { x with state := .active, acc := 16 * 16777216 }) (onReceiver (fun h => { h with nextIndex := 1073 }) playing)

theorem test_productionStep : (ready16.part.lanes.get .a).index = 16 ∧ (ran (.productionStep .a) ready16).part.lanes.a.frameCount = 1
    ∧ (ran (.productionStep .a) ready16).part.lanes.a.acc = 20 * 16777216
    ∧ (ran (.productionStep .a) ready16).part.lanes.a.fifo.map (fun f => (f.count, f.take, f.muted)) = [(0, 3, false)]
    ∧ (ran (.productionStep .a) (onLaneA (fun x => { x with settings := { x.settings with source := .off } }) ready16)).part.lanes.a.fifo
        = [] := by decide +kernel

theorem test_productionStep_waits :
    (ran (.productionStep .a) (onReceiver (fun h => { h with nextIndex := 1072 }) ready16)).part.lanes.a.frameCount = 0
    ∧ (ran (.productionStep .b) ready16) = ready16 ∧ (ready16.part.con.get Lane.a.first).spans = []
    ∧ (ready16.part.con.get Lane.a.second).g = 64 := by decide +kernel

theorem test_mayStep : mayStep ready16.part .a
    ∧ mayStep (onTake (fun t => { t with record := some ⟨none, some .stopCommand, some 48, none⟩ })
        (onLaneA (fun x => { x with state := .draining }) ready16)).part .a :=
  ⟨⟨.inl ⟨rfl, by decide⟩, .inr (by decide)⟩, ⟨.inr ⟨rfl, _, _, rfl, rfl, by decide⟩, .inr (by decide)⟩⟩

/-- Lane A DRAINING at raw index 16 with an end raw index. -/
def draining (e : Nat) : State :=
  onTake (fun t => { t with device := .configure, record := some ⟨none, some .stopCommand, some e, none⟩ })
    (onTransport (fun t => { t with state := .settling, op := { OpRecord.idle with kind := .take, ending := some (.cause .stopCommand) } })
      (onReceiver (fun h => { h with capturing := false }) (onLaneA (fun x => { x with state := .draining }) ready16)))

/-- The step from 16 reaches 20, whose reach is 52; a DRAINING lane whose reach is past the end makes nothing. -/
theorem test_productionStep_drains : (ran (.productionStep .a) (draining 52)).part.lanes.a.state = .draining
    ∧ (ran (.productionStep .a) (draining 51)).part.lanes.a.state = .idle
    ∧ (ran (.productionStep .a) (draining 51)).part.lanes.a.fifo.length = 1
    ∧ ran (.productionStep .a) (draining 47) = draining 47 := by decide +kernel

/-- A loaded bank whose row 0 doubles a raw sample, and a raw sample. -/
def loud (x : Int) : State :=
  { onSetup (fun u => { u with bankLoaded := true }) ready16 with
    bank := ⟨(List.range 32).map fun k => (k, 524287), []⟩, rings := ⟨⟨[(16, x)], [], [], []⟩, []⟩ }

theorem test_productionStep_clips : (ran (.productionStep .a) (loud 8388607)).part.cmn.clip.a = ⟨true, false, 4096⟩
    ∧ (ran (.productionStep .a) (loud 8388607)).part.lanes.a.fifo.map (fun f => f.first.sample) = [8388607]
    ∧ (ran (.productionStep .a) ((loud 5).onPart fun p => { p with cmn := p.cmn.set (.clip .a) ⟨true, false, 2⟩ })).part.cmn.clip.a
        = ⟨true, false, 1⟩ := by decide +kernel

/-- A span of T1 from 16. -/
def aSpan (last : Option Nat) : Span := ⟨16, last, 3, .t1, 1000, 0, 2, 10, 100, false, ⟨false, false, false⟩, none, none⟩

/-- Lane A at 20 with spans of T1 that end at 19 and 20, and a log. -/
def logging (records : Nat) : State :=
  onLaneA (fun x => { x with acc := 20 * 16777216 }) (onReceiver (fun h => { h with nextIndex := 1077 }) (ready16.onPart fun p =>
    { p with log := List.replicate records (someRecord 3 0),
             con := { p.con with t1 := ⟨64, .zero, [aSpan (some 19), aSpan (some 20)]⟩ } }))

theorem test_productionStep_logs : (ran (.productionStep .a) (logging 0)).part.log.map (fun r => (r.start, r.ratio)) = [(16, 25)]
    ∧ (ran (.productionStep .a) (logging 0)).part.con.t1.spans.length = 1
    ∧ posted (ran (.productionStep .a) (logging 191)) = [.logHigh 192 3]
    ∧ (ran (.productionStep .a) (logging 256)).part.log.length = 256 ∧ (ran (.productionStep .a) (logging 256)).part.cmn.logFull.flag = true
    ∧ (ran (.productionStep .a) (onSetup (fun u => { u with policies := u.policies.set .logFull ⟨.stop, .lane⟩ })
        (logging 256))).part.trc.op.ending = some (.cause .condition) := by decide +kernel

/-- A take stopped at raw index 99 with a dropout of T1 open since block 0, and lane A where its reach is past the end. -/
def dropped : State :=
  onLaneA (fun x => { x with state := .active, acc := 70 * 16777216 }) (playing.onPart fun p => { p with
    det := { p.det with t1 := { p.det.t1 with running := true, state := .dropped, openDropout := some ⟨0, 1000, 0, 9, 1⟩ } },
    con := { p.con with t1 := ⟨64, .zero, [aSpan none]⟩ } })

theorem test_stop_truncates : (ran (.stop 1) dropped).part.log.map (fun r => (r.length, r.ratio, r.truncated)) = [(2, 23, true)]
    ∧ (ran (.stop 1) dropped).part.det.t1.running = false
    ∧ (ran (.stop 1) (onLaneA (fun x => { x with acc := 16 * 16777216 }) dropped)).part.con.t1.spans.map Span.last = [some 99] := by
  decide +kernel

/-- A take with an open dropout meets the invariants of O58. -/
theorem test_dropped_rests : Part.restsOutsideRun dropped.part ∧ Part.spansFollow dropped.part :=
  ⟨fun h => absurd (by decide) h, fun tr => by
    cases tr
    · exact ⟨nofun, fun _ => ⟨by decide, by decide⟩⟩
    all_goals exact ⟨fun _ _ hx => (List.not_mem_nil hx).elim, fun h => absurd rfl h⟩⟩

/-- Lane A's producer at raw index 100. -/
def at100 (timeline : List TimelineEntry) : Producer := { Producer.reset 67108864 with acc := 100 * 16777216, timeline := timeline }

/-- A STEP is clamped to the lane's bounds; a due entry is applied at once, one ahead is listed, and into a full timeline only
after the first entry's early application. -/
theorem test_timeline : ((at100 []).apply .r384x96 ⟨9, .step 0⟩).applied = 65766687
    ∧ ((at100 []).apply .r384x96 ⟨9, .azimuth 7⟩).az = 7
    ∧ ((at100 []).apply .r384x96 ⟨9, .settings (some 5) { Settings.defaults with fixedOffset := 9 }⟩).az = 9
    ∧ (at100 []).post .r384x96 ⟨100, .azimuth 7⟩ = { at100 [] with az := 7 }
    ∧ (at100 []).post .r384x96 ⟨101, .azimuth 7⟩ = at100 [⟨101, .azimuth 7⟩]
    ∧ ((at100 (List.replicate 128 ⟨200, .azimuth 7⟩)).post .r384x96 ⟨150, .azimuth 9⟩).az = 7
    ∧ ((at100 (List.replicate 128 ⟨200, .azimuth 7⟩)).post .r384x96 ⟨150, .azimuth 9⟩).timeline.length = 128 := by decide +kernel

/-- OFF with a full FIFO, and the entry that brings the lane out of OFF due: no frame, no advance. -/
theorem test_productionStep_off_full (s : State) (hs : s = onLaneA (fun x => { x with
      settings := { x.settings with source := .off }, timeline := [⟨16, .settings none Settings.defaults⟩],
      fifo := List.replicate 1024 ⟨.a, 5, ⟨0, .none, false, false⟩, ⟨0, .none, false, false⟩, .idle, false, false, 0, 3⟩ }) ready16) :
    (ran (.productionStep .a) s).part.lanes.a.acc = 16 * 16777216 ∧ (ran (.productionStep .a) s).part.lanes.a.settings.source = .nominal
      ∧ mayStep s.part .a := by
  subst hs; exact ⟨by decide +kernel, by decide +kernel, .inl ⟨rfl, by decide⟩, .inl rfl⟩

/-- What a step of lane A makes of T1's record, T1 inside a span: source, weight, action, and the span's actions. -/
def concealed (policy : DropoutPolicy) (pairing : Pairing) (held : Substitute) (s : State) :
    Substitute × Nat × List TrackAction × List ActionSet :=
  let t := ran (.productionStep .a) (onLaneA (fun x => { x with settings := { x.settings with policy := policy, pairing := pairing } })
    (s.onPart fun p => { p with con := { p.con with t1 := ⟨64, held, [aSpan none]⟩ } }))
  (t.part.con.t1.source, t.part.con.t1.g, t.part.lanes.a.fifo.map fun f => f.first.action, t.part.con.t1.spans.map Span.actions)

theorem test_concealment : [concealed .conceal .monoPair .zero ready16,
      concealed .conceal .monoPair .zero (ready16.onPart fun p => { p with con := { p.con with t2 := ⟨64, .zero, [aSpan none]⟩ } }),
      concealed .conceal .stereo .partner ready16, concealed .mark .monoPair .partner ready16, concealed .off .monoPair .partner ready16]
    = [(.partner, 63, [.crossfill], [⟨false, true, false⟩]), (.zero, 63, [.mute], [⟨false, false, true⟩]),
      (.zero, 63, [.mute], [⟨false, false, true⟩]), (.partner, 64, [.marked], [⟨true, false, false⟩]),
      (.partner, 64, [.none], [⟨false, false, false⟩])] := by decide +kernel

/-- LOCK_LOST mutes lane A under MUTE_LANE with scope LANE: at a frame, and at an OFF step, which leaves the weight (log 32). -/
theorem test_concealment_muted (s : State) (hs : s = onSetup (fun u => { u with policies := u.policies.set (.lockLost .a) ⟨.muteLane, .lane⟩ })
      (ready16.onPart fun p => p.setFlag (.lockLost .a))) :
    concealed .mark .monoPair .partner s = (.zero, 63, [.mute], [⟨false, false, true⟩])
      ∧ (ran (.productionStep .a) (onLaneA (fun x => { x with settings := { x.settings with source := .off } })
          (s.onPart fun p => { p with con := { p.con with t1 := ⟨64, .partner, []⟩ } }))).part.con.t1 = ⟨64, .zero, []⟩ := by
  subst hs; decide +kernel

/-- A take that has ended at raw index 99 and whose final position is known. -/
def closing : State := onTake (fun t => { t with number := 3, record := some ⟨none, some .stopCommand, some 99, some 1000⟩ }) cfg

theorem test_takeEnded : posted (ran .takeEnded closing) = [.takeEnded 3 .stopCommand (some 99) 0 0 1000]
    ∧ (ran .takeEnded closing).part.take.record = none ∧ ran .takeEnded cfg = cfg ∧ ran .takeEnded playing = playing
    ∧ posted (ran .takeEnded (onLaneA (fun x => { x with state := .draining }) closing)) = [] := by decide +kernel

/-- Lane A's CLIP flag set with a hold count, under a policy. -/
def clipped (hold : Nat) (policy : Policy) : State :=
  onSetup (fun u => { u with policies := u.policies.set (.clip .a) ⟨policy, .lane⟩ })
    (cfg.onPart fun p => { p with cmn := p.cmn.set (.clip .a) ⟨true, false, hold⟩ })

theorem test_clipHoldExpiry : (ran (.clipHoldExpiry .a) (clipped 0 .auto)).part.cmn.clip.a.flag = false
    ∧ ran (.clipHoldExpiry .a) (clipped 1 .auto) = clipped 1 .auto ∧ ran (.clipHoldExpiry .a) (clipped 0 .warn) = clipped 0 .warn := by
  decide +kernel

/-! ## Conditions, notices and the port -/

theorem test_setPolicy : (ran (.setPolicy 1 ⟨7, 2, 1, 1⟩) cfg).setup.policies.lockLost = .both ⟨.muteLane, .device⟩
    ∧ (ran (.setPolicy 1 ⟨5, 0, 4, 1⟩) cfg).setup.policies.slip = ⟨.off, .lane⟩
    ∧ answers (ran (.setPolicy 1 ⟨9, 1, 3, 0⟩) cfg) = [(0x16, .ok)] ∧ answers (ran (.setPolicy 1 ⟨0, 0, 0, 0⟩) cfg) = [(0x16, .conflict)]
    ∧ policiesAllowed cfg.setup.policies = true
    ∧ condRecords 7 .both = some [.lockLost .a, .lockLost .b] ∧ condRecords 5 .a = some [.slip] := by decide +kernel

theorem test_setPolicy_badValue : [PolicyArgs.mk 10 0 0 0, ⟨0, 3, 0, 0⟩, ⟨0, 0, 5, 0⟩, ⟨0, 0, 0, 2⟩].map
      (fun a => answers (ran (.setPolicy 1 a) cfg)) = List.replicate 4 [(0x16, .badValue)] := by decide +kernel

/-- R183's table: CLIP of lane A by its hold count, SLIP by its presence. -/
theorem test_setPolicy_flags : [(5, 0), (5, 2), (5, 3), (5, 4), (0, 3)].map
      (fun q => if q.2 = 0 then false else (ran (.setPolicy 1 ⟨9, 0, BitVec.ofNat 8 q.2, 0⟩) (clipped q.1 .warn)).part.cmn.clip.a.flag)
      = [false, true, true, false, false]
    ∧ (ran (.setPolicy 1 ⟨5, 0, 2, 0⟩) (cfg.onPart fun p => { p with cmn := p.cmn.set .slip ⟨false, true, 0⟩ })).part.cmn.slip.flag = true
    ∧ (ran (.setPolicy 1 ⟨5, 0, 2, 0⟩) cfg).part.cmn.slip.flag = false
    ∧ (ran (.setPolicy 1 ⟨5, 0, 4, 0⟩) (cfg.onPart fun p => { p with cmn := p.cmn.set .slip ⟨true, true, 0⟩ })).part.cmn.slip.flag = false := by
  decide +kernel

theorem test_clearConditions : answers (ran (.clearConditions 1) State.reset) = [(0x17, .wrongState)]
    ∧ (ran (.clearConditions 1) (cfg.onPart fun p => p.setFlag .stall)).part.cmn.stall.flag = false
    ∧ (ran (.clearConditions 1) (cfg.onPart fun p => p.reportPresent cfg.setup .slip)).part.cmn.slip.flag = true := by decide +kernel

theorem test_setNoticeMask : (ran (.setNoticeMask 1 [0, 1, 0, 0, 0, 0, 0, 0, 0, 1]) cfg).setup.mask = [.takeStarted, .surveyDone]
    ∧ answers (ran (.setNoticeMask 1 [2, 0, 0, 0, 0, 0, 0, 0, 0, 0]) cfg) = [(0x18, .badValue)]
    ∧ answers (ran (.setNoticeMask 1 (List.replicate 10 0)) State.reset) = [(0x18, .wrongState)] := by decide +kernel

theorem test_postNotice : postNotice (.logHigh 192 1) [] = [⟨.logHigh 192 1, 1⟩]
    ∧ postNotice (.logHigh 192 2) [⟨.cassetteChanged true, 3⟩, ⟨.logHigh 192 1, 255⟩] = [⟨.cassetteChanged true, 3⟩, ⟨.logHigh 192 2, 255⟩]
    ∧ postNotice (.conditionRaised 4) [⟨.conditionRaised 1, 1⟩] = [⟨.conditionRaised 5, 2⟩] := by decide +kernel

theorem test_admission : State.reset.part.ready = true ∧ playing.part.ready = true ∧ cfg.part.ready = true
    ∧ answers (ran (.wind 1 0) State.reset) = [(0x0B, .wrongState)] ∧ answers (ran (.wind 1 0) playing) = [(0x0B, .wrongState)] := by
  decide +kernel

/-- An open message, and a full reply queue. -/
def gathering : State := onPort (fun m => { m with assembler := some ⟨0x09, 5, 14, [1, 2, 3]⟩ }) cfg

def fullReplies : State := onPort (fun m => { m with replies := List.replicate 8 ⟨0x01, 0, .ok, []⟩ }) cfg

theorem test_notReady : gathering.part.ready = false ∧ answers (ran (.identify 1) gathering) = [(0x09, .malformed)]
    ∧ (ran (.identify 1) gathering).part.msp.assembler = none ∧ (ran (.identify 1) gathering).part.cmn.cellError.flag = true
    ∧ fullReplies.part.ready = false ∧ (answers (ran (.identify 1) fullReplies)).length = 8 := by decide +kernel

/-! ## Downstream cells -/

theorem test_emptyCell : (ran (.downstreamCell [0x80, 0, 0, 0, 0, 0, 0, 0x80]) cfg).part.osc.accept = true
    ∧ (ran (.downstreamCell [0, 0, 0, 0, 0, 0, 0, 0]) cfg) = cfg
    ∧ (ran (.downstreamCell [1, 0, 0, 0, 0, 0, 0, 0]) gathering).part.msp.assembler = none
    ∧ goodCell [1, 0, 0, 0, 0, 0, 0, 0] = false ∧ goodCell [3, 0, 0, 0, 0, 0, 0, 0xFD] = false := by decide +kernel

theorem test_startCell : (ran (.downstreamCell [1, 0x09, 7, 4, 1, 2, 3, 0xE5]) cfg).part.msp.assembler = some ⟨0x09, 7, 4, [1, 2, 3]⟩
    ∧ (ran (.downstreamCell [1, 0x09, 7, 250, 1, 2, 3, 0xEF]) cfg).part.msp.assembler = some ⟨0x09, 7, 250, [1, 2, 3]⟩
    ∧ answers (ran (.downstreamCell [1, 0x09, 7, 251, 1, 2, 3, 0xEE]) cfg) = [(0x09, .malformed)]
    ∧ answers (ran (.downstreamCell [1, 0x01, 7, 0, 0, 0, 0, 0xF7]) cfg) = [(0x01, .ok)]
    ∧ answers (ran (.downstreamCell [1, 0x1B, 7, 0, 0, 0, 0, 0xDD]) cfg) = [(0x1B, .invalid)]
    ∧ (ran (.downstreamCell [2, 4, 5, 6, 7, 8, 9, 0xD7]) gathering).part.msp.assembler
        = some ⟨0x09, 5, 14, [1, 2, 3, 4, 5, 6, 7, 8, 9]⟩ := by decide +kernel

/-- A bad cell, a START that meets READY clear and a CONT at an IDLE assembler are CELL_ERROR; a complete message of an unknown
kind is INVALID and one of a wrong length MALFORMED. -/
theorem test_cell_errors : posted (ran (.downstreamCell [1, 0, 0, 0, 0, 0, 0, 0]) gathering) = [.conditionRaised 4]
    ∧ answers (ran (.downstreamCell [1, 0x01, 7, 0, 0, 0, 0, 0xF7]) gathering) = [(0x09, .malformed)]
    ∧ (ran (.downstreamCell [1, 0x01, 7, 0, 0, 0, 0, 0xF7]) gathering).part.cmn.cellError.flag = true
    ∧ (ran (.downstreamCell [2, 4, 5, 6, 7, 8, 9, 0xD7]) cfg).part.cmn.cellError.flag = true
    ∧ answers (ran (.downstreamCell [1, 0x0B, 7, 2, 0, 0, 0, 0xEB]) cfg) = [(0x0B, .malformed)]
    ∧ answers (ran (.downstreamCell [2, 4, 5, 6, 7, 8, 9, 0xD7])
        (onPort (fun m => { m with assembler := some ⟨0x1B, 5, 9, [1, 2, 3]⟩ }) cfg)) = [(0x1B, .invalid)]
    ∧ answers (ran (.downstreamCell [2, 4, 5, 6, 7, 8, 9, 0xD7])
        (onPort (fun m => { m with assembler := some ⟨0x09, 5, 9, [1, 2, 3]⟩ }) cfg)) = [(0x09, .malformed)] := by decide +kernel

/-- SET_DECK's fourteen bytes in three cells. -/
theorem test_cells_setDeck : (commandCells false 0x09 1 [0x0B, 0xE6, 4, 0, 224, 3, 1, 0x90, 1, 0xF4, 1, 0x90, 0, 240]).length = 3
    ∧ readMessage .setDeck 1 [0x0B, 0xE6, 4, 0, 224, 3, 1, 0x90, 1, 0xF4, 1, 0x90, 0, 240]
        = some (.setDeck 1 ⟨3046, 1024, 224, 3, 400, 500, 400, 240⟩)
    ∧ answers (afterRows cfg ((commandCells false 0x09 1 [0x0B, 0xE6, 4, 0, 224, 3, 1, 0x90, 1, 0xF4, 1, 0x90, 0, 240]).map
        Instr.downstreamCell)) = [(0x09, .ok)] := by decide +kernel

/-! ## The head converter link -/

/-- A good raw frame whose T1 sample is x: sequence number, twelve bytes, check byte. -/
def rawFrame (seq x : Byte) : List Byte := [seq, 0, 0, x, 0, 0, 0, 0, 0, 0, 0, 0, 0, 0 - seq - x]

theorem test_rawFrame : readRawFrame (rawFrame 249 5) = some (249, ⟨5, 0, 0, 0⟩)
    ∧ readRawFrame [1, 0xFF, 0xFF, 0xFE, 0x80, 0, 0, 0x7F, 0xFF, 0xFF, 0, 1, 0, 0x05] = some (1, ⟨-2, -8388608, 8388607, 256⟩)
    ∧ readRawFrame [] = none ∧ readRawFrame (List.replicate 13 0) = none ∧ readRawFrame (rawFrame 249 5 |>.set 3 6) = none := by
  decide +kernel

/-- The manual's link at expected number 249 with raw index 10,000 to be written next, the frame before it 4, and a run. -/
def following (expected : Byte) (run : Nat) (capturing : Bool) : State :=
  onReceiver (fun h => { h with link := .following, expected := expected, run := run, capturing := capturing, nextIndex := 10000,
                                lastGood := ⟨4, 0, 0, 0⟩ }) playing

theorem test_slot_waiting : ran (.frameSlot []) cfg = cfg
    ∧ (ran (.frameSlot (rawFrame 249 5)) cfg).part.hcr.link = .following
    ∧ (ran (.frameSlot (rawFrame 249 5)) cfg).part.hcr.expected = 250
    ∧ (ran (.frameSlot (rawFrame 249 5)) cfg).part.hcr.lastGood = ⟨5, 0, 0, 0⟩ := by decide +kernel

/-- Under capture the frame that ends WAITING is written. -/
theorem test_slot_waiting_written (s : State)
    (hs : s = ran (.frameSlot (rawFrame 249 5)) (onReceiver (fun h => { h with link := .waiting }) (following 3 0 true))) :
    s.part.hcr.nextIndex = 10001 ∧ s.rings.sample .t1 10000 = 5 ∧ s.part.hcr.expected = 250 := by subst hs; decide +kernel

theorem test_slot_inSequence : (ran (.frameSlot (rawFrame 249 5)) (following 249 0 true)).part.hcr.nextIndex = 10001
    ∧ (ran (.frameSlot (rawFrame 249 5)) (following 249 0 true)).rings.sample .t1 10000 = 5
    ∧ (ran (.frameSlot (rawFrame 249 5)) (following 249 4 false)).part.hcr.run = 0
    ∧ (ran (.frameSlot (rawFrame 249 5)) (following 249 4 false)).part.hcr.nextIndex = 10000
    ∧ buffersCanonical (following 249 0 true) = true := by decide +kernel

/-- No lane of the link states produces, so the ring has room. -/
theorem test_ringHasRoom (e : Byte) (r : Nat) (c : Bool) : ringHasRoom (following e r c).part := by
  intro l m h; cases l <;> cases h

theorem test_slot_replaced : (ran (.frameSlot []) (following 250 3 true)).part.hcr.run = 4
    ∧ (ran (.frameSlot []) (following 250 0 true)).rings.sample .t1 10000 = 4
    ∧ (ran (.frameSlot []) (following 250 0 true)).part.cmn.rawHeld.present = true
    ∧ (ran (.frameSlot (rawFrame 254 5)) (following 252 2 true)).part.hcr.nextIndex = 10003
    ∧ (ran (.frameSlot (rawFrame 254 5)) (following 250 0 true)).part.hcr.expected = 255
    ∧ (ran (.frameSlot (rawFrame 254 5)) (following 250 0 true)).part.hcr.run = 0 := by decide +kernel

/-- A gap of 2 under capture: two copies of the last good frame, then the frame. -/
theorem test_slot_gap_written : [10000, 10001, 10002].map
      (fun n => (ran (.frameSlot (rawFrame 252 5)) (following 250 0 true)).rings.sample .t1 n) = [4, 4, 5] := by decide +kernel

theorem test_framesNeverStop : framesNeverStop playing.setup := ⟨by decide, fun l => by cases l <;> exact ⟨by decide, by decide⟩⟩

/-- Playing with a raw index to write next. -/
def framing (n : Nat) (s : State) : State := onReceiver (fun h => { h with nextIndex := n }) s

theorem test_bringsFrame (n : Nat) : bringsFrame (rawFrame 7 5) ⟨5, 0, 0, 0⟩ (framing n playing) := by
  refine ⟨rfl, (by decide +kernel : readRawFrame (rawFrame 7 5) = some (7, ⟨5, 0, 0, 0⟩)), rfl, rfl, fun l m h => ?_,
    (by decide +kernel : buffersCanonical playing = true)⟩
  cases l <;> cases h

/-- The take in lane A's BIAS entry at 500, the table and the position given, block 2 about to begin. -/
def inEntry (entries : List Entry) (current : Option Entry) (position : Nat) : State :=
  framing 128 (onSetup (fun u => { u with entries := entries }) (playing.onPart fun p => { p with
    pos := { p.pos with position := position }, sgt := ⟨current, ⟨current, none⟩⟩ }))

/-- Forward at once, back only below the start less 8; none before the first entry. -/
theorem test_segment_judged : [499, 500, 699, 700].map (fun x => (ran (.frameSlot (rawFrame 7 5))
        (inEntry [entryAt 500, entryAt 700] none x)).part.sgt.current.map Entry.start) = [none, some 500, some 500, some 700]
    ∧ [692, 691, 491].map (fun x => (ran (.frameSlot (rawFrame 7 5))
        (inEntry [entryAt 500, entryAt 700] (some (entryAt 700)) x)).part.sgt.current.map Entry.start) = [some 700, some 500, none]
    ∧ posted (ran (.frameSlot (rawFrame 7 5)) (inEntry [entryAt 500] none 600)) = [.segmentEntered .a (some (500, 1)) 128 600]
    ∧ posted (ran (.frameSlot (rawFrame 7 5)) (inEntry [⟨500, 1, .both (some Settings.defaults)⟩] none 600))
        = [.segmentEntered .both (some (500, 1)) 128 600]
    ∧ (ran (.frameSlot (rawFrame 7 5)) (onTake (fun t => { t with device := .configure }) (inEntry [entryAt 500] none 600))).part.sgt.current
        = none := by decide +kernel

/-- Lane A enters BIAS, then leaves it for NOMINAL and OFF. -/
theorem test_lane_transition (f g h : State) (hf : f = ran (.frameSlot (rawFrame 7 5)) (inEntry [biasEntry 500] none 600))
    (hg : g = ran (.frameSlot (rawFrame 7 5)) (onTrackerA (fun t => { t with
      settings := { t.settings with source := .bias, fRef := 1536000 }, lock := .locked, step := 68000000 }) (inEntry [entryAt 500] none 600)))
    (hh : h = ran (.frameSlot (rawFrame 7 5)) (onTrackerA (fun t => { t with step := 68000000 })
      (inEntry [⟨500, 1, ⟨some { Settings.defaults with source := .off }, none⟩⟩] none 600))) :
    f.part.rft.a.lock = .search ∧ f.part.rft.a.origin = 128 ∧ f.part.aza.a.window = some (AzimuthWindow.opened 128)
      ∧ f.part.lanes.a.timeline = [⟨128, .settings (some 500) { Settings.defaults with
          source := .bias, fRef := 1536000, azMode := .track, blanking := 0 }⟩]
      ∧ f.part.hcr.wordSending = some ⟨.us120, .us120⟩
      ∧ g.part.rft.a.lock = .idle ∧ g.part.rft.a.step = 67108864
      ∧ g.part.lanes.a.timeline = [⟨128, .settings (some 500) Settings.defaults⟩, ⟨128, .step 67108864⟩]
      ∧ h.part.rft.a.lock = .idle ∧ h.part.rft.a.step = 68000000 := by subst hf hg hh; decide +kernel

/-- The filter of tracker A after it restarts for BIAS at the frame whose track sum is 255, in a take and with no mode; LOCK_CHANGED is
queued where the lock state changes, at raw index 128, and not where SEARCH stays SEARCH. -/
theorem test_lane_restart (s : LockState → TrackerMode → State) (hs : s = fun lock mode => ran (.frameSlot (rawFrame 7 255))
      (onTrackerA (fun t => { t with lock := lock, mode := mode, step := 68000000, armed := true, last := -9, filter := ⟨1, 2, 3, 4⟩ })
        (inEntry [biasEntry 500] none 600))) :
    (s .locked .take).part.rft.a.filter = ⟨255, 0, 4, 0⟩
      ∧ (s .locked .take).part.rft.a.last = 4 ∧ 255 * (s .locked .take).part.rft.a.coeffs.b0 / 1073741824 = 4
      ∧ (s .locked .take).part.rft.a.armed = false
      ∧ (s .locked .none).part.rft.a.filter = ⟨0, 0, 0, 0⟩ ∧ (s .locked .none).part.rft.a.last = 0
      ∧ posted (s .locked .take) = [.lockChanged .a .locked .search (some 128) 68000000, .segmentEntered .a (some (500, 9)) 128 600]
      ∧ posted (s .search .take) = [.segmentEntered .a (some (500, 9)) 128 600] := by subst hs; decide +kernel

/-- A transition to policy OFF closes an open dropout with the block before it. -/
theorem test_lane_transition_off (s : State) (hs : s = ran (.frameSlot (rawFrame 7 5)) ((inEntry
      [⟨500, 1, ⟨some { Settings.defaults with policy := .off }, none⟩⟩] none 600).onPart fun p => { p with
        det := { p.det with t1 := { p.det.t1 with running := true, state := .releasing, run := 1, openDropout := some ⟨0, 1000, 0, 9, 1⟩ } },
        con := { p.con with t1 := ⟨64, .zero, [aSpan none]⟩ } })) :
    s.part.con.t1.spans.map (fun x => (x.last, x.length, x.truncated)) = [(some 127, 2, false)]
      ∧ s.part.det.t1.openDropout = none ∧ s.part.det.t1.state = .clear := by subst hs; decide +kernel

/-- T1's detector with reference 100 at the frame that completes block 1, whose one sample is x. -/
def judging (x : Byte) (state : DetectorState) (run blank : Nat) : State :=
  ran (.frameSlot (rawFrame 7 x)) (framing 127 (playing.onPart fun p => { p with
    det := { p.det with t1 := { p.det.t1 with
      running := true, ref := 100, blank := blank, state := state, run := run,
      pendingStart := if state = .onset then some ⟨0, 1000, 0, 9⟩ else none,
      openDropout := if state = .dropped ∨ state = .releasing then some ⟨0, 1000, 0, 9, 1⟩ else none } },
    con := { p.con with t1 := ⟨64, .zero, [aSpan none]⟩ } }))

/-- Under reference 100, depth 64 and release 128 a level of 24 is low, 25 is not, 49 is no release and 50 is one. -/
theorem test_detector_low : [24, 25].map (fun x => (judging x .clear 0 0).part.det.t1.state) = [.onset, .clear]
    ∧ (judging 25 .clear 0 0).part.det.t1.ref = 98 ∧ (judging 24 .clear 0 1).part.det.t1.state = .clear
    ∧ (judging 25 .clear 0 1).part.det.t1.ref = 100 ∧ (judging 25 .clear 0 1).part.det.t1.blank = 0
    ∧ [24, 25].map (fun x => (judging x .onset 1 0).part.det.t1.state) = [.dropped, .clear]
    ∧ (judging 24 .onset 1 0).part.con.t1.spans.map (fun x => (x.start, x.length)) = [(16, 2), (0, 2)]
    ∧ (judging 24 .clear 0 0).part.det.t1.level = 24 := by decide +kernel

theorem test_detector_release : [49, 50].map (fun x => (judging x .dropped 0 0).part.det.t1.state) = [.dropped, .releasing]
    ∧ (judging 49 .dropped 0 0).part.det.t1.openDropout = some ⟨0, 1000, 0, 9, 2⟩
    ∧ [(49, 3), (50, 2), (50, 3)].map (fun q => (judging q.1 .releasing q.2 0).part.det.t1.state) = [.dropped, .releasing, .clear]
    ∧ (judging 49 .releasing 3 0).part.det.t1.openDropout = some ⟨0, 1000, 0, 9, 5⟩ := by decide +kernel

theorem test_rawHeld_never_stops : neverStops playing.setup.policies.rawHeld := ⟨by decide, by decide⟩

theorem test_slot_lost : (ran (.frameSlot []) (following 250 4 true)).part.hcr.link = .waiting
    ∧ (ran (.frameSlot []) (following 250 4 true)).part.cmn.rawLost.flag = true
    ∧ (ran (.frameSlot []) (following 250 4 true)).part.trc.op.ending = some (.cause .condition)
    ∧ (ran (.frameSlot (rawFrame 255 5)) (following 250 0 true)).part.hcr.link = .waiting
    ∧ (ran (.frameSlot (rawFrame 251 5)) (following 250 4 true)).part.hcr.capturing = false
    ∧ policiesAllowed playing.setup.policies = true := by decide +kernel

/-- Lane A needs raw index 0 while 65,536 is to be written. -/
def ringFull : State :=
  onLaneA (fun x => { x with state := .active, acc := 32 * 16777216 })
    (onReceiver (fun h => { h with nextIndex := 65536 }) (following 249 0 true))

theorem test_overrun : (ran (.frameSlot (rawFrame 249 5)) ringFull).part.cmn.overrun.flag = true
    ∧ (ran (.frameSlot (rawFrame 249 5)) ringFull).part.hcr.nextIndex = 65536
    ∧ (ringFull.part.lanes.get .a).oldestNeeded = some 0 := by decide +kernel

/-- OVERRUN ends the take, RAW_LOST a survey. -/
theorem test_lost_ends : (ran (.frameSlot (rawFrame 249 5)) ringFull).part.trc.op.ending = some (.cause .condition)
    ∧ (ran (.frameSlot (rawFrame 249 5)) ringFull).part.lanes.a.state = .draining
    ∧ (ran (.frameSlot []) (onReceiver (fun h => { h with link := .following, run := 4, capturing := true, nextIndex := 9 })
        (moves .playing { OpRecord.idle with kind := .survey } cfg))).part.trc.op.ending = some (.term .condition) := by decide +kernel

theorem test_ringFull : ¬ringHasRoom ringFull.part := fun h => absurd (h .a 0 (by decide)) (by decide)

/-- A frame that begins block 0 is stamped with the position; another is not. -/
theorem test_frame_stamped :
    (ran (.frameSlot (rawFrame 249 5)) (onReceiver (fun h => { h with nextIndex := 0 }) (following 249 0 true))).rings.stamp 0 = 1000
    ∧ (ran (.frameSlot (rawFrame 249 5)) (following 249 0 true)).rings.stamps = [] := by decide +kernel

/-- One settings word being sent and another waiting. -/
def words : State := onReceiver (fun h => { h with wordSending := some ⟨.us70, .us120⟩, wordWaiting := some ⟨.us70, .us70⟩ }) cfg

theorem test_settingsWordSent : (ran .settingsWordSent words).part.hcr.wordLast = some ⟨.us70, .us120⟩
    ∧ (ran .settingsWordSent words).part.hcr.wordSending = some ⟨.us70, .us70⟩ ∧ ran .settingsWordSent cfg = cfg := by decide +kernel

theorem test_settingsWord_bytes : [⟨.us70, .us120⟩, ⟨.us120, .us70⟩, ⟨.us70, .us70⟩].map settingsWordBytes = [[1, 255], [2, 254], [3, 253]] := by
  decide

/-! ## Trackers and aligner -/

/-- Lane A tracks BIAS in a take, in a lock state, with a completed open measurement of a span near the nominal 64 samples. -/
def measured (mode : TrackerMode) (lock : LockState) (acquire : Nat) : State :=
  onTrackerA (fun t => { t with
    lock := lock, mode := mode, acquire := acquire, settings := { t.settings with source := .bias, fRef := 1536000 },
    meas := some ⟨0, 16, 16, 1536000, 65766687, 68451041, 16400, 64⟩ }) playing

theorem test_measurementComplete :
    (ran (.measurementComplete .a) (measured .survey .idle 0)).part.rft.a.survey = ⟨1, 1, 16400, some 16400, some 16400⟩
    ∧ (ran (.measurementComplete .a) (measured .take .locked 4)).part.rft.a.step = 67125248
    ∧ (ran (.measurementComplete .a) (measured .take .locked 4)).part.rft.a.missCount = 0
    ∧ (ran (.measurementComplete .a) (measured .take .search 3)).part.rft.a.lock = .locked
    ∧ (ran (.measurementComplete .a) (measured .take .search 3)).part.rft.a.step = 67174400
    ∧ (ran (.measurementComplete .a) (measured .take .search 2)).part.rft.a.lock = .search := by decide +kernel

theorem test_range_never_stops : neverStops (playing.setup.policies.range.get .a) ∧ neverStops (playing.setup.policies.lockLost.get .a) :=
  ⟨⟨by decide, by decide⟩, ⟨by decide, by decide⟩⟩

/-- A relock from HOLD smooths, one from FALLBACK takes the step whole; below the acquire count both wait. -/
theorem test_measurementComplete_relocks : [LockState.hold, .fallback].map
      (fun k => (ran (.measurementComplete .a) (measured .take k 3)).part.rft.a.step) = [67125248, 67174400]
    ∧ [LockState.hold, .fallback].map (fun k => (ran (.measurementComplete .a) (measured .take k 3)).part.rft.a.lock) = [.locked, .locked]
    ∧ [LockState.hold, .fallback].map (fun k => (ran (.measurementComplete .a) (measured .take k 2)).part.rft.a.lock) = [.hold, .fallback] := by
  decide +kernel

/-- An out-of-window measurement counts as a miss, and with hold time 0 the one that meets the miss count enters FALLBACK. -/
theorem test_measurement_outside (s : Nat → Nat → State) (hs : s = fun missed hold => ran (.measurementComplete .a) (onTrackerA (fun t => { t with
      missCount := missed, settings := { t.settings with hold := hold },
      meas := some ⟨0, 16, 16, 1536000, 65766687, 68451041, 32800, 128⟩ }) (measured .take .locked 0))) :
    (s 1 50).part.rft.a.missCount = 2 ∧ (s 1 50).part.rft.a.lock = .locked ∧ (s 2 50).part.rft.a.lock = .hold
      ∧ (s 2 0).part.rft.a.lock = .fallback ∧ (s 2 0).part.rft.a.ramp = some 192
      ∧ (s 2 0).part.cmn.lockLost.a.present = true := by subst hs; decide +kernel

/-- A tracker whose filter passes its input on, at raw index 100, with the last value and an open measurement. -/
def listening (armed : Bool) (last : Int) (m : Option Measurement) : State :=
  onTrackerA (fun t => { t with
    lock := .search, mode := .take, settings := { t.settings with source := .bias, fRef := 1536000 },
    coeffs := ⟨1073741824, 0, 0, 0, 0⟩, armed := armed, last := last, meas := m, origin := 90 }) playing

/-- A sample of 5 after -3: the crossing stands 96 of 256 into the interval before raw index 100. -/
theorem test_tracker_crossing : (ran (.frameSlot (rawFrame 7 5)) (listening true (-3) none)).part.rft.a.meas
      = some ⟨25440, 0, 16, 1536000, 65766687, 68451041, 25440, 100⟩
    ∧ (ran (.frameSlot (rawFrame 7 5)) (listening true (-3) (some ⟨9, 3, 16, 1536000, 1, 2, 8, 7⟩))).part.rft.a.meas
      = some ⟨9, 4, 16, 1536000, 1, 2, 25440, 100⟩
    ∧ (ran (.frameSlot (rawFrame 7 5)) (listening true (-3) (some ⟨9, 15, 16, 1536000, 1, 2, 8, 7⟩))).part.rft.a.meas
      = some ⟨25440, 0, 16, 1536000, 65766687, 68451041, 25440, 100⟩
    ∧ (ran (.frameSlot (rawFrame 7 5)) (listening false (-3) none)).part.rft.a.meas = none
    ∧ (ran (.frameSlot (rawFrame 7 5)) (listening true 0 none)).part.rft.a.armed = true
    ∧ (ran (.frameSlot [7, 0xFF, 0xF0, 0, 0, 0, 0, 0, 0, 0, 0, 0, 0, 0x0A]) (listening false 0 none)).part.rft.a.armed = true := by
  decide +kernel

/-- The tracker locks at the frame that completes block 1: blanking abandons T1's ONSET run before the block is judged (log 7). -/
theorem test_lock_before_block (s : State) (hs : s = ran (.frameSlot (rawFrame 7 5)) (framing 127 (onTrackerA (fun t => { t with acquire := 3 })
      ((listening true (-3) (some ⟨15952, 15, 16, 1536000, 65766687, 68451041, 8, 7⟩)).onPart fun p => { p with
        det := { p.det with t1 := { p.det.t1 with
          running := true, ref := 100, state := .onset, run := 1, pendingStart := some ⟨0, 1000, 0, 9⟩ } } })))) :
    s.part.rft.a.lock = .locked ∧ s.part.det.t1.state = .clear ∧ s.part.det.t1.blank = 31 ∧ s.part.det.t1.level = 5 := by
  subst hs; decide +kernel

/-- The timeout of the open measurement is reached at raw index 128. -/
def timedOut (mode : TrackerMode) (lock : LockState) (missed : Nat) : State :=
  onReceiver (fun h => { h with nextIndex := 129 }) (onTrackerA (fun t => { t with missCount := missed }) (measured mode lock 2))

theorem test_miss : ((timedOut .take .locked 2).part.rft.get .a).timeoutSpan playing.setup = 64
    ∧ (ran (.miss .a) (timedOut .survey .idle 0)).part.rft.a.survey.total = 1
    ∧ (ran (.miss .a) (timedOut .take .search 2)).part.rft.a.missCount = 3
    ∧ (ran (.miss .a) (timedOut .take .locked 1)).part.rft.a.lock = .locked
    ∧ (ran (.miss .a) (timedOut .take .locked 2)).part.rft.a.lock = .hold
    ∧ posted (ran (.miss .a) (timedOut .take .locked 2)) = [.lockChanged .a .locked .hold (some 128) 67108864] := by decide +kernel

theorem test_miss_early : ran (.miss .a) (onReceiver (fun h => { h with nextIndex := 128 }) (timedOut .take .locked 2))
    = onReceiver (fun h => { h with nextIndex := 128 }) (timedOut .take .locked 2) := by decide +kernel

/-- Sixteen ticks of an open tach measurement. -/
theorem test_tachMeasurementComplete :
    (ran (.tachMeasurementComplete .a) (onTrackerA (fun t => { t with tachOpen := some ⟨256, 16, 25856⟩ }) playing)).part.rft.a.tachLast
      = some ⟨25600, 101⟩
    ∧ (ran (.tachMeasurementComplete .a) (onTrackerA (fun t => { t with tachOpen := some ⟨256, 15, 25856⟩ }) playing)).part.rft.a.tachLast
      = none := by decide +kernel

/-- HOLD entered at raw index 100 with hold 1: 3,840 raw samples. -/
def holding (next : Nat) : State :=
  onReceiver (fun h => { h with nextIndex := next })
    (onTrackerA (fun t => { t with hold := some 100, settings := { t.settings with hold := 1 }, step := 68000000, meas := none })
      (measured .take .hold 0))

theorem test_holdTimerExpiry : (ran (.holdTimerExpiry .a) (holding 3941)).part.rft.a.lock = .fallback
    ∧ (ran (.holdTimerExpiry .a) (holding 3941)).part.rft.a.step = 67900000
    ∧ (ran (.holdTimerExpiry .a) (holding 3941)).part.rft.a.ramp = some 4004
    ∧ ran (.holdTimerExpiry .a) (holding 3940) = holding 3940 := by decide +kernel

/-- FALLBACK with the ramp timer at raw index 200 and S as given. -/
def ramping (step next : Nat) : State :=
  onReceiver (fun h => { h with nextIndex := next })
    (onTrackerA (fun t => { t with ramp := some 200, step := step, meas := none }) (measured .take .fallback 0))

theorem test_rampMove : [68000000, 67108864, 67108865, 66000000].map (fun x => (ran (.rampMove .a) (ramping x 201)).part.rft.a.step)
      = [67900000, 67108864, 67108864, 66100000]
    ∧ (ran (.rampMove .a) (ramping 68000000 201)).part.rft.a.ramp = some 264
    ∧ ran (.rampMove .a) (ramping 68000000 200) = ramping 68000000 200 := by decide +kernel

/-- A running half of the aligner with a window, its next frame the one given. -/
def aligning (next : Nat) (w : AzimuthWindow) : State :=
  onReceiver (fun h => { h with nextIndex := next })
    (playing.onPart fun p => { p with aza := { p.aza with a := { p.aza.a with running := true, mode := .track, window := some w } } })

/-- The sums of one impulse of 100 in each track, the second track's a sample later. -/
def impulses : AzimuthWindow := ⟨0, List.replicate 17 0 ++ [10000] ++ List.replicate 15 0, 10000, 10000⟩

/-- A silent window is rejected: no correlation is above 0. The impulses' window gives an estimate of one sample. -/
theorem test_azimuthWindow_judged : windowEstimate (AzimuthWindow.opened 0) 0 = none ∧ windowEstimate impulses 128 = some 256
    ∧ ran (.azimuthWindowComplete .a) (aligning 2047 impulses) = aligning 2047 impulses
    ∧ (ran (.azimuthWindowComplete .a) (aligning 2048 (AzimuthWindow.opened 0))).part.aza.a.window = some (AzimuthWindow.opened 2048)
    ∧ (ran (.azimuthWindowComplete .a) (aligning 2048 impulses)).part.aza.a.estimate = 32 := by decide +kernel

/-- The frame that brings the second track's impulse completes the product of lag 1 and adds that track's energy. -/
theorem test_azimuthWindow_gathers :
    (AzimuthWindow.gather ⟨⟨[(1000, 100)], [(1001, 100)], [], []⟩, []⟩ .a 1001
      ((AzimuthWindow.opened 0).gather ⟨⟨[(1000, 100)], [(1001, 100)], [], []⟩, []⟩ .a 1000)) = impulses
    ∧ (ran (.frameSlot (rawFrame 7 5)) (aligning 100 (AzimuthWindow.opened 0))).part.aza.a.window
        = some { AzimuthWindow.opened 0 with e1 := 25 } := by decide +kernel

/-- A parabola through three correlations moves the peak toward the greater neighbour (R126), and the estimate an eighth of the
way (R127). -/
theorem test_azimuthWindow_estimate : refinement 50 100 50 = 0 ∧ refinement 50 100 90 = 85 ∧ refinement 0 0 0 = 0
    ∧ accepted 17 100 100 100 128 = true ∧ accepted 0 100 100 100 128 = false ∧ estimateAfter 0 256 3 = 32
    ∧ estimateAfter 4096 40960 0 = 4096 := by decide +kernel

/-- What falls due at a frame is done in it: the measurement that its crossing completes, the timeout, the hold and the ramp timer, and
the aligner half's window; each leaves the lane as its row does. -/
theorem test_frame_performs (f : Nat → State → Tracker) (hf : f = fun n s => (ran (.frameSlot (rawFrame 7 5)) (framing n s)).part.rft.a)
    (g : Instr → State → Tracker) (hg : g = fun i s => (ran i s).part.rft.a) :
    ((f 100 (onTrackerA (fun t => { t with acquire := 3 })
        (listening true (-3) (some ⟨9040, 15, 16, 1536000, 65766687, 68451041, 8, 7⟩)))).lock = .locked)
      ∧ ((f 127 (timedOut .take .locked 2)).lock, (f 128 (timedOut .take .locked 2)).lock, (g (.miss .a) (timedOut .take .locked 2)).lock)
          = (.locked, .hold, .hold)
      ∧ ((f 3939 (holding 0)).lock, (f 3940 (holding 0)).step, (g (.holdTimerExpiry .a) (holding 3941)).step) = (.hold, 67900000, 67900000)
      ∧ ((f 199 (ramping 68000000 0)).step, (f 200 (ramping 68000000 0)).step) = (68000000, 67900000)
      ∧ [2046, 2047].map (fun n => (ran (.frameSlot (rawFrame 7 5)) (framing n (aligning 0 impulses))).part.aza.a.estimate) = [0, 32]
      ∧ (ran (.frameSlot (rawFrame 7 5)) (framing 2047 (aligning 0 impulses))).part.aza.a.window = some (AzimuthWindow.opened 2048) := by
  subst hf hg; decide +kernel

/-- The target is the tach step, clamped to the window, while the tach measurement is younger than Fr raw samples, and N from then on. -/
theorem test_target (f : Nat → Nat → Nat)
    (hf : f = fun span n => { Tracker.reset 0 with tachLast := some ⟨span, 99⟩ }.target Setup.reset n) :
    [(8262000, 384098), (8262000, 384099), (0, 100), (99999999, 100)].map (fun q => f q.1 q.2) = [67109472, 67108864, 65766687, 68451041]
      ∧ (Tracker.reset 0).target Setup.reset 5 = 67108864 := by subst hf; decide +kernel

/-! ## The transport -/

theorem test_tick_counts : [(false, false), (true, true), (false, true), (true, false)].map
      (fun q => ((ran (.tick .one 9) (at_ 1000 q.1 q.2 cfg)).part.pos.position, (ran (.tick .two 9) (at_ 1000 q.1 q.2 cfg)).part.pos.position))
      = [(1001, 999), (1001, 999), (999, 1001), (999, 1001)] := by decide +kernel

theorem test_tick_saturates : (ran (.tick .one 9) (at_ 16777215 false false cfg)).part.pos = ⟨16777215, false, true, false, true⟩
    ∧ (ran (.tick .two 9) (at_ 0 false false cfg)).part.pos = ⟨0, false, false, true, true⟩
    ∧ (ran (.tick .one 9) (at_ 16777214 false false cfg)).part.pos = ⟨16777215, true, true, false, true⟩ := by decide +kernel

theorem test_bothPhasesChange : (ran .bothPhasesChange cfg).part.pos = ⟨1000, true, true, true, true⟩ := by decide +kernel

theorem test_tick_endPosition : (ran (.tick .one 9) playing).part.trc.op.ending = some (.cause .endPosition)
    ∧ (ran (.tick .one 9) playing).part.take.device = .configure ∧ (ran (.tick .one 9) playing).part.trc.settleTimer = some 9
    ∧ (ran (.tick .one 9) (at_ 999 false false playing)).part.trc.op.ending = none := by decide +kernel

/-- A SEEK's wind ends at the wind point 1,600 from either side, its approach at the target 2,000. -/
theorem test_tick_seek : [1598, 1599].map (fun x => (ran (.tick .one 9) (at_ x false false (moves .windingFwd (seekOp .wind 1) cfg))).part.trc.state)
      = [.windingFwd, .settling]
    ∧ [1602, 1601].map (fun x => (ran (.tick .one 9) (at_ x true false (moves .windingRev (seekOp .wind 1) cfg))).part.trc.state)
      = [.windingRev, .settling]
    ∧ [1998, 1999].map (fun x => (ran (.tick .one 9) (at_ x false false (moves .approaching (seekOp .approach 1) cfg))).part.trc.op.ending)
      = [none, some (.term .done)] := by decide +kernel

/-- A tach channel with its ticks counted, of a tracker in a mode; the last raw index written is 99. -/
def tached (mode : TrackerMode) (t : Option TachOpen) : State :=
  onTrackerA (fun x => { x with mode := mode, tachOpen := t }) (at_ 500 false false playing)

/-- A forward tick is stamped 25,344 into the channel of a tracker that works, and into no other (log 15). -/
theorem test_tick_tach : (ran (.tick .one 9) (tached .take none)).part.rft.a.tachOpen = some ⟨25344, 0, 25344⟩
    ∧ (ran (.tick .one 9) (tached .survey (some ⟨256, 14, 512⟩))).part.rft.a.tachOpen = some ⟨256, 15, 25344⟩
    ∧ (ran (.tick .one 9) (tached .take (some ⟨256, 15, 512⟩))).part.rft.a.tachLast = some ⟨25088, 99⟩
    ∧ (ran (.tick .one 9) (tached .none none)).part.rft.a.tachOpen = none
    ∧ (ran (.tick .one 9) (onTrackerA (fun t => { t with settings := { t.settings with source := .tach } }) (tached .take none))).part.rft.a.meas.map
        (fun m => (m.t0, m.c, m.fRef)) = some (25344, 16, 3046) := by decide +kernel

/-- The sixteenth tick completes a TACH tracker's own measurement, which the row MEASUREMENT_COMPLETE would judge alike. -/
theorem test_tick_tach_completes (s : Nat → Tracker) (hs : s = fun counted => (ran (.tick .one 9) (onTrackerA (fun t => { t with
      lock := .search, settings := { t.settings with source := .tach, c := 16 },
      meas := some ⟨0, counted, 16, 3046, 65766687, 68451041, 5, 0⟩ }) (tached .take none))).part.rft.a) :
    (s 14).meas.map Measurement.counted = some 15 ∧ (s 15).meas.map (fun m => (m.t0, m.counted)) = some (25344, 0) := by
  subst hs; decide +kernel

/-- The 64th tick judges its window: a low one counts, and the third in a row ends the take. -/
theorem test_tick_slip_judged (s : Nat → State) (hs : s = fun low => ran (.tick .one 9)
      (onTransport (fun t => { t with slipWindow := some ⟨63, 74⟩, slipLow := low }) (at_ 500 false false playing))) :
    (s 1).part.trc.slipLow = 2 ∧ (s 1).part.cmn.slip.flag = false ∧ (s 2).part.cmn.slip.flag = true
      ∧ (s 2).part.trc.op.ending = some (.cause .condition) := by subst hs; decide +kernel

/-- The slip window opens at a forward tick, counts the following ones, closes at the 64th; a reverse tick discards it. -/
theorem test_tick_slip (s : Option SlipWindow → State) (hs : s = fun w => onTransport (fun t => { t with slipWindow := w }) (at_ 500 false false playing)) :
    [none, some ⟨62, 7⟩, some ⟨63, 7⟩].map (fun w => (ran (.tick .one 9) (s w)).part.trc.slipWindow) = [some ⟨0, 0⟩, some ⟨63, 7⟩, some ⟨0, 0⟩]
      ∧ (ran (.tick .two 9) (s (some ⟨62, 7⟩))).part.trc.slipWindow = none := by subst hs; decide +kernel

/-- A take in STARTING with a forward tick seen at 0 and a qualification count. -/
def qualifying (count : Nat) : State :=
  onTransport (fun t => { t with qualCount := count, lastTick := some 0 })
    (onTake (fun t => { t with device := .run, number := 3, record := some ⟨none, none, none, none⟩ })
      (moves .starting { OpRecord.idle with kind := .take } cfg))

/-- I_n is 5,252 at the default tick rate: 4,727 and 5,777 are within a tenth of it, 4,726 and 5,778 are not. -/
theorem test_tick_qualifies : nominalInterval Setup.reset = 5252
    ∧ [4726, 4727, 5777, 5778].map (fun now => (ran (.tick .one now) (qualifying 30)).part.trc.qualCount) = [0, 31, 31, 0]
    ∧ (ran (.tick .one 9) (at_ 1000 true false (qualifying 30))).part.trc.qualCount = 0
    ∧ (ran (.tick .one 5252) (qualifying 31)).part.trc.state = .playing := by decide +kernel

/-- The first forward tick starts the first interval and leaves the count; the tick that brings the count to 32 begins capture. -/
theorem test_tick_enters_playing (s : State) (hs : s = ran (.tick .one 5252) (qualifying 31)) :
    (ran (.tick .one 9) (onTransport (fun t => { t with lastTick := none }) (qualifying 7))).part.trc.qualCount = 7
      ∧ (ran (.tick .one 9) (onTransport (fun t => { t with lastTick := none }) (qualifying 7))).part.trc.lastTick = some 9
      ∧ s.part.hcr.capturing = true ∧ s.part.hcr.nextIndex = 0 ∧ posted s = [.takeStarted 3 1001]
      ∧ s.part.trc.slipWindow = none ∧ s.part.trc.stallTimer = some 5252
      ∧ (ran (.tick .one 5252) (onTransport (fun t => { t with op := { OpRecord.idle with kind := .survey } })
          (qualifying 31))).part.trc.op.surveyTicks = some 0 := by subst hs; decide +kernel

theorem test_qualifying_legal : Part.playLegal (qualifying 30).part :=
  ⟨by decide, by decide, by decide, by decide, by decide, fun _ h => by cases h⟩

theorem test_qualificationComplete : posted (ran .qualificationComplete (qualifying 32)) = [.takeStarted 3 1000]
    ∧ (ran .qualificationComplete (qualifying 32)).part.hcr.capturing = true
    ∧ ran .qualificationComplete (qualifying 31) = qualifying 31
    ∧ (ran .qualificationComplete (onTransport (fun t => { t with op := { OpRecord.idle with kind := .survey } })
        (qualifying 32))).part.trc.op.surveyTicks = some 0 := by decide +kernel

/-- A survey of lane A in PLAYING, its span 500, its tick count as given. -/
def surveying (ticks : Nat) : State :=
  onTrackerA (fun t => { t with mode := .survey })
    (moves .playing { OpRecord.idle with kind := .survey, span := some 500, surveyTicks := some ticks } cfg)

theorem test_surveySpanCounted : (ran .surveySpanCounted (surveying 500)).part.trc.op.ending = some (.term .done)
    ∧ (ran .surveySpanCounted (surveying 500)).part.trc.state = .settling
    ∧ ran .surveySpanCounted (surveying 499) = surveying 499 := by decide +kernel

/-- Of a span of 500 the tick that makes 499 counts, the one that makes 500 ends the survey, and a reverse tick leaves the count. -/
theorem test_tick_survey : [498, 499].map (fun n => ((ran (.tick .one 9) (surveying n)).part.trc.state,
        (ran (.tick .one 9) (surveying n)).part.trc.op.surveyTicks, (ran (.tick .one 9) (surveying n)).part.trc.op.ending))
      = [(.playing, some 499, none), (.settling, some 500, some (.term .done))]
    ∧ (ran (.tick .one 9) (surveying 499)).part.trc.settleTimer = some 9
    ∧ (ran (.tick .two 9) (surveying 498)).part.trc.op = (surveying 498).part.trc.op
    ∧ (ran (.tick .two 9) (surveying 498)).part.trc.state = .playing := by decide +kernel

/-- An open slip window with its ticks and pulses, and the count of low windows before it. -/
def slipping (ticks pulses low : Nat) : State :=
  onTransport (fun t => { t with slipWindow := some ⟨ticks, pulses⟩, slipLow := low }) (moves .approaching (seekOp .approach 1) cfg)

theorem test_capstanPulse : (ran .capstanPulse (slipping 3 7 0)).part.trc.slipWindow = some ⟨3, 8⟩ ∧ ran .capstanPulse cfg = cfg := by
  decide +kernel

/-- With Nc 1,024 and threshold 224, 73 pulses give q 224 and 74 give 221. -/
theorem test_slipWindowClose : [0, 73, 74].map (slipRatio Setup.reset) = [255, 224, 221]
    ∧ (ran .slipWindowClose (slipping 64 73 2)).part.trc.slipLow = 0 ∧ (ran .slipWindowClose (slipping 64 74 1)).part.trc.slipLow = 2
    ∧ (ran .slipWindowClose (slipping 64 74 2)).part.cmn.slip.flag = true
    ∧ (slipping 64 74 2).setup.policies.slip.policy = .stop ∧ (slipping 64 74 2).part.cmn.slip.present = false
    ∧ ran .slipWindowClose (slipping 63 74 2) = slipping 63 74 2 := by decide +kernel

/-- SLIP under STOP ends a take and a survey, and leaves a SEEK. -/
theorem test_slip_ends (f : State → Option Ending) (hf : f = fun s => (ran .slipWindowClose
      (onTransport (fun t => { t with slipWindow := some ⟨64, 74⟩, slipLow := 2 }) s)).part.trc.op.ending) :
    [playing, surveying 5, slipping 64 74 2].map f = [some (.cause .condition), some (.term .condition), none] := by
  subst hf; decide +kernel

/-- A REWIND_TO_LEADER in a phase. -/
def rewinding (st : TransportState) (phase : OpPhase) (leader : Bool) : State :=
  onTransport (fun t => { t with leader := leader })
    (moves st { OpRecord.idle with kind := .rewindToLeader, phase := some phase, startTime := some 5, windCount := some 0 } cfg)

theorem test_leader_seen : (ran .leaderSensorChange (moves .windingFwd (seekOp .wind 1) cfg)).part.trc.op.ending = some (.term .endOfTape)
    ∧ (ran .leaderSensorChange playing).part.trc.op.ending = some (.cause .tapeEnd)
    ∧ (ran .leaderSensorChange (rewinding .windingRev .reverse false)).part.trc.op.phase = some .settle
    ∧ (ran .leaderSensorChange (rewinding .windingRev .reverse false)).part.trc.op.ending = none := by decide +kernel

/-- Leader seen in a rewind's forward phase ends it END_OF_TAPE; at rest it ends nothing. -/
theorem test_leader_seen_forward : (ran .leaderSensorChange (rewinding .approaching .forward false)).part.trc.op.ending = some (.term .endOfTape)
    ∧ (ran .leaderSensorChange (moves .settling (seekOp .settle 1) cfg)).part.trc.op = seekOp .settle 1
    ∧ (ran .leaderSensorChange (moves .settling (seekOp .settle 1) cfg)).part.trc.leader = true := by decide +kernel

theorem test_leader_left : (ran .leaderSensorChange (rewinding .approaching .forward true)).part.pos.position = 0
    ∧ (ran .leaderSensorChange (rewinding .approaching .forward true)).part.trc.op.ending = some (.term .done)
    ∧ (ran .leaderSensorChange (rewinding .windingRev .reverse true)).part.pos.position = 1000
    ∧ (ran .leaderSensorChange (rewinding .windingRev .reverse true)).part.trc.leader = false := by decide +kernel

theorem test_cassetteInsertion : ran .cassetteInsertion cfg = cfg
    ∧ (ran .cassetteInsertion State.reset).part.pos = ⟨0, false, false, false, true⟩
    ∧ posted (ran .cassetteInsertion State.reset) = [.cassetteChanged true] := by decide +kernel

theorem test_cassetteRemoval : ran .cassetteRemoval State.reset = State.reset
    ∧ (ran .cassetteRemoval cfg).part.pos = ⟨1000, false, false, false, false⟩
    ∧ (ran .cassetteRemoval playing).part.trc.op.ending = some (.cause .cassetteOut)
    ∧ (ran .cassetteRemoval (moves .approaching (seekOp .approach 1) cfg)).part.trc.op.ending = some (.term .cassetteOut) := by
  decide +kernel

theorem test_settle_completes :
    posted (ran .settleTimerExpiry (moves .settling { seekOp .settle 1 with ending := some (.term .aborted) } cfg))
      = [.transportDone .seek .aborted 1000]
    ∧ (ran .settleTimerExpiry (moves .settling OpRecord.idle cfg)).part.trc.state = .stopped
    ∧ (ran .settleTimerExpiry (moves .settling OpRecord.idle cfg)).part.timebase = 400005
    ∧ (ran .settleTimerExpiry (rewinding .settling .settle true)).part.trc.state = .approaching := by decide +kernel

/-- A survey of lane A that has ended: no measurement in its window, and one of a span of 16,400. -/
def surveyed (a : SurveyAcc) : State :=
  onTrackerA (fun t => { t with mode := .survey, settings := { t.settings with source := .bias, fRef := 1536000 }, survey := a })
    (moves .settling { OpRecord.idle with kind := .survey, ending := some (.term .done) } cfg)

theorem test_settle_survey : posted (ran .settleTimerExpiry (surveyed ⟨4, 0, 0, none, none⟩)) = [.surveyDone .a .bias .done 4 0 none]
    ∧ posted (ran .settleTimerExpiry (surveyed ⟨1, 1, 16400, some 16400, some 16400⟩))
        = [.surveyDone .a .bias .done 1 1 (some (1534501, 1534501, 1534501))]
    ∧ (ran .settleTimerExpiry (surveyed SurveyAcc.empty)).part.rft.a.mode = .none
    ∧ (ran .settleTimerExpiry (rewinding .settling .settle false)).part.trc.state = .windingRev := by decide +kernel

/-- A take that has ended and settles. -/
def ended : State :=
  onTake (fun t => { t with record := some ⟨none, some .stopCommand, some 99, none⟩ })
    (moves .settling { OpRecord.idle with kind := .take, ending := some (.cause .stopCommand) } cfg)

theorem test_settle_take : (ran .settleTimerExpiry ended).part.take.record = none
    ∧ (ran .settleTimerExpiry (onLaneA (fun x => { x with state := .draining }) ended)).part.take.record
        = some ⟨none, some .stopCommand, some 99, some 1000⟩ := by decide +kernel

theorem test_settle_seek : [1999, 2000, 2001].map
      (fun x => (ran .settleTimerExpiry (at_ x false false (moves .settling (seekOp .settle 2) cfg))).part.trc.state)
      = [.approaching, .stopped, .windingRev]
    ∧ (ran .settleTimerExpiry (at_ 2001 false false (moves .settling (seekOp .settle 2) cfg))).part.trc.op.windCount = some 3
    ∧ posted (ran .settleTimerExpiry (at_ 2001 false false (moves .settling (seekOp .settle 3) cfg)))
        = [.transportDone .seek .notReached 2001] := by decide +kernel

theorem test_stallTimerExpiry : (ran .stallTimerExpiry playing).part.trc.op.ending = some (.cause .condition)
    ∧ (ran .stallTimerExpiry playing).part.cmn.stall.flag = true
    ∧ (ran .stallTimerExpiry playing).part.trc.settleTimer = some 500005
    ∧ (ran .stallTimerExpiry (moves .windingFwd (seekOp .wind 1) cfg)).part.trc.op.ending = some (.term .stalled)
    ∧ (ran .stallTimerExpiry (rewinding .windingRev .reverse true)).part.trc.op.phase = some .settle := by decide +kernel

theorem test_startingLimit : (ran .startingLimit (qualifying 3)).part.trc.op.ending = some (.cause .condition)
    ∧ (ran .startingLimit (qualifying 3)).part.trc.settleTimer = some 2000005 ∧ ran .startingLimit cfg = cfg := by decide +kernel

theorem test_leaderSearchLimit :
    (ran .leaderSearchLimit (rewinding .windingRev .reverse false)).part.trc.op.ending = some (.term .leaderNotFound)
    ∧ (ran .leaderSearchLimit (rewinding .windingRev .reverse false)).part.trc.settleTimer = some 240000005
    ∧ ran .leaderSearchLimit cfg = cfg := by decide +kernel

/-! ## Upstream slots -/

theorem test_upstream_still : (ran .upstreamSlot State.reset).part.osc.upstream = [2, 0x02] ++ List.replicate 21 0x55 ++ [0x03]
    ∧ (ran .upstreamSlot State.reset).part.osc.pattern = 0xAA
    ∧ (ran .upstreamSlot cfg).part.osc.upstream = [3, 0x02] ++ List.replicate 21 0 ++ [0xFB] := by decide +kernel

/-- A frame in lane A's FIFO, ACCEPT set. -/
def sending : State :=
  onOutput (fun o => { o with accept := true }) (onLaneA (fun x => { x with fifo := [⟨.a, 5, ⟨-1, .none, false, false⟩,
    ⟨258, .marked, true, false⟩, .locked, false, true, 0, 3⟩] }) cfg)

theorem test_upstream_sample : (ran .upstreamSlot sending).part.lanes.a.fifo = []
    ∧ (ran .upstreamSlot sending).part.osc.upstream.take 17
        = [0, 0x02, 0, 0, 5, 0xFF, 0xFF, 0xFF, 0, 1, 2, 0, 0, 0, 0x50, 0x12, 3]
    ∧ (ran .upstreamSlot sending).part.osc.lastServed = .a := by decide +kernel

/-- A notice waits and lane A's FIFO holds as many frames as the threshold: the sample frame goes, until fifteen slots have passed
without a message, or ACCEPT is clear, or the FIFO is below the threshold. -/
theorem test_upstream_threshold (s : Nat → Nat → Bool → State) (hs : s = fun slots threshold accept => onSetup (fun u => { u with threshold := threshold })
      (onOutput (fun o => { o with accept := accept, slotsSince := slots }) (ran .cassetteRemoval sending))) :
    [(14, 1, true), (15, 1, true), (14, 2, true), (14, 1, false)].map (fun q => (ran .upstreamSlot (s q.1 q.2.1 q.2.2)).part.osc.upstream.head?)
        = [some 0, some 1, some 1, some 1]
      ∧ (ran .upstreamSlot (s 14 1 true)).part.osc.slotsSince = 15 ∧ (ran .upstreamSlot (s 15 1 true)).part.osc.slotsSince = 0 := by
  subst hs; decide +kernel

/-- A lane stalled on its full FIFO takes its next step at the removal that leaves room. -/
theorem test_upstream_resumes (s : State) (hs : s = onOutput (fun o => { o with accept := true }) (onLaneA (fun x => { x with
      fifo := List.replicate 1024 ⟨.a, 5, ⟨0, .none, false, false⟩, ⟨0, .none, false, false⟩, .idle, false, false, 0, 3⟩ }) ready16)) :
    (ran .upstreamSlot s).part.lanes.a.fifo.length = 1024 ∧ (ran .upstreamSlot s).part.lanes.a.frameCount = 1 := by
  subst hs; decide +kernel

theorem test_upstream_message : (ran .upstreamSlot (ran (.identify 7) cfg)).part.osc.upstream.take 8 = [1, 0x02, 0, 0, 15, 1, 7, 0]
    ∧ (ran .upstreamSlot (ran (.identify 7) cfg)).part.msp.replies = []
    ∧ (ran .upstreamSlot (ran (.readStatus 7) cfg)).part.osc.underway.map (fun m => (m.total, m.rest.length)) = some (52, 34)
    ∧ (ran .upstreamSlot (onOutput (fun o => { o with underway := some ⟨false, 52, List.replicate 18 0⟩ }) cfg)).part.osc.underway = none
    ∧ (ran .upstreamSlot (ran .cassetteRemoval cfg)).part.osc.upstream.take 8 = [1, 0x06, 2, 0, 3, 8, 1, 0]
    ∧ (ran .upstreamSlot (ran .cassetteRemoval cfg)).part.msp.notices = [] := by decide +kernel

/-- A masked kind waits in its queue. -/
theorem test_upstream_masked :
    (ran .upstreamSlot (onSetup (fun u => { u with mask := [.cassetteChanged] }) (ran .cassetteRemoval cfg))).part.osc.upstream.take 2 = [3, 0x06]
    ∧ (ran .upstreamSlot (onSetup (fun u => { u with mask := [.cassetteChanged] }) (ran .cassetteRemoval cfg))).part.msp.notices.length = 1 := by
  decide +kernel

end Sys2Proof.Tests
end

section
/-! What every step keeps of the buffers, the queues and the registers with a range of their own (O59, O57). -/

namespace Sys2Proof.Machine

open Sys2Proof.Safety

/-! ## The buffers (01, R10, R11; 06, R114; log 17) -/

theorem buffersCanonical_iff (s : State) :
    buffersCanonical s = true ↔ (∀ tr, (s.rings.samples.get tr).wf = true) ∧ s.rings.stamps.wf = true
      ∧ s.bank.coeffs.wf = true ∧ s.bank.written.wf = true := by
  simp only [buffersCanonical, Bool.and_eq_true]
  constructor
  · rintro ⟨⟨⟨⟨⟨⟨h1, h2⟩, h3⟩, h4⟩, hs⟩, hc⟩, hw⟩
    exact ⟨fun tr => by cases tr <;> assumption, hs, hc, hw⟩
  · rintro ⟨h, hs, hc, hw⟩
    exact ⟨⟨⟨⟨⟨⟨h .t1, h .t2⟩, h .t3⟩, h .t4⟩, hs⟩, hc⟩, hw⟩

theorem Rings.write_wf {r : Rings} (n : Nat) (f : PerTrack Int) (h : ∀ tr, (r.samples.get tr).wf = true) (tr : Track) :
    ((r.write n f).samples.get tr).wf = true := by
  cases tr
  · exact Memory.wf_write _ _ (h .t1)
  · exact Memory.wf_write _ _ (h .t2)
  · exact Memory.wf_write _ _ (h .t3)
  · exact Memory.wf_write _ _ (h .t4)

theorem State.writeFrame_canonical (f : PerTrack Int) (s : State) (h : buffersCanonical s = true) :
    buffersCanonical (s.writeFrame f) = true := by
  obtain ⟨-, -, hbank, -, hrings⟩ := s.writeFrame_spec f
  rw [buffersCanonical_iff] at h ⊢
  obtain ⟨hsamples, hstamps, hb⟩ := h
  rw [hrings, hbank]
  split
  · exact ⟨Rings.write_wf _ _ hsamples, Memory.wf_write _ _ hstamps, hb⟩
  · exact ⟨Rings.write_wf _ _ hsamples, hstamps, hb⟩

theorem State.passOn_canonical (f : PerTrack Int) (s : State) (h : buffersCanonical s = true) :
    buffersCanonical (s.passOn f) = true := by
  unfold State.passOn
  split
  · split
    · exact h
    · exact s.writeFrame_canonical f h
  · exact h

theorem State.passCopies_canonical (f : PerTrack Int) (k : Nat) (s : State) (h : buffersCanonical s = true) :
    buffersCanonical (s.passCopies f k) = true := by
  induction k generalizing s with
  | zero => exact h
  | succ k ih => exact ih _ (s.passOn_canonical f h)

theorem frameSlot_canonical (bytes : List Byte) (s : State) (h : buffersCanonical s = true) :
    buffersCanonical (frameSlot bytes s) = true := by
  unfold frameSlot
  dsimp only
  split
  · exact h
  · exact State.passOn_canonical _ _ h
  · split
    · exact State.passOn_canonical _ _ h
    · exact h
  · split
    · exact State.passOn_canonical _ _ h
    · split
      · exact State.passOn_canonical _ _ (State.passCopies_canonical _ _ _ h)
      · exact h

theorem LoadedBank.softReset_wf (locked : Bool) {b : LoadedBank} (h : b.coeffs.wf = true ∧ b.written.wf = true) :
    (b.softReset locked).coeffs.wf = true ∧ (b.softReset locked).written.wf = true := by
  unfold LoadedBank.softReset
  split
  · exact h
  · exact ⟨rfl, rfl⟩

/-- Only a soft reset, LOAD_COEFF_ROW, a hard reset and a frame slot reach a buffer; every other row has the buffers it found. -/
theorem keeps_buffersCanonical : Keeps fun s => buffersCanonical s = true where
  softReset s h := by
    rw [buffersCanonical_iff] at h ⊢
    obtain ⟨hsamples, hstamps, hbank⟩ := h
    exact ⟨hsamples, hstamps, LoadedBank.softReset_wf _ hbank⟩
  coeffs row coeffs s h := by
    rw [buffersCanonical_iff] at h ⊢
    obtain ⟨hsamples, hstamps, hcoeffs, hwritten⟩ := h
    exact ⟨hsamples, hstamps, Memory.wf_writeFrom _ _ hcoeffs, Memory.wf_write _ _ hwritten⟩
  hardReset _ _ _ := rfl
  frameSlot := frameSlot_canonical
  enter _ _ _ _ := id
  lockTables _ _ := id
  takeRates _ _ _ := id
  selectBank _ _ _ := id
  setDeck _ _ := id
  setPosition _ _ := id
  windStart _ _ _ := id
  seekStart _ _ _ := id
  rewindStart _ _ := id
  stop _ := id
  surveyStart _ _ _ _ _ _ _ _ := id
  loadSegment _ _ _ _ _ := id
  deleteSegment _ _ := id
  clearSegments _ := id
  takeStart _ _ _ := id
  readDropouts _ _ := id
  takePolicies _ _ _ _ _ := id
  clearConditions _ _ := id
  setNoticeMask _ _ := id
  setMonitor _ _ := id
  setOutput _ _ := id
  port _ _ _ := id
  accept _ _ := id
  cellError _ := id
  wordSent _ := id
  works _ _ _ _ := id
  takeStop _ := id
  upstreamSlot _ := id
  tick _ _ _ := id
  qualify _ := id
  surveyIfCounted _ := id
  pulse _ := id
  slipClose _ := id
  leaderChange _ := id
  insertCassette _ := id
  removeCassette _ := id
  settleExpiry _ := id
  stallExpiry _ := id
  startingExpiry _ := id
  leaderLimitExpiry _ := id
  bothPhases _ := id

/-! ## What every move of the part keeps -/

/-- A held-frame run within its bound, and none while the link waits (01, R2, R4 to R6). -/
def HeadReceiver.runLegal (h : HeadReceiver) : Prop := h.run ≤ 4 ∧ (h.link = .following ∨ h.run = 0)

theorem runFits_iff (s : State) : runFits s = true ↔ s.part.hcr.runLegal := by
  simp [runFits, HeadReceiver.runLegal]

/-- Q survives every move of the part (`Part.Moves`) and a new state of the link whose run stays legal. -/
structure LinkKeep (Q : Part → Prop) : Prop where
  moves : ∀ {p q : Part}, p.Moves q → Q p → Q q
  link : ∀ p h, (p.hcr.runLegal → h.runLegal) → Q p → Q { p with hcr := h }

/-- Q survives also a soft reset and SET_POSITION. -/
structure MovesKeep (Q : Part → Prop) : Prop extends LinkKeep Q where
  softBlocks : ∀ u p, Q p → Q (p.softBlocks u)
  position : ∀ p (x : BitVec 24), Q p → Q { p with pos := { p.pos with position := x.toNat, referenced := true } }

/-- The rows that are no command, no hard reset and no slot or cell of the capture link. -/
def isDeckEvent (i : Instr) : Bool :=
  !isCommand i && match i with
    | .hardReset _ | .downstreamCell _ | .upstreamSlot => false
    | _ => true

section
variable {Q : Part → Prop} (h : LinkKeep Q)
include h

theorem LinkKeep.passOn (f : PerTrack Int) (s : State) (k : Q s.part) : Q (s.passOn f).part := by
  obtain ⟨-, -, -, m, -⟩ := s.passOn_spec f
  exact h.moves m k

theorem LinkKeep.passCopies (f : PerTrack Int) (n : Nat) (s : State) (k : Q s.part) : Q (s.passCopies f n).part := by
  induction n generalizing s with
  | zero => exact k
  | succ n ih => exact ih _ (h.passOn f s k)

theorem LinkKeep.takeFrame (seq : Byte) (f : PerTrack Int) (s : State) (k : Q s.part) : Q (s.takeFrame seq f).part := by
  refine h.passOn f _ (h.moves ?_ (h.link s.part (s.part.hcr.taken seq f) (fun _ => ⟨Nat.zero_le 4, .inl rfl⟩) k))
  exact (Part.works_reportAbsent _ _ _).moves.trans (Part.moves_takeStop _ _)

theorem LinkKeep.rawLost (u : Setup) (p : Part) (k : Q p) : Q (p.rawLost u) := by
  refine h.moves ?_ (h.link p { p.hcr with link := .waiting, run := 0, capturing := false } (fun _ => ⟨Nat.zero_le 4, .inr rfl⟩) k)
  exact ((Part.works_reportAbsent _ _ _).trans (Part.works_occur _ _ _)).moves.trans (Part.moves_takeStop _ _)

theorem LinkKeep.hold (u : Setup) (n : Nat) (p : Part) (hl : p.hcr.link = .following) (hn : p.hcr.run + n ≤ 4) (k : Q p) :
    Q (p.hold u n) := by
  refine h.moves ?_ (h.link p { p.hcr with
    run := p.hcr.run + n, expected := p.hcr.expected + BitVec.ofNat 8 n } (fun _ => ⟨hn, .inl hl⟩) k)
  exact (Part.works_reportPresent _ _ _).moves.trans (Part.moves_takeStop _ _)

theorem LinkKeep.frameSlot (bytes : List Byte) (s : State) (k : Q s.part) : Q (frameSlot bytes s).part := by
  unfold Machine.frameSlot
  dsimp only
  split
  · exact k
  · exact h.takeFrame _ _ s k
  · rename_i hl _
    split
    · exact h.passOn _ _ (h.hold _ 1 _ hl (by omega) k)
    · exact h.rawLost _ _ k
  · rename_i hl _
    split
    · exact h.takeFrame _ _ s k
    · split
      · exact h.takeFrame _ _ _ (h.passCopies _ _ _ (h.hold _ _ _ hl (by assumption) k))
      · exact h.rawLost _ _ k

theorem LinkKeep.takeRates (new : RatePair) (s : State) (k : Q s.part) : Q (s.takeRates new).part := by
  have clock (u : Setup) (p : Part) (k : Q p) : Q (p.wordClockChanged u) :=
    h.moves (Part.works_reportAbsent _ _ _).moves
      (h.link p { p.hcr with link := .waiting, run := 0 } (fun _ => ⟨Nat.zero_le 4, .inr rfl⟩) k)
  have ratio (u : Setup) (p : Part) (k : Q p) : Q (p.ratioChanged u) :=
    h.moves (p := p) ⟨rfl, rfl, rfl, rfl, rfl, rfl, rfl, id, id⟩ k
  have ite {c : Prop} [Decidable c] {p q : Part} (a : Q p) (b : Q q) : Q (if c then p else q) := by split <;> assumption
  exact h.moves ((Part.works_refind _ _).moves.trans (Part.moves_takeStop _ _)) (ite (ite k (clock _ _ k)) (ratio _ _ (ite k (clock _ _ k))))

/-- What survives every move of the part survives every event of the deck, the head converter and the blocks. -/
theorem LinkKeep.event (i : Instr) (hi : isDeckEvent i = true) (s t : State) (e : exec i s = .next t) (k : Q s.part) : Q t.part := by
  have works {p q : Part} (w : p.Works q) (k : Q p) : Q q := h.moves w.moves k
  have stop {p : Part} (k : Q p) : Q (p.takeStop s.setup) := h.moves (Part.moves_takeStop _ _) k
  cases i <;> first | exact absurd hi Bool.false_ne_true | (injection e with e; rw [← e]; clear e t hi)
  case frameSlot bytes => exact h.frameSlot bytes s k
  case settingsWordSent =>
    refine h.link s.part s.part.hcr.wordSent (fun r => ?_) k
    unfold HeadReceiver.wordSent
    split <;> exact r
  case measurementComplete l => exact stop (works (Part.works_measurementComplete _ l _) k)
  case miss l => exact stop (works (Part.works_missIfDue _ l _) k)
  case tachMeasurementComplete l => exact works (Part.works_tachComplete l _) k
  case holdTimerExpiry l => exact stop (works (Part.works_holdIfDue _ l _) k)
  case rampMove l => exact works (Part.works_rampIfDue _ l _) k
  case azimuthWindowComplete l => exact works (Part.works_azimuthComplete _ l _) k
  case productionStep l =>
    unfold productionStep
    split
    · exact works (Part.works_closeTake _)
        (stop (works ((Part.works_stepLane _ s.rings s.bank l _).trans (Part.works_finishIfDone _ l _)) k))
    · exact k
  case tick phase now => exact h.moves (Part.moves_tick _ phase now _) k
  case qualificationComplete => exact h.moves (Part.moves_qualify _) k
  case surveySpanCounted => exact stop (h.moves (Part.moves_surveyIfCounted _ _) k)
  case capstanPulse => exact h.moves (Part.moves_pulse _) k
  case slipWindowClose => exact stop (h.moves (Part.moves_slipClose _ _) k)
  case leaderSensorChange => exact stop (h.moves (Part.moves_leaderChange _ _) k)
  case cassetteInsertion => exact h.moves (Part.moves_insertCassette _ _) k
  case cassetteRemoval => exact stop (h.moves (Part.moves_removeCassette _ _) k)
  case settleTimerExpiry => exact h.moves (Part.moves_settleExpiry _ _) k
  case stallTimerExpiry => exact h.moves (Part.moves_stallExpiry _ _) k
  case startingLimit => exact h.moves (Part.moves_startingExpiry _ _) k
  case leaderSearchLimit => exact stop (h.moves (Part.moves_leaderLimitExpiry _ _) k)
  case clipHoldExpiry l => exact works (Part.works_clipExpire _ l _) k
  case takeEnded => exact works (Part.works_closeTake _) k
  case bothPhasesChange => exact h.moves (Part.moves_bothPhases _) k

end

section
variable {Q : Part → Prop} (h : MovesKeep Q)
include h

/-- What survives every move of the part survives every owner. -/
theorem MovesKeep.owners : OwnersKeep fun s => Q s.part where
  softReset s k := h.moves (Part.works_refind _ _).moves (h.softBlocks _ _ k)
  enter _ _ _ _ k := h.moves (Part.moves_take _ _) k
  lockTables _ _ := id
  takeRates new s _ k := h.toLinkKeep.takeRates new s k
  coeffs _ _ _ := id
  selectBank _ _ _ := id
  setDeck _ _ := id
  setPosition x s k := h.moves (Part.works_follow _ _).moves (h.position _ x k)
  windStart d _ _ k := h.moves (Part.moves_windStart d _) k
  seekStart n _ _ k := h.moves (Part.moves_seekStart _ n _) k
  rewindStart _ _ k := h.moves (Part.moves_rewindStart _) k
  stop _ k := h.moves ((Part.moves_endAs _ _ _ _).trans (Part.moves_takeStop _ _)) k
  surveyStart l src f c w n s _ k := by
    obtain ⟨-, -, -, -, -, m⟩ := Part.surveyStart_spec s.setup l src f c w n s.part
    exact h.moves m k
  loadSegment _ _ _ _ _ k := h.moves (Part.works_follow _ _).moves k
  deleteSegment _ _ k := h.moves (Part.works_follow _ _).moves k
  clearSegments _ k := h.moves (Part.works_follow _ _).moves k
  takeStart e s _ k := by
    obtain ⟨-, -, -, -, -, -, m⟩ := Part.takeStart_spec s.setup e s.part
    exact h.moves m k
  readDropouts n s k := by
    refine h.moves (p := s.part) ⟨rfl, rfl, rfl, rfl, rfl, rfl, rfl, id, fun ⟨hn, ha, hb, hl⟩ => ⟨hn, ha, hb, ?_⟩⟩ k
    exact (List.length_drop ▸ Nat.sub_le _ n).trans hl
  takePolicies ids policy scope s _ k :=
    h.moves ((Part.Works.foldl _ (fun p id => Part.works_policySet _ id p) ids s.part).moves.trans (Part.moves_takeStop _ _)) k
  clearConditions _ s k := h.moves (p := s.part) ⟨rfl, rfl, rfl, rfl, rfl, rfl, rfl, id, id⟩ k
  setNoticeMask _ _ := id
  setMonitor _ _ := id
  setOutput _ _ := id

end

/-- The position fits its counter and the run its bound (01, R2, R4 to R6, R13). -/
def Part.registersLegal (p : Part) : Prop := p.pos.position ≤ Config.maxPosition ∧ p.hcr.runLegal

theorem movesKeep_bounded : MovesKeep Part.bounded where
  moves m := m.bounded
  link _ _ _ := id
  softBlocks _ _ _ := ⟨rfl, rfl, rfl, Nat.zero_le _⟩
  position _ _ := id

theorem movesKeep_registersLegal : MovesKeep Part.registersLegal where
  moves m := fun ⟨hp, hr⟩ => ⟨m.position hp, by unfold HeadReceiver.runLegal; rw [m.run, m.link]; exact hr⟩
  link _ _ hh := fun ⟨hp, hr⟩ => ⟨hp, hh hr⟩
  softBlocks _ _ := fun ⟨hp, _⟩ => ⟨hp, Nat.zero_le 4, .inr rfl⟩
  position _ x := fun ⟨_, hr⟩ => ⟨Nat.le_of_lt_succ x.isLt, hr⟩

/-! ## Commands at the port (11, R191 to R197) -/

/-- The state with another open message, or none. -/
def State.assembling (s : State) (m : Option OpenMessage) : State :=
  s.onPart fun p => { p with msp := { p.msp with assembler := m } }

theorem State.assembling_none {s : State} (h : s.part.msp.assembler = none) : s.assembling none = s := by
  obtain ⟨_, _, _, _, part⟩ := s
  obtain ⟨_, _, _, _, _, _, _, _, _, _, _, _, _, _, msp, _⟩ := part
  obtain ⟨_, _, _⟩ := msp
  cases h
  rfl

theorem Part.ready_iff (p : Part) : p.ready = true ↔ p.msp.assembler = none ∧ p.msp.replies.length < 8 := by
  simp only [Part.ready, Bool.and_eq_true, decide_eq_true_eq, Option.isNone_iff_eq_none]
  rfl

/-- R holds while an owner works on a command, with no message open; F holds before and after each event at the port. -/
structure PortKeeps (R F : State → Prop) : Prop where
  owners : OwnersKeep R
  kept : ∀ s : State, R s → F s
  opens : ∀ s : State, s.part.ready = true ∨ s.part.msp.assembler.isSome = true → F s → R (s.assembling none)
  replied : ∀ (s : State) r, R s → F (s.onPart fun p => p.reply r)
  gathers : ∀ (s : State) m, R (s.assembling none) → F (s.assembling (some m))
  accept : ∀ (s : State) b, F s → F (s.onPart fun p => { p with osc := { p.osc with accept := b } })
  cellError : ∀ s : State, F s → F s.cellError

section
variable {R F : State → Prop} (h : PortKeeps R F)
include h

theorem PortKeeps.ready {s : State} (hr : s.part.ready = true) (k : F s) : R s :=
  State.assembling_none ((Part.ready_iff _).mp hr).1 ▸ h.opens s (.inl hr) k

theorem PortKeeps.runCommand (k : Cmd) (tag : Byte) (owner : State → Answer) (s : State)
    (ho : k.admitted s.part.take.device = true → R (owner s).state) (r : R s) : F (runCommand k tag owner s) := by
  refine h.replied _ _ ?_
  rcases judge_cases k owner s with hj | ⟨ha, hj⟩ <;> rw [hj]
  · exact r
  · exact ho ha

theorem PortKeeps.abandon (s : State) (k : F s) : F s.abandon := by
  unfold State.abandon
  split
  · exact k
  · rename_i m hm
    exact h.replied _ _ (h.opens s (.inr (by rw [hm]; rfl)) k)

theorem PortKeeps.startRefused (s : State) (k : F s) : F s.startRefused := h.cellError _ (h.abandon s k)

theorem PortKeeps.runMessage (i : Instr) (s : State) (r : R s) : F (runMessage i s) := by
  rcases h.owners.message i s r with e | ⟨k, tag, owner, e, ho⟩ <;> rw [e]
  · exact h.kept s r
  · exact h.runCommand k tag owner s ho r

theorem PortKeeps.completeMessage (kind tag : Byte) (args : List Byte) (s : State) (r : R s) :
    F (completeMessage kind tag args s) := by
  unfold Machine.completeMessage
  split
  · exact h.replied _ _ r
  · split
    · split
      · exact h.runMessage _ s r
      · exact h.replied _ _ r
    · exact h.replied _ _ r

theorem PortKeeps.gather (m : OpenMessage) (bytes : List Byte) (s : State) (r : R (s.assembling none)) :
    F (gather m bytes s) := by
  unfold Machine.gather
  dsimp only
  split
  · exact h.completeMessage _ _ _ _ r
  · exact h.gathers s _ r

theorem PortKeeps.startCell (kind tag length : Byte) (bytes : List Byte) (s : State) (k : F s) :
    F (startCell kind tag length bytes s) := by
  unfold Machine.startCell
  split
  · rename_i hr
    split
    · exact h.replied _ _ (h.ready hr k)
    · exact h.gather _ _ s (h.opens s (.inl hr) k)
  · exact h.startRefused s k

theorem PortKeeps.contCell (bytes : List Byte) (s : State) (k : F s) : F (contCell bytes s) := by
  unfold Machine.contCell
  split
  · rename_i m hm
    exact h.gather m bytes s (h.opens s (.inr (by rw [hm]; rfl)) k)
  · exact h.cellError s k

theorem PortKeeps.downstreamCell (bytes : List Byte) (s : State) (k : F s) : F (downstreamCell bytes s) := by
  unfold Machine.downstreamCell
  split
  · have k' := h.accept s ((bytes.headD 0).getLsbD 7) k
    dsimp only
    split
    · exact h.startCell _ _ _ _ _ k'
    · exact h.contCell _ _ k'
    · exact k'
  · exact h.abandon _ (h.cellError s k)

/-- A command's row: with READY set its owner works and one reply is queued, with READY clear it is met as its START cell. -/
theorem PortKeeps.command (i : Instr) (hi : isCommand i = true) (s t : State) (e : exec i s = .next t) (k : F s) : F t := by
  by_cases hr : s.part.ready = true
  · obtain ⟨c, tag, sized, owner, he, ho⟩ := h.owners.row i hi s (h.ready hr k)
    rw [he] at e
    injection e with e
    rw [← e]
    unfold portSized
    rw [if_pos hr]
    split
    · exact h.runCommand c tag owner s ho (h.ready hr k)
    · exact h.replied _ _ (h.ready hr k)
  · have always : OwnersKeep fun _ => True := by constructor <;> intros <;> trivial
    obtain ⟨c, tag, sized, owner, he, -⟩ := always.row i hi s trivial
    rw [he, portSized_busy c tag sized owner s (Bool.eq_false_iff.mpr hr)] at e
    injection e with e
    rw [← e]
    exact h.startRefused s k

/-- Every step keeps F, if a hard reset, an upstream slot and every event do, and F does not look at the row queue. -/
theorem PortKeeps.step (hq : ∀ (s : State) q, F s → F { s with pending := q }) (hr : ∀ v s, F (hardResetState v s))
    (hu : ∀ s : State, F s → F (s.onPart (Part.upstreamSlot s.setup s.rings s.bank)))
    (he : ∀ i s t, isDeckEvent i = true → exec i s = .next t → F s → F t)
    (s t : State) (e : step s = .next t) (k : F s) : F t := by
  unfold Machine.step at e
  split at e
  · injection e with e
    exact e ▸ k
  · rename_i i rest hp
    clear hp
    have k := hq s rest k
    by_cases hi : isCommand i = true
    · exact h.command i hi _ t e k
    by_cases hd : isDeckEvent i = true
    · exact he i _ t hd e k
    cases i <;> first | exact absurd rfl hi | exact absurd rfl hd | (injection e with e; rw [← e])
    case hardReset v => exact hr v _
    case downstreamCell bytes => exact h.downstreamCell bytes _ k
    case upstreamSlot => exact hu _ k

end

/-- An invariant of the part that looks at nothing of the message port but its notices and at nothing of the scheduler. -/
theorem MovesKeep.port {Q : Part → Prop} (h : MovesKeep Q) (hm : ∀ p m, m.notices = p.msp.notices → Q p → Q { p with msp := m })
    (ho : ∀ p o, Q p → Q { p with osc := o }) : PortKeeps (fun s => Q s.part) fun s => Q s.part where
  owners := h.owners
  kept _ := id
  opens s _ k := hm s.part _ rfl k
  replied s _ k := hm s.part _ rfl k
  gathers s m k := hm s.part { s.part.msp with assembler := some m } rfl (hm (s.assembling none).part s.part.msp rfl k)
  accept s _ k := ho s.part _ k
  cellError _ k := h.moves ((Part.works_occur _ _ _).moves.trans (Part.moves_takeStop _ _)) k

/-- An upstream slot keeps what its message or sample keeps and every move keeps. -/
theorem LinkKeep.upstreamSlot {Q : Part → Prop} (h : LinkKeep Q) (hs : ∀ {p q : Part}, p.Sends q → Q p → Q q) (u : Setup)
    (rings : Rings) (bank : LoadedBank) (p : Part) (k : Q p) : Q (p.upstreamSlot u rings bank) := by
  obtain ⟨q, s, e | ⟨l, b, e⟩⟩ := p.upstreamSlot_sends u rings bank <;> rw [e]
  · exact hs s k
  · exact h.moves ((q.moves_resumeLane u rings bank l b).trans (Part.works_closeTake _).moves) (hs s k)

theorem step_keeps_bounded (s t : State) (e : step s = .next t) (k : s.part.bounded) : t.part.bounded := by
  have port := movesKeep_bounded.port (fun p m hm ⟨hn, hrest⟩ => ⟨show noticesLegal m.notices = true from hm ▸ hn, hrest⟩)
    (fun _ _ => id)
  refine port.step (fun _ _ => id) (fun _ _ => ⟨rfl, rfl, rfl, Nat.zero_le _⟩) (fun s => ?_) (fun i s t hi e => ?_) s t e k
  · exact Part.bounded_upstreamSlot _ _ _ _
  · exact movesKeep_bounded.event i hi s t e

theorem step_keeps_registersLegal (s t : State) (e : step s = .next t) (k : s.part.registersLegal) : t.part.registersLegal := by
  have port := movesKeep_registersLegal.port (fun _ _ _ => id) (fun _ _ => id)
  refine port.step (fun _ _ => id) (fun _ _ => ⟨Nat.zero_le _, Nat.zero_le 4, .inr rfl⟩) (fun s => ?_) (fun i s t hi e => ?_) s t e k
  · refine movesKeep_registersLegal.upstreamSlot (fun sends k => ?_) _ _ _ _
    unfold Part.registersLegal
    rw [sends.pos, sends.hcr]
    exact k
  · exact movesKeep_registersLegal.event i hi s t e

/-! ## The reply queue (11, R191, R196) -/

theorem repliesFit_iff (m : MessagePort) :
    repliesFit m = true ↔ m.replies.length + (if m.assembler.isSome then 1 else 0) ≤ 8 := by
  simp only [repliesFit, decide_eq_true_eq]
  rfl

theorem movesKeep_ready : MovesKeep fun p => p.ready = true where
  moves m k := by
    rw [Part.ready_iff] at k ⊢
    rw [m.assembler, m.replies]
    exact k
  softBlocks _ _ _ := rfl
  position _ _ := id
  link _ _ _ := id

theorem portKeeps_repliesFit : PortKeeps (fun s => s.part.ready = true) (fun s => repliesFit s.part.msp = true) where
  owners := movesKeep_ready.owners
  kept s r := by
    rw [Part.ready_iff] at r
    rw [repliesFit_iff, r.1]
    exact r.2.le
  opens s hs k := by
    rw [repliesFit_iff] at k
    refine (Part.ready_iff _).mpr ⟨rfl, ?_⟩
    show s.part.msp.replies.length < 8
    rcases hs with hs | hs
    · exact ((Part.ready_iff _).mp hs).2
    · rw [if_pos hs] at k
      exact k
  replied s reply r := by
    obtain ⟨ha, hr⟩ := (Part.ready_iff _).mp r
    rw [repliesFit_iff, State.onPart_part, Part.reply_msp]
    simp only [ha, List.length_append, List.length_singleton]
    exact hr
  gathers s m r := (repliesFit_iff _).mpr ((Part.ready_iff _).mp r).2
  accept _ _ := id
  cellError s k := by
    have m : s.part.Moves s.cellError.part := (Part.works_occur _ _ _).moves.trans (Part.moves_takeStop _ _)
    rw [repliesFit_iff] at k ⊢
    rw [m.assembler, m.replies]
    exact k

theorem linkKeep_port (a : Option OpenMessage) (r : List Reply) : LinkKeep fun p => p.msp.assembler = a ∧ p.msp.replies = r where
  moves m := fun ⟨ha, hr⟩ => ⟨m.assembler.trans ha, m.replies.trans hr⟩
  link _ _ _ := id

theorem step_keeps_repliesFit (s t : State) (e : step s = .next t) (k : repliesFit s.part.msp = true) :
    repliesFit t.part.msp = true := by
  refine portKeeps_repliesFit.step (fun _ _ => id) (fun _ _ => rfl) (fun s k => ?_) (fun i s t hi e k => ?_) s t e k
  · obtain ⟨ha, -, hr⟩ := s.part.upstreamSlot_port s.setup s.rings s.bank
    rw [repliesFit_iff] at k ⊢
    rw [State.onPart_part, ha]
    omega
  · obtain ⟨ha, hr⟩ := (linkKeep_port _ _).event i hi s t e ⟨rfl, rfl⟩
    rw [repliesFit_iff] at k ⊢
    rw [ha, hr]
    exact k

/-! ## The stop request (02, R38; 10, R178; log 8) -/

theorem Part.takeStop_stopPending (u : Setup) (p : Part) : (p.takeStop u).stopPending = false := by
  unfold Part.takeStop
  split
  · rfl
  · exact Bool.eq_false_iff.mpr (by assumption)

@[simp] theorem Part.reportAbsent_stopPending (u : Setup) (id : CondId) (p : Part) :
    (p.reportAbsent u id).stopPending = p.stopPending := by
  obtain ⟨c, e, -⟩ := p.reportAbsent_spec u id
  rw [e]

@[simp] theorem Part.enterSettling_stopPending (u : Setup) (p : Part) : (p.enterSettling u).stopPending = p.stopPending := by
  obtain ⟨c, t, e, -⟩ := p.enterSettling_parts u
  rw [e]

@[simp] theorem Part.follow_stopPending (u : Setup) (p : Part) : (p.follow u).stopPending = p.stopPending := by
  obtain ⟨g, e⟩ := p.follow_spec u
  rw [e]

@[simp] theorem Part.closeTake_stopPending (p : Part) : p.closeTake.stopPending = p.stopPending := by
  obtain ⟨k, m, e⟩ := p.closeTake_spec
  rw [e]

@[simp] theorem Part.surveyDone_stopPending (u : Setup) (t : Termination) (p : Part) :
    (p.surveyDone u t).stopPending = p.stopPending := by
  have step (l : Lane) (q : Part) (r : Tracker) (c : NoticeContent) {x : Prop} [Decidable x] :
      (if x then (q.setTracker l r).post c else q).stopPending = q.stopPending := by split <;> rfl
  exact (step .b _ _ _).trans (step .a _ _ _)

@[simp] theorem Part.completeOperation_stopPending (u : Setup) (p : Part) :
    (p.completeOperation u).stopPending = p.stopPending := by
  unfold Part.completeOperation
  split
  · exact Part.closeTake_stopPending _
  · exact Part.surveyDone_stopPending _ _ _
  · rfl
  · rfl

/-- A lock state other than FALLBACK reports LOCK_LOST absent, which stops nothing. -/
theorem Part.changeLock_stopPending (u : Setup) (l : Lane) {new : LockState} (index : Option Nat) (p : Part)
    (h : new ≠ .fallback) : (p.changeLock u l new index).stopPending = p.stopPending := by
  obtain ⟨c, b, m, e, -, -, -, hs⟩ := p.changeLock_spec u l new index
  rw [e]
  exact (hs h).1

theorem Part.trackerTakeStart_stopPending (u : Setup) (l : Lane) (p : Part) :
    (p.trackerTakeStart u l).stopPending = p.stopPending := by
  unfold Part.trackerTakeStart
  dsimp only
  rw [Part.reportAbsent_stopPending]
  split <;> exact Part.changeLock_stopPending _ _ _ _ nofun

theorem Part.takeStart_stopPending (u : Setup) (e : Option Nat) (p : Part) : (p.takeStart u e).stopPending = p.stopPending := by
  have lane (l : Lane) (q : Part) : (q.laneTakeStart u l).stopPending = q.stopPending := rfl
  have aligner (l : Lane) (q : Part) : (q.alignerTakeStart l).stopPending = q.stopPending := rfl
  unfold Part.takeStart Part.takeSetup
  dsimp only
  rw [lane, lane]
  dsimp only
  rw [aligner, aligner, Part.trackerTakeStart_stopPending, Part.trackerTakeStart_stopPending]
  rfl

theorem Part.seekStart_stopPending (u : Setup) (n : Nat) (p : Part) : (p.seekStart u n).stopPending = p.stopPending := by
  unfold Part.seekStart
  dsimp only
  split
  · rfl
  · split
    · rfl
    · split
      · exact Part.completeOperation_stopPending _ _
      · rfl

theorem Part.settled_stopPending (u : Setup) (p : Part) : (p.settled u).stopPending = p.stopPending := by
  unfold Part.settled
  split
  · unfold Part.seekReplan Part.endAtRest
    dsimp only
    split
    · rfl
    · split
      · exact Part.completeOperation_stopPending _ _
      · split
        · rfl
        · exact Part.completeOperation_stopPending _ _
  · split <;> rfl
  · exact Part.completeOperation_stopPending _ _

theorem Part.qualify_stopPending (p : Part) : p.qualify.stopPending = p.stopPending := by
  unfold Part.qualify
  split
  · dsimp only
    split <;> rfl
  · rfl

theorem State.passOn_stopPending (f : PerTrack Int) (s : State) (h : s.part.stopPending = false) :
    (s.passOn f).part.stopPending = false := by
  unfold State.passOn
  split
  · split
    · exact Part.takeStop_stopPending _ _
    · exact Part.takeStop_stopPending _ _
  · exact h

theorem State.passCopies_stopPending (f : PerTrack Int) (k : Nat) (s : State) (h : s.part.stopPending = false) :
    (s.passCopies f k).part.stopPending = false := by
  induction k generalizing s with
  | zero => exact h
  | succ k ih => exact ih _ (s.passOn_stopPending f h)

theorem frameSlot_stopPending (bytes : List Byte) (s : State) (h : s.part.stopPending = false) :
    (frameSlot bytes s).part.stopPending = false := by
  have stop (p : Part) : (p.takeStop s.setup).stopPending = false := Part.takeStop_stopPending _ _
  unfold frameSlot
  dsimp only
  split
  · exact h
  · exact State.passOn_stopPending _ _ (stop _)
  · split
    · exact State.passOn_stopPending _ _ (stop _)
    · exact stop _
  · split
    · exact State.passOn_stopPending _ _ (stop _)
    · split
      · exact State.passOn_stopPending _ _ (Part.takeStop_stopPending _ _)
      · exact stop _

theorem Part.tachComplete_stopPending (l : Lane) (p : Part) : (p.tachComplete l).stopPending = p.stopPending := by
  unfold Part.tachComplete
  dsimp only
  split
  · split <;> rfl
  · rfl

theorem Part.rampIfDue_stopPending (u : Setup) (l : Lane) (p : Part) : (p.rampIfDue u l).stopPending = p.stopPending := by
  unfold Part.rampIfDue
  dsimp only
  split
  · split <;> rfl
  · rfl

theorem Part.azimuthComplete_stopPending (u : Setup) (l : Lane) (p : Part) :
    (p.azimuthComplete u l).stopPending = p.stopPending := by
  unfold Part.azimuthComplete
  dsimp only
  split
  · rfl
  · split
    · split <;> rfl
    · rfl

theorem Part.pulse_stopPending (p : Part) : p.pulse.stopPending = p.stopPending := by
  unfold Part.pulse
  split <;> rfl

theorem Part.insertCassette_stopPending (u : Setup) (p : Part) : (p.insertCassette u).stopPending = p.stopPending := by
  unfold Part.insertCassette
  split
  · rfl
  · exact Part.follow_stopPending _ _

theorem Part.settleExpiry_stopPending (u : Setup) (p : Part) : (p.settleExpiry u).stopPending = p.stopPending := by
  unfold Part.settleExpiry
  split
  · split
    · exact Part.settled_stopPending _ _
    · rfl
  · rfl

theorem Part.stallExpiry_stopPending (u : Setup) (p : Part) (k : p.stopPending = false) :
    (p.stallExpiry u).stopPending = false := by
  unfold Part.stallExpiry
  split
  · split
    · dsimp only
      split
      · rw [Part.enterSettling_stopPending]
        exact k
      · exact Part.takeStop_stopPending _ _
    · exact k
  · exact k

theorem Part.startingExpiry_stopPending (u : Setup) (p : Part) (k : p.stopPending = false) :
    (p.startingExpiry u).stopPending = false := by
  unfold Part.startingExpiry
  split
  · split
    · exact Part.takeStop_stopPending _ _
    · exact k
  · exact k

theorem Part.clipExpire_stopPending (u : Setup) (l : Lane) (p : Part) : (p.clipExpire u l).stopPending = p.stopPending := by
  unfold Part.clipExpire
  dsimp only
  split <;> rfl

/-- No event makes a stop request and leaves it: each either makes none, or takes it itself. -/
theorem event_stopPending (i : Instr) (hi : isDeckEvent i = true) (s t : State) (e : exec i s = .next t)
    (k : s.part.stopPending = false) : t.part.stopPending = false := by
  have stop (p : Part) : (p.takeStop s.setup).stopPending = false := Part.takeStop_stopPending _ _
  cases i <;> first
    | exact absurd hi Bool.false_ne_true
    | (injection e with e; rw [← e]; exact stop _)
    | (injection e with e; rw [← e]; clear e t hi)
  case frameSlot bytes => exact frameSlot_stopPending bytes s k
  case settingsWordSent => exact k
  case tachMeasurementComplete l => exact (Part.tachComplete_stopPending l _).trans k
  case rampMove l => exact (Part.rampIfDue_stopPending _ l _).trans k
  case azimuthWindowComplete l => exact (Part.azimuthComplete_stopPending _ l _).trans k
  case productionStep l =>
    unfold productionStep
    split
    · exact (Part.closeTake_stopPending _).trans (stop _)
    · exact k
  case qualificationComplete => exact (Part.qualify_stopPending _).trans k
  case capstanPulse => exact (Part.pulse_stopPending _).trans k
  case cassetteInsertion => exact (Part.insertCassette_stopPending _ _).trans k
  case settleTimerExpiry => exact (Part.settleExpiry_stopPending _ _).trans k
  case stallTimerExpiry => exact Part.stallExpiry_stopPending _ _ k
  case startingLimit => exact Part.startingExpiry_stopPending _ _ k
  case clipHoldExpiry l => exact (Part.clipExpire_stopPending _ l _).trans k
  case takeEnded => exact (Part.closeTake_stopPending _).trans k
  case bothPhasesChange => exact k

theorem Part.upstreamSlot_stopPending (u : Setup) (rings : Rings) (bank : LoadedBank) (p : Part) (k : p.stopPending = false) :
    (p.upstreamSlot u rings bank).stopPending = false := by
  obtain ⟨q, s, e | ⟨l, b, e⟩⟩ := p.upstreamSlot_sends u rings bank <;> rw [e]
  · exact s.stopPending.trans k
  · rw [Part.closeTake_stopPending]
    unfold Part.resumeLane
    split
    · exact Part.takeStop_stopPending _ _
    · exact s.stopPending.trans k

theorem ownersKeep_stopPending : OwnersKeep fun s => s.part.stopPending = false where
  softReset _ _ := rfl
  takeRates _ _ _ _ := Part.takeStop_stopPending _ _
  setPosition _ _ k := (Part.follow_stopPending _ _).trans k
  seekStart n _ _ k := (Part.seekStart_stopPending _ n _).trans k
  stop _ _ := Part.takeStop_stopPending _ _
  loadSegment _ _ _ _ _ k := (Part.follow_stopPending _ _).trans k
  deleteSegment _ _ k := (Part.follow_stopPending _ _).trans k
  clearSegments _ k := (Part.follow_stopPending _ _).trans k
  takeStart e _ _ k := (Part.takeStart_stopPending _ e _).trans k
  takePolicies _ _ _ _ _ _ := Part.takeStop_stopPending _ _
  enter _ _ _ _ := id
  lockTables _ _ := id
  coeffs _ _ _ := id
  selectBank _ _ _ := id
  setDeck _ _ := id
  windStart _ _ _ := id
  rewindStart _ _ := id
  surveyStart _ _ _ _ _ _ _ _ := id
  readDropouts _ _ := id
  clearConditions _ _ := id
  setNoticeMask _ _ := id
  setMonitor _ _ := id
  setOutput _ _ := id

theorem portKeeps_stopPending : PortKeeps (fun s => s.part.stopPending = false) fun s => s.part.stopPending = false where
  owners := ownersKeep_stopPending
  kept _ := id
  opens _ _ := id
  replied _ _ := id
  gathers _ _ := id
  accept _ _ := id
  cellError _ _ := Part.takeStop_stopPending _ _

theorem step_keeps_stopPending (s t : State) (e : step s = .next t) (k : s.part.stopPending = false) :
    t.part.stopPending = false :=
  portKeeps_stopPending.step (fun _ _ => id) (fun _ _ => rfl) (fun _ => Part.upstreamSlot_stopPending _ _ _ _)
    (fun i s t hi => event_stopPending i hi s t) s t e k

/-! ## The invariants of the queues and of the registers -/

theorem queuesHold_iff (s : State) : queuesHold s = true ↔ s.part.bounded ∧ repliesFit s.part.msp = true := by
  simp only [queuesHold, portLegal, capacitiesHold, Part.bounded, Bool.and_eq_true, decide_eq_true_eq]
  tauto

theorem registersHold_iff (s : State) : registersHold s = true ↔ s.part.registersLegal ∧ s.part.stopPending = false := by
  simp only [registersHold, positionFits, stopTaken, Part.registersLegal, Bool.and_eq_true, decide_eq_true_eq, runFits_iff,
    Bool.not_eq_true']

/-- Settles O59: the buffers change only at a soft reset, a hard reset, LOAD_COEFF_ROW and a frame slot; whatever moves the part
(`Part.Moves`) keeps the capacities, the position and the run; and every event that can make a stop request takes it. -/
theorem stepKeepsBounds : Obligations.StepKeepsBounds := by
  refine ⟨fun s t k e => keeps_buffersCanonical.step (fun _ _ => id) s t k e, fun s t k e => ?_, fun s t k e => ?_⟩
  · rw [queuesHold_iff] at k ⊢
    exact ⟨step_keeps_bounded s t e k.1, step_keeps_repliesFit s t e k.2⟩
  · rw [registersHold_iff] at k ⊢
    exact ⟨step_keeps_registersLegal s t e k.1, step_keeps_stopPending s t e k.2⟩

/-! ## At reset -/

/-- At a hard reset nothing works inside a take. -/
theorem Part.rests_reset (v : Levels) : (Part.reset v).Rests := by
  refine ⟨fun _ l => ?_, fun tr => ?_⟩
  · cases l <;> refine ⟨rfl, nofun, nofun, rfl, rfl, fun tr _ => ?_⟩ <;> cases tr <;> exact ⟨rfl, rfl⟩
  · cases tr <;> exact ⟨fun _ _ => nofun, fun h => absurd rfl h⟩

/-- Settles O57: the transport is at rest with no operation, every buffer and queue is empty, and the default deck, policies and
threshold lie in their ranges. -/
theorem resetLegal : Obligations.ResetLegal := by
  obtain ⟨hrests, hspans⟩ := Part.rests_reset Levels.reset
  exact ⟨Part.playLegal_idle nofun rfl rfl rfl, hrests, hspans, rfl, by decide, rfl, rfl⟩

end Sys2Proof.Machine
end

section
/-! Both resets, SET_POSITION, SURVEY and the settings word: what each answers, whole (O2, O3, O13, O16, O40). -/

namespace Sys2Proof.Machine

open Sys2Proof.Safety

/-! ## A hard reset (09, R155; log 9, log 10) -/

theorem Rings.sample_reset (tr : Track) (n : Int) : Rings.reset.sample tr n = 0 := by
  unfold Rings.sample
  split
  · rfl
  · cases tr <;> rfl

/-- Settles O2: HARD_RESET answers `hardResetState`, and its records are read off one lane, track or condition at a time. -/
theorem hardReset : Obligations.HardReset := by
  constructor
  · intro v s
    refine ⟨hardResetState v s, rfl, rfl, rfl, rfl, rfl, rfl, rfl, rfl, rfl, rfl, rfl, rfl, rfl, rfl, rfl, rfl, rfl,
      ?_, ?_, ?_, Rings.sample_reset, fun _ => rfl, fun _ => rfl, fun _ => rfl⟩ <;> intro l <;> cases l <;> rfl
  · intro v s
    refine ⟨hardResetState v s, rfl, rfl, rfl, rfl, rfl, rfl, rfl, rfl, rfl, rfl, rfl, rfl, rfl,
      ?arrival, ?trackers, ?lanes, ?aligners, ?detectors, ?concealers, rfl, rfl, ?conditions, rfl, rfl, rfl, rfl, rfl, rfl, rfl, rfl⟩
    case arrival => intro l; cases l <;> rfl
    case trackers => intro l; cases l <;> exact ⟨rfl, rfl, rfl, rfl, rfl, rfl⟩
    case lanes => intro l; cases l <;> exact ⟨rfl, rfl, rfl, rfl, rfl, rfl, rfl⟩
    case aligners => intro l; cases l <;> rfl
    case detectors => intro tr; cases tr <;> exact ⟨rfl, rfl, rfl, rfl, rfl⟩
    case concealers => intro tr; cases tr <;> rfl
    case conditions =>
      intro id
      cases id
      case lockLost l => cases l <;> rfl
      case range l => cases l <;> rfl
      case clip l => cases l <;> rfl
      all_goals rfl

/-! ## Commands at the port -/

/-- A command the device state does not admit is answered WRONG_STATE and does nothing else. -/
theorem portCommand_wrongState (k : Cmd) (tag : Byte) (owner : State → Answer) (s : State) (hr : s.part.ready = true)
    (h : k.admitted s.part.take.device = false) : portCommand k tag owner s = withReply s k.code tag .wrongState [] := by
  rw [portCommand_ready k tag owner s hr, judge_refused k owner s h]
  rfl

/-- A command the device state admits is answered by its owner, here without results. -/
theorem portCommand_answered {k : Cmd} (tag : Byte) {owner : State → Answer} {s t : State} {code : ReplyCode}
    (hr : s.part.ready = true) (h : k.admitted s.part.take.device = true) (ho : owner s = ⟨t, code, []⟩) :
    portCommand k tag owner s = withReply t k.code tag code [] := by
  rw [portCommand_ready k tag owner s hr, judge_admitted k owner s h, ho]
  exact congrArg _ (ite_self _)

/-- SET_POSITION is admitted in CONFIGURE alone (09, R156). -/
theorem setPosition_admitted (d : DeviceState) (h : d ≠ .configure) : Cmd.setPosition.admitted d = false := by
  cases d
  · rfl
  · exact absurd rfl h
  · rfl

/-! ## SET_POSITION (01, R15) -/

/-- Settles O13: the port admits SET_POSITION in CONFIGURE alone, and its owner checks the transport before the cassette; outside RUN
the current entry follows the new position. -/
theorem setPosition : Obligations.SetPosition := by
  intro tag x s hr
  have answered {code : ReplyCode} {t : State} (hd : s.part.take.device = .configure) (ho : ownSetPosition x s = ⟨t, code, []⟩) :
      exec (.setPosition tag x) s = .next (withReply t 0x0A tag code []) :=
    congrArg _ (portCommand_answered tag hr (by rw [hd]; rfl) ho)
  refine ⟨fun hd => ?_, fun hd hs => ?_, fun hd hs hc => ?_, fun hd hs hc current hcur => ?_⟩
  · exact congrArg _ (portCommand_wrongState _ _ _ _ hr (setPosition_admitted _ hd))
  · exact answered hd (if_pos hs)
  · exact answered hd ((if_neg (not_not_intro hs)).trans (if_pos hc))
  · refine answered hd ?_
    subst hcur
    have follows : ({ s.part with pos := { s.part.pos with position := x.toNat, referenced := true } } : Part).follow s.setup
        = ({ s.part with pos := { s.part.pos with position := x.toNat, referenced := true } } : Part).refind s.setup := by
      unfold Part.follow
      rw [if_neg (by rw [hd]; nofun)]
    unfold ownSetPosition
    rw [if_neg (not_not_intro hs), if_neg (by rw [hc]; nofun)]
    exact congrArg (fun q => (⟨{ s with part := q }, .ok, []⟩ : Answer)) follows

/-! ## A soft reset (11, R202; log 10) -/

theorem Transport.softReset_moving (now : Nat) (t : Transport) (h : t.state.moving = true) :
    (t.softReset now).state = .settling ∧ (t.softReset now).settleTimer = some now := by
  unfold Transport.softReset
  rw [if_pos h]
  exact ⟨rfl, rfl⟩

theorem Transport.softReset_still (now : Nat) (t : Transport) (h : t.state.moving = false) :
    (t.softReset now).state = t.state ∧ (t.softReset now).settleTimer = t.settleTimer := by
  unfold Transport.softReset
  rw [if_neg (by rw [h]; nofun)]
  exact ⟨rfl, rfl⟩

/-- In every transport state a soft reset discards the operation, keeps the leader level and stops the monitors. -/
theorem Transport.softReset_fields (now : Nat) (t : Transport) :
    (t.softReset now).op = OpRecord.idle ∧ (t.softReset now).leader = t.leader ∧ (t.softReset now).stallTimer = none
      ∧ (t.softReset now).slipWindow = none ∧ (t.softReset now).slipLow = 0 := by
  unfold Transport.softReset
  dsimp only
  split <;> exact ⟨rfl, rfl, rfl, rfl, rfl⟩

theorem governingAt_eq (entries : List Entry) (current : Option Entry) (l : Lane) :
    governingAt entries current l = current.bind fun c =>
      (entries.filter fun e => decide (e.start ≤ c.start) && (e.parts.get l).isSome).getLast? := by
  cases current <;> rfl

theorem Setup.softReset_rates (u : Setup) : u.softReset.rates = u.rates := by
  unfold Setup.softReset
  split <;> rfl

/-- Settles O3: SOFT_RESET is admitted in every device state, its owner sets every block's record at once, and the reply its port
queues is the only one. -/
theorem softReset : Obligations.SoftReset := by
  intro tag s lane hr hlane
  subst hlane
  obtain ⟨hop, hleader, hstall, hslip, hlow⟩ := s.part.trc.softReset_fields s.part.timebase
  have hrates := s.setup.softReset_rates
  refine ⟨withReply (ownSoftReset s).state 0x04 tag .ok [],
    congrArg _ (portCommand_answered (k := .softReset) tag hr (by cases s.part.take.device <;> rfl) rfl),
    rfl, rfl, rfl, rfl, rfl, hop, hleader, fun h => ?stopped, fun h => ?settling, fun h => ?moving, hstall, hslip, hlow, rfl, rfl, rfl,
    rfl, rfl, rfl, rfl, ?current, ?arrival, ?trackers, ?lanes, ?aligners, ?tracks, rfl, ?conditions, rfl, rfl, rfl, rfl, rfl, rfl, rfl⟩
  case stopped => exact (Transport.softReset_still _ _ (by rw [h]; rfl)).1.trans h
  case settling =>
    obtain ⟨hstate, htimer⟩ := s.part.trc.softReset_still s.part.timebase (by rw [h]; rfl)
    exact ⟨hstate.trans h, htimer⟩
  case moving => exact Transport.softReset_moving _ _ h
  case current => rfl
  case arrival =>
    intro l
    rw [← governingAt_eq]
    cases l <;> rfl
  case trackers => 
    rw [← hrates]
    intro l; cases l <;> rfl
  case lanes => rw [← hrates]; intro l; cases l <;> rfl
  case aligners => intro l; cases l <;> rfl
  case tracks => intro tr; cases tr <;> exact ⟨rfl, rfl⟩
  case conditions =>
    intro id
    cases id
    case lockLost l => cases l <;> rfl
    case range l => cases l <;> rfl
    case clip l => cases l <;> rfl
    all_goals rfl

/-! ## Settings words and tach measurements (01, R8; 04, R67, R69) -/

theorem HeadReceiver.wordSent_some {h : HeadReceiver} {w : EqPair} (hw : h.wordSending = some w) :
    h.wordSent = { h with wordLast := some w, wordSending := h.wordWaiting, wordWaiting := none } := by
  unfold HeadReceiver.wordSent
  rw [hw]

theorem HeadReceiver.wordSent_none {h : HeadReceiver} (hw : h.wordSending = none) : h.wordSent = h := by
  unfold HeadReceiver.wordSent
  rw [hw]

/-- The sixteenth tick completes the open tach measurement and opens the next. -/
theorem Part.tachComplete_full (p : Part) {l : Lane} {o : TachOpen} (ho : (p.rft.get l).tachOpen = some o) (hc : 16 ≤ o.counted) :
    p.tachComplete l = p.setTracker l { p.rft.get l with
      tachLast := some ⟨o.lastStamp - o.t0, o.lastStamp / 256⟩, tachOpen := some ⟨o.lastStamp, 0, o.lastStamp⟩ } := by
  unfold Part.tachComplete
  simp only [ho]
  exact if_pos hc

/-- Fewer ticks complete nothing. -/
theorem Part.tachComplete_counting (p : Part) {l : Lane} {o : TachOpen} (ho : (p.rft.get l).tachOpen = some o) (hc : o.counted < 16) :
    p.tachComplete l = p := by
  unfold Part.tachComplete
  simp only [ho]
  exact if_neg hc.not_ge

/-- Settles O40: the word being sent moves on, a settings word is one byte of two bits and its check byte, and the sixteenth tick
closes a tach measurement. -/
theorem wordSentAndTachMeasurement : Obligations.WordSentAndTachMeasurement := by
  refine ⟨fun s => ⟨fun w hw => ?_, fun hw => ?_⟩, fun ⟨a, b⟩ => ?_, fun l s o ho hc => ?_⟩
  · exact congrArg (fun h => Host.Outcome.next { s with part := { s.part with hcr := h } }) (HeadReceiver.wordSent_some hw)
  · exact congrArg (fun h => Host.Outcome.next { s with part := { s.part with hcr := h } }) (HeadReceiver.wordSent_none hw)
  · refine ⟨BitVec.ofNat 8 (a.code.toNat + 2 * b.code.toNat), ?_, ?_, ?_, ?_⟩
    · cases a <;> cases b <;> rfl
    · cases a <;> cases b <;> decide
    · cases a <;> cases b <;> decide
    · intro i hi
      have hsmall : a.code.toNat + 2 * b.code.toNat < 2 ^ i :=
        calc a.code.toNat + 2 * b.code.toNat < 2 ^ 2 := by cases a <;> cases b <;> decide
          _ ≤ 2 ^ i := Nat.pow_le_pow_right two_pos hi
      rw [BitVec.getLsbD_ofNat, Nat.testBit_lt_two_pow hsmall, Bool.and_false]
  · exact congrArg (fun q => Host.Outcome.next { s with part := q }) (s.part.tachComplete_full ho hc)

/-! ## SURVEY (04, R80, R81; log 22, log 31) -/

theorem laneOfCode_eq_none {b : Byte} (h : 2 ≤ b.toNat) : laneOfCode b = none := by
  unfold laneOfCode
  split
  · omega
  · omega
  · rfl

theorem Source.ofCode_not_measured {b : Byte} (h : 4 ≤ b.toNat) {src : Source} (hs : Source.ofCode b = some src) :
    src.isMeasured = false := by
  unfold Source.ofCode at hs
  split at hs <;> first | omega | (cases hs <;> rfl)

/-- An argument outside its list, or a source that is not measured, is refused first. -/
theorem ownSurvey_badValue (a : SurveyArgs) (s : State) (h : 2 ≤ a.lane.toNat ∨ 4 ≤ a.source.toNat) :
    ownSurvey a s = s.refuse .badValue := by
  unfold ownSurvey
  split
  · rename_i l src hl hsrc
    rcases h with h | h
    · rw [laneOfCode_eq_none h] at hl
      cases hl
    · rw [if_neg (Bool.eq_false_iff.mp (Source.ofCode_not_measured h hsrc))]
  · rfl

/-- A survey of a measured source: step 3's conflict, then what blocks it, then its start. -/
theorem ownSurvey_measured (a : SurveyArgs) (s : State) {l : Lane} {src : Source} (hl : laneOfCode a.lane = some l)
    (hsrc : Source.ofCode a.source = some src) (hm : src.isMeasured = true) :
    ownSurvey a s = match (sentSurvey src a).checked s.setup.rates.fr src with
      | none => s.refuse .conflict
      | some plan => match surveyBlocked s.setup s.part with
        | some code => s.refuse code
        | none => (s.onPart (Part.surveyStart s.setup l src plan.fRef plan.c plan.w plan.span)).done
            (if plan = sentSurvey src a then .accepted else .adjusted) := by
  unfold ownSurvey
  rw [hl, hsrc]
  exact (if_pos hm).trans rfl

theorem checkedSurvey_conflict (a : SurveyArgs) (fr : Nat) {src : Source} (ha : src.isAudio = true)
    (h : fr * 72 ≤ clampFRef src a.fRef.toNat * 10) : (sentSurvey src a).checked fr src = none := by
  unfold SurveyPlan.checked sentSurvey fRefConflict
  simp [ha, h]

/-- The clamped plan of a survey that passes step 3. -/
theorem checkedSurvey_plan (a : SurveyArgs) (fr f c w span : Nat) {src : Source}
    (hf : f = if src.isAudio then clampFRef src a.fRef.toNat else 0)
    (hc : c = if src.isAudio then clampNat (ceilDiv f fr) (f / 4) (clampNat 1 4096 a.c.toNat) else 16)
    (hw : w = clampNat 5 80 a.w.toNat) (hspan : span = max 1 a.span.toNat) (h : src.isAudio = true → f * 10 < fr * 72) :
    (sentSurvey src a).checked fr src = some ⟨f, c, w, span⟩ := by
  have conflict : ¬fRefConflict fr src (clampFRef src (sentSurvey src a).fRef) = true := by
    unfold fRefConflict sentSurvey
    intro hcon
    simp only [Bool.and_eq_true, decide_eq_true_eq] at hcon
    obtain ⟨ha, hcon⟩ := hcon
    have hlow := h ha
    rw [hf] at hlow
    simp only [ha, if_true] at hcon hlow
    omega
  unfold SurveyPlan.checked
  dsimp only
  rw [if_neg conflict]
  subst hf hc hw hspan
  cases src <;> rfl

theorem Part.drained_iff (p : Part) : p.drained = true ↔
    p.lanes.a.state = .idle ∧ p.lanes.b.state = .idle ∧ p.lanes.a.fifo = [] ∧ p.lanes.b.fifo = [] := by
  simp [Part.drained, Part.producing, Producer.producing, and_assoc]

theorem surveyBlocked_busy (u : Setup) (p : Part)
    (h : ¬(p.trc.state = .stopped ∧ p.trc.op.kind = .none ∧ p.lanes.a.state = .idle ∧ p.lanes.b.state = .idle
      ∧ p.lanes.a.fifo = [] ∧ p.lanes.b.fifo = [])) : surveyBlocked u p = some .busy := by
  unfold surveyBlocked
  refine if_pos ?_
  by_contra hnot
  obtain ⟨hrest, hdrained⟩ := not_or.mp hnot
  obtain ⟨hs, hk⟩ := p.atRest_iff.mp (Bool.not_eq_false _ ▸ hrest)
  exact h ⟨hs, hk, p.drained_iff.mp (Bool.not_eq_false _ ▸ hdrained)⟩

theorem surveyBlocked_still (u : Setup) (p : Part) (hs : p.trc.state = .stopped) (hk : p.trc.op.kind = .none)
    (ha : p.lanes.a.state = .idle) (hb : p.lanes.b.state = .idle) (hfa : p.lanes.a.fifo = []) (hfb : p.lanes.b.fifo = []) :
    surveyBlocked u p = if p.pos.cassette = false then some .conflict else if faultActive u p then some .faultActive else none := by
  unfold surveyBlocked
  rw [p.atRest_iff.mpr ⟨hs, hk⟩, p.drained_iff.mpr ⟨ha, hb, hfa, hfb⟩]
  exact if_neg nofun

/-- The plan equals the arguments as sent exactly when no argument was changed. -/
theorem surveyPlan_eq_sent (a : SurveyArgs) (f c w span : Nat) (src : Source) (hf : src.isAudio = false → f = 0)
    (hc : src.isAudio = false → c = 16) :
    (⟨f, c, w, span⟩ : SurveyPlan) = sentSurvey src a
      ↔ (src.isAudio = true → f = a.fRef.toNat ∧ c = a.c.toNat) ∧ w = a.w.toNat ∧ span = a.span.toNat := by
  unfold sentSurvey
  simp only [SurveyPlan.mk.injEq]
  cases ha : src.isAudio
  · simp [hf ha, hc ha]
  · simp [and_assoc]

/-- The record of the surveying tracker. -/
theorem Part.surveyStart_tracker (u : Setup) (l : Lane) (src : Source) (f c w span : Nat) (p : Part) :
    (p.surveyStart u l src f c w span).rft.get l =
      { (p.rft.get l).cleared u .survey { p.effective l with source := src, fRef := f, c := c, w := w } with
        survey := SurveyAcc.empty } := PerLane.get_set_same _ _ _

/-- Settles O16: the owner's checks come in R80's order, and an accepted survey is `Part.surveyStart` on the clamped plan. -/
theorem survey : Obligations.Survey := by
  intro tag a s hr hd
  have answered {code : ReplyCode} {t : State} (ho : ownSurvey a s = ⟨t, code, []⟩) :
      exec (.survey tag a) s = .next (withReply t 0x0F tag code []) :=
    congrArg _ (portCommand_answered tag hr (by rw [hd]; rfl) ho)
  refine ⟨fun h => answered (ownSurvey_badValue a s h), fun l src hl hsrc hm => ⟨fun ⟨ha, hf⟩ => answered ?_, ?_⟩⟩
  · rw [ownSurvey_measured a s hl hsrc hm, checkedSurvey_conflict a _ ha hf]
    rfl
  intro f c w span hf hc hw hspan hlow
  have owner : ownSurvey a s = match surveyBlocked s.setup s.part with
      | some code => s.refuse code
      | none => (s.onPart (Part.surveyStart s.setup l src f c w span)).done
          (if (⟨f, c, w, span⟩ : SurveyPlan) = sentSurvey src a then .accepted else .adjusted) := by
    rw [ownSurvey_measured a s hl hsrc hm, checkedSurvey_plan a _ f c w span hf hc hw hspan hlow]
  refine ⟨fun h => answered ?_, fun hs hk hla hlb hfa hfb => ?_⟩
  · rw [owner, surveyBlocked_busy _ _ h]
    rfl
  have still := surveyBlocked_still s.setup s.part hs hk hla hlb hfa hfb
  refine ⟨fun hcas => answered ?_, fun hcas hfault => answered ?_, fun hcas hfault => ?_⟩
  · rw [owner, still, if_pos hcas]
    rfl
  · rw [owner, still, if_neg (by rw [hcas]; nofun), if_pos hfault]
    rfl
  · rw [still, if_neg (by rw [hcas]; nofun), if_neg (by rw [hfault]; nofun)] at owner
    refine ⟨_, answered owner, rfl, rfl, rfl, rfl, rfl, rfl, rfl, rfl, rfl, rfl, rfl, rfl, rfl, ?_⟩
    have tracker (code : ReplyCode) :
        (withReply (s.onPart (Part.surveyStart s.setup l src f c w span)) 0x0F tag code []).part.rft.get l = _ :=
      s.part.surveyStart_tracker s.setup l src f c w span
    rw [tracker]
    refine ⟨rfl, rfl, rfl, rfl, rfl, rfl, rfl, rfl, rfl, rfl, rfl, rfl, rfl, PerLane.get_set_other _ _ (Lane.other_ne l), ?reply⟩
    case reply =>
      have sent := surveyPlan_eq_sent a f c w span src (fun ha => by rw [hf, ha]; rfl) (fun ha => by rw [hc, ha]; rfl)
      simp only [← sent]
      rfl

end Sys2Proof.Machine
end

section
/-! Frame slots, said once: where a frame is written, what a frame taken leaves of the link, and what the endings a frame can bring
leave of it. -/

namespace Sys2Proof.Machine

open Sys2Proof.Safety

/-! ## The rings (01, R10, R11) -/

theorem Rings.write_get (r : Rings) (n : Nat) (f : PerTrack Int) (tr : Track) :
    (r.write n f).samples.get tr = (r.samples.get tr).write (n % 65536) (f.get tr) := by cases tr <;> rfl

theorem Rings.sample_nat (r : Rings) (tr : Track) (n : Nat) : r.sample tr (n : Int) = (r.samples.get tr).read (n % 65536) := by
  unfold Rings.sample
  rw [if_neg (by omega)]
  rfl

theorem Rings.sample_write_same {r : Rings} (n : Nat) (f : PerTrack Int) (tr : Track) (h : (r.samples.get tr).wf = true) :
    (r.write n f).sample tr n = f.get tr := by
  rw [Rings.sample_nat, Rings.write_get, Memory.read_write_same h]

theorem Rings.sample_write_other (r : Rings) {n k : Nat} (f : PerTrack Int) (tr : Track) (h : k % 65536 ≠ n % 65536) :
    (r.write n f).sample tr k = r.sample tr k := by
  rw [Rings.sample_nat, Rings.sample_nat, Rings.write_get, Memory.read_write_other _ _ h]

theorem Rings.sample_negative (r : Rings) (tr : Track) {k : Int} (h : k < 0) : r.sample tr k = 0 := if_pos h

/-! ## The rings after a frame -/

theorem State.ringsAfter_same (s : State) (f : PerTrack Int) (tr : Track) (h : buffersCanonical s = true) :
    (s.ringsAfter f).sample tr s.part.hcr.nextIndex = f.get tr := by
  refine Rings.sample_write_same _ f tr ?_
  split <;> exact ((buffersCanonical_iff s).mp h).1 tr

theorem State.ringsAfter_other (s : State) (f : PerTrack Int) (tr : Track) {k : Nat}
    (h : k % 65536 ≠ s.part.hcr.nextIndex % 65536) : (s.ringsAfter f).sample tr k = s.rings.sample tr k := by
  refine (Rings.sample_write_other _ f tr h).trans ?_
  split <;> rfl

theorem State.ringsAfter_stamps_eq (s : State) (f : PerTrack Int) :
    (s.ringsAfter f).stamps = if s.part.hcr.nextIndex % 64 = 0 then
      s.rings.stamps.write (s.part.hcr.nextIndex / 64 % 1024) s.part.pos.position else s.rings.stamps :=
  apply_ite Rings.stamps _ _ _

theorem Rings.stamp_eq (r : Rings) (b : Nat) : r.stamp b = (r.stamps.read (b % 1024)).toNat := rfl

/-- The frame that begins a block stamps it with the tape position. -/
theorem State.ringsAfter_stamped (s : State) (f : PerTrack Int) (h : buffersCanonical s = true)
    (hn : s.part.hcr.nextIndex % 64 = 0) : (s.ringsAfter f).stamp (s.part.hcr.nextIndex / 64) = s.part.pos.position := by
  rw [Rings.stamp_eq, s.ringsAfter_stamps_eq f, if_pos hn, Memory.read_write_same ((buffersCanonical_iff s).mp h).2.1]
  exact Int.toNat_natCast _

/-- No other stamp changes. -/
theorem State.ringsAfter_stamps (s : State) (f : PerTrack Int) (b : Nat)
    (h : s.part.hcr.nextIndex % 64 = 0 → b % 1024 ≠ s.part.hcr.nextIndex / 64 % 1024) :
    (s.ringsAfter f).stamp b = s.rings.stamp b := by
  rw [Rings.stamp_eq, Rings.stamp_eq, s.ringsAfter_stamps_eq f]
  split
  · rename_i hn
    rw [Memory.read_write_other _ _ (h hn)]
  · rfl

/-! ## What an ending leaves of the link -/

/-- The conditions the head converter link raises itself (01, R6, R7, R12). -/
def CondId.ofLink : CondId → Bool
  | .rawHeld | .rawLost | .overrun => true
  | .cellError | .stall | .slip | .logFull | .lockLost _ | .range _ | .clip _ => false

/-- The link's own conditions stand as they were. -/
def Part.SparesLink (p q : Part) : Prop := ∀ id : CondId, id.ofLink = true → q.cmn.get id = p.cmn.get id

theorem Part.SparesLink.refl (p : Part) : p.SparesLink p := fun _ _ => rfl

theorem Part.SparesLink.trans {p q r : Part} (h : p.SparesLink q) (k : q.SparesLink r) : p.SparesLink r :=
  fun id hid => (k id hid).trans (h id hid)

theorem CondId.ofLink_ne {id jd : CondId} (h : id.ofLink = true) (hj : jd.ofLink = false) : id ≠ jd := by
  rintro rfl
  rw [h] at hj
  cases hj

theorem Part.sparesLink_takeTeardown (u : Setup) (e : Option Nat) (p : Part) : p.SparesLink (p.takeTeardown u e) := by
  have tracker (l : Lane) (q : Part) : q.SparesLink (q.trackerTakeEnd u e l) := by
    obtain ⟨c, m, eq, -, -, -, ho⟩ := q.trackerTakeEnd_exact u e l
    rw [eq]
    exact fun id h => ho id (CondId.ofLink_ne h rfl) (CondId.ofLink_ne h rfl)
  have detectors (q : Part) : q.SparesLink (q.detectorsTakeEnd e) := by
    obtain ⟨d, c, eq, -⟩ := q.detectorsTakeEnd_spec e
    rw [eq]
    exact .refl q
  have lane (l : Lane) (q : Part) : q.SparesLink (q.laneTakeEnd u l) := by
    obtain ⟨g, c, k, m, con, x, eq, -, -, -, ho⟩ := q.laneTakeEnd_lane u l _ Iff.rfl
    rw [eq]
    exact fun id h => ho id (CondId.ofLink_ne h rfl)
  have aligner (l : Lane) (q : Part) : q.SparesLink (q.alignerTakeEnd l) := .refl q
  have refind (q : Part) : q.SparesLink (q.refind u) := .refl q
  exact (((tracker .a p).trans (tracker .b _)).trans (((aligner .a _).trans (aligner .b _)).trans (detectors _))).trans
    ((refind _).trans ((lane .a _).trans (lane .b _)))

theorem Part.takeEnd_link (u : Setup) (c : TakeCause) (p : Part) :
    p.SparesLink (p.takeEnd u c) ∧ (p.takeEnd u c).hcr = { p.hcr with capturing := false } := by
  obtain ⟨x, hx⟩ : ∃ x : Part, x = { p with
    take := { p.take with
      device := .configure,
      record := p.take.record.map fun (r : TakeRecord) => { r with cause := some c, endIndex := p.lastWritten } },
    hcr := { p.hcr with capturing := false } } := ⟨_, rfl⟩
  have whole : p.takeEnd u c = x.takeTeardown u p.lastWritten := by rw [hx]; rfl
  have cmn : x.cmn = p.cmn := by rw [hx]
  have hcr : x.hcr = { p.hcr with capturing := false } := by rw [hx]
  rw [whole]
  exact ⟨fun id h => (x.sparesLink_takeTeardown u _ id h).trans (by rw [cmn]), (x.takeTeardown_apart u _).2.trans hcr⟩

theorem Part.surveyEnd_link (p : Part) :
    p.SparesLink p.surveyEnd ∧ p.surveyEnd.hcr = { p.hcr with capturing := false } := by
  obtain ⟨r, e, -⟩ := Part.surveyStop_spec { p with hcr := { p.hcr with capturing := false } }
  unfold Part.surveyEnd
  rw [e]
  exact ⟨.refl p, rfl⟩

/-- The event that ends an operation leaves the link's conditions and, but for its end of capture, the link. -/
theorem Part.endOperation_link (u : Setup) (e : Ending) (p : Part) : p.SparesLink (p.endOperation u e)
    ∧ ((p.endOperation u e).hcr = p.hcr ∨ (p.endOperation u e).hcr = { p.hcr with capturing := false }) := by
  unfold Part.endOperation
  split
  · exact ⟨.refl p, .inl rfl⟩
  obtain ⟨op, hop⟩ : ∃ op : OpRecord, op = { p.trc.op with phase := none, ending := some e } := ⟨_, rfl⟩
  obtain ⟨c, t, eq, -, -, -, -, -, ho, -⟩ := (p.setOp op).enterSettling_parts u
  obtain ⟨q, hq⟩ : ∃ q : Part, q = (p.setOp op).enterSettling u := ⟨_, rfl⟩
  have settles : p.SparesLink q := fun id h => by rw [hq, eq]; exact ho id (CondId.ofLink_ne h rfl)
  have hcr : q.hcr = p.hcr := by rw [hq, eq]; rfl
  dsimp only
  rw [← hop, ← hq]
  split
  · obtain ⟨hc, hh⟩ := q.takeEnd_link u ‹_›
    exact ⟨settles.trans hc, .inr (by rw [hh, hcr])⟩
  · obtain ⟨hc, hh⟩ := q.surveyEnd_link
    exact ⟨settles.trans hc, .inr (by rw [hh, hcr])⟩
  · exact ⟨settles, .inl hcr⟩

/-- The stop request taken leaves the link's conditions and, but for an end of capture, the link. -/
theorem Part.takeStop_link (u : Setup) (p : Part) : p.SparesLink (p.takeStop u)
    ∧ ((p.takeStop u).hcr = p.hcr ∨ (p.takeStop u).hcr = { p.hcr with capturing := false }) := by
  unfold Part.takeStop Part.stopRequest
  split
  · split
    · exact Part.endOperation_link u _ { p with stopPending := false }
    · exact ⟨.refl p, .inl rfl⟩
  · exact ⟨.refl p, .inl rfl⟩

theorem Part.takeStop_nextIndex (u : Setup) (p : Part) : (p.takeStop u).hcr.nextIndex = p.hcr.nextIndex := by
  rcases (p.takeStop_link u).2 with h | h <;> rw [h]

theorem Part.takeStop_idle (u : Setup) (p : Part) (h : p.hcr.capturing = false) : (p.takeStop u).hcr.capturing = false := by
  rcases (p.takeStop_link u).2 with e | e <;> rw [e]
  exact h

/-! ## What the arrival side leaves -/

theorem Producer.apply_acc (r : RatePair) (x : Producer) (e : TimelineEntry) : (x.apply r e).acc = x.acc := by
  unfold Producer.apply
  split <;> rfl

theorem Producer.applyAll_acc (r : RatePair) (es : List TimelineEntry) (x : Producer) :
    (es.foldl (Producer.apply r) x).acc = x.acc := by
  induction es generalizing x with
  | nil => rfl
  | cons e es ih => exact (ih _).trans (x.apply_acc r e)

theorem Producer.post_acc (r : RatePair) (x : Producer) (e : TimelineEntry) : (x.post r e).acc = x.acc := by
  have overflow : (x.overflow r).acc = x.acc := by
    unfold Producer.overflow
    split
    · rfl
    · split
      · exact Producer.apply_acc _ _ _
      · rfl
  unfold Producer.post
  split
  · exact Producer.applyAll_acc _ _ _
  · exact overflow

theorem Producer.posts_acc (r : RatePair) (es : List TimelineEntry) (x : Producer) :
    (es.foldl (Producer.post r) x).acc = x.acc := by
  induction es generalizing x with
  | nil => rfl
  | cons e es ih => exact (ih _).trans (x.post_acc r e)

/-- What a frame's work on the arrival side leaves of the link's conditions and of the lanes' place in the rings. -/
structure Part.Reads (p q : Part) : Prop where
  conds : p.SparesLink q
  lanes : ∀ l, (q.lanes.get l).state = (p.lanes.get l).state ∧ (q.lanes.get l).acc = (p.lanes.get l).acc

theorem Part.Reads.refl (p : Part) : p.Reads p := ⟨.refl p, fun _ => ⟨rfl, rfl⟩⟩

theorem Part.Reads.trans {p q r : Part} (h : p.Reads q) (k : q.Reads r) : p.Reads r :=
  ⟨h.conds.trans k.conds, fun l => ⟨(k.lanes l).1.trans (h.lanes l).1, (k.lanes l).2.trans (h.lanes l).2⟩⟩

theorem Part.Reads.ite {p q r : Part} {c : Prop} [Decidable c] (h : p.Reads q) (k : p.Reads r) : p.Reads (if c then q else r) := by
  split <;> assumption

theorem Part.Reads.of_eq {p q : Part} (hc : q.cmn = p.cmn) (hl : q.lanes = p.lanes) : p.Reads q :=
  ⟨fun id _ => by rw [hc], fun l => by rw [hl]; exact ⟨rfl, rfl⟩⟩

theorem Part.reads_setTracker (l : Lane) (t : Tracker) (p : Part) : p.Reads (p.setTracker l t) := .of_eq rfl rfl

theorem Part.reads_setAligner (l : Lane) (x : Aligner) (p : Part) : p.Reads (p.setAligner l x) := .of_eq rfl rfl

theorem Part.reads_post (c : NoticeContent) (p : Part) : p.Reads (p.post c) := .of_eq rfl rfl

theorem Part.reads_postEntry (u : Setup) (l : Lane) (e : TimelineEntry) (p : Part) : p.Reads (p.postEntry u l e) := by
  refine ⟨.refl p, fun m => ?_⟩
  unfold Part.postEntry
  rw [Part.setProducer_lanes]
  by_cases h : m = l
  · subst h
    rw [PerLane.get_set_same]
    exact ⟨Producer.post_state _ _ _, Producer.post_acc _ _ _⟩
  · rw [PerLane.get_set_other _ _ h]
    exact ⟨rfl, rfl⟩

theorem Part.Tracks.reads {u : Setup} {l : Lane} {p q : Part} (h : p.Tracks u l q) : p.Reads q := by
  refine ⟨fun id hid => h.cmn id (CondId.ofLink_ne hid rfl) (CondId.ofLink_ne hid rfl), fun m => ?_⟩
  by_cases hm : m = l
  · subst hm
    obtain ⟨es, -, e⟩ := h.steps
    rw [e]
    exact ⟨Producer.posts_state _ _ _, Producer.posts_acc _ _ _⟩
  · rw [Lane.eq_other hm, h.lane]
    exact ⟨rfl, rfl⟩

theorem Part.reads_laneTransition (u : Setup) (index : Nat) (l : Lane) (p : Part) : p.Reads (p.laneTransition u index l) := by
  obtain ⟨d, c, e, -⟩ := p.laneTransition_spec u index l
  rw [e]
  have turned : p.Reads (p.turned u index l) :=
    ((p.reads_postEntry u l _).trans (Part.reads_setTracker l _ _)).trans (p.tracks_turned u index l).reads
  exact turned.trans (.of_eq rfl rfl)

theorem Part.reads_blockBegin (u : Setup) (index stamp : Nat) (p : Part) : p.Reads (p.blockBegin u index stamp) := by
  have word (q : Part) : q.Reads q.transitionWord := by
    obtain ⟨h, e⟩ := q.transitionWord_spec
    rw [e]
    exact .of_eq rfl rfl
  have posted (q : Part) (c : NoticeContent) : q.Reads (q.post c).transitionWord :=
    (Part.reads_post c q).trans (word _)
  unfold Part.blockBegin
  dsimp only
  split
  · refine Part.Reads.trans (q := p.underEntry u (judgeStamp u.entries p.sgt.current stamp)) (.of_eq rfl rfl) ?_
    split
    · have turn (b : Prop) [Decidable b] (l : Lane) (q : Part) : q.Reads (if b then q.laneTransition u index l else q) :=
        .ite (q.reads_laneTransition u index l) (.refl q)
      exact ((turn _ .a _).trans (turn _ .b _)).trans (posted _ _)
    · exact .refl _
  · exact .refl p

theorem Part.reads_azimuthFrame (u : Setup) (rings : Rings) (n : Nat) (l : Lane) (p : Part) :
    p.Reads (p.azimuthFrame u rings n l) := by
  have complete (q : Part) : q.Reads (q.azimuthComplete u l) := by
    unfold Part.azimuthComplete
    dsimp only
    split
    · exact .refl q
    · split
      · split
        · exact .of_eq rfl rfl
        · exact (Part.reads_setAligner l _ q).trans (Part.reads_postEntry u l _ _)
      · exact .refl q
  unfold Part.azimuthFrame
  exact .ite ((Part.reads_setAligner l _ p).trans (complete _)) (.refl p)

theorem Part.reads_arrived (u : Setup) (rings : Rings) (n : Nat) (f : PerTrack Int) (p : Part) : p.Reads (p.arrived u rings n f) := by
  have block (q : Part) : q.Reads (q.blockComplete rings (n / Config.blockSize)) := by
    obtain ⟨d, c, e⟩ := q.blockComplete_spec rings (n / Config.blockSize)
    rw [e]
    exact .of_eq rfl rfl
  have trackers := (p.tracks_trackerFrame u n f .a).reads.trans (Part.tracks_trackerFrame u n f .b _).reads
  have aligners (q : Part) := (q.reads_azimuthFrame u rings n .a).trans (Part.reads_azimuthFrame u rings n .b _)
  exact (trackers.trans (aligners _)).trans (.ite (block _) (.refl _))

/-! ## A frame passed on -/

theorem Part.reads_counted (u : Setup) (p : Part) : p.Reads (p.counted u) :=
  (Part.Reads.ite (p.reads_blockBegin u _ _) (.refl p)).trans (.of_eq rfl rfl)

theorem State.writeFrame_nextIndex (f : PerTrack Int) (s : State) :
    (s.writeFrame f).part.hcr.nextIndex = s.part.hcr.nextIndex + 1 :=
  (Part.takeStop_nextIndex _ _).trans (Part.works_arrived _ _ _ _ _).nextIndex

theorem State.writeFrame_conds (f : PerTrack Int) (s : State) : s.part.SparesLink (s.writeFrame f).part :=
  ((s.part.reads_counted s.setup).trans (Part.reads_arrived _ _ _ _ _)).conds.trans (Part.takeStop_link _ _).1

/-- Outside capture a frame reaches no one (01, R9). -/
theorem State.passOn_idle (f : PerTrack Int) {s : State} (h : s.part.hcr.capturing = false) : s.passOn f = s := by
  unfold State.passOn
  rw [h]
  rfl

/-- During capture a frame with room is written (01, R10, R12). -/
theorem State.passOn_written (f : PerTrack Int) {s : State} (hc : s.part.hcr.capturing = true) (hr : ringHasRoom s.part) :
    s.passOn f = s.writeFrame f := by
  unfold State.passOn
  rw [hc, ringHasRoom_overruns hr]
  rfl

/-- A frame passed on leaves the link as it is but for the raw index, and the link's conditions but for OVERRUN. -/
theorem State.passOn_rawHeld (f : PerTrack Int) (s : State) : (s.passOn f).part.cmn.rawHeld = s.part.cmn.rawHeld := by
  unfold State.passOn
  split
  · split
    · obtain ⟨c, b, m, e, -, -, -, ho, -⟩ := Part.raise_spec s.setup .overrun s.part.stopCapture
      refine ((Part.takeStop_link s.setup _).1 .rawHeld rfl).trans ?_
      show (Part.raise s.setup .overrun s.part.stopCapture).cmn.rawHeld = _
      rw [e]
      exact ho .rawHeld nofun
    · exact s.writeFrame_conds f .rawHeld rfl
  · rfl

/-! ## A good frame taken (01, R2, R3) -/

theorem State.taking_stopPending (s : State) (seq : Byte) (f : PerTrack Int) :
    (s.taking seq f).part.stopPending = s.part.stopPending := Part.reportAbsent_stopPending _ _ _

theorem State.takeFrame_eq (seq : Byte) (f : PerTrack Int) (s : State) (h : s.part.stopPending = false) :
    s.takeFrame seq f = (s.taking seq f).passOn f := by
  have none := Part.takeStop_none s.setup ((s.taking_stopPending seq f).trans h)
  exact congrArg (fun q => ({ s with part := q } : State).passOn f) none

/-- What a good frame taken makes of the state: the link follows its number with the run ended and RAW_HELD absent; outside capture
nothing else changes of the rings, and during capture, with room, the frame is written. -/
theorem State.takeFrame_spec (seq : Byte) (f : PerTrack Int) (s : State) (h : s.part.stopPending = false) :
    ((s.takeFrame seq f).setup = s.setup ∧ (s.takeFrame seq f).bank = s.bank)
      ∧ ((s.takeFrame seq f).part.hcr.link = .following ∧ (s.takeFrame seq f).part.hcr.expected = seq + 1
        ∧ (s.takeFrame seq f).part.hcr.lastGood = f ∧ (s.takeFrame seq f).part.hcr.run = 0)
      ∧ (s.takeFrame seq f).part.cmn.rawHeld.present = false
      ∧ (s.part.hcr.capturing = false →
          (s.takeFrame seq f).rings = s.rings ∧ (s.takeFrame seq f).part.hcr.nextIndex = s.part.hcr.nextIndex)
      ∧ (s.part.hcr.capturing = true → ringHasRoom s.part →
          (s.takeFrame seq f).rings = s.ringsAfter f ∧ (s.takeFrame seq f).part.hcr.nextIndex = s.part.hcr.nextIndex + 1) := by
  obtain ⟨c, e, hpresent, -⟩ := s.taking_spec seq f
  obtain ⟨-, hsetup, hbank, m, -⟩ := (s.taking seq f).passOn_spec f
  rw [s.takeFrame_eq seq f h, m.link, m.expected, m.lastGood, m.run, hsetup, hbank, State.passOn_rawHeld]
  rw [e]
  refine ⟨⟨rfl, rfl⟩, ⟨rfl, rfl, rfl, rfl⟩, hpresent, fun hc => ?_, fun hc hr => ?_⟩
  · rw [State.passOn_idle f (by exact hc)]
    exact ⟨rfl, rfl⟩
  · rw [State.passOn_written f (by exact hc) (by exact hr)]
    exact ⟨rfl, State.writeFrame_nextIndex _ _⟩

theorem frameSlot_gap_zero {bytes : List Byte} {f : PerTrack Int} {s : State} (hl : s.part.hcr.link = .following)
    (hr : readRawFrame bytes = some (s.part.hcr.expected, f)) : frameSlot bytes s = s.takeFrame s.part.hcr.expected f := by
  have gap : s.part.hcr.gap s.part.hcr.expected = 0 := by simp [HeadReceiver.gap]
  unfold frameSlot
  simp only [hl, hr, gap, if_true]

/-- Settles O33: a frame with gap 0 is taken (`State.takeFrame_spec`). -/
theorem slotInSequence : Obligations.SlotInSequence := by
  intro bytes seq f s hl hr hseq hs
  subst hseq
  obtain ⟨⟨hsetup, hbank⟩, ⟨hlink, hexp, hgood, hrun⟩, -, hidle, hwrites⟩ := s.takeFrame_spec s.part.hcr.expected f hs
  refine ⟨s.takeFrame s.part.hcr.expected f, congrArg _ (frameSlot_gap_zero hl hr), hlink, hgood, hexp, hrun, hsetup, hbank, hidle,
    fun hc hroom hbuf => ?_⟩
  obtain ⟨hrings, hnext⟩ := hwrites hc hroom
  refine ⟨hnext, fun tr => ?_⟩
  rw [hrings]
  exact s.ringsAfter_same f tr hbuf

/-- Settles O34: the frame is written at its raw index and stamps the block it begins (`State.ringsAfter`). -/
theorem frameWritten : Obligations.FrameWritten := by
  intro bytes seq f s hl hr hseq hs hc hroom hbuf
  subst hseq
  obtain ⟨-, -, -, -, hwrites⟩ := s.takeFrame_spec s.part.hcr.expected f hs
  refine ⟨s.takeFrame s.part.hcr.expected f, congrArg _ (frameSlot_gap_zero hl hr), ?_⟩
  rw [(hwrites hc hroom).1]
  exact ⟨fun tr k hk => s.ringsAfter_other f tr hk, fun tr k hk => Rings.sample_negative _ tr hk, s.ringsAfter_stamped f hbuf,
    fun b hb => s.ringsAfter_stamps f b hb⟩

/-! ## What a good raw frame is, and the link in WAITING (01, R1, R2) -/

theorem readRawFrame_good (seq a2 a1 a0 b2 b1 b0 c2 c1 c0 d2 d1 d0 check : Byte)
    (h : seq + a2 + a1 + a0 + b2 + b1 + b0 + c2 + c1 + c0 + d2 + d1 + d0 + check = 0) :
    readRawFrame [seq, a2, a1, a0, b2, b1, b0, c2, c1, c0, d2, d1, d0, check]
      = some (seq, ⟨(a2 ++ a1 ++ a0 : BitVec 24).toInt, (b2 ++ b1 ++ b0 : BitVec 24).toInt, (c2 ++ c1 ++ c0 : BitVec 24).toInt,
          (d2 ++ d1 ++ d0 : BitVec 24).toInt⟩) := by
  have sum : byteSum [seq, a2, a1, a0, b2, b1, b0, c2, c1, c0, d2, d1, d0, check] = 0 := by
    have start : (0 : Byte) + seq = seq := BitVec.zero_add seq
    simp only [byteSum, List.foldl_cons, List.foldl_nil, start]
    exact h
  unfold readRawFrame
  exact if_pos sum

theorem readRawFrame_bad (bytes : List Byte) (h : bytes.length ≠ 14 ∨ bytes.foldl (· + ·) 0 ≠ 0) : readRawFrame bytes = none := by
  fun_cases readRawFrame bytes
  case case1 hsum => exact absurd hsum (h.resolve_left (not_not_intro rfl))
  case case2 => rfl
  case case3 => rfl

/-- Settles O32: fourteen bytes that sum to 0 are a good frame; a waiting link discards every other slot and takes a good frame
whatever its gap. -/
theorem slotWaiting : Obligations.SlotWaiting := by
  refine ⟨⟨readRawFrame_good, readRawFrame_bad⟩, fun bytes s hl hs => ⟨fun hr => ?_, fun seq f hr => ?_⟩⟩
  · refine congrArg Host.Outcome.next ?_
    unfold frameSlot
    simp only [hl, hr]
  · have taken : frameSlot bytes s = s.takeFrame seq f := by
      unfold frameSlot
      simp only [hl, hr]
    obtain ⟨-, ⟨hlink, hexp, hgood, hrun⟩, -, hidle, hwrites⟩ := s.takeFrame_spec seq f hs
    refine ⟨s.takeFrame seq f, congrArg _ taken, hlink, hexp, hgood, hrun, hidle, fun hc hroom hbuf => ?_⟩
    obtain ⟨hrings, hnext⟩ := hwrites hc hroom
    refine ⟨hnext, fun tr => ?_⟩
    rw [hrings]
    exact s.ringsAfter_same f tr hbuf

/-! ## Held frames (01, R4, R5, R7) -/

/-- Copies held under a RAW_HELD policy that stops nothing: run and expected number advance, RAW_HELD is present. -/
theorem Part.hold_quiet (u : Setup) (n : Nat) (p : Part) (hs : p.stopPending = false) (hq : neverStops u.policies.rawHeld) :
    ∃ c m, p.hold u n = { p with
        hcr := { p.hcr with run := p.hcr.run + n, expected := p.hcr.expected + BitVec.ofNat 8 n },
        cmn := c, msp := { p.msp with notices := m } }
      ∧ c.rawHeld.present = true := by
  obtain ⟨c, b, m, e, hpresent, -, -, -, hb⟩ := Part.reportPresent_spec u .rawHeld { p with
    hcr := { p.hcr with run := p.hcr.run + n, expected := p.hcr.expected + BitVec.ofNat 8 n } }
  obtain rfl := hb hq
  refine ⟨c, m, ?_, hpresent⟩
  unfold Part.hold
  rw [e]
  exact Part.takeStop_none u hs

/-- Whatever the policy, copies held leave the raw index, and outside capture the capture. -/
theorem Part.hold_hcr (u : Setup) (n : Nat) (p : Part) : (p.hold u n).hcr.nextIndex = p.hcr.nextIndex
    ∧ (p.hcr.capturing = false → (p.hold u n).hcr.capturing = false) := by
  have w := Part.works_reportPresent u .rawHeld { p with
    hcr := { p.hcr with run := p.hcr.run + n, expected := p.hcr.expected + BitVec.ofNat 8 n } }
  exact ⟨(Part.takeStop_nextIndex u _).trans w.nextIndex, fun h => Part.takeStop_idle u _ (w.capturing.trans h)⟩

theorem State.passCopies_idle (f : PerTrack Int) (k : Nat) {s : State} (h : s.part.hcr.capturing = false) :
    s.passCopies f k = s := by
  induction k with
  | zero => rfl
  | succ k ih =>
    unfold State.passCopies
    rw [State.passOn_idle f h]
    exact ih

/-! ## Frames written one after another -/

/-- Room for k more frames and the one after them, whatever the lanes' production settings become (01, R12). -/
def Part.roomFor (p : Part) (k : Nat) : Prop :=
  ∀ l, (p.lanes.get l).state ≠ .idle → p.hcr.nextIndex + k + 32 < (p.lanes.get l).acc / 16777216 + 65536

theorem Part.roomFor.hasRoom {p : Part} {k : Nat} (h : p.roomFor k) : ringHasRoom p := by
  intro l m hm
  unfold Producer.oldestNeeded at hm
  split at hm
  · rename_i hp
    have hstate : (p.lanes.get l).state ≠ .idle := by
      intro hi
      simp [Producer.producing, hi] at hp
    have room := h l hstate
    simp only [Option.some.injEq, Producer.index, Config.q24, Config.reach] at hm
    omega
  · cases hm

/-- Capture runs over canonical buffers, no stop request waits, and no frame can make one. -/
structure State.Captures (s : State) : Prop where
  capturing : s.part.hcr.capturing = true
  stop : s.part.stopPending = false
  never : framesNeverStop s.setup
  buffers : buffersCanonical s = true

theorem Part.counted_capturing (u : Setup) (p : Part) : (p.counted u).hcr.capturing = p.hcr.capturing := by
  unfold Part.counted
  dsimp only
  split
  · exact (p.works_blockBegin u _ _).capturing
  · rfl

theorem State.Captures.writeFrame {s : State} (h : s.Captures) (f : PerTrack Int) : (s.writeFrame f).Captures where
  capturing := by
    rw [State.writeFrame_quiet f s h.never h.stop]
    exact ((Part.works_arrived _ _ _ _ _).capturing.trans (Part.counted_capturing _ _)).trans h.capturing
  stop := Part.takeStop_stopPending _ _
  never := h.never
  buffers := s.writeFrame_canonical f h.buffers

theorem State.Captures.lanes {s : State} (h : s.Captures) (f : PerTrack Int) : s.part.Reads (s.writeFrame f).part := by
  rw [State.writeFrame_quiet f s h.never h.stop]
  exact (s.part.reads_counted _).trans (Part.reads_arrived _ _ _ _ _)

theorem State.Captures.roomFor {s : State} (h : s.Captures) (f : PerTrack Int) {k : Nat} (hr : s.part.roomFor (k + 1)) :
    (s.writeFrame f).part.roomFor k := by
  intro l hl
  obtain ⟨hstate, hacc⟩ := (h.lanes f).lanes l
  have room := hr l (hstate ▸ hl)
  rw [State.writeFrame_nextIndex, hacc]
  omega

/-- Copies written at the next k raw indexes, with room for them and one more. -/
theorem State.Captures.passCopies {s : State} (h : s.Captures) (f : PerTrack Int) (k : Nat) (hk : k ≤ 4) (hr : s.part.roomFor k) :
    (s.passCopies f k).Captures ∧ (s.passCopies f k).part.roomFor 0
      ∧ (s.passCopies f k).part.hcr.nextIndex = s.part.hcr.nextIndex + k
      ∧ ∀ tr, (∀ j < k, (s.passCopies f k).rings.sample tr ((s.part.hcr.nextIndex + j : Nat) : Int) = f.get tr)
        ∧ ∀ m : Nat, (∀ j < k, m % 65536 ≠ (s.part.hcr.nextIndex + j) % 65536) →
          (s.passCopies f k).rings.sample tr m = s.rings.sample tr m := by
  induction k generalizing s with
  | zero => exact ⟨h, hr, rfl, fun tr => ⟨nofun, fun _ _ => rfl⟩⟩
  | succ k ih =>
    have written : s.passCopies f (k + 1) = (s.writeFrame f).passCopies f k := by
      show (s.passOn f).passCopies f k = _
      rw [State.passOn_written f h.capturing hr.hasRoom]
    obtain ⟨hcap, hroom, hnext, hsamples⟩ := ih (h.writeFrame f) (by omega) (h.roomFor f hr)
    rw [State.writeFrame_nextIndex] at hnext hsamples
    rw [written]
    refine ⟨hcap, hroom, by omega, fun tr => ?_⟩
    obtain ⟨hcopies, hothers⟩ := hsamples tr
    refine ⟨fun j hj => ?_, fun m hm => ?_⟩
    · cases j with
      | zero =>
        rw [Nat.add_zero, hothers s.part.hcr.nextIndex (fun j hj => by omega)]
        exact s.ringsAfter_same f tr h.buffers
      | succ j =>
        rw [← hcopies j (by omega)]
        congr 2
        omega
    · rw [hothers m (fun j hj => ?_)]
      · exact s.ringsAfter_other f tr (hm 0 (by omega))
      · have := hm (j + 1) (by omega)
        rwa [show s.part.hcr.nextIndex + 1 + j = s.part.hcr.nextIndex + (j + 1) by omega]

/-! ## Replaced slots and filled gaps -/

theorem neverStops_rawHeld {u : Setup} (h : policiesAllowed u.policies = true) : neverStops u.policies.rawHeld := by
  have allowed : CondId.rawHeld.allowed.contains (u.policies.get .rawHeld).policy = true :=
    (List.all_eq_true.mp h) .rawHeld (by decide)
  have cases : u.policies.rawHeld.policy = .auto ∨ u.policies.rawHeld.policy = .warn ∨ u.policies.rawHeld.policy = .off := by
    simpa [CondId.allowed, PerCond.get] using allowed
  unfold neverStops
  rcases cases with h | h | h <;> rw [h] <;> exact ⟨nofun, nofun⟩

/-- Settles O36: a slot that is no good frame is held as one copy (`Part.hold_quiet`), and a gap is held as its copies, each passed on
(`State.Captures.passCopies`), before the frame is taken (`State.takeFrame_spec`). -/
theorem slotReplaced : Obligations.SlotReplaced := by
  constructor
  · intro bytes s hl hr hrun hs hq
    obtain ⟨held, hheld⟩ : ∃ held, held = s.onPart (Part.hold s.setup 1) := ⟨_, rfl⟩
    have slot : frameSlot bytes s = held.passOn s.part.hcr.lastGood := by
      unfold frameSlot
      simp only [hl, hr]
      exact (if_pos hrun).trans (by rw [hheld])
    obtain ⟨c, m, e, hpresent⟩ := Part.hold_quiet s.setup 1 s.part hs hq
    have hstate : held = { s with part := _ } := hheld.trans (congrArg (fun q => ({ s with part := q } : State)) e)
    obtain ⟨-, -, -, moves, -⟩ := held.passOn_spec s.part.hcr.lastGood
    refine ⟨_, congrArg Host.Outcome.next slot, ?_⟩
    rw [moves.link, moves.run, moves.expected, moves.lastGood, State.passOn_rawHeld]
    subst hstate
    refine ⟨hl, rfl, rfl, rfl, hpresent, fun hc => ?_, fun hc hroom hbuf => ?_⟩
    · rw [State.passOn_idle _ (by exact hc)]
      exact ⟨rfl, rfl⟩
    · rw [State.passOn_written _ (by exact hc) (by exact hroom)]
      exact ⟨State.writeFrame_nextIndex _ _, fun tr => State.ringsAfter_same _ _ tr hbuf⟩
  · intro bytes seq f g s hl hr hg hpos hrun hs
    obtain ⟨held, hheld⟩ : ∃ held, held = s.onPart (Part.hold s.setup g) := ⟨_, rfl⟩
    obtain ⟨copied, hcopied⟩ : ∃ copied, copied = held.passCopies s.part.hcr.lastGood g := ⟨_, rfl⟩
    have slot : frameSlot bytes s = copied.takeFrame seq f := by
      have gap : s.part.hcr.gap seq = g := hg.symm
      unfold frameSlot
      simp only [hl, hr, gap]
      rw [if_neg (by omega), if_pos hrun, ← hheld, ← hcopied]
    have stop : copied.part.stopPending = false := by
      rw [hcopied]
      exact State.passCopies_stopPending _ _ _ (by rw [hheld]; exact Part.takeStop_stopPending _ _)
    obtain ⟨-, ⟨hlink, hexp, hgood, hrun0⟩, hheldAbsent, hidle, hwrites⟩ := copied.takeFrame_spec seq f stop
    refine ⟨_, congrArg Host.Outcome.next slot, hlink, hgood, hexp, hrun0, hheldAbsent, fun hc => ?_, fun hc hbuf hnever hroom => ?_⟩
    · obtain ⟨hindex, hcap⟩ := Part.hold_hcr s.setup g s.part
      have idle : copied = held := by
        rw [hcopied]
        exact State.passCopies_idle _ _ (by rw [hheld]; exact hcap hc)
      obtain ⟨hrings, hnext⟩ := hidle (by rw [idle, hheld]; exact hcap hc)
      rw [hrings, hnext, idle, hheld]
      exact ⟨rfl, hindex⟩
    · obtain ⟨c, m, e, -⟩ := Part.hold_quiet s.setup g s.part hs (neverStops_rawHeld hnever.1)
      have hstate : held = { s with part := _ } := hheld.trans (congrArg (fun q => ({ s with part := q } : State)) e)
      have captures : held.Captures := by
        rw [hstate]
        exact ⟨hc, hs, hnever, hbuf⟩
      obtain ⟨hcap, hroom0, hnext, hsamples⟩ :=
        captures.passCopies s.part.hcr.lastGood g (by omega) (by rw [hstate]; exact hroom)
      have index : held.part.hcr.nextIndex = s.part.hcr.nextIndex := by rw [hstate]
      rw [← hcopied] at hcap hroom0 hnext hsamples
      rw [index] at hnext hsamples
      obtain ⟨hrings, hnext'⟩ := hwrites hcap.capturing hroom0.hasRoom
      rw [hrings, hnext', hnext]
      refine ⟨rfl, fun tr => ⟨fun j hj => ?_, ?_⟩⟩
      · rw [copied.ringsAfter_other f tr (by omega)]
        exact (hsamples tr).1 j hj
      · rw [← hnext]
        exact copied.ringsAfter_same f tr hcap.buffers

end Sys2Proof.Machine
end

section
/-! SUPPORT and PROOFS. Stop requests made by the link's own conditions, said once: what raising RAW_LOST or OVERRUN leaves, what the
stop makes of a playing take or survey, and the lost slot (01, R6, R12). -/

namespace Sys2Proof.Machine

open Sys2Proof.Safety

/-! ## The record at the end of a take (09, R162) -/

theorem Part.takeTeardown_take (u : Setup) (e : Option Nat) (p : Part) : (p.takeTeardown u e).take = p.take := by
  have tracker (l : Lane) (q : Part) : (q.trackerTakeEnd u e l).take = q.take := by
    obtain ⟨c, m, eq, -⟩ := q.trackerTakeEnd_exact u e l
    rw [eq]
  have detectors (q : Part) : (q.detectorsTakeEnd e).take = q.take := by
    obtain ⟨d, c, eq, -⟩ := q.detectorsTakeEnd_spec e
    rw [eq]
  have lane (l : Lane) (q : Part) : (q.laneTakeEnd u l).take = q.take := by
    obtain ⟨g, c, k, m, con, x, eq, -⟩ := q.laneTakeEnd_lane u l _ Iff.rfl
    rw [eq]
  have aligners (q : Part) : ((q.alignerTakeEnd .a).alignerTakeEnd .b).take = q.take := rfl
  have refind (q : Part) : (q.refind u).take = q.take := rfl
  unfold Part.takeTeardown
  dsimp only
  rw [lane, lane, refind, detectors, aligners, tracker, tracker]

/-- The event that ends a running take fixes its record's cause and end index. -/
theorem Part.endOperation_record (u : Setup) (c : TakeCause) (p : Part) (hk : p.trc.op.kind = .take) (he : p.trc.op.ending = none) :
    (p.endOperation u (.cause c)).take.record
      = p.take.record.map fun r => ⟨r.endPosition, some c, p.lastWritten, r.finalPosition⟩ := by
  obtain ⟨k, t, e, -⟩ := p.endOperation_takeEnd u c hk he
  rw [e]
  unfold Part.takeEnd
  rw [Part.takeTeardown_take]
  rfl

/-! ## A condition under STOP -/

/-- Raising a condition whose policy is STOP sets its flag, posts at most CONDITION_RAISED, and makes the stop request. -/
theorem Part.raise_stop (u : Setup) (id : CondId) (p : Part) (h : (u.policies.get id).policy = .stop) : ∃ c m,
    p.raise u id = { p with cmn := c, stopPending := true, msp := { p.msp with notices := m } }
      ∧ (c.get id).flag = true ∧ (∀ jd, jd ≠ id → c.get jd = p.cmn.get jd)
      ∧ ∀ k, k ≠ .conditionRaised → queued k m = queued k p.msp.notices := by
  obtain ⟨c, m, e, hf, -, -, ho, hm⟩ := p.setFlag_spec id
  refine ⟨c, m, ?_, hf, ho, fun k hk => ?_⟩
  · unfold Part.raise
    simp only [h, e]
  · rw [hm]
    split
    · rfl
    · exact queued_post_other _ _ _ hk

theorem policy_rawLost {u : Setup} (h : policiesAllowed u.policies = true) : (u.policies.get .rawLost).policy = .stop := by
  have allowed := List.all_eq_true.mp h .rawLost (by decide)
  simpa [CondId.allowed] using allowed

theorem policy_overrun {u : Setup} (h : policiesAllowed u.policies = true) : (u.policies.get .overrun).policy = .stop := by
  have allowed := List.all_eq_true.mp h .overrun (by decide)
  simpa [CondId.allowed] using allowed

/-- A waiting stop request ends what plays, if it is a take or a survey (02, R38). -/
theorem Part.takeStop_playing (u : Setup) (p : Part) (hp : p.stopPending = true) (hs : p.trc.state = .playing)
    (hk : p.trc.op.kind = .take ∨ p.trc.op.kind = .survey) :
    p.takeStop u = { { p with stopPending := false }.endAs u .condition .condition with stopPending := false } := by
  unfold Part.takeStop Part.stopRequest
  rw [if_pos hp, if_pos ⟨hk, .inr hs⟩]

/-- What a stop request makes of a playing take, seen from a part p that agrees with the one it meets on all the end reads. -/
theorem Part.takeStop_take (u : Setup) (p q : Part) (hp : q.stopPending = true) (hs : q.trc.state = .playing)
    (hk : q.trc.op.kind = .take) (he : q.trc.op.ending = none)
    (h : q.rft = p.rft ∧ q.lanes = p.lanes ∧ q.aza = p.aza ∧ q.pos.position = p.pos.position ∧ q.det = p.det ∧ q.con = p.con
      ∧ q.take.record = p.take.record ∧ q.hcr.nextIndex = p.hcr.nextIndex)
    (hn : ∀ k, k ≠ .conditionRaised → queued k q.msp.notices = queued k p.msp.notices) :
    (q.takeStop u).trc.op.ending = some (.cause .condition) ∧ (q.takeStop u).trc.state = .settling
      ∧ (q.takeStop u).take.device = .configure
      ∧ (q.takeStop u).take.record
          = (q.take.record.map fun r => ⟨r.endPosition, some .condition, q.lastWritten, r.finalPosition⟩)
      ∧ ∀ l, Part.tornDown u l p (q.takeStop u) := by
  obtain ⟨r, hr⟩ : ∃ r : Part, r = { q with stopPending := false } := ⟨_, rfl⟩
  have rk : r.trc.op.kind = .take := by rw [hr]; exact hk
  have re : r.trc.op.ending = none := by rw [hr]; exact he
  have ended : r.endAs u .condition .condition = r.endOperation u (.cause .condition) := by
    unfold Part.endAs
    rw [if_pos rk]
  have whole : q.takeStop u = { r.endOperation u (.cause .condition) with stopPending := false } := by
    rw [q.takeStop_playing u hp hs (.inl hk), ← hr, ended]
  obtain ⟨hstate, hop, -⟩ := r.endOperation_spec u (.cause .condition) (by rw [rk]; nofun) re
  obtain ⟨hdevice, -⟩ := r.endOperation_take u .condition rk re
  have hrecord := r.endOperation_record u .condition rk re
  have htorn (l : Lane) := Part.endOperation_torn u .condition l p r rk re (by rw [hr]; exact h)
    (by rw [hr]; exact hn (lockKind l) (lockKind_ne_condition l))
  rw [whole]
  refine ⟨?_, hstate, hdevice, ?_, fun l => htorn l⟩
  · rw [hop]
  · rw [hrecord, hr]
    rfl

/-- What a stop request makes of a playing survey. -/
theorem Part.takeStop_survey (u : Setup) (q : Part) (hp : q.stopPending = true) (hs : q.trc.state = .playing)
    (hk : q.trc.op.kind = .survey) (he : q.trc.op.ending = none) :
    (q.takeStop u).trc.op.ending = some (.term .condition) ∧ (q.takeStop u).trc.state = .settling := by
  obtain ⟨r, hr⟩ : ∃ r : Part, r = { q with stopPending := false } := ⟨_, rfl⟩
  have rk : r.trc.op.kind = .survey := by rw [hr]; exact hk
  have re : r.trc.op.ending = none := by rw [hr]; exact he
  have ended : r.endAs u .condition .condition = r.endOperation u (.term .condition) := by
    unfold Part.endAs
    rw [if_neg (by rw [rk]; nofun)]
  obtain ⟨hstate, hop, -⟩ := r.endOperation_spec u (.term .condition) (by rw [rk]; nofun) re
  rw [q.takeStop_playing u hp hs (.inr hk), ← hr, ended]
  refine ⟨?_, hstate⟩
  rw [hop]

/-! ## The lost slot and the overrun -/

theorem overruns_of_not_ringHasRoom {p : Part} (h : ¬ringHasRoom p) : p.overruns = true := by
  unfold ringHasRoom at h
  push Not at h
  obtain ⟨l, m, hm, hfull⟩ := h
  unfold Part.overruns
  rw [List.any_eq_true]
  refine ⟨l, by cases l <;> simp, ?_⟩
  rw [hm]
  exact decide_eq_true hfull

theorem frameSlot_lost {bytes : List Byte} {s : State} (hl : s.part.hcr.link = .following)
    (h : (readRawFrame bytes = none ∧ 4 ≤ s.part.hcr.run)
      ∨ ∃ seq f, readRawFrame bytes = some (seq, f) ∧ 4 < s.part.hcr.run + (seq - s.part.hcr.expected).toNat
          ∧ seq ≠ s.part.hcr.expected) : frameSlot bytes s = s.onPart (Part.rawLost s.setup) := by
  unfold frameSlot
  rcases h with ⟨hr, hrun⟩ | ⟨seq, f, hr, hrun, hne⟩
  · simp only [hl, hr]
    exact if_neg (by omega)
  · have gap : s.part.hcr.gap seq ≠ 0 := fun h0 => hne (sub_eq_zero.mp (BitVec.eq_of_toNat_eq h0))
    simp only [hl, hr]
    rw [if_neg gap]
    exact if_neg (by unfold HeadReceiver.gap; omega)

/-- The part a lost slot's stop request meets. -/
theorem Part.rawLost_spec (u : Setup) (p : Part) (h : policiesAllowed u.policies = true) : ∃ c m,
    p.rawLost u = Part.takeStop u { p with hcr := { p.hcr with link := .waiting, run := 0, capturing := false }, cmn := c,
                                           stopPending := true, msp := { p.msp with notices := m } }
      ∧ c.rawLost.flag = true ∧ c.rawHeld.present = false
      ∧ ∀ k, k ≠ .conditionRaised → queued k m = queued k p.msp.notices := by
  obtain ⟨c, e, habsent, -⟩ := Part.reportAbsent_spec u .rawHeld
    { p with hcr := { p.hcr with link := .waiting, run := 0, capturing := false } }
  obtain ⟨c', m, e', hflag, hother, hqueue⟩ := Part.raise_stop u .rawLost
    { p with hcr := { p.hcr with link := .waiting, run := 0, capturing := false }, cmn := c } (policy_rawLost h)
  refine ⟨c', m, ?_, hflag, ?_, hqueue⟩
  · have lost : p.rawLost u = ((Part.reportAbsent u .rawHeld
      { p with hcr := { p.hcr with link := .waiting, run := 0, capturing := false } }).raise u .rawLost).takeStop u := rfl
    rw [lost, e, e']
  · exact (congrArg CondStatus.present (hother .rawHeld nofun)).trans habsent

/-- The part an overrun's stop request meets. -/
theorem State.passOn_overrun (f : PerTrack Int) (s : State) (h : policiesAllowed s.setup.policies = true)
    (hc : s.part.hcr.capturing = true) (hr : s.part.overruns = true) : ∃ c m q,
    q = { s.part with hcr := { s.part.hcr with capturing := false }, cmn := c, stopPending := true,
                      msp := { s.part.msp with notices := m } }
      ∧ s.passOn f = { s with part := q.takeStop s.setup } ∧ c.overrun.flag = true
      ∧ ∀ k, k ≠ .conditionRaised → queued k m = queued k s.part.msp.notices := by
  obtain ⟨c, m, e, hflag, -, hqueue⟩ := Part.raise_stop s.setup .overrun s.part.stopCapture (policy_overrun h)
  refine ⟨c, m, _, rfl, ?_, hflag, hqueue⟩
  have overrun : s.passOn f = s.onPart fun p => (p.stopCapture.raise s.setup .overrun).takeStop s.setup := by
    unfold State.passOn
    rw [hc, hr]
    rfl
  exact overrun.trans (congrArg (fun q : Part => s.onPart fun _ => q.takeStop s.setup) e)

/-- Settles O35: RAW_LOST and OVERRUN make the stop request (`Part.rawLost_spec`, `State.passOn_overrun`), which ends a playing take or
survey (`Part.takeStop_take`, `Part.takeStop_survey`) and leaves the link's conditions (`Part.takeStop_link`). -/
theorem slotLost : Obligations.SlotLost := by
  constructor
  · intro bytes s hl hs hpol hlost
    obtain ⟨c, m, e, hflag, hheld, hqueue⟩ := s.part.rawLost_spec s.setup hpol
    obtain ⟨q, hq⟩ : ∃ q : Part, q = { s.part with
      hcr := { s.part.hcr with link := .waiting, run := 0, capturing := false }, cmn := c, stopPending := true,
      msp := { s.part.msp with notices := m } } := ⟨_, rfl⟩
    rw [← hq] at e
    have slot : frameSlot bytes s = { s with part := q.takeStop s.setup } :=
      (frameSlot_lost hl hlost).trans (congrArg (fun x => ({ s with part := x } : State)) e)
    obtain ⟨conds, link⟩ := q.takeStop_link s.setup
    have hcr : (q.takeStop s.setup).hcr = { s.part.hcr with link := .waiting, run := 0, capturing := false } := by
      rcases link with h | h <;> rw [h, hq]
    have lostKept : (q.takeStop s.setup).cmn.rawLost = q.cmn.rawLost := conds .rawLost rfl
    have heldKept : (q.takeStop s.setup).cmn.rawHeld = q.cmn.rawHeld := conds .rawHeld rfl
    have pending : q.stopPending = true := by rw [hq]
    have trc : q.trc = s.part.trc := by rw [hq]
    refine ⟨_, congrArg Host.Outcome.next slot, rfl, rfl, ?_⟩
    dsimp only
    rw [hcr, lostKept, heldKept]
    refine ⟨rfl, rfl, rfl, rfl, rfl, rfl, by rw [hq]; exact hflag, by rw [hq]; exact hheld, fun hk he hplay => ?_, fun hk he hplay => ?_⟩
    · obtain ⟨hend, hstate, hdevice, hrecord, htorn⟩ := Part.takeStop_take s.setup s.part q pending (by rw [trc]; exact hplay)
        (by rw [trc]; exact hk) (by rw [trc]; exact he) (by rw [hq]; exact ⟨rfl, rfl, rfl, rfl, rfl, rfl, rfl, rfl⟩)
        (by rw [hq]; exact hqueue)
      refine ⟨hend, hstate, hdevice, ?_, htorn⟩
      rw [hrecord, hq]
      rfl
    · exact q.takeStop_survey s.setup pending (by rw [trc]; exact hplay) (by rw [trc]; exact hk) (by rw [trc]; exact he)
  · intro bytes seq f s hl hr hseq hs hc hroom hpol
    subst hseq
    obtain ⟨k, etaking, -⟩ := s.taking_spec s.part.hcr.expected f
    obtain ⟨r, hrest⟩ : ∃ r, r = s.taking s.part.hcr.expected f := ⟨_, rfl⟩
    have hstate : r = _ := hrest.trans etaking
    have slot : frameSlot bytes s = r.passOn f :=
      (frameSlot_gap_zero hl hr).trans ((s.takeFrame_eq _ f hs).trans (by rw [hrest]))
    obtain ⟨c, m, q, hq, e, hflag, hqueue⟩ := r.passOn_overrun f (by rw [hstate]; exact hpol) (by rw [hstate]; exact hc)
      (by rw [hstate]; exact overruns_of_not_ringHasRoom hroom)
    have setup : r.setup = s.setup := by rw [hstate]
    have rings : r.rings = s.rings := by rw [hstate]
    have part : q = { s.part with
        hcr := { s.part.hcr.taken s.part.hcr.expected f with capturing := false }, cmn := c, stopPending := true,
        msp := { s.part.msp with notices := m } } := by
      rw [hq, hstate]
    rw [setup] at e
    obtain ⟨conds, link⟩ := q.takeStop_link s.setup
    have overrunKept : (q.takeStop s.setup).cmn.overrun = q.cmn.overrun := conds .overrun rfl
    have pending : q.stopPending = true := by rw [hq]
    have trc : q.trc = s.part.trc := by rw [part]
    refine ⟨_, congrArg Host.Outcome.next (slot.trans e), rings, ?_⟩
    dsimp only
    refine ⟨(q.takeStop_nextIndex s.setup).trans (by rw [part]; rfl), q.takeStop_idle s.setup (by rw [hq]), ?_, fun hk he hplay => ?_⟩
    · rw [overrunKept, hq]
      exact hflag
    · obtain ⟨hend, hsettling, hdevice, -, htorn⟩ := Part.takeStop_take s.setup s.part q pending (by rw [trc]; exact hplay)
        (by rw [trc]; exact hk) (by rw [trc]; exact he) (by rw [part]; exact ⟨rfl, rfl, rfl, rfl, rfl, rfl, rfl, rfl⟩)
        (by rw [part]; rw [hstate] at hqueue; exact hqueue)
      exact ⟨hend, hsettling, hdevice, htorn⟩

end Sys2Proof.Machine
end

section
/-! SUPPORT and PROOFS. An ending met by the stop request of its own event, said once for any operation and for a take; and the leader
sensor and the cassette, case by case (01, R16; 02, R26 to R32, R39). -/

namespace Sys2Proof.Machine

open Sys2Proof.Safety

/-! ## An ending and the stop request of its event -/

/-- A running operation's end, after the stop request of the same event: nothing is left to stop. -/
theorem Part.endOperation_stopped (u : Setup) (e : Ending) (q : Part) (hk : q.trc.op.kind ≠ .none) (he : q.trc.op.ending = none) :
    ((q.endOperation u e).takeStop u).trc.state = .settling
      ∧ ((q.endOperation u e).takeStop u).trc.op = { q.trc.op with phase := none, ending := some e }
      ∧ ((q.endOperation u e).takeStop u).trc.leader = q.trc.leader
      ∧ (q.trc.state ≠ .settling → ((q.endOperation u e).takeStop u).trc.settleTimer = some q.timebase)
      ∧ ((q.endOperation u e).takeStop u).pos = q.pos := by
  obtain ⟨hstate, hop, hleader, htimer, -, hpos, -⟩ := q.endOperation_spec u e hk he
  rw [q.takeStop_endOperation u e hk he]
  exact ⟨hstate, hop, hleader, htimer, hpos⟩

/-- A running take's end, after the stop request of the same event, seen from a part p that agrees with the one it meets on all the end
reads. -/
theorem Part.endOperation_stopped_take (u : Setup) (c : TakeCause) (p q : Part) (hk : q.trc.op.kind = .take)
    (he : q.trc.op.ending = none)
    (h : q.rft = p.rft ∧ q.lanes = p.lanes ∧ q.aza = p.aza ∧ q.pos.position = p.pos.position ∧ q.det = p.det ∧ q.con = p.con
      ∧ q.take.record = p.take.record ∧ q.hcr.nextIndex = p.hcr.nextIndex)
    (hn : ∀ l, queued (lockKind l) q.msp.notices = queued (lockKind l) p.msp.notices) :
    ((q.endOperation u (.cause c)).takeStop u).take.device = .configure
      ∧ ((q.endOperation u (.cause c)).takeStop u).hcr.capturing = false
      ∧ ∀ l, Part.tornDown u l p ((q.endOperation u (.cause c)).takeStop u) := by
  obtain ⟨hdevice, hcapturing, -⟩ := q.endOperation_take u c hk he
  rw [q.takeStop_endOperation u (.cause c) (by rw [hk]; nofun) he]
  exact ⟨hdevice, hcapturing, fun l => Part.endOperation_torn u c l p q hk he h (hn l)⟩

theorem Part.endAs_take (u : Setup) (t : Termination) (c : TakeCause) {p : Part} (h : p.trc.op.kind = .take) :
    p.endAs u t c = p.endOperation u (.cause c) := by
  unfold Part.endAs
  rw [if_pos h]

theorem Part.endAs_term (u : Setup) (t : Termination) (c : TakeCause) {p : Part} (h : p.trc.op.kind ≠ .take) :
    p.endAs u t c = p.endOperation u (.term t) := by
  unfold Part.endAs
  rw [if_neg h]

/-- A phase of an operation at rest: the transport settles from now, in the phase SETTLE, and no stop request waits. -/
theorem Part.settlePhase_stopped (u : Setup) (q : Part) (hs : q.stopPending = false) (hm : q.trc.state ≠ .settling) :
    let x := (Part.enterSettling u (q.setOp { q.trc.op with phase := some .settle })).takeStop u
    x.trc.state = .settling ∧ x.trc.settleTimer = some q.timebase ∧ x.trc.op = { q.trc.op with phase := some .settle }
      ∧ x.trc.leader = q.trc.leader ∧ x.pos = q.pos := by
  obtain ⟨op, hop⟩ : ∃ op : OpRecord, op = { q.trc.op with phase := some .settle } := ⟨_, rfl⟩
  obtain ⟨c, e, -⟩ := (q.setOp op).enterSettling_exact u hm
  have stop : ((q.setOp op).enterSettling u).stopPending = false := by rw [e]; exact hs
  dsimp only
  rw [← hop, Part.takeStop_none u stop, e]
  exact ⟨rfl, rfl, rfl, rfl, rfl⟩

theorem TransportState.moving_ne_settling {t : TransportState} (h : t.moving = true) : t ≠ .settling := by
  rintro rfl
  cases h

/-! ## The leader sensor (02, R26 to R32) -/

/-- The part on which leader shows. -/
def Part.onLeader (p : Part) : Part := { p with trc := { p.trc with leader := true } }

/-- The part on which oxide shows. -/
def Part.onOxide (p : Part) : Part := { p with trc := { p.trc with leader := false } }

theorem exec_leaderShown {s : State} (h : s.part.trc.leader = false) :
    exec .leaderSensorChange s = .next { s with part := (s.part.onLeader.leaderSeen s.setup).takeStop s.setup } := by
  have change : s.part.leaderChange s.setup = s.part.onLeader.leaderSeen s.setup := by
    unfold Part.leaderChange
    rw [h]
    rfl
  exact congrArg (fun p : Part => Host.Outcome.next (s.onPart fun _ => p.takeStop s.setup)) change

theorem exec_leaderGone {s : State} (h : s.part.trc.leader = true) :
    exec .leaderSensorChange s = .next { s with part := (s.part.onOxide.leaderLeft s.setup).takeStop s.setup } := by
  have change : s.part.leaderChange s.setup = s.part.onOxide.leaderLeft s.setup := by
    unfold Part.leaderChange
    rw [h]
    rfl
  exact congrArg (fun p : Part => Host.Outcome.next (s.onPart fun _ => p.takeStop s.setup)) change

theorem Part.leaderSeen_found (u : Setup) {p : Part} (hm : p.trc.state.moving = true) (hk : p.trc.op.kind = .rewindToLeader)
    (hp : p.trc.op.phase = some .reverse) (he : p.trc.op.ending = none) :
    p.leaderSeen u = Part.enterSettling u (p.setOp { p.trc.op with phase := some .settle }) := by
  unfold Part.leaderSeen
  rw [if_pos hm, if_pos ⟨hk, hp, he⟩]

theorem Part.leaderSeen_ends (u : Setup) {p : Part} (hm : p.trc.state.moving = true)
    (h : p.trc.op.kind ≠ .rewindToLeader ∨ p.trc.op.phase ≠ some .reverse) : p.leaderSeen u = p.endAs u .endOfTape .tapeEnd := by
  unfold Part.leaderSeen
  rw [if_pos hm, if_neg]
  rintro ⟨hk, hp, -⟩
  exact h.elim (fun k => k hk) fun k => k hp

theorem Part.leaderSeen_still (u : Setup) {p : Part} (h : p.trc.state.moving = false) : p.leaderSeen u = p := by
  unfold Part.leaderSeen
  rw [if_neg (by rw [h]; nofun)]

/-- What the sensor's showing leader makes of any motion but a rewind's search for it, and of no take: the end of the tape. -/
theorem leaderShown_ends {s : State} (hl : s.part.trc.leader = false) (hm : s.part.trc.state.moving = true)
    (he : s.part.trc.op.ending = none) (hk : s.part.trc.op.kind ≠ .none) (ht : s.part.trc.op.kind ≠ .take)
    (hr : s.part.trc.op.kind ≠ .rewindToLeader ∨ s.part.trc.op.phase ≠ some .reverse) : ∃ t,
    exec .leaderSensorChange s = .next t ∧ t.part.trc.leader = true ∧ t.part.trc.state = .settling
      ∧ t.part.trc.settleTimer = some s.part.timebase
      ∧ t.part.trc.op = { s.part.trc.op with phase := none, ending := some (.term .endOfTape) } ∧ t.part.pos = s.part.pos := by
  have ends : s.part.onLeader.leaderSeen s.setup = s.part.onLeader.endOperation s.setup (.term .endOfTape) :=
    (Part.leaderSeen_ends s.setup (p := s.part.onLeader) hm hr).trans (Part.endAs_term s.setup _ _ ht)
  obtain ⟨hstate, hop, hleader, htimer, hpos⟩ := s.part.onLeader.endOperation_stopped s.setup (.term .endOfTape) hk he
  rw [← ends] at hstate hop hleader htimer hpos
  exact ⟨_, exec_leaderShown hl, hleader, hstate, htimer (TransportState.moving_ne_settling hm), hop, hpos⟩

/-- What the sensor's showing leader makes of a take in motion. -/
theorem leaderShown_take {s : State} (hl : s.part.trc.leader = false) (hm : s.part.trc.state.moving = true)
    (he : s.part.trc.op.ending = none) (hk : s.part.trc.op.kind = .take) : ∃ t,
    exec .leaderSensorChange s = .next t ∧ t.part.trc.leader = true ∧ t.part.trc.state = .settling
      ∧ t.part.trc.op = { s.part.trc.op with phase := none, ending := some (.cause .tapeEnd) } ∧ t.part.take.device = .configure
      ∧ t.part.hcr.capturing = false ∧ ∀ l, Part.tornDown s.setup l s.part t.part := by
  have ends : s.part.onLeader.leaderSeen s.setup = s.part.onLeader.endOperation s.setup (.cause .tapeEnd) :=
    (Part.leaderSeen_ends s.setup (p := s.part.onLeader) hm (.inl (by rw [show s.part.onLeader.trc.op.kind = _ from hk]; nofun))).trans
      (Part.endAs_take s.setup _ _ hk)
  obtain ⟨hstate, hop, hleader, -, -⟩ := s.part.onLeader.endOperation_stopped s.setup (.cause .tapeEnd)
    (by rw [show s.part.onLeader.trc.op.kind = _ from hk]; nofun) he
  obtain ⟨hdevice, hcapturing, htorn⟩ := Part.endOperation_stopped_take s.setup .tapeEnd s.part s.part.onLeader hk he
    ⟨rfl, rfl, rfl, rfl, rfl, rfl, rfl, rfl⟩ fun _ => rfl
  rw [← ends] at hstate hop hleader hdevice hcapturing htorn
  exact ⟨_, exec_leaderShown hl, hleader, hstate, hop, hdevice, hcapturing, htorn⟩

theorem Part.leaderLeft_zeroes (u : Setup) {p : Part} (hs : p.trc.state = .approaching) (hk : p.trc.op.kind = .rewindToLeader)
    (hp : p.trc.op.phase = some .forward) (he : p.trc.op.ending = none) :
    p.leaderLeft u = (p.zeroPosition u).endOperation u (.term .done) := by
  unfold Part.leaderLeft
  rw [if_pos ⟨hs, hk, hp, he⟩]

theorem Part.leaderLeft_none (u : Setup) {p : Part}
    (h : p.trc.state ≠ .approaching ∨ p.trc.op.kind ≠ .rewindToLeader ∨ p.trc.op.phase ≠ some .forward) : p.leaderLeft u = p := by
  unfold Part.leaderLeft
  rw [if_neg]
  rintro ⟨hs, hk, hp, -⟩
  exact h.elim (fun k => k hs) fun h => h.elim (fun k => k hk) fun k => k hp

/-- What the sensor's showing oxide makes of a rewind's forward phase (02, R32). -/
theorem leaderGone_done {s : State} (hl : s.part.trc.leader = true) (hs : s.part.trc.state = .approaching)
    (hk : s.part.trc.op.kind = .rewindToLeader) (hp : s.part.trc.op.phase = some .forward) (he : s.part.trc.op.ending = none) : ∃ t,
    exec .leaderSensorChange s = .next t ∧ t.part.trc.leader = false ∧ t.part.trc.state = .settling
      ∧ t.part.trc.op = { s.part.trc.op with phase := none, ending := some (.term .done) }
      ∧ t.part.pos = { s.part.pos with position := 0, referenced := true } := by
  obtain ⟨g, zeroed⟩ := Part.follow_spec s.setup { s.part.onOxide with
    pos := { s.part.pos with position := 0, referenced := true } }
  obtain ⟨z, hz⟩ : ∃ z, z = s.part.onOxide.zeroPosition s.setup := ⟨_, rfl⟩
  have part : z = _ := hz.trans zeroed
  have trc : z.trc = { s.part.trc with leader := false } := by rw [part]; rfl
  have ends : s.part.onOxide.leaderLeft s.setup = z.endOperation s.setup (.term .done) :=
    (Part.leaderLeft_zeroes s.setup (p := s.part.onOxide) hs hk hp he).trans (by rw [hz])
  obtain ⟨hstate, hop, hleader, -, hpos⟩ := z.endOperation_stopped s.setup (.term .done)
    (by rw [trc]; exact fun h => absurd (hk.symm.trans h) nofun) (by rw [trc]; exact he)
  rw [← ends] at hstate hop hleader hpos
  exact ⟨_, exec_leaderGone hl, hleader.trans (by rw [trc]), hstate, hop.trans (by rw [trc]), hpos.trans (by rw [part])⟩

/-! ## The cassette (01, R16; 02, R39) -/

theorem Part.insertCassette_absent (u : Setup) {p : Part} (h : p.pos.cassette = false) : ∃ g,
    p.insertCassette u = { p with pos := { p.pos with cassette := true, position := 0, referenced := false }, sgt := g,
                                  msp := { p.msp with notices := postNotice (.cassetteChanged true) p.msp.notices } } := by
  obtain ⟨g, e⟩ := Part.follow_spec u { p with pos := { p.pos with cassette := true, position := 0, referenced := false } }
  refine ⟨g, ?_⟩
  unfold Part.insertCassette
  rw [if_neg (by rw [h]; nofun), e]
  rfl

/-- The part with its cassette gone, before the running operation ends. -/
def Part.cassetteGone (p : Part) : Part :=
  { p with pos := { p.pos with cassette := false, referenced := false },
           msp := { p.msp with notices := postNotice (.cassetteChanged false) p.msp.notices } }

theorem exec_cassetteGone {s : State} (h : s.part.pos.cassette = true) : exec .cassetteRemoval s
    = .next { s with part := (s.part.cassetteGone.endAs s.setup .cassetteOut .cassetteOut).takeStop s.setup } := by
  have change : s.part.removeCassette s.setup = s.part.cassetteGone.endAs s.setup .cassetteOut .cassetteOut := by
    unfold Part.removeCassette
    rw [if_pos h]
    rfl
  exact congrArg (fun p : Part => Host.Outcome.next (s.onPart fun _ => p.takeStop s.setup)) change

/-- No ending posts CASSETTE_CHANGED or displaces one. -/
theorem Part.takeTeardown_cassetteNotice (u : Setup) (e : Option Nat) (p : Part) {n : Notice} (h : n.content.kind = .cassetteChanged) :
    n ∈ (p.takeTeardown u e).msp.notices ↔ n ∈ p.msp.notices := by
  have apart : n.content.kind.apart := by rw [h]; trivial
  have tracker (l : Lane) (q : Part) : n ∈ (q.trackerTakeEnd u e l).msp.notices ↔ n ∈ q.msp.notices := by
    obtain ⟨c, m, eq, hm, -⟩ := q.trackerTakeEnd_exact u e l
    rw [eq]
    show n ∈ m ↔ _
    rw [hm]
    split
    · exact Iff.rfl
    · exact postNotice_other _ _ _ (by rw [h]; cases l <;> nofun)
  have detectors (q : Part) : n ∈ (q.detectorsTakeEnd e).msp.notices ↔ n ∈ q.msp.notices := by
    obtain ⟨d, c, eq, -⟩ := q.detectorsTakeEnd_spec e
    rw [eq]
  have lane (l : Lane) (q : Part) := q.laneTakeEnd_notices u l n apart
  have aligners (q : Part) : n ∈ ((q.alignerTakeEnd .a).alignerTakeEnd .b).msp.notices ↔ n ∈ q.msp.notices := Iff.rfl
  have refind (q : Part) : n ∈ (q.refind u).msp.notices ↔ n ∈ q.msp.notices := Iff.rfl
  unfold Part.takeTeardown
  dsimp only
  rw [lane, lane, refind, detectors, aligners, tracker, tracker]

theorem Part.endOperation_cassetteNotice (u : Setup) (e : Ending) (p : Part) {n : Notice} (h : n.content.kind = .cassetteChanged) :
    n ∈ (p.endOperation u e).msp.notices ↔ n ∈ p.msp.notices := by
  unfold Part.endOperation
  split
  · exact Iff.rfl
  obtain ⟨c, t, eq, -⟩ := (p.setOp { p.trc.op with phase := none, ending := some e }).enterSettling_parts u
  obtain ⟨q, hq⟩ : ∃ q : Part, q = (p.setOp { p.trc.op with phase := none, ending := some e }).enterSettling u := ⟨_, rfl⟩
  have notices : q.msp.notices = p.msp.notices := by rw [hq, eq]; rfl
  dsimp only
  rw [← hq, ← notices]
  split
  · exact Part.takeTeardown_cassetteNotice u _ _ h
  · obtain ⟨r, e', -⟩ := Part.surveyStop_spec { q with hcr := { q.hcr with capturing := false } }
    unfold Part.surveyEnd
    rw [e']
  · exact Iff.rfl

/-- What the removal of the cassette makes of a running operation. -/
theorem cassetteGone_ends {s : State} (hc : s.part.pos.cassette = true) (hk : s.part.trc.op.kind ≠ .none)
    (he : s.part.trc.op.ending = none) : ∃ t, exec .cassetteRemoval s = .next t
      ∧ t.part.pos = { s.part.pos with cassette := false, referenced := false } ∧ t.part.trc.state = .settling
      ∧ t.part.trc.op = { s.part.trc.op with
          phase := none, ending := some (if s.part.trc.op.kind = .take then .cause .cassetteOut else .term .cassetteOut) }
      ∧ (s.part.trc.op.kind = .take → t.part.take.device = .configure ∧ t.part.hcr.capturing = false
          ∧ ∀ l, Part.tornDown s.setup l s.part t.part)
      ∧ ∃ n ∈ t.part.msp.notices, n.content = .cassetteChanged false := by
  obtain ⟨e, hending⟩ : ∃ e : Ending, e = if s.part.trc.op.kind = .take then .cause .cassetteOut else .term .cassetteOut := ⟨_, rfl⟩
  have ends : s.part.cassetteGone.endAs s.setup .cassetteOut .cassetteOut = s.part.cassetteGone.endOperation s.setup e := by
    rw [hending]
    rfl
  obtain ⟨hstate, hop, -, -, hpos⟩ := s.part.cassetteGone.endOperation_stopped s.setup e hk he
  refine ⟨_, exec_cassetteGone hc, ?_⟩
  dsimp only
  rw [ends, ← hending]
  refine ⟨hpos, hstate, hop, fun ht => ?_, ?_⟩
  · rw [hending, if_pos ht]
    exact Part.endOperation_stopped_take s.setup .cassetteOut s.part s.part.cassetteGone ht he
      ⟨rfl, rfl, rfl, rfl, rfl, rfl, rfl, rfl⟩ fun l => queued_post_other _ _ _ (by cases l <;> nofun)
  · obtain ⟨n, hn, hcontent⟩ := postNotice_mem (.cassetteChanged false) s.part.msp.notices nofun
    refine ⟨n, ?_, hcontent⟩
    rw [s.part.cassetteGone.takeStop_endOperation s.setup e hk he]
    exact (s.part.cassetteGone.endOperation_cassetteNotice s.setup e (by rw [hcontent]; rfl)).mpr hn

/-- Settles O51: the sensor's level chooses what it shows (`exec_leaderShown`, `exec_leaderGone`), each meaning is said by its own
lemma, and an operation's end drops the event's stop request (`Part.endOperation_stopped`). -/
theorem sensorsAndCassette : Obligations.SensorsAndCassette := by
  refine ⟨fun s hs he => ⟨?_, ?_, ?_, ?_, ?_, ?_⟩, fun s hs hl hstate => ?_, fun s hs => ⟨?_, ?_, ?_, ?_, ?_⟩⟩
  · exact fun hl hm hk ht hr => leaderShown_ends hl hm he hk ht (.inl hr)
  · exact fun hl hm hk => leaderShown_take hl hm he hk
  · intro hl hm hk hp
    have found : s.part.onLeader.leaderSeen s.setup = _ := Part.leaderSeen_found s.setup (p := s.part.onLeader) hm hk hp he
    obtain ⟨hstate, htimer, hop, hleader, hpos⟩ := s.part.onLeader.settlePhase_stopped s.setup hs (TransportState.moving_ne_settling hm)
    rw [← found] at hstate htimer hop hleader hpos
    exact ⟨_, exec_leaderShown hl, hleader, hstate, htimer, hop, hpos⟩
  · exact fun hl hm hk hp => leaderShown_ends hl hm he (by rw [hk]; nofun) (by rw [hk]; nofun) (.inr (by rw [hp]; nofun))
  · exact fun hl hstate hk hp => leaderGone_done hl hstate hk hp he
  · intro hl h
    have none : (s.part.onOxide.leaderLeft s.setup).takeStop s.setup = s.part.onOxide :=
      (congrArg (Part.takeStop s.setup) (Part.leaderLeft_none s.setup (p := s.part.onOxide) h)).trans (Part.takeStop_none s.setup hs)
    rw [exec_leaderGone hl, none]
    rfl
  · have still : s.part.onLeader.trc.state.moving = false := by
      show s.part.trc.state.moving = false
      rcases hstate with h | h <;> rw [h] <;> rfl
    have none : (s.part.onLeader.leaderSeen s.setup).takeStop s.setup = s.part.onLeader :=
      (congrArg (Part.takeStop s.setup) (Part.leaderSeen_still s.setup still)).trans (Part.takeStop_none s.setup hs)
    rw [exec_leaderShown hl, none]
    rfl
  · intro hc
    obtain ⟨g, e⟩ := Part.insertCassette_absent s.setup hc
    refine ⟨_, congrArg (fun p : Part => Host.Outcome.next (s.onPart fun _ => p)) e, ?_⟩
    exact ⟨rfl, rfl, rfl, rfl, rfl, rfl, rfl, rfl, rfl, rfl, rfl⟩
  · intro hc
    exact congrArg (fun p : Part => Host.Outcome.next { s with part := p }) (if_pos hc)
  · intro hc
    have none : s.part.removeCassette s.setup = s.part := if_neg (by rw [hc]; nofun)
    exact congrArg (fun p : Part => Host.Outcome.next { s with part := p })
      ((congrArg (Part.takeStop s.setup) none).trans (Part.takeStop_none s.setup hs))
  · intro hc h
    have none : s.part.cassetteGone.endAs s.setup .cassetteOut .cassetteOut = s.part.cassetteGone :=
      Part.endOperation_none s.setup _ s.part.cassetteGone h
    rw [exec_cassetteGone hc, none, Part.takeStop_none s.setup (by exact hs)]
    rfl
  · exact fun hc hk he => cassetteGone_ends hc hk he

end Sys2Proof.Machine
end

section
/-! SUPPORT and PROOFS. A tick's count (01, R13, R14), which nothing of its judgement moves, and the ends of the qualification and of a
survey's span (02, R24, R26). -/

namespace Sys2Proof.Machine

open Sys2Proof.Safety

/-! ## The position through a tick's judgement -/

theorem Part.endOperation_pos (u : Setup) (e : Ending) (p : Part) : (p.endOperation u e).pos = p.pos := by
  by_cases h : p.trc.op.kind = .none ∨ p.trc.op.ending ≠ none
  · rw [p.endOperation_none u e h]
  · rw [not_or, not_not] at h
    exact (p.endOperation_spec u e h.1 h.2).2.2.2.2.2.1

theorem Part.enterSettling_pos (u : Setup) (p : Part) : (p.enterSettling u).pos = p.pos := by
  obtain ⟨c, t, e, -⟩ := p.enterSettling_parts u
  rw [e]

theorem Part.qualify_pos (p : Part) : p.qualify.pos = p.pos := by
  unfold Part.qualify
  split
  · dsimp only
    split <;> rfl
  · rfl

theorem Part.slipTick_pos (u : Setup) (forward : Bool) (p : Part) : (p.slipTick u forward).pos = p.pos := by
  obtain ⟨c, b, m, w, n, e, -⟩ := p.slipTick_spec u forward
  rw [e]

theorem Part.takeStop_induction {Q : Part → Prop} (u : Setup) (hstop : ∀ p b, Q p → Q { p with stopPending := b })
    (hends : ∀ e p, Q p → Q (p.endOperation u e)) {p : Part} (h : Q p) : Q (p.takeStop u) := by
  unfold Part.takeStop Part.stopRequest
  split
  · split
    · exact hstop _ _ (hends _ _ (hstop p false h))
    · exact hstop _ _ (hstop p false h)
  · exact h

/-- What the operations a tick may come to each keep, the Transport Controller's tick keeps. -/
theorem Part.transportTick_induction {Q : Part → Prop} (u : Setup) (htrc : ∀ p t, Q p → Q { p with trc := t })
    (hqualify : ∀ p, Q p → Q p.qualify) (hslip : ∀ forward p, Q p → Q (p.slipTick u forward))
    (hsettling : ∀ p, Q p → Q (p.enterSettling u)) (hends : ∀ e p, Q p → Q (p.endOperation u e)) (forward : Bool) {p : Part}
    (h : Q p) : Q (p.transportTick u forward) := by
  have playing (q : Part) (k : Q q) : Q (q.playingTick u) := by
    fun_cases Part.playingTick u q
    case case1 => exact hends _ q k
    case case4 =>
      unfold Part.surveyIfCounted
      split
      · split
        · exact hends _ _ (htrc q _ k)
        · exact htrc q _ k
      · exact htrc q _ k
    all_goals exact k
  have approaching (q : Part) (k : Q q) : Q (q.approachingTick u) := by
    fun_cases Part.approachingTick u q
    case case1 => exact hends _ q k
    all_goals exact k
  have winding (q : Part) (k : Q q) : Q (q.windingTick u) := by
    fun_cases Part.windingTick u q
    case case1 => exact hsettling _ (htrc q _ k)
    all_goals exact k
  obtain ⟨q, hq⟩ : ∃ q, q = (if p.trc.state.moving then { p with trc := { p.trc with stallTimer := some p.timebase } } else p) := ⟨_, rfl⟩
  have base : Q q := by
    rw [hq]
    split
    · exact htrc p _ h
    · exact h
  unfold Part.transportTick
  dsimp only
  rw [← hq]
  split
  · exact base
  · exact base
  · cases forward
    · exact htrc q _ base
    · exact hqualify _ (htrc q { q.trc with qualCount := qualified u q.timebase q.trc, lastTick := some q.timebase } base)
  · exact hslip _ _ (by split; exacts [playing q base, base])
  · exact hslip _ _ (by split; exacts [approaching q base, base])
  · exact winding q base
  · exact winding q base

theorem Part.takeStop_pos (u : Setup) (p : Part) : (p.takeStop u).pos = p.pos :=
  Part.takeStop_induction (Q := fun x => x.pos = p.pos) u (fun _ _ h => h) (fun e x h => (x.endOperation_pos u e).trans h) rfl

theorem Part.transportTick_pos (u : Setup) (forward : Bool) (p : Part) : (p.transportTick u forward).pos = p.pos :=
  Part.transportTick_induction (Q := fun x => x.pos = p.pos) u (fun _ _ h => h) (fun x h => x.qualify_pos.trans h)
    (fun b x h => (x.slipTick_pos u b).trans h) (fun x h => (x.enterSettling_pos u).trans h)
    (fun e x h => (x.endOperation_pos u e).trans h) forward rfl

/-- A tick leaves the position it has counted. -/
theorem Part.tick_pos (u : Setup) (phase : Phase) (now : Nat) (p : Part) : (p.tick u phase now).pos = countTick p.pos phase := by
  obtain ⟨g, hg⟩ := ({ p with pos := countTick p.pos phase }.advance now).follow_spec u
  unfold Part.tick
  dsimp only
  rw [Part.takeStop_pos, Part.transportTick_pos, hg]
  split
  · exact (Part.works_stampTick u _).pos
  · rfl

/-! ## The count -/

theorem countTick_phases (pc : PositionCounter) (phase : Phase) :
    (countTick pc phase).phase1 = (if phase = .one then !pc.phase1 else pc.phase1)
      ∧ (countTick pc phase).phase2 = (if phase = .two then !pc.phase2 else pc.phase2)
      ∧ (countTick pc phase).cassette = pc.cassette := by
  unfold countTick
  dsimp only
  cases phase <;> split <;> split <;> exact ⟨rfl, rfl, rfl⟩

theorem countTick_forward {pc : PositionCounter} {phase : Phase} (h : tickForward pc phase = true) :
    (pc.position < 16777215 → (countTick pc phase).position = pc.position + 1 ∧ (countTick pc phase).referenced = pc.referenced)
      ∧ (pc.position = 16777215 → (countTick pc phase).position = 16777215 ∧ (countTick pc phase).referenced = false) := by
  unfold countTick Config.maxPosition
  rw [h]
  constructor <;> intro hp
  · have below : pc.position ≠ 16777215 := by omega
    cases phase <;> simp [below]
  · cases phase <;> simp [hp]

theorem countTick_reverse {pc : PositionCounter} {phase : Phase} (h : tickForward pc phase = false) :
    (0 < pc.position → (countTick pc phase).position = pc.position - 1 ∧ (countTick pc phase).referenced = pc.referenced)
      ∧ (pc.position = 0 → (countTick pc phase).position = 0 ∧ (countTick pc phase).referenced = false) := by
  unfold countTick
  rw [h]
  constructor <;> intro hp
  · have above : pc.position ≠ 0 := by omega
    cases phase <;> simp [above]
  · cases phase <;> simp [hp]

/-- Settles O47: the tick's judgement keeps the count (`Part.tick_pos`), which the direction decides (`countTick_forward`,
`countTick_reverse`). -/
theorem tickCounts : Obligations.TickCounts := by
  refine ⟨fun phase now s forward hf => ?_, fun s => rfl⟩
  have direction : tickForward s.part.pos phase = forward := by
    rw [hf]
    cases phase <;> rfl
  have moves := s.part.moves_tick s.setup phase now
  refine ⟨s.onPart (Part.tick s.setup phase now), rfl, rfl, rfl, rfl, moves.osc, moves.replies, moves.link, ?_⟩
  rw [show (s.onPart (Part.tick s.setup phase now)).part.pos = countTick s.part.pos phase from s.part.tick_pos s.setup phase now]
  obtain ⟨hone, htwo, hcassette⟩ := countTick_phases s.part.pos phase
  refine ⟨hone, htwo, hcassette, fun h => ?_, fun h => ?_, fun h => ?_, fun h => ?_⟩
  · exact (countTick_forward (direction.trans h)).1
  · exact (countTick_forward (direction.trans h)).2
  · exact (countTick_reverse (direction.trans h)).1
  · exact (countTick_reverse (direction.trans h)).2

/-! ## The qualification's end and a survey's span -/

theorem Part.qualify_playing {p : Part} (hs : p.trc.state = .starting) (hq : 32 ≤ p.trc.qualCount) :
    (p.trc.op.kind = .take → p.qualify = ({ p.enterMoving .playing with
        hcr := { p.hcr with capturing := true, nextIndex := 0 } } : Part).post (.takeStarted p.take.number p.pos.position))
      ∧ (p.trc.op.kind = .survey → p.qualify = ({ p.enterMoving .playing with
        hcr := { p.hcr with capturing := true, nextIndex := 0 } } : Part).setOp { p.trc.op with surveyTicks := some 0 }) := by
  have kind : (p.enterMoving .playing).trc.op = p.trc.op := rfl
  constructor <;> intro hk <;> unfold Part.qualify <;> rw [if_pos ⟨hs, hq⟩] <;> dsimp only <;> rw [kind, hk] <;> rfl

theorem Part.qualify_none {p : Part} (h : p.trc.state ≠ .starting ∨ p.trc.qualCount < 32) : p.qualify = p := by
  unfold Part.qualify
  rw [if_neg]
  rintro ⟨hs, hq⟩
  exact h.elim (fun k => k hs) fun k => Nat.not_le_of_lt k hq

theorem Part.surveyIfCounted_done (u : Setup) {p : Part} {span ticks : Nat} (hs : p.trc.state = .playing) (hk : p.trc.op.kind = .survey)
    (hspan : p.trc.op.span = some span) (hticks : p.trc.op.surveyTicks = some ticks) (h : span ≤ ticks) :
    p.surveyIfCounted u = p.endOperation u (.term .done) := by
  unfold Part.surveyIfCounted
  simp only [hk, hspan, hticks]
  exact if_pos ⟨hs, h⟩

/-- The event that ends a running survey: what it leaves of the receiver, the trackers, the ports and take control. -/
theorem Part.endOperation_surveyed (u : Setup) (t : Termination) (p : Part) (hk : p.trc.op.kind = .survey)
    (he : p.trc.op.ending = none) : (p.endOperation u (.term t)).hcr = { p.hcr with capturing := false }
      ∧ (p.endOperation u (.term t)).msp = p.msp ∧ (p.endOperation u (.term t)).take = p.take
      ∧ ∀ l, (p.rft.get l).mode = .survey → (p.endOperation u (.term t)).rft.get l = { p.rft.get l with meas := none } := by
  obtain ⟨k, x, e, -⟩ := p.endOperation_survey u t hk he
  obtain ⟨r, e', hr⟩ := Part.surveyStop_spec { p with cmn := k, trc := x, hcr := { p.hcr with capturing := false } }
  rw [e, e']
  exact ⟨rfl, rfl, rfl, fun l hl => (hr l).trans (if_pos hl)⟩

/-- Settles O49: the qualification enters PLAYING (`Part.qualify_playing`), and a counted survey ends (`Part.endOperation_spec`,
`Part.endOperation_surveyed`). -/
theorem qualification : Obligations.Qualification := by
  refine ⟨fun s => ⟨fun hs hq => ⟨fun hk => ?_, fun hk => ?_⟩, fun h => ?_⟩, fun s l span ticks hs hk he hspan hticks hle hstop hmode => ?_⟩
  · have e := (Part.qualify_playing hs hq).1 hk
    refine ⟨_, congrArg (fun p : Part => Host.Outcome.next (s.onPart fun _ => p)) e, ?_⟩
    exact ⟨rfl, rfl, rfl, rfl, rfl, rfl, rfl, rfl, rfl, rfl, rfl⟩
  · have e := (Part.qualify_playing hs hq).2 hk
    refine ⟨_, congrArg (fun p : Part => Host.Outcome.next (s.onPart fun _ => p)) e, ?_⟩
    exact ⟨rfl, rfl, rfl, rfl⟩
  · exact congrArg (fun p : Part => Host.Outcome.next (s.onPart fun _ => p)) (Part.qualify_none h)
  · have kind : s.part.trc.op.kind ≠ .none := by rw [hk]; nofun
    have ends := Part.surveyIfCounted_done s.setup hs hk hspan hticks hle
    obtain ⟨hstate, hop, -, htimer, -⟩ := s.part.endOperation_spec s.setup (.term .done) kind he
    obtain ⟨hhcr, hmsp, htake, hrft⟩ := s.part.endOperation_surveyed s.setup .done hk he
    refine ⟨_, congrArg (fun p : Part => Host.Outcome.next (s.onPart fun _ => p))
      ((congrArg (Part.takeStop s.setup) ends).trans (s.part.takeStop_endOperation s.setup _ kind he)), ?_⟩
    exact ⟨hstate, htimer (by rw [hs]; nofun), hop, hhcr, hrft l hmode, hmsp, htake⟩

end Sys2Proof.Machine
end

section
/-! SUPPORT. A tick's judgement (01, R13, R17; 02, R24 to R30, R35, R36): the part the Transport Controller meets, what it does
in each state, and what the stop request of the same event can still do. -/

namespace Sys2Proof.Machine

open Sys2Proof.Safety

theorem PerLane.eq_of_get {α : Type} {x y : PerLane α} (h : ∀ l, x.get l = y.get l) : x = y := by
  have ha := h .a
  have hb := h .b
  cases x
  cases y
  exact congrArg₂ PerLane.mk ha hb

theorem PerTrack.eq_of_get {α : Type} {x y : PerTrack α} (h : ∀ t, x.get t = y.get t) : x = y := by
  have h1 := h .t1
  have h2 := h .t2
  have h3 := h .t3
  have h4 := h .t4
  cases x
  cases y
  simp only [PerTrack.get] at h1 h2 h3 h4
  rw [h1, h2, h3, h4]

/-! ## The part the Transport Controller meets -/

/-- The part after the count, at the tick's time, its current entry following outside a take (01, R13; 03, R51). -/
def Part.ticked (u : Setup) (phase : Phase) (now : Nat) (p : Part) : Part :=
  ({ p with pos := countTick p.pos phase }.advance now).follow u

/-- The part the Transport Controller meets: a forward tick of a capture has been stamped (01, R17). -/
def Part.heard (u : Setup) (phase : Phase) (now : Nat) (p : Part) : Part :=
  if tickForward p.pos phase then (p.ticked u phase now).stampTick u else p.ticked u phase now

theorem Part.tick_eq (u : Setup) (phase : Phase) (now : Nat) (p : Part) :
    p.tick u phase now = ((p.heard u phase now).transportTick u (tickForward p.pos phase)).takeStop u := rfl

theorem Part.ticked_spec (u : Setup) (phase : Phase) (now : Nat) (p : Part) : ∃ g,
    p.ticked u phase now = { p with pos := countTick p.pos phase, timebase := max p.timebase now, sgt := g } :=
  ({ p with pos := countTick p.pos phase }.advance now).follow_spec u

/-- What a stamped tick leaves beside what `Part.stampTick_keeps` says. -/
theorem Part.stampTick_rest (u : Setup) (p : Part) : ((p.stampTick u).aza = p.aza ∧ (p.stampTick u).con = p.con
      ∧ (p.stampTick u).take = p.take ∧ (p.stampTick u).pos = p.pos ∧ (p.stampTick u).cmn.slip = p.cmn.slip)
    ∧ (framesNeverStop u → (p.stampTick u).stopPending = p.stopPending) := by
  unfold Part.stampTick
  split
  · have a := p.tracks_trackerTick u (256 * (p.hcr.nextIndex - 1)) (p.hcr.nextIndex - 1) .a
    have b := (p.trackerTick u (256 * (p.hcr.nextIndex - 1)) (p.hcr.nextIndex - 1) .a).tracks_trackerTick u
      (256 * (p.hcr.nextIndex - 1)) (p.hcr.nextIndex - 1) .b
    exact ⟨⟨b.aza.trans a.aza, b.con.trans a.con, b.take.trans a.take, b.pos.trans a.pos,
      (b.cmn .slip nofun nofun).trans (a.cmn .slip nofun nofun)⟩, fun h => (b.stop h).trans (a.stop h)⟩
  · exact ⟨⟨rfl, rfl, rfl, rfl, rfl⟩, fun _ => rfl⟩

/-- q is p with the tick counted and timed, and nothing else moved of what the Transport Controller reads. -/
structure Part.TickMet (u : Setup) (phase : Phase) (now : Nat) (p q : Part) : Prop where
  hcr : q.hcr = p.hcr
  trc : q.trc = p.trc
  timebase : q.timebase = max p.timebase now
  pos : q.pos = countTick p.pos phase
  aza : q.aza = p.aza
  con : q.con = p.con
  take : q.take = p.take
  mode : ∀ l, (q.rft.get l).mode = (p.rft.get l).mode
  slip : q.cmn.slip = p.cmn.slip
  stop : framesNeverStop u → q.stopPending = p.stopPending

theorem Part.heard_met (u : Setup) (phase : Phase) (now : Nat) (p : Part) : p.TickMet u phase now (p.heard u phase now) := by
  obtain ⟨g, e⟩ := p.ticked_spec u phase now
  have base : p.TickMet u phase now (p.ticked u phase now) := by
    rw [e]
    exact ⟨rfl, rfl, rfl, rfl, rfl, rfl, rfl, fun _ => rfl, rfl, fun _ => rfl⟩
  unfold Part.heard
  split
  · obtain ⟨hhcr, htrc, htime, hmode⟩ := (p.ticked u phase now).stampTick_keeps u
    obtain ⟨⟨haza, hcon, htake, hpos, hslip⟩, hstop⟩ := (p.ticked u phase now).stampTick_rest u
    exact ⟨hhcr.trans base.hcr, htrc.trans base.trc, htime.trans base.timebase, hpos.trans base.pos, haza.trans base.aza,
      hcon.trans base.con, htake.trans base.take, fun l => (hmode l).trans (base.mode l), hslip.trans base.slip,
      fun h => (hstop h).trans (base.stop h)⟩
  · exact base

/-- Trackers that work in no take make no stop request of a tick. -/
theorem Part.heard_stopPending (u : Setup) (phase : Phase) (now : Nat) (p : Part) (h : ∀ l, (p.rft.get l).mode ≠ .take) :
    (p.heard u phase now).stopPending = p.stopPending := by
  obtain ⟨g, e⟩ := p.ticked_spec u phase now
  have base : (p.ticked u phase now).stopPending = p.stopPending := by rw [e]
  have modes : ∀ l, ((p.ticked u phase now).rft.get l).mode ≠ .take := by rw [e]; exact h
  obtain ⟨r, e'⟩ := (p.ticked u phase now).stampTick_apart u modes
  unfold Part.heard
  split
  · rw [e']
    exact base
  · exact base

/-! ## The stop request after the judgement -/

theorem Part.stopDropped (p : Part) (h : p.stopPending = false) : p = { p with stopPending := false } := by
  rw [← h]

/-- The stop request of an event drops, or ends the operation that ran. -/
theorem Part.takeStop_cases (u : Setup) (p : Part) : p.takeStop u = { p with stopPending := false }
    ∨ p.trc.op.ending = none ∧ (p.takeStop u).trc.op.ending ≠ none ∧ (p.takeStop u).trc.state = .settling := by
  unfold Part.takeStop Part.stopRequest
  split
  · split
    · rename_i hk
      have kind : p.trc.op.kind ≠ .none := by
        rcases hk.1 with h | h <;> rw [h] <;> nofun
      unfold Part.endAs
      by_cases he : p.trc.op.ending = none
      · obtain ⟨hstate, hop, -⟩ := Part.endOperation_spec u (if p.trc.op.kind = .take then .cause .condition else .term .condition)
          { p with stopPending := false } kind he
        refine .inr ⟨he, ?_, hstate⟩
        dsimp only
        rw [hop]
        nofun
      · left
        rw [Part.endOperation_none u _ { p with stopPending := false } (.inr he)]
    · exact .inl rfl
  · rename_i h
    exact .inl (p.stopDropped (Bool.eq_false_of_not_eq_true h))

/-- A stop request ends no wind, seek or rewind (02, R38). -/
theorem Part.takeStop_spared (u : Setup) (p : Part) (ht : p.trc.op.kind ≠ .take) (hs : p.trc.op.kind ≠ .survey) :
    p.takeStop u = { p with stopPending := false } := by
  unfold Part.takeStop Part.stopRequest
  split
  · rw [if_neg]
    exact fun h => h.1.elim ht hs
  · rename_i h
    exact p.stopDropped (Bool.eq_false_of_not_eq_true h)

/-! ## The Transport Controller's tick, state by state -/

/-- The stall timer starts afresh at a tick in motion (02, R35). -/
def Part.stallTimed (p : Part) : Part := { p with trc := { p.trc with stallTimer := some p.timebase } }

theorem Part.transportTick_playing (u : Setup) (forward : Bool) {p : Part} (h : p.trc.state = .playing) :
    p.transportTick u forward = (if forward then p.stallTimed.playingTick u else p.stallTimed).slipTick u forward := by
  unfold Part.transportTick
  simp [h, TransportState.moving, Part.stallTimed]

theorem Part.transportTick_approaching (u : Setup) (forward : Bool) {p : Part} (h : p.trc.state = .approaching) :
    p.transportTick u forward = (if forward then p.stallTimed.approachingTick u else p.stallTimed).slipTick u forward := by
  unfold Part.transportTick
  simp [h, TransportState.moving, Part.stallTimed]

theorem Part.transportTick_winding (u : Setup) (forward : Bool) {p : Part}
    (h : p.trc.state = .windingFwd ∨ p.trc.state = .windingRev) : p.transportTick u forward = p.stallTimed.windingTick u := by
  unfold Part.transportTick
  rcases h with h | h <;> simp [h, TransportState.moving, Part.stallTimed]

theorem Part.heard_timed (u : Setup) (phase : Phase) (now : Nat) (p : Part) :
    (p.heard u phase now).stallTimed.trc = { p.trc with stallTimer := some (max p.timebase now) } := by
  have met := p.heard_met u phase now
  unfold Part.stallTimed
  rw [met.trc, met.timebase]

/-- The slip monitor runs in PLAYING and APPROACHING alone (02, R36). -/
theorem Part.slipTick_settling (u : Setup) (forward : Bool) {p : Part} (h : p.trc.state = .settling) : p.slipTick u forward = p := by
  obtain ⟨-, -, -, -, -, -, -, still⟩ := p.slipTick_spec u forward
  exact still (by rw [h]; rfl)

/-- An ending by the tick itself: the slip monitor stands still, and a stop request of the same event is dropped. -/
theorem Part.ended_slipTick (u : Setup) (forward : Bool) (e : Ending) {p : Part} (hk : p.trc.op.kind ≠ .none)
    (he : p.trc.op.ending = none) :
    ((p.endOperation u e).slipTick u forward).takeStop u = { p.endOperation u e with stopPending := false } := by
  rw [Part.slipTick_settling u forward (p.endOperation_spec u e hk he).1]
  exact p.takeStop_endOperation u e hk he

/-! ## The end of a take at its end position (02, R26) -/

theorem Part.playingTick_take (u : Setup) {p : Part} {e : Nat} (hk : p.trc.op.kind = .take) (he : p.trc.op.endPosition = some e)
    (h : e ≤ p.pos.position) : p.playingTick u = p.endOperation u (.cause .endPosition) := by
  unfold Part.playingTick
  simp only [hk, he]
  exact if_pos h

theorem Part.playingTick_endless (u : Setup) {p : Part} (hk : p.trc.op.kind = .take) (he : p.trc.op.endPosition = none) :
    p.playingTick u = p := by
  unfold Part.playingTick
  simp only [hk, he]

theorem Part.tick_reached (u : Setup) {phase : Phase} {now : Nat} {p : Part} {e : Nat} (hf : tickForward p.pos phase = true)
    (hs : p.trc.state = .playing) (hk : p.trc.op.kind = .take) (he : p.trc.op.ending = none) (hend : p.trc.op.endPosition = some e)
    (hle : e ≤ (countTick p.pos phase).position) :
    p.tick u phase now = { (p.heard u phase now).stallTimed.endOperation u (.cause .endPosition) with stopPending := false } := by
  have met := p.heard_met u phase now
  obtain ⟨q, hq⟩ : ∃ q, q = p.heard u phase now := ⟨_, rfl⟩
  rw [← hq] at met
  rw [p.tick_eq, ← hq, hf, Part.transportTick_playing u true (met.trc ▸ hs), if_pos rfl]
  have kind : q.stallTimed.trc.op.kind = .take := (congrArg (fun t : Transport => t.op.kind) met.trc).trans hk
  have ending : q.stallTimed.trc.op.ending = none := (congrArg (fun t : Transport => t.op.ending) met.trc).trans he
  rw [Part.playingTick_take u kind ((congrArg (fun t : Transport => t.op.endPosition) met.trc).trans hend)
    (show e ≤ q.pos.position by rw [met.pos]; exact hle)]
  exact Part.ended_slipTick u true _ (by rw [kind]; nofun) ending

/-- The same tick on a take that has no end position leaves, while it ends nothing, all that the end of the take reads and keeps. -/
structure Part.EndReads (p q : Part) : Prop where
  agree : q.rft = p.rft ∧ q.lanes = p.lanes ∧ q.aza = p.aza ∧ q.pos.position = p.pos.position ∧ q.det = p.det ∧ q.con = p.con
    ∧ q.take.record = p.take.record ∧ q.hcr.nextIndex = p.hcr.nextIndex
  queue : ∀ l, queued (lockKind l) q.msp.notices = queued (lockKind l) p.msp.notices

theorem Part.EndReads.trans {p q r : Part} (h : p.EndReads q) (k : q.EndReads r) : p.EndReads r := by
  obtain ⟨h1, h2, h3, h4, h5, h6, h7, h8⟩ := h.agree
  obtain ⟨k1, k2, k3, k4, k5, k6, k7, k8⟩ := k.agree
  exact ⟨⟨k1.trans h1, k2.trans h2, k3.trans h3, k4.trans h4, k5.trans h5, k6.trans h6, k7.trans h7, k8.trans h8⟩,
    fun l => (k.queue l).trans (h.queue l)⟩

/-- What a tick makes of the trackers, lanes and detectors does not depend on the transport. -/
theorem Part.heard_transport (u : Setup) (phase : Phase) (now : Nat) (t : Transport) (p : Part) :
    ({ p with trc := t }.heard u phase now).EndReads (p.heard u phase now) := by
  obtain ⟨x, hx⟩ : ∃ x : Part, x = { p with trc := t } := ⟨_, rfl⟩
  obtain ⟨g, e⟩ := p.ticked_spec u phase now
  obtain ⟨g', e'⟩ := x.ticked_spec u phase now
  have met := p.heard_met u phase now
  have met' := x.heard_met u phase now
  have ticked (l : Lane) : (x.ticked u phase now).Hears l (p.ticked u phase now) := by
    rw [e, e', hx]
    exact ⟨rfl, rfl, fun _ _ => rfl, fun _ _ => rfl, rfl, rfl, rfl⟩
  have hears (l : Lane) : (x.heard u phase now).Hears l (p.heard u phase now) := by
    have same : tickForward x.pos phase = tickForward p.pos phase := by rw [hx]
    unfold Part.heard
    rw [same]
    split
    · exact (ticked l).stampTick u
    · exact ticked l
  rw [← hx]
  refine ⟨⟨PerLane.eq_of_get fun l => (hears l).rft, PerLane.eq_of_get fun l => (hears l).lanes, ?_, ?_,
    PerTrack.eq_of_get fun tr => (hears tr.lane).det tr rfl, ?_, ?_, ?_⟩, fun l => (hears l).queue⟩
  · rw [met.aza, met'.aza, hx]
  · rw [met.pos, met'.pos, hx]
  · rw [met.con, met'.con, hx]
  · rw [met.take, met'.take, hx]
  · rw [met.hcr, met'.hcr, hx]

theorem Part.tick_endless (u : Setup) {phase : Phase} {now : Nat} {p : Part} (hf : tickForward p.pos phase = true)
    (hs : p.trc.state = .playing) (hk : p.trc.op.kind = .take) (he : p.trc.op.endPosition = none)
    (hending : (p.tick u phase now).trc.op.ending = none) : (p.tick u phase now).EndReads (p.heard u phase now).stallTimed := by
  have met := p.heard_met u phase now
  obtain ⟨q, hq⟩ : ∃ q, q = (p.heard u phase now).stallTimed := ⟨_, rfl⟩
  have op : q.trc.op = p.trc.op := by rw [hq, p.heard_timed]
  have judged : (p.heard u phase now).transportTick u true = q.slipTick u true := by
    rw [Part.transportTick_playing u true (met.trc ▸ hs), if_pos rfl, ← hq, Part.playingTick_endless u (by rw [op, hk]) (by rw [op, he])]
  have whole : p.tick u phase now = (q.slipTick u true).takeStop u := by rw [p.tick_eq, hf, judged]
  obtain ⟨c, b, m, w, n, slipped, -⟩ := q.slipTick_spec u true
  have dropped : p.tick u phase now = { q.slipTick u true with stopPending := false } := by
    rw [whole] at hending ⊢
    exact ((q.slipTick u true).takeStop_cases u).resolve_right fun h => h.2.1 hending
  have queue (l : Lane) : queued (lockKind l) q.msp.notices = queued (lockKind l) m := by
    rcases q.stays_slipTick u true with h | h
    · rw [slipped] at h
      exact absurd h.1 h.2
    · have same := h.queue l
      rw [slipped] at same
      exact same.symm
  rw [← hq, dropped, slipped]
  exact ⟨⟨rfl, rfl, rfl, rfl, rfl, rfl, rfl, rfl⟩, queue⟩

/-- A take that its own tick ends is torn down on the part that tick has stamped. -/
theorem Part.tick_torn (u : Setup) {phase : Phase} {now : Nat} {p : Part} {e : Nat} (hf : tickForward p.pos phase = true)
    (hs : p.trc.state = .playing) (hk : p.trc.op.kind = .take) (he : p.trc.op.ending = none) (hend : p.trc.op.endPosition = some e)
    (hle : e ≤ (countTick p.pos phase).position) (x : Part)
    (hx : x = { p with trc := { p.trc with op := { p.trc.op with endPosition := none } } })
    (hending : (x.tick u phase now).trc.op.ending = none) (l : Lane) : Part.tornDown u l (x.tick u phase now) (p.tick u phase now) := by
  have met := p.heard_met u phase now
  have reads : (x.tick u phase now).EndReads (p.heard u phase now).stallTimed := by
    have first := Part.tick_endless (p := x) u (phase := phase) (now := now) (by rw [hx]; exact hf) (by rw [hx]; exact hs)
      (by rw [hx]; exact hk) (by rw [hx]) hending
    have moved := p.heard_transport u phase now { p.trc with op := { p.trc.op with endPosition := none } }
    rw [← hx] at moved
    exact first.trans ⟨moved.agree, moved.queue⟩
  rw [Part.tick_reached u hf hs hk he hend hle]
  exact Part.endOperation_torn u .endPosition l _ (p.heard u phase now).stallTimed
    ((congrArg (fun t : Transport => t.op.kind) met.trc).trans hk) ((congrArg (fun t : Transport => t.op.ending) met.trc).trans he)
    reads.agree (reads.queue l)

/-! ## The qualification in STARTING (02, R24) -/

theorem Part.starting_idle {p : Part} (h : Part.playLegal p) (hs : p.trc.state = .starting) :
    p.hcr.capturing = false ∧ (p.trc.op.kind = .take ∨ p.trc.op.kind = .survey) := by
  obtain ⟨-, hplays, -, -, hcapturing, -⟩ := h
  refine ⟨Bool.eq_false_of_not_eq_true fun h => ?_, (hplays.mp (.inl hs)).1⟩
  exact absurd (hs.symm.trans (hcapturing h)) nofun

/-- A forward tick in STARTING: the count and the interval it starts, then the qualification. -/
theorem Part.tick_qualifies (u : Setup) {phase : Phase} {now : Nat} {p : Part} (hf : tickForward p.pos phase = true)
    (hs : p.trc.state = .starting) (hc : p.hcr.capturing = false) (hstop : p.stopPending = false) (ht : p.timebase ≤ now) : ∃ g q,
    q = { p with pos := countTick p.pos phase, timebase := now, sgt := g,
                 trc := { p.trc with stallTimer := some now, qualCount := qualified u now p.trc, lastTick := some now } }
      ∧ p.tick u phase now = q.qualify := by
  obtain ⟨g, e⟩ := p.tick_starting u phase now hs hc ht
  refine ⟨g, _, rfl, ?_⟩
  rw [e, hf, Part.startingTick_forward]
  exact Part.takeStop_none u ((Part.qualify_keeps _ rfl).1.trans hstop)

/-- A reverse tick in STARTING clears the count and starts no interval. -/
theorem Part.tick_disqualifies (u : Setup) {phase : Phase} {now : Nat} {p : Part} (hf : tickForward p.pos phase = false)
    (hs : p.trc.state = .starting) (hc : p.hcr.capturing = false) (hstop : p.stopPending = false) (ht : p.timebase ≤ now) : ∃ g,
    p.tick u phase now = { p with pos := countTick p.pos phase, timebase := now, sgt := g,
                                  trc := { p.trc with stallTimer := some now, qualCount := 0, lastTick := none } } := by
  obtain ⟨g, e⟩ := p.tick_starting u phase now hs hc ht
  refine ⟨g, ?_⟩
  rw [e, hf]
  exact Part.takeStop_none u hstop

theorem qualified_none {u : Setup} {now : Nat} {t : Transport} (h : t.lastTick = none) : qualified u now t = t.qualCount := by
  unfold qualified
  rw [h]

theorem qualified_some {u : Setup} {now last : Nat} {t : Transport} (h : t.lastTick = some last) : qualified u now t
    = if (((now - last : Nat) : Int) - (16000000 / u.deck.tickRate : Nat)).natAbs * 10 ≤ 16000000 / u.deck.tickRate then t.qualCount + 1
      else 0 := by
  unfold qualified withinTolerance nominalInterval
  simp only [h, decide_eq_true_eq]

/-- What a forward tick makes of a STARTING transport, by the count it comes to. -/
theorem Part.tick_starts (u : Setup) {phase : Phase} {now : Nat} {p t : Part} (ht : t = p.tick u phase now)
    (hf : tickForward p.pos phase = true) (hlegal : Part.playLegal p) (hs : p.trc.state = .starting) (hstop : p.stopPending = false)
    (hnow : p.timebase ≤ now) {count : Nat} (hcount : count = qualified u now p.trc) :
    t.trc.stallTimer = some now ∧ t.trc.lastTick = some now ∧ t.trc.qualCount = count
      ∧ (count < 32 → t.trc.state = .starting ∧ t.trc.op = p.trc.op ∧ t.hcr = p.hcr ∧ t.msp = p.msp)
      ∧ (32 ≤ count → t.trc.state = .playing ∧ t.trc.slipWindow = none ∧ t.trc.slipLow = 0
        ∧ t.hcr = { p.hcr with capturing := true, nextIndex := 0 }
        ∧ (p.trc.op.kind = .take → t.trc.op = p.trc.op
          ∧ t.msp = { p.msp with notices := postNotice (.takeStarted p.take.number t.pos.position) p.msp.notices })
        ∧ (p.trc.op.kind = .survey → t.trc.op = { p.trc.op with surveyTicks := some 0 } ∧ t.msp = p.msp)) := by
  obtain ⟨hc, hkind⟩ := Part.starting_idle hlegal hs
  obtain ⟨g, q, hq, e⟩ := Part.tick_qualifies u hf hs hc hstop hnow
  rw [e] at ht
  have timed : q.trc.stallTimer = some q.timebase := by rw [hq]
  obtain ⟨-, hstall, hlast, hqual⟩ := q.qualify_keeps timed
  have counted : q.trc.qualCount = count := by rw [hq, hcount]
  have starting : q.trc.state = .starting := by rw [hq]; exact hs
  rw [ht, hstall, hlast, hqual]
  refine ⟨by rw [hq], by rw [hq], counted, fun hlt => ?_, fun hle => ?_⟩
  · rw [Part.qualify_none (.inr (by rw [counted]; exact hlt))]
    exact ⟨starting, by rw [hq], by rw [hq], by rw [hq]⟩
  · obtain ⟨take, survey⟩ := Part.qualify_playing starting (by rw [counted]; exact hle)
    have kind : q.trc.op.kind = p.trc.op.kind := by rw [hq]
    rcases hkind with hk | hk
    · rw [take (kind.trans hk), hq]
      exact ⟨rfl, rfl, rfl, rfl, fun _ => ⟨rfl, rfl⟩, fun h => absurd (hk.symm.trans h) nofun⟩
    · rw [survey (kind.trans hk), hq]
      exact ⟨rfl, rfl, rfl, rfl, fun h => absurd (hk.symm.trans h) nofun, fun _ => ⟨rfl, rfl⟩⟩

/-! ## A survey's ticks in PLAYING (02, R26) -/

/-- A survey with one more tick counted. -/
def Part.surveyed (p : Part) : Part := p.setOp { p.trc.op with surveyTicks := p.trc.op.surveyTicks.map (· + 1) }

theorem Part.playingTick_survey (u : Setup) {p : Part} (hk : p.trc.op.kind = .survey) :
    p.playingTick u = p.surveyed.surveyIfCounted u := by
  unfold Part.playingTick Part.surveyed
  simp only [hk]

theorem Part.surveyIfCounted_early (u : Setup) {p : Part} {span ticks : Nat} (hspan : p.trc.op.span = some span)
    (hticks : p.trc.op.surveyTicks = some ticks) (h : ticks < span) : p.surveyIfCounted u = p := by
  unfold Part.surveyIfCounted
  split
  · rename_i hspan' hticks'
    rw [hspan] at hspan'
    rw [hticks] at hticks'
    cases hspan'
    cases hticks'
    exact if_neg fun k => Nat.not_le_of_lt h k.2
  · rfl

theorem Part.surveyed_ticks {p : Part} {ticks : Nat} (h : p.trc.op.surveyTicks = some ticks) :
    p.surveyed.trc.op = { p.trc.op with surveyTicks := some (ticks + 1) } := by
  unfold Part.surveyed
  rw [h]
  rfl

/-- A forward tick that brings a survey to its span ends it DONE. -/
theorem Part.tick_spanned (u : Setup) {phase : Phase} {now span ticks : Nat} {p t : Part} (ht : t = p.tick u phase now)
    (hf : tickForward p.pos phase = true) (hs : p.trc.state = .playing) (hk : p.trc.op.kind = .survey) (he : p.trc.op.ending = none)
    (hspan : p.trc.op.span = some span) (hticks : p.trc.op.surveyTicks = some ticks) (h : span ≤ ticks + 1) :
    t.trc.state = .settling ∧ t.trc.settleTimer = some (max p.timebase now)
      ∧ t.trc.op = { p.trc.op with surveyTicks := some (ticks + 1), phase := none, ending := some (.term .done) }
      ∧ t.hcr = { p.hcr with capturing := false } ∧ ∀ l, (p.rft.get l).mode = .survey → (t.rft.get l).meas = none := by
  have met := p.heard_met u phase now
  obtain ⟨x, hx⟩ : ∃ x, x = p.heard u phase now := ⟨_, rfl⟩
  obtain ⟨q, hq⟩ : ∃ q, q = x.stallTimed.surveyed := ⟨_, rfl⟩
  rw [← hx] at met
  have op : q.trc.op = { p.trc.op with surveyTicks := some (ticks + 1) } := by
    have timed : x.stallTimed.trc.op = p.trc.op := by rw [hx, p.heard_timed]
    rw [hq, Part.surveyed_ticks (by rw [timed]; exact hticks), timed]
  have state : q.trc.state = .playing := by
    rw [hq]
    exact (congrArg Transport.state met.trc).trans hs
  have kind : q.trc.op.kind = .survey := by rw [op]; exact hk
  have ending : q.trc.op.ending = none := by rw [op]; exact he
  have whole : p.tick u phase now = { q.endOperation u (.term .done) with stopPending := false } := by
    rw [p.tick_eq, ← hx, hf, Part.transportTick_playing u true (met.trc ▸ hs), if_pos rfl,
      Part.playingTick_survey u (p := x.stallTimed) ((congrArg (fun t : Transport => t.op.kind) met.trc).trans hk), ← hq,
      Part.surveyIfCounted_done u state kind (by rw [op]; exact hspan) (by rw [op]) h]
    exact Part.ended_slipTick u true _ (by rw [kind]; nofun) ending
  obtain ⟨hsettling, hop, -, htimer, -⟩ := q.endOperation_spec u (.term .done) (by rw [kind]; nofun) ending
  obtain ⟨hhcr, -, -, hrft⟩ := q.endOperation_surveyed u .done kind ending
  have time : q.timebase = max p.timebase now := by rw [hq]; exact met.timebase
  have hcr : q.hcr = p.hcr := by rw [hq]; exact met.hcr
  rw [ht, whole]
  refine ⟨hsettling, (htimer (by rw [state]; nofun)).trans (by rw [time]), hop.trans (by rw [op]), hhcr.trans (by rw [hcr]), fun l hl => ?_⟩
  have mode : (q.rft.get l).mode = .survey := by
    rw [hq]
    exact (met.mode l).trans hl
  exact (congrArg Tracker.meas (hrft l mode)).trans rfl

/-- A tick of a survey that counts on, or comes in reverse, leaves it PLAYING. -/
theorem Part.tick_surveying (u : Setup) {phase : Phase} {now span ticks : Nat} {p t : Part} (ht : t = p.tick u phase now)
    (hs : p.trc.state = .playing) (hk : p.trc.op.kind = .survey) (hspan : p.trc.op.span = some span)
    (hticks : p.trc.op.surveyTicks = some ticks) (hstop : p.stopPending = false) (hmodes : ∀ l, (p.rft.get l).mode ≠ .take)
    (hslip : neverStops u.policies.slip ∨ ∀ w, p.trc.slipWindow = some w → w.ticks + 1 < 64)
    (h : tickForward p.pos phase = true → ticks + 1 < span) :
    t.trc.state = .playing ∧ t.hcr = p.hcr ∧ t.trc.op = if tickForward p.pos phase then { p.trc.op with surveyTicks := some (ticks + 1) }
      else p.trc.op := by
  have met := p.heard_met u phase now
  obtain ⟨x, hx⟩ : ∃ x, x = p.heard u phase now := ⟨_, rfl⟩
  rw [← hx] at met
  obtain ⟨q, hq⟩ : ∃ q, q = if tickForward p.pos phase then x.stallTimed.surveyed else x.stallTimed := ⟨_, rfl⟩
  have timed : x.stallTimed.trc.op = p.trc.op := by rw [hx, p.heard_timed]
  have counted := Part.surveyed_ticks (p := x.stallTimed) (by rw [timed]; exact hticks)
  have judged : x.transportTick u (tickForward p.pos phase) = q.slipTick u (tickForward p.pos phase) := by
    rw [Part.transportTick_playing u _ (met.trc ▸ hs), hq]
    congr 1
    split
    · rename_i hf
      rw [Part.playingTick_survey u (by rw [timed]; exact hk)]
      exact Part.surveyIfCounted_early u (by rw [counted, timed]; exact hspan) (by rw [counted]) (h hf)
    · rfl
  have fields : q.trc.state = .playing ∧ q.hcr = p.hcr ∧ q.stopPending = false ∧ q.trc.slipWindow = p.trc.slipWindow
      ∧ q.trc.op = if tickForward p.pos phase then { p.trc.op with surveyTicks := some (ticks + 1) } else p.trc.op := by
    have base : x.trc.state = .playing ∧ x.hcr = p.hcr ∧ x.stopPending = false ∧ x.trc.slipWindow = p.trc.slipWindow :=
      ⟨(congrArg Transport.state met.trc).trans hs, met.hcr, by rw [hx]; exact (p.heard_stopPending u phase now hmodes).trans hstop,
        congrArg Transport.slipWindow met.trc⟩
    obtain ⟨b1, b2, b3, b4⟩ := base
    rw [hq]
    split
    · exact ⟨b1, b2, b3, b4, counted.trans (by rw [timed])⟩
    · exact ⟨b1, b2, b3, b4, timed⟩
  obtain ⟨state, hcr, stop, window, op⟩ := fields
  obtain ⟨c, b, m, w, n, slipped, hb, -⟩ := q.slipTick_spec u (tickForward p.pos phase)
  have pending : (q.slipTick u (tickForward p.pos phase)).stopPending = false := by
    rw [slipped]
    exact (hb (by rw [window]; exact hslip)).trans stop
  rw [ht, p.tick_eq, ← hx, judged, Part.takeStop_none u pending, slipped]
  exact ⟨state, hcr, op⟩

/-! ## The phases of a SEEK (02, R29, R30) -/

/-- A tick of a SEEK's wind: at the wind point the transport settles, and elsewhere it winds on. -/
theorem Part.tick_winding (u : Setup) {phase : Phase} {now point : Nat} {p t : Part} (ht : t = p.tick u phase now)
    (hk : p.trc.op.kind = .seek) (hpoint : p.trc.op.windPoint = some point)
    (hs : p.trc.state = .windingFwd ∨ p.trc.state = .windingRev) {reached : Prop}
    (hr : reached ↔ p.trc.state = .windingFwd ∧ point ≤ t.pos.position ∨ p.trc.state = .windingRev ∧ t.pos.position ≤ point) :
    (reached → t.trc.state = .settling ∧ t.trc.settleTimer = some (max p.timebase now)
      ∧ t.trc.op = { p.trc.op with phase := some .settle })
    ∧ (¬reached → t.trc.state = p.trc.state ∧ t.trc.op = p.trc.op) := by
  have met := p.heard_met u phase now
  obtain ⟨q, hq⟩ : ∃ q, q = (p.heard u phase now).stallTimed := ⟨_, rfl⟩
  have pos : t.pos = q.pos := by rw [ht, p.tick_pos, hq]; exact met.pos.symm
  have state : q.trc.state = p.trc.state := by rw [hq, p.heard_timed]
  have op : q.trc.op = p.trc.op := by rw [hq, p.heard_timed]
  have time : q.timebase = max p.timebase now := by rw [hq]; exact met.timebase
  have whole : t = (q.windingTick u).takeStop u := by
    rw [ht, p.tick_eq, Part.transportTick_winding u _ (by rw [met.trc]; exact hs), hq]
  rw [pos, ← state] at hr
  have windingTick : q.windingTick u = if (q.trc.state = .windingFwd ∧ point ≤ q.pos.position)
      ∨ (q.trc.state = .windingRev ∧ q.pos.position ≤ point) then
        (q.setOp { q.trc.op with phase := some .settle }).enterSettling u else q := by
    unfold Part.windingTick
    simp only [op, hk, hpoint]
  have seek (x : Part) (h : x.trc.op.kind = .seek) : x.takeStop u = { x with stopPending := false } :=
    x.takeStop_spared u (by rw [h]; nofun) (by rw [h]; nofun)
  constructor <;> intro h
  · rw [if_pos (hr.mp h), op] at windingTick
    obtain ⟨c, e, -⟩ := (q.setOp { p.trc.op with phase := some .settle }).enterSettling_exact u (by
      show q.trc.state ≠ .settling
      rw [state]
      rcases hs with h | h <;> rw [h] <;> nofun)
    rw [e] at windingTick
    have kind : (q.windingTick u).trc.op.kind = .seek := by rw [windingTick]; exact hk
    rw [whole, seek _ kind, windingTick]
    exact ⟨rfl, congrArg some time, rfl⟩
  · rw [if_neg (hr.not.mp h)] at windingTick
    rw [whole, windingTick, seek q (by rw [op]; exact hk)]
    exact ⟨state, op⟩

/-- A tick of a SEEK's approach: a forward tick at the target ends it DONE, and any other leaves it approaching. -/
theorem Part.tick_approaching (u : Setup) {phase : Phase} {now target : Nat} {p t : Part} (ht : t = p.tick u phase now)
    (hk : p.trc.op.kind = .seek) (he : p.trc.op.ending = none) (htarget : p.trc.op.target = some target)
    (hs : p.trc.state = .approaching) :
    (tickForward p.pos phase = true → target ≤ t.pos.position → t.trc.state = .settling
      ∧ t.trc.op = { p.trc.op with phase := none, ending := some (.term .done) })
    ∧ (tickForward p.pos phase = false ∨ t.pos.position < target → t.trc.state = .approaching ∧ t.trc.op = p.trc.op) := by
  have met := p.heard_met u phase now
  obtain ⟨q, hq⟩ : ∃ q, q = (p.heard u phase now).stallTimed := ⟨_, rfl⟩
  have pos : t.pos = q.pos := by rw [ht, p.tick_pos, hq]; exact met.pos.symm
  have state : q.trc.state = .approaching := by rw [hq]; exact (congrArg Transport.state met.trc).trans hs
  have op : q.trc.op = p.trc.op := by rw [hq, p.heard_timed]
  have approachingTick : q.approachingTick u = if target ≤ q.pos.position then q.endOperation u (.term .done) else q := by
    unfold Part.approachingTick
    simp only [op, hk, htarget]
  have whole : t = Part.takeStop u ((if tickForward p.pos phase then q.approachingTick u else q).slipTick u (tickForward p.pos phase)) := by
    rw [ht, p.tick_eq, Part.transportTick_approaching u _ (by rw [met.trc]; exact hs), hq]
  rw [pos]
  constructor
  · intro hf h
    have kind : q.trc.op.kind ≠ .none := by rw [op, hk]; nofun
    have ending : q.trc.op.ending = none := by rw [op]; exact he
    obtain ⟨hsettling, hop, -⟩ := q.endOperation_spec u (.term .done) kind ending
    rw [whole, hf, if_pos rfl, approachingTick, if_pos h, Part.ended_slipTick u true _ kind ending]
    exact ⟨hsettling, hop.trans (by rw [op])⟩
  · intro h
    have early : (if tickForward p.pos phase then q.approachingTick u else q) = q := by
      split
      · rename_i hf
        rw [approachingTick, if_neg (Nat.not_le_of_lt (h.resolve_left (by rw [hf]; nofun)))]
      · rfl
    obtain ⟨c, b, m, w, n, slipped, -⟩ := q.slipTick_spec u (tickForward p.pos phase)
    have kind : (q.slipTick u (tickForward p.pos phase)).trc.op.kind = .seek := by
      rw [slipped]
      exact (congrArg OpRecord.kind op).trans hk
    rw [whole, early, Part.takeStop_spared u _ (by rw [kind]; nofun) (by rw [kind]; nofun), slipped]
    exact ⟨state, op⟩

end Sys2Proof.Machine
end

section
/-! SUPPORT. A stamped tick in a lane's tach channel and measurement (01, R17; 04, R67 to R69), and the tick at the slip monitor
(02, R36, R37). -/

namespace Sys2Proof.Machine

open Sys2Proof.Safety

/-! ## The tach channel through the judgement -/

/-- A lane's tach channel stands as it was. -/
def Part.KeepsTach (l : Lane) (p q : Part) : Prop :=
  (q.rft.get l).tachOpen = (p.rft.get l).tachOpen ∧ (q.rft.get l).tachLast = (p.rft.get l).tachLast

theorem Part.KeepsTach.refl (l : Lane) (p : Part) : p.KeepsTach l p := ⟨rfl, rfl⟩

theorem Part.KeepsTach.trans {l : Lane} {p q r : Part} (h : p.KeepsTach l q) (k : q.KeepsTach l r) : p.KeepsTach l r :=
  ⟨k.1.trans h.1, k.2.trans h.2⟩

theorem Part.KeepsTach.of_rft {l : Lane} {p q : Part} (h : q.rft = p.rft) : p.KeepsTach l q := by
  unfold Part.KeepsTach
  rw [h]
  exact ⟨rfl, rfl⟩

theorem Part.endOperation_tach (u : Setup) (e : Ending) (l : Lane) (p : Part) : p.KeepsTach l (p.endOperation u e) := by
  unfold Part.KeepsTach Part.endOperation
  split
  · exact ⟨rfl, rfl⟩
  obtain ⟨c, t, eq, -⟩ := (p.setOp { p.trc.op with phase := none, ending := some e }).enterSettling_parts u
  obtain ⟨q, hq⟩ : ∃ q : Part, q = (p.setOp { p.trc.op with phase := none, ending := some e }).enterSettling u := ⟨_, rfl⟩
  have rft : q.rft = p.rft := by rw [hq, eq]; rfl
  dsimp only
  rw [← hq, ← rft]
  split
  · obtain ⟨-, -, torn, -⟩ := Part.takeEnd_torn u ‹_› l q
    rw [torn]
    exact ⟨rfl, rfl⟩
  · obtain ⟨r, e', hr⟩ := Part.surveyStop_spec { q with hcr := { q.hcr with capturing := false } }
    have kept := hr l
    unfold Part.surveyEnd
    rw [e']
    dsimp only
    rw [kept]
    split <;> exact ⟨rfl, rfl⟩
  · exact ⟨rfl, rfl⟩

theorem Part.qualify_rft (p : Part) : p.qualify.rft = p.rft := by
  unfold Part.qualify
  split
  · dsimp only
    split <;> rfl
  · rfl

theorem Part.slipTick_rft (u : Setup) (forward : Bool) (p : Part) : (p.slipTick u forward).rft = p.rft := by
  obtain ⟨c, b, m, w, n, e, -⟩ := p.slipTick_spec u forward
  rw [e]

theorem Part.enterSettling_rft (u : Setup) (p : Part) : (p.enterSettling u).rft = p.rft := by
  obtain ⟨c, t, e, -⟩ := p.enterSettling_parts u
  rw [e]

/-- Nothing of a tick's judgement touches a tach channel that the stamp has reached. -/
theorem Part.tick_tach (u : Setup) (phase : Phase) (now : Nat) (l : Lane) (p : Part) :
    (p.heard u phase now).KeepsTach l (p.tick u phase now) := by
  have judged : (p.heard u phase now).KeepsTach l ((p.heard u phase now).transportTick u (tickForward p.pos phase)) :=
    Part.transportTick_induction (Q := (p.heard u phase now).KeepsTach l) u (fun _ _ k => k)
      (fun x k => k.trans (.of_rft x.qualify_rft)) (fun b x k => k.trans (.of_rft (x.slipTick_rft u b)))
      (fun x k => k.trans (.of_rft (x.enterSettling_rft u))) (fun e x k => k.trans (x.endOperation_tach u e l)) _ (.refl l _)
  exact Part.takeStop_induction (Q := (p.heard u phase now).KeepsTach l) u (fun _ _ k => k)
    (fun e x k => k.trans (x.endOperation_tach u e l)) judged

/-! ## The stamp in the tach channel -/

/-- A stamped tick in a tach channel: the first opens a measurement, each of the next fifteen counts, and the sixteenth closes it and
opens the next. -/
theorem Part.tachTick_spec (l : Lane) (n : Nat) (p : Part) : ∃ o last,
    p.tachTick l (256 * n) = p.setTracker l { p.rft.get l with tachOpen := o, tachLast := last }
      ∧ ((p.rft.get l).tachOpen = none → o = some ⟨256 * n, 0, 256 * n⟩ ∧ last = (p.rft.get l).tachLast)
      ∧ ∀ x, (p.rft.get l).tachOpen = some x →
        (x.counted + 1 < 16 → o = some ⟨x.t0, x.counted + 1, 256 * n⟩ ∧ last = (p.rft.get l).tachLast)
        ∧ (16 ≤ x.counted + 1 → o = some ⟨256 * n, 0, 256 * n⟩ ∧ last = some ⟨256 * n - x.t0, n⟩) := by
  have index : 256 * n / 256 = n := Nat.mul_div_cancel_left n (by decide)
  cases hx : (p.rft.get l).tachOpen with
  | none =>
    refine ⟨_, (p.rft.get l).tachLast, ?_, fun _ => ⟨rfl, rfl⟩, nofun⟩
    unfold Part.tachTick
    simp only [hx]
  | some x =>
    obtain ⟨y, hy⟩ : ∃ y : TachOpen, y = { x with counted := x.counted + 1, lastStamp := 256 * n } := ⟨_, rfl⟩
    have counts : p.tachTick l (256 * n) = (p.setTracker l { p.rft.get l with tachOpen := some y }).tachComplete l := by
      unfold Part.tachTick
      simp only [hx, hy]
    have opened : ((p.setTracker l { p.rft.get l with tachOpen := some y }).rft.get l).tachOpen = some y := by simp
    by_cases hc : x.counted + 1 < 16
    · refine ⟨some y, (p.rft.get l).tachLast, ?_, nofun, fun x' hx' => ?_⟩
      · rw [counts, Part.tachComplete_counting _ opened (by rw [hy]; exact hc)]
      · cases hx'
        exact ⟨fun _ => ⟨by rw [hy], rfl⟩, fun h => absurd hc (Nat.not_lt_of_le h)⟩
    · refine ⟨some ⟨256 * n, 0, 256 * n⟩, some ⟨256 * n - x.t0, n⟩, ?_, nofun, fun x' hx' => ?_⟩
      · rw [counts, Part.tachComplete_full _ opened (by rw [hy]; exact Nat.le_of_not_lt hc), hy]
        simp [Part.setTracker, index]
      · cases hx'
        exact ⟨fun h => absurd h hc, fun _ => ⟨rfl, rfl⟩⟩

theorem Part.measurementComplete_tach (u : Setup) (l : Lane) (p : Part) : p.KeepsTach l (p.measurementComplete u l) := by
  unfold Part.KeepsTach Part.measurementComplete
  dsimp only
  split
  · exact ⟨rfl, rfl⟩
  · rename_i m _
    split
    · split
      · simp
      · split
        · exact ⟨(Part.keepsMeasure_inWindow ..).tachOpen.trans (by simp), (Part.keepsMeasure_inWindow ..).tachLast.trans (by simp)⟩
        · exact ⟨(Part.keepsMeasure_missed ..).tachOpen.trans (by simp), (Part.keepsMeasure_missed ..).tachLast.trans (by simp)⟩
      · exact ⟨rfl, rfl⟩
    · exact ⟨rfl, rfl⟩

theorem Part.crossing_tach (u : Setup) (l : Lane) (stamp index : Nat) (p : Part) :
    p.KeepsTach l (p.crossing u l stamp index) := by
  unfold Part.crossing
  dsimp only
  split
  · exact ⟨by simp, by simp⟩
  · obtain ⟨hopen, hlast⟩ := Part.measurementComplete_tach u l (p.setTracker l { p.rft.get l with
      meas := some { ‹Measurement› with counted := ‹Measurement›.counted + 1, lastStamp := stamp, lastIndex := index } })
    exact ⟨hopen.trans (by simp), hlast.trans (by simp)⟩

/-- A forward tick of a capture reaches each lane's tracker by itself. -/
theorem Part.heard_lane (u : Setup) {phase : Phase} {now n : Nat} (l : Lane) {p : Part} (hf : tickForward p.pos phase = true)
    (hc : p.hcr.capturing = true) (hn : p.hcr.nextIndex = n + 1) :
    ((p.ticked u phase now).trackerTick u (256 * n) n l).Hears l (p.heard u phase now) := by
  obtain ⟨g, e⟩ := p.ticked_spec u phase now
  unfold Part.heard
  rw [if_pos hf]
  exact (p.ticked u phase now).stampTick_lane u l n (by rw [e]; exact hc) (by rw [e]; exact hn)

theorem Part.trackerTick_tach (u : Setup) (stamp index : Nat) (l : Lane) {p : Part} (h : (p.rft.get l).mode ≠ .none) :
    (p.tachTick l stamp).KeepsTach l (p.trackerTick u stamp index l) := by
  unfold Part.trackerTick
  rw [if_neg h]
  dsimp only
  split
  · exact Part.crossing_tach u l stamp index _
  · exact ⟨rfl, rfl⟩

/-- A lane that no stamp reaches keeps its tach channel. -/
theorem Part.heard_unstamped (u : Setup) {phase : Phase} {now : Nat} (l : Lane) {p : Part} (h : tickForward p.pos phase = false
    ∨ p.hcr.capturing = false ∨ p.hcr.nextIndex = 0 ∨ (p.rft.get l).mode = .none) : (p.heard u phase now).rft.get l = p.rft.get l := by
  obtain ⟨g, e⟩ := p.ticked_spec u phase now
  have base : (p.ticked u phase now).rft = p.rft := by rw [e]
  by_cases hf : tickForward p.pos phase = true
  · by_cases k : p.hcr.capturing = true ∧ p.hcr.nextIndex ≠ 0
    · obtain ⟨n, hn⟩ := Nat.exists_eq_succ_of_ne_zero k.2
      have mode : ((p.ticked u phase now).rft.get l).mode = .none := by
        rw [base]
        exact ((h.resolve_left (by rw [hf]; nofun)).resolve_left (by rw [k.1]; nofun)).resolve_left k.2
      rw [(Part.heard_lane u l hf k.1 hn).rft]
      unfold Part.trackerTick
      rw [if_pos mode, base]
    · unfold Part.heard
      rw [if_pos hf]
      unfold Part.stampTick
      rw [if_neg, base]
      rw [e]
      simp only [Bool.and_eq_true, decide_eq_true_eq]
      exact fun h => k ⟨h.1, Nat.ne_of_gt h.2⟩
  · unfold Part.heard
    rw [if_neg hf, base]

/-! ## The stamp in a TACH lane's own measurement -/

theorem Part.tick_spares (u : Setup) {phase : Phase} {now : Nat} {p : Part}
    (h : (p.tick u phase now).trc.op.ending = p.trc.op.ending) : (p.heard u phase now).Spares (p.tick u phase now) := by
  have stays : (p.heard u phase now).Stays (p.tick u phase now) :=
    (Part.stays_transportTick u _ _).trans (Part.stays_takeStop u _)
  have ending : (p.heard u phase now).trc.op.ending = p.trc.op.ending :=
    congrArg (fun t : Transport => t.op.ending) (p.heard_met u phase now).trc
  exact stays.resolve_left fun k => k.2 (h.trans (ending.symm.trans k.1))

/-- A stamped tick of a TACH lane at work: the tach channel, then the lane's own measurement. -/
theorem Part.trackerTick_crossing (u : Setup) (stamp index : Nat) (l : Lane) {p : Part} (hm : (p.rft.get l).mode ≠ .none)
    (hc : p.hcr.capturing = true) (hs : (p.rft.get l).settings.source = .tach) :
    p.trackerTick u stamp index l = (p.tachTick l stamp).crossing u l stamp index := by
  have tracks := p.tracks_tachTick u l stamp
  have source : ((p.tachTick l stamp).rft.get l).settings.source = .tach := by rw [tracks.settings]; exact hs
  have measuring : (p.tachTick l stamp).measuring l = true := by
    unfold Part.measuring
    rw [tracks.hcr, hc, tracks.mode, source]
    cases hmode : (p.rft.get l).mode with
    | none => exact absurd hmode hm
    | take => rfl
    | survey => rfl
  unfold Part.trackerTick
  rw [if_neg hm]
  dsimp only
  rw [measuring, source]
  rfl

theorem Part.crossing_opens (u : Setup) (stamp index : Nat) (l : Lane) {p : Part} (h : (p.rft.get l).meas = none) :
    p.crossing u l stamp index
      = p.setTracker l { p.rft.get l with meas := some ((p.rft.get l).opening u stamp index), origin := index } := by
  unfold Part.crossing
  simp only [h]

theorem Part.crossing_counts (u : Setup) (stamp index : Nat) (l : Lane) {p : Part} {m : Measurement} (h : (p.rft.get l).meas = some m) :
    p.crossing u l stamp index = (p.setTracker l { p.rft.get l with
      meas := some { m with counted := m.counted + 1, lastStamp := stamp, lastIndex := index } }).measurementComplete u l := by
  unfold Part.crossing
  simp only [h]

/-- A measurement that lacks crossings is not complete. -/
theorem Part.measurementComplete_early (u : Setup) (l : Lane) {p : Part} {m : Measurement} (h : (p.rft.get l).meas = some m)
    (hc : m.counted < m.c) : p.measurementComplete u l = p := by
  unfold Part.measurementComplete
  simp only [h]
  rw [if_neg]
  simp only [Bool.and_eq_true, decide_eq_true_eq, not_and]
  exact fun _ => Nat.not_le_of_lt hc

theorem Tracker.opening_tach (u : Setup) (stamp index : Nat) {t : Tracker} (h : t.settings.source = .tach) : t.opening u stamp index
    = ⟨stamp, 0, 16, u.deck.tickRate, windowLo u.rates t.settings.w, windowHi u.rates t.settings.w, stamp, index⟩ := by
  unfold Tracker.opening Tracker.crossings Tracker.reference
  rw [if_pos h, if_pos h]
  rfl

/-- A stamped tick in a lane's tach channel, after the whole judgement. -/
theorem Part.tick_tachChannel (u : Setup) {phase : Phase} {now n : Nat} (l : Lane) {p t : Part} (ht : t = p.tick u phase now)
    (hf : tickForward p.pos phase = true) (hc : p.hcr.capturing = true) (hn : p.hcr.nextIndex = n + 1)
    (hm : (p.rft.get l).mode ≠ .none) :
    ((p.rft.get l).tachOpen = none → (t.rft.get l).tachOpen = some ⟨256 * n, 0, 256 * n⟩
      ∧ (t.rft.get l).tachLast = (p.rft.get l).tachLast)
    ∧ ∀ o, (p.rft.get l).tachOpen = some o →
      (o.counted + 1 < 16 → (t.rft.get l).tachOpen = some ⟨o.t0, o.counted + 1, 256 * n⟩
        ∧ (t.rft.get l).tachLast = (p.rft.get l).tachLast)
      ∧ (16 ≤ o.counted + 1 → (t.rft.get l).tachOpen = some ⟨256 * n, 0, 256 * n⟩
        ∧ (t.rft.get l).tachLast = some ⟨256 * n - o.t0, n⟩) := by
  obtain ⟨g, e⟩ := p.ticked_spec u phase now
  obtain ⟨x, hx⟩ : ∃ x, x = p.ticked u phase now := ⟨_, rfl⟩
  have base : x.rft = p.rft := by rw [hx, e]
  have lane := Part.heard_lane (now := now) u l hf hc hn
  obtain ⟨hopen, hlast⟩ := p.tick_tach u phase now l
  obtain ⟨kopen, klast⟩ := Part.trackerTick_tach u (256 * n) n l (p := x) (by rw [base]; exact hm)
  obtain ⟨o, last, counted, hnone, hsome⟩ := x.tachTick_spec l n
  rw [← hx] at lane
  rw [lane.rft, kopen, counted, Part.setTracker_rft, PerLane.get_set_same] at hopen
  rw [lane.rft, klast, counted, Part.setTracker_rft, PerLane.get_set_same] at hlast
  rw [base] at hnone hsome
  rw [ht, hopen, hlast]
  exact ⟨hnone, hsome⟩

/-- A stamped tick in a TACH lane's own measurement, while the tick ends nothing: the lane's tracker, its timeline, its conditions and
its notices are those of the crossing. -/
theorem Part.tick_crossing (u : Setup) {phase : Phase} {now n : Nat} (l : Lane) {p t : Part} (ht : t = p.tick u phase now)
    (hf : tickForward p.pos phase = true) (hc : p.hcr.capturing = true) (hn : p.hcr.nextIndex = n + 1)
    (hm : (p.rft.get l).mode ≠ .none) (hs : (p.rft.get l).settings.source = .tach) (he : t.trc.op.ending = p.trc.op.ending) :
    ∃ x, x = p.setTracker l { p.rft.get l with tachOpen := (t.rft.get l).tachOpen, tachLast := (t.rft.get l).tachLast }
      ∧ t.rft.get l = ((x.crossing u l (256 * n) n).rft.get l) ∧ t.lanes.get l = ((x.crossing u l (256 * n) n).lanes.get l)
      ∧ (∀ id, id = .lockLost l ∨ id = .range l → t.cmn.get id = (x.crossing u l (256 * n) n).cmn.get id)
      ∧ queued (lockKind l) t.msp.notices = queued (lockKind l) (x.crossing u l (256 * n) n).msp.notices := by
  obtain ⟨g, e⟩ := p.ticked_spec u phase now
  obtain ⟨y, hy⟩ : ∃ y, y = p.ticked u phase now := ⟨_, rfl⟩
  have base : y.rft = p.rft := by rw [hy, e]
  have spares := Part.tick_spares (now := now) u (ht ▸ he)
  have lane := Part.heard_lane (now := now) u l hf hc hn
  have crosses := Part.trackerTick_crossing u (256 * n) n l (p := y) (by rw [base]; exact hm) (by rw [hy, e]; exact hc)
    (by rw [base]; exact hs)
  obtain ⟨o, last, counted, -⟩ := y.tachTick_spec l n
  obtain ⟨hopen, hlast⟩ := p.tick_tach u phase now l
  obtain ⟨kopen, klast⟩ := Part.crossing_tach u l (256 * n) n (y.tachTick l (256 * n))
  rw [← hy, crosses] at lane
  rw [lane.rft, kopen, counted, Part.setTracker_rft, PerLane.get_set_same, ← ht] at hopen
  rw [lane.rft, klast, counted, Part.setTracker_rft, PerLane.get_set_same, ← ht] at hlast
  obtain ⟨x, hx⟩ : ∃ x, x = p.setTracker l { p.rft.get l with
    tachOpen := (t.rft.get l).tachOpen, tachLast := (t.rft.get l).tachLast } := ⟨_, rfl⟩
  have hears : x.Hears l (y.tachTick l (256 * n)) := by
    have start : p.Hears l y := by
      rw [hy, e]
      exact ⟨rfl, rfl, fun _ _ => rfl, fun _ _ => rfl, rfl, rfl, rfl⟩
    rw [hx, counted, hopen, hlast, base]
    exact start.setTracker _
  have same := (hears.crossing (u := u) (256 * n) n).trans lane
  rw [ht]
  refine ⟨x, ht ▸ hx, ?_, ?_, fun id hid => ?_, ?_⟩
  · exact (congrArg (PerLane.get · l) spares.rft).trans same.rft
  · exact (congrArg (PerLane.get · l) spares.lanes).trans same.lanes
  · exact (spares.cmn id (by rcases hid with rfl | rfl <;> nofun)).trans (same.cmn id hid)
  · exact (spares.queue l).trans same.queue

/-- The three things a stamped tick can be to a TACH lane's own measurement: its first crossing, one more, and the one that completes it as
MEASUREMENT_COMPLETE does. -/
theorem Part.tick_tachMeasures (u : Setup) {phase : Phase} {now n : Nat} (l : Lane) {p t : Part} (ht : t = p.tick u phase now)
    (hf : tickForward p.pos phase = true) (hc : p.hcr.capturing = true) (hn : p.hcr.nextIndex = n + 1)
    (hm : (p.rft.get l).mode ≠ .none) (hs : (p.rft.get l).settings.source = .tach) (he : t.trc.op.ending = p.trc.op.ending) :
    ((p.rft.get l).meas = none → (t.rft.get l).meas = some ⟨256 * n, 0, 16, u.deck.tickRate,
      windowLo u.rates (p.rft.get l).settings.w, windowHi u.rates (p.rft.get l).settings.w, 256 * n, n⟩)
    ∧ ∀ m, (p.rft.get l).meas = some m →
      (m.counted + 1 < m.c → (t.rft.get l).meas = some { m with counted := m.counted + 1, lastStamp := 256 * n, lastIndex := n })
      ∧ ∀ y, y = p.setTracker l { p.rft.get l with
            meas := some { m with counted := m.counted + 1, lastStamp := 256 * n, lastIndex := n },
            tachOpen := (t.rft.get l).tachOpen, tachLast := (t.rft.get l).tachLast } →
          t.rft.get l = (y.measurementComplete u l).rft.get l ∧ t.lanes.get l = (y.measurementComplete u l).lanes.get l
          ∧ (∀ id, id = .lockLost l ∨ id = .range l → t.cmn.get id = (y.measurementComplete u l).cmn.get id)
          ∧ queued (lockKind l) t.msp.notices = queued (lockKind l) (y.measurementComplete u l).msp.notices := by
  obtain ⟨x, hx, hrft, hlanes, hcmn, hqueue⟩ := Part.tick_crossing u l ht hf hc hn hm hs he
  have tracker : x.rft.get l = { p.rft.get l with tachOpen := (t.rft.get l).tachOpen, tachLast := (t.rft.get l).tachLast } := by
    rw [hx]
    simp
  constructor
  · intro hnone
    rw [hrft, Part.crossing_opens u _ _ l (by rw [tracker]; exact hnone), Part.setTracker_rft, PerLane.get_set_same, tracker,
      Tracker.opening_tach u _ _ (by exact hs)]
  · intro m hsome
    obtain ⟨y, hy⟩ : ∃ y, y = p.setTracker l { p.rft.get l with
      meas := some { m with counted := m.counted + 1, lastStamp := 256 * n, lastIndex := n },
      tachOpen := (t.rft.get l).tachOpen, tachLast := (t.rft.get l).tachLast } := ⟨_, rfl⟩
    have counts : x.crossing u l (256 * n) n = y.measurementComplete u l := by
      rw [Part.crossing_counts u _ _ l (by rw [tracker]; exact hsome), tracker, hx, hy]
      simp [Part.setTracker]
    rw [counts] at hrft hlanes hcmn hqueue
    refine ⟨fun hlt => ?_, fun y' hy' => ?_⟩
    · have opened : (y.rft.get l).meas = some { m with counted := m.counted + 1, lastStamp := 256 * n, lastIndex := n } := by
        rw [hy]
        simp
      rw [hrft, Part.measurementComplete_early u l opened hlt, opened]
    · rw [hy', ← hy]
      exact ⟨hrft, hlanes, hcmn, hqueue⟩

/-! ## The tick at the slip monitor (02, R36, R37) -/

/-- Two parts agree on all that the slip monitor and a stop request read of the transport, and on SLIP. -/
structure Part.SlipAlike (p q : Part) : Prop where
  state : q.trc.state = p.trc.state
  kind : q.trc.op.kind = p.trc.op.kind
  ending : q.trc.op.ending = p.trc.op.ending
  window : q.trc.slipWindow = p.trc.slipWindow
  low : q.trc.slipLow = p.trc.slipLow
  slip : q.cmn.slip = p.cmn.slip

theorem Part.SlipAlike.refl (p : Part) : p.SlipAlike p := ⟨rfl, rfl, rfl, rfl, rfl, rfl⟩

theorem Part.SlipAlike.trans {p q r : Part} (h : p.SlipAlike q) (k : q.SlipAlike r) : p.SlipAlike r :=
  ⟨k.state.trans h.state, k.kind.trans h.kind, k.ending.trans h.ending, k.window.trans h.window, k.low.trans h.low, k.slip.trans h.slip⟩

/-- A forward tick that brings the operation to its own end: a take to its end position, a survey to its span, a SEEK to its target. -/
def Part.tickEnds (p : Part) (position : Nat) : Prop :=
  (p.trc.op.kind = .take ∧ ∃ e, p.trc.op.endPosition = some e ∧ e ≤ position)
    ∨ (p.trc.op.kind = .survey ∧ ∃ a b, p.trc.op.span = some a ∧ p.trc.op.surveyTicks = some b ∧ a ≤ b + 1)
    ∨ (p.trc.op.kind = .seek ∧ ∃ e, p.trc.op.target = some e ∧ e ≤ position)

/-- An operation's own judgement of a tick ends it, or leaves what the slip monitor reads. -/
def Part.SlipMeets (p : Part) (position : Nat) (q : Part) : Prop :=
  (p.SlipAlike q ∧ q.stopPending = p.stopPending) ∨ (q.trc.state = .settling ∧ p.tickEnds position)

theorem Part.slipMeets_endOperation (u : Setup) (e : Ending) {p q : Part} {position : Nat} (h : p.SlipAlike q)
    (hs : q.stopPending = p.stopPending) (he : p.tickEnds position) : p.SlipMeets position (q.endOperation u e) := by
  by_cases k : q.trc.op.kind = .none ∨ q.trc.op.ending ≠ none
  · rw [q.endOperation_none u e k]
    exact .inl ⟨h, hs⟩
  · rw [not_or, not_not] at k
    exact .inr ⟨(q.endOperation_spec u e k.1 k.2).1, he⟩

theorem Part.playingTick_meets (u : Setup) (p : Part) : p.SlipMeets p.pos.position (p.playingTick u) := by
  have keeps : p.SlipMeets p.pos.position p := .inl ⟨.refl p, rfl⟩
  fun_cases Part.playingTick u p
  case case1 hk e he hle => exact Part.slipMeets_endOperation u _ (.refl p) rfl (.inl ⟨hk, e, he, hle⟩)
  case case4 hk =>
    have counted : p.SlipAlike p.surveyed := ⟨rfl, rfl, rfl, rfl, rfl, rfl⟩
    show p.SlipMeets p.pos.position (p.surveyed.surveyIfCounted u)
    unfold Part.surveyIfCounted
    split
    · rename_i span ticks _ hspan hticks
      split
      · rename_i hle
        obtain ⟨b, hb, rfl⟩ := Option.map_eq_some_iff.mp hticks
        exact Part.slipMeets_endOperation u _ counted rfl (.inr (.inl ⟨hk, span, b, hspan, hb, hle.2⟩))
      · exact .inl ⟨counted, rfl⟩
    · exact .inl ⟨counted, rfl⟩
  all_goals exact keeps

theorem Part.approachingTick_meets (u : Setup) (p : Part) : p.SlipMeets p.pos.position (p.approachingTick u) := by
  have keeps : p.SlipMeets p.pos.position p := .inl ⟨.refl p, rfl⟩
  fun_cases Part.approachingTick u p
  case case1 e he hk hle => exact Part.slipMeets_endOperation u _ (.refl p) rfl (.inr (.inr ⟨hk, e, he, hle⟩))
  all_goals exact keeps

/-- A tick in PLAYING or APPROACHING: the operation's own judgement, then the slip monitor, then the stop request. -/
theorem Part.tick_slips (u : Setup) (phase : Phase) (now : Nat) {p : Part}
    (hs : p.trc.state = .playing ∨ p.trc.state = .approaching) : ∃ q,
    p.tick u phase now = (q.slipTick u (tickForward p.pos phase)).takeStop u
      ∧ ((p.SlipAlike q ∧ (framesNeverStop u → q.stopPending = p.stopPending))
        ∨ (q.trc.state = .settling ∧ p.tickEnds (countTick p.pos phase).position)) := by
  have met := p.heard_met u phase now
  obtain ⟨y, hy⟩ : ∃ y, y = (p.heard u phase now).stallTimed := ⟨_, rfl⟩
  have trc : y.trc = { p.trc with stallTimer := some (max p.timebase now) } := by rw [hy, p.heard_timed]
  have alike : p.SlipAlike y := by
    refine ⟨?_, ?_, ?_, ?_, ?_, ?_⟩
    case refine_6 =>
      rw [hy]
      exact met.slip
    all_goals rw [trc]
  have stop : framesNeverStop u → y.stopPending = p.stopPending := fun h => by
    rw [hy]
    exact met.stop h
  have position : y.pos.position = (countTick p.pos phase).position := by
    rw [hy]
    exact congrArg PositionCounter.position met.pos
  have ends (n : Nat) (h : y.tickEnds n) : p.tickEnds n := by
    unfold Part.tickEnds at h ⊢
    rw [trc] at h
    exact h
  have meets (q : Part) (h : y.SlipMeets y.pos.position q) : (p.SlipAlike q ∧ (framesNeverStop u → q.stopPending = p.stopPending))
      ∨ (q.trc.state = .settling ∧ p.tickEnds (countTick p.pos phase).position) := by
    rcases h with ⟨h, k⟩ | ⟨h, k⟩
    · exact .inl ⟨alike.trans h, fun f => k.trans (stop f)⟩
    · exact .inr ⟨h, position ▸ ends _ k⟩
  have keeps : y.SlipMeets y.pos.position y := .inl ⟨.refl y, rfl⟩
  rcases hs with h | h
  · refine ⟨if tickForward p.pos phase then y.playingTick u else y, ?_, meets _ ?_⟩
    · rw [p.tick_eq, Part.transportTick_playing u _ (met.trc ▸ h), hy]
    · split
      · exact y.playingTick_meets u
      · exact keeps
  · refine ⟨if tickForward p.pos phase then y.approachingTick u else y, ?_, meets _ ?_⟩
    · rw [p.tick_eq, Part.transportTick_approaching u _ (met.trc ▸ h), hy]
    · split
      · exact y.approachingTick_meets u
      · exact keeps

/-- A part with one more tick in its slip window. -/
def Part.withWindow (w : SlipWindow) (p : Part) : Part := { p with trc := { p.trc with slipWindow := some w } }

theorem TransportState.monitored {t : TransportState} (h : t = .playing ∨ t = .approaching) : t.slipMonitored = true := by
  rcases h with h | h <;> rw [h] <;> rfl

theorem Part.slipTick_reverse (u : Setup) {p : Part} (h : p.trc.state.slipMonitored = true) :
    p.slipTick u false = { p with trc := { p.trc with slipWindow := none } } := by
  unfold Part.slipTick
  rw [if_pos h]
  rfl

theorem Part.slipTick_opens (u : Setup) {p : Part} (h : p.trc.state.slipMonitored = true) (hw : p.trc.slipWindow = none) :
    p.slipTick u true = p.withWindow ⟨0, 0⟩ := by
  unfold Part.slipTick
  rw [if_pos h, if_pos rfl]
  simp only [hw]
  rfl

theorem Part.slipTick_counts (u : Setup) {p : Part} {w : SlipWindow} (h : p.trc.state.slipMonitored = true)
    (hw : p.trc.slipWindow = some w) : p.slipTick u true = (p.withWindow ⟨w.ticks + 1, w.pulses⟩).slipClose u := by
  unfold Part.slipTick
  rw [if_pos h, if_pos rfl]
  simp only [hw]
  rfl

theorem Part.slipClose_early (u : Setup) {p : Part} {w : SlipWindow} (hw : p.trc.slipWindow = some w) (h : w.ticks < 64) :
    p.slipClose u = p := by
  unfold Part.slipClose
  simp only [hw]
  rw [if_neg]
  simp only [Bool.and_eq_true, decide_eq_true_eq, not_and]
  exact fun _ => Nat.not_le_of_lt h

/-- A window that closes is judged against the threshold, and the next opens. -/
theorem Part.slipClose_due (u : Setup) {p : Part} {w : SlipWindow} (hs : p.trc.state.slipMonitored = true)
    (hw : p.trc.slipWindow = some w) (h : 64 ≤ w.ticks) : p.slipClose u
      = if slipRatio u w.pulses < u.deck.slipThreshold then
          if u.deck.slipCount ≤ p.trc.slipLow + 1 then
            Part.reportPresent u .slip { p with trc := { p.trc with slipWindow := some ⟨0, 0⟩, slipLow := p.trc.slipLow + 1 } }
          else { p with trc := { p.trc with slipWindow := some ⟨0, 0⟩, slipLow := p.trc.slipLow + 1 } }
        else Part.reportAbsent u .slip { p with trc := { p.trc with slipWindow := some ⟨0, 0⟩, slipLow := 0 } } := by
  have due : (p.trc.state.slipMonitored && decide (Config.slipTicks ≤ w.ticks)) = true := by
    rw [hs]
    exact decide_eq_true h
  unfold Part.slipClose
  simp only [hw]
  exact if_pos due

theorem Part.slipClose_window (u : Setup) {p : Part} {w : SlipWindow} (hs : p.trc.state.slipMonitored = true)
    (hw : p.trc.slipWindow = some w) (h : 64 ≤ w.ticks) : (p.slipClose u).trc.slipWindow = some ⟨0, 0⟩ := by
  rw [Part.slipClose_due u hs hw h]
  split
  · split
    · exact congrArg Transport.slipWindow (Part.works_reportPresent u .slip _).trc
    · rfl
  · exact congrArg Transport.slipWindow (Part.works_reportAbsent u .slip _).trc

/-- The slip window after a tick that leaves the transport in its state. -/
theorem Part.tick_slipWindow (u : Setup) {phase : Phase} {now : Nat} {p t : Part} (ht : t = p.tick u phase now)
    (hs : p.trc.state = .playing ∨ p.trc.state = .approaching) (hstate : t.trc.state = p.trc.state) :
    (tickForward p.pos phase = false → t.trc.slipWindow = none)
    ∧ (tickForward p.pos phase = true → p.trc.slipWindow = none → t.trc.slipWindow = some ⟨0, 0⟩)
    ∧ (tickForward p.pos phase = true → ∀ w, p.trc.slipWindow = some w →
      (w.ticks + 1 < 64 → t.trc.slipWindow = some ⟨w.ticks + 1, w.pulses⟩)
      ∧ (64 ≤ w.ticks + 1 → t.trc.slipWindow = some ⟨0, 0⟩)) := by
  obtain ⟨q, hq, hmeets⟩ := Part.tick_slips u phase now hs
  have moving : p.trc.state ≠ .settling := by rcases hs with h | h <;> rw [h] <;> nofun
  have dropped : t.trc = (q.slipTick u (tickForward p.pos phase)).trc := by
    rw [ht, hq] at hstate ⊢
    rcases (q.slipTick u (tickForward p.pos phase)).takeStop_cases u with h | ⟨-, -, h⟩
    · rw [h]
    · exact absurd (hstate.symm.trans h) moving
  have kept : q.trc.state = p.trc.state := by
    obtain ⟨c, b, m, w, n, e, -⟩ := q.slipTick_spec u (tickForward p.pos phase)
    rw [dropped, e] at hstate
    exact hstate
  obtain ⟨alike, -⟩ := hmeets.resolve_right fun h => moving (kept.symm.trans h.1)
  have monitored : q.trc.state.slipMonitored = true := by
    rw [kept]
    exact TransportState.monitored hs
  rw [dropped]
  refine ⟨fun hf => ?_, fun hf hw => ?_, fun hf w hw => ⟨fun h => ?_, fun h => ?_⟩⟩ <;> rw [hf]
  · rw [Part.slipTick_reverse u monitored]
  · rw [Part.slipTick_opens u monitored (alike.window.trans hw)]
    rfl
  · rw [Part.slipTick_counts u monitored (alike.window.trans hw), Part.slipClose_early u rfl h]
    rfl
  · rw [Part.slipTick_counts u monitored (alike.window.trans hw)]
    exact Part.slipClose_window u (p := q.withWindow _) monitored rfl h

end Sys2Proof.Machine
end

section
/-! SUPPORT and PROOFS. The slip monitor on two parts it cannot tell apart (02, R36 to R38), and a tick's judgement whole. -/

namespace Sys2Proof.Machine

open Sys2Proof.Safety

/-! ## The slip monitor on two parts alike -/

/-- Two parts the slip monitor cannot tell apart, with the same stop request waiting. -/
structure Part.SlipSame (p q : Part) : Prop extends Part.SlipAlike p q where
  stop : q.stopPending = p.stopPending

section
variable {u : Setup} {p q : Part}

theorem Part.SlipSame.ite {p' q' : Part} {c : Prop} [Decidable c] (h : p.SlipSame q) (k : p'.SlipSame q') :
    (if c then p else p').SlipSame (if c then q else q') := by
  split <;> assumption

theorem Part.SlipSame.setStatus (h : p.SlipSame q) (c : CondStatus) : (p.setStatus .slip c).SlipSame (q.setStatus .slip c) :=
  ⟨⟨h.state, h.kind, h.ending, h.window, h.low, rfl⟩, h.stop⟩

theorem Part.SlipSame.post (h : p.SlipSame q) (c : NoticeContent) : (p.post c).SlipSame (q.post c) :=
  ⟨⟨h.state, h.kind, h.ending, h.window, h.low, h.slip⟩, h.stop⟩

theorem Part.SlipSame.stopPending (h : p.SlipSame q) (b : Bool) : { p with stopPending := b }.SlipSame { q with stopPending := b } :=
  ⟨⟨h.state, h.kind, h.ending, h.window, h.low, h.slip⟩, rfl⟩

theorem Part.SlipSame.setFlag (h : p.SlipSame q) : (p.setFlag .slip).SlipSame (q.setFlag .slip) := by
  have slip : q.cmn.get .slip = p.cmn.get .slip := h.slip
  unfold Part.setFlag
  rw [slip]
  exact .ite h ((h.setStatus _).post _)

theorem Part.SlipSame.raise (h : p.SlipSame q) : (p.raise u .slip).SlipSame (q.raise u .slip) := by
  unfold Part.raise
  dsimp only
  split
  · exact h.setFlag.stopPending true
  · split
    · exact h.setFlag
    · exact h.setFlag.stopPending true
  · exact h.setFlag
  · exact h.setFlag
  · exact h

theorem Part.SlipSame.reportPresent (h : p.SlipSame q) : (p.reportPresent u .slip).SlipSame (q.reportPresent u .slip) := by
  have slip : q.cmn.get .slip = p.cmn.get .slip := h.slip
  unfold Part.reportPresent
  rw [slip]
  exact .ite h (h.setStatus _).raise

theorem Part.SlipSame.reportAbsent (h : p.SlipSame q) : (p.reportAbsent u .slip).SlipSame (q.reportAbsent u .slip) := by
  have slip : q.cmn.get .slip = p.cmn.get .slip := h.slip
  unfold Part.reportAbsent
  rw [slip]
  exact .ite (h.setStatus _) h

theorem Part.SlipSame.counters (h : p.SlipSame q) (w : Option SlipWindow) (n : Nat) :
    { p with trc := { p.trc with slipWindow := w, slipLow := n } }.SlipSame
      { q with trc := { q.trc with slipWindow := w, slipLow := n } } :=
  ⟨⟨h.state, h.kind, h.ending, rfl, rfl, h.slip⟩, h.stop⟩

theorem Part.SlipSame.withWindow (h : p.SlipSame q) (w : SlipWindow) : (p.withWindow w).SlipSame (q.withWindow w) :=
  ⟨⟨h.state, h.kind, h.ending, rfl, h.low, h.slip⟩, h.stop⟩

theorem Part.SlipSame.slipClose (h : p.SlipSame q) : (p.slipClose u).SlipSame (q.slipClose u) := by
  unfold Part.slipClose
  rw [h.window, h.state, h.low]
  dsimp only
  split
  · refine .ite (.ite (.ite ?_ ?_) ?_) h
    · exact (h.counters _ _).reportPresent
    · exact h.counters _ _
    · exact (h.counters _ _).reportAbsent
  · exact h

end

/-- The event that ends a running operation in motion makes of SLIP what reporting it absent makes of it. -/
theorem Part.endOperation_slipRecord (u : Setup) (e : Ending) (p : Part) (hk : p.trc.op.kind ≠ .none) (he : p.trc.op.ending = none)
    (hs : p.trc.state ≠ .settling) : (p.endOperation u e).cmn.slip = (p.reportAbsent u .slip).cmn.slip := by
  obtain ⟨x, hx⟩ : ∃ x, x = p.setOp { p.trc.op with phase := none, ending := some e } := ⟨_, rfl⟩
  obtain ⟨y, hy⟩ : ∃ y, y = x.enterSettling u := ⟨_, rfl⟩
  have record : y.cmn = (p.reportAbsent u .slip).cmn := by
    have moving : x.trc.state ≠ .settling := by rw [hx]; exact hs
    have cmn : (x.reportAbsent u .slip).cmn = (p.reportAbsent u .slip).cmn := by
      have unmoved (o : OpRecord) : (p.setOp o).cmn = p.cmn := rfl
      rw [hx]
      unfold Part.reportAbsent
      rw [unmoved]
      dsimp only
      split <;> rfl
    rw [hy, ← cmn]
    unfold Part.enterSettling
    rw [if_neg moving]
  unfold Part.endOperation
  rw [if_neg (by simp [hk, he])]
  dsimp only
  rw [← hx, ← hy, ← record]
  split
  · exact (Part.takeTeardown_apart u _ _).1
  · obtain ⟨r, h, -⟩ := Part.surveyStop_spec { y with hcr := { y.hcr with capturing := false } }
    unfold Part.surveyEnd
    rw [h]
  · rfl

theorem Part.SlipSame.endAs {u : Setup} {p q : Part} (h : p.SlipSame q) (t : Termination) (c : TakeCause) (hk : p.trc.op.kind ≠ .none)
    (hs : p.trc.state ≠ .settling) : (p.endAs u t c).SlipAlike (q.endAs u t c) := by
  unfold Part.endAs
  rw [h.kind]
  obtain ⟨e, he⟩ : ∃ e : Ending, e = if p.trc.op.kind = .take then .cause c else .term t := ⟨_, rfl⟩
  rw [← he]
  by_cases running : p.trc.op.ending = none
  · have kind : q.trc.op.kind ≠ .none := by rw [h.kind]; exact hk
    have ending : q.trc.op.ending = none := h.ending.trans running
    have moving : q.trc.state ≠ .settling := by rw [h.state]; exact hs
    obtain ⟨ptrc, -⟩ := p.endOperation_slip u e hk running hs
    obtain ⟨qtrc, -⟩ := q.endOperation_slip u e kind ending moving
    refine ⟨?_, ?_, ?_, ?_, ?_, ?_⟩
    case refine_6 =>
      rw [p.endOperation_slipRecord u e hk running hs, q.endOperation_slipRecord u e kind ending moving]
      exact (h.reportAbsent (u := u)).slip
    case refine_2 =>
      rw [ptrc, qtrc]
      exact h.kind
    all_goals rw [ptrc, qtrc]
  · rw [p.endOperation_none u e (.inr running), q.endOperation_none u e (.inr (by rw [h.ending]; exact running))]
    exact h.toSlipAlike

/-- A stop request makes the same of two such parts, for the slip monitor. -/
theorem Part.SlipSame.takeStop {u : Setup} {p q : Part} (h : p.SlipSame q) : (p.takeStop u).SlipAlike (q.takeStop u) := by
  have clear {x y : Part} (k : x.SlipAlike y) : { x with stopPending := false }.SlipAlike { y with stopPending := false } :=
    ⟨k.state, k.kind, k.ending, k.window, k.low, k.slip⟩
  have none := h.stopPending false
  unfold Part.takeStop
  rw [h.stop]
  split
  · refine clear ?_
    unfold Part.stopRequest
    rw [none.kind, none.state]
    split
    · rename_i hplays
      refine none.endAs .condition .condition ?_ ?_
      · exact fun k => hplays.1.elim (fun j => absurd (j.symm.trans k) nofun) fun j => absurd (j.symm.trans k) nofun
      · exact fun k => hplays.2.elim (fun j => absurd (j.symm.trans k) nofun) fun j => absurd (j.symm.trans k) nofun
    · exact none.toSlipAlike
  · exact h.toSlipAlike

/-- The tick that closes a slip window, while it ends no operation itself, does what the window's close does. -/
theorem Part.tick_slipClose (u : Setup) {phase : Phase} {now : Nat} {p t : Part} {w : SlipWindow} (ht : t = p.tick u phase now)
    (hf : tickForward p.pos phase = true) (hs : p.trc.state = .playing ∨ p.trc.state = .approaching) (hw : p.trc.slipWindow = some w)
    (hnever : framesNeverStop u) (hr : ¬p.tickEnds t.pos.position) :
    (((p.withWindow ⟨w.ticks + 1, w.pulses⟩).slipClose u).takeStop u).SlipAlike t := by
  obtain ⟨q, hq, hmeets⟩ := Part.tick_slips u phase now hs
  rw [ht, p.tick_pos] at hr
  obtain ⟨alike, stop⟩ := hmeets.resolve_right fun h => hr h.2
  have monitored : q.trc.state.slipMonitored = true := by
    rw [alike.state]
    exact TransportState.monitored hs
  have same : p.SlipSame q := ⟨alike, stop hnever⟩
  rw [ht, hq, hf, Part.slipTick_counts u monitored (alike.window.trans hw)]
  exact (same.withWindow _).slipClose.takeStop

/-! ## The whole judgement -/

/-- What a tick at a take's end position leaves of the transport, take control and the receiver. -/
theorem Part.tick_takeEnds (u : Setup) {phase : Phase} {now e : Nat} {p t : Part} (ht : t = p.tick u phase now)
    (hf : tickForward p.pos phase = true) (hs : p.trc.state = .playing) (hk : p.trc.op.kind = .take) (he : p.trc.op.ending = none)
    (hend : p.trc.op.endPosition = some e) (hle : e ≤ (countTick p.pos phase).position) :
    t.trc.state = .settling ∧ t.trc.settleTimer = some (max p.timebase now)
      ∧ t.trc.op = { p.trc.op with phase := none, ending := some (.cause .endPosition) }
      ∧ t.take.device = .configure ∧ t.hcr.capturing = false ∧ t.hcr.nextIndex = p.hcr.nextIndex := by
  obtain ⟨q, hq⟩ : ∃ q, q = (p.heard u phase now).stallTimed := ⟨_, rfl⟩
  have trc : q.trc = { p.trc with stallTimer := some (max p.timebase now) } := by rw [hq, p.heard_timed]
  have time : q.timebase = max p.timebase now := by rw [hq]; exact (p.heard_met u phase now).timebase
  have hcr : q.hcr = p.hcr := by rw [hq]; exact (p.heard_met u phase now).hcr
  have kind : q.trc.op.kind = .take := by rw [trc]; exact hk
  have ending : q.trc.op.ending = none := by rw [trc]; exact he
  obtain ⟨hsettling, hop, -, htimer, -⟩ := q.endOperation_spec u (.cause .endPosition) (by rw [kind]; nofun) ending
  obtain ⟨hdevice, hcapturing, hnext⟩ := q.endOperation_take u .endPosition kind ending
  rw [ht, Part.tick_reached u hf hs hk he hend hle, ← hq]
  exact ⟨hsettling, (htimer (by rw [trc, hs]; nofun)).trans (by rw [time]), hop.trans (by rw [trc]), hdevice, hcapturing,
    hnext.trans (by rw [hcr])⟩

/-- Settles O48, conjunct by conjunct: the take at its end position (`Part.tick_reached`, `Part.tick_torn`), the qualification
(`Part.tick_starts`), a survey's count (`Part.tick_spanned`, `Part.tick_surveying`), the phases of a SEEK (`Part.tick_winding`,
`Part.tick_approaching`), the stamp (`Part.tick_tachChannel`, `Part.tick_tachMeasures`) and the slip monitor (`Part.tick_slipWindow`,
`Part.tick_slipClose`). -/
theorem tickJudged : Obligations.TickJudged := by
  intro phase now s forward hf
  have direction : tickForward s.part.pos phase = forward := by
    rw [hf]
    cases phase <;> rfl
  subst direction
  clear hf
  obtain ⟨t, ht⟩ : ∃ t, t = s.part.tick s.setup phase now := ⟨_, rfl⟩
  have position : (countTick s.part.pos phase).position = t.pos.position := by rw [ht, s.part.tick_pos]
  refine ⟨{ s with part := t }, congrArg (fun p : Part => Host.Outcome.next (s.onPart fun _ => p)) ht.symm, ?_⟩
  dsimp only
  refine ⟨fun e hf hs hk he hend hle => ?_, fun nominal hlegal hs hstop hnow hnominal => ⟨?_, fun hf => ?_, fun hf count hnone hsome => ?_⟩,
    fun span ticks hs hk he hspan hticks => ⟨fun hf h => ?_, fun hstop hmodes hslip => ⟨fun hf h => ?_, fun hf => ?_⟩⟩,
    fun winding reached point hk hpoint hwinding hreached => ⟨fun h => ?_, fun hw h => ?_⟩,
    fun target hs hk he htarget => ⟨fun hf h => ?_, fun h => ?_⟩,
    fun l n => ⟨fun hf hc hn hm => ?_, fun h => ?_, fun hf hc hn hm hsource he => ⟨fun h => ?_, fun m hmeas => ⟨fun h => ?_, ?_⟩⟩⟩,
    fun hs hstate => Part.tick_slipWindow s.setup ht hs hstate, fun w reached closed hf hs hw hdue hstop hnever hr hnot hclosed => ?_⟩
  · rw [← position] at hle
    obtain ⟨hsettling, htimer, hop, hdevice, hcapturing, hnext⟩ := Part.tick_takeEnds s.setup ht hf hs hk he hend hle
    refine ⟨hsettling, htimer, hop, hdevice, hcapturing, hnext, fun _ m hm hending l => ?_⟩
    obtain rfl := Host.Outcome.next.inj hm
    rw [ht]
    exact Part.tick_torn s.setup hf hs hk he hend hle _ rfl hending l
  · cases hf : tickForward s.part.pos phase with
    | true => exact (Part.tick_starts s.setup ht hf hlegal hs hstop hnow rfl).1
    | false =>
      obtain ⟨g, e⟩ := Part.tick_disqualifies s.setup hf hs (Part.starting_idle hlegal hs).1 hstop hnow
      rw [ht, e]
  · obtain ⟨g, e⟩ := Part.tick_disqualifies s.setup hf hs (Part.starting_idle hlegal hs).1 hstop hnow
    rw [ht, e]
    exact ⟨hs, rfl, rfl, rfl⟩
  · have counted : count = qualified s.setup now s.part.trc := by
      cases hlast : s.part.trc.lastTick with
      | none => rw [hnone hlast, qualified_none hlast]
      | some last => rw [hsome last hlast, qualified_some hlast, hnominal]
    exact (Part.tick_starts s.setup ht hf hlegal hs hstop hnow counted).2
  · exact Part.tick_spanned s.setup ht hf hs hk he hspan hticks h
  · obtain ⟨hplaying, hhcr, hop⟩ := Part.tick_surveying s.setup ht hs hk hspan hticks hstop hmodes hslip fun _ => h
    rw [hf] at hop
    exact ⟨hplaying, hhcr, hop⟩
  · obtain ⟨hplaying, hhcr, hop⟩ := Part.tick_surveying s.setup ht hs hk hspan hticks hstop hmodes hslip
      fun k => absurd (hf.symm.trans k) nofun
    rw [hf] at hop
    exact ⟨hplaying, hhcr, hop⟩
  · have hw : s.part.trc.state = .windingFwd ∨ s.part.trc.state = .windingRev := (hreached.mp h).imp And.left And.left
    exact (Part.tick_winding s.setup ht hk hpoint hw hreached).1 h
  · exact (Part.tick_winding s.setup ht hk hpoint (hwinding.mp hw) hreached).2 h
  · exact (Part.tick_approaching s.setup ht hk he htarget hs).1 hf h
  · exact (Part.tick_approaching s.setup ht hk he htarget hs).2 h
  · exact Part.tick_tachChannel s.setup l ht hf hc hn hm
  · obtain ⟨hopen, hlast⟩ := s.part.tick_tach s.setup phase now l
    rw [← ht, Part.heard_unstamped s.setup l h] at hopen hlast
    exact ⟨hopen, hlast⟩
  · exact (Part.tick_tachMeasures s.setup l ht hf hc hn hm hsource he).1 h
  · exact ((Part.tick_tachMeasures s.setup l ht hf hc hn hm hsource he).2 m hmeas).1 h
  · intro _ hstop hnever done hdone
    obtain ⟨y, hy⟩ : ∃ y, y = s.part.setTracker l { s.part.rft.get l with
      meas := some { m with counted := m.counted + 1, lastStamp := 256 * n, lastIndex := n },
      tachOpen := (t.rft.get l).tachOpen, tachLast := (t.rft.get l).tachLast } := ⟨_, rfl⟩
    obtain ⟨hrft, hlanes, hcmn, hqueue⟩ := ((Part.tick_tachMeasures s.setup l ht hf hc hn hm hsource he).2 m hmeas).2 y hy
    have pending : (y.measurementComplete s.setup l).stopPending = false :=
      ((y.tracks_measurementComplete s.setup l).stop hnever).trans (by rw [hy]; exact hstop)
    have part : done.part = y.measurementComplete s.setup l := by
      obtain rfl := Host.Outcome.next.inj hdone
      rw [← Part.takeStop_none s.setup pending, hy]
      rfl
    rw [part]
    exact ⟨hrft, hlanes, hcmn (.lockLost l) (.inl rfl), hcmn (.range l) (.inr rfl), fun k hk => mem_of_queued hqueue k hk⟩
  · have closing : ¬s.part.tickEnds t.pos.position := fun k => hnot (hr.mpr k)
    have alike := Part.tick_slipClose s.setup ht hf hs hw hnever closing
    obtain rfl := Host.Outcome.next.inj hclosed
    exact ⟨alike.low, alike.slip, alike.window, alike.state, alike.ending⟩

end Sys2Proof.Machine
end

section
/-! SUPPORT. A lane transition and the block's first frame after it (03, R54; 04, R78, R79; 05, R100; 07, R130; 08, R140): what
the transition makes of the lane, and what the frame of the same event then leaves of it. -/

namespace Sys2Proof.Machine

open Sys2Proof.Safety

/-! ## The aligner half and the detectors -/

/-- The frame that opens a window adds nothing to it: its sums begin 16 samples in (07, R123). -/
theorem AzimuthWindow.gather_opened (r : Rings) (l : Lane) (n : Nat) :
    (AzimuthWindow.opened n).gather r l n = AzimuthWindow.opened n := by
  have lags (m : Nat) : lagTerm r l n n m = 0 := by
    unfold lagTerm
    exact if_neg fun h => by omega
  have energy (t : Track) : energyTerm r t n n = 0 := by
    unfold energyTerm
    exact if_neg fun h => by omega
  have sums : (List.range 33).map (fun m => (AzimuthWindow.opened n).lag m + lagTerm r l n n m) = List.replicate 33 0 := by
    simp only [lags]
    rfl
  have start : (AzimuthWindow.opened n).start = n := rfl
  unfold AzimuthWindow.gather
  rw [start, if_pos ⟨Nat.le_refl n, Nat.lt_add_of_pos_right (by decide)⟩, sums, energy, energy]
  rfl

theorem Aligner.takeSettings_window (x : Aligner) (s : Settings) (keep : Int) (start : Nat) :
    (x.takeSettings s keep start).window = if s.azMode = .fixed then none else some (AzimuthWindow.opened start) := by
  unfold Aligner.takeSettings
  cases s.azMode <;> rfl

/-- A half that has just taken settings keeps them through its window's first frame. -/
theorem Part.azimuthFrame_taken (u : Setup) (rings : Rings) {n : Nat} (l : Lane) {p : Part} {x : Aligner} {s : Settings} {keep : Int}
    (hx : p.aza.get l = x.takeSettings s keep n) (hn : p.hcr.nextIndex = n + 1) :
    (p.azimuthFrame u rings n l).aza.get l = x.takeSettings s keep n ∧ (p.azimuthFrame u rings n l).lanes = p.lanes := by
  have opened (w : AzimuthWindow) (hw : (x.takeSettings s keep n).window = some w) : w = AzimuthWindow.opened n := by
    rw [Aligner.takeSettings_window] at hw
    split at hw
    · cases hw
    · exact (Option.some.inj hw).symm
  have incomplete := p.azimuthFrame_incomplete u rings n l fun w hw => by
    rw [hx] at hw
    rw [opened w hw, hn]
    show n + 1 < n + 2048
    omega
  have gathered : (x.takeSettings s keep n).window.map (AzimuthWindow.gather rings l n) = (x.takeSettings s keep n).window := by
    cases hw : (x.takeSettings s keep n).window with
    | none => rfl
    | some w => rw [opened w hw, Option.map_some, AzimuthWindow.gather_opened]
  rw [incomplete, hx]
  refine ⟨?_, rfl⟩
  dsimp only
  rw [PerLane.get_set_same, gathered]
  split <;> rfl

theorem Aligner.takeSettings_eq (x : Aligner) (s : Settings) (start : Nat) : x.takeSettings s x.estimate start = { x with
    mode := s.azMode, fixedOffset := s.fixedOffset, theta := s.theta, ka := s.ka,
    estimate := if s.azMode = .track then x.estimate else s.fixedOffset,
    window := if s.azMode = .fixed then none else some ⟨start, List.replicate 33 0, 0, 0⟩ } := by
  unfold Aligner.takeSettings
  cases s.azMode <;> rfl

/-- Blanking over settings just taken: an ONSET run is abandoned where blanking is above 0. -/
theorem Detector.startBlanking_run {d : Detector} {v : Nat} (h : 0 < v ∧ d.state = .onset) :
    d.startBlanking v = { d with blank := v, state := .clear, run := 0, pendingStart := none } := if_pos h

theorem Detector.startBlanking_still {d : Detector} {v : Nat} (h : ¬(0 < v ∧ d.state = .onset)) :
    d.startBlanking v = { d with blank := v } := if_neg h

/-- Whatever the policy, blanking has started: a lock in the same event starts nothing more. -/
theorem detectorTransition_blanked (new : DropoutSettings) (b : Nat) (d : Detector) (spans : List Span) :
    (detectorTransition new b d spans).1.settings = new
      ∧ (detectorTransition new b d spans).1.startBlanking new.blanking = (detectorTransition new b d spans).1 := by
  obtain ⟨x, hx⟩ : ∃ x, x = { d with settings := new }.startBlanking new.blanking := ⟨_, rfl⟩
  have settings : x.settings = new := by rw [hx, Detector.startBlanking_settings]
  have blank : x.blank = new.blanking := by
    rw [hx]
    unfold Detector.startBlanking
    split <;> rfl
  have still (o : Option OpenDropout) : ({ x with state := .clear, run := 0, pendingStart := none, openDropout := o } : Detector).startBlanking
      new.blanking = { x with state := .clear, run := 0, pendingStart := none, openDropout := o } := by
    rw [Detector.startBlanking_still (by rintro ⟨-, ⟨⟩⟩), ← blank]
  unfold detectorTransition
  dsimp only
  rw [← hx]
  split
  · split
    · exact ⟨settings, still none⟩
    · exact ⟨settings, still x.openDropout⟩
  · refine ⟨settings, ?_⟩
    rw [hx, Detector.startBlanking_twice]

/-- A detector at a transition, under a policy that runs it (08, R140). -/
theorem detectorTransition_on {new : DropoutSettings} (b : Nat) (d x : Detector) (spans : List Span) (h : new.policy ≠ .off)
    (hx : x = { d with settings := new, blank := new.blanking }) :
    (detectorTransition new b d spans).2 = spans
      ∧ (0 < new.blanking → x.state = .onset → (detectorTransition new b d spans).1 = { x with state := .clear, run := 0, pendingStart := none })
      ∧ (¬(0 < new.blanking ∧ x.state = .onset) → (detectorTransition new b d spans).1 = x) := by
  unfold detectorTransition
  dsimp only
  rw [if_neg h]
  subst hx
  exact ⟨rfl, fun hb hs => Detector.startBlanking_run (d := { d with settings := new }) ⟨hb, hs⟩,
    fun hs => Detector.startBlanking_still (d := { d with settings := new }) hs⟩

/-- A detector at a transition to OFF: it clears, and closes an open dropout before the block (08, R140). -/
theorem detectorTransition_off {new : DropoutSettings} (b : Nat) (d x : Detector) (spans : List Span) (h : new.policy = .off)
    (hx : x = { d with settings := new, blank := new.blanking }) :
    (detectorTransition new b d spans).1 = { x with state := .clear, run := 0, pendingStart := none, openDropout := none }
      ∧ (x.openDropout = none → (detectorTransition new b d spans).2 = spans)
      ∧ ∀ o, x.openDropout = some o → (detectorTransition new b d spans).2
          = closeSpans (64 * b - 1) (min 65535 (o.length + if x.state = .releasing then x.run else 0)) o.least false spans := by
  obtain ⟨y, hy⟩ : ∃ y, y = { d with settings := new }.startBlanking new.blanking := ⟨_, rfl⟩
  have cleared (o : Option OpenDropout) : ({ y with state := .clear, run := 0, pendingStart := none, openDropout := o } : Detector)
      = { x with state := .clear, run := 0, pendingStart := none, openDropout := o } := by
    rw [hy, hx]
    unfold Detector.startBlanking
    split <;> rfl
  have dropout : y.openDropout = x.openDropout := by
    rw [hy, hx]
    unfold Detector.startBlanking
    split <;> rfl
  have releasing : (if y.state = .releasing then y.run else 0) = if x.state = .releasing then x.run else 0 := by
    rw [hy, hx]
    by_cases k : 0 < new.blanking ∧ d.state = .onset
    · rw [Detector.startBlanking_run (d := { d with settings := new }) k]
      simp [k.2]
    · rw [Detector.startBlanking_still (d := { d with settings := new }) k]
  unfold detectorTransition
  dsimp only
  rw [← hy, if_pos h, ← dropout, ← releasing, ← cleared]
  cases y.openDropout with
  | none => exact ⟨rfl, fun _ => rfl, nofun⟩
  | some o =>
    refine ⟨rfl, nofun, fun o' ho => ?_⟩
    cases ho
    rfl

/-! ## The tracker's part of a transition -/

theorem Tracker.turnedTo_stopped (u : Setup) (new : Settings) (index : Nat) (t : Tracker) :
    (t.turnedTo u new index).settings = new ∧ (t.turnedTo u new index).coeffs = filterFor u.rates new
      ∧ (t.turnedTo u new index).mode = t.mode ∧ (t.turnedTo u new index).meas = none
      ∧ (t.turnedTo u new index).hold = none ∧ (t.turnedTo u new index).ramp = none := by
  unfold Tracker.turnedTo
  dsimp only
  split <;> exact ⟨rfl, rfl, rfl, rfl, rfl, rfl⟩

theorem Tracker.turnedTo_measured (u : Setup) {new : Settings} (index : Nat) (t : Tracker) (h : new.source.isMeasured = true) :
    (t.turnedTo u new index).step = t.step ∧ (t.turnedTo u new index).acquire = 0 ∧ (t.turnedTo u new index).missCount = 0
      ∧ (t.turnedTo u new index).filter = FilterState.zero ∧ (t.turnedTo u new index).armed = false
      ∧ (t.turnedTo u new index).last = 0 ∧ (t.turnedTo u new index).origin = index := by
  unfold Tracker.turnedTo
  dsimp only
  cases hs : new.source
  case nominal => rw [hs] at h; cases h
  case off => rw [hs] at h; cases h
  all_goals exact ⟨rfl, rfl, rfl, rfl, rfl, rfl, rfl⟩

theorem Tracker.turnedTo_nominal (u : Setup) {new : Settings} (index : Nat) (t : Tracker) (h : new.source = .nominal) :
    (t.turnedTo u new index).step = u.rates.nominal := by
  unfold Tracker.turnedTo
  dsimp only
  rw [h]

theorem Tracker.turnedTo_off (u : Setup) {new : Settings} (index : Nat) (t : Tracker) (h : new.source = .off) :
    (t.turnedTo u new index).step = t.step := by
  unfold Tracker.turnedTo
  dsimp only
  rw [h]

/-- With the same source and f_ref a transition puts the new settings in use and does nothing more (04, R78). -/
theorem Part.trackerTransition_same (u : Setup) (l : Lane) (new : Settings) (index : Nat) (p : Part)
    (hs : new.source = (p.rft.get l).settings.source) (hf : new.fRef = (p.rft.get l).settings.fRef) :
    p.trackerTransition u l new index
      = { p with rft := p.rft.set l { p.rft.get l with settings := new, coeffs := filterFor u.rates new } } := if_pos ⟨hs, hf⟩

/-- The new settings differ from those in use in what a tracker measures. -/
def Tracker.retargets (t : Tracker) (new : Settings) : Prop := ¬(new.source = t.settings.source ∧ new.fRef = t.settings.fRef)

/-- The entries a transition posts after its SETTINGS: for a tracker turned to NOMINAL the STEP to it comes first (04, R79; 05, R100). -/
theorem Part.turned_steps (u : Setup) (index : Nat) (l : Lane) (p : Part) : ∃ es : List TimelineEntry,
    (∀ e ∈ es, ∃ stamp v, e = ⟨stamp, .step v⟩)
      ∧ ((p.effective l).source = .nominal → (p.rft.get l).retargets (p.effective l) → es.head? = some ⟨index, .step u.rates.nominal⟩)
      ∧ (p.turned u index l).lanes.get l = es.foldl (Producer.post u.rates) ((p.lanes.get l).post u.rates
          ⟨index, .settings ((p.sgt.arrival.get l).map Entry.start) (p.effective l)⟩) := by
  obtain ⟨x, hx⟩ : ∃ x, x = p.postEntry u l ⟨index, .settings ((p.sgt.arrival.get l).map Entry.start) (p.effective l)⟩ := ⟨_, rfl⟩
  have lane : x.lanes.get l = (p.lanes.get l).post u.rates
      ⟨index, .settings ((p.sgt.arrival.get l).map Entry.start) (p.effective l)⟩ := by
    rw [hx]
    exact PerLane.get_set_same _ _ _
  by_cases h : (p.effective l).source = .nominal ∧ (p.rft.get l).retargets (p.effective l)
  · obtain ⟨hnominal, hchanged⟩ := h
    obtain ⟨c, b, m, e, -⟩ := Part.trackerTransition_changed u l (p.effective l) index x (by rw [hx]; exact hchanged)
    refine ⟨[⟨index, .step u.rates.nominal⟩], by simp, fun _ _ => rfl, ?_⟩
    have whole : p.turned u index l = x.trackerTransition u l (p.effective l) index := by rw [hx]; rfl
    rw [whole, e, if_pos hnominal, ← lane]
    exact PerLane.get_set_same _ _ _
  · obtain ⟨es, hes, e⟩ := (p.tracks_turned u index l).steps
    refine ⟨es, hes, fun h1 h2 => absurd ⟨h1, h2⟩ h, ?_⟩
    rw [e, ← lane, hx]
    rfl

/-- Every transition puts the new settings in use. -/
theorem Part.turned_settings (u : Setup) (index : Nat) (l : Lane) (p : Part) :
    ((p.turned u index l).rft.get l).settings = p.effective l
      ∧ ((p.turned u index l).rft.get l).coeffs = filterFor u.rates (p.effective l)
      ∧ ((p.turned u index l).rft.get l).mode = (p.rft.get l).mode := by
  have tracks := p.tracks_turned u index l
  refine ⟨tracks.settings.trans ?_, tracks.coeffs.trans ?_, tracks.mode.trans ?_⟩ <;>
    rw [Part.setTracker_rft, PerLane.get_set_same]

/-- A transition to another source or f_ref, for the tracker, its conditions and its LOCK_CHANGED. -/
theorem Part.turned_changed (u : Setup) (index : Nat) (l : Lane) (p : Part) (h : (p.rft.get l).retargets (p.effective l)) :
    (p.turned u index l).rft.get l
        = { (p.rft.get l).turnedTo u (p.effective l) index with lock := (p.effective l).source.turnedLock }
      ∧ (p.turned u index l).msp.notices = (if (p.rft.get l).lock = (p.effective l).source.turnedLock then p.msp.notices else
          postNotice (.lockChanged l (p.rft.get l).lock (p.effective l).source.turnedLock (some index)
            ((p.rft.get l).turnedTo u (p.effective l) index).step) p.msp.notices)
      ∧ ((p.turned u index l).cmn.get (.range l)).present = false
      ∧ ((p.rft.get l).lock = .fallback → ((p.turned u index l).cmn.get (.lockLost l)).present = false) := by
  obtain ⟨c, b, m, e, hm, hrange, hlost⟩ := Part.trackerTransition_changed u l (p.effective l) index
    (p.postEntry u l ⟨index, .settings ((p.sgt.arrival.get l).map Entry.start) (p.effective l)⟩) h
  unfold Part.turned
  rw [e]
  exact ⟨PerLane.get_set_same _ _ _, hm, hrange, hlost⟩

/-! ## A lane that turns, from the judgement to the end of the event -/

/-- t is what the first frame of a block makes of p for a lane that turns: j is the judged part the transition is taken from, and q the
part with the frame counted that the lane's tracker reads. -/
structure Part.LaneTurn (u : Setup) (n : Nat) (f : PerTrack Int) (l : Lane) (p j q t : Part) : Prop where
  before : j.rft.get l = p.rft.get l ∧ j.lanes.get l = p.lanes.get l
  beforeTracks : ∀ tr : Track, tr.lane = l → j.det.get tr = p.det.get tr ∧ j.con.get tr = p.con.get tr
  beforeQueue : queued (lockKind l) j.msp.notices = queued (lockKind l) p.msp.notices
  arrival : j.sgt = t.sgt
  turned : q.rft.get l = (j.turned u n l).rft.get l ∧ q.lanes.get l = (j.turned u n l).lanes.get l
  turnedCmn : ∀ id, id = .lockLost l ∨ id = .range l → q.cmn.get id = (j.turned u n l).cmn.get id
  turnedQueue : queued (lockKind l) q.msp.notices = queued (lockKind l) (j.turned u n l).msp.notices
  receiver : q.hcr.capturing = true ∧ q.hcr.nextIndex = n + 1
  tracker : t.rft.get l = (q.trackerFrame u n f l).rft.get l ∧ t.lanes.get l = (q.trackerFrame u n f l).lanes.get l
  cmn : ∀ id, id = .lockLost l ∨ id = .range l → t.cmn.get id = (q.trackerFrame u n f l).cmn.get id
  notices : ∀ k : Notice, k.content.kind = lockKind l → (k ∈ t.msp.notices ↔ k ∈ (q.trackerFrame u n f l).msp.notices)
  aza : t.aza.get l = (p.aza.get l).takeSettings (j.effective l) (p.aza.get l).estimate n
  tracks : ∀ tr : Track, tr.lane = l → t.det.get tr = (detectorTransition (j.effective l).dropout (n / 64) (p.det.get tr) (p.con.get tr).spans).1
    ∧ t.con.get tr = { p.con.get tr with
        spans := (detectorTransition (j.effective l).dropout (n / 64) (p.det.get tr) (p.con.get tr).spans).2 }
  word : ∀ pair, pair = t.eqPair → t.hcr.wordSending = (if p.hcr.latestWord = some pair then p.hcr else p.hcr.wordDue pair).wordSending
    ∧ t.hcr.wordWaiting = (if p.hcr.latestWord = some pair then p.hcr else p.hcr.wordDue pair).wordWaiting

/-- The tracker's part of a transition leaves every detector. -/
theorem Part.turned_det (u : Setup) (index : Nat) (l : Lane) (p : Part) : (p.turned u index l).det = p.det := by
  by_cases h : (p.rft.get l).retargets (p.effective l)
  · obtain ⟨c, b, m, e, -⟩ := Part.trackerTransition_changed u l (p.effective l) index
      (p.postEntry u l ⟨index, .settings ((p.sgt.arrival.get l).map Entry.start) (p.effective l)⟩) h
    unfold Part.turned
    rw [e]
    rfl
  · obtain ⟨hsource, href⟩ := not_not.mp h
    unfold Part.turned
    rw [Part.trackerTransition_same u l _ index (p.postEntry u l _) hsource href]
    rfl

/-- A lane transition in one lane's tracks. -/
theorem Part.laneTransition_tracks (u : Setup) (index : Nat) (l : Lane) (p : Part) {tr : Track} (h : tr.lane = l) :
    (p.laneTransition u index l).det.get tr
        = (detectorTransition (p.effective l).dropout (index / 64) (p.det.get tr) (p.con.get tr).spans).1
      ∧ (p.laneTransition u index l).con.get tr = { p.con.get tr with
          spans := (detectorTransition (p.effective l).dropout (index / 64) (p.det.get tr) (p.con.get tr).spans).2 } := by
  obtain ⟨d, c, e, htracks, -⟩ := p.laneTransition_spec u index l
  obtain ⟨pair, hg, hsource⟩ := htracks tr h
  rw [p.turned_det] at pair
  rw [e, ← pair]
  refine ⟨rfl, ?_⟩
  dsimp only
  rw [← hg, ← hsource]

theorem Part.effective_eq (p : Part) (l : Lane) :
    p.effective l = ((p.sgt.arrival.get l).bind fun e => e.parts.get l).getD Settings.defaults := by
  unfold Part.effective
  cases p.sgt.arrival.get l <;> rfl

theorem Part.counted_begins (u : Setup) {p : Part} {b : Nat} (h : p.hcr.nextIndex = 64 * b) :
    p.counted u = { p.blockBegin u (64 * b) p.pos.position with
      hcr := { (p.blockBegin u (64 * b) p.pos.position).hcr with nextIndex := 64 * b + 1 } } := by
  unfold Part.counted
  dsimp only
  rw [h, if_pos (show 64 * b % Config.blockSize = 0 from Nat.mul_mod_right 64 b)]

/-- A block's first frame for a lane that turns. -/
theorem Part.laneTurn_counted (u : Setup) (rings : Rings) {n b : Nat} (f : PerTrack Int) (l : Lane) {p x t : Part} (hn : n = 64 * b)
    (hx : x = p.counted u) (ht : t = x.arrived u rings n f) (hindex : p.hcr.nextIndex = n) (hcapturing : p.hcr.capturing = true)
    (hrun : p.take.device = .run) (hturns : (p.sgt.arrival.get l).map Entry.start ≠ (t.sgt.arrival.get l).map Entry.start) :
    ∃ j q, p.LaneTurn u n f l j q t ∧ (p.judged u p.pos.position).sgt = j.sgt := by
  subst hn
  have counted := hx.trans (Part.counted_begins u hindex)
  obtain ⟨begun, hbegun⟩ : ∃ y, y = p.blockBegin u (64 * b) p.pos.position := ⟨_, rfl⟩
  rw [← hbegun] at counted
  have sgt : t.sgt = (p.judged u p.pos.position).sgt := by
    rw [ht, (Part.arrived_sgt ..).1, counted, ← p.blockBegin_sgt u (64 * b) p.pos.position hrun, hbegun]
  have turns : p.turns l (p.judged u p.pos.position) = true := by
    rw [sgt] at hturns
    unfold Part.turns sameEntry
    simpa using hturns
  obtain ⟨j, hj, hlane, hword⟩ := p.blockBegin_lane u (64 * b) p.pos.position hrun l turns
  rw [← hbegun] at hlane hword
  have inside : 64 * b % 64 ≠ 63 := by omega
  obtain ⟨q, hq, hrft, hdet, hcmn, hnotices, hhcr, r, hraza, hrhcr, hrlanes, haza, hlanes⟩ :=
    x.arrived_lane u rings (64 * b) f l inside
  rw [← ht] at hrft hdet hcmn hnotices hhcr haza hlanes
  have next : x.hcr.nextIndex = 64 * b + 1 := by rw [counted]
  have capturing : x.hcr.capturing = true := by
    rw [hx]
    exact (Part.counted_capturing u p).trans hcapturing
  obtain ⟨d, c, hspec, -⟩ := j.laneTransition_spec u (64 * b) l
  have taken : r.aza.get l = (p.aza.get l).takeSettings (j.effective l) (p.aza.get l).estimate (64 * b) := by
    have turned : (j.laneTransition u (64 * b) l).aza.get l
        = (j.aza.get l).takeSettings (j.effective l) (j.aza.get l).estimate (64 * b) := by
      rw [hspec]
      exact PerLane.get_set_same _ _ _
    have same : j.aza.get l = p.aza.get l := hj.aza
    rw [hraza, counted, ← same, ← turned]
    exact hlane.aza
  obtain ⟨hkept, hstill⟩ := r.azimuthFrame_taken u rings l taken (by rw [hrhcr, next])
  refine ⟨j, q, ⟨⟨hj.rft, hj.lanes⟩, fun tr htr => ⟨hj.det tr htr, hj.con tr htr⟩, hj.queue, hj.sgt.trans sgt.symm, ⟨?_, ?_⟩,
    fun id hid => ?_, ?_, ⟨by rw [hq.hcr, capturing], by rw [hq.hcr, next]⟩, ⟨hrft, ?_⟩, hcmn, hnotices, haza.trans hkept,
    fun tr htr => ?_, ?_⟩, hj.sgt.symm⟩
  · rw [hq.rft, counted]
    exact hlane.rft.trans (by rw [hspec])
  · rw [hq.lanes, counted]
    exact hlane.lanes.trans (by rw [hspec])
  · rw [hq.cmn id hid, counted]
    exact (hlane.cmn id hid).trans (by rw [hspec])
  · rw [hq.queue, counted]
    exact hlane.queue.trans (by rw [hspec])
  · rw [hlanes, hstill, hrlanes]
  · obtain ⟨hd, hc⟩ := hdet tr htr
    obtain ⟨kd, kc⟩ := j.laneTransition_tracks u (64 * b) l htr
    have tracked : q.det.get tr = (j.laneTransition u (64 * b) l).det.get tr := by
      rw [hq.det tr htr, counted]
      exact hlane.det tr htr
    have concealed : x.con.get tr = (j.laneTransition u (64 * b) l).con.get tr := by
      rw [counted]
      exact hlane.con tr htr
    have det : j.det.get tr = p.det.get tr := hj.det tr htr
    have con : j.con.get tr = p.con.get tr := hj.con tr htr
    rw [det, con] at kd kc
    refine ⟨?_, hc.trans (concealed.trans kc)⟩
    obtain ⟨hsettings, hblank⟩ := detectorTransition_blanked (j.effective l).dropout (64 * b / 64) (p.det.get tr) (p.con.get tr).spans
    rw [hd]
    rcases (q.tracks_trackerFrame u (64 * b) f l).blanked tr htr with k | k
    · rw [k, tracked, kd]
    · rw [k, tracked, kd, hsettings, hblank]
  · intro pair hpair
    have judged : pair = (p.judged u p.pos.position).eqPair := by
      rw [hpair]
      unfold Part.eqPair Part.effective
      rw [sgt]
    rw [hhcr, counted, judged, ← hword]
    exact ⟨rfl, rfl⟩

end Sys2Proof.Machine
end

section
/-! SUPPORT and PROOFS. A lane transition, read off the part the event leaves (03, R54; 04, R78, R79; 05, R100; 07, R130; 08, R140; 01, R8). -/

namespace Sys2Proof.Machine

open Sys2Proof.Safety

/-- The reference of the settings a lane turns to, taken from a legal table. -/
theorem Part.effective_reference (u : Setup) (l : Lane) {p j : Part} (hsgt : (p.judged u p.pos.position).sgt = j.sgt)
    (htable : tableLegal u.rates.fr u.entries = true) (haudio : (j.effective l).source.isAudio = true) :
    0 < (j.effective l).fRef ∧ (j.effective l).fRef ≤ (j.effective l).c * u.rates.fr := by
  have same : j.effective l = (p.judged u p.pos.position).effective l := by
    unfold Part.effective
    rw [hsgt]
  rw [same] at haudio ⊢
  exact p.judged_reference u p.pos.position l htable haudio

theorem Source.isMeasured_of_isAudio {s : Source} (h : s.isAudio = true) : s.isMeasured = true := by
  cases s <;> simp_all [Source.isAudio, Source.isMeasured]

theorem Source.isAudio_of_isMeasured {s : Source} (h : s.isMeasured = true) (ht : s ≠ .tach) : s.isAudio = true := by
  cases s <;> simp_all [Source.isAudio, Source.isMeasured]

section
variable {u : Setup} {n : Nat} {f : PerTrack Int} {l : Lane} {p j q t : Part} (h : p.LaneTurn u n f l j q t)
include h

/-- The settings a lane turns to, read off the entry that governs it after the event. -/
theorem Part.LaneTurn.effective : j.effective l = ((t.sgt.arrival.get l).bind fun e => e.parts.get l).getD Settings.defaults := by
  rw [j.effective_eq, h.arrival]

/-- The lane's timeline takes SETTINGS and then STEP entries, of a tracker turned to NOMINAL first the STEP to it. -/
theorem Part.LaneTurn.timeline : ∃ steps : List TimelineEntry, (∀ e ∈ steps, ∃ stamp v, e = ⟨stamp, .step v⟩)
    ∧ ((j.effective l).source = .nominal → (p.rft.get l).retargets (j.effective l) →
        steps.head? = some ⟨n, .step u.rates.nominal⟩)
    ∧ t.lanes.get l = steps.foldl (Producer.post u.rates) ((p.lanes.get l).post u.rates
        ⟨n, .settings ((t.sgt.arrival.get l).map Entry.start) (j.effective l)⟩) := by
  obtain ⟨es, hes, hhead, e⟩ := j.turned_steps u n l
  obtain ⟨ks, hks, k⟩ := (q.tracks_trackerFrame u n f l).steps
  obtain ⟨hrft, hlanes⟩ := h.before
  rw [hrft] at hhead
  refine ⟨es ++ ks, fun x hx => (List.mem_append.mp hx).elim (hes x) (hks x), fun h1 h2 => ?_, ?_⟩
  · rw [List.head?_append, hhead h1 h2]
    rfl
  · rw [h.tracker.2, k, h.turned.2, e, hlanes, h.arrival, List.foldl_append]

/-- The tracker has the new settings and their filter in use, in the mode it had. -/
theorem Part.LaneTurn.settings : (t.rft.get l).settings = j.effective l
    ∧ (t.rft.get l).coeffs = filterFor u.rates (j.effective l) := by
  have tracks := q.tracks_trackerFrame u n f l
  obtain ⟨hsettings, hcoeffs, -⟩ := j.turned_settings u n l
  rw [h.tracker.1, tracks.settings, tracks.coeffs, h.turned.1]
  exact ⟨hsettings, hcoeffs⟩

/-- The tracker turned to another source or f_ref, as the frame of the same event leaves it: the filter and the detector alone have read
the frame, where the tracker measures an audio source. -/
theorem Part.LaneTurn.restarted (hchanged : (p.rft.get l).retargets (j.effective l)) (hdeck : deckInRange u.deck = true)
    (href : (j.effective l).source.isAudio = true → 0 < (j.effective l).fRef ∧ (j.effective l).fRef ≤ (j.effective l).c * u.rates.fr) :
    ∃ y : Tracker, y = { (p.rft.get l).turnedTo u (j.effective l) n with lock := (j.effective l).source.turnedLock }
      ∧ q.rft.get l = y ∧ q.trackerFrame u n f l = { q with rft := q.rft.set l (t.rft.get l) }
      ∧ ((t.rft.get l).meas = none ∧ (t.rft.get l).hold = none ∧ (t.rft.get l).ramp = none ∧ (t.rft.get l).lock = y.lock
        ∧ (t.rft.get l).step = y.step ∧ (t.rft.get l).acquire = y.acquire ∧ (t.rft.get l).missCount = y.missCount
        ∧ ((j.effective l).source.isMeasured = true → (t.rft.get l).origin = y.origin))
      ∧ ∀ v : Int, v = filtered y.coeffs y.filter (f.get l.first + f.get l.second) →
          if (q.measuring l && (j.effective l).source.isAudio) = true then
            (t.rft.get l).filter = ⟨f.get l.first + f.get l.second, y.filter.x1, v, y.filter.y1⟩ ∧ (t.rft.get l).last = v
              ∧ (t.rft.get l).armed = decide (v < -((j.effective l).gate : Int))
          else (t.rft.get l).filter = y.filter ∧ (t.rft.get l).last = y.last ∧ (t.rft.get l).armed = y.armed := by
  obtain ⟨new, hnew⟩ : ∃ new, new = j.effective l := ⟨_, rfl⟩
  rw [← hnew] at hchanged href ⊢
  obtain ⟨y, hy⟩ : ∃ y : Tracker, y = { (p.rft.get l).turnedTo u new n with lock := new.source.turnedLock } := ⟨_, rfl⟩
  obtain ⟨hsettings, hcoeffs, hmode, hmeas, hhold, hramp⟩ := (p.rft.get l).turnedTo_stopped u new n
  have read : q.rft.get l = y := by
    obtain ⟨e, -⟩ := j.turned_changed u n l (by rw [h.before.1, ← hnew]; exact hchanged)
    rw [h.turned.1, e, h.before.1, hy, hnew]
  have settings : y.settings = new := by rw [hy]; exact hsettings
  obtain ⟨x, e, ⟨x1, x2, x3, x4, x5, x6, x7, -, -, x10⟩, hfilter⟩ := q.trackerFrame_restarted u n f l y read.symm
    (by rw [hy]; exact hmeas) (by rw [hy]; exact hhold) (by rw [hy]; exact hramp)
    (fun ha => by
      rw [settings] at ha
      rw [hy]
      exact ((p.rft.get l).turnedTo_measured u n (Source.isMeasured_of_isAudio ha)).2.2.2.2.1)
    h.receiver.2
    (fun hm _ => by
      have measured : new.source.isMeasured = true := by rw [← settings]; exact hm
      refine ⟨?_, Tracker.span_pos u y hdeck (by rw [settings]; exact href) hm⟩
      rw [hy]
      exact ((p.rft.get l).turnedTo_measured u n measured).2.2.2.2.2.2)
  have tracker : t.rft.get l = x := by
    rw [h.tracker.1, e]
    exact PerLane.get_set_same _ _ _
  rw [settings] at x10 hfilter
  rw [tracker]
  exact ⟨y, hy, read, e, ⟨x1, x2, x3, x4, x5, x6, x7, x10⟩, hfilter⟩

/-- The conditions and the LOCK_CHANGED of a tracker turned to another source or f_ref, where the frame adds nothing to them. -/
theorem Part.LaneTurn.reported (hchanged : (p.rft.get l).retargets (j.effective l)) {x : PerLane Tracker}
    (hframe : q.trackerFrame u n f l = { q with rft := x }) :
    (t.cmn.range.get l).present = false ∧ ((p.rft.get l).lock = .fallback → (t.cmn.lockLost.get l).present = false)
      ∧ ((p.rft.get l).lock ≠ (j.effective l).source.turnedLock → ∃ k ∈ t.msp.notices, k.content
          = .lockChanged l (p.rft.get l).lock (j.effective l).source.turnedLock (some n) ((p.rft.get l).turnedTo u (j.effective l) n).step)
      ∧ ((p.rft.get l).lock = (j.effective l).source.turnedLock → ∀ k : Notice, k.content.kind = lockKind l →
          (k ∈ t.msp.notices ↔ k ∈ p.msp.notices)) := by
  obtain ⟨-, hnotices, hrange, hlost⟩ := j.turned_changed u n l (by rw [h.before.1]; exact hchanged)
  rw [h.before.1] at hnotices hlost
  have cmn (id : CondId) (hid : id = .lockLost l ∨ id = .range l) : t.cmn.get id = (j.turned u n l).cmn.get id := by
    rw [h.cmn id hid, hframe]
    exact h.turnedCmn id hid
  have notices (k : Notice) (hk : k.content.kind = lockKind l) : k ∈ t.msp.notices ↔ k ∈ (j.turned u n l).msp.notices := by
    rw [h.notices k hk, hframe]
    exact mem_of_queued h.turnedQueue k hk
  refine ⟨(congrArg CondStatus.present (cmn (.range l) (.inr rfl))).trans hrange,
    fun k => (congrArg CondStatus.present (cmn (.lockLost l) (.inl rfl))).trans (hlost k), fun hne => ?_, fun heq k hk => ?_⟩
  · rw [if_neg hne] at hnotices
    obtain ⟨k, hk, hcontent⟩ := postNotice_mem (.lockChanged l (p.rft.get l).lock (j.effective l).source.turnedLock (some n)
      ((p.rft.get l).turnedTo u (j.effective l) n).step) j.msp.notices (by cases l <;> nofun)
    refine ⟨k, (notices k ?_).mpr (by rw [hnotices]; exact hk), hcontent⟩
    rw [hcontent]
    cases l <;> rfl
  · rw [if_pos heq] at hnotices
    rw [notices k hk, hnotices]
    exact mem_of_queued h.beforeQueue k hk

end

theorem Source.turnedLock_measured {s : Source} (h : s.isMeasured = true) : s.turnedLock = .search := if_pos h

theorem Source.turnedLock_unmeasured {s : Source} (h : s.isMeasured = false) : s.turnedLock = .idle := by
  unfold Source.turnedLock
  rw [h]
  rfl

theorem filtered_zero (k : FilterCoeffs) (x : Int) :
    filtered k FilterState.zero x = clampInt (-16777216) 16777215 (k.b0 * x / 1073741824) := by
  simp [filtered, FilterState.zero]

/-- What a transition's tracker, measured source by measured source, makes of the frame of the same event. -/
theorem Part.LaneTurn.filter {u : Setup} {n : Nat} {f : PerTrack Int} {l : Lane} {p j q t : Part} (h : p.LaneTurn u n f l j q t)
    (hchanged : (p.rft.get l).retargets (j.effective l)) (hdeck : deckInRange u.deck = true)
    (href : (j.effective l).source.isAudio = true → 0 < (j.effective l).fRef ∧ (j.effective l).fRef ≤ (j.effective l).c * u.rates.fr)
    (hmeasured : (j.effective l).source.isMeasured = true) :
    ((j.effective l).source = .tach ∨ (p.rft.get l).mode = .none → (t.rft.get l).filter = ⟨0, 0, 0, 0⟩
      ∧ (t.rft.get l).armed = false ∧ (t.rft.get l).last = 0)
    ∧ ((j.effective l).source ≠ .tach → (p.rft.get l).mode ≠ .none → ∀ sum y : Int, sum = f.get l.first + f.get l.second →
        y = clampInt (-16777216) 16777215 ((filterFor u.rates (j.effective l)).b0 * sum / 1073741824) →
        (t.rft.get l).filter = ⟨sum, 0, y, 0⟩ ∧ (t.rft.get l).last = y
        ∧ ((t.rft.get l).armed = true ↔ y < -((j.effective l).gate : Int))) := by
  obtain ⟨y, hy, hread, -, -, hfilter⟩ := h.restarted hchanged hdeck href
  obtain ⟨hsettings, hcoeffs, hmode, -⟩ := (p.rft.get l).turnedTo_stopped u (j.effective l) n
  obtain ⟨-, -, -, hzero, harmed, hlast, -⟩ := (p.rft.get l).turnedTo_measured u n hmeasured
  have mode : (q.rft.get l).mode = (p.rft.get l).mode := by
    rw [hread, hy]
    exact hmode
  have settings : (q.rft.get l).settings = j.effective l := by
    rw [hread, hy]
    exact hsettings
  have zero : y.filter = FilterState.zero := by rw [hy]; exact hzero
  have armed : y.armed = false := by rw [hy]; exact harmed
  have last : y.last = 0 := by rw [hy]; exact hlast
  have coeffs : y.coeffs = filterFor u.rates (j.effective l) := by rw [hy]; exact hcoeffs
  rw [zero, armed, last, coeffs] at hfilter
  constructor
  · intro hidle
    have deaf : (q.measuring l && (j.effective l).source.isAudio) = false := by
      rcases hidle with k | k
      · rw [k]
        exact Bool.and_false _
      · unfold Part.measuring
        rw [mode, k, Bool.and_false, Bool.false_and]
    obtain ⟨h1, h2, h3⟩ := (if_neg (by rw [deaf]; nofun)).mp (hfilter _ rfl)
    exact ⟨h1, h3, h2⟩
  · intro htach hworks sum v hsum hv
    have hears : (q.measuring l && (j.effective l).source.isAudio) = true := by
      rw [Source.isAudio_of_isMeasured hmeasured htach, Bool.and_true]
      unfold Part.measuring
      rw [h.receiver.1, mode, settings]
      cases hm : (p.rft.get l).mode with
      | none => exact absurd hm hworks
      | take => exact hmeasured
      | survey => rfl
    subst hsum
    rw [← filtered_zero] at hv
    obtain ⟨h1, h2, h3⟩ := (if_pos hears).mp (hfilter v hv)
    exact ⟨h1, h2, by rw [h3, decide_eq_true_eq]⟩

/-- The tracker's record, conditions and notice at a transition to another source or f_ref, after the event's own frame. -/
theorem Part.LaneTurn.changed {u : Setup} {n : Nat} {f : PerTrack Int} {l : Lane} {p j q t : Part} (h : p.LaneTurn u n f l j q t)
    {new : Settings} (hnew : new = j.effective l) (hchanged : (p.rft.get l).retargets new) (hdeck : deckInRange u.deck = true)
    (href : new.source.isAudio = true → 0 < new.fRef ∧ new.fRef ≤ new.c * u.rates.fr) :
    (t.rft.get l).meas = none ∧ (t.rft.get l).hold = none ∧ (t.rft.get l).ramp = none
      ∧ (new.source.isMeasured = true → (t.rft.get l).lock = .search ∧ (t.rft.get l).step = (p.rft.get l).step
          ∧ (t.rft.get l).acquire = 0 ∧ (t.rft.get l).missCount = 0 ∧ (t.rft.get l).origin = n)
      ∧ (new.source = .nominal → (t.rft.get l).lock = .idle ∧ (t.rft.get l).step = u.rates.nominal)
      ∧ (new.source = .off → (t.rft.get l).lock = .idle ∧ (t.rft.get l).step = (p.rft.get l).step)
      ∧ (t.cmn.range.get l).present = false
      ∧ ((p.rft.get l).lock = .fallback → (t.cmn.lockLost.get l).present = false)
      ∧ ((p.rft.get l).lock ≠ (t.rft.get l).lock → ∃ k ∈ t.msp.notices,
          k.content = .lockChanged l (p.rft.get l).lock (t.rft.get l).lock (some n) (t.rft.get l).step)
      ∧ ((p.rft.get l).lock = (t.rft.get l).lock → ∀ k : Notice, k.content.kind = lockKind l →
          (k ∈ t.msp.notices ↔ k ∈ p.msp.notices)) := by
  subst hnew
  obtain ⟨y, hy, -, hframe, ⟨hmeas, hhold, hramp, hlock, hstep, hacquire, hmiss, horigin⟩, -⟩ := h.restarted hchanged hdeck href
  obtain ⟨hrange, hlost, hposts, hkeeps⟩ := h.reported hchanged hframe
  have lock : (t.rft.get l).lock = (j.effective l).source.turnedLock := by rw [hlock, hy]
  have step : (t.rft.get l).step = ((p.rft.get l).turnedTo u (j.effective l) n).step := by rw [hstep, hy]
  rw [hmeas, hhold, hramp, lock, step]
  refine ⟨rfl, rfl, rfl, fun hm => ?_, fun hs => ?_, fun hs => ?_, hrange, hlost, hposts, hkeeps⟩
  · obtain ⟨tstep, tacquire, tmiss, -, -, -, torigin⟩ := (p.rft.get l).turnedTo_measured u n hm
    rw [hacquire, hmiss, horigin hm, hy]
    exact ⟨Source.turnedLock_measured hm, tstep, tacquire, tmiss, torigin⟩
  · exact ⟨Source.turnedLock_unmeasured (by rw [hs]; rfl), (p.rft.get l).turnedTo_nominal u n hs⟩
  · exact ⟨Source.turnedLock_unmeasured (by rw [hs]; rfl), (p.rft.get l).turnedTo_off u n hs⟩

/-- One track of a lane that turns (08, R140). -/
theorem Part.LaneTurn.track {u : Setup} {b : Nat} {f : PerTrack Int} {l : Lane} {p j q t : Part} (h : p.LaneTurn u (64 * b) f l j q t)
    {new : Settings} (hnew : new = j.effective l) {tr : Track} (htr : tr.lane = l) {d : Detector}
    (hd : d = { p.det.get tr with settings := new.dropout, blank := new.blanking }) :
    (new.policy ≠ .off → t.con.get tr = p.con.get tr
      ∧ (0 < new.blanking → d.state = .onset → t.det.get tr = { d with state := .clear, run := 0, pendingStart := none })
      ∧ (¬(0 < new.blanking ∧ d.state = .onset) → t.det.get tr = d))
    ∧ (new.policy = .off → t.det.get tr = { d with state := .clear, run := 0, pendingStart := none, openDropout := none }
      ∧ (d.openDropout = none → t.con.get tr = p.con.get tr)
      ∧ ∀ o run, d.openDropout = some o → run = (if d.state = .releasing then d.run else 0) →
          t.con.get tr = { p.con.get tr with
            spans := closeSpans (64 * b - 1) (min 65535 (o.length + run)) o.least false (p.con.get tr).spans }) := by
  have index : 64 * b / 64 = b := Nat.mul_div_cancel_left b (by decide)
  obtain ⟨hdet, hcon⟩ := h.tracks tr htr
  rw [← hnew, index] at hdet hcon
  rw [hdet, hcon]
  constructor <;> intro hp
  · obtain ⟨hspans, honset, hstill⟩ := detectorTransition_on b (p.det.get tr) d (p.con.get tr).spans (new := new.dropout) hp hd
    exact ⟨by rw [hspans], honset, hstill⟩
  · obtain ⟨hclear, hnone, hsome⟩ := detectorTransition_off b (p.det.get tr) d (p.con.get tr).spans (new := new.dropout) hp hd
    refine ⟨hclear, fun ho => by rw [hnone ho], fun o run ho hrun => ?_⟩
    rw [hsome o ho, hrun]

theorem HeadReceiver.wordDue_none {h : HeadReceiver} (pair : EqPair) (hs : h.wordSending = none) :
    h.wordDue pair = { h with wordSending := some pair } := by
  unfold HeadReceiver.wordDue
  rw [hs]

theorem HeadReceiver.wordDue_some {h : HeadReceiver} (pair : EqPair) (hs : h.wordSending ≠ none) :
    h.wordDue pair = { h with wordWaiting := some pair } := by
  unfold HeadReceiver.wordDue
  cases hw : h.wordSending with
  | none => exact absurd hw hs
  | some w => rfl

/-- Settles O38: the lane that turns is read off `Part.LaneTurn`, which every block's first frame gives (`Part.laneTurn_counted`), part by
part of the lane. -/
theorem laneTransition : Obligations.LaneTransition := by
  refine ⟨fun bytes f b l s hbrings hnever hlegal hindex hrun => ?_, fun u l new index p hs hf =>
    Part.trackerTransition_same u l new index p hs hf⟩
  obtain ⟨c, -, hkept, hexec⟩ := exec_brings hbrings hnever
  obtain ⟨-, -, -, hcapturing, -⟩ := hbrings
  obtain ⟨p, hp⟩ : ∃ p : Part, p = { s.part with hcr := s.part.hcr.taken s.part.hcr.expected f, cmn := c } := ⟨_, rfl⟩
  obtain ⟨t, ht⟩ : ∃ t, t = (p.counted s.setup).arrived s.setup (s.ringsAfter f) (64 * b) f := ⟨_, rfl⟩
  have answer : exec (.frameSlot bytes) s = .next { s with rings := s.ringsAfter f, part := t } := by
    rw [hexec p hp, ht, hindex]
  refine ⟨_, answer, fun hturns new hnew => ?_⟩
  dsimp only at hturns hnew ⊢
  obtain ⟨hdeck, htable⟩ : deckInRange s.setup.deck = true ∧ tableLegal s.setup.rates.fr s.setup.entries = true := by
    simp only [setupLegal, Bool.and_eq_true] at hlegal
    exact hlegal.1.1.1.1
  obtain ⟨j, q, turn, hsgt⟩ := Part.laneTurn_counted s.setup (s.ringsAfter f) f l (p := p) (t := t) rfl rfl ht
    (by rw [hp]; exact hindex) (by rw [hp]; exact hcapturing) (by rw [hp]; exact hrun) (by rw [hp]; exact hturns)
  have effective : new = j.effective l := hnew.trans turn.effective.symm
  have href : new.source.isAudio = true → 0 < new.fRef ∧ new.fRef ≤ new.c * s.setup.rates.fr := fun ha => by
    rw [effective] at ha ⊢
    exact Part.effective_reference s.setup l hsgt htable ha
  have rft : p.rft = s.part.rft := by rw [hp]
  have lanes : p.lanes = s.part.lanes := by rw [hp]
  have aza : p.aza = s.part.aza := by rw [hp]
  have det : p.det = s.part.det := by rw [hp]
  have con : p.con = s.part.con := by rw [hp]
  have msp : p.msp = s.part.msp := by rw [hp]
  have timeline := turn.timeline
  have settings := turn.settings
  have half := turn.aza.trans (Aligner.takeSettings_eq _ _ _)
  rw [← effective, rft, lanes] at timeline
  rw [← effective] at settings
  rw [← effective, aza] at half
  refine ⟨timeline, settings.1, settings.2, fun hchanged => ?_, half, fun tr htr d hd => ?_, fun pair hpair latest hlatest => ?_⟩
  · have changed := turn.changed effective (by rw [rft]; exact hchanged) hdeck href
    have filter (hm : new.source.isMeasured = true) := turn.filter (effective ▸ by rw [rft]; exact hchanged) hdeck (effective ▸ href)
      (effective ▸ hm)
    rw [← effective, rft] at filter
    rw [rft, msp] at changed
    obtain ⟨h1, h2, h3, h4, h5, h6, h7, h8, h9, h10⟩ := changed
    exact ⟨h1, h2, h3, h4, h5, h6, h7, h8, h9, h10, filter⟩
  · have track := turn.track effective htr (d := d) (by rw [det]; exact hd)
    rw [con] at track
    simpa [closeSpans] using track
  · obtain ⟨hsending, hwaiting⟩ := turn.word pair (by
      rw [hpair, Part.eqPair, t.effective_eq, t.effective_eq]
      rfl)
    have latestWord : p.hcr.latestWord = latest := by
      rw [hlatest, hp]
      rfl
    have sending : p.hcr.wordSending = s.part.hcr.wordSending := by rw [hp]; rfl
    have waiting : p.hcr.wordWaiting = s.part.hcr.wordWaiting := by rw [hp]; rfl
    rw [hsending, hwaiting, latestWord, ← sending, ← waiting]
    refine ⟨fun h => ?_, fun h hs => ?_, fun h hs => ?_⟩
    · rw [if_pos h]
      exact ⟨rfl, rfl⟩
    · rw [if_neg h, HeadReceiver.wordDue_none pair hs]
      exact ⟨rfl, rfl⟩
    · rw [if_neg h, HeadReceiver.wordDue_some pair hs]
      exact ⟨rfl, rfl⟩

end Sys2Proof.Machine
end

section
/-! What every step keeps of the device, the operation and the blocks a take works with (O58). -/

namespace Sys2Proof.Machine

open Sys2Proof.Safety

/-! ## The transport at a soft reset -/

theorem Transport.softReset_rests (now : Nat) (t : Transport) : (t.softReset now).state.moving = false := by
  cases h : t.state.moving
  · rw [(Transport.softReset_still now t h).1, h]
  · rw [(Transport.softReset_moving now t h).1]
    rfl

/-- A soft reset leaves no operation, no capture and a transport that settles or stands. -/
theorem Part.play_softBlocks (u : Setup) (p : Part) : Part.playLegal (p.softBlocks u) :=
  Part.playLegal_idle nofun (Transport.softReset_fields p.timebase p.trc).1 (Transport.softReset_rests _ _) rfl

theorem Part.rests_softBlocks (u : Setup) (p : Part) : (p.softBlocks u).Rests := by
  refine ⟨fun _ l => ?_, fun tr => ?_⟩
  · cases l <;> refine ⟨rfl, nofun, nofun, rfl, rfl, fun tr _ => ?_⟩ <;> cases tr <;> exact ⟨rfl, rfl⟩
  · cases tr <;> exact ⟨fun _ _ => nofun, fun h => absurd rfl h⟩

/-! ## The device state outside RUN -/

/-- Outside RUN the device state is free: the operation says only whether it is RUN. -/
theorem Part.play_enter {p : Part} {d : DeviceState} (hd : d ≠ .run) (hp : p.take.device ≠ .run) (k : Part.playLegal p) :
    Part.playLegal { p with take := { p.take with device := d } } :=
  ⟨⟨fun h => absurd h hd, fun h => absurd (k.1.mpr h) hp⟩, k.2⟩

theorem Part.rests_enter {p : Part} (d : DeviceState) (hp : p.take.device ≠ .run) (h : p.Rests) :
    Part.Rests { p with take := { p.take with device := d } } :=
  ⟨fun _ => h.1 hp, h.2⟩

/-! ## New rates -/

theorem Part.play_wordClockChanged (u : Setup) (p : Part) (k : Part.playLegal p) : Part.playLegal (p.wordClockChanged u) :=
  (Part.works_reportAbsent _ _ _).play (Part.play_hcr _ id k)

theorem Part.rests_wordClockChanged (u : Setup) (p : Part) (h : p.Rests) : (p.wordClockChanged u).Rests :=
  Part.rests_works (Part.works_reportAbsent _ _ _) (Part.calm_reportAbsent _ _ _) (Part.rests_hcr _ rfl h)

theorem Part.rests_ratioChanged (u : Setup) (p : Part) (h : p.Rests) : (p.ratioChanged u).Rests := by
  refine ⟨fun k l => ?_, h.2⟩
  cases l
  · exact h.1 k .a
  · exact h.1 k .b

theorem State.takeRates_play (new : RatePair) (s : State) (k : Part.playLegal s.part) : Part.playLegal (s.takeRates new).part := by
  refine Part.play_takeStop _ _ ((Part.works_refind _ _).play ?_)
  have clock (u : Setup) : Part.playLegal (if new.fr = s.setup.rates.fr then s.part else s.part.wordClockChanged u) :=
    Part.play_ite k (Part.play_wordClockChanged _ _ k)
  exact Part.play_ite (clock _) (clock _)

theorem State.takeRates_rests (new : RatePair) (s : State) (k : Part.playLegal s.part) (h : s.part.Rests) :
    (s.takeRates new).part.Rests := by
  have clock (u : Setup) : Part.playLegal (if new.fr = s.setup.rates.fr then s.part else s.part.wordClockChanged u) :=
    Part.play_ite k (Part.play_wordClockChanged _ _ k)
  have clockRests (u : Setup) : (if new.fr = s.setup.rates.fr then s.part else s.part.wordClockChanged u).Rests :=
    Part.rests_ite h (Part.rests_wordClockChanged _ _ h)
  refine Part.rests_takeStop _ _ ((Part.works_refind _ _).play (Part.play_ite (clock _) (clock _))) ?_
  exact Part.rests_works (Part.works_refind _ _) (Part.calm_refind _ _)
    (Part.rests_ite (clockRests _) (Part.rests_ratioChanged _ _ (clockRests _)))

/-! ## Policies -/

theorem Part.works_policySets (u : Setup) (ids : List CondId) (p : Part) :
    p.Works (ids.foldl (fun p id => p.policySet u id) p) :=
  Part.Works.foldl _ (fun p id => Part.works_policySet u id p) ids p

theorem Part.calm_policySets (u : Setup) (ids : List CondId) (p : Part) :
    p.Calm (ids.foldl (fun p id => p.policySet u id) p) := by
  induction ids generalizing p with
  | nil => exact .refl p
  | cons id ids ih => exact (Part.calm_policySet u id p).trans (ih _)

/-! ## Motions and stops -/

theorem Part.rests_windStart (d : Direction) (p : Part) (hs : p.trc.state = .stopped) (h : p.Rests) : (p.windStart d).Rests :=
  Part.rests_alike (p := p) ⟨rfl, rfl, rfl, rfl, rfl⟩ rfl (by rw [hs]; nofun) h

theorem Part.rests_rewindStart (p : Part) (hs : p.trc.state = .stopped) (h : p.Rests) : p.rewindStart.Rests :=
  Part.rests_alike (p := p) ⟨rfl, rfl, rfl, rfl, rfl⟩ rfl (by rw [hs]; nofun) h

theorem Part.atRest_stopped {p : Part} (h : p.atRest = true) : p.trc.state = .stopped := ((Part.atRest_iff p).mp h).1

theorem HeadReceiver.wordSent_capture (h : HeadReceiver) :
    h.wordSent.capturing = h.capturing ∧ h.wordSent.nextIndex = h.nextIndex := by
  unfold HeadReceiver.wordSent
  split <;> exact ⟨rfl, rfl⟩

/-! ## The two invariants -/

/-- Every owner and every event keeps the device state, the operation and the transport in agreement. -/
theorem keeps_playLegal : Keeps fun s => Part.playLegal s.part where
  softReset s _ := (Part.works_refind _ _).play (Part.play_softBlocks _ _)
  enter _ _ hd hp k := Part.play_enter hd hp k
  lockTables _ _ := id
  takeRates new s _ k := s.takeRates_play new k
  coeffs _ _ _ := id
  selectBank _ _ _ := id
  setDeck _ _ := id
  setPosition _ _ k := (Part.works_follow _ _).play (Part.play_pos _ k)
  windStart d s hr k := Part.play_windStart d _ k hr
  seekStart n s hr k := Part.play_seekStart _ n _ k hr
  rewindStart s hr k := Part.play_rewindStart _ k hr
  stop s k := Part.play_takeStop _ _ (Part.play_endAs _ _ _ _ k)
  surveyStart l src f c w n s hr k := Part.play_surveyStart _ l src f c w n _ k hr
  loadSegment _ _ _ _ _ k := (Part.works_follow _ _).play k
  deleteSegment _ _ k := (Part.works_follow _ _).play k
  clearSegments _ k := (Part.works_follow _ _).play k
  takeStart e s hr k := Part.play_takeStart _ e _ k hr
  readDropouts _ _ := id
  takePolicies ids _ _ _ _ k := Part.play_takeStop _ _ ((Part.works_policySets _ ids _).play k)
  clearConditions _ _ := id
  setNoticeMask _ _ := id
  setMonitor _ _ := id
  setOutput _ _ := id
  port _ _ _ := id
  accept _ _ := id
  cellError _ k := Part.play_takeStop _ _ ((Part.works_occur _ _ _).play k)
  hardReset _ _ _ := Part.playLegal_idle nofun rfl rfl rfl
  frameSlot := play_frameSlot
  wordSent s := Part.play_hcr _ fun h => by rwa [(HeadReceiver.wordSent_capture _).1] at h
  works _ _ w _ k := w.play k
  takeStop _ k := Part.play_takeStop _ _ k
  upstreamSlot _ k := Part.play_upstreamSlot _ _ _ _ k
  tick phase now _ k := Part.play_tick _ phase now _ k
  qualify _ k := Part.play_qualify _ k
  surveyIfCounted _ k := Part.play_surveyIfCounted _ _ k
  pulse _ k := Part.play_pulse _ k
  slipClose _ k := Part.play_slipClose _ _ k
  leaderChange _ k := Part.play_leaderChange _ _ k
  insertCassette _ k := Part.play_insertCassette _ _ k
  removeCassette _ k := Part.play_removeCassette _ _ k
  settleExpiry _ k := Part.play_settleExpiry _ _ k
  stallExpiry _ k := Part.play_stallExpiry _ _ k
  startingExpiry _ k := Part.play_startingExpiry _ _ k
  leaderLimitExpiry _ k := Part.play_leaderLimitExpiry _ _ k
  bothPhases _ k := Part.play_bothPhases _ k

/-- What every owner and event does to the blocks of a take, given the agreement of the device, the operation and the transport. -/
theorem keeps_rests : Keeps fun s => Part.playLegal s.part ∧ s.part.Rests where
  softReset s k := ⟨keeps_playLegal.softReset s k.1,
    Part.rests_works (Part.works_refind _ _) (Part.calm_refind _ _) (Part.rests_softBlocks _ _)⟩
  enter d _ hd hp := fun ⟨k, h⟩ => ⟨Part.play_enter hd hp k, Part.rests_enter d hp h⟩
  lockTables _ _ := id
  takeRates new s _ := fun ⟨k, h⟩ => ⟨s.takeRates_play new k, s.takeRates_rests new k h⟩
  coeffs _ _ _ := id
  selectBank _ _ _ := id
  setDeck _ _ := id
  setPosition x s := fun ⟨k, h⟩ => ⟨keeps_playLegal.setPosition x s k,
    Part.rests_follow _ _ ((Part.Calm.of_same ⟨rfl, rfl, rfl, rfl, rfl⟩).rests rfl rfl rfl h)⟩
  windStart d _ hr := fun ⟨k, h⟩ => ⟨Part.play_windStart d _ k hr, Part.rests_windStart d _ (Part.atRest_stopped hr) h⟩
  seekStart n _ hr := fun ⟨k, h⟩ => ⟨Part.play_seekStart _ n _ k hr, Part.rests_seekStart _ n _ (Part.atRest_stopped hr) h⟩
  rewindStart _ hr := fun ⟨k, h⟩ => ⟨Part.play_rewindStart _ k hr, Part.rests_rewindStart _ (Part.atRest_stopped hr) h⟩
  stop s := fun ⟨k, h⟩ => ⟨keeps_playLegal.stop s k,
    Part.rests_takeStop _ _ (Part.play_endAs _ _ _ _ k) (Part.rests_endAs _ _ _ _ k h)⟩
  surveyStart l src f c w n _ hr := fun ⟨k, h⟩ => ⟨Part.play_surveyStart _ l src f c w n _ k hr,
    Part.rests_surveyStart _ l src f c w n _ (Part.atRest_stopped hr) h⟩
  loadSegment _ _ _ _ _ := fun ⟨k, h⟩ => ⟨(Part.works_follow _ _).play k, Part.rests_follow _ _ h⟩
  deleteSegment _ _ := fun ⟨k, h⟩ => ⟨(Part.works_follow _ _).play k, Part.rests_follow _ _ h⟩
  clearSegments _ := fun ⟨k, h⟩ => ⟨(Part.works_follow _ _).play k, Part.rests_follow _ _ h⟩
  takeStart e _ hr := fun ⟨k, _⟩ => ⟨Part.play_takeStart _ e _ k hr, Part.rests_takeStart _ e _⟩
  readDropouts _ _ := id
  takePolicies ids _ _ s _ := fun ⟨k, h⟩ =>
    have w := Part.works_policySets _ ids s.part
    ⟨Part.play_takeStop _ _ (w.play k),
      Part.rests_takeStop _ _ (w.play k) (Part.rests_works w (Part.calm_policySets _ ids _) h)⟩
  clearConditions _ _ := id
  setNoticeMask _ _ := id
  setMonitor _ _ := id
  setOutput _ _ := id
  port _ _ _ := id
  accept _ _ := id
  cellError s := fun ⟨k, h⟩ =>
    have w := Part.works_occur s.setup .cellError s.part
    ⟨Part.play_takeStop _ _ (w.play k), Part.rests_takeStop _ _ (w.play k) (Part.rests_works w (Part.calm_raise _ _ _) h)⟩
  hardReset v _ _ := ⟨Part.playLegal_idle nofun rfl rfl rfl, Part.rests_reset v⟩
  frameSlot bytes s := fun ⟨k, h⟩ => ⟨play_frameSlot bytes s k, rests_frameSlot bytes s k h⟩
  wordSent s := fun ⟨k, h⟩ => ⟨keeps_playLegal.wordSent s k, Part.rests_hcr _ (HeadReceiver.wordSent_capture _).2 h⟩
  works _ _ w c := fun ⟨k, h⟩ => ⟨w.play k, Part.rests_works w c h⟩
  takeStop _ := fun ⟨k, h⟩ => ⟨Part.play_takeStop _ _ k, Part.rests_takeStop _ _ k h⟩
  upstreamSlot _ := fun ⟨k, h⟩ => ⟨Part.play_upstreamSlot _ _ _ _ k, Part.rests_upstreamSlot _ _ _ _ k h⟩
  tick phase now _ := fun ⟨k, h⟩ => ⟨Part.play_tick _ phase now _ k, Part.rests_tick _ phase now _ k h⟩
  qualify _ := fun ⟨k, h⟩ => ⟨Part.play_qualify _ k, Part.rests_qualify _ h⟩
  surveyIfCounted _ := fun ⟨k, h⟩ => ⟨Part.play_surveyIfCounted _ _ k, Part.rests_surveyIfCounted _ _ k h⟩
  pulse _ := fun ⟨k, h⟩ => ⟨Part.play_pulse _ k, Part.rests_pulse _ h⟩
  slipClose _ := fun ⟨k, h⟩ => ⟨Part.play_slipClose _ _ k, Part.rests_slipClose _ _ h⟩
  leaderChange _ := fun ⟨k, h⟩ => ⟨Part.play_leaderChange _ _ k, Part.rests_leaderChange _ _ k h⟩
  insertCassette _ := fun ⟨k, h⟩ => ⟨Part.play_insertCassette _ _ k, Part.rests_insertCassette _ _ h⟩
  removeCassette _ := fun ⟨k, h⟩ => ⟨Part.play_removeCassette _ _ k, Part.rests_removeCassette _ _ k h⟩
  settleExpiry _ := fun ⟨k, h⟩ => ⟨Part.play_settleExpiry _ _ k, Part.rests_settleExpiry _ _ h⟩
  stallExpiry _ := fun ⟨k, h⟩ => ⟨Part.play_stallExpiry _ _ k, Part.rests_stallExpiry _ _ k h⟩
  startingExpiry _ := fun ⟨k, h⟩ => ⟨Part.play_startingExpiry _ _ k, Part.rests_startingExpiry _ _ k h⟩
  leaderLimitExpiry _ := fun ⟨k, h⟩ => ⟨Part.play_leaderLimitExpiry _ _ k, Part.rests_leaderLimitExpiry _ _ k h⟩
  bothPhases _ := id

/-- Settles O58: no row of the table breaks the agreement of device, operation and transport, nor, given it, the rest of the blocks. -/
theorem stepKeepsPlayLegal : Obligations.StepKeepsPlayLegal := by
  refine ⟨fun s t k e => keeps_playLegal.step (fun _ _ => id) s t k e, fun s t k hrests hspans e => ?_⟩
  exact (keeps_rests.step (fun _ _ => id) s t ⟨k, hrests, hspans⟩ e).2

end Sys2Proof.Machine
end

section
/-! What every step keeps of what commands configure (O60). -/

namespace Sys2Proof.Machine

open Sys2Proof.Safety

/-! ## The clauses of the configuration's rules -/

theorem setupLegal_iff (s : State) :
    setupLegal s = true ↔ deckInRange s.setup.deck = true ∧ tableLegal s.setup.rates.fr s.setup.entries = true
      ∧ policiesAllowed s.setup.policies = true ∧ (within 64 960 s.setup.threshold = true ∧ s.setup.threshold % 64 = 0)
      ∧ (s.setup.bankLoaded = true → s.bank.full = true) := by
  have loaded (b c : Bool) : (!b || c) = true ↔ (b = true → c = true) := by cases b <;> simp
  simp only [setupLegal, Bool.and_eq_true, loaded, decide_eq_true_eq]
  tauto

theorem tableLegal_iff (fr : Nat) (entries : List Entry) :
    tableLegal fr entries = true ↔ ascending entries = true ∧ entries.length ≤ 64 ∧ ∀ e ∈ entries, entryInRange fr e = true := by
  simp only [tableLegal, Bool.and_eq_true, decide_eq_true_eq, List.all_eq_true]
  exact and_assoc

theorem tableLegal_nil (fr : Nat) : tableLegal fr [] = true := rfl

theorem entryInRange_iff (fr : Nat) (e : Entry) :
    entryInRange fr e = true ↔ e.start ≤ 16777215 ∧ e.label ≤ 65535
      ∧ e.parts.a.all (partInRange fr) = true ∧ e.parts.b.all (partInRange fr) = true := by
  simp only [entryInRange, Bool.and_eq_true, decide_eq_true_eq, and_assoc]
  exact Iff.rfl

theorem policiesAllowed_iff (x : PerCond PolicyRec) :
    policiesAllowed x = true ↔ ∀ id ∈ condIds, (x.get id).policy ∈ id.allowed := by
  simp only [policiesAllowed, List.all_eq_true, List.contains_eq_mem, decide_eq_true_eq]

/-! ## The deck and the threshold (02, R20; 09, R173) -/

theorem Deck.clamped_inRange (d : Deck) : deckInRange d.clamped = true := by
  have tick := clampNat_within (show 160 ≤ 16000 by omega) d.tickRate
  have nc := clampNat_within (show 16 ≤ 65535 by omega) d.nc
  have slip := clampNat_within (show 128 ≤ 255 by omega) d.slipThreshold
  have count := clampNat_within (show 1 ≤ 15 by omega) d.slipCount
  have approach := clampNat_within (show 16 ≤ 4096 by omega) d.approach
  have stall := clampNat_within (show 100 ≤ 2000 by omega) d.stallTime
  have settle := clampNat_within (show 100 ≤ 1000 by omega) d.settleTime
  have leader := clampNat_within (show 10 ≤ 600 by omega) d.leaderLimit
  simp only [deckInRange, Deck.clamped, tick, nc, slip, count, approach, stall, settle, leader, Bool.and_self]

theorem thresholdOf_legal (v : Nat) : within 64 960 (thresholdOf v) = true ∧ thresholdOf v % 64 = 0 := by
  obtain ⟨low, high⟩ := (within_iff 64 960 _).mp (clampNat_within (by omega) v)
  rw [within_iff]
  unfold thresholdOf
  omega

/-! ## The table (03, R41, R46, R60) -/

theorem clampedPart_inRange (r : RatePair) {raw part : Option Settings} {changed : Bool}
    (h : clampedPart r.fr raw = some (part, changed)) : part.all (partInRange r.fr) = true := by
  cases raw with
  | none =>
    injection h with h
    injection h with h
    rw [← h]
    rfl
  | some raw =>
    unfold clampedPart Settings.checked at h
    dsimp only at h
    split at h
    · cases h
    · rename_i hc
      injection h with h
      injection h with h
      rw [← h]
      refine clampRanges_inRange r raw ?_
      have source : raw.storeUnmeasured.source = raw.source := by
        unfold Settings.storeUnmeasured
        split <;> rfl
      rw [source] at hc ⊢
      exact Bool.eq_false_of_not_eq_true hc

/-- An entry that passes LOAD_SEGMENT's checks lies in its ranges. -/
theorem checkSegment_inRange (r : RatePair) {a : SegmentArgs} {x : Loading} (h : checkSegment r.fr a = .passed x) :
    entryInRange r.fr x.entry = true := by
  unfold checkSegment at h
  split at h
  · split at h
    · split at h
      · rename_i ha hb
        injection h with h
        rw [← h, entryInRange_iff]
        refine ⟨?_, ?_, clampedPart_inRange r ha, clampedPart_inRange r hb⟩
        · have := a.start.isLt
          exact Nat.le_of_lt_succ this
        · have := a.label.isLt
          exact Nat.le_of_lt_succ this
      · cases h
    · cases h
  · cases h

/-- An entry that is let in leaves the table at most 64 long: it replaces one, or there was room. -/
theorem insertSegment_fits (u : Setup) (p : Part) (x : Loading) (hb : loadBlocked u p x = none) (ha : ascending u.entries = true)
    (hl : u.entries.length ≤ 64) : (insertSegment x.entry u.entries).length ≤ 64 := by
  by_cases held : holdsStart u.entries x.entry.start = true
  · rw [insertSegment_length_held _ _ ha held]
    exact hl
  · have room : ¬Config.maxEntries ≤ u.entries.length := fun full => by
      simp only [loadBlocked, held, full, Bool.false_eq_true, if_true, if_false] at hb
      split at hb <;> cases hb
    have room : u.entries.length < 64 := Nat.lt_of_not_le room
    exact (insertSegment_length_le _ _).trans room

theorem insertSegment_legal (r : RatePair) (u : Setup) (p : Part) (a : SegmentArgs) (x : Loading)
    (hx : checkSegment r.fr a = .passed x) (hb : loadBlocked u p x = none) (h : tableLegal r.fr u.entries = true) :
    tableLegal r.fr (insertSegment x.entry u.entries) = true := by
  rw [tableLegal_iff] at h ⊢
  obtain ⟨hasc, hlen, hall⟩ := h
  refine ⟨insertSegment_ascending _ _ hasc, insertSegment_fits u p x hb hasc hlen, fun e he => ?_⟩
  rcases (insertSegment_mem _ _ hasc e).mp he with rfl | ⟨he, -⟩
  · exact checkSegment_inRange r hx
  · exact hall e he

theorem tableLegal_filter {fr : Nat} {entries : List Entry} (keep : Entry → Bool) (h : tableLegal fr entries = true) :
    tableLegal fr (entries.filter keep) = true := by
  rw [tableLegal_iff] at h ⊢
  obtain ⟨hasc, hlen, hall⟩ := h
  exact ⟨ascending_filter _ _ hasc, (List.length_filter_le _ _).trans hlen, fun e he => hall e (List.mem_of_mem_filter he)⟩

theorem Entry.conflicts_eq_false {fr : Nat} {e : Entry} (h : e.conflicts fr = false) (part : Option Settings)
    (hp : part = e.parts.a ∨ part = e.parts.b) (s : Settings) (hs : part = some s) : fRefConflict fr s.source s.fRef = false := by
  subst hs
  simp only [Entry.conflicts, List.any_cons, List.any_nil, Bool.or_false, Bool.or_eq_false_iff] at h
  obtain ⟨ha, hb⟩ := h
  rcases hp with hp | hp
  · rw [← hp] at ha
    exact ha
  · rw [← hp] at hb
    exact hb

theorem raiseC_all (old new : RatePair) (part : Option Settings) (h : part.all (partInRange old.fr) = true)
    (hc : ∀ s, part = some s → fRefConflict new.fr s.source s.fRef = false) :
    (part.map (Settings.raiseC new.fr)).all (partInRange new.fr) = true := by
  cases part with
  | none => rfl
  | some s => exact raiseC_inRange old new s h (hc s rfl)

/-- New rates that conflict with no entry leave a legal table, each C raised to its new lower bound. -/
theorem tableLegal_raiseC (old new : RatePair) (entries : List Entry) (hc : entries.any (Entry.conflicts new.fr) = false)
    (h : tableLegal old.fr entries = true) : tableLegal new.fr (entries.map (Entry.raiseC new.fr)) = true := by
  rw [tableLegal_iff] at h ⊢
  obtain ⟨hasc, hlen, hall⟩ := h
  refine ⟨ascending_map (Entry.raiseC new.fr) (fun _ => rfl) _ hasc, List.length_map (as := entries) _ ▸ hlen, fun e he => ?_⟩
  obtain ⟨x, hx, rfl⟩ := List.mem_map.mp he
  obtain ⟨hstart, hlabel, ha, hb⟩ := (entryInRange_iff _ _).mp (hall x hx)
  have sampled := Entry.conflicts_eq_false (Bool.eq_false_of_not_eq_true fun t => (List.any_eq_false.mp hc x hx) t)
  exact (entryInRange_iff _ _).mpr ⟨hstart, hlabel, raiseC_all old new _ ha (sampled _ (.inl rfl)),
    raiseC_all old new _ hb (sampled _ (.inr rfl))⟩

/-! ## The loaded bank (06, R116) -/

/-- A row written stays marked, and so does every other. -/
theorem LoadedBank.full_writeRow {b : LoadedBank} (r : Nat) (coeffs : List Int) (h : b.full = true) :
    (b.writeRow r coeffs).full = true := by
  unfold LoadedBank.full at h ⊢
  rw [List.all_eq_true] at h ⊢
  intro k hk
  show ((b.written.write r 1).read k != 0) = true
  by_cases hkr : k = r
  · rw [hkr, Memory.read_write_mark _ _ _ one_ne_zero]
    rfl
  · rw [Memory.read_write_other _ _ hkr]
    exact h k hk

/-! ## A frame slot leaves the configuration alone -/

theorem State.passCopies_config (f : PerTrack Int) (k : Nat) (s : State) :
    (s.passCopies f k).setup = s.setup ∧ (s.passCopies f k).bank = s.bank := by
  induction k generalizing s with
  | zero => exact ⟨rfl, rfl⟩
  | succ k ih =>
    obtain ⟨-, hsetup, hbank, -⟩ := s.passOn_spec f
    exact ⟨(ih _).1.trans hsetup, (ih _).2.trans hbank⟩

theorem State.takeFrame_config (seq : Byte) (f : PerTrack Int) (s : State) :
    (s.takeFrame seq f).setup = s.setup ∧ (s.takeFrame seq f).bank = s.bank := by
  obtain ⟨-, hsetup, hbank, -⟩ := State.passOn_spec f ((s.taking seq f).onPart (Part.takeStop s.setup))
  exact ⟨hsetup, hbank⟩

theorem frameSlot_config (bytes : List Byte) (s : State) :
    (frameSlot bytes s).setup = s.setup ∧ (frameSlot bytes s).bank = s.bank := by
  unfold frameSlot
  dsimp only
  split
  · exact ⟨rfl, rfl⟩
  · exact s.takeFrame_config _ _
  · split
    · obtain ⟨-, hsetup, hbank, -⟩ := State.passOn_spec s.part.hcr.lastGood (s.onPart (Part.hold s.setup 1))
      exact ⟨hsetup, hbank⟩
    · exact ⟨rfl, rfl⟩
  · split
    · exact s.takeFrame_config _ _
    · split
      · obtain ⟨tsetup, tbank⟩ := State.takeFrame_config _ _ (State.passCopies _ _ (s.onPart _))
        obtain ⟨csetup, cbank⟩ := State.passCopies_config _ _ (s.onPart _)
        exact ⟨tsetup.trans csetup, tbank.trans cbank⟩
      · exact ⟨rfl, rfl⟩

/-! ## The invariant -/

/-- The same configuration is as legal. -/
theorem setupLegal_congr {s t : State} (h : t.setup = s.setup ∧ t.bank = s.bank) (k : setupLegal s = true) : setupLegal t = true := by
  unfold setupLegal at k ⊢
  rw [h.1, h.2]
  exact k

/-- Only commands and the resets configure; each leaves what it sets within its rules, and everything else as it was. -/
theorem keeps_setupLegal : Keeps fun s => setupLegal s = true where
  softReset s h := by
    rw [setupLegal_iff] at h ⊢
    obtain ⟨hdeck, htable, hpolicies, hthreshold, hbank⟩ := h
    show deckInRange s.setup.softReset.deck = true ∧ tableLegal s.setup.softReset.rates.fr s.setup.softReset.entries = true
      ∧ policiesAllowed s.setup.softReset.policies = true
      ∧ (within 64 960 s.setup.softReset.threshold = true ∧ s.setup.softReset.threshold % 64 = 0)
      ∧ (s.setup.softReset.bankLoaded = true → (s.bank.softReset s.setup.locked).full = true)
    unfold Setup.softReset LoadedBank.softReset
    split
    · exact ⟨hdeck, htable, hpolicies, hthreshold, hbank⟩
    · exact ⟨hdeck, tableLegal_nil _, hpolicies, hthreshold, nofun⟩
  enter _ _ _ _ := id
  lockTables _ _ := id
  takeRates new s hc h := by
    rw [setupLegal_iff] at h ⊢
    obtain ⟨hdeck, htable, hrest⟩ := h
    exact ⟨hdeck, tableLegal_raiseC s.setup.rates new _ hc htable, hrest⟩
  coeffs row coeffs s h := by
    rw [setupLegal_iff] at h ⊢
    obtain ⟨hdeck, htable, hpolicies, hthreshold, hbank⟩ := h
    exact ⟨hdeck, htable, hpolicies, hthreshold, fun hb => LoadedBank.full_writeRow _ _ (hbank hb)⟩
  selectBank b s hb h := by
    rw [setupLegal_iff] at h ⊢
    obtain ⟨hdeck, htable, hpolicies, hthreshold, -⟩ := h
    exact ⟨hdeck, htable, hpolicies, hthreshold, hb⟩
  setDeck d s h := by
    rw [setupLegal_iff] at h ⊢
    exact ⟨d.clamped_inRange, h.2⟩
  setPosition _ _ := id
  windStart _ _ _ := id
  seekStart _ _ _ := id
  rewindStart _ _ := id
  stop _ := id
  surveyStart _ _ _ _ _ _ _ _ := id
  loadSegment a x s hx hb h := by
    rw [setupLegal_iff] at h ⊢
    obtain ⟨hdeck, htable, hrest⟩ := h
    exact ⟨hdeck, insertSegment_legal s.setup.rates s.setup s.part a x hx hb htable, hrest⟩
  deleteSegment n s h := by
    rw [setupLegal_iff] at h ⊢
    obtain ⟨hdeck, htable, hrest⟩ := h
    exact ⟨hdeck, tableLegal_filter _ htable, hrest⟩
  clearSegments s h := by
    rw [setupLegal_iff] at h ⊢
    obtain ⟨hdeck, -, hrest⟩ := h
    exact ⟨hdeck, tableLegal_nil _, hrest⟩
  takeStart _ _ _ := id
  readDropouts _ _ := id
  takePolicies ids policy scope s ha h := by
    rw [setupLegal_iff] at h ⊢
    obtain ⟨hdeck, htable, hpolicies, hrest⟩ := h
    refine ⟨hdeck, htable, (policiesAllowed_iff _).mpr fun id hid => ?_, hrest⟩
    show ((s.setup.setPolicies ids policy scope).policies.get id).policy ∈ id.allowed
    rw [setPolicies_policy]
    split
    · exact ha id (by assumption)
    · exact (policiesAllowed_iff _).mp hpolicies id hid
  clearConditions _ _ := id
  setNoticeMask _ _ := id
  setMonitor _ _ := id
  setOutput v s h := by
    rw [setupLegal_iff] at h ⊢
    obtain ⟨hdeck, htable, hpolicies, -, hbank⟩ := h
    exact ⟨hdeck, htable, hpolicies, thresholdOf_legal v, hbank⟩
  port _ _ _ := id
  accept _ _ := id
  cellError _ := id
  hardReset v s _ := setupLegal_congr (s := State.reset) ⟨rfl, rfl⟩ (by decide)
  frameSlot bytes s := setupLegal_congr (frameSlot_config bytes s)
  wordSent _ := id
  works _ _ _ _ := id
  takeStop _ := id
  upstreamSlot _ := id
  tick _ _ _ := id
  qualify _ := id
  surveyIfCounted _ := id
  pulse _ := id
  slipClose _ := id
  leaderChange _ := id
  insertCassette _ := id
  removeCassette _ := id
  settleExpiry _ := id
  stallExpiry _ := id
  startingExpiry _ := id
  leaderLimitExpiry _ := id
  bothPhases _ := id

/-- Settles O60: every configuring command leaves what it sets within its rules (`keeps_setupLegal`). -/
theorem stepKeepsSetupLegal : Obligations.StepKeepsSetupLegal :=
  fun s t h e => keeps_setupLegal.step (fun _ _ => id) s t h e

end Sys2Proof.Machine
end

section
/-! SET_DECK, and the commands that set the tape in motion: what each answers, whole (O11, O14). -/

namespace Sys2Proof.Machine

open Sys2Proof.Safety

/-! ## SET_DECK (02, R20; 09, R155, R156) -/

/-- SET_DECK is admitted in CONFIGURE alone. -/
theorem setDeck_admitted (d : DeviceState) (h : d ≠ .configure) : Cmd.setDeck.admitted d = false := by
  cases d
  · rfl
  · exact absurd rfl h
  · rfl

/-- SET_DECK answers OK exactly where every parameter was in its range. -/
theorem sentDeck_unchanged (a : DeckArgs) (d : Deck) :
    d = sentDeck a ↔ d.tickRate = a.tickRate.toNat ∧ d.nc = a.nc.toNat ∧ d.slipThreshold = a.slipThreshold.toNat
      ∧ d.slipCount = a.slipCount.toNat ∧ d.approach = a.approach.toNat ∧ d.stallTime = a.stallTime.toNat
      ∧ d.settleTime = a.settleTime.toNat ∧ d.leaderLimit = a.leaderLimit.toNat := by
  cases d
  simp only [sentDeck, Deck.mk.injEq]

theorem ownSetDeck_busy (a : DeckArgs) (s : State) (h : ¬(s.part.trc.state = .stopped ∧ s.part.trc.op.kind = .none)) :
    ownSetDeck a s = ⟨s, .busy, []⟩ := if_neg fun r => h ((Part.atRest_iff _).mp r)

theorem ownSetDeck_atRest (a : DeckArgs) (s : State) (hs : s.part.trc.state = .stopped) (hk : s.part.trc.op.kind = .none) :
    ownSetDeck a s = ⟨{ s with setup := { s.setup with deck := (sentDeck a).clamped } },
      adjustedIf (decide ((sentDeck a).clamped ≠ sentDeck a)), []⟩ := if_pos ((Part.atRest_iff _).mpr ⟨hs, hk⟩)

theorem adjustedIf_changed {α : Type} [DecidableEq α] (x y : α) (c : Prop) [Decidable c] (h : x = y ↔ c) :
    adjustedIf (decide (x ≠ y)) = if c then .ok else .adjusted := by
  unfold adjustedIf
  by_cases e : x = y
  · rw [if_neg (by simpa using e), if_pos (h.mp e)]
  · rw [if_pos (by simpa using e), if_neg fun k => e (h.mpr k)]

theorem Setup.softReset_deck (u : Setup) : u.softReset.deck = u.deck := by
  unfold Setup.softReset
  split <;> rfl

/-- Settles O11: SET_DECK's owner replaces the deck by the parameters clamped; a hard reset gives the defaults and a soft reset keeps it. -/
theorem setDeck : Obligations.SetDeck := by
  refine ⟨fun tag a s hr => ?command, fun v s => ⟨hardResetState v s, rfl, rfl⟩, fun tag s hr => ?softReset⟩
  case command =>
    have answered {code : ReplyCode} {t : State} (hd : s.part.take.device = .configure) (ho : ownSetDeck a s = ⟨t, code, []⟩) :
        exec (.setDeck tag a) s = .next (withReply t 0x09 tag code []) :=
      congrArg _ (portCommand_answered tag hr (by rw [hd]; rfl) ho)
    refine ⟨fun hd => ?_, fun hd h => answered hd (ownSetDeck_busy a s h), fun hd hs hk d hdeck => ?_⟩
    · exact congrArg _ (portCommand_wrongState _ _ _ _ hr (setDeck_admitted _ hd))
    · have clamped : d = (sentDeck a).clamped := hdeck
      rw [answered hd (ownSetDeck_atRest a s hs hk), ← clamped, adjustedIf_changed d _ _ (sentDeck_unchanged a d)]
  case softReset =>
    refine ⟨withReply (ownSoftReset s).state 0x04 tag .ok [],
      congrArg _ (portCommand_answered (k := .softReset) tag hr (by cases s.part.take.device <;> rfl) rfl), ?_⟩
    exact s.setup.softReset_deck

/-! ## Motions (02, R21, R27, R28, R31) -/

/-- R21's checks, in their order. -/
theorem motion_busy (begin : Part → Part) (s : State) (h : ¬(s.part.trc.state = .stopped ∧ s.part.trc.op.kind = .none)) :
    motion begin s = ⟨s, .busy, []⟩ :=
  if_pos (Bool.eq_false_of_not_eq_true fun r => h ((Part.atRest_iff _).mp r))

theorem motion_atRest (begin : Part → Part) (s : State) (hs : s.part.trc.state = .stopped) (hk : s.part.trc.op.kind = .none) :
    motion begin s = if s.part.pos.cassette = false then ⟨s, .conflict, []⟩ else ⟨s.onPart begin, .accepted, []⟩ := by
  have rest : s.part.atRest = true := (Part.atRest_iff _).mpr ⟨hs, hk⟩
  unfold motion
  rw [if_neg (by rw [rest]; nofun)]
  rfl

theorem motion_conflict (begin : Part → Part) (s : State) (hs : s.part.trc.state = .stopped) (hk : s.part.trc.op.kind = .none)
    (hc : s.part.pos.cassette = false) : motion begin s = ⟨s, .conflict, []⟩ :=
  (motion_atRest begin s hs hk).trans (if_pos hc)

theorem motion_begins (begin : Part → Part) (s : State) (hs : s.part.trc.state = .stopped) (hk : s.part.trc.op.kind = .none)
    (hc : s.part.pos.cassette = true) : motion begin s = ⟨s.onPart begin, .accepted, []⟩ :=
  (motion_atRest begin s hs hk).trans (if_neg (by rw [hc]; nofun))

theorem Direction.ofCode_none {b : Byte} (h : 2 ≤ b.toNat) : Direction.ofCode b = none := by
  unfold Direction.ofCode
  split <;> first | omega | rfl

theorem ownWind_some {b : Byte} {d : Direction} (h : Direction.ofCode b = some d) (s : State) :
    ownWind b s = motion (Part.windStart d) s := by
  unfold ownWind
  rw [h]

theorem Direction.ofCode_some {b : Byte} (h : b.toNat ≤ 1) : ∃ d, Direction.ofCode b = some d := by
  rcases byte_zero_or_one _ h with rfl | rfl
  · exact ⟨.forward, rfl⟩
  · exact ⟨.reverse, rfl⟩

/-- A SEEK's record, in no phase yet. -/
def seekRecord (u : Setup) (n : Nat) (p : Part) : OpRecord :=
  { OpRecord.idle with kind := .seek, target := some n, windPoint := some (n - u.deck.approach), startTime := some p.timebase }

theorem Part.seekStart_ahead (u : Setup) (n : Nat) (p : Part) (h : p.pos.position < n - u.deck.approach) :
    p.seekStart u n = (p.setOp { seekRecord u n p with phase := some .wind, windCount := some 1 }).enterMoving .windingFwd :=
  if_pos h

theorem Part.seekStart_behind (u : Setup) (n : Nat) (p : Part) (h : n < p.pos.position) :
    p.seekStart u n = (p.setOp { seekRecord u n p with phase := some .wind, windCount := some 1 }).enterMoving .windingRev :=
  (if_neg (by unfold windPoint; omega)).trans (if_pos h)

theorem Part.seekStart_near (u : Setup) (n : Nat) (p : Part) (h : n - u.deck.approach ≤ p.pos.position) (hn : p.pos.position < n) :
    p.seekStart u n = (p.setOp { seekRecord u n p with phase := some .approach, windCount := some 0 }).enterMoving .approaching :=
  (if_neg (Nat.not_lt_of_le h)).trans ((if_neg (by omega)).trans (if_neg (by omega)))

theorem Part.seekStart_there (u : Setup) (n : Nat) (p : Part) (h : p.pos.position = n) :
    p.seekStart u n = (p.post (.transportDone .seek .done p.pos.position)).setOp OpRecord.idle :=
  (if_neg (by unfold windPoint; omega)).trans ((if_neg (by omega)).trans (if_pos h))

/-- An accepted SEEK changes the transport and the notices, and nothing else. -/
theorem Part.seekStart_changes (u : Setup) (n : Nat) (p : Part) :
    ∃ t q, p.seekStart u n = { p with trc := t, msp := { p.msp with notices := q } } := by
  by_cases ahead : p.pos.position < n - u.deck.approach
  · exact ⟨_, _, p.seekStart_ahead u n ahead⟩
  · rcases Nat.lt_trichotomy p.pos.position n with near | there | behind
    · exact ⟨_, _, p.seekStart_near u n (Nat.le_of_not_lt ahead) near⟩
    · exact ⟨_, _, p.seekStart_there u n there⟩
    · exact ⟨_, _, p.seekStart_behind u n behind⟩

theorem Part.seekStart_keeps (u : Setup) (n : Nat) (p : Part) :
    (p.seekStart u n).pos = p.pos ∧ (p.seekStart u n).hcr = p.hcr ∧ (p.seekStart u n).rft = p.rft ∧ (p.seekStart u n).lanes = p.lanes
      ∧ (p.seekStart u n).cmn = p.cmn ∧ (p.seekStart u n).take = p.take ∧ (p.seekStart u n).msp.replies = p.msp.replies := by
  obtain ⟨t, q, e⟩ := p.seekStart_changes u n
  rw [e]
  exact ⟨rfl, rfl, rfl, rfl, rfl, rfl, rfl⟩

/-- Settles O14: R21's checks stand before the direction's motion (`motion`), and a SEEK's plan is one of four. -/
theorem motionBegins : Obligations.MotionBegins := by
  refine ⟨fun tag direction s hr hd => ?wind, fun tag target s hr hd => ?seek⟩
  case wind =>
    have winds {code : ReplyCode} {t : State} (ho : ownWind direction s = ⟨t, code, []⟩) :
        exec (.wind tag direction) s = .next (withReply t 0x0B tag code []) :=
      congrArg _ (portCommand_answered tag hr (by rw [hd]; rfl) ho)
    have rewinds {code : ReplyCode} {t : State} (ho : ownRewindToLeader s = ⟨t, code, []⟩) :
        exec (.rewindToLeader tag) s = .next (withReply t 0x0D tag code []) :=
      congrArg _ (portCommand_answered tag hr (by rw [hd]; rfl) ho)
    refine ⟨fun h => winds ?_, fun h => ?_⟩
    · unfold ownWind
      rw [Direction.ofCode_none h]
      rfl
    · obtain ⟨way, hway⟩ := Direction.ofCode_some h
      have owner := ownWind_some hway s
      refine ⟨fun hb => ⟨winds (owner.trans (motion_busy _ s hb)), rewinds (motion_busy _ s hb)⟩,
        fun hs hk hc => ⟨winds (owner.trans (motion_conflict _ s hs hk hc)), rewinds (motion_conflict _ s hs hk hc)⟩,
        fun hs hk hc moved hmoved => ?_⟩
      subst hmoved
      refine ⟨fun hdir => ?_, fun hdir => ?_, rewinds (motion_begins _ s hs hk hc)⟩
      · exact winds ((ownWind_some (by rw [hdir]; rfl) s).trans (motion_begins (Part.windStart .forward) s hs hk hc))
      · exact winds ((ownWind_some (by rw [hdir]; rfl) s).trans (motion_begins (Part.windStart .reverse) s hs hk hc))
  case seek =>
    have seeks {code : ReplyCode} {t : State} (ho : ownSeek target s = ⟨t, code, []⟩) :
        exec (.seek tag target) s = .next (withReply t 0x0C tag code []) :=
      congrArg _ (portCommand_answered tag hr (by rw [hd]; rfl) ho)
    refine ⟨fun hb => seeks (motion_busy _ s hb), fun hs hk hc => seeks (motion_conflict _ s hs hk hc), fun hs hk hc => ?_⟩
    refine ⟨_, seeks (motion_begins _ s hs hk hc), ?_⟩
    obtain ⟨hpos, hhcr, hrft, hlanes, hcmn, htake, hreplies⟩ := s.part.seekStart_keeps s.setup target.toNat
    refine ⟨rfl, rfl, rfl, hpos, hhcr, hrft, hlanes, hcmn, htake, congrArg (· ++ _) hreplies, ?_⟩
    simp only [withReply, State.onPart]
    refine ⟨fun h => ?_, fun h => ?_, fun h hn => ?_, fun h => ?_⟩
    · rw [Part.seekStart_ahead _ _ _ h]
      exact ⟨rfl, rfl, rfl⟩
    · rw [Part.seekStart_behind _ _ _ h]
      exact ⟨rfl, rfl, rfl⟩
    · rw [Part.seekStart_near _ _ _ h hn]
      exact ⟨rfl, rfl, rfl⟩
    · rw [Part.seekStart_there _ _ _ h]
      exact ⟨hs, rfl, rfl⟩

end Sys2Proof.Machine
end

section
/-! STOP: what it answers, and how an operation's end looks to whoever made it (O15). -/

namespace Sys2Proof.Machine

open Sys2Proof.Safety

/-! ## STOP (02, R22, R34) -/

theorem stop_admitted {d : DeviceState} (h : d ≠ .standby) : Cmd.stop.admitted d = true := by
  cases d
  · exact absurd rfl h
  · rfl
  · rfl

/-- The ending STOP gives the running operation. -/
def stopEnding (p : Part) : Ending := if p.trc.op.kind = .take then .cause .stopCommand else .term .aborted

theorem exec_stop (tag : Byte) {s : State} (hr : s.part.ready = true) (hd : s.part.take.device ≠ .standby) : exec (.stop tag) s
    = .next (withReply { s with part := (s.part.endOperation s.setup (stopEnding s.part)).takeStop s.setup } 0x0E tag .ok []) :=
  congrArg _ (portCommand_answered (k := .stop) tag hr (stop_admitted hd) rfl)

/-- What an ending leaves alone whatever operation it ends, with the stop request of its event. -/
theorem Part.endOperation_stopped_keeps (u : Setup) (e : Ending) (q : Part) (hk : q.trc.op.kind ≠ .none) (he : q.trc.op.ending = none) :
    ((q.endOperation u e).takeStop u).osc = q.osc ∧ ((q.endOperation u e).takeStop u).msp.replies = q.msp.replies
      ∧ ((q.endOperation u e).takeStop u).take.number = q.take.number
      ∧ (q.trc.state = .settling → ((q.endOperation u e).takeStop u).trc.settleTimer = q.trc.settleTimer) := by
  obtain ⟨-, -, -, -, htimer, -, -, hnumber⟩ := q.endOperation_spec u e hk he
  have m := q.moves_endOperation u e
  rw [q.takeStop_endOperation u e hk he]
  exact ⟨m.osc, m.replies, hnumber, htimer⟩

/-- A take's record after its end and the stop request of the same event (09, R162). -/
theorem Part.endOperation_stopped_record (u : Setup) (c : TakeCause) (q : Part) (hk : q.trc.op.kind = .take)
    (he : q.trc.op.ending = none) : ((q.endOperation u (.cause c)).takeStop u).take.record
      = q.take.record.map fun r => ⟨r.endPosition, some c, q.lastWritten, r.finalPosition⟩ := by
  rw [q.takeStop_endOperation u (.cause c) (by rw [hk]; nofun) he]
  exact q.endOperation_record u c hk he

/-- A survey's end, with the stop request of its event, ends capture (04, R83). -/
theorem Part.endOperation_stopped_survey (u : Setup) (t : Termination) (q : Part) (hk : q.trc.op.kind = .survey)
    (he : q.trc.op.ending = none) : ((q.endOperation u (.term t)).takeStop u).hcr = { q.hcr with capturing := false } := by
  rw [q.takeStop_endOperation u (.term t) (by rw [hk]; nofun) he]
  exact (q.endOperation_surveyed u t hk he).1

/-- Settles O15: where an operation runs STOP ends it (`Part.endOperation_stopped`, `Part.endOperation_stopped_take`); the stop request
that the ending's own event makes finds nothing to stop. -/
theorem stop : Obligations.Stop := by
  intro tag s hr hstop
  refine ⟨fun hd => ?_, fun hd h => ?_, fun hd hk he => ?_⟩
  · exact congrArg _ (portCommand_wrongState _ _ _ _ hr (by rw [hd]; rfl))
  · rw [exec_stop tag hr hd, Part.endOperation_none _ _ _ h, Part.takeStop_none _ hstop]
  · obtain ⟨hstate, hop, -, htimer, hpos⟩ := s.part.endOperation_stopped s.setup (stopEnding s.part) hk he
    obtain ⟨hosc, hreplies, hnumber, hsettling⟩ := s.part.endOperation_stopped_keeps s.setup (stopEnding s.part) hk he
    refine ⟨_, exec_stop tag hr hd, rfl, rfl, rfl, hpos, hosc, hstate, htimer, hsettling, hop, congrArg (· ++ _) hreplies,
      fun hsurvey => ?_, fun htake => ?_, fun htake l => ?_⟩
    · have ending : stopEnding s.part = .term .aborted := if_neg (by rw [hsurvey]; nofun)
      rw [ending]
      exact congrArg HeadReceiver.capturing (s.part.endOperation_stopped_survey s.setup .aborted hsurvey he)
    · have ending : stopEnding s.part = .cause .stopCommand := if_pos htake
      obtain ⟨hdevice, hcapturing, -⟩ := Part.endOperation_stopped_take s.setup .stopCommand s.part s.part htake he
        ⟨rfl, rfl, rfl, rfl, rfl, rfl, rfl, rfl⟩ fun _ => rfl
      rw [ending] at hnumber ⊢
      exact ⟨hcapturing, hdevice, hnumber, s.part.endOperation_stopped_record s.setup .stopCommand htake he⟩
    · have ending : stopEnding s.part = .cause .stopCommand := if_pos htake
      obtain ⟨-, -, htorn⟩ := Part.endOperation_stopped_take s.setup .stopCommand s.part s.part htake he
        ⟨rfl, rfl, rfl, rfl, rfl, rfl, rfl, rfl⟩ fun _ => rfl
      rw [ending]
      exact htorn l

end Sys2Proof.Machine
end

section
/-! The limits that end an operation: the stall timer, the STARTING limit and the leader search limit (O53). -/

namespace Sys2Proof.Machine

open Sys2Proof.Safety

/-! ## STALL outlives an ending -/

/-- The end of a take leaves the record of STALL. -/
theorem Part.takeTeardown_stall (u : Setup) (e : Option Nat) (p : Part) : (p.takeTeardown u e).cmn.stall = p.cmn.stall := by
  have tracker (l : Lane) (q : Part) : (q.trackerTakeEnd u e l).cmn.stall = q.cmn.stall := by
    obtain ⟨c, m, eq, -, -, -, ho⟩ := q.trackerTakeEnd_exact u e l
    rw [eq]
    exact ho .stall nofun nofun
  have detectors (q : Part) : (q.detectorsTakeEnd e).cmn.stall = q.cmn.stall := by
    obtain ⟨d, c, eq, -⟩ := q.detectorsTakeEnd_spec e
    rw [eq]
  have lane (l : Lane) (q : Part) : (q.laneTakeEnd u l).cmn.stall = q.cmn.stall := by
    obtain ⟨g, c, k, m, con, x, eq, -, -, -, ho⟩ := q.laneTakeEnd_lane u l _ Iff.rfl
    rw [eq]
    exact ho .stall nofun
  have aligners (q : Part) : ((q.alignerTakeEnd .a).alignerTakeEnd .b).cmn.stall = q.cmn.stall := rfl
  have refind (q : Part) : (q.refind u).cmn.stall = q.cmn.stall := rfl
  unfold Part.takeTeardown
  dsimp only
  rw [lane, lane, refind, detectors, aligners, tracker, tracker]

theorem Part.endOperation_stall (u : Setup) (e : Ending) (p : Part) : (p.endOperation u e).cmn.stall = p.cmn.stall := by
  unfold Part.endOperation
  split
  · rfl
  obtain ⟨c, t, eq, -, -, -, -, -, ho, -⟩ := (p.setOp { p.trc.op with phase := none, ending := some e }).enterSettling_parts u
  obtain ⟨q, hq⟩ : ∃ q : Part, q = (p.setOp { p.trc.op with phase := none, ending := some e }).enterSettling u := ⟨_, rfl⟩
  have stall : q.cmn.stall = p.cmn.stall := by
    rw [hq, eq]
    exact ho .stall nofun
  dsimp only
  rw [← hq, ← stall]
  split
  · exact Part.takeTeardown_stall u _ _
  · obtain ⟨r, e', -⟩ := Part.surveyStop_spec { q with hcr := { q.hcr with capturing := false } }
    unfold Part.surveyEnd
    rw [e']
  · rfl

theorem policy_stall {u : Setup} (h : policiesAllowed u.policies = true) : (u.policies.get .stall).policy = .stop := by
  have allowed := List.all_eq_true.mp h .stall (by decide)
  simpa [CondId.allowed] using allowed

/-! ## STALL raised (02, R25, R35) -/

/-- The ending STALL gives the running operation. -/
def stallEnding (p : Part) : Ending := if p.trc.op.kind = .take then .cause .condition else .term .stalled

/-- STALL raised over a running operation: its flag is set and the operation ends; the stop request STALL makes finds nothing to stop. -/
theorem Part.stall_ends (u : Setup) (p : Part) (hp : policiesAllowed u.policies = true) (hk : p.trc.op.kind ≠ .none)
    (he : p.trc.op.ending = none) (hs : p.trc.state ≠ .settling) :
    (p.stall u).cmn.stall.flag = true ∧ (p.stall u).trc.state = .settling ∧ (p.stall u).pos = p.pos
      ∧ (p.stall u).trc.settleTimer = some p.timebase
      ∧ (p.stall u).trc.op = { p.trc.op with phase := none, ending := some (stallEnding p) }
      ∧ (p.trc.op.kind = .take → (p.stall u).take.device = .configure ∧ (p.stall u).hcr.capturing = false
          ∧ ∀ l, Part.tornDown u l p (p.stall u)) := by
  obtain ⟨c, m, raised, hflag, -, hnotices⟩ := p.raise_stop u .stall (policy_stall hp)
  obtain ⟨q, hq⟩ : ∃ q, q = p.occur u .stall := ⟨_, rfl⟩
  have raised : q = _ := hq.trans raised
  have whole : p.stall u = (q.endOperation u (stallEnding p)).takeStop u := by
    unfold Part.stall
    rw [← hq, raised]
    rfl
  have trc : q.trc = p.trc := by rw [raised]
  have pos : q.pos = p.pos := by rw [raised]
  have time : q.timebase = p.timebase := by rw [raised]
  have qk : q.trc.op.kind ≠ .none := by rw [trc]; exact hk
  have qe : q.trc.op.ending = none := by rw [trc]; exact he
  obtain ⟨hstate, hop, -, htimer, hpos⟩ := q.endOperation_stopped u (stallEnding p) qk qe
  rw [whole]
  refine ⟨?flag, hstate, hpos.trans pos, ?timer, by rw [hop, trc], fun ht => ?take⟩
  case flag =>
    rw [q.takeStop_endOperation u _ qk qe]
    show ((q.endOperation u (stallEnding p)).cmn.stall).flag = true
    rw [q.endOperation_stall, raised]
    exact hflag
  case timer => rw [htimer (by rw [trc]; exact hs), time]
  case take =>
    have ending : stallEnding p = .cause .condition := if_pos ht
    rw [ending]
    refine Part.endOperation_stopped_take u .condition p q (by rw [trc]; exact ht) qe ?_ fun l => ?_
    · rw [raised]
      exact ⟨rfl, rfl, rfl, rfl, rfl, rfl, rfl, rfl⟩
    · rw [raised]
      exact hnotices _ (lockKind_ne_condition l)

/-! ## The limits (02, R25, R31, R33, R35) -/

theorem Part.stallExpiry_stalls (u : Setup) {p : Part} {start : Nat} (ht : p.trc.stallTimer = some start) (hm : p.trc.state.moving = true)
    (h : ¬(p.trc.op.kind = .rewindToLeader ∧ p.trc.op.phase = some .reverse ∧ p.trc.leader = true)) :
    p.stallExpiry u = (p.advance (start + u.deck.stallTime * 1000)).stall u := by
  unfold Part.stallExpiry
  rw [ht]
  dsimp only
  rw [if_pos hm, if_neg fun ⟨hk, hp, _, hl⟩ => h ⟨hk, hp, hl⟩]

theorem Part.stallExpiry_found (u : Setup) {p : Part} {start : Nat} (ht : p.trc.stallTimer = some start) (hm : p.trc.state.moving = true)
    (hk : p.trc.op.kind = .rewindToLeader) (hp : p.trc.op.phase = some .reverse) (hl : p.trc.leader = true)
    (he : p.trc.op.ending = none) : p.stallExpiry u
      = ((p.advance (start + u.deck.stallTime * 1000)).setOp { p.trc.op with phase := some .settle }).enterSettling u := by
  unfold Part.stallExpiry
  rw [ht]
  dsimp only
  rw [if_pos hm, if_pos ⟨hk, hp, he, hl⟩]
  rfl

theorem Part.startingExpiry_stalls (u : Setup) {p : Part} {start : Nat} (ht : p.trc.startTimer = some start)
    (hs : p.trc.state = .starting) : p.startingExpiry u = (p.advance (start + 2000000)).stall u := by
  unfold Part.startingExpiry
  rw [ht]
  dsimp only
  rw [if_pos hs]
  rfl

theorem Part.leaderLimitExpiry_ends (u : Setup) {p : Part} {start : Nat} (ht : p.trc.op.startTime = some start)
    (hk : p.trc.op.kind = .rewindToLeader) (he : p.trc.op.ending = none) : p.leaderLimitExpiry u
      = (p.advance (start + u.deck.leaderLimit * 1000000)).endOperation u (.term .leaderNotFound) := by
  unfold Part.leaderLimitExpiry
  rw [ht]
  dsimp only
  rw [if_pos ⟨hk, he⟩]

/-- Settles O53: the stall timer and the STARTING limit raise STALL (`Part.stall_ends`), but over a rewind at rest on leader the stall
timer ends its phase alone; the leader search limit ends the rewind. -/
theorem limitsEnd : Obligations.LimitsEnd := by
  intro s start hstop hpol he
  refine ⟨fun ht hm hk h => ?stalls, fun ht hm hk hp hl => ?found, fun ht hs hk => ?starting, fun ht hk => ?search⟩
  case stalls =>
    have e := s.part.stallExpiry_stalls s.setup ht hm h
    refine ⟨_, congrArg (fun p : Part => Host.Outcome.next (s.onPart fun _ => p)) e, ?_⟩
    exact (s.part.advance _).stall_ends s.setup hpol hk he (TransportState.moving_ne_settling hm)
  case found =>
    have e := s.part.stallExpiry_found s.setup ht hm hk hp hl he
    refine ⟨_, congrArg (fun p : Part => Host.Outcome.next (s.onPart fun _ => p)) e, ?_⟩
    obtain ⟨c, t, eq, hstate, hop, -, -, -, ho, -⟩ := Part.enterSettling_parts s.setup
      ((s.part.advance (start + s.setup.deck.stallTime * 1000)).setOp { s.part.trc.op with phase := some .settle })
    dsimp only
    rw [eq]
    exact ⟨hstate, hop, ho .stall nofun⟩
  case starting =>
    have running : s.part.trc.op.kind ≠ .none := by rcases hk with h | h <;> rw [h] <;> nofun
    have e := s.part.startingExpiry_stalls s.setup ht hs
    refine ⟨_, congrArg (fun p : Part => Host.Outcome.next (s.onPart fun _ => p)) e, ?_⟩
    obtain ⟨hflag, hstate, -, htimer, hop, htake⟩ :=
      (s.part.advance (start + 2000000)).stall_ends s.setup hpol running he (fun h => absurd (hs.symm.trans h) nofun)
    exact ⟨hflag, hstate, htimer, hop, htake⟩
  case search =>
    have e := s.part.leaderLimitExpiry_ends s.setup ht hk he
    refine ⟨_, congrArg (fun p : Part => Host.Outcome.next (s.onPart fun _ => p.takeStop s.setup)) e, ?_⟩
    obtain ⟨q, hq⟩ : ∃ q, q = s.part.advance (start + s.setup.deck.leaderLimit * 1000000) := ⟨_, rfl⟩
    have qk : q.trc.op.kind ≠ .none := by rw [hq]; exact fun h => absurd (hk.symm.trans h) nofun
    have qe : q.trc.op.ending = none := by rw [hq]; exact he
    obtain ⟨hstate, hop, -, -, hpos⟩ := q.endOperation_stopped s.setup (.term .leaderNotFound) qk qe
    have whole := q.takeStop_endOperation s.setup (.term .leaderNotFound) qk qe
    have stall : ((q.endOperation s.setup (.term .leaderNotFound)).takeStop s.setup).cmn.stall = q.cmn.stall := by
      rw [whole]
      exact q.endOperation_stall s.setup _
    dsimp only
    rw [← hq]
    refine ⟨hstate, hop.trans ?_, hpos.trans ?_, stall.trans ?_⟩ <;> rw [hq] <;> rfl

end Sys2Proof.Machine
end

section
/-! The settle timer's expiry: what completes at STOPPED, and what goes on to its next phase (O52). -/

namespace Sys2Proof.Machine

open Sys2Proof.Safety

/-! ## The expiry (02, R22, R23) -/

/-- The part at the reading at which its settle timer expires (log 3). -/
def Part.atExpiry (u : Setup) (start : Nat) (p : Part) : Part := p.advance (start + u.deck.settleTime * 1000)

theorem exec_settleExpiry {s : State} {start : Nat} (hs : s.part.trc.state = .settling) (ht : s.part.trc.settleTimer = some start) :
    exec .settleTimerExpiry s = .next { s with part := (s.part.atExpiry s.setup start).settled s.setup } := by
  have expires : s.part.settleExpiry s.setup = (s.part.atExpiry s.setup start).settled s.setup := by
    unfold Part.settleExpiry
    rw [ht]
    exact if_pos hs
  exact congrArg (fun p : Part => Host.Outcome.next (s.onPart fun _ => p)) expires

/-- Whatever has its ending, and whatever has no next phase, stops and completes. -/
theorem Part.settled_stops (u : Setup) {p : Part}
    (h : p.trc.op.ending ≠ none ∨ p.trc.op.kind ≠ .seek ∧ p.trc.op.kind ≠ .rewindToLeader) :
    p.settled u = p.enterStopped.completeOperation u := by
  unfold Part.settled
  split
  · rename_i hk he
    exact absurd h (by simp [hk, he])
  · rename_i hk he
    exact absurd h (by simp [hk, he])
  · rfl

theorem Part.settled_seek (u : Setup) {p : Part} (hk : p.trc.op.kind = .seek) (he : p.trc.op.ending = none) :
    p.settled u = p.seekReplan u := by
  unfold Part.settled
  rw [hk, he]

theorem Part.settled_rewind (u : Setup) {p : Part} (hk : p.trc.op.kind = .rewindToLeader) (he : p.trc.op.ending = none) :
    p.settled u = if p.trc.leader then (p.setOp { p.trc.op with phase := some .forward }).enterMoving .approaching
      else (p.setOp { p.trc.op with phase := some .reverse }).enterMoving .windingRev := by
  unfold Part.settled
  rw [hk, he]

/-! ## Completion (02, R22; 04, R83; 09, R163) -/

theorem Part.completeOperation_motion (u : Setup) {p : Part} {e : Termination}
    (hk : p.trc.op.kind = .wind ∨ p.trc.op.kind = .seek ∨ p.trc.op.kind = .rewindToLeader) (he : p.trc.op.ending = some (.term e)) :
    p.completeOperation u = (p.post (.transportDone p.trc.op.kind e p.pos.position)).setOp OpRecord.idle := by
  unfold Part.completeOperation
  rw [he]
  rcases hk with hk | hk | hk <;> rw [hk]

theorem Part.completeOperation_survey (u : Setup) {p : Part} {e : Termination} (hk : p.trc.op.kind = .survey)
    (he : p.trc.op.ending = some (.term e)) : p.completeOperation u = (p.surveyDone u e).setOp OpRecord.idle := by
  unfold Part.completeOperation
  rw [hk, he]

theorem Part.completeOperation_take (u : Setup) {p : Part} {e : Ending} {r : TakeRecord} (hk : p.trc.op.kind = .take)
    (he : p.trc.op.ending = some e) (hr : p.take.record = some r) : p.completeOperation u
      = ({ p.setOp OpRecord.idle with
           take := { p.take with record := some { r with finalPosition := some p.pos.position } } } : Part).closeTake := by
  unfold Part.completeOperation
  rw [hk, he, hr]
  rfl

theorem Part.completeOperation_none (u : Setup) {p : Part} (hk : p.trc.op.kind = .none) (he : p.trc.op.ending = none) :
    p.completeOperation u = p := by
  unfold Part.completeOperation
  rw [hk, he]

/-- A record with its cause and its final position closes once both lanes have delivered all they made. -/
theorem Part.closeTake_final {p : Part} {c : TakeCause} {r : TakeRecord} {x : Nat} (hr : p.take.record = some r)
    (hc : r.cause = some c) (hx : r.finalPosition = some x) : p.closeTake
      = if p.lanes.a.state = .idle ∧ p.lanes.b.state = .idle ∧ p.lanes.a.fifo = [] ∧ p.lanes.b.fifo = [] then
          { p with take := { p.take with record := none } }.post
            (.takeEnded p.take.number c r.endIndex p.lanes.a.frameCount p.lanes.b.frameCount x)
        else p := by
  obtain ⟨e, cause, i, final⟩ := r
  subst hc hx
  unfold Part.closeTake
  rw [hr]

/-- The end of a survey, on one lane. -/
def Part.surveyFinish (u : Setup) (e : Termination) (l : Lane) (p : Part) : Part :=
  if (p.rft.get l).mode = .survey then
    (p.setTracker l { p.rft.get l with mode := .none }).post ((p.rft.get l).surveyDone u l e)
  else p

theorem Part.surveyDone_eq (u : Setup) (e : Termination) (p : Part) :
    p.surveyDone u e = (p.surveyFinish u e .a).surveyFinish u e .b := rfl

theorem Part.surveyFinish_surveying (u : Setup) (e : Termination) {l : Lane} {p : Part} (h : (p.rft.get l).mode = .survey) :
    p.surveyFinish u e l = (p.setTracker l { p.rft.get l with mode := .none }).post ((p.rft.get l).surveyDone u l e) := if_pos h

theorem Part.surveyFinish_other (u : Setup) (e : Termination) {l : Lane} {p : Part} (h : (p.rft.get l).mode ≠ .survey) :
    p.surveyFinish u e l = p := if_neg h

/-- The lane that surveys posts SURVEY_DONE and returns to NONE, where the other does not survey. -/
theorem Part.surveyDone_one (u : Setup) (e : Termination) {l : Lane} {p : Part} (hl : (p.rft.get l).mode = .survey)
    (ho : (p.rft.get l.other).mode ≠ .survey) : p.surveyDone u e
      = (p.setTracker l { p.rft.get l with mode := .none }).post ((p.rft.get l).surveyDone u l e) := by
  rw [Part.surveyDone_eq]
  cases l
  case a =>
    rw [Part.surveyFinish_surveying u e hl]
    exact Part.surveyFinish_other u e ho
  case b => rw [Part.surveyFinish_other u e (l := .a) ho, Part.surveyFinish_surveying u e hl]

theorem Tracker.surveyDone_none (u : Setup) (l : Lane) (e : Termination) {t : Tracker}
    (h : t.survey.least = none ∨ t.survey.greatest = none) : t.surveyDone u l e
      = .surveyDone l t.settings.source e t.survey.total t.survey.inWindow none := by
  unfold Tracker.surveyDone
  dsimp only
  split
  · rename_i hlo hhi
    rw [hlo, hhi] at h
    exact absurd h (by simp)
  · rfl

theorem Tracker.surveyDone_some (u : Setup) (l : Lane) (e : Termination) {t : Tracker} {lo hi : Nat}
    (hlo : t.survey.least = some lo) (hhi : t.survey.greatest = some hi) : t.surveyDone u l e
      = .surveyDone l t.settings.source e t.survey.total t.survey.inWindow
          (some (spanFrequency u.rates.fr t.crossings t.survey.inWindow t.survey.sum, spanFrequency u.rates.fr t.crossings 1 hi,
            spanFrequency u.rates.fr t.crossings 1 lo)) := by
  unfold Tracker.surveyDone
  rw [hlo, hhi]

/-! ## A SEEK at rest (02, R29) -/

theorem Part.endAtRest_eq (u : Setup) (e : Termination) {p : Part} (hk : p.trc.op.kind = .seek) : p.endAtRest u e
    = (p.enterStopped.post (.transportDone p.trc.op.kind e p.pos.position)).setOp OpRecord.idle :=
  Part.completeOperation_motion u (p := (p.setOp { p.trc.op with ending := some (.term e) }).enterStopped) (.inr (.inl hk)) rfl

theorem Part.seekReplan_below (u : Setup) {p : Part} {n : Nat} (hn : p.trc.op.target = some n) (h : p.pos.position < n) :
    p.seekReplan u = (p.setOp { p.trc.op with phase := some .approach }).enterMoving .approaching := by
  unfold Part.seekReplan
  dsimp only
  rw [hn]
  exact if_pos h

theorem Part.seekReplan_there (u : Setup) {p : Part} {n : Nat} (hn : p.trc.op.target = some n) (h : p.pos.position = n) :
    p.seekReplan u = p.endAtRest u .done := by
  unfold Part.seekReplan
  dsimp only
  rw [hn]
  exact (if_neg (by simp [h])).trans (if_pos h)

theorem Part.seekReplan_above (u : Setup) {p : Part} {n winds : Nat} (hn : p.trc.op.target = some n)
    (hw : p.trc.op.windCount = some winds) (h : n < p.pos.position) : p.seekReplan u
      = if winds < 3 then (p.setOp { p.trc.op with phase := some .wind, windCount := some (winds + 1) }).enterMoving .windingRev
        else p.endAtRest u .notReached := by
  unfold Part.seekReplan
  dsimp only
  rw [hn, hw]
  exact (if_neg (Nat.not_lt_of_lt h)).trans (if_neg (Nat.ne_of_gt h))

/-- Settles O52: the expiry is `Part.settled` at its reading (`exec_settleExpiry`), each ending completes by its own lemma, and a SEEK at
rest plans again. -/
theorem settleTimerExpiry : Obligations.SettleTimerExpiry := by
  refine ⟨fun s start hs ht => ⟨fun e hk he => ?motion, fun e l T c frequency hk he hT hmode hother hc hfreq => ?survey,
    fun cause c r hk he hr hcause => ?take, fun hk he => ?rewind, fun hk he => ?none⟩,
    fun s start target winds hs ht hk he htarget hwinds => ⟨fun h => ?below, fun h => ?there, fun h hw => ?again, fun h hw => ?never⟩⟩
  case motion =>
    have stops := Part.settled_stops s.setup (p := s.part.atExpiry s.setup start) (.inl (he.trans_ne (Option.some_ne_none _)))
    have e' := stops.trans (Part.completeOperation_motion s.setup (p := (s.part.atExpiry s.setup start).enterStopped) hk he)
    refine ⟨_, exec_settleExpiry hs ht, ?_⟩
    rw [e']
    exact ⟨rfl, rfl, rfl, rfl, rfl, rfl, rfl, rfl, rfl⟩
  case survey =>
    have stops := Part.settled_stops s.setup (p := s.part.atExpiry s.setup start)
      (.inr ⟨fun h => absurd (hk.symm.trans h) nofun, fun h => absurd (hk.symm.trans h) nofun⟩)
    have completes := stops.trans (Part.completeOperation_survey s.setup (p := (s.part.atExpiry s.setup start).enterStopped) hk he)
    rw [hT] at hmode
    rw [Part.surveyDone_one s.setup e (p := (s.part.atExpiry s.setup start).enterStopped) (l := l) hmode hother] at completes
    have crossings : c = (s.part.rft.get l).crossings := by rw [hc, hT]; rfl
    have frequencies (n sum : Nat) : frequency n sum = spanFrequency s.setup.rates.fr (s.part.rft.get l).crossings n sum := by
      rw [hfreq, crossings]
      rfl
    refine ⟨_, exec_settleExpiry hs ht, ?_⟩
    rw [completes, hT]
    refine ⟨rfl, rfl, rfl, rfl, rfl, rfl, rfl, rfl, fun h => ?_, fun lo hi hlo hhi => ?_⟩
    · rw [← Tracker.surveyDone_none s.setup l e h]
      rfl
    · rw [frequencies, frequencies, frequencies, ← Tracker.surveyDone_some s.setup l e hlo hhi]
      rfl
  case take =>
    have stops := Part.settled_stops s.setup (p := s.part.atExpiry s.setup start) (.inl (he.trans_ne (Option.some_ne_none _)))
    have completes := stops.trans
      (Part.completeOperation_take s.setup (p := (s.part.atExpiry s.setup start).enterStopped) hk he hr)
    obtain ⟨q, hq⟩ : ∃ q : Part, q = { (s.part.atExpiry s.setup start).enterStopped.setOp OpRecord.idle with
      take := { s.part.take with record := some { r with finalPosition := some s.part.pos.position } } } := ⟨_, rfl⟩
    have settles : (s.part.atExpiry s.setup start).settled s.setup = q.closeTake := by
      rw [hq]
      exact completes
    have closes := Part.closeTake_final (p := q) (r := { r with finalPosition := some s.part.pos.position }) (by rw [hq]) hcause rfl
    have lanes : q.lanes = s.part.lanes := by rw [hq]; rfl
    rw [lanes] at closes
    refine ⟨_, exec_settleExpiry hs ht, ?_⟩
    rw [settles]
    by_cases delivered : s.part.lanes.a.state = .idle ∧ s.part.lanes.b.state = .idle ∧ s.part.lanes.a.fifo = [] ∧ s.part.lanes.b.fifo = []
    · rw [closes, if_pos delivered, hq]
      exact ⟨rfl, rfl, rfl, fun _ => ⟨rfl, rfl⟩, fun h => absurd delivered h⟩
    · rw [closes, if_neg delivered, hq]
      exact ⟨rfl, rfl, rfl, fun h => absurd h delivered, fun _ => ⟨rfl, rfl⟩⟩
  case rewind =>
    have goes := Part.settled_rewind s.setup (p := s.part.atExpiry s.setup start) hk he
    refine ⟨_, exec_settleExpiry hs ht, ?_⟩
    cases hl : s.part.trc.leader
    · rw [goes.trans (if_neg (Bool.eq_false_iff.mp hl))]
      exact ⟨rfl, rfl, nofun, fun _ => ⟨rfl, rfl⟩⟩
    · rw [goes.trans (if_pos hl)]
      exact ⟨rfl, rfl, fun _ => ⟨rfl, rfl⟩, nofun⟩
  case none =>
    have stops := Part.settled_stops s.setup (p := s.part.atExpiry s.setup start)
      (.inr ⟨fun h => absurd (hk.symm.trans h) nofun, fun h => absurd (hk.symm.trans h) nofun⟩)
    have completes := stops.trans (Part.completeOperation_none s.setup (p := (s.part.atExpiry s.setup start).enterStopped) hk he)
    refine ⟨_, exec_settleExpiry hs ht, ?_⟩
    rw [completes]
    exact ⟨rfl, rfl, rfl⟩
  case below =>
    have plans := (Part.settled_seek s.setup (p := s.part.atExpiry s.setup start) hk he).trans
      (Part.seekReplan_below s.setup htarget h)
    refine ⟨_, exec_settleExpiry hs ht, ?_⟩
    rw [plans]
    exact ⟨rfl, rfl, rfl⟩
  case there =>
    have plans := ((Part.settled_seek s.setup (p := s.part.atExpiry s.setup start) hk he).trans
      (Part.seekReplan_there s.setup htarget h)).trans (Part.endAtRest_eq s.setup .done hk)
    refine ⟨_, exec_settleExpiry hs ht, ?_⟩
    rw [plans, ← hk, ← h]
    exact ⟨rfl, rfl, rfl⟩
  case again =>
    have plans := ((Part.settled_seek s.setup (p := s.part.atExpiry s.setup start) hk he).trans
      (Part.seekReplan_above s.setup htarget hwinds h)).trans (if_pos hw)
    refine ⟨_, exec_settleExpiry hs ht, ?_⟩
    rw [plans]
    exact ⟨rfl, rfl, rfl⟩
  case never =>
    have plans := (((Part.settled_seek s.setup (p := s.part.atExpiry s.setup start) hk he).trans
      (Part.seekReplan_above s.setup htarget hwinds h)).trans (if_neg (Nat.not_lt_of_le hw))).trans
        (Part.endAtRest_eq s.setup .notReached hk)
    refine ⟨_, exec_settleExpiry hs ht, ?_⟩
    rw [plans, ← hk]
    exact ⟨rfl, rfl, rfl⟩

end Sys2Proof.Machine
end

section
/-! The slip monitor: its pulses, its windows, and what SLIP does under STOP (O50). -/

namespace Sys2Proof.Machine

open Sys2Proof.Safety

/-! ## Pulses and windows (02, R36) -/

theorem Part.pulse_counts {p : Part} {w : SlipWindow} (h : p.trc.slipWindow = some w) :
    p.pulse = { p with trc := { p.trc with slipWindow := some ⟨w.ticks, w.pulses + 1⟩ } } := by
  unfold Part.pulse
  rw [h]

theorem Part.pulse_closed {p : Part} (h : p.trc.slipWindow = none) : p.pulse = p := by
  unfold Part.pulse
  rw [h]

/-- The next window open, after n low windows in a row. -/
def Part.nextWindow (n : Nat) (p : Part) : Part := { p with trc := { p.trc with slipWindow := some ⟨0, 0⟩, slipLow := n } }

section
variable (u : Setup) {p : Part} {w : SlipWindow}

theorem Part.slipClose_low (hs : p.trc.state.slipMonitored = true) (hw : p.trc.slipWindow = some w) (h : 64 ≤ w.ticks)
    (hq : slipRatio u w.pulses < u.deck.slipThreshold) (hn : p.trc.slipLow + 1 < u.deck.slipCount) :
    p.slipClose u = p.nextWindow (p.trc.slipLow + 1) := by
  rw [Part.slipClose_due u hs hw h, if_pos hq, if_neg (Nat.not_le_of_lt hn)]
  rfl

theorem Part.slipClose_slips (hs : p.trc.state.slipMonitored = true) (hw : p.trc.slipWindow = some w) (h : 64 ≤ w.ticks)
    (hq : slipRatio u w.pulses < u.deck.slipThreshold) (hn : u.deck.slipCount ≤ p.trc.slipLow + 1) :
    p.slipClose u = (p.nextWindow (p.trc.slipLow + 1)).reportPresent u .slip := by
  rw [Part.slipClose_due u hs hw h, if_pos hq, if_pos hn]
  rfl

theorem Part.slipClose_holds (hs : p.trc.state.slipMonitored = true) (hw : p.trc.slipWindow = some w) (h : 64 ≤ w.ticks)
    (hq : u.deck.slipThreshold ≤ slipRatio u w.pulses) : p.slipClose u = (p.nextWindow 0).reportAbsent u .slip := by
  rw [Part.slipClose_due u hs hw h, if_neg (Nat.not_lt_of_le hq)]
  rfl

end

/-! ## SLIP present (02, R37, R38; 10, R177, R178) -/

/-- A state condition that was absent, reported present under STOP: present, flagged, and a stop request. -/
theorem Part.reportPresent_stop (u : Setup) (id : CondId) (p : Part) (hp : (u.policies.get id).policy = .stop)
    (h : (p.cmn.get id).present = false) : ∃ c m,
    p.reportPresent u id = { p with cmn := c, stopPending := true, msp := { p.msp with notices := m } }
      ∧ (c.get id).flag = true ∧ (c.get id).present = true
      ∧ ∀ k, k ≠ .conditionRaised → queued k m = queued k p.msp.notices := by
  obtain ⟨c, b, m, e, hpresent, -, hflag, -⟩ := p.reportPresent_spec u id
  obtain ⟨c', m', e', -, -, hnotices⟩ := (p.setStatus id { p.cmn.get id with present := true }).raise_stop u id hp
  have raised : p.reportPresent u id = (p.setStatus id { p.cmn.get id with present := true }).raise u id := by
    unfold Part.reportPresent
    exact if_neg (by rw [h]; nofun)
  have pending : b = true := congrArg Part.stopPending (e.symm.trans (raised.trans e'))
  have notices : m = m' := congrArg (fun q => q.msp.notices) (e.symm.trans (raised.trans e'))
  subst pending notices
  exact ⟨c, m, e, hflag h (by rw [hp]; nofun), hpresent, hnotices⟩

/-- The ending a condition's stop request gives a play. -/
def conditionEnding (p : Part) : Ending := if p.trc.op.kind = .take then .cause .condition else .term .condition

theorem Part.endAs_condition (u : Setup) (p : Part) : p.endAs u .condition .condition = p.endOperation u (conditionEnding p) := rfl

/-- The stop request taken leaves the position, and SLIP's flag unless the policy is AUTO. -/
theorem Part.takeStop_slipFlag (u : Setup) (p : Part) (hp : u.policies.slip.policy ≠ .auto) (hs : p.trc.state ≠ .settling) :
    (p.takeStop u).cmn.slip.flag = p.cmn.slip.flag ∧ (p.takeStop u).pos = p.pos := by
  unfold Part.takeStop Part.stopRequest
  split
  · split
    · rename_i h
      have running : p.trc.op.kind ≠ .none := by
        rcases h.1 with k | k <;> rw [show p.trc.op.kind = _ from k] <;> nofun
      obtain ⟨r, hr⟩ : ∃ r : Part, r = { p with stopPending := false } := ⟨_, rfl⟩
      have trc : r.trc = p.trc := by rw [hr]
      have cmn : r.cmn = p.cmn := by rw [hr]
      have pos : r.pos = p.pos := by rw [hr]
      rw [← hr, Part.endAs_condition]
      by_cases he : r.trc.op.ending = none
      · obtain ⟨-, -, hflag⟩ := r.endOperation_slip u (conditionEnding r) (by rw [trc]; exact running) he (by rw [trc]; exact hs)
        obtain ⟨-, -, -, -, -, hpos, -⟩ := r.endOperation_spec u (conditionEnding r) (by rw [trc]; exact running) he
        exact ⟨(hflag hp).trans (by rw [cmn]), hpos.trans pos⟩
      · rw [r.endOperation_none u _ (.inr he)]
        exact ⟨by rw [cmn], pos⟩
    · exact ⟨rfl, rfl⟩
  · exact ⟨rfl, rfl⟩

/-- The end of a survey, as its trackers see it (04, R83). -/
theorem Part.endOperation_surveyTrackers (u : Setup) (t : Termination) (p : Part) (hk : p.trc.op.kind = .survey)
    (he : p.trc.op.ending = none) (l : Lane) : (p.endOperation u (.term t)).rft.get l
      = if (p.rft.get l).mode = .survey then { p.rft.get l with meas := none } else p.rft.get l := by
  obtain ⟨k, x, e, -⟩ := p.endOperation_survey u t hk he
  obtain ⟨r, e', hr⟩ := Part.surveyStop_spec { p with cmn := k, trc := x, hcr := { p.hcr with capturing := false } }
  rw [e, e']
  exact hr l

theorem Part.endOperation_takeLink (u : Setup) (c : TakeCause) (p : Part) (hk : p.trc.op.kind = .take) (he : p.trc.op.ending = none) :
    (p.endOperation u (.cause c)).hcr = { p.hcr with capturing := false } := by
  obtain ⟨-, hcapturing, -⟩ := p.endOperation_take u c hk he
  rcases (p.endOperation_link u (.cause c)).2 with h | h
  · rw [h] at hcapturing ⊢
    rw [← hcapturing]
  · exact h

/-- The stop request of a condition over a play of a take or a survey, from a part p that agrees with q on all its end reads. -/
theorem Part.takeStop_condition (u : Setup) (p q : Part) (hp : q.stopPending = true) (hs : q.trc.state = .playing)
    (hk : q.trc.op.kind = .take ∨ q.trc.op.kind = .survey) (he : q.trc.op.ending = none)
    (h : q.rft = p.rft ∧ q.lanes = p.lanes ∧ q.aza = p.aza ∧ q.pos.position = p.pos.position ∧ q.det = p.det ∧ q.con = p.con
      ∧ q.take.record = p.take.record ∧ q.hcr.nextIndex = p.hcr.nextIndex)
    (hn : ∀ k, k ≠ .conditionRaised → queued k q.msp.notices = queued k p.msp.notices) :
    (q.takeStop u).trc = { q.trc with
        op := { q.trc.op with phase := none, ending := some (conditionEnding q) },
        state := .settling, settleTimer := some q.timebase, stallTimer := none, startTimer := none, slipWindow := none, slipLow := 0 }
      ∧ (q.takeStop u).cmn.slip.present = false ∧ (q.takeStop u).hcr = { q.hcr with capturing := false }
      ∧ (q.trc.op.kind = .take → (q.takeStop u).take.device = .configure ∧ ∀ l, Part.tornDown u l p (q.takeStop u))
      ∧ (q.trc.op.kind = .survey → ∀ l, (q.takeStop u).rft.get l
          = if (q.rft.get l).mode = .survey then { q.rft.get l with meas := none } else q.rft.get l) := by
  have running : q.trc.op.kind ≠ .none := by rcases hk with k | k <;> rw [k] <;> nofun
  have moving : q.trc.state ≠ .settling := by rw [hs]; nofun
  obtain ⟨r, hr⟩ : ∃ r : Part, r = { q with stopPending := false } := ⟨_, rfl⟩
  have trc : r.trc = q.trc := by rw [hr]
  have ended : q.takeStop u = { r.endOperation u (conditionEnding q) with stopPending := false } := by
    rw [q.takeStop_playing u hp hs hk, ← hr, Part.endAs_condition]
    unfold conditionEnding
    rw [trc]
  obtain ⟨htrc, hpresent, -⟩ := r.endOperation_slip u (conditionEnding q) (by rw [trc]; exact running) (by rw [trc]; exact he)
    (by rw [trc]; exact moving)
  refine ⟨?_, ?_, ?_, fun ht => ?_, fun hv l => ?_⟩
  · rw [ended]
    refine htrc.trans ?_
    rw [hr]
  · rw [ended]
    exact hpresent
  · rw [ended]
    show (r.endOperation u (conditionEnding q)).hcr = _
    have hcr : r.hcr = q.hcr := by rw [hr]
    rw [← hcr]
    rcases hk with k | k
    · rw [show conditionEnding q = .cause .condition from if_pos k]
      exact r.endOperation_takeLink u .condition (by rw [trc]; exact k) (by rw [trc]; exact he)
    · rw [show conditionEnding q = .term .condition from if_neg (by rw [k]; nofun)]
      exact (r.endOperation_surveyed u .condition (by rw [trc]; exact k) (by rw [trc]; exact he)).1
  · obtain ⟨-, -, hdevice, -, htorn⟩ := Part.takeStop_take u p q hp hs ht he h hn
    exact ⟨hdevice, htorn⟩
  · rw [ended]
    have rft : r.rft = q.rft := by rw [hr]
    rw [show conditionEnding q = .term .condition from if_neg (by rw [hv]; nofun), ← rft]
    exact r.endOperation_surveyTrackers u .condition (by rw [trc]; exact hv) (by rw [trc]; exact he) l

/-- Settles O50: a pulse counts in an open window (`Part.pulse_counts`); a window that closes is judged (`Part.slipClose_low`,
`Part.slipClose_slips`, `Part.slipClose_holds`), and SLIP's stop request over a play is `Part.takeStop_condition`. -/
theorem slipMonitor : Obligations.SlipMonitor := by
  refine ⟨fun s => ⟨fun w hw => ?_, fun hw => ?_⟩, fun s w q hs hw hticks hstop hq => ?_⟩
  · exact congrArg (fun p : Part => Host.Outcome.next (s.onPart fun _ => p)) (Part.pulse_counts hw)
  · exact congrArg (fun p : Part => Host.Outcome.next (s.onPart fun _ => p)) (Part.pulse_closed hw)
  have monitored := TransportState.monitored hs
  have ratio : q = slipRatio s.setup w.pulses := hq
  have closes {p : Part} (e : s.part.slipClose s.setup = p) : exec .slipWindowClose s = .next { s with part := p.takeStop s.setup } :=
    congrArg (fun p : Part => Host.Outcome.next (s.onPart fun _ => p.takeStop s.setup)) e
  rw [ratio]
  refine ⟨fun hlow hn => ?low, fun hlow hn hpol hpresent => ?slips, fun hhigh => ?holds⟩
  case low =>
    rw [closes (Part.slipClose_low s.setup monitored hw hticks hlow hn), Part.takeStop_none s.setup (by exact hstop)]
    rfl
  case slips =>
    obtain ⟨x, hx⟩ : ∃ x, x = s.part.nextWindow (s.part.trc.slipLow + 1) := ⟨_, rfl⟩
    have absent : (x.cmn.get .slip).present = false := by rw [hx]; exact hpresent
    have never : s.setup.policies.slip.policy ≠ .auto ∧ s.setup.policies.slip.policy ≠ .off := by
      rcases hpol with h | h <;> rw [h] <;> exact ⟨nofun, nofun⟩
    have moving : s.part.trc.state ≠ .settling := by rcases hs with h | h <;> rw [h] <;> nofun
    have raised := Part.slipClose_slips s.setup monitored hw hticks hlow hn
    rw [← hx] at raised
    obtain ⟨c, b, m, e, hp, -, hf, -, hb⟩ := x.reportPresent_spec s.setup .slip
    obtain ⟨y, hy⟩ : ∃ y, y = x.reportPresent s.setup .slip := ⟨_, rfl⟩
    rw [← hy] at raised e
    have trc : y.trc = { s.part.trc with slipWindow := some ⟨0, 0⟩, slipLow := s.part.trc.slipLow + 1 } := by rw [e, hx]; rfl
    obtain ⟨hflag, hpos⟩ := y.takeStop_slipFlag s.setup never.1 (by rw [trc]; exact moving)
    refine ⟨_, closes raised, hflag.trans ?flag, hpos.trans ?pos, fun h => ?spared, fun hstops hplays he hk => ?stops⟩
    case flag => rw [e]; exact hf absent never.2
    case pos => rw [e, hx]; rfl
    case spared =>
      have dropped : y.takeStop s.setup = { y with stopPending := false } := by
        rcases h with warn | ⟨ht, hv⟩
        · have quiet : b = x.stopPending :=
            hb ⟨fun k => absurd (warn.symm.trans k) nofun, fun k => absurd (warn.symm.trans k.1) nofun⟩
          have none : y.stopPending = false := by rw [e]; exact quiet.trans (by rw [hx]; exact hstop)
          rw [Part.takeStop_none s.setup none]
          exact y.stopDropped none
        · exact y.takeStop_spared s.setup (by rw [trc]; exact ht) (by rw [trc]; exact hv)
      dsimp only
      rw [dropped]
      refine ⟨trc, ?_, ?_⟩ <;> rw [e]
      · exact hp
      · rw [hx]; rfl
    case stops =>
      obtain ⟨c', m', e', -, -, hqueue⟩ := x.reportPresent_stop s.setup .slip hstops absent
      rw [← hy] at e'
      obtain ⟨htrc, habsent, hhcr, htake, hsurvey⟩ := Part.takeStop_condition s.setup s.part y (by rw [e']) (by rw [trc]; exact hplays)
        (by rw [trc]; exact hk) (by rw [trc]; exact he) (by rw [e', hx]; exact ⟨rfl, rfl, rfl, rfl, rfl, rfl, rfl, rfl⟩)
        (by rw [e', hx]; exact fun k hk => (hqueue k hk).trans (by rw [hx]; rfl))
      have ending : conditionEnding y = conditionEnding s.part := by unfold conditionEnding; rw [trc]
      rw [trc, ending] at htrc
      rw [trc] at htake hsurvey
      have rft : y.rft = s.part.rft := by rw [e', hx]; rfl
      have hcr : y.hcr = s.part.hcr := by rw [e', hx]; rfl
      have time : y.timebase = s.part.timebase := by rw [e', hx]; rfl
      rw [rft] at hsurvey
      rw [hcr] at hhcr
      rw [time] at htrc
      dsimp only
      rw [htrc]
      exact ⟨rfl, rfl, rfl, rfl, habsent, hhcr, rfl, htake, hsurvey⟩
  case holds =>
    obtain ⟨c, e, hpresent, -⟩ := (s.part.nextWindow 0).reportAbsent_spec s.setup .slip
    have still := (Part.slipClose_holds s.setup monitored hw hticks hhigh).trans e
    refine ⟨_, closes still, ?_⟩
    rw [Part.takeStop_none s.setup (by exact hstop)]
    exact ⟨rfl, hpresent, rfl, rfl, rfl⟩

end Sys2Proof.Machine
end

section
/-! START_TAKE: its checks in their order, and the state every block takes at its start (O20). -/

namespace Sys2Proof.Machine

open Sys2Proof.Safety

/-! ## The checks (09, R158) -/

/-- No operation runs, and both lanes have finished and been read out. -/
def Part.still (p : Part) : Prop :=
  p.trc.state = .stopped ∧ p.trc.op.kind = .none ∧ p.lanes.a.state = .idle ∧ p.lanes.b.state = .idle
    ∧ p.lanes.a.fifo = [] ∧ p.lanes.b.fifo = []

theorem Part.still_iff (p : Part) : p.still ↔ ¬(p.atRest = false ∨ p.drained = false) := by
  rw [not_or, Bool.not_eq_false, Bool.not_eq_false, p.atRest_iff, p.drained_iff]
  exact ⟨fun ⟨hs, hk, h⟩ => ⟨⟨hs, hk⟩, h⟩, fun ⟨⟨hs, hk⟩, h⟩ => ⟨hs, hk, h⟩⟩

section
variable {u : Setup} {p : Part} {e : Option Nat}

theorem takeBlocked_busy (h : ¬p.still) : takeBlocked u p e = some .busy :=
  if_pos (by rwa [p.still_iff, not_not] at h)

theorem takeBlocked_noCassette (h : p.still) (hc : p.pos.cassette = false) : takeBlocked u p e = some .conflict :=
  (if_neg (p.still_iff.mp h)).trans (if_pos hc)

theorem takeBlocked_notReferenced (h : p.still) (hc : p.pos.cassette = true) (hr : p.pos.referenced = false) :
    takeBlocked u p e = some .notReferenced :=
  (if_neg (p.still_iff.mp h)).trans ((if_neg (by rw [hc]; nofun)).trans (if_pos hr))

/-- Over a referenced cassette at rest the faults come next, then the end position, then the sources. -/
theorem takeBlocked_armed (h : p.still) (hc : p.pos.cassette = true) (hr : p.pos.referenced = true) : takeBlocked u p e
    = if faultActive u p then some .faultActive
      else if e.any (fun e => decide (e ≤ p.pos.position)) then some .conflict
      else if (p.effective .a).source = .off ∧ (p.effective .b).source = .off then some .conflict
      else none :=
  (if_neg (p.still_iff.mp h)).trans ((if_neg (by rw [hc]; nofun)).trans (if_neg (by rw [hr]; nofun)))

end

/-- The end position the arguments give. -/
def endGiven (flag : Byte) (x : BitVec 24) : Option Nat := if flag = 1 then some x.toNat else none

theorem endGiven_reached {flag : Byte} {x : BitVec 24} (n : Nat) (hf : flag = 1) (h : x.toNat ≤ n) :
    (endGiven flag x).any (fun e => decide (e ≤ n)) = true := by
  unfold endGiven
  rw [if_pos hf]
  exact decide_eq_true h

theorem endGiven_above {flag : Byte} {x : BitVec 24} (n : Nat) (h : flag = 1 → n < x.toNat) :
    (endGiven flag x).any (fun e => decide (e ≤ n)) = false := by
  unfold endGiven
  split
  · rename_i hf
    exact decide_eq_false (Nat.not_le_of_lt (h hf))
  · rfl

theorem ownStartTake_badValue {flag : Byte} (x : BitVec 24) (s : State) (h : 2 ≤ flag.toNat) :
    ownStartTake flag x s = ⟨s, .badValue, []⟩ := by
  unfold ownStartTake
  rw [flagOf_eq_none _ h]
  rfl

theorem ownStartTake_flag {flag : Byte} (x : BitVec 24) (s : State) (h : flag.toNat ≤ 1) :
    ownStartTake flag x s = match takeBlocked s.setup s.part (endGiven flag x) with
      | some code => s.refuse code
      | none => ⟨s.onPart (Part.takeStart s.setup (endGiven flag x)), .accepted,
          bytesOf 2 (s.part.takeStart s.setup (endGiven flag x)).take.number⟩ := by
  rcases byte_zero_or_one _ h with rfl | rfl <;> rfl

theorem ownStartTake_blocked {flag : Byte} {x : BitVec 24} {s : State} {code : ReplyCode} (h : flag.toNat ≤ 1)
    (hb : takeBlocked s.setup s.part (endGiven flag x) = some code) : ownStartTake flag x s = ⟨s, code, []⟩ := by
  rw [ownStartTake_flag x s h, hb]
  rfl

theorem ownStartTake_starts {flag : Byte} {x : BitVec 24} {s : State} (h : flag.toNat ≤ 1)
    (hb : takeBlocked s.setup s.part (endGiven flag x) = none) : ownStartTake flag x s
      = ⟨s.onPart (Part.takeStart s.setup (endGiven flag x)), .accepted,
          bytesOf 2 (s.part.takeStart s.setup (endGiven flag x)).take.number⟩ := by
  rw [ownStartTake_flag x s h, hb]

/-! ## The starting state of every block (09, R159; 04, R71; 06, R106; 07, R121; 08, R141, R143) -/

/-- The lock state a take begins with. -/
def startLock (s : Settings) : LockState := if s.source.isMeasured then .search else .idle

/-- A tracker as a take finds it begun. -/
def Part.startTracker (u : Setup) (p : Part) (l : Lane) : Tracker :=
  { (p.rft.get l).cleared u .take (p.effective l) with step := u.rates.nominal, lock := startLock (p.effective l) }

/-- The notices once lane l's tracker has begun: LOCK_CHANGED where its lock state changed. -/
def Part.startNotices (u : Setup) (p : Part) (l : Lane) (q : List Notice) : List Notice :=
  if (p.rft.get l).lock = startLock (p.effective l) then q
  else postNotice (.lockChanged l (p.rft.get l).lock (startLock (p.effective l)) (some 0) u.rates.nominal) q

theorem Part.trackerTakeStart_exact (u : Setup) (l : Lane) (p : Part) : ∃ c, p.trackerTakeStart u l
    = { p with rft := p.rft.set l (p.startTracker u l), cmn := c, msp := { p.msp with notices := p.startNotices u l p.msp.notices } } := by
  obtain ⟨q, hq⟩ : ∃ q : Part, q = p.setTracker l { (p.rft.get l).cleared u .take (p.effective l) with step := u.rates.nominal } :=
    ⟨_, rfl⟩
  have changes : p.trackerTakeStart u l = (q.changeLock u l (startLock (p.effective l)) (some 0)).reportAbsent u (.range l) := by
    unfold Part.trackerTakeStart startLock
    dsimp only
    rw [← hq]
    split <;> rfl
  obtain ⟨c, b, m, e, -, -, -, hb⟩ := q.changeLock_spec u l (startLock (p.effective l)) (some 0)
  obtain ⟨rfl, rfl⟩ := hb (by unfold startLock; split <;> nofun)
  obtain ⟨c', e', -⟩ := (q.changeLock u l (startLock (p.effective l)) (some 0)).reportAbsent_spec u (.range l)
  have tracker : q.rft.get l = { (p.rft.get l).cleared u .take (p.effective l) with step := u.rates.nominal } := by
    rw [hq]
    exact PerLane.get_set_same _ _ _
  refine ⟨c', ?_⟩
  rw [changes, e', e, tracker, hq]
  simp only [Part.setTracker, PerLane.set_set]
  rfl

/-- A lane as a take finds it begun; what waits in its FIFO stays. -/
def Part.startProducer (u : Setup) (p : Part) (l : Lane) : Producer :=
  { state := .active, acc := 16 * 16777216, frameCount := 0, mark := false, applied := u.rates.nominal,
    settings := p.effective l, governing := (p.sgt.arrival.get l).map Entry.start,
    az := if (p.effective l).azMode = .track then 0 else (p.effective l).fixedOffset, timeline := [], fifo := (p.lanes.get l).fifo }

/-- An aligner half as a take finds it begun. -/
def Part.startAligner (p : Part) (l : Lane) : Aligner :=
  { running := true, mode := (p.effective l).azMode, fixedOffset := (p.effective l).fixedOffset, theta := (p.effective l).theta,
    ka := (p.effective l).ka, estimate := if (p.effective l).azMode = .track then 0 else (p.effective l).fixedOffset,
    window := if (p.effective l).azMode = .fixed then none else some (AzimuthWindow.opened 0) }

theorem Part.laneTakeStart_eq (u : Setup) (l : Lane) (p : Part) : p.laneTakeStart u l = p.setProducer l (p.startProducer u l) := by
  unfold Part.laneTakeStart Part.startProducer
  dsimp only
  cases (p.effective l).azMode <;> rfl

theorem Part.alignerTakeStart_eq (l : Lane) (p : Part) : p.alignerTakeStart l = p.setAligner l (p.startAligner l) := by
  unfold Part.alignerTakeStart Part.startAligner Aligner.takeSettings
  dsimp only
  cases (p.effective l).azMode <;> rfl

/-- The part with every block at its start of a take, the condition records and the notices given. -/
def Part.begun (u : Setup) (c : PerCond CondStatus) (p : Part) : Part :=
  { p with
    rft := ⟨p.startTracker u .a, p.startTracker u .b⟩
    lanes := ⟨p.startProducer u .a, p.startProducer u .b⟩
    aza := ⟨p.startAligner .a, p.startAligner .b⟩
    det := ⟨Detector.takeStart (p.effective .a).dropout, Detector.takeStart (p.effective .a).dropout,
            Detector.takeStart (p.effective .b).dropout, Detector.takeStart (p.effective .b).dropout⟩
    con := .all Concealer.reset
    cmn := c
    msp := { p.msp with notices := p.startNotices u .b (p.startNotices u .a p.msp.notices) } }

theorem Part.takeSetup_exact (u : Setup) (p : Part) : ∃ c, p.takeSetup u = p.begun u c := by
  obtain ⟨c, ea⟩ := p.trackerTakeStart_exact u .a
  obtain ⟨c', eb⟩ := (p.trackerTakeStart u .a).trackerTakeStart_exact u .b
  refine ⟨c', ?_⟩
  rw [ea] at eb
  unfold Part.takeSetup
  dsimp only
  rw [ea, eb, Part.alignerTakeStart_eq, Part.alignerTakeStart_eq, Part.laneTakeStart_eq, Part.laneTakeStart_eq]
  rfl

/-- The part with its take opened and its transport starting, before the blocks begin. -/
def Part.opened (e : Option Nat) (p : Part) : Part :=
  ((p.takeOpen e).setOp { (p.takeOpen e).opStart .take with endPosition := e }).enterMoving .starting

theorem Part.takeStart_exact (u : Setup) (e : Option Nat) (p : Part) : ∃ c, p.takeStart u e = (p.opened e).begun u c :=
  (p.opened e).takeSetup_exact u

theorem exec_startTake {flag tag : Byte} {x : BitVec 24} {s : State} (hr : s.part.ready = true) (hd : s.part.take.device = .configure)
    (hf : flag.toNat ≤ 1) (hb : takeBlocked s.setup s.part (endGiven flag x) = none) : exec (.startTake tag flag x) s
      = .next (withReply { s with part := s.part.takeStart s.setup (endGiven flag x) } 0x14 tag .accepted
          (bytesOf 2 (s.part.takeStart s.setup (endGiven flag x)).take.number)) := by
  refine congrArg _ ((portCommand_ready .startTake tag (ownStartTake flag x) s hr).trans ?_)
  rw [judge_admitted _ _ _ (by rw [hd]; rfl), ownStartTake_starts hf hb]
  rfl

/-- Settles O20: the checks come in R158's order (`takeBlocked_armed`), and a take that starts leaves every block at its start
(`Part.takeStart_exact`). -/
theorem startTake : Obligations.StartTake := by
  refine ⟨fun tag flag x s hr hd hf hs hk ha hb hfa hfb hc href hfault hend hsrc e he => ?starts,
    fun tag flag x s hr hd still free armed above hstill hfree harmed habove => ?blocked⟩
  case starts =>
    have given : e = endGiven flag x := he
    have passes : takeBlocked s.setup s.part (endGiven flag x) = none := by
      rw [takeBlocked_armed (p := s.part) ⟨hs, hk, ha, hb, hfa, hfb⟩ hc href, hfault, endGiven_above _ hend]
      exact if_neg hsrc
    obtain ⟨c, begun⟩ := s.part.takeStart_exact s.setup (endGiven flag x)
    refine ⟨_, exec_startTake hr hd hf passes, ?_⟩
    rw [begun, given]
    refine ⟨rfl, rfl, rfl, rfl, rfl, rfl, rfl, rfl, rfl, rfl, rfl, rfl, rfl, rfl, rfl, rfl, fun l => ?lanes, fun l => ?trackers,
      fun changed hchanged => ?notices, fun l => ?aligners, fun tr => ?tracks, rfl⟩
    case lanes =>
      cases l
      · exact congrArg (fun q => { s.part.startProducer s.setup .a with fifo := q }) hfa
      · exact congrArg (fun q => { s.part.startProducer s.setup .b with fifo := q }) hfb
    case trackers => cases l <;> rfl
    case notices =>
      rw [hchanged, hchanged]
      rfl
    case aligners => cases l <;> rfl
    case tracks => cases tr <;> exact ⟨rfl, rfl⟩
  case blocked =>
    have answered {code : ReplyCode} (ho : ownStartTake flag x s = ⟨s, code, []⟩) :
        exec (.startTake tag flag x) s = .next (withReply s 0x14 tag code []) :=
      congrArg _ (portCommand_answered tag hr (by rw [hd]; rfl) ho)
    refine ⟨fun h => answered (ownStartTake_badValue x s h), fun hf => ?_⟩
    have blocked {code : ReplyCode} (hb : takeBlocked s.setup s.part (endGiven flag x) = some code) :
        exec (.startTake tag flag x) s = .next (withReply s 0x14 tag code []) := answered (ownStartTake_blocked hf hb)
    have checked (h : armed) := takeBlocked_armed (u := s.setup) (e := endGiven flag x) (hstill.mp (hfree.mp (harmed.mp h).1).1)
      (hfree.mp (harmed.mp h).1).2 (harmed.mp h).2
    refine ⟨fun h => ?busy, fun h hc => ?noCassette, fun h href => ?notReferenced, fun h hfault => ?fault,
      fun h hfault hflag hend => ?reached, fun h ha hb => ?silent⟩
    case busy => exact blocked (takeBlocked_busy fun k => h (hstill.mpr k))
    case noCassette => exact blocked (takeBlocked_noCassette (hstill.mp h) hc)
    case notReferenced =>
      obtain ⟨hs, hc⟩ := hfree.mp h
      exact blocked (takeBlocked_notReferenced (hstill.mp hs) hc href)
    case fault => exact blocked ((checked h).trans (if_pos hfault))
    case reached =>
      refine blocked ((checked h).trans ?_)
      rw [hfault, endGiven_reached _ hflag hend]
      rfl
    case silent =>
      obtain ⟨harm, hfault, hend⟩ := habove.mp h
      refine blocked ((checked harm).trans ?_)
      rw [hfault, endGiven_above _ hend]
      exact if_pos (And.intro ha hb)

end Sys2Proof.Machine
end

section
/-! The commands of the segment table: LOCK_TABLES, CLEAR_SEGMENTS, READ_SEGMENT, DELETE_SEGMENT, LOAD_SEGMENT (O7, O17, O18, O19). -/

namespace Sys2Proof.Machine

open Sys2Proof.Safety

/-! ## Admission by device state (09, R156) -/

/-- A command that neither STANDBY nor RUN admits is admitted in CONFIGURE alone. -/
theorem Cmd.admitted_configureOnly {k : Cmd} {d : DeviceState} (hs : k.admitted .standby = false) (hr : k.admitted .run = false)
    (h : d ≠ .configure) : k.admitted d = false := by
  cases d
  · exact hs
  · exact absurd rfl h
  · exact hr

/-- A command that RUN admits is admitted outside STANDBY. -/
theorem Cmd.admitted_outsideStandby {k : Cmd} {d : DeviceState} (hr : k.admitted .run = true) (h : d ≠ .standby) :
    k.admitted d = true := by
  cases d
  · exact absurd rfl h
  · exact k.admitted_configure
  · exact hr

/-! ## An edit of the table (03, R46 to R48, R51) -/

/-- In RUN an edit leaves the current and the governing entries to the block stamps. -/
theorem State.editTable_run {s : State} (entries : List Entry) (h : s.part.take.device = .run) :
    s.editTable entries = { s with setup := { s.setup with entries := entries } } := by
  have stays (u : Setup) : s.part.follow u = s.part := if_pos h
  unfold State.editTable
  dsimp only
  rw [stays]

/-- Outside RUN an edit finds the current and the governing entries again. -/
theorem State.editTable_outsideRun {s : State} (entries : List Entry) (h : s.part.take.device ≠ .run) :
    s.editTable entries = { s with
      setup := { s.setup with entries := entries },
      part := { s.part with sgt := ⟨currentAt entries s.part.pos.position,
        ⟨governingAt entries (currentAt entries s.part.pos.position) .a,
         governingAt entries (currentAt entries s.part.pos.position) .b⟩⟩ } } := by
  have found (u : Setup) : s.part.follow u = s.part.refind u := if_neg h
  unfold State.editTable
  dsimp only
  rw [found]
  rfl

theorem holdsStart_iff (entries : List Entry) (start : Nat) : holdsStart entries start = true ↔ ∃ e ∈ entries, e.start = start := by
  simp [holdsStart]

theorem holdsStart_eq_false (entries : List Entry) (start : Nat) :
    holdsStart entries start = false ↔ ∀ e ∈ entries, e.start ≠ start := by
  simp [holdsStart]

/-! ## LOCK_TABLES and CLEAR_SEGMENTS (03, R48, R50, R59) -/

theorem ownLockTables_flag {flag : Byte} {b : Bool} (s : State) (h : flagOf flag = some b) :
    ownLockTables flag s = ⟨{ s with setup := { s.setup with locked := b } }, .ok, []⟩ := by
  unfold ownLockTables
  rw [h]
  rfl

theorem ownLockTables_badValue {flag : Byte} (s : State) (h : 2 ≤ flag.toNat) : ownLockTables flag s = ⟨s, .badValue, []⟩ := by
  unfold ownLockTables
  rw [flagOf_eq_none flag h]
  rfl

theorem Setup.softReset_lock (u : Setup) : u.softReset.locked = u.locked
    ∧ (u.locked = true → u.softReset.entries = u.entries) ∧ (u.locked = false → u.softReset.entries = []) := by
  unfold Setup.softReset
  split
  · rename_i h
    exact ⟨rfl, fun _ => rfl, fun k => absurd h (by rw [k]; nofun)⟩
  · rename_i h
    exact ⟨rfl, fun k => absurd k h, fun _ => rfl⟩

/-- Settles O7: the lock's owner reads a flag, a soft reset decides by the lock it keeps (`Setup.softReset_lock`), and clearing is an
edit that leaves no entry to find. -/
theorem tableEdits : Obligations.TableEdits := by
  refine ⟨⟨fun tag flag s hr => ?lockTables, fun tag s hr => ?softReset, fun v s => ⟨hardResetState v s, rfl, rfl, rfl⟩⟩,
    fun tag s hr => ?clearSegments⟩
  case lockTables =>
    have answered {code : ReplyCode} {t : State} (hd : s.part.take.device = .configure) (ho : ownLockTables flag s = ⟨t, code, []⟩) :
        exec (.lockTables tag flag) s = .next (withReply t 0x05 tag code []) :=
      congrArg _ (portCommand_answered tag hr (by rw [hd]; rfl) ho)
    refine ⟨fun hd => ?_, fun hd hf => ?_, fun hd hf => ?_, fun hd hf => ?_⟩
    · exact congrArg _ (portCommand_wrongState _ _ _ _ hr (Cmd.admitted_configureOnly rfl rfl hd))
    · exact answered hd (ownLockTables_flag s (by rw [hf]; rfl))
    · exact answered hd (ownLockTables_flag s (by rw [hf]; rfl))
    · exact answered hd (ownLockTables_badValue s hf)
  case softReset =>
    obtain ⟨hlock, hkept, hemptied⟩ := s.setup.softReset_lock
    refine ⟨withReply (ownSoftReset s).state 0x04 tag .ok [],
      congrArg _ (portCommand_answered (k := .softReset) tag hr (by cases s.part.take.device <;> rfl) rfl),
      hlock, fun h => ⟨hkept h, ?_⟩, fun h => ⟨hemptied h, ?_⟩⟩
    · exact if_pos h
    · exact if_neg (by rw [h]; nofun)
  case clearSegments =>
    refine ⟨fun hd => ?_, fun hd => ?_⟩
    · exact congrArg _ (portCommand_wrongState _ _ _ _ hr (Cmd.admitted_configureOnly rfl rfl hd))
    · have emptied : ownClearSegments s = ⟨{ s with
          setup := { s.setup with entries := [] }, part := { s.part with sgt := ⟨none, ⟨none, none⟩⟩ } }, .ok, []⟩ :=
        congrArg (fun t => (⟨t, .ok, []⟩ : Answer)) (State.editTable_outsideRun [] (by rw [hd]; nofun))
      exact congrArg _ (portCommand_answered tag hr (by rw [hd]; rfl) emptied)

/-! ## READ_SEGMENT (03, R49; 11, R203) -/

/-- A command the device state admits and its owner answers OK with results. -/
theorem portCommand_results {k : Cmd} (tag : Byte) {owner : State → Answer} {s t : State} {results : List Byte}
    (hr : s.part.ready = true) (h : k.admitted s.part.take.device = true) (ho : owner s = ⟨t, .ok, results⟩) :
    portCommand k tag owner s = withReply t k.code tag .ok results := by
  rw [portCommand_ready k tag owner s hr, judge_admitted k owner s h, ho]
  rfl

@[simp] theorem bytesOf_length (n v : Nat) : (bytesOf n v).length = n := by
  induction n with
  | zero => rfl
  | succ n ih => simp [bytesOf, ih]

@[simp] theorem signedBytes_length (n : Nat) (v : Int) : (signedBytes n v).length = n := bytesOf_length _ _

theorem Settings.bytes_length (x : Settings) : x.bytes.length = 30 := by
  delta Settings.bytes
  simp only [List.length_append, List.length_cons, List.length_nil, bytesOf_length, signedBytes_length]

@[simp] theorem partBytes_length (part : Option Settings) : (partBytes part).length = 30 := by
  cases part with
  | none => exact List.length_replicate
  | some x => exact x.bytes_length

theorem Entry.bytes_length (e : Entry) : e.bytes.length = 67 := by
  simp only [Entry.bytes, List.length_append, List.length_cons, List.length_nil, bytesOf_length, partBytes_length]

theorem Entry.bytes_eq (e : Entry) : e.bytes = bytesOf 3 e.start ++ bytesOf 2 e.label ++ [flagByte (e.parts.get .a).isSome]
    ++ [flagByte (e.parts.get .b).isSome] ++ partBytes (e.parts.get .a) ++ partBytes (e.parts.get .b) := by
  simp only [Entry.bytes, PerLane.get, List.append_assoc, List.cons_append, List.nil_append]

theorem ownReadSegment_held {index : Byte} {s : State} (h : index.toNat < s.setup.entries.length) :
    ownReadSegment index s = ⟨s, .ok, s.setup.entries[index.toNat].bytes⟩ := by
  unfold ownReadSegment
  rw [List.getElem?_eq_getElem h]

theorem ownReadSegment_notFound {index : Byte} {s : State} (h : s.setup.entries.length ≤ index.toNat) :
    ownReadSegment index s = ⟨s, .notFound, []⟩ := by
  unfold ownReadSegment
  rw [List.getElem?_eq_none h]
  rfl

/-- Settles O19: the owner looks an index up, and an entry's bytes are its head and its two parts (`Entry.bytes_eq`). -/
theorem readSegment : Obligations.ReadSegment := by
  refine ⟨fun tag index s hr => ⟨fun hd => ?_, fun hd => ⟨fun h => ?_, fun h => ?_⟩⟩, fun e part habsent hpresent => ?bytes⟩
  · exact congrArg _ (portCommand_wrongState _ _ _ _ hr (by rw [hd]; rfl))
  · exact congrArg _ (portCommand_results tag hr (Cmd.admitted_outsideStandby rfl hd) (ownReadSegment_held h))
  · exact congrArg _ (portCommand_answered tag hr (Cmd.admitted_outsideStandby rfl hd) (ownReadSegment_notFound h))
  case bytes =>
    have laid (l : Lane) : part l = partBytes (e.parts.get l) := by
      cases h : e.parts.get l with
      | none => exact habsent l h
      | some x =>
        rw [hpresent l x h]
        delta partBytes Settings.bytes
        simp only [List.append_assoc, List.cons_append, List.nil_append]
    rw [laid, laid]
    exact ⟨e.bytes_eq, e.bytes_length⟩

/-! ## DELETE_SEGMENT (03, R47, R57) -/

theorem ownDeleteSegment_notFound {x : BitVec 24} {s : State} (h : ∀ e ∈ s.setup.entries, e.start ≠ x.toNat) :
    ownDeleteSegment x s = ⟨s, .notFound, []⟩ := if_pos ((holdsStart_eq_false _ _).mpr h)

theorem ownDeleteSegment_held {x : BitVec 24} {s : State} (h : ∃ e ∈ s.setup.entries, e.start = x.toNat) :
    ownDeleteSegment x s = if s.part.take.device = .run ∧ liveEditPasses s.part x.toNat = false then ⟨s, .tooLate, []⟩
      else ⟨s.editTable (s.setup.entries.filter fun e => e.start != x.toNat), .ok, []⟩ :=
  if_neg (by rw [(holdsStart_iff _ _).mpr h]; nofun)

/-- Settles O18: the owner looks the start up before the live-edit check, and removes by an edit of the table
(`State.editTable_run`, `State.editTable_outsideRun`). -/
theorem deleteSegment : Obligations.DeleteSegment := by
  intro tag x s hr
  have answered {code : ReplyCode} {t : State} (hd : s.part.take.device ≠ .standby) (ho : ownDeleteSegment x s = ⟨t, code, []⟩) :
      exec (.deleteSegment tag x) s = .next (withReply t 0x11 tag code []) :=
    congrArg _ (portCommand_answered tag hr (Cmd.admitted_outsideStandby rfl hd) ho)
  refine ⟨fun hd => ?_, fun hd h => answered hd (ownDeleteSegment_notFound h), fun h => ⟨fun hd hlive => ?_, ?_⟩⟩
  · exact congrArg _ (portCommand_wrongState _ _ _ _ hr (by rw [hd]; rfl))
  · exact answered (by rw [hd]; nofun) ((ownDeleteSegment_held h).trans (if_pos ⟨hd, hlive⟩))
  · rintro _ _ rfl rfl
    refine ⟨fun hd hlive => answered (by rw [hd]; nofun) ?_, fun hd => answered (by rw [hd]; nofun) ?_⟩
    · rw [ownDeleteSegment_held h, if_neg (by rw [hlive]; nofun), State.editTable_run _ hd]
    · rw [ownDeleteSegment_held h, if_neg (by rw [hd]; nofun), State.editTable_outsideRun _ (by rw [hd]; nofun)]

/-! ## LOAD_SEGMENT (03, R41 to R46, R51, R57) -/

/-- The parts and the REPLACE flag that LOAD_SEGMENT's arguments name (03, R43). -/
structure SegmentNames (a : SegmentArgs) (replace : Bool) (rawA rawB : Option Settings) : Prop where
  replace : flagOf a.replace = some replace
  partA : ∃ has, flagOf a.presentA = some has ∧ namedPart has a.partA = some rawA
  partB : ∃ has, flagOf a.presentB = some has ∧ namedPart has a.partB = some rawB

theorem namedPart_given {present : Byte} {args : PartArgs} {raw : Option Settings}
    (h : present = 0 ∧ raw = none ∨ present = 1 ∧ raw.isSome ∧ rawPart args = raw) :
    ∃ has, flagOf present = some has ∧ namedPart has args = some raw := by
  rcases h with ⟨rfl, rfl⟩ | ⟨rfl, hsome, hraw⟩
  · exact ⟨false, rfl, rfl⟩
  · obtain ⟨x, rfl⟩ := Option.isSome_iff_exists.mp hsome
    exact ⟨true, rfl, congrArg (Option.map some) hraw⟩

/-- A flag or an enumerated field that names nothing is found before anything else (03, R46 step 1). -/
theorem checkSegment_badValue (fr : Nat) {a : SegmentArgs}
    (h : 2 ≤ a.replace.toNat ∨ 2 ≤ a.presentA.toNat ∨ 2 ≤ a.presentB.toNat ∨ (a.presentA = 1 ∧ rawPart a.partA = none)
      ∨ (a.presentB = 1 ∧ rawPart a.partB = none)) : checkSegment fr a = .refused .badValue := by
  have unnamed {present : Byte} {args : PartArgs} {has : Bool} {raw : Option Settings} (hp : present = 1) (hr : rawPart args = none)
      (hf : flagOf present = some has) (hn : namedPart has args = some raw) : False := by
    rw [hp] at hf
    cases hf
    rw [namedPart, if_pos rfl, hr] at hn
    cases hn
  unfold checkSegment
  split
  case h_2 => rfl
  case h_1 hreplace hhasA hhasB =>
    split
    case h_2 => rfl
    case h_1 hnamedA hnamedB =>
      exfalso
      rcases h with h | h | h | ⟨h, k⟩ | ⟨h, k⟩
      · rw [flagOf_eq_none _ h] at hreplace
        cases hreplace
      · rw [flagOf_eq_none _ h] at hhasA
        cases hhasA
      · rw [flagOf_eq_none _ h] at hhasB
        cases hhasB
      · exact unnamed h k hhasA hnamedA
      · exact unnamed h k hhasB hnamedB

section Named

variable {a : SegmentArgs} {replace : Bool} {rawA rawB : Option Settings}

theorem checkSegment_conflict {fr : Nat} (h : SegmentNames a replace rawA rawB) (hc : clampedPart fr rawA = none ∨ clampedPart fr rawB = none) :
    checkSegment fr a = .refused .conflict := by
  obtain ⟨hreplace, ⟨hasA, hfA, hnA⟩, ⟨hasB, hfB, hnB⟩⟩ := h
  unfold checkSegment
  simp only [hreplace, hfA, hfB, hnA, hnB]
  rcases hc with hc | hc <;> rw [hc]
  cases clampedPart fr rawA <;> rfl

theorem checkSegment_passed {fr : Nat} (h : SegmentNames a replace rawA rawB) {partA partB : Option Settings} {changedA changedB : Bool}
    (hA : clampedPart fr rawA = some (partA, changedA)) (hB : clampedPart fr rawB = some (partB, changedB)) : checkSegment fr a
      = .passed ⟨⟨a.start.toNat, a.label.toNat, ⟨partA, partB⟩⟩, replace, changedA || changedB⟩ := by
  obtain ⟨hreplace, ⟨hasA, hfA, hnA⟩, ⟨hasB, hfB, hnB⟩⟩ := h
  unfold checkSegment
  simp only [hreplace, hfA, hfB, hnA, hnB, hA, hB]

end Named

/-- What a part is stored as: a source that is not measured in the audio keeps no f_ref, and every field lies in its range
(03, R44, R45). -/
def Settings.stored (fr : Nat) (x : Settings) : Settings := x.storeUnmeasured.clampRanges fr

/-- The check of R45 (03) looks at the f_ref sent, brought into its source's range. -/
theorem Settings.conflict_iff (fr : Nat) (x : Settings) :
    fRefConflict fr x.storeUnmeasured.source (clampFRef x.storeUnmeasured.source x.storeUnmeasured.fRef) = true
      ↔ x.source.isAudio = true ∧ fr * 72 ≤ clampFRef x.source x.fRef * 10 := by
  unfold Settings.storeUnmeasured
  split
  · simp [fRefConflict]
  · rename_i h
    simp [fRefConflict, h]

theorem clampedPart_conflict {fr : Nat} {x : Settings} (ha : x.source.isAudio = true)
    (h : fr * 72 ≤ clampFRef x.source x.fRef * 10) : clampedPart fr (some x) = none := by
  have refused : x.checked fr = none := if_pos ((x.conflict_iff fr).mpr ⟨ha, h⟩)
  rw [clampedPart, refused]
  rfl

/-- A part without a conflict is stored, and is changed where what is stored differs from what the source leaves of it. -/
theorem clampedPart_stored {fr : Nat} {raw : Option Settings}
    (h : ∀ x, raw = some x → x.source.isAudio = true → clampFRef x.source x.fRef * 10 < fr * 72) : ∃ changed,
    clampedPart fr raw = some (raw.map (Settings.stored fr), changed)
      ∧ (changed = false ↔ raw.map (Settings.stored fr) = raw.map Settings.storeUnmeasured) := by
  cases raw with
  | none => exact ⟨false, rfl, iff_of_true rfl rfl⟩
  | some x =>
    have passes : x.checked fr = some (x.stored fr, decide (x.stored fr ≠ x.storeUnmeasured)) :=
      if_neg fun k => by
        obtain ⟨ha, hc⟩ := (x.conflict_iff fr).mp k
        exact absurd (h x rfl ha) (by omega)
    refine ⟨decide (x.stored fr ≠ x.storeUnmeasured), ?_, by simp⟩
    rw [clampedPart, passes]
    rfl

theorem adjustedIf_either {x y : Bool} {c d : Prop} [Decidable (c ∧ d)] (hx : x = false ↔ c) (hy : y = false ↔ d) :
    adjustedIf (x || y) = if c ∧ d then .ok else .adjusted := by
  have either : (x || y) = false ↔ c ∧ d := by rw [Bool.or_eq_false_iff, hx, hy]
  unfold adjustedIf
  by_cases h : c ∧ d
  · rw [either.mpr h, if_pos h]
    rfl
  · rw [if_neg h, if_pos (Bool.eq_true_of_not_eq_false fun k => h (either.mp k))]

/-! The checks of a named entry against the table (03, R46 steps 3 to 5). -/

section Blocked

variable {u : Setup} {p : Part} {x : Loading}

theorem loadBlocked_tooLate (hd : p.take.device = .run) (h : liveEditPasses p x.entry.start = false) :
    loadBlocked u p x = some .tooLate := if_pos ⟨hd, h⟩

theorem loadBlocked_table (h : p.take.device = .run → liveEditPasses p x.entry.start = true) : loadBlocked u p x
    = if holdsStart u.entries x.entry.start then (if x.replace then none else some .duplicate)
      else if 64 ≤ u.entries.length then some .full else none :=
  if_neg fun ⟨hd, hl⟩ => by rw [h hd] at hl; cases hl

end Blocked

section Answered

variable {a : SegmentArgs} {s : State}

theorem ownLoadSegment_refused {code : ReplyCode} (h : checkSegment s.setup.rates.fr a = .refused code) :
    ownLoadSegment a s = ⟨s, code, []⟩ := by
  unfold ownLoadSegment
  rw [h]
  rfl

theorem ownLoadSegment_blocked {x : Loading} {code : ReplyCode} (h : checkSegment s.setup.rates.fr a = .passed x)
    (hb : loadBlocked s.setup s.part x = some code) : ownLoadSegment a s = ⟨s, code, []⟩ := by
  unfold ownLoadSegment
  simp only [h, hb]
  rfl

theorem ownLoadSegment_loads {x : Loading} (h : checkSegment s.setup.rates.fr a = .passed x) (hb : loadBlocked s.setup s.part x = none) :
    ownLoadSegment a s = ⟨s.editTable (insertSegment x.entry s.setup.entries), adjustedIf x.changed, []⟩ := by
  unfold ownLoadSegment
  simp only [h, hb]
  rfl

end Answered

/-- Settles O17: the checks come in R46's order (`checkSegment_badValue`, `checkSegment_conflict`, `loadBlocked_table`), and an entry
that passes them is inserted in its place (`insertSegment_ascending`, `insertSegment_mem`). -/
theorem loadSegment : Obligations.LoadSegment := by
  intro tag a s hr hd
  have answered {code : ReplyCode} {t : State} (ho : ownLoadSegment a s = ⟨t, code, []⟩) :
      exec (.loadSegment tag a) s = .next (withReply t 0x10 tag code []) :=
    congrArg _ (portCommand_answered tag hr (Cmd.admitted_outsideStandby rfl hd) ho)
  refine ⟨fun h => answered (ownLoadSegment_refused (checkSegment_badValue _ h)), fun rawA rawB hreplace hA hB => ?_⟩
  have named (replace : Bool) (hf : flagOf a.replace = some replace) : SegmentNames a replace rawA rawB :=
    ⟨hf, namedPart_given hA, namedPart_given hB⟩
  obtain ⟨replace, hf⟩ : ∃ replace, flagOf a.replace = some replace := by
    rcases byte_zero_or_one _ hreplace with h | h <;> rw [h]
    · exact ⟨false, rfl⟩
    · exact ⟨true, rfl⟩
  refine ⟨fun ⟨x, hx, haudio, hc⟩ => ?conflict, fun hfits e he => ?_⟩
  case conflict =>
    refine answered (ownLoadSegment_refused (checkSegment_conflict (named _ hf) ?_))
    rcases hx with rfl | rfl
    · exact .inl (clampedPart_conflict haudio hc)
    · exact .inr (clampedPart_conflict haudio hc)
  obtain ⟨changedA, hclampA, hchangedA⟩ := clampedPart_stored fun x hx => hfits x (.inl hx)
  obtain ⟨changedB, hclampB, hchangedB⟩ := clampedPart_stored fun x hx => hfits x (.inr hx)
  have passes : checkSegment s.setup.rates.fr a = .passed ⟨e, replace, changedA || changedB⟩ := by
    rw [checkSegment_passed (named _ hf) hclampA hclampB, he]
    rfl
  refine ⟨fun hrun hlive => answered (ownLoadSegment_blocked passes (loadBlocked_tooLate hrun hlive)),
    fun hlive => ⟨fun hheld h0 => ?duplicate, fun hfree hfull => ?full, fun hplace hasc => ?loads⟩⟩
  case duplicate =>
    have keeps : replace = false := by rw [h0] at hf; cases hf; rfl
    refine answered (ownLoadSegment_blocked passes ((loadBlocked_table hlive).trans ?_))
    rw [if_pos ((holdsStart_iff _ _).mpr hheld), keeps]
    rfl
  case full =>
    refine answered (ownLoadSegment_blocked passes ((loadBlocked_table hlive).trans ?_))
    rw [if_neg (by rw [(holdsStart_eq_false _ _).mpr hfree]; nofun), if_pos hfull]
  case loads =>
    have free : loadBlocked s.setup s.part ⟨e, replace, changedA || changedB⟩ = none := by
      refine (loadBlocked_table hlive).trans ?_
      rcases hplace with ⟨hheld, h1⟩ | ⟨hfree, hroom⟩
      · have replaces : replace = true := by rw [h1] at hf; cases hf; rfl
        rw [if_pos ((holdsStart_iff _ _).mpr hheld), replaces]
        rfl
      · rw [if_neg (by rw [(holdsStart_eq_false _ _).mpr hfree]; nofun), if_neg (by omega)]
    have code : adjustedIf (changedA || changedB) = if e.parts.a = rawA.map Settings.storeUnmeasured
        ∧ e.parts.b = rawB.map Settings.storeUnmeasured then .ok else .adjusted := by
      rw [he]
      exact adjustedIf_either hchangedA hchangedB
    refine ⟨_, answered (ownLoadSegment_loads passes free), ?_⟩
    dsimp only
    rw [code]
    have ascends := insertSegment_ascending e _ hasc
    have members := insertSegment_mem e _ hasc
    by_cases hrun : s.part.take.device = .run
    · rw [State.editTable_run _ hrun, if_pos hrun]
      exact ⟨rfl, ascends, members, rfl, rfl, rfl⟩
    · rw [State.editTable_outsideRun _ hrun, if_neg hrun]
      exact ⟨rfl, ascends, members, rfl, rfl, rfl⟩

end Sys2Proof.Machine
end

section
/-! SET_RATES: its checks, and what the new pair brings to the receiver, the trackers, the lanes and the table (O8). -/

namespace Sys2Proof.Machine

open Sys2Proof.Safety

/-! ## The pair and the table (06, R103, R104; 03, R60) -/

theorem RatePair.ofRates_pair (r : RatePair) : RatePair.ofRates r.fr r.fo = some r := by cases r <;> rfl

theorem RatePair.ofRates_none {fr fo : Nat} (h : ∀ r : RatePair, ¬(r.fr = fr ∧ r.fo = fo)) : RatePair.ofRates fr fo = none := by
  have other (r : RatePair) : ¬(fr = r.fr ∧ fo = r.fo) := fun k => h r ⟨k.1.symm, k.2.symm⟩
  exact (if_neg (other .r384x96)).trans <| (if_neg (other .r384x48)).trans <| (if_neg (other .r352x88)).trans <|
    if_neg (other .r352x44)

theorem Lane.exists_iff {P : Lane → Prop} : (∃ l, P l) ↔ P .a ∨ P .b := by
  constructor
  · rintro ⟨_ | _, h⟩
    · exact .inl h
    · exact .inr h
  · rintro (h | h)
    · exact ⟨.a, h⟩
    · exact ⟨.b, h⟩

/-- An entry conflicts with a raw rate where one of its lanes listens to an audio reference the rate cannot carry (03, R45, R60). -/
theorem Entry.conflicts_iff (fr : Nat) (e : Entry) : e.conflicts fr = true
    ↔ ∃ l x, e.parts.get l = some x ∧ x.source.isAudio = true ∧ fr * 72 ≤ x.fRef * 10 := by
  rw [Lane.exists_iff]
  rcases e with ⟨start, label, ⟨_ | x, _ | y⟩⟩ <;> simp [Entry.conflicts, fRefConflict, PerLane.get]

/-! ## The owner's answers (06, R104) -/

section Answers

variable {fr fo : BitVec 24} {s : State} {r : RatePair}

theorem ownSetRates_badValue (h : ∀ r : RatePair, ¬(r.fr = fr.toNat ∧ r.fo = fo.toNat)) : ownSetRates fr fo s = ⟨s, .badValue, []⟩ := by
  unfold ownSetRates
  rw [RatePair.ofRates_none h]
  rfl

theorem ownSetRates_pair (hfr : r.fr = fr.toNat) (hfo : r.fo = fo.toNat) : ownSetRates fr fo s
    = if s.part.trc.op.kind = .take ∨ s.part.trc.op.kind = .survey ∨ s.part.drained = false then ⟨s, .busy, []⟩
      else if s.setup.entries.any (Entry.conflicts r.fr) then ⟨s, .conflict, []⟩
      else ⟨s.takeRates r, if s.setup.entries.map (Entry.raiseC r.fr) = s.setup.entries then .ok else .adjusted, []⟩ := by
  rw [← adjustedIf_changed _ _ _ Iff.rfl]
  unfold ownSetRates
  rw [← hfr, ← hfo, RatePair.ofRates_pair]
  rfl

end Answers

/-! ## What the new pair brings (01, R2, R7; 05, R84; 06, R104; 03, R60) -/

/-- A change of Fr returns the receiver to WAITING, and RAW_HELD is absent. -/
theorem Part.wordClock_spec (u : Setup) (p : Part) (same : Prop) [Decidable same] : ∃ h c,
    (if same then p else p.wordClockChanged u) = { p with hcr := h, cmn := c }
      ∧ (¬same → h = { p.hcr with link := .waiting, run := 0 } ∧ c.rawHeld.present = false)
      ∧ (same → h = p.hcr ∧ c = p.cmn) := by
  by_cases hs : same
  · exact ⟨p.hcr, p.cmn, if_pos hs, fun k => absurd hs k, fun _ => ⟨rfl, rfl⟩⟩
  · obtain ⟨c, e, hpresent, -⟩ := Part.reportAbsent_spec u .rawHeld { p with hcr := { p.hcr with link := .waiting, run := 0 } }
    exact ⟨_, c, (if_neg hs).trans e, fun _ => ⟨rfl, hpresent⟩, fun k => absurd k hs⟩

/-- A change of the ratio makes S and A of both lanes the new nominal step. -/
theorem Part.ratio_spec (u : Setup) (p : Part) (same : Prop) [Decidable same] : ∃ r x,
    (if same then p else p.ratioChanged u) = { p with rft := r, lanes := x }
      ∧ ∀ l, (¬same → r.get l = { p.rft.get l with step := u.rates.nominal }
            ∧ x.get l = { p.lanes.get l with applied := u.rates.nominal })
          ∧ (same → r.get l = p.rft.get l ∧ x.get l = p.lanes.get l) := by
  by_cases hs : same
  · exact ⟨p.rft, p.lanes, if_pos hs, fun l => ⟨fun k => absurd hs k, fun _ => ⟨rfl, rfl⟩⟩⟩
  · exact ⟨_, _, if_neg hs, fun l => ⟨fun _ => by cases l <;> exact ⟨rfl, rfl⟩, fun k => absurd k hs⟩⟩

/-- New rates outside a take and a survey: the receiver, the trackers and the lanes as the change asks, the entries raised and the
current entry found again among them (log 24), and nothing else. -/
theorem State.takeRates_spec (r : RatePair) (s : State) (ht : s.part.trc.op.kind ≠ .take) (hv : s.part.trc.op.kind ≠ .survey) :
    ∃ h c t x g, s.takeRates r = { s with
        setup := { s.setup with rates := r, entries := s.setup.entries.map (Entry.raiseC r.fr) },
        part := { s.part with hcr := h, cmn := c, rft := t, lanes := x, sgt := g, stopPending := false } }
      ∧ g.current = currentAt (s.setup.entries.map (Entry.raiseC r.fr)) s.part.pos.position
      ∧ (r.fr ≠ s.setup.rates.fr → h = { s.part.hcr with link := .waiting, run := 0 } ∧ c.rawHeld.present = false)
      ∧ (r.fr = s.setup.rates.fr → h = s.part.hcr ∧ c = s.part.cmn)
      ∧ ∀ l, (r.ratio ≠ s.setup.rates.ratio → t.get l = { s.part.rft.get l with step := r.nominal }
            ∧ x.get l = { s.part.lanes.get l with applied := r.nominal })
          ∧ (r.ratio = s.setup.rates.ratio → t.get l = s.part.rft.get l ∧ x.get l = s.part.lanes.get l) := by
  obtain ⟨u, hu⟩ : ∃ u, u = { s.setup with rates := r, entries := s.setup.entries.map (Entry.raiseC r.fr) } := ⟨_, rfl⟩
  obtain ⟨h, c, clocked, hchanged, hkept⟩ := s.part.wordClock_spec u (r.fr = s.setup.rates.fr)
  obtain ⟨t, x, stepped, hlanes⟩ := Part.ratio_spec u { s.part with hcr := h, cmn := c } (r.ratio = s.setup.rates.ratio)
  refine ⟨h, c, t, x, (s.part.refind u).sgt, ?_, by rw [hu]; rfl, hchanged, hkept, by rw [hu] at hlanes; exact hlanes⟩
  unfold State.takeRates
  dsimp only
  rw [← hu, clocked, stepped, Part.takeStop_spared]
  · rw [hu]
    rfl
  · exact ht
  · exact hv

/-- Settles O8: the owner's checks (`ownSetRates_pair`), and what the pair brings (`State.takeRates_spec`). -/
theorem setRates : Obligations.SetRates := by
  intro tag fr fo s hr hd
  have answered {code : ReplyCode} {t : State} (ho : ownSetRates fr fo s = ⟨t, code, []⟩) :
      exec (.setRates tag fr fo) s = .next (withReply t 0x06 tag code []) :=
    congrArg _ (portCommand_answered tag hr (by rw [hd]; rfl) ho)
  refine ⟨fun h => answered (ownSetRates_badValue h), fun r hfr hfo => ⟨fun h => ?busy, fun ht hv ha hb hfa hfb => ?still⟩⟩
  case busy =>
    refine answered ((ownSetRates_pair hfr hfo).trans (if_pos ?_))
    rcases h with h | h | h
    · exact .inl h
    · exact .inr (.inl h)
    · refine .inr (.inr (Bool.eq_false_of_not_eq_true fun k => ?_))
      obtain ⟨ha, hb, hfa, hfb⟩ := s.part.drained_iff.mp k
      exact h.elim (· ha) fun h => h.elim (· hb) fun h => h.elim (· hfa) (· hfb)
  case still =>
    have free : ¬(s.part.trc.op.kind = .take ∨ s.part.trc.op.kind = .survey ∨ s.part.drained = false) := by
      rw [s.part.drained_iff.mpr ⟨ha, hb, hfa, hfb⟩]
      exact fun h => h.elim ht fun h => h.elim hv nofun
    refine ⟨fun ⟨e, he, hc⟩ => ?conflict, fun hfits => ?taken⟩
    case conflict =>
      refine answered ((ownSetRates_pair hfr hfo).trans ((if_neg free).trans (if_pos ?_)))
      exact List.any_eq_true.mpr ⟨e, he, (e.conflicts_iff _).mpr hc⟩
    case taken =>
      have fits : ¬s.setup.entries.any (Entry.conflicts r.fr) = true := fun k => by
        obtain ⟨e, he, hc⟩ := List.any_eq_true.mp k
        obtain ⟨l, x, hx, haudio, hlow⟩ := (e.conflicts_iff _).mp hc
        exact absurd (hfits e he l x hx haudio) (by omega)
      obtain ⟨h, c, t, x, g, taken, hcurrent, hchanged, hkept, hlanes⟩ := s.takeRates_spec r ht hv
      refine ⟨_, answered ((ownSetRates_pair hfr hfo).trans ((if_neg free).trans (if_neg fits))), ?_⟩
      rw [taken]
      exact ⟨rfl, rfl, rfl, rfl, rfl, rfl, rfl, rfl, hcurrent, hchanged, hkept, hlanes, rfl, rfl⟩

end Sys2Proof.Machine
end

section
/-! The first frame of a block: the current entry judged against the stamp, the governing entries after it, and SEGMENT_ENTERED (O37). -/

namespace Sys2Proof.Machine

open Sys2Proof.Safety

/-! ## The entry the judgement finds (03, R50, R51, R53) -/

/-- In an ascending table the entry at a position is the one of greatest start at or below it. -/
theorem currentAt_iff {es : List Entry} (h : ascending es = true) (q : Nat) (e : Entry) :
    currentAt es q = some e ↔ e ∈ es ∧ e.start ≤ q ∧ ∀ x ∈ es, x.start ≤ q → x.start ≤ e.start := by
  unfold currentAt
  rw [lastEntry_iff h]
  simp

/-- No entry that follows the current one starts at or below the stamp. -/
def noneAhead (es : List Entry) (current : Option Entry) (stamp : Nat) : Prop :=
  ∀ e ∈ es, (∀ c, current = some c → c.start < e.start) → stamp < e.start

theorem judgeStamp_none {es : List Entry} {stamp : Nat} (h : noneAhead es none stamp) : judgeStamp es none stamp = none :=
  judgeStamp_behind h

section Behind

variable {es : List Entry} {c : Entry} {stamp : Nat}

theorem judgeStamp_stays (h : noneAhead es (some c) stamp) (hc : c.start ≤ stamp + 8) : judgeStamp es (some c) stamp = some c :=
  (judgeStamp_behind h).trans (if_neg (by omega))

/-- The search back from a current entry more than 8 above the stamp is a search from the stamp and 8. -/
theorem judgeStamp_back (h : noneAhead es (some c) stamp) (hc : stamp + 8 < c.start) :
    judgeStamp es (some c) stamp = currentAt es (stamp + 8) := by
  refine (judgeStamp_behind h).trans ((if_pos hc).trans ?_)
  unfold currentAt
  congr 1
  funext e
  by_cases he : e.start ≤ stamp + 8
  · simp [he, show e.start < c.start by omega]
  · simp [he]

end Behind

theorem Part.judged_current (u : Setup) (stamp : Nat) (p : Part) :
    (p.judged u stamp).sgt.current = judgeStamp u.entries p.sgt.current stamp := rfl

theorem Part.judged_arrival (u : Setup) (stamp : Nat) (p : Part) (l : Lane) :
    (p.judged u stamp).sgt.arrival.get l = governingAt u.entries (p.judged u stamp).sgt.current l := by cases l <;> rfl

theorem Part.judged_noneGoverns (u : Setup) (stamp : Nat) (p : Part) (h : (p.judged u stamp).sgt.current = none) :
    (p.judged u stamp).sgt.arrival = ⟨none, none⟩ :=
  PerLane.eq_of_get fun l => by
    rw [p.judged_arrival, h]
    cases l <;> rfl

/-! ## The block's first frame, in the Segment Table and its notices (03, R53, R55) -/

theorem Part.blockBegin_outsideRun (u : Setup) (index stamp : Nat) {p : Part} (h : p.take.device ≠ .run) :
    p.blockBegin u index stamp = p := if_neg h

/-- After the block is judged, the first frame itself leaves the Segment Table and the queued notices of segments. -/
theorem Part.begun_segments (u : Setup) (rings : Rings) (f : PerTrack Int) {b : Nat} {p t : Part} (hindex : p.hcr.nextIndex = 64 * b)
    (ht : t = (p.counted u).arrived u rings (64 * b) f) : t.sgt = (p.blockBegin u (64 * b) p.pos.position).sgt
      ∧ ∀ n : Notice, n.content.kind = .segmentEntered →
        (n ∈ t.msp.notices ↔ n ∈ (p.blockBegin u (64 * b) p.pos.position).msp.notices) := by
  obtain ⟨hsgt, hnotices⟩ := (p.counted u).arrived_sgt u rings (64 * b) f
  rw [Part.counted_begins u hindex] at hsgt hnotices ht
  rw [ht]
  exact ⟨hsgt, hnotices⟩

theorem Part.turns_iff (p : Part) (l : Lane) (q : Part) :
    p.turns l q = true ↔ (p.sgt.arrival.get l).map Entry.start ≠ (q.sgt.arrival.get l).map Entry.start := by
  simp [Part.turns, sameEntry]

/-- The lanes SEGMENT_ENTERED names, from which lanes turn. -/
theorem laneSet_turns {x y : Bool} {lanes : LaneSet} (hboth : x = true ∧ y = true → lanes = .both) (ha : x = true ∧ ¬y = true → lanes = .a)
    (hb : ¬x = true ∧ y = true → lanes = .b) (h : x = true ∨ y = true) :
    (if x && y then .both else if x then .a else .b : LaneSet) = lanes := by
  cases x <;> cases y
  · exact absurd h (by simp)
  · exact (hb (by simp)).symm
  · exact (ha (by simp)).symm
  · exact (hboth (by simp)).symm

/-- Settles O37: the Segment Table after the frame is the judged one (`Part.begun_segments`, `Part.blockBegin_sgt`); the judgement goes
ahead, stays or goes back (`judgeStamp_ahead`, `judgeStamp_stays`, `judgeStamp_back`), and a lane that turns is named
(`Part.blockBegin_entered`). -/
theorem segmentJudged : Obligations.SegmentJudged := by
  intro bytes f b s hbrings hnever hindex hasc
  obtain ⟨c, -, -, hexec⟩ := exec_brings hbrings hnever
  obtain ⟨q, hq⟩ : ∃ q : Part, q = { s.part with hcr := s.part.hcr.taken s.part.hcr.expected f, cmn := c } := ⟨_, rfl⟩
  obtain ⟨t, ht⟩ : ∃ t, t = (q.counted s.setup).arrived s.setup (s.ringsAfter f) (64 * b) f := ⟨_, rfl⟩
  have answer : exec (.frameSlot bytes) s = .next { s with rings := s.ringsAfter f, part := t } := by
    rw [hexec q hq, ht, hindex]
  obtain ⟨hsgt, hnotices⟩ := Part.begun_segments s.setup (s.ringsAfter f) f (by rw [hq]; exact hindex) ht
  have same : q.sgt = s.part.sgt ∧ q.pos = s.part.pos ∧ q.msp = s.part.msp ∧ q.take = s.part.take := by rw [hq]; exact ⟨rfl, rfl, rfl, rfl⟩
  obtain ⟨sgt, pos, msp, take⟩ := same
  refine ⟨_, answer, fun hrun => ?outside, fun hrun => ?inside⟩
  case outside =>
    rw [Part.blockBegin_outsideRun _ _ _ (by rw [take]; exact hrun), sgt] at hsgt
    rw [Part.blockBegin_outsideRun _ _ _ (by rw [take]; exact hrun), msp] at hnotices
    exact ⟨hsgt, hnotices⟩
  case inside =>
    rintro p ahead last carrier moved rfl hahead hlast hcarrier hmoved
    rw [← take] at hrun
    obtain ⟨j, hj⟩ : ∃ j, j = q.judged s.setup q.pos.position := ⟨_, rfl⟩
    obtain ⟨hquiet, hentered⟩ := q.blockBegin_entered s.setup (64 * b) q.pos.position hrun j hj
    rw [q.blockBegin_sgt _ _ _ hrun, ← hj] at hsgt
    have current : j.sgt.current = judgeStamp s.setup.entries s.part.sgt.current s.part.pos.position := by
      rw [hj, q.judged_current, sgt, pos]
    have turns (l : Lane) : moved l ↔ q.turns l j = true := by
      rw [hmoved, q.turns_iff, sgt, ← hsgt]
    have found (x : Nat) (e : Entry) : last x e ↔ currentAt s.setup.entries x = some e := by rw [hlast, currentAt_iff hasc]
    have behind (h : ¬ahead) : noneAhead s.setup.entries s.part.sgt.current s.part.pos.position := fun e he hf => by
      by_contra hle
      exact h (hahead.mpr ⟨e, he, hf, by omega⟩)
    have governed (l : Lane) : j.sgt.arrival.get l = governingAt s.setup.entries j.sgt.current l := by rw [hj, q.judged_arrival]
    dsimp only
    rw [hsgt]
    refine ⟨fun h => ?ahead, fun h hc => ?none, fun h c hc => ⟨fun hle => ?stays, fun hlt => ?back⟩, fun h => ?noneGoverns,
      fun c l hc => ?governs, fun lanes hboth ha hb h => ?entered, fun ha hb => ?quiet⟩
    case ahead =>
      obtain ⟨e, he, hf, hs⟩ := hahead.mp h
      obtain ⟨e', hfound, hm, hle, hmax⟩ := judgeStamp_ahead hasc he hf hs
      exact ⟨e', (hlast _ _).mpr ⟨hm, hle, hmax⟩, current.trans hfound⟩
    case none =>
      have clear := behind h
      rw [hc] at clear current
      exact current.trans (judgeStamp_none clear)
    case stays =>
      have clear := behind h
      rw [hc] at clear current
      exact current.trans (judgeStamp_stays clear hle)
    case back =>
      have clear := behind h
      rw [hc] at clear current
      rw [judgeStamp_back clear hlt] at current
      refine ⟨fun e he => current.trans ((found _ _).mp he), fun hnone => current.trans (Option.eq_none_iff_forall_ne_some.mpr ?_)⟩
      exact fun e he => hnone e ((found _ _).mpr he)
    case noneGoverns =>
      rw [hj] at h ⊢
      exact q.judged_noneGoverns _ _ h
    case governs =>
      have carries (e : Entry) : carrier l c e ↔ governingAt s.setup.entries (some c) l = some e := by
        rw [hcarrier, governingAt_iff hasc, and_assoc]
      rw [governed, hc]
      refine ⟨fun e he => (carries e).mp he, fun hnone => Option.eq_none_iff_forall_ne_some.mpr ?_⟩
      exact fun e he => hnone e ((carries e).mpr he)
    case entered =>
      rw [turns, turns] at hboth ha hb h
      obtain ⟨n, hn, hcontent⟩ := hentered (by rw [Bool.or_eq_true]; exact h)
      rw [laneSet_turns hboth ha hb h, pos] at hcontent
      refine ⟨n, (hnotices n (by rw [hcontent]; rfl)).mpr ?_, hcontent⟩
      rw [pos] at hn ⊢
      exact hn
    case quiet =>
      rw [turns, Bool.not_eq_true] at ha hb
      intro n hn
      rw [hnotices n hn, hquiet ha hb, msp]

end Sys2Proof.Machine
end

section
/-! The frame that completes a block, judged by each track's detector, and a detector at the end of a take (O39). -/

namespace Sys2Proof.Machine

open Sys2Proof.Safety

/-! ## The table of R139 (08), one lemma per entry -/

theorem closeSpans_eq (last length least : Nat) (truncated : Bool) (spans : List Span) : closeSpans last length least truncated spans
    = spans.map fun x => if x.last = none then { x with last := some last, length := length, least := least, truncated := truncated }
        else x := by
  simp [closeSpans]

theorem endDropout_open (b n : Nat) {d : Detector} {o : OpenDropout} (spans : List Span) (h : d.openDropout = some o) : endDropout b n d spans
    = ({ d with state := .clear, run := 0, openDropout := none }, closeSpans (64 * (b - n) + 63) o.length o.least false spans) := by
  unfold endDropout
  rw [h]
  rfl

theorem refAfter_seeds (level : Nat) : refAfter 0 level = level := if_pos rfl

theorem refAfter_moves {ref : Nat} (level : Nat) (h : 0 < ref) : refAfter ref level = ((ref : Int) + ((level : Int) - ref) / 64).toNat :=
  if_neg (by omega)

section Table

variable {t : Track} {take b stamp label level : Nat} {d : Detector} {spans : List Span}

theorem judgeBlock_clear_blanked (hs : d.state = .clear) (hb : 0 < d.blank) :
    judgeBlock t take b stamp label level d spans = (d, spans) := by
  unfold judgeBlock
  simp only [hs, if_pos hb, ite_self]

theorem judgeBlock_clear_low (hs : d.state = .clear) (hb : d.blank = 0) (hl : d.isLow level = true) :
    judgeBlock t take b stamp label level d spans
      = if d.settings.onset ≤ 1 then confirmDropout t take ⟨b, stamp, label, level⟩ 1 d spans
        else ({ d with state := .onset, run := 1, pendingStart := some ⟨b, stamp, label, level⟩ }, spans) := by
  unfold judgeBlock
  simp only [hs, if_pos hl, hb, Nat.lt_irrefl, if_false]

theorem judgeBlock_clear_high (hs : d.state = .clear) (hb : d.blank = 0) (hl : ¬d.isLow level = true) :
    judgeBlock t take b stamp label level d spans = ({ d with ref := refAfter d.ref level }, spans) := by
  unfold judgeBlock
  simp only [hs, if_neg hl, hb, Nat.lt_irrefl, if_false]

theorem judgeBlock_onset_low {ps : PendingStart} (hs : d.state = .onset) (hp : d.pendingStart = some ps) (hl : d.isLow level = true) :
    judgeBlock t take b stamp label level d spans
      = if d.settings.onset ≤ d.run + 1 then confirmDropout t take { ps with least := min ps.least level } (d.run + 1) d spans
        else ({ d with run := d.run + 1, pendingStart := some { ps with least := min ps.least level } }, spans) := by
  unfold judgeBlock
  simp only [hs, hp, if_pos hl]

theorem judgeBlock_onset_high {ps : PendingStart} (hs : d.state = .onset) (hp : d.pendingStart = some ps) (hl : ¬d.isLow level = true) :
    judgeBlock t take b stamp label level d spans = ({ d with state := .clear, run := 0, pendingStart := none }, spans) := by
  unfold judgeBlock
  simp only [hs, hp, if_neg hl]

theorem judgeBlock_dropped_release (hs : d.state = .dropped) (hl : d.isRelease level = true) :
    judgeBlock t take b stamp label level d spans
      = if d.settings.releaseCount ≤ 1 then endDropout b 1 d spans else ({ d with state := .releasing, run := 1 }, spans) := by
  unfold judgeBlock
  simp only [hs, if_pos hl]

theorem judgeBlock_dropped_joins {o : OpenDropout} (hs : d.state = .dropped) (ho : d.openDropout = some o)
    (hl : ¬d.isRelease level = true) :
    judgeBlock t take b stamp label level d spans = ({ d with openDropout := some (o.join 1 level) }, spans) := by
  unfold judgeBlock
  simp only [hs, if_neg hl, ho, Option.map_some]

theorem judgeBlock_releasing_release (hs : d.state = .releasing) (hl : d.isRelease level = true) :
    judgeBlock t take b stamp label level d spans
      = if d.settings.releaseCount ≤ d.run + 1 then endDropout b (d.run + 1) d spans else ({ d with run := d.run + 1 }, spans) := by
  unfold judgeBlock
  simp only [hs, if_pos hl]

theorem judgeBlock_releasing_joins {o : OpenDropout} (hs : d.state = .releasing) (ho : d.openDropout = some o)
    (hl : ¬d.isRelease level = true) : judgeBlock t take b stamp label level d spans
      = ({ d with state := .dropped, run := 0, openDropout := some (o.join (d.run + 1) level) }, spans) := by
  unfold judgeBlock
  simp only [hs, if_neg hl, ho, Option.map_some]

end Table

/-! ## A completed block in one track (08, R134, R136, R137) -/

/-- Under policy OFF a block's level is formed and not judged. -/
theorem Part.trackBlock_off (rings : Rings) (b : Nat) {tr : Track} {p : Part} (hrunning : (p.det.get tr).running = true)
    (hoff : (p.det.get tr).settings.policy = .off) :
    (p.trackBlock rings b tr).det.get tr = { p.det.get tr with level := rings.blockLevel tr b }
      ∧ (p.trackBlock rings b tr).con.get tr = p.con.get tr := by
  unfold Part.trackBlock
  dsimp only
  rw [if_pos hrunning, if_pos hoff]
  simp

/-- Under another policy the detector judges the block, and a blanking count is lowered by 1. -/
theorem Part.trackBlock_judged (rings : Rings) (b : Nat) {tr : Track} {p : Part} (hrunning : (p.det.get tr).running = true)
    (hon : (p.det.get tr).settings.policy ≠ .off) {x : Detector} {spans : List Span}
    (hj : judgeBlock tr p.take.number b (rings.stamp b) p.itemLabel (rings.blockLevel tr b)
      { p.det.get tr with level := rings.blockLevel tr b } (p.con.get tr).spans = (x, spans)) :
    (p.trackBlock rings b tr).det.get tr = { x with blank := x.blank - 1 }
      ∧ (p.trackBlock rings b tr).con.get tr = { p.con.get tr with spans := spans } := by
  unfold Part.trackBlock
  dsimp only
  rw [if_pos hrunning, if_neg hon, hj]
  simp

theorem Part.itemLabel_eq (p : Part) : p.itemLabel = (p.sgt.current.map Entry.label).getD 0 := by
  unfold Part.itemLabel
  cases p.sgt.current <;> rfl

/-- A frame that completes a block, seen from one track: the block is judged on the detector as the event's lock has left it, blanked
where the lane's tracker has just entered LOCKED (08, R136; log 7). -/
theorem Part.completed_track (u : Setup) (rings : Rings) (f : PerTrack Int) {b : Nat} (tr : Track) {p t : Part}
    (hindex : p.hcr.nextIndex = 64 * b + 63) (ht : t = (p.counted u).arrived u rings (64 * b + 63) f)
    (hspan : (p.rft.get tr.lane).settings.source.isMeasured = true → 0 < (p.rft.get tr.lane).span u) :
    ∃ q : Part, q.con = p.con ∧ q.take = p.take ∧ q.sgt = p.sgt
      ∧ t.det.get tr = (q.trackBlock rings b tr).det.get tr ∧ t.con.get tr = (q.trackBlock rings b tr).con.get tr
      ∧ (q.det.get tr = p.det.get tr ∧ ((t.rft.get tr.lane).lock = .locked → (p.rft.get tr.lane).lock = .locked)
        ∨ q.det.get tr = (p.det.get tr).startBlanking (p.det.get tr).settings.blanking
          ∧ (p.rft.get tr.lane).lock ≠ .locked ∧ (t.rft.get tr.lane).lock = .locked) := by
  rw [Part.counted_inside u p (by omega), hindex] at ht
  obtain ⟨p', q, hlane, hrft, hdet, hcon, htake, hsgt, hd, hc⟩ := Part.arrived_block u rings (64 * b + 63) f tr
    { p with hcr := { p.hcr with nextIndex := 64 * b + 63 + 1 } } (by omega)
  rw [show (64 * b + 63) / 64 = b by omega, ← ht] at hd hc
  rw [← ht] at hrft
  have rft : p'.rft.get tr.lane = p.rft.get tr.lane := hlane.rft
  have det : p'.det.get tr = p.det.get tr := hlane.det tr rfl
  refine ⟨q, hcon, htake, hsgt, hd, hc, ?_⟩
  rw [hdet, hrft]
  rcases p'.trackerFrame_cases u (64 * b + 63) f tr.lane (by rw [hlane.hcr]) (by rw [rft]; exact hspan) with quiet | locks
  · rw [quiet.det, det, ← rft]
    exact .inl ⟨rfl, quiet.lock⟩
  · obtain ⟨hbefore, hafter, -, -, hblanked⟩ := locks
    rw [hblanked tr rfl, det, ← rft]
    exact .inr ⟨rfl, hbefore, hafter⟩

theorem Detector.startBlanking_running (d : Detector) (v : Nat) : (d.startBlanking v).running = d.running := by
  unfold Detector.startBlanking
  split <;> rfl

/-- t is what the frame that completes block b makes of p for track tr, by a block of the level given: d is the detector that the block
is judged on. -/
structure Part.Completes (rings : Rings) (b level : Nat) (tr : Track) (p t : Part) (d : Detector) : Prop where
  unlocked : ((t.rft.get tr.lane).lock = .locked → (p.rft.get tr.lane).lock = .locked) → d = p.det.get tr
  locks : (p.rft.get tr.lane).lock ≠ .locked → (t.rft.get tr.lane).lock = .locked →
    d = (p.det.get tr).startBlanking (p.det.get tr).settings.blanking
  off : d.settings.policy = .off → t.det.get tr = { d with level := level } ∧ t.con.get tr = p.con.get tr
  judged : d.settings.policy ≠ .off → ∀ (d' : Detector) (spans : List Span),
    judgeBlock tr p.take.number b (rings.stamp b) ((p.sgt.current.map Entry.label).getD 0) level { d with level := level }
      (p.con.get tr).spans = ({ d' with level := level }, spans) → d'.blank = d.blank →
    t.det.get tr = { d' with level := level, blank := d.blank - 1 } ∧ t.con.get tr = { p.con.get tr with spans := spans }

/-- What FRAME_SLOT answers for a frame that completes a block, in one track. -/
theorem exec_completes {bytes : List Byte} {f : PerTrack Int} {b : Nat} {tr : Track} {s : State} (hbrings : bringsFrame bytes f s)
    (hnever : framesNeverStop s.setup) (hindex : s.part.hcr.nextIndex = 64 * b + 63) (hrunning : (s.part.det.get tr).running = true)
    (hspan : (s.part.rft.get tr.lane).settings.source.isMeasured = true → 0 < (s.part.rft.get tr.lane).span s.setup) :
    ∃ t d, exec (.frameSlot bytes) s = .next { s with rings := s.ringsAfter f, part := t }
      ∧ s.part.Completes s.rings b ((s.ringsAfter f).blockLevel tr b) tr t d := by
  obtain ⟨c, -, -, hexec⟩ := exec_brings hbrings hnever
  obtain ⟨p, hp⟩ : ∃ p : Part, p = { s.part with hcr := s.part.hcr.taken s.part.hcr.expected f, cmn := c } := ⟨_, rfl⟩
  obtain ⟨t, ht⟩ : ∃ t, t = (p.counted s.setup).arrived s.setup (s.ringsAfter f) (64 * b + 63) f := ⟨_, rfl⟩
  have answer : exec (.frameSlot bytes) s = .next { s with rings := s.ringsAfter f, part := t } := by
    rw [hexec p hp, ht, hindex]
  have same : p.rft = s.part.rft ∧ p.det = s.part.det ∧ p.con = s.part.con ∧ p.take = s.part.take ∧ p.sgt = s.part.sgt := by
    rw [hp]
    exact ⟨rfl, rfl, rfl, rfl, rfl⟩
  obtain ⟨rft, det, con, take, sgt⟩ := same
  have stamp : (s.ringsAfter f).stamp b = s.rings.stamp b := s.ringsAfter_stamps f b fun h => absurd h (by omega)
  obtain ⟨q, hcon, htake, hsgt, hdet, hspans, hlock⟩ := Part.completed_track s.setup (s.ringsAfter f) f tr (by rw [hp]; exact hindex) ht
    (by rw [rft]; exact hspan)
  rw [rft, det] at hlock
  have running : (q.det.get tr).running = true := by
    rcases hlock with ⟨e, -⟩ | ⟨e, -⟩ <;> rw [e]
    · exact hrunning
    · exact (Detector.startBlanking_running _ _).trans hrunning
  refine ⟨t, q.det.get tr, answer, fun h => ?unlocked, fun hb ha => ?locks, fun hoff => ?off, fun hon d' spans hj hblank => ?judged⟩
  case unlocked =>
    rcases hlock with ⟨e, -⟩ | ⟨-, hb, ha⟩
    · exact e
    · exact absurd (h ha) hb
  case locks =>
    rcases hlock with ⟨-, hkept⟩ | ⟨e, -⟩
    · exact absurd (hkept ha) hb
    · exact e
  case off =>
    obtain ⟨hlevel, hkept⟩ := Part.trackBlock_off (s.ringsAfter f) b running hoff
    rw [hcon, con] at hkept
    exact ⟨hdet.trans hlevel, hspans.trans hkept⟩
  case judged =>
    obtain ⟨hafter, hlist⟩ := Part.trackBlock_judged (s.ringsAfter f) b running hon (x := { d' with level := _ }) (spans := spans)
      (by rw [q.itemLabel_eq, htake, take, hsgt, sgt, hcon, con, stamp]; exact hj)
    rw [hcon, con] at hlist
    rw [← hblank]
    exact ⟨hdet.trans hafter, hspans.trans hlist⟩

/-- Settles O39: the block is judged on the detector as the event's lock has left it (`exec_completes`), by R139's table
(`judgeBlock_clear_low` and its companions); STOP of a take tears the detector down (`Part.endOperation_stopped_take`). -/
theorem detectorJudges : Obligations.DetectorJudges := by
  refine ⟨fun bytes f b tr s hbrings hnever hindex hrunning hspan => ?judges, fun tag tr s hr _ hd hk he => ?stops⟩
  case judges =>
    obtain ⟨t, d, answer, done⟩ := exec_completes hbrings hnever hindex hrunning hspan
    obtain ⟨hmax, hmet⟩ := (s.ringsAfter f).blockLevel_spec tr b
    obtain ⟨level, hlevel⟩ : ∃ level, level = (s.ringsAfter f).blockLevel tr b := ⟨_, rfl⟩
    rw [← hlevel] at done hmax hmet
    refine ⟨_, level, d, answer, hmax, hmet, fun h => done.unlocked fun ha => by_contra fun hb => h ⟨hb, ha⟩,
      fun hb ha blank hblank => ?locks, done.off, fun hon => ?table⟩
    case locks =>
      rw [done.locks hb ha, hblank]
      exact ⟨fun hpos honset => Detector.startBlanking_run ⟨hpos, honset⟩, fun h => Detector.startBlanking_still h⟩
    case table =>
      rintro low release spans after confirmed ended hlow hrelease rfl hafter hconfirmed hended
      obtain ⟨verdict, hv⟩ : ∃ verdict, verdict = judgeBlock tr s.part.take.number b (s.rings.stamp b)
        ((s.part.sgt.current.map Entry.label).getD 0) level { d with level := level } (s.part.con.get tr).spans := ⟨_, rfl⟩
      have judged {d' : Detector} {spans : List Span} (h : verdict = ({ d' with level := level }, spans)) (hb : d'.blank = d.blank) :
          after d' spans := (hafter d' spans).mpr (done.judged hon d' spans (hv.symm.trans h) hb)
      have confirms {ps : PendingStart} {n : Nat} (h : verdict = confirmDropout tr s.part.take.number ps n { d with level := level }
          (s.part.con.get tr).spans) : confirmed ps n := (hconfirmed ps n).mpr (judged h rfl)
      have ends {o : OpenDropout} {n : Nat} (ho : d.openDropout = some o)
          (h : verdict = endDropout b n { d with level := level } (s.part.con.get tr).spans) : ended o n := by
        rw [endDropout_open b n (d := { d with level := level }) _ ho, closeSpans_eq] at h
        exact (hended o n).mpr (judged h rfl)
      have isLow : low ↔ ({ d with level := level } : Detector).isLow level = true := hlow.trans decide_eq_true_iff.symm
      have isRelease : release ↔ ({ d with level := level } : Detector).isRelease level = true := hrelease.trans decide_eq_true_iff.symm
      rw [isLow, isRelease]
      refine ⟨fun hs => ?clear, fun ps hs hp => ?onset, fun o hs ho => ?dropped, fun o hs ho => ?releasing⟩
      case clear =>
        have lowBlock (hl) (hb : d.blank = 0) := hv.trans (judgeBlock_clear_low (d := { d with level := level }) hs hb hl)
        have highBlock (hl) (hb : d.blank = 0) := hv.trans (judgeBlock_clear_high (d := { d with level := level }) hs hb hl)
        refine ⟨fun _ hb => judged (hv.trans (judgeBlock_clear_blanked hs hb)) rfl, fun hl hb ps hps => ?_,
          fun _ hb => judged (hv.trans (judgeBlock_clear_blanked hs hb)) rfl, fun hl hb h => ?_, fun hl hb h => ?_⟩
        · subst hps
          exact ⟨fun h => confirms ((lowBlock hl hb).trans (if_pos h)),
            fun h => judged ((lowBlock hl hb).trans (if_neg (Nat.not_le_of_lt h))) rfl⟩
        · refine judged ((highBlock hl hb).trans ?_) rfl
          simp only [h, refAfter_seeds]
        · refine judged ((highBlock hl hb).trans ?_) rfl
          simp only [refAfter_moves _ h]
      case onset =>
        have lowBlock (hl) := hv.trans (judgeBlock_onset_low (d := { d with level := level }) hs hp hl)
        exact ⟨fun hl h => confirms ((lowBlock hl).trans (if_pos h)),
          fun hl h => judged ((lowBlock hl).trans (if_neg (Nat.not_le_of_lt h))) rfl,
          fun hl => judged (hv.trans (judgeBlock_onset_high hs hp hl)) rfl⟩
      case dropped =>
        have releaseBlock (hl) := hv.trans (judgeBlock_dropped_release (d := { d with level := level }) hs hl)
        exact ⟨fun hl h => ends ho ((releaseBlock hl).trans (if_pos h)),
          fun hl h => judged ((releaseBlock hl).trans (if_neg (Nat.not_le_of_lt h))) rfl,
          fun hl => judged (hv.trans (judgeBlock_dropped_joins hs ho hl)) rfl⟩
      case releasing =>
        have releaseBlock (hl) := hv.trans (judgeBlock_releasing_release (d := { d with level := level }) hs hl)
        exact ⟨fun hl h => ends ho ((releaseBlock hl).trans (if_pos h)),
          fun hl h => judged ((releaseBlock hl).trans (if_neg (Nat.not_le_of_lt h))) rfl,
          fun hl => judged (hv.trans (judgeBlock_releasing_joins hs ho hl)) rfl⟩
  case stops =>
    have ending : stopEnding s.part = .cause .stopCommand := if_pos hk
    obtain ⟨-, -, htorn⟩ := Part.endOperation_stopped_take s.setup .stopCommand s.part s.part hk he
      ⟨rfl, rfl, rfl, rfl, rfl, rfl, rfl, rfl⟩ fun _ => rfl
    obtain ⟨-, -, -, -, -, -, -, -, -, tracks⟩ := htorn tr.lane
    refine ⟨_, exec_stop tag hr hd, ?_⟩
    rw [ending]
    exact tracks tr rfl

end Sys2Proof.Machine
end

section
/-! What the events of the trackers and the aligner halves leave alone (O46). -/

namespace Sys2Proof.Machine

open Sys2Proof.Safety

/-! ## What neither the arrival side's work nor the end of an operation touches -/

/-- The position, the scheduler, the timebase, the replies and the assembler, the take number and the link stand as they were. -/
structure Part.KeepsRest (p q : Part) : Prop where
  pos : q.pos = p.pos
  osc : q.osc = p.osc
  timebase : q.timebase = p.timebase
  replies : q.msp.replies = p.msp.replies
  assembler : q.msp.assembler = p.msp.assembler
  number : q.take.number = p.take.number
  link : q.hcr.link = p.hcr.link
  expected : q.hcr.expected = p.hcr.expected
  run : q.hcr.run = p.hcr.run
  lastGood : q.hcr.lastGood = p.hcr.lastGood
  nextIndex : q.hcr.nextIndex = p.hcr.nextIndex

theorem Part.KeepsRest.trans {p q r : Part} (h : p.KeepsRest q) (k : q.KeepsRest r) : p.KeepsRest r :=
  ⟨k.pos.trans h.pos, k.osc.trans h.osc, k.timebase.trans h.timebase, k.replies.trans h.replies, k.assembler.trans h.assembler,
   k.number.trans h.number, k.link.trans h.link, k.expected.trans h.expected, k.run.trans h.run, k.lastGood.trans h.lastGood,
   k.nextIndex.trans h.nextIndex⟩

theorem Part.Works.keepsRest {p q : Part} (h : p.Works q) : p.KeepsRest q :=
  ⟨h.pos, h.osc, h.timebase, h.replies, h.assembler, h.number, h.link, h.expected, h.run, h.lastGood, h.nextIndex⟩

theorem Part.endOperation_clock (u : Setup) (e : Ending) (p : Part) :
    (p.endOperation u e).timebase = p.timebase ∧ (p.endOperation u e).take.number = p.take.number := by
  by_cases h : p.trc.op.kind = .none ∨ p.trc.op.ending ≠ none
  · rw [p.endOperation_none u e h]
    exact ⟨rfl, rfl⟩
  · rw [not_or, not_not] at h
    obtain ⟨-, -, -, -, -, -, timebase, number⟩ := p.endOperation_spec u e h.1 h.2
    exact ⟨timebase, number⟩

theorem Part.takeStop_clock (u : Setup) (p : Part) :
    (p.takeStop u).timebase = p.timebase ∧ (p.takeStop u).take.number = p.take.number :=
  Part.takeStop_induction (Q := fun x => x.timebase = p.timebase ∧ x.take.number = p.take.number) u (fun _ _ h => h)
    (fun e x h => ⟨(x.endOperation_clock u e).1.trans h.1, (x.endOperation_clock u e).2.trans h.2⟩) ⟨rfl, rfl⟩

theorem Part.keepsRest_takeStop (u : Setup) (p : Part) : p.KeepsRest (p.takeStop u) :=
  have moves := p.moves_takeStop u
  have clock := p.takeStop_clock u
  ⟨p.takeStop_pos u, moves.osc, clock.1, moves.replies, moves.assembler, clock.2, moves.link, moves.expected, moves.run,
   moves.lastGood, p.takeStop_nextIndex u⟩

/-! ## The six rows -/

/-- What a row of a lane's tracker or aligner half answers: the part at work, with the stop request of its event taken where the row
can make one. -/
theorem exec_arrival_cases {l : Lane} {i : Instr} {s t : State} (hi : i ∈ [Instr.measurementComplete l, .miss l,
    .tachMeasurementComplete l, .holdTimerExpiry l, .rampMove l, .azimuthWindowComplete l]) (h : exec i s = .next t) :
    ∃ q, s.part.Works q ∧ (t = { s with part := q } ∨ t = { s with part := q.takeStop s.setup }) := by
  simp only [List.mem_cons, List.not_mem_nil, or_false] at hi
  rcases hi with rfl | rfl | rfl | rfl | rfl | rfl <;> cases h
  case inl => exact ⟨_, s.part.works_measurementComplete s.setup l, .inr rfl⟩
  case inr.inl => exact ⟨_, s.part.works_missIfDue s.setup l, .inr rfl⟩
  case inr.inr.inl => exact ⟨_, s.part.works_tachComplete l, .inl rfl⟩
  case inr.inr.inr.inl => exact ⟨_, s.part.works_holdIfDue s.setup l, .inr rfl⟩
  case inr.inr.inr.inr.inl => exact ⟨_, s.part.works_rampIfDue s.setup l, .inl rfl⟩
  case inr.inr.inr.inr.inr => exact ⟨_, s.part.works_azimuthComplete s.setup l, .inl rfl⟩

/-- Settles O46: each row is work of the arrival side and at most the end of an operation, and neither touches the rest. -/
theorem arrivalFrame : Obligations.ArrivalFrame := by
  intro l i s t hi h
  obtain ⟨q, works, ht⟩ := exec_arrival_cases hi h
  have kept : s.part.KeepsRest t.part := by
    rcases ht with rfl | rfl
    · exact works.keepsRest
    · exact works.keepsRest.trans (q.keepsRest_takeStop s.setup)
  have around : t.setup = s.setup ∧ t.rings = s.rings ∧ t.bank = s.bank ∧ t.pending = s.pending := by
    rcases ht with rfl | rfl <;> exact ⟨rfl, rfl, rfl, rfl⟩
  obtain ⟨setup, rings, bank, pending⟩ := around
  exact ⟨setup, rings, bank, pending, kept.pos, kept.osc, kept.timebase, kept.replies, kept.assembler, kept.number, kept.link,
    kept.expected, kept.run, kept.lastGood, kept.nextIndex⟩

end Sys2Proof.Machine
end

section
/-! SUPPORT and PROOFS. Changes of lock state and entries to FALLBACK, said once; the hold timer, the ramp timer and the ramp's target (O44). -/

namespace Sys2Proof.Machine

open Sys2Proof.Safety

/-! ## Reports of a state condition (10, R177 to R181) -/

@[simp] theorem PerCond.set_get {α : Type} (x : PerCond α) (id : CondId) : x.set id (x.get id) = x := by
  rcases id with _ | _ | _ | _ | _ | _ | _ | l | l | l <;> first | rfl | (cases l <;> rfl)

/-- A report touches the condition's own record, CONDITION_RAISED and, under a policy that stops, the stop request. -/
theorem Part.report_spec (u : Setup) (id : CondId) (present : Bool) (p : Part) : ∃ c b m,
    p.report u id present = { p with cmn := c, stopPending := b, msp := { p.msp with notices := m } }
      ∧ (c.get id).present = present ∧ (∀ jd, jd ≠ id → c.get jd = p.cmn.get jd)
      ∧ (neverStops (u.policies.get id) → b = p.stopPending)
      ∧ ∀ k, k ≠ .conditionRaised → queued k m = queued k p.msp.notices := by
  cases present with
  | true =>
    obtain ⟨c, b, m, e, hpresent, -, -, hother, hstop⟩ := Part.reportPresent_spec u id p
    refine ⟨c, b, m, e, hpresent, hother, hstop, fun k hk => ?_⟩
    have queue := Part.reportPresent_queue u id p k hk
    rw [e] at queue
    exact queue
  | false =>
    obtain ⟨c, e, habsent, -, -, hother⟩ := Part.reportAbsent_spec u id p
    exact ⟨c, p.stopPending, p.msp.notices, e, habsent, hother, fun _ => rfl, fun _ _ => rfl⟩

/-- A report of absence, exactly: the flag goes with the presence it stood for, and only under AUTO. -/
theorem Part.reportAbsent_eq (u : Setup) (id : CondId) (p : Part) : p.reportAbsent u id = p.setStatus id { p.cmn.get id with
    present := false,
    flag := (p.cmn.get id).flag && !((p.cmn.get id).present && (u.policies.get id).policy == .auto) } := by
  unfold Part.reportAbsent
  dsimp only
  cases h : (p.cmn.get id).present with
  | true => rfl
  | false =>
    have same : ({ p.cmn.get id with present := false, flag := (p.cmn.get id).flag && !(false && (u.policies.get id).policy == .auto) }
        : CondStatus) = p.cmn.get id := by
      rw [Bool.false_and, Bool.not_false, Bool.and_true, ← h]
    rw [same]
    unfold Part.setStatus
    rw [PerCond.set_get]
    rfl

/-- A queue holds what it held of a kind. -/
theorem queued_mem {k : NoticeKind} {q r : List Notice} (h : queued k r = queued k q) {c : NoticeContent} (hk : c.kind = k)
    (hc : ∃ n ∈ q, n.content = c) : ∃ n ∈ r, n.content = c := by
  obtain ⟨n, hn, rfl⟩ := hc
  exact ⟨n, (mem_of_queued h n hk).mpr hn, rfl⟩

theorem postNotice_lockChanged (l : Lane) (old new : LockState) (index : Option Nat) (step : Nat) (q : List Notice) :
    ∃ n ∈ postNotice (.lockChanged l old new index step) q, n.content = .lockChanged l old new index step :=
  postNotice_mem _ q (by simp)

/-! ## Entries to a lock state (04, R72 to R76; 05, R88, R92) -/

theorem Part.changeLock_eq (u : Setup) {l : Lane} {new : LockState} (index : Option Nat) {p : Part} (h : (p.rft.get l).lock ≠ new) :
    p.changeLock u l new index = ((p.setTracker l { p.rft.get l with lock := new }).post
      (.lockChanged l (p.rft.get l).lock new index (p.rft.get l).step)).report u (.lockLost l) (new == .fallback) := if_neg h

/-- A ramp move: S and its STEP entry (05, R92). -/
theorem Part.moveRamp_eq (u : Setup) {l : Lane} (n : Nat) {p : Part} {t : Tracker} {step : Nat} (ht : p.rft.get l = t)
    (hstep : step = rampTo t.step t.settings.slew (t.target u n)) : p.moveRamp u l n = { p with
      rft := p.rft.set l { t with step := step }, lanes := p.lanes.set l ((p.lanes.get l).post u.rates ⟨n, .step step⟩) } := by
  unfold Part.moveRamp Part.postStep Part.postEntry
  simp [Part.setTracker, Part.setProducer, ht, hstep]

/-- FALLBACK entered: one ramp move with its STEP entry, the ramp timer, LOCK_CHANGED with S after the move, and LOCK_LOST. -/
theorem Part.enterFallback_spec (u : Setup) {l : Lane} (n : Nat) {p : Part} {t : Tracker} {step : Nat} (ht : p.rft.get l = t)
    (hlock : t.lock ≠ .fallback) (hnever : neverStops (u.policies.lockLost.get l))
    (hstep : step = rampTo t.step t.settings.slew (t.target u n)) : ∃ c m,
    p.enterFallback u l n = { p with
      rft := p.rft.set l { t with acquire := 0, hold := none, ramp := some (n + t.span u), step := step, lock := .fallback },
      lanes := p.lanes.set l ((p.lanes.get l).post u.rates ⟨n, .step step⟩), cmn := c, msp := { p.msp with notices := m } }
    ∧ (c.lockLost.get l).present = true ∧ ∃ notice ∈ m, notice.content = .lockChanged l t.lock .fallback (some n) step := by
  obtain ⟨q, hq⟩ : ∃ q : Part, q = { p with
    rft := p.rft.set l { t with acquire := 0, hold := none, ramp := some (n + t.span u), step := step },
    lanes := p.lanes.set l ((p.lanes.get l).post u.rates ⟨n, .step step⟩) } := ⟨_, rfl⟩
  have moved : p.enterFallback u l n = q.changeLock u l .fallback (some n) := by
    unfold Part.enterFallback
    dsimp only
    rw [ht, Part.moveRamp_eq u n (t := { t with acquire := 0, hold := none, ramp := some (n + t.span u) }) (by simp) hstep, hq]
    simp [Part.setTracker]
  have tracker : q.rft.get l = { t with acquire := 0, hold := none, ramp := some (n + t.span u), step := step } := by
    rw [hq, PerLane.get_set_same]
  obtain ⟨c, b, m, e, present, -, stop, queue⟩ := Part.report_spec u (.lockLost l) true
    ((q.setTracker l { q.rft.get l with lock := .fallback }).post (.lockChanged l (q.rft.get l).lock .fallback (some n) (q.rft.get l).step))
  refine ⟨c, m, ?_, present, queued_mem (queue (lockKind l) (lockKind_ne_condition l)) (NoticeContent.lockChanged_kind ..) ?_⟩
  · rw [moved, Part.changeLock_eq u _ (by rw [tracker]; exact hlock), beq_self_eq_true, e, stop hnever, tracker, hq]
    simp [Part.setTracker, Part.post]
  · rw [tracker]
    exact postNotice_lockChanged ..

/-! ## The timers (04, R74, R75) -/

/-- The hold timer reached. -/
theorem Part.holdIfDue_due (u : Setup) {l : Lane} {n start : Nat} {p : Part} (hlock : (p.rft.get l).lock = .hold)
    (hhold : (p.rft.get l).hold = some start) (hn : p.hcr.nextIndex = n + 1) (hdue : start + (p.rft.get l).holdSpan u ≤ n) :
    p.holdIfDue u l = p.enterFallback u l n := by
  unfold Part.holdIfDue
  simp [hlock, hhold, hn, hdue]

/-- The ramp timer reached: a move, and the timer advances by P_span. -/
theorem Part.rampIfDue_due (u : Setup) {l : Lane} {n due step : Nat} {p : Part} {t : Tracker} (ht : p.rft.get l = t)
    (hlock : t.lock = .fallback) (hramp : t.ramp = some due) (hn : p.hcr.nextIndex = n + 1) (hdue : due ≤ n)
    (hstep : step = rampTo t.step t.settings.slew (t.target u n)) : p.rampIfDue u l = { p with
      rft := p.rft.set l { t with ramp := some (due + t.span u), step := step },
      lanes := p.lanes.set l ((p.lanes.get l).post u.rates ⟨n, .step step⟩) } := by
  have moves : p.rampIfDue u l = (p.setTracker l { t with ramp := some (due + t.span u) }).moveRamp u l n := by
    unfold Part.rampIfDue
    simp [ht, hlock, hramp, hn, hdue]
  rw [moves, Part.moveRamp_eq u n (t := { t with ramp := some (due + t.span u) }) (by simp) hstep]
  simp [Part.setTracker]

/-! ## The target of a move (05, R90 to R92) -/

theorem rampTo_up {step target : Nat} (slew : Nat) (h : step ≤ target) : rampTo step slew target = min target (step + slew) := by
  unfold rampTo
  split
  · exact Nat.min_comm _ _
  · rw [if_neg (by omega)]
    omega

theorem rampTo_down {step target : Nat} (slew : Nat) (h : target ≤ step) : rampTo step slew target = max target (step - slew) := by
  unfold rampTo
  rw [if_neg (by omega)]
  split
  · exact Nat.max_comm _ _
  · omega

theorem clampNat_below {lo hi v : Nat} (h : v < lo) : clampNat lo hi v = lo := if_pos h

theorem clampNat_inside {lo hi v : Nat} (hlo : lo ≤ v) (hhi : v ≤ hi) : clampNat lo hi v = v := by
  unfold clampNat
  rw [if_neg (by omega), if_neg (by omega)]

theorem clampNat_above {lo hi v : Nat} (hle : lo ≤ hi) (h : hi < v) : clampNat lo hi v = hi := by
  unfold clampNat
  rw [if_neg (by omega), if_pos h]

theorem windowLo_le_windowHi (r : RatePair) (w : Nat) : windowLo r w ≤ windowHi r w :=
  (Nat.sub_le _ _).trans (Nat.le_add_right _ _)

/-- A tach measurement younger than Fr raw samples gives the target, clamped to the window (05, R90, R91). -/
theorem Tracker.target_young (u : Setup) {t : Tracker} {n : Nat} {last : TachLast} (hlast : t.tachLast = some last)
    (hyoung : n < last.index + u.rates.fr) : t.target u n
      = clampNat (windowLo u.rates t.settings.w) (windowHi u.rates t.settings.w) (stepOf u.rates.fo 16 u.deck.tickRate last.span) := by
  unfold Tracker.target
  simp only [hlast]
  exact if_pos hyoung

/-- Without one, the target is the nominal step. -/
theorem Tracker.target_nominal (u : Setup) {t : Tracker} {n : Nat}
    (h : ∀ last, t.tachLast = some last → last.index + u.rates.fr ≤ n) : t.target u n = u.rates.nominal := by
  unfold Tracker.target
  cases hlast : t.tachLast with
  | none => rfl
  | some last => exact if_neg (Nat.not_lt_of_le (h last hlast))

/-! ## P_span (04, R64, R68) -/

theorem Tracker.span_tach (u : Setup) {t : Tracker} (h : t.settings.source = .tach) :
    t.span u = 16 * u.rates.fr * 16 / u.deck.tickRate := by
  unfold Tracker.span Tracker.crossings Tracker.reference
  rw [if_pos h, if_pos h]
  rfl

theorem Tracker.span_other (u : Setup) {t : Tracker} (h : t.settings.source ≠ .tach) :
    t.span u = t.settings.c * u.rates.fr * 16 / t.settings.fRef := by
  unfold Tracker.span Tracker.crossings Tracker.reference
  rw [if_neg h, if_neg h]
  rfl

theorem Tracker.timeoutSpan_closed (u : Setup) {t : Tracker} (h : t.meas = none) : t.timeoutSpan u = t.span u := by
  unfold Tracker.timeoutSpan
  rw [h]

theorem Tracker.timeoutSpan_open (u : Setup) {t : Tracker} {m : Measurement} (h : t.meas = some m) :
    t.timeoutSpan u = m.c * u.rates.fr * 16 / m.fRef := by
  unfold Tracker.timeoutSpan
  rw [h]
  rfl

/-- What HOLD_TIMER_EXPIRY answers where it makes no stop request. -/
theorem exec_holdTimerExpiry {l : Lane} {s : State} {q : Part} (hq : s.part.holdIfDue s.setup l = q) (hstop : q.stopPending = false) :
    exec (.holdTimerExpiry l) s = .next { s with part := q } := by
  show Host.Outcome.next { s with part := (s.part.holdIfDue s.setup l).takeStop s.setup } = _
  rw [hq, Part.takeStop_none _ hstop]

/-- Settles O44: an expired hold timer enters FALLBACK (`Part.enterFallback_spec`), the ramp timer brings a move
(`Part.moveRamp_eq`), and target, move and P_span are their formulas. -/
theorem fallbackRamp : Obligations.FallbackRamp := by
  refine ⟨fun l s start n hlock hhold hn hdue hstop hnever step hstep => ?expiry,
    fun l s due n target step hlock hramp hn hdue htarget hup hdown => ?move, fun u T n => ⟨?young, T.target_nominal u⟩,
    fun step slew target => ⟨rampTo_up slew, rampTo_down slew⟩,
    fun u T => ⟨T.span_tach u, T.span_other u, T.timeoutSpan_closed u, fun m => T.timeoutSpan_open u⟩⟩
  case expiry =>
    obtain ⟨c, m, e, present, -⟩ := Part.enterFallback_spec s.setup n rfl (by rw [hlock]; nofun) hnever hstep
    exact ⟨_, exec_holdTimerExpiry ((Part.holdIfDue_due s.setup hlock hhold hn hdue).trans e) hstop, rfl, rfl, rfl, rfl, rfl, rfl, present⟩
  case move =>
    have moved : step = rampTo (s.part.rft.get l).step (s.part.rft.get l).settings.slew target := by
      rcases Nat.le_total (s.part.rft.get l).step target with h | h
      · rw [hup h, rampTo_up _ h]
      · rw [hdown h, rampTo_down _ h]
    rw [htarget] at moved
    exact congrArg (fun q => Host.Outcome.next { s with part := q }) (Part.rampIfDue_due s.setup rfl hlock hramp hn hdue moved)
  case young =>
    rintro last v lo hi hlast hyoung rfl rfl rfl
    rw [T.target_young u hlast hyoung]
    exact ⟨clampNat_below, clampNat_inside, clampNat_above (windowLo_le_windowHi ..)⟩

end Sys2Proof.Machine
end

section
/-! SUPPORT and PROOFS. A completed measurement, said once for a survey, inside the window and outside it, and a MISS of either kind (O43). -/

namespace Sys2Proof.Machine

open Sys2Proof.Safety

/-! ## When a tracker measures (04, R71, R81) -/

theorem Part.measuring_take {l : Lane} {p : Part} (hc : p.hcr.capturing = true) (hm : (p.rft.get l).mode = .take)
    (hs : (p.rft.get l).settings.source.isMeasured = true) : p.measuring l = true := by
  unfold Part.measuring
  rw [hc, hm]
  exact hs

theorem Part.measuring_survey {l : Lane} {p : Part} (hc : p.hcr.capturing = true) (hm : (p.rft.get l).mode = .survey) :
    p.measuring l = true := by
  unfold Part.measuring
  rw [hc, hm]
  rfl

@[simp] theorem Part.setTracker_get (p : Part) (l : Lane) (t : Tracker) : (p.setTracker l t).rft.get l = t := PerLane.get_set_same ..

@[simp] theorem Part.setTracker_twice (p : Part) (l : Lane) (t x : Tracker) : (p.setTracker l t).setTracker l x = p.setTracker l x := by
  simp [Part.setTracker]

/-! ## A completed measurement (04, R67, R70, R82) -/

section Completed

variable {u : Setup} {l : Lane} {p : Part} {m : Measurement} {new : Nat} {next : Tracker}

theorem Part.measurementComplete_surveyed (hm : (p.rft.get l).meas = some m) (hfull : m.c ≤ m.counted) (hc : p.hcr.capturing = true)
    (hmode : (p.rft.get l).mode = .survey) (hnew : new = stepOf u.rates.fo m.c m.fRef (m.lastStamp - m.t0))
    (hnext : next = { p.rft.get l with meas := some ((p.rft.get l).opening u m.lastStamp m.lastIndex), origin := m.lastIndex }) :
    p.measurementComplete u l = p.setTracker l { next with
      survey := (p.rft.get l).survey.measured (decide (m.lo ≤ new ∧ new ≤ m.hi)) (m.lastStamp - m.t0) } := by
  unfold Part.measurementComplete
  simp [hm, hfull, Part.measuring_survey hc hmode, hmode, hnew, hnext, Bool.decide_and]

theorem Part.measurementComplete_inside (hm : (p.rft.get l).meas = some m) (hfull : m.c ≤ m.counted) (hc : p.hcr.capturing = true)
    (hmode : (p.rft.get l).mode = .take) (hs : (p.rft.get l).settings.source.isMeasured = true)
    (hnew : new = stepOf u.rates.fo m.c m.fRef (m.lastStamp - m.t0))
    (hnext : next = { p.rft.get l with meas := some ((p.rft.get l).opening u m.lastStamp m.lastIndex), origin := m.lastIndex })
    (hlo : m.lo ≤ new) (hhi : new ≤ m.hi) :
    p.measurementComplete u l = (p.setTracker l next).inWindow u l m new ((m.t0 + m.lastStamp) / 512) := by
  subst hnew
  unfold Part.measurementComplete
  simp [hm, hfull, Part.measuring_take hc hmode hs, hmode, hnext, hlo, hhi]

theorem Part.measurementComplete_outside (hm : (p.rft.get l).meas = some m) (hfull : m.c ≤ m.counted) (hc : p.hcr.capturing = true)
    (hmode : (p.rft.get l).mode = .take) (hs : (p.rft.get l).settings.source.isMeasured = true)
    (hnew : new = stepOf u.rates.fo m.c m.fRef (m.lastStamp - m.t0))
    (hnext : next = { p.rft.get l with meas := some ((p.rft.get l).opening u m.lastStamp m.lastIndex), origin := m.lastIndex })
    (hout : new < m.lo ∨ m.hi < new) :
    p.measurementComplete u l = (p.setTracker l next).missed u l m.lastIndex := by
  have judged : ¬(m.lo ≤ new ∧ new ≤ m.hi) := by omega
  subst hnew
  unfold Part.measurementComplete
  simp [hm, hfull, Part.measuring_take hc hmode hs, hmode, hnext, judged]

end Completed

/-! ## A timeout (04, R68) -/

section Timeout

variable {u : Setup} {l : Lane} {p : Part} {n : Nat}

theorem Part.missIfDue_survey (hc : p.hcr.capturing = true) (hmode : (p.rft.get l).mode = .survey) (hn : p.hcr.nextIndex = n + 1)
    (hdue : (p.rft.get l).origin + 2 * (p.rft.get l).timeoutSpan u ≤ n) : p.missIfDue u l = p.setTracker l { p.rft.get l with
      meas := none, origin := n, survey := { (p.rft.get l).survey with total := (p.rft.get l).survey.total + 1 } } := by
  unfold Part.missIfDue
  simp [Part.measuring_survey hc hmode, hmode, hn, hdue]

theorem Part.missIfDue_take (hc : p.hcr.capturing = true) (hmode : (p.rft.get l).mode = .take)
    (hs : (p.rft.get l).settings.source.isMeasured = true) (hn : p.hcr.nextIndex = n + 1)
    (hdue : (p.rft.get l).origin + 2 * (p.rft.get l).timeoutSpan u ≤ n) :
    p.missIfDue u l = (p.setTracker l { p.rft.get l with meas := none, origin := n }).missed u l n := by
  unfold Part.missIfDue
  simp [Part.measuring_take hc hmode hs, hmode, hn, hdue]

end Timeout

/-! ## A miss of either kind (04, R73 to R75) -/

section Missed

variable (u : Setup) {l : Lane} (n : Nat) (p : Part) {t : Tracker} {missed : Nat}

theorem Part.missed_counts (hmissed : missed = min 15 (t.missCount + 1)) (h : t.lock ≠ .locked ∨ missed < t.settings.missCount) :
    (p.setTracker l t).missed u l n = p.setTracker l { t with acquire := 0, missCount := missed } := by
  unfold Part.missed
  simp only [Part.setTracker_get, Part.setTracker_twice, ← hmissed]
  rw [if_neg]
  rintro ⟨hlock, hmet⟩
  rcases h with h | h
  · exact h hlock
  · omega

/-- The miss count met with a hold time: HOLD, its timer, LOCK_CHANGED and LOCK_LOST absent. -/
theorem Part.missed_holds (hmissed : missed = min 15 (t.missCount + 1)) (hlock : t.lock = .locked) (hmet : t.settings.missCount ≤ missed)
    (hhold : t.settings.hold ≠ 0) : (p.setTracker l t).missed u l n = { p with
      rft := p.rft.set l { t with acquire := 0, missCount := missed, lock := .hold, hold := some n },
      cmn := { p.cmn with lockLost := p.cmn.lockLost.set l { p.cmn.lockLost.get l with
        present := false,
        flag := (p.cmn.lockLost.get l).flag && !((p.cmn.lockLost.get l).present && (u.policies.lockLost.get l).policy == .auto) } },
      msp := { p.msp with notices := postNotice (.lockChanged l .locked .hold (some n) t.step) p.msp.notices } } := by
  have holds : (p.setTracker l t).missed u l n
      = (p.setTracker l { t with acquire := 0, missCount := missed, hold := some n }).changeLock u l .hold (some n) := by
    unfold Part.missed
    simp only [Part.setTracker_get, Part.setTracker_twice, ← hmissed]
    rw [if_pos ⟨hlock, hmet⟩, if_neg hhold]
  have differs : ((p.setTracker l { t with acquire := 0, missCount := missed, hold := some n }).rft.get l).lock ≠ .hold := by
    simp [hlock]
  rw [holds, Part.changeLock_eq u _ differs]
  show Part.reportAbsent u _ _ = _
  rw [Part.reportAbsent_eq]
  simp only [Part.setTracker_get, Part.setTracker_twice, hlock]
  rfl

/-- The miss count met with hold time 0: FALLBACK at once. -/
theorem Part.missed_fallsBack {step : Nat} (hmissed : missed = min 15 (t.missCount + 1)) (hlock : t.lock = .locked)
    (hmet : t.settings.missCount ≤ missed) (hhold : t.settings.hold = 0) (hnever : neverStops (u.policies.lockLost.get l))
    (hstep : step = rampTo t.step t.settings.slew (t.target u n)) : ∃ c q, (p.setTracker l t).missed u l n = { p with
      rft := p.rft.set l { t with
        acquire := 0, missCount := missed, lock := .fallback, hold := none, ramp := some (n + t.span u), step := step },
      lanes := p.lanes.set l ((p.lanes.get l).post u.rates ⟨n, .step step⟩), cmn := c, msp := { p.msp with notices := q } }
    ∧ (c.lockLost.get l).present = true ∧ ∃ notice ∈ q, notice.content = .lockChanged l .locked .fallback (some n) step := by
  have falls : (p.setTracker l t).missed u l n = (p.setTracker l { t with acquire := 0, missCount := missed }).enterFallback u l n := by
    unfold Part.missed
    simp only [Part.setTracker_get, Part.setTracker_twice, ← hmissed]
    rw [if_pos ⟨hlock, hmet⟩, if_pos hhold]
  obtain ⟨c, q, e, present, posted⟩ := Part.enterFallback_spec u n (p := p.setTracker l { t with acquire := 0, missCount := missed })
    (t := { t with acquire := 0, missCount := missed }) (by simp) (by simp [hlock]) hnever hstep
  refine ⟨c, q, ?_, present, by rw [← hlock]; exact posted⟩
  rw [falls, e]
  simp [Part.setTracker]
  rfl

end Missed

/-! ## The rows -/

/-- What MISS answers where it makes no stop request. -/
theorem exec_miss {l : Lane} {s : State} {q : Part} (hq : s.part.missIfDue s.setup l = q) (hstop : q.stopPending = false) :
    exec (.miss l) s = .next { s with part := q } := by
  show Host.Outcome.next { s with part := (s.part.missIfDue s.setup l).takeStop s.setup } = _
  rw [hq, Part.takeStop_none _ hstop]

/-- What MEASUREMENT_COMPLETE answers where it makes no stop request. -/
theorem exec_measurementComplete {l : Lane} {s : State} {q : Part} (hq : s.part.measurementComplete s.setup l = q)
    (hstop : q.stopPending = false) : exec (.measurementComplete l) s = .next { s with part := q } := by
  show Host.Outcome.next { s with part := (s.part.measurementComplete s.setup l).takeStop s.setup } = _
  rw [hq, Part.takeStop_none _ hstop]

/-- The two rows that bring a miss in a take at raw index n, with the tracker as the miss finds it: MISS at a timeout, and
MEASUREMENT_COMPLETE of a measurement outside the window. -/
def bringsMiss (l : Lane) (s : State) (n : Nat) (T base : Tracker) (row : Instr) : Prop :=
  row = .miss l ∧ s.part.hcr.nextIndex = n + 1 ∧ T.origin + 2 * T.timeoutSpan s.setup ≤ n ∧ base = { T with meas := none, origin := n }
    ∨ row = .measurementComplete l ∧ ∃ m new, T.meas = some m ∧ m.c ≤ m.counted ∧ n = m.lastIndex
      ∧ new = ((m.lastStamp - m.t0) * m.fRef * 4096 + m.c * s.setup.rates.fo / 2) / (m.c * s.setup.rates.fo)
      ∧ (new < m.lo ∨ m.hi < new)
      ∧ base = { T with meas := some (T.opening s.setup m.lastStamp m.lastIndex), origin := m.lastIndex }

theorem exec_bringsMiss {l : Lane} {s : State} {n : Nat} {base : Tracker} {row : Instr}
    (hc : s.part.hcr.capturing = true) (hmode : (s.part.rft.get l).mode = .take)
    (hs : (s.part.rft.get l).settings.source.isMeasured = true) (h : bringsMiss l s n (s.part.rft.get l) base row) :
    (∃ x, base = { s.part.rft.get l with meas := x, origin := n })
      ∧ ∀ q, (s.part.setTracker l base).missed s.setup l n = q → q.stopPending = false → exec row s = .next { s with part := q } := by
  rcases h with ⟨rfl, hn, hdue, rfl⟩ | ⟨rfl, m, new, hm, hfull, rfl, hnew, hout, rfl⟩
  · exact ⟨⟨none, rfl⟩, fun q hq => exec_miss ((Part.missIfDue_take hc hmode hs hn hdue).trans hq)⟩
  · exact ⟨⟨_, rfl⟩, fun q hq => exec_measurementComplete ((Part.measurementComplete_outside hm hfull hc hmode hs hnew rfl hout).trans hq)⟩

/-- Settles O43: a survey counts its timeout; in a take each of the two rows that bring a miss (`exec_bringsMiss`) counts it, and the
one that meets the miss count in LOCKED enters HOLD or FALLBACK. -/
theorem miss : Obligations.Miss := by
  refine ⟨fun l s n hc hstop hn hdue hmode => exec_miss (Part.missIfDue_survey hc hmode hn hdue) hstop, ?_⟩
  rintro l s n missed row T base rfl hc hstop hmode hs hrow hmissed
  obtain ⟨⟨x, rfl⟩, answers⟩ := exec_bringsMiss hc hmode hs hrow
  refine ⟨fun hbelow => ?counts, fun hlock hmet hhold => ?holds, fun hlock hmet hhold hnever step hstep => ?fallsBack⟩
  case counts => exact answers _ (Part.missed_counts s.setup n s.part hmissed hbelow) hstop
  case holds => exact answers _ (Part.missed_holds s.setup n s.part hmissed hlock hmet hhold) hstop
  case fallsBack =>
    obtain ⟨c, q, e, present, posted⟩ := Part.missed_fallsBack s.setup n s.part (t := { s.part.rft.get l with meas := x, origin := n })
      hmissed hlock hmet hhold hnever hstep
    exact ⟨_, answers _ e hstop, rfl, rfl, rfl, rfl, rfl, rfl, rfl, present, posted⟩

end Sys2Proof.Machine
end

section
/-! SUPPORT and PROOFS. The lock state machine at an in-window measurement, said once per lock state, and MEASUREMENT_COMPLETE (O42). -/

namespace Sys2Proof.Machine

open Sys2Proof.Safety

/-! ## Smoothing and locking (04, R72 to R76; 05, R88, R89) -/

@[simp] theorem Detector.startBlanking_blank (d : Detector) (v : Nat) : (d.startBlanking v).blank = v := by
  unfold Detector.startBlanking
  split <;> rfl

section Moves

variable (u : Setup) {l : Lane} (m : Measurement) (stamp : Nat) {p : Part} {t : Tracker} (ht : p.rft.get l = t)
include ht

/-- A smoothing update: S, its STEP entry, and RANGE present exactly when the clamp changed S. -/
theorem Part.smooth_spec {new : Nat} {moved : Int}
    (hmoved : moved = (t.step : Int) + clampInt (-(t.settings.slew : Int)) t.settings.slew (((new : Int) - t.step) / (2 ^ t.settings.k : Int)))
    (hnever : neverStops (u.policies.range.get l)) : ∃ c q, p.smooth u l m new stamp = { p with
      rft := p.rft.set l { t with step := (clampInt m.lo m.hi moved).toNat },
      lanes := p.lanes.set l ((p.lanes.get l).post u.rates ⟨stamp, .step (clampInt m.lo m.hi moved).toNat⟩),
      cmn := c, msp := { p.msp with notices := q } }
    ∧ (c.range.get l).present = decide (clampInt m.lo m.hi moved ≠ moved) := by
  obtain ⟨y, hy⟩ : ∃ y : Part, y = { p with
    rft := p.rft.set l { t with step := (clampInt m.lo m.hi moved).toNat },
    lanes := p.lanes.set l ((p.lanes.get l).post u.rates ⟨stamp, .step (clampInt m.lo m.hi moved).toNat⟩) } := ⟨_, rfl⟩
  have smooths : p.smooth u l m new stamp = y.report u (.range l) (decide (clampInt m.lo m.hi moved ≠ moved)) := by
    rw [hy, hmoved]
    unfold Part.smooth Part.postStep Part.postEntry smoothed shiftRight
    simp only [Part.setTracker, Part.setProducer, ht, PerLane.get_set_same]
  obtain ⟨c, b, q, e, present, -, stop, -⟩ := Part.report_spec u (.range l) (decide (clampInt m.lo m.hi moved ≠ moved)) y
  refine ⟨c, q, ?_, present⟩
  rw [smooths, e, stop hnever, hy]

/-- LOCKED entered: no miss counted, no timer, LOCK_CHANGED, LOCK_LOST absent, and blanking started in the lane's tracks. -/
theorem Part.enterLocked_spec (index : Nat) (hlock : t.lock ≠ .locked) : ∃ c d, p.enterLocked u l index = { p with
      rft := p.rft.set l { t with missCount := 0, hold := none, ramp := none, lock := .locked }, det := d, cmn := c,
      msp := { p.msp with notices := postNotice (.lockChanged l t.lock .locked (some index) t.step) p.msp.notices } }
    ∧ (c.lockLost.get l).present = false ∧ c.range.get l = p.cmn.range.get l
    ∧ ∀ tr : Track, tr.lane = l → (d.get tr).blank = (p.det.get tr).settings.blanking := by
  obtain ⟨c, b, q, e, absent, others, -, quiet⟩ := Part.changeLock_spec u l .locked (some index)
    (p.setTracker l { t with missCount := 0, hold := none, ramp := none })
  obtain ⟨hb, hq⟩ := quiet nofun
  simp only [Part.setTracker_rft, PerLane.get_set_same, PerLane.set_set, if_neg hlock] at e absent hq
  have entered : p.enterLocked u l index = Part.startBlanking l { p with
      rft := p.rft.set l { t with missCount := 0, hold := none, ramp := none, lock := .locked }, cmn := c,
      msp := { p.msp with notices := postNotice (.lockChanged l t.lock .locked (some index) t.step) p.msp.notices } } := by
    unfold Part.enterLocked
    dsimp only
    rw [ht, e, hb, hq]
    rfl
  refine ⟨c, (Part.startBlanking l p).det, entered, absent hlock, others (.range l) nofun, fun tr htr => ?_⟩
  rw [Part.startBlanking_det, if_pos htr, Detector.startBlanking_blank]

/-- A lock with the measured step whole: as LOCKED entered, with S at the step, its STEP entry, and RANGE absent. -/
theorem Part.lockWhole_spec {new : Nat} (hlock : t.lock ≠ .locked) (hlo : m.lo ≤ new) (hhi : new ≤ m.hi) : ∃ c d,
    p.lockWhole u l m new stamp = { p with
      rft := p.rft.set l { t with step := new, missCount := 0, hold := none, ramp := none, lock := .locked },
      lanes := p.lanes.set l ((p.lanes.get l).post u.rates ⟨stamp, .step new⟩), det := d, cmn := c,
      msp := { p.msp with notices := postNotice (.lockChanged l t.lock .locked (some m.lastIndex) new) p.msp.notices } }
    ∧ (c.range.get l).present = false ∧ (c.lockLost.get l).present = false
    ∧ ∀ tr : Track, tr.lane = l → (d.get tr).blank = (p.det.get tr).settings.blanking := by
  obtain ⟨y, hy⟩ : ∃ y : Part, y = { p with
    rft := p.rft.set l { t with step := new }, lanes := p.lanes.set l ((p.lanes.get l).post u.rates ⟨stamp, .step new⟩) } := ⟨_, rfl⟩
  have locks : p.lockWhole u l m new stamp = (y.reportAbsent u (.range l)).enterLocked u l m.lastIndex := by
    rw [hy]
    unfold Part.lockWhole Part.postStep Part.postEntry
    simp only [Part.setTracker, Part.setProducer, ht, PerLane.get_set_same, clampNat_inside hlo hhi]
  obtain ⟨c, e, absent, -, -, -⟩ := Part.reportAbsent_spec u (.range l) y
  obtain ⟨c', d, e', lost, range, blanked⟩ := Part.enterLocked_spec u (p := y.reportAbsent u (.range l)) (t := { t with step := new })
    (by rw [e, hy, PerLane.get_set_same]) m.lastIndex hlock
  rw [e] at e' range blanked
  refine ⟨c', d, ?_, by rw [range]; exact absent, lost, fun tr htr => by rw [blanked tr htr, hy]⟩
  rw [locks, e, e', hy]
  simp

end Moves

/-! ## An in-window measurement in each lock state (04, R72 to R75) -/

section InWindow

variable (u : Setup) {l : Lane} (m : Measurement) (new stamp : Nat) (p : Part) {t : Tracker} {acquired : Nat}

theorem Part.inWindow_locked (hlock : t.lock = .locked) :
    (p.setTracker l t).inWindow u l m new stamp = (p.setTracker l { t with missCount := 0 }).smooth u l m new stamp := by
  unfold Part.inWindow
  simp [hlock]

variable (hacquired : acquired = min 15 (t.acquire + 1))
include hacquired

theorem Part.inWindow_counts (hlock : t.lock = .search ∨ t.lock = .hold ∨ t.lock = .fallback) (hbelow : acquired < t.settings.acquire) :
    (p.setTracker l t).inWindow u l m new stamp = p.setTracker l { t with missCount := 0, acquire := acquired } := by
  have unmet : ¬t.settings.acquire ≤ min 15 (t.acquire + 1) := by omega
  unfold Part.inWindow
  rcases hlock with h | h | h <;> simp [h, unmet, hacquired]

theorem Part.inWindow_relocks (hlock : t.lock = .hold) (hmet : t.settings.acquire ≤ acquired) :
    (p.setTracker l t).inWindow u l m new stamp
      = ((p.setTracker l { t with missCount := 0, acquire := acquired }).smooth u l m new stamp).enterLocked u l m.lastIndex := by
  rw [hacquired] at hmet ⊢
  unfold Part.inWindow
  simp only [Part.setTracker_get, Part.setTracker_twice, hlock, hmet, decide_true, if_true]

theorem Part.inWindow_acquires (hlock : t.lock = .search ∨ t.lock = .fallback) (hmet : t.settings.acquire ≤ acquired) :
    (p.setTracker l t).inWindow u l m new stamp
      = (p.setTracker l { t with missCount := 0, acquire := acquired }).lockWhole u l m new stamp := by
  rw [hacquired] at hmet ⊢
  unfold Part.inWindow
  rcases hlock with h | h <;>
    simp only [Part.setTracker_get, Part.setTracker_twice, h, hmet, decide_true, if_true]

end InWindow

/-- Settles O42: a survey accumulates the measurement; in a take an in-window one is the lock state machine's event of its lock state
(`Part.inWindow_counts` and its companions), read off `Part.smooth_spec`, `Part.enterLocked_spec` and `Part.lockWhole_spec`. -/
theorem measurementComplete : Obligations.MeasurementComplete := by
  rintro l s m new span acquired T next stamp hT hm hfull hc hstop rfl hnew rfl hnext hacquired
  refine ⟨fun hmode => ?surveys, fun hmode hs hlo hhi => ?_⟩
  case surveys =>
    subst hT
    exact exec_measurementComplete (Part.measurementComplete_surveyed hm hfull hc hmode hnew hnext) hstop
  have judged : s.part.measurementComplete s.setup l
      = (s.part.setTracker l next).inWindow s.setup l m new ((m.t0 + m.lastStamp) / 512) := by
    subst hT
    exact Part.measurementComplete_inside hm hfull hc hmode hs hnew hnext hlo hhi
  obtain ⟨lock, step, settings, acquire⟩ : T.lock = next.lock ∧ T.step = next.step ∧ T.settings = next.settings
      ∧ T.acquire = next.acquire := by
    rw [hnext]
    exact ⟨rfl, rfl, rfl, rfl⟩
  rw [acquire] at hacquired
  rw [lock, step, settings]
  refine ⟨fun hlock hbelow => ?counts, fun moved hmoved hnever => ⟨fun hlock => ?locked, fun hlock hmet => ?relocks⟩,
    fun hlock hmet => ?acquires⟩
  case counts => exact exec_measurementComplete (judged.trans (Part.inWindow_counts _ _ _ _ _ hacquired hlock hbelow)) hstop
  case locked =>
    rw [Part.inWindow_locked _ _ _ _ _ hlock] at judged
    obtain ⟨c, q, e, range⟩ := Part.smooth_spec s.setup m ((m.t0 + m.lastStamp) / 512)
      (p := s.part.setTracker l { next with missCount := 0 }) (Part.setTracker_get ..) hmoved hnever
    exact ⟨_, exec_measurementComplete (judged.trans e) hstop, rfl, rfl, rfl, rfl, rfl, PerLane.set_set .., rfl, rfl, range⟩
  case relocks =>
    rw [Part.inWindow_relocks _ _ _ _ _ hacquired hlock hmet] at judged
    obtain ⟨c, q, e, range⟩ := Part.smooth_spec s.setup m ((m.t0 + m.lastStamp) / 512)
      (p := s.part.setTracker l { next with missCount := 0, acquire := acquired }) (Part.setTracker_get ..) hmoved hnever
    obtain ⟨y, hy⟩ : ∃ y, y = (s.part.setTracker l { next with missCount := 0, acquire := acquired }).smooth s.setup l m new
      ((m.t0 + m.lastStamp) / 512) := ⟨_, rfl⟩
    rw [← hy] at judged e
    have tracker : y.rft.get l = { next with
        missCount := 0, acquire := acquired, step := (clampInt m.lo m.hi moved).toNat } := by
      rw [e]
      exact PerLane.get_set_same ..
    obtain ⟨c', d, e', -, kept, blanked⟩ := Part.enterLocked_spec s.setup tracker m.lastIndex (by rw [hlock]; nofun)
    subst e
    refine ⟨_, exec_measurementComplete (judged.trans e') hstop, rfl, rfl, rfl, rfl, rfl, ?_, rfl, blanked, ?_, ?_⟩
    · exact (PerLane.set_set ..).trans (PerLane.set_set ..)
    · exact (congrArg CondStatus.present kept).trans range
    · rw [← hlock]
      exact postNotice_lockChanged ..
  case acquires =>
    rw [Part.inWindow_acquires _ _ _ _ _ hacquired hlock hmet] at judged
    obtain ⟨c, d, e, range, lost, blanked⟩ := Part.lockWhole_spec s.setup m ((m.t0 + m.lastStamp) / 512)
      (p := s.part.setTracker l { next with missCount := 0, acquire := acquired }) (Part.setTracker_get ..)
      (by rcases hlock with h | h <;> rw [h] <;> nofun) hlo hhi
    exact ⟨_, exec_measurementComplete (judged.trans e) hstop, rfl, rfl, rfl, rfl, rfl, PerLane.set_set .., rfl, blanked, range, lost, rfl⟩

end Sys2Proof.Machine
end

section
/-! SUPPORT and PROOFS. A frame at a tracker's filter and crossing detector, and what falls due there as the rows of those names do it (O41). -/

namespace Sys2Proof.Machine

open Sys2Proof.Safety

/-! ## The filter and the detector (04, R62, R65, R66) -/

theorem crossingStamp_eq {n stamp : Nat} {a b : Int} (h : (stamp : Int) = 256 * ((n : Int) - 1) + 256 * -a / (b - a)) :
    crossingStamp n a b = stamp := by
  unfold crossingStamp
  rw [← h, Int.toNat_natCast]

/-- While capture runs, the filter takes a frame exactly where the source is in the audio tracks and the tracker has a mode. -/
theorem Part.listens_iff {l : Lane} {p : Part} (hc : p.hcr.capturing = true) :
    (p.measuring l && (p.rft.get l).settings.source.isAudio) = true
      ↔ (p.rft.get l).settings.source.isAudio = true ∧ (p.rft.get l).mode ≠ .none := by
  rw [Bool.and_eq_true, and_comm]
  refine and_congr_right fun haudio => ?_
  have measured := Source.isMeasured_of_isAudio haudio
  cases hm : (p.rft.get l).mode with
  | none => simp [Part.measuring, hm]
  | take => simp [Part.measuring_take hc hm measured]
  | survey => simp [Part.measuring_survey hc hm]

/-- What a tracker is once its filter and detector have read the frame of raw index n with the track sum given, before what falls due at
the frame is done: hears says whether the frame reaches them, counted whether the detector counts a crossing, at the stamp given. -/
structure Tracker.Reads (u : Setup) (n stamp : Nat) (sum y : Int) (hears counted : Prop) (T read : Tracker) : Prop where
  value : y = filtered T.coeffs T.filter sum
  counts_iff : counted ↔ hears ∧ T.armed = true ∧ T.last < 0 ∧ 0 ≤ y
  stamped : counted → crossingStamp n T.last y = stamp
  deaf : ¬hears → read = T
  silent : hears → ¬counted → read = { T with
    filter := ⟨sum, T.filter.x1, y, T.filter.y1⟩, last := y, armed := T.armed || decide (y < -(T.settings.gate : Int)) }
  first : counted → T.meas = none → read = { T with
    filter := ⟨sum, T.filter.x1, y, T.filter.y1⟩, last := y, armed := false, origin := n, meas := some (T.opening u stamp n) }
  further : ∀ m, counted → T.meas = some m → read = { T with
    filter := ⟨sum, T.filter.x1, y, T.filter.y1⟩, last := y, armed := false,
    meas := some { m with counted := m.counted + 1, lastStamp := stamp, lastIndex := n } }

theorem Tracker.exists_reads (u : Setup) {n stamp : Nat} {sum y : Int} {hears counted : Prop} {T : Tracker}
    (value : y = filtered T.coeffs T.filter sum) (counts_iff : counted ↔ hears ∧ T.armed = true ∧ T.last < 0 ∧ 0 ≤ y)
    (stamped : counted → crossingStamp n T.last y = stamp) : ∃ read, Tracker.Reads u n stamp sum y hears counted T read := by
  by_cases hc : counted
  · have hh : hears := (counts_iff.mp hc).1
    cases hm : T.meas with
    | none =>
      exact ⟨_, value, counts_iff, stamped, fun k => absurd hh k, fun _ k => absurd hc k, fun _ _ => rfl,
        fun _ _ k => nomatch hm.symm.trans k⟩
    | some m =>
      refine ⟨{ T with
        filter := ⟨sum, T.filter.x1, y, T.filter.y1⟩, last := y, armed := false,
        meas := some { m with counted := m.counted + 1, lastStamp := stamp, lastIndex := n } }, value, counts_iff, stamped,
        fun k => absurd hh k, fun _ k => absurd hc k, fun _ k => (nomatch hm.symm.trans k), fun m' _ k => ?_⟩
      rw [Option.some.inj (hm.symm.trans k)]
  · by_cases hh : hears
    · exact ⟨_, value, counts_iff, stamped, fun k => absurd hh k, fun _ _ => rfl, fun k => absurd k hc, fun _ k => absurd k hc⟩
    · exact ⟨T, value, counts_iff, stamped, fun _ => rfl, fun k => absurd k hh, fun k => absurd k hc, fun _ k => absurd k hc⟩

/-- What the filter and the detector make of a frame that reaches them (04, R62, R65). -/
theorem Tracker.Reads.heard {u : Setup} {n stamp : Nat} {sum y : Int} {hears counted : Prop} {T read : Tracker}
    (h : Tracker.Reads u n stamp sum y hears counted T read) (hh : hears) :
    read.filter = ⟨sum, T.filter.x1, y, T.filter.y1⟩ ∧ read.last = y ∧ (counted → read.armed = false)
      ∧ (¬counted → read.armed = (T.armed || decide (y < -(T.settings.gate : Int)))) := by
  by_cases hc : counted
  · cases hm : T.meas with
    | none =>
      rw [h.first hc hm]
      exact ⟨rfl, rfl, fun _ => rfl, fun k => absurd hc k⟩
    | some m =>
      rw [h.further m hc hm]
      exact ⟨rfl, rfl, fun _ => rfl, fun k => absurd hc k⟩
  · rw [h.silent hh hc]
    exact ⟨rfl, rfl, fun k => absurd k hc, fun _ => rfl⟩

section Reads

variable {u : Setup} {l : Lane} {n stamp : Nat} {sum y : Int} {hears counted : Prop} {p : Part} {read : Tracker}
  (h : Tracker.Reads u n stamp sum y hears counted (p.rft.get l) read)
include h

theorem Part.detect_silent (hh : hears) (hn : ¬counted) : p.detect u l n sum = p.setTracker l read := by
  have quiet : ((p.rft.get l).armed && decide ((p.rft.get l).last < 0) && decide (0 ≤ y)) = false := by
    rw [Bool.eq_false_iff]
    simp only [ne_eq, Bool.and_eq_true, decide_eq_true_eq, and_assoc]
    exact fun k => hn (h.counts_iff.mpr ⟨hh, k⟩)
  rw [h.silent hh hn]
  unfold Part.detect
  dsimp only
  rw [← h.value, quiet]
  rfl

theorem Part.detect_crosses (hc : counted) : p.detect u l n sum = (p.setTracker l { p.rft.get l with
    filter := ⟨sum, (p.rft.get l).filter.x1, y, (p.rft.get l).filter.y1⟩, last := y, armed := false }).crossing u l stamp n := by
  obtain ⟨-, harmed, hbelow, habove⟩ := h.counts_iff.mp hc
  unfold Part.detect
  simp [← h.value, harmed, hbelow, habove, h.stamped hc]

theorem Part.detect_first (hc : counted) (hm : (p.rft.get l).meas = none) : p.detect u l n sum = p.setTracker l read := by
  rw [p.detect_crosses h hc, Part.crossing_opens u stamp n l (by rw [Part.setTracker_get]; exact hm), h.first hc hm,
    Part.setTracker_twice, Part.setTracker_get]
  rfl

theorem Part.detect_further (hc : counted) (hm : (p.rft.get l).meas ≠ none) :
    p.detect u l n sum = (p.setTracker l read).measurementComplete u l := by
  obtain ⟨m, hm⟩ := Option.ne_none_iff_exists'.mp hm
  rw [p.detect_crosses h hc, Part.crossing_counts u stamp n l (by rw [Part.setTracker_get]; exact hm),
    h.further m hc hm, Part.setTracker_twice, Part.setTracker_get]

end Reads

/-- What falls due at a frame behind the detector: the timeout, the hold timer and the ramp timer (04, R68, R74, R75; log 7). -/
def Part.timersDue (u : Setup) (l : Lane) (p : Part) : Part := ((p.missIfDue u l).holdIfDue u l).rampIfDue u l

/-- A tracker's frame: it is read, the measurement that its crossing completes is judged, and then the timers. -/
theorem Part.trackerFrame_reads {u : Setup} {l : Lane} {n stamp : Nat} {y : Int} {hears counted : Prop} {p : Part} {read : Tracker}
    (f : PerTrack Int) (hcap : p.hcr.capturing = true)
    (hhears : hears ↔ (p.rft.get l).settings.source.isAudio = true ∧ (p.rft.get l).mode ≠ .none)
    (h : Tracker.Reads u n stamp (f.get l.first + f.get l.second) y hears counted (p.rft.get l) read) :
    (counted ∧ (p.rft.get l).meas ≠ none → p.trackerFrame u n f l = ((p.setTracker l read).measurementComplete u l).timersDue u l)
    ∧ (¬(counted ∧ (p.rft.get l).meas ≠ none) → p.trackerFrame u n f l = (p.setTracker l read).timersDue u l) := by
  have heard (hh : hears) : p.trackerFrame u n f l = (p.detect u l n (f.get l.first + f.get l.second)).timersDue u l := by
    unfold Part.trackerFrame
    rw [if_pos ((Part.listens_iff hcap).mpr (hhears.mp hh))]
    rfl
  refine ⟨fun ⟨hc, hm⟩ => ?_, fun hquiet => ?_⟩
  · rw [heard (h.counts_iff.mp hc).1, p.detect_further h hc hm]
  · by_cases hh : hears
    · by_cases hc : counted
      · rw [heard hh, p.detect_first h hc (not_not.mp fun hm => hquiet ⟨hc, hm⟩)]
      · rw [heard hh, p.detect_silent h hh hc]
    · unfold Part.trackerFrame
      rw [if_neg fun k => hh (hhears.mpr ((Part.listens_iff hcap).mp k)), h.deaf hh]
      unfold Part.setTracker
      rw [PerLane.set_get]
      rfl

/-! ## What a completed measurement and the timers leave -/

/-- The filter and the crossing detector stand as they were. -/
structure Part.KeepsDetector (l : Lane) (p q : Part) : Prop where
  filter : (q.rft.get l).filter = (p.rft.get l).filter
  last : (q.rft.get l).last = (p.rft.get l).last
  armed : (q.rft.get l).armed = (p.rft.get l).armed

theorem Part.KeepsDetector.refl (l : Lane) (p : Part) : p.KeepsDetector l p := ⟨rfl, rfl, rfl⟩

theorem Part.KeepsDetector.trans {l : Lane} {p q r : Part} (h : p.KeepsDetector l q) (k : q.KeepsDetector l r) : p.KeepsDetector l r :=
  ⟨k.filter.trans h.filter, k.last.trans h.last, k.armed.trans h.armed⟩

theorem Part.KeepsMeasure.detector {l : Lane} {p q : Part} (h : p.KeepsMeasure l q) : p.KeepsDetector l q := ⟨h.filter, h.last, h.armed⟩

theorem Part.keepsDetector_set (l : Lane) (p : Part) {t : Tracker} (hf : t.filter = (p.rft.get l).filter)
    (hl : t.last = (p.rft.get l).last) (ha : t.armed = (p.rft.get l).armed) : p.KeepsDetector l (p.setTracker l t) := by
  constructor <;> rw [Part.setTracker_get] <;> assumption

theorem Part.keepsDetector_measurementComplete (u : Setup) (l : Lane) (p : Part) : p.KeepsDetector l (p.measurementComplete u l) := by
  unfold Part.measurementComplete
  dsimp only
  split
  · exact .refl l p
  · split
    · split
      · exact p.keepsDetector_set l rfl rfl rfl
      · split
        · exact (p.keepsDetector_set l (by exact rfl) (by exact rfl) (by exact rfl)).trans (Part.keepsMeasure_inWindow ..).detector
        · exact (p.keepsDetector_set l (by exact rfl) (by exact rfl) (by exact rfl)).trans (Part.keepsMeasure_missed ..).detector
      · exact .refl l p
    · exact .refl l p

theorem Part.keepsDetector_missIfDue (u : Setup) (l : Lane) (p : Part) : p.KeepsDetector l (p.missIfDue u l) := by
  unfold Part.missIfDue
  dsimp only
  split
  · split
    · exact p.keepsDetector_set l rfl rfl rfl
    · exact (p.keepsDetector_set l (by exact rfl) (by exact rfl) (by exact rfl)).trans (Part.keepsMeasure_missed ..).detector
    · exact .refl l p
  · exact .refl l p

theorem Part.keepsDetector_timersDue (u : Setup) (l : Lane) (p : Part) : p.KeepsDetector l (p.timersDue u l) :=
  ((p.keepsDetector_missIfDue u l).trans (Part.keepsMeasure_holdIfDue ..).detector).trans (Part.keepsMeasure_rampIfDue ..).detector

/-- Before the timeout the timers leave the open measurement and the timeout's origin. -/
theorem Part.keepsMeasure_timersDue (u : Setup) (l : Lane) (p : Part) {n : Nat} (hn : p.hcr.nextIndex = n + 1)
    (hearly : n < (p.rft.get l).origin + 2 * (p.rft.get l).timeoutSpan u) : p.KeepsMeasure l (p.timersDue u l) := by
  unfold Part.timersDue
  rw [Part.missIfDue_early u l p n hn hearly]
  exact (p.keepsMeasure_holdIfDue u l).trans (Part.keepsMeasure_rampIfDue u l _)

/-- A completed measurement's closing crossing opens the next (04, R67). -/
theorem Part.measurementComplete_reopens (u : Setup) {l : Lane} {p : Part} {m : Measurement} (hm : (p.rft.get l).meas = some m)
    (hfull : m.c ≤ m.counted) (hwork : p.measuring l = true) :
    ((p.measurementComplete u l).rft.get l).meas = some ((p.rft.get l).opening u m.lastStamp m.lastIndex)
      ∧ ((p.measurementComplete u l).rft.get l).origin = m.lastIndex := by
  unfold Part.measurementComplete
  simp only [hm, hwork, hfull, decide_true, Bool.and_self, if_true]
  split
  · simp
  · split
    · exact ⟨(Part.keepsMeasure_inWindow ..).meas.trans (by simp), (Part.keepsMeasure_inWindow ..).origin.trans (by simp)⟩
    · exact ⟨(Part.keepsMeasure_missed ..).meas.trans (by simp), (Part.keepsMeasure_missed ..).origin.trans (by simp)⟩
  · rename_i hmode
    simp [Part.measuring, hmode] at hwork

theorem Tracker.opening_audio (u : Setup) (stamp index : Nat) {t : Tracker} (h : t.settings.source.isAudio = true) :
    t.opening u stamp index = ⟨stamp, 0, t.settings.c, t.settings.fRef, u.rates.nominal - u.rates.nominal * t.settings.w / 1000,
      u.rates.nominal + u.rates.nominal * t.settings.w / 1000, stamp, index⟩ := by
  have source : t.settings.source ≠ .tach := by
    intro k
    rw [k] at h
    cases h
  unfold Tracker.opening Tracker.crossings Tracker.reference
  rw [if_neg source, if_neg source]
  rfl

/-! ## A frame that reaches filter and detector (04, R62, R65 to R68) -/

section Heard

variable {u : Setup} {f : PerTrack Int} {l : Lane} {n stamp : Nat} {y : Int} {hears counted : Prop} {p : Part} {read : Tracker}
  (hcap : p.hcr.capturing = true) (hn : p.hcr.nextIndex = n + 1)
  (hhears : hears ↔ (p.rft.get l).settings.source.isAudio = true ∧ (p.rft.get l).mode ≠ .none)
  (h : Tracker.Reads u n stamp (f.get l.first + f.get l.second) y hears counted (p.rft.get l) read)
include hcap hhears h

theorem Part.trackerFrame_detector (hh : hears) : ∃ z, z = (p.trackerFrame u n f l).rft.get l
    ∧ z.filter = ⟨f.get l.first + f.get l.second, (p.rft.get l).filter.x1, y, (p.rft.get l).filter.y1⟩ ∧ z.last = y
    ∧ (counted → z.armed = false)
    ∧ (¬counted → z.armed = ((p.rft.get l).armed || decide (y < -((p.rft.get l).settings.gate : Int)))) := by
  obtain ⟨completes, rests⟩ := Part.trackerFrame_reads f hcap hhears h
  have kept : (p.setTracker l read).KeepsDetector l (p.trackerFrame u n f l) := by
    by_cases hc : counted ∧ (p.rft.get l).meas ≠ none
    · rw [completes hc]
      exact (Part.keepsDetector_measurementComplete u l _).trans (Part.keepsDetector_timersDue u l _)
    · rw [rests hc]
      exact Part.keepsDetector_timersDue u l _
  obtain ⟨hfilter, hlast, harmed⟩ := kept
  rw [Part.setTracker_get] at hfilter hlast harmed
  refine ⟨_, rfl, ?_⟩
  rw [hfilter, hlast, harmed]
  exact h.heard hh

include hn

/-- The detector's first crossing opens a measurement and sets the timeout's origin. -/
theorem Part.trackerFrame_opens (hc : counted) (hm : (p.rft.get l).meas = none) (hspan : 0 < (p.rft.get l).span u) :
    ((p.trackerFrame u n f l).rft.get l).meas = some ((p.rft.get l).opening u stamp n)
      ∧ ((p.trackerFrame u n f l).rft.get l).origin = n := by
  rw [(Part.trackerFrame_reads f hcap hhears h).2 fun k => k.2 hm]
  have kept := Part.keepsMeasure_timersDue u l (p.setTracker l read) hn (by
    rw [Part.setTracker_get, h.first hc hm]
    show n < n + 2 * (p.rft.get l).span u
    omega)
  rw [kept.meas, kept.origin, Part.setTracker_get, h.first hc hm]
  exact ⟨rfl, rfl⟩

/-- A crossing that the open measurement lacks counts in it. -/
theorem Part.trackerFrame_counts {m : Measurement} (hc : counted) (hm : (p.rft.get l).meas = some m) (hlacks : m.counted + 1 < m.c)
    (hearly : n < (p.rft.get l).origin + 2 * (m.c * u.rates.fr * 16 / m.fRef)) :
    ((p.trackerFrame u n f l).rft.get l).meas = some { m with counted := m.counted + 1, lastStamp := stamp, lastIndex := n }
      ∧ ((p.trackerFrame u n f l).rft.get l).origin = (p.rft.get l).origin := by
  have counts : read.meas = some { m with counted := m.counted + 1, lastStamp := stamp, lastIndex := n }
      ∧ read.origin = (p.rft.get l).origin := by
    rw [h.further m hc hm]
    exact ⟨rfl, rfl⟩
  rw [(Part.trackerFrame_reads f hcap hhears h).1 ⟨hc, by rw [hm]; nofun⟩,
    Part.measurementComplete_early u l (by rw [Part.setTracker_get]; exact counts.1) hlacks]
  have kept := Part.keepsMeasure_timersDue u l (p.setTracker l read) hn (by
    rw [Part.setTracker_get, Tracker.timeoutSpan_open u counts.1, counts.2]
    exact hearly)
  rw [kept.meas, kept.origin, Part.setTracker_get]
  exact counts

/-- The C-th crossing closes the open measurement and opens the next. -/
theorem Part.trackerFrame_reopens {m : Measurement} (hc : counted) (hm : (p.rft.get l).meas = some m) (hfull : m.c ≤ m.counted + 1)
    (hspan : 0 < (p.rft.get l).span u) :
    ((p.trackerFrame u n f l).rft.get l).meas = some ((p.rft.get l).opening u stamp n)
      ∧ ((p.trackerFrame u n f l).rft.get l).origin = n := by
  have audio := hhears.mp (h.counts_iff.mp hc).1
  have whole := h.further m hc hm
  have work : (p.setTracker l read).measuring l = true := by
    have listens := (Bool.and_eq_true_iff.mp ((Part.listens_iff hcap).mpr audio)).1
    unfold Part.measuring at listens ⊢
    rw [Part.setTracker_get, whole]
    exact listens
  obtain ⟨reopened, origin⟩ := Part.measurementComplete_reopens u (p := p.setTracker l read)
    (m := { m with counted := m.counted + 1, lastStamp := stamp, lastIndex := n }) (by rw [Part.setTracker_get, whole]) hfull work
  have same : read.opening u stamp n = (p.rft.get l).opening u stamp n := by
    rw [whole]
    rfl
  rw [Part.setTracker_get] at reopened
  dsimp only at reopened origin
  rw [same] at reopened
  rw [(Part.trackerFrame_reads f hcap hhears h).1 ⟨hc, by rw [hm]; nofun⟩]
  have kept := Part.keepsMeasure_timersDue u l ((p.setTracker l read).measurementComplete u l)
    (((p.setTracker l read).tracks_measurementComplete u l).hcr ▸ hn) (by
      rw [Tracker.timeoutSpan_open u reopened, origin]
      show n < n + 2 * (p.rft.get l).span u
      omega)
  rw [kept.meas, kept.origin]
  exact ⟨reopened, origin⟩

/-- Without a crossing, and before the timeout, the measurement goes on. -/
theorem Part.trackerFrame_waits (hh : hears) (hc : ¬counted)
    (hearly : n < (p.rft.get l).origin + 2 * (p.rft.get l).timeoutSpan u) :
    ((p.trackerFrame u n f l).rft.get l).meas = (p.rft.get l).meas
      ∧ ((p.trackerFrame u n f l).rft.get l).origin = (p.rft.get l).origin := by
  rw [(Part.trackerFrame_reads f hcap hhears h).2 fun k => hc k.1]
  have kept := Part.keepsMeasure_timersDue u l (p.setTracker l read) hn (by
    rw [Part.setTracker_get, h.silent hh hc]
    exact hearly)
  rw [kept.meas, kept.origin, Part.setTracker_get, h.silent hh hc]
  exact ⟨rfl, rfl⟩

end Heard

/-! ## The aligner half behind the tracker (07, R122) -/

/-- A half that does not run completes no window. -/
theorem Part.azimuthComplete_resting (u : Setup) (l : Lane) {p : Part} (h : (p.aza.get l).running = false) :
    p.azimuthComplete u l = p := by
  unfold Part.azimuthComplete
  simp only [h, Bool.false_and, Bool.false_eq_true, if_false]
  split <;> rfl

/-- A half's frame is AZIMUTH_WINDOW_COMPLETE on a part alike whose half has gathered the frame. -/
theorem Part.azimuthFrame_alike (u : Setup) (rings : Rings) (n : Nat) {l : Lane} {p q : Part} (h : p.Hears l q)
    (hhalf : q.aza.get l = if (p.aza.get l).running then
        { p.aza.get l with window := (p.aza.get l).window.map (AzimuthWindow.gather rings l n) }
      else p.aza.get l) : (p.azimuthFrame u rings n l).Alike l (q.azimuthComplete u l) := by
  unfold Part.azimuthFrame
  dsimp only
  by_cases hr : (p.aza.get l).running = true
  · rw [if_pos hr] at hhalf ⊢
    refine Part.Alike.azimuthComplete ⟨⟨h.rft, h.lanes, h.det, h.cmn, h.capturing, h.nextIndex, h.queue⟩, ?_⟩
    rw [hhalf, Part.setAligner_aza, PerLane.get_set_same]
  · rw [if_neg hr] at hhalf ⊢
    rw [Part.azimuthComplete_resting u l (by rw [hhalf]; exact Bool.eq_false_iff.mpr hr)]
    exact ⟨h, hhalf⟩

theorem Part.Hears.timersDue {u : Setup} {l : Lane} {p q : Part} (h : p.Hears l q) : (p.timersDue u l).Hears l (q.timersDue u l) :=
  h.missIfDue.holdIfDue.rampIfDue

theorem Part.tracks_timersDue (u : Setup) (l : Lane) (p : Part) : p.Tracks u l (p.timersDue u l) :=
  ((p.tracks_missIfDue u l).trans (Part.tracks_holdIfDue u l _)).trans (Part.tracks_rampIfDue u l _)

/-! ## The row -/

/-- What FRAME_SLOT makes of a lane's tracker inside a block. -/
theorem exec_brings_tracker {bytes : List Byte} {f : PerTrack Int} {s : State} {l : Lane} {n : Nat} (h : bringsFrame bytes f s)
    (hf : framesNeverStop s.setup) (hn : n = s.part.hcr.nextIndex) (hblock : n % 64 ≠ 0) : ∃ t, exec (.frameSlot bytes) s = .next t
      ∧ t.part.rft.get l
        = (Part.trackerFrame s.setup n f l { s.part with hcr := { s.part.hcr with nextIndex := n + 1 } }).rft.get l := by
  obtain ⟨t, e, lane⟩ := exec_brings_lane h hf l n hn
  obtain ⟨r, d, c, ht, -, alike⟩ := lane (.inl hblock)
  obtain ⟨x, y, ea⟩ := (Part.trackerFrame s.setup n f l { s.part with hcr := { s.part.hcr with nextIndex := n + 1 } }).azimuthFrame_spec
    s.setup t.rings n l
  refine ⟨t, e, ?_⟩
  rw [ht]
  refine alike.rft.trans ?_
  rw [ea]

/-- The rows that fall due at a frame are the events of their names, with a completed measurement before the timers (log 4, log 7). -/
theorem afterRows_due {s : State} {l : Lane} {rows : List Instr} {completes : Prop} (hf : framesNeverStop s.setup)
    (hs : s.part.stopPending = false)
    (hdue : completes → rows = [.measurementComplete l, .miss l, .holdTimerExpiry l, .rampMove l, .azimuthWindowComplete l])
    (hrest : ¬completes → rows = [.miss l, .holdTimerExpiry l, .rampMove l, .azimuthWindowComplete l]) :
    (completes → (afterRows s rows).part = ((s.part.measurementComplete s.setup l).timersDue s.setup l).azimuthComplete s.setup l)
    ∧ (¬completes → (afterRows s rows).part = (s.part.timersDue s.setup l).azimuthComplete s.setup l) := by
  obtain ⟨rest, due⟩ := afterRows_frame s l hf hs
  refine ⟨fun h => ?_, fun h => ?_⟩
  · rw [hdue h, due]
    rfl
  · rw [hrest h, rest]
    rfl

/-- What FRAME_SLOT makes of a lane, as the rows that fall due at its frame leave it on the part that has read the frame. -/
theorem Part.frame_alike_rows {s : State} {l : Lane} {n stamp : Nat} {y : Int} {hears counted : Prop} {read : Tracker} {half : Aligner}
    {rows : List Instr} (f : PerTrack Int) (rings : Rings) (hf : framesNeverStop s.setup) (hstop : s.part.stopPending = false)
    (hcap : s.part.hcr.capturing = true)
    (hhears : hears ↔ (s.part.rft.get l).settings.source.isAudio = true ∧ (s.part.rft.get l).mode ≠ .none)
    (h : Tracker.Reads s.setup n stamp (f.get l.first + f.get l.second) y hears counted (s.part.rft.get l) read)
    (hdue : counted ∧ (s.part.rft.get l).meas ≠ none →
      rows = [.measurementComplete l, .miss l, .holdTimerExpiry l, .rampMove l, .azimuthWindowComplete l])
    (hrest : ¬(counted ∧ (s.part.rft.get l).meas ≠ none) →
      rows = [.miss l, .holdTimerExpiry l, .rampMove l, .azimuthWindowComplete l])
    (hhalf : half = if (s.part.aza.get l).running then
        { s.part.aza.get l with window := (s.part.aza.get l).window.map (AzimuthWindow.gather rings l n) }
      else s.part.aza.get l) :
    ((Part.trackerFrame s.setup n f l { s.part with hcr := { s.part.hcr with nextIndex := n + 1 } }).azimuthFrame s.setup rings n l).Alike l
      (afterRows { s with part := { s.part with
        hcr := { s.part.hcr with nextIndex := n + 1 }, rft := s.part.rft.set l read, aza := s.part.aza.set l half } } rows).part := by
  obtain ⟨p, hp⟩ : ∃ p : Part, p = { s.part with hcr := { s.part.hcr with nextIndex := n + 1 } } := ⟨_, rfl⟩
  obtain ⟨q, hq⟩ : ∃ q : Part, q = { s.part with
    hcr := { s.part.hcr with nextIndex := n + 1 }, rft := s.part.rft.set l read, aza := s.part.aza.set l half } := ⟨_, rfl⟩
  have start : (p.setTracker l read).Hears l q := by
    rw [hp, hq]
    exact ⟨rfl, rfl, fun _ _ => rfl, fun _ _ => rfl, rfl, rfl, rfl⟩
  have gathered : q.aza.get l = half := by rw [hq, PerLane.get_set_same]
  have aza : (p.setTracker l read).aza = s.part.aza := by rw [hp]; exact Part.setTracker_aza ..
  obtain ⟨completes, rests⟩ := Part.trackerFrame_reads (p := p) (u := s.setup) (hears := hears) f (by rw [hp]; exact hcap)
    (by rw [hp]; exact hhears) (by rw [hp]; exact h)
  obtain ⟨rowsComplete, rowsRest⟩ := afterRows_due (s := { s with part := q }) (completes := counted ∧ (s.part.rft.get l).meas ≠ none) hf
    (by rw [hq]; exact hstop) hdue hrest
  have rft : p.rft = s.part.rft := by rw [hp]
  rw [rft] at completes rests
  rw [← hp, ← hq]
  by_cases hc : counted ∧ (s.part.rft.get l).meas ≠ none
  · rw [completes hc, rowsComplete hc]
    refine Part.azimuthFrame_alike s.setup rings n start.measurementComplete.timersDue ?_
    have untouched (x : Part) := (x.tracks_measurementComplete s.setup l).aza.symm.trans (Part.tracks_timersDue s.setup l _).aza.symm
    rw [← untouched, ← untouched, aza, gathered, hhalf]
  · rw [rests hc, rowsRest hc]
    refine Part.azimuthFrame_alike s.setup rings n start.timersDue ?_
    rw [(Part.tracks_timersDue s.setup l _).aza, (Part.tracks_timersDue s.setup l _).aza, aza, gathered, hhalf]

/-- Settles O41: inside a block the frame is read by filter and detector (`Part.trackerFrame_detector` and its companions), and what
falls due at it leaves the lane as its rows do (`Part.frame_alike_rows`). -/
theorem trackerCrossing : Obligations.TrackerCrossing := by
  refine ⟨?crossing, ?rows⟩
  case crossing =>
    rintro bytes f l n c T sum y counted s hbrings hf hn hblock hT haudio hmode rfl hspan rfl hy hcounted
    obtain ⟨t, answer, tracker⟩ := exec_brings_tracker (l := l) hbrings hf hn hblock
    obtain ⟨-, -, -, hcap, -, -⟩ := hbrings
    obtain ⟨p, hp⟩ : ∃ p : Part, p = { s.part with hcr := { s.part.hcr with nextIndex := n + 1 } } := ⟨_, rfl⟩
    have index : p.hcr.nextIndex = n + 1 := by rw [hp]
    replace hcap : p.hcr.capturing = true := by rw [hp]; exact hcap
    replace hT : T = p.rft.get l := by rw [hp]; exact hT
    rw [← hp] at tracker
    subst hT
    have hhears : True ↔ (p.rft.get l).settings.source.isAudio = true ∧ (p.rft.get l).mode ≠ .none := by
      refine ⟨fun _ => ⟨haudio, ?_⟩, fun _ => trivial⟩
      rcases hmode with h | h <;> rw [h] <;> nofun
    obtain ⟨read, h⟩ := Tracker.exists_reads s.setup (n := n) hy (hcounted.trans (and_iff_right trivial).symm) fun _ => rfl
    have span : (p.rft.get l).span s.setup = (p.rft.get l).settings.c * s.setup.rates.fr * 16 / (p.rft.get l).settings.fRef :=
      Tracker.span_other s.setup fun k => by rw [k] at haudio; cases haudio
    obtain ⟨z, hz, filter, last, disarmed, armed⟩ := Part.trackerFrame_detector hcap hhears h trivial
    refine ⟨t, answer, ?_⟩
    rw [tracker]
    refine ⟨hz ▸ filter, hz ▸ last, fun hc => ⟨hz ▸ disarmed hc, fun stamp opened hstamp hopened => ?_⟩,
      fun hc => ⟨?_, fun hearly => ?waits⟩⟩
    case waits =>
      refine Part.trackerFrame_waits hcap index hhears h trivial hc ?_
      unfold Tracker.timeoutSpan
      cases hm : (p.rft.get l).meas with
      | none => rw [hm] at hearly; exact span ▸ hearly
      | some m => rw [hm] at hearly; exact hearly
    · rw [← crossingStamp_eq hstamp] at hopened ⊢
      rw [← Tracker.opening_audio s.setup _ _ haudio] at hopened
      subst hopened
      refine ⟨fun hm => Part.trackerFrame_opens hcap index hhears h hc hm (span ▸ hspan), fun m hm => ⟨fun hlacks hearly => ?_,
        fun hfull => Part.trackerFrame_reopens hcap index hhears h hc hm hfull (span ▸ hspan)⟩⟩
      exact Part.trackerFrame_counts hcap index hhears h hc hm hlacks hearly
    · rw [← hz, armed hc, Bool.or_eq_true, decide_eq_true_eq]
  case rows =>
    rintro bytes f l n stamp T read sum y hears counted rows s hbrings hf hn rfl hhears rfl hy hcounted hstamp hdeaf hsilent hfirst hfurther
      hdue hrest
    have reads : Tracker.Reads s.setup n stamp (f.get l.first + f.get l.second) y hears counted (s.part.rft.get l) read :=
      ⟨hy, hcounted, fun hc => crossingStamp_eq (hstamp hc), hdeaf, hsilent, fun hc hm => by
        rw [hfirst hc hm, Tracker.opening_audio s.setup stamp n (hhears.mp (hcounted.mp hc).1).1], hfurther⟩
    obtain ⟨t, answer, lane⟩ := exec_brings_lane hbrings hf l n hn
    obtain ⟨-, -, hstop, hcap, -, -⟩ := hbrings
    refine ⟨t, answer, fun still half done hhalf hdone => ?_⟩
    obtain ⟨r, d, c, ht, hdet, performed⟩ := lane still
    have asRows := Part.frame_alike_rows f t.rings hf hstop hcap hhears reads hdue hrest hhalf
    rw [← hdone] at asRows
    rw [ht]
    refine ⟨performed.rft.trans asRows.rft.symm, performed.lanes.trans asRows.lanes.symm, performed.aza.trans asRows.aza.symm,
      (performed.cmn (.lockLost l) (.inl rfl)).trans (asRows.cmn (.lockLost l) (.inl rfl)).symm,
      (performed.cmn (.range l) (.inr rfl)).trans (asRows.cmn (.range l) (.inr rfl)).symm,
      fun k hk => mem_of_queued (performed.queue.trans asRows.queue.symm) k (by cases l <;> exact hk), fun hlast tr htr => ?_⟩
    rw [hdet hlast]
    exact (performed.det tr htr).trans (asRows.det tr htr).symm

end Sys2Proof.Machine
end

section
/-! PROOFS. The lane timeline: what its entries do, which of them a production step applies, and where posting puts one (O22). -/

namespace Sys2Proof.Machine

/-! ## Due entries (05, R97) -/

/-- The due entries of a list that is cut where its stamps pass the lane's index are applied in order, and the others stay. -/
theorem Producer.applyDue_split (r : RatePair) {x : Producer} {due rest : List TimelineEntry} (h : x.timeline = due ++ rest)
    (hdue : ∀ e ∈ due, e.stamp ≤ x.index) (hrest : ∀ e ∈ rest, x.index < e.stamp) :
    x.applyDue r = due.foldl (Producer.apply r) { x with timeline := rest } := by
  have applied : x.timeline.filter (fun e => decide (e.stamp ≤ x.index)) = due := by
    rw [h, List.filter_append, List.filter_eq_self.mpr fun e he => decide_eq_true (hdue e he),
      List.filter_eq_nil_iff.mpr fun e he => by simpa using hrest e he, List.append_nil]
  have left : x.timeline.filter (fun e => decide (x.index < e.stamp)) = rest := by
    rw [h, List.filter_append, List.filter_eq_nil_iff.mpr fun e he => by simpa using hdue e he,
      List.filter_eq_self.mpr fun e he => decide_eq_true (hrest e he), List.nil_append]
  unfold Producer.applyDue
  dsimp only
  rw [applied, left]

/-! ## Posting (05, R95, R96) -/

/-- A due entry is listed and every due entry applied. -/
theorem Producer.post_due (r : RatePair) {x : Producer} {e : TimelineEntry} (h : e.stamp ≤ x.index) :
    x.post r e = ({ x with timeline := insertEntry e x.timeline } : Producer).applyDue r := if_pos h

/-- An entry ahead waits, after an overflow if the list is full. -/
theorem Producer.post_ahead (r : RatePair) {x : Producer} {e : TimelineEntry} (h : x.index < e.stamp) :
    x.post r e = { x.overflow r with timeline := insertEntry e (x.overflow r).timeline } := if_neg (not_le.mpr h)

theorem Producer.overflow_room (r : RatePair) {x : Producer} (h : x.timeline.length < Config.maxTimeline) : x.overflow r = x := by
  unfold Producer.overflow
  split
  · rfl
  · exact if_neg (not_le.mpr h)

theorem Producer.overflow_full (r : RatePair) {x : Producer} {first : TimelineEntry} {rest : List TimelineEntry}
    (ht : x.timeline = first :: rest) (h : Config.maxTimeline ≤ x.timeline.length) :
    x.overflow r = ({ x with timeline := rest } : Producer).apply r first := by
  unfold Producer.overflow
  rw [ht] at h ⊢
  exact if_pos h

/-- An overflow takes at most the first entry out of the list. -/
theorem Producer.overflow_timeline (r : RatePair) (x : Producer) : (x.overflow r).timeline <:+ x.timeline := by
  unfold Producer.overflow
  split
  · exact List.suffix_refl _
  · rename_i e rest ht
    split
    · rw [Producer.apply_timeline, ht]
      exact List.suffix_cons _ _
    · exact List.suffix_refl _

/-- Posting keeps the stamps in rising order. -/
theorem Producer.post_ordered (r : RatePair) (x : Producer) (e : TimelineEntry)
    (h : (x.timeline.map TimelineEntry.stamp).Pairwise (· ≤ ·)) : ((x.post r e).timeline.map TimelineEntry.stamp).Pairwise (· ≤ ·) := by
  rcases le_or_gt e.stamp x.index with hdue | hahead
  · rw [Producer.post_due r hdue, Producer.applyDue_timeline]
    exact (insertEntry_ordered e _ h).sublist (List.filter_sublist.map _)
  · rw [Producer.post_ahead r hahead]
    exact insertEntry_ordered e _ (h.sublist ((x.overflow_timeline r).sublist.map _))

/-- Settles O22: each kind of entry by its case of `Producer.apply`, due entries by `Producer.applyDue_split`, and a posted entry by
whether it is due (`Producer.post_due`, `Producer.post_ahead`) and whether the list has room (`Producer.overflow_room`,
`Producer.overflow_full`). -/
theorem timeline : Obligations.Timeline := by
  refine ⟨fun r x stamp => ⟨fun _ => rfl, fun _ => rfl, fun start new => ?settings⟩, fun r x due rest => Producer.applyDue_split r,
    fun r x e front back hfront hback => ⟨fun ht hdue => ?due, fun ht hahead hroom => ?room, fun first ht hahead hfull => ?full⟩,
    Producer.post_ordered⟩
  case settings =>
    unfold Producer.apply windowLo windowHi
    dsimp only
    congr 1
    cases new.azMode <;> rfl
  case due => rw [Producer.post_due r hdue, ht, insertEntry_split e front back hfront hback]
  case room => rw [Producer.post_ahead r hahead, Producer.overflow_room r hroom, ht, insertEntry_split e front back hfront hback]
  case full =>
    rw [Producer.post_ahead r hahead, Producer.overflow_full r ht hfull, Producer.apply_timeline,
      insertEntry_split e front back hfront hback]

end Sys2Proof.Machine
end

section
/-! SUPPORT and PROOFS. A production step from the row to the lane it leaves, said once: the body of the step, the finish of a DRAINING
lane, and the stop request the step may have made (O23). -/

namespace Sys2Proof.Machine

open Sys2Proof.Safety

/-! ## The row (06, R107, R117) -/

theorem exec_productionStep {l : Lane} {s : State} (h : mayStep s.part l) : exec (.productionStep l) s
    = .next { s with part := (s.part.laneStep s.setup s.rings s.bank l).closeTake } :=
  congrArg Host.Outcome.next (if_pos ((s.part.canStep_iff l).mpr h))

theorem exec_productionStep_waits {l : Lane} {s : State} (h : ¬mayStep s.part l) : exec (.productionStep l) s = .next s :=
  congrArg Host.Outcome.next (if_neg (mt (s.part.canStep_iff l).mp h))

/-- What keeps a lane from a step: it is IDLE, short of its horizon, drained, or stalled on a full FIFO. -/
theorem not_mayStep {p : Part} {l : Lane} (h : (p.lanes.get l).state = .idle
    ∨ (p.lanes.get l).state = .active ∧ p.hcr.nextIndex ≤ (p.lanes.get l).acc / 16777216 + 1056
    ∨ (p.lanes.get l).state = .draining ∧ (∀ r, p.take.record = some r → ∀ e, r.endIndex = some e →
        e < (p.lanes.get l).acc / 16777216 + 32)
    ∨ (p.lanes.get l).settings.source ≠ .off ∧ 1024 ≤ (p.lanes.get l).fifo.length) : ¬mayStep p l := by
  rintro ⟨ready, room⟩
  rcases h with idle | ⟨active, short⟩ | ⟨draining, drained⟩ | ⟨source, full⟩
  · rcases ready with ⟨state, -⟩ | ⟨state, -⟩ <;> rw [idle] at state <;> cases state
  · rcases ready with ⟨-, written⟩ | ⟨state, -⟩
    · omega
    · rw [active] at state; cases state
  · rcases ready with ⟨state, -⟩ | ⟨-, r, e, hr, he, reach⟩
    · rw [draining] at state; cases state
    · have := drained r hr e he; omega
  · rcases room with off | room
    · exact source off
    · omega

/-! ## CLIP (06, R113; 10, R177) -/

theorem neverStops_clip {u : Setup} (h : policiesAllowed u.policies = true) (l : Lane) : neverStops (u.policies.get (.clip l)) := by
  have allowed : (u.policies.get (.clip l)).policy ∈ [Policy.warn, .auto, .off] :=
    (policiesAllowed_iff _).mp h (.clip l) (by cases l <;> decide)
  refine ⟨fun k => ?_, fun k => ?_⟩
  · rw [k] at allowed; revert allowed; decide
  · rw [k.1] at allowed; revert allowed; decide

/-- What a frame makes of its lane's CLIP record: an occurrence sets the hold count and, unless the policy is OFF, the flag; a frame
without one counts the hold down, and at 0 under AUTO clears the flag. -/
structure CondStatus.ClipCounted (policy : Policy) (clipped : Prop) (before after : CondStatus) : Prop where
  occurs : clipped → after.hold = 4096 ∧ (policy ≠ .off → after.flag = true)
  lowers : ¬clipped → after.hold = before.hold - 1
  clears : ¬clipped → before.hold = 1 → policy = .auto → after.flag = false
  stays : ¬clipped → before.hold ≠ 1 ∨ policy ≠ .auto → after.flag = before.flag

theorem Part.clipLower_clip (u : Setup) (l : Lane) (p : Part) (clipped : Prop) (h : ¬clipped) :
    CondStatus.ClipCounted (u.policies.get (.clip l)).policy clipped (p.cmn.get (.clip l)) ((p.clipLower u l).cmn.get (.clip l)) := by
  obtain ⟨before, hbefore⟩ : ∃ c, c = p.cmn.get (.clip l) := ⟨_, rfl⟩
  rw [← hbefore]
  unfold Part.clipLower Part.clipExpire
  dsimp only
  rw [← hbefore]
  simp only [Part.setStatus_cmn, PerCond.get_set_same]
  split
  · rw [← hbefore]
    exact ⟨fun k => absurd k h, fun _ => by omega, fun _ k => by omega, fun _ _ => rfl⟩
  · split
    · rename_i expires
      simp only [Part.setStatus_cmn, PerCond.get_set_same]
      obtain ⟨zero, auto⟩ := expires
      exact ⟨fun k => absurd k h, fun _ => rfl, fun _ _ _ => rfl, fun _ k => absurd auto (k.resolve_left fun more => more (by omega))⟩
    · rename_i waits
      simp only [Part.setStatus_cmn, PerCond.get_set_same]
      exact ⟨fun k => absurd k h, fun _ => rfl, fun _ one auto => absurd ⟨by omega, auto⟩ waits, fun _ _ => rfl⟩

theorem Part.clipReport_clip (u : Setup) (l : Lane) (first second : Int) (p : Part) :
    CondStatus.ClipCounted (u.policies.get (.clip l)).policy (saturate24 first ≠ first ∨ saturate24 second ≠ second)
      (p.cmn.get (.clip l)) ((p.clipReport u l first second).cmn.get (.clip l)) := by
  unfold Part.clipReport
  split
  · rename_i clipped
    obtain ⟨c, b, m, e, flag, -, hold, -⟩ :=
      Part.raise_spec u (.clip l) (p.setStatus (.clip l) { p.cmn.get (.clip l) with hold := Config.clipHold })
    rw [Part.setStatus_cmn, PerCond.get_set_same] at hold
    unfold Part.clipOccur
    rw [e]
    exact ⟨fun _ => ⟨hold, flag⟩, fun k => absurd clipped k, fun k => absurd clipped k, fun k => absurd clipped k⟩
  · rename_i clear
    exact p.clipLower_clip u l _ clear

/-! ## The frame (06, R111 to R113; 09, R166, R174) -/

/-- At full weight a track gives its own sample (08, R146). -/
theorem mix_full (own substitute : Int) : mix own substitute 64 = own := by
  unfold mix
  omega

/-- A track with no span, full weight and no mute keeps its weight and gives its own sample (08, R146, R149). -/
theorem concealTrack_clear (settings : Settings) {muted : Bool} (frame : Nat) (own partner i j : Int) (ps : List Span) {c : Concealer}
    (hspans : c.spans = []) (hg : c.g = 64) (hmuted : muted = false) :
    (concealTrack settings muted frame own partner i j ps c).2.sample = own := by
  have affected : c.affected settings i = false := by
    unfold Concealer.affected
    rw [hspans]
    exact Bool.and_false _
  have weight : weightAfter muted (c.affected settings i) settings.policy c.g = 64 := by rw [hmuted, affected, hg]; rfl
  unfold concealTrack
  dsimp only
  rw [weight]
  exact mix_full ..

theorem Part.monitorValue_congr (u : Setup) {p q : Part} (hlanes : q.lanes = p.lanes) (hdet : q.det = p.det) :
    q.monitorValue u = p.monitorValue u := by
  unfold Part.monitorValue Part.monitorLive
  rw [hlanes, hdet]

/-- The monitor value of a frame of lane l, its production record x already brought up to date (09, R174). -/
theorem Part.monitorValue_eq (u : Setup) (l : Lane) (p : Part) (x : Producer) : (p.setProducer l x).monitorValue u
    = if u.monitor.frozen then u.monitor.value else match u.monitor.source with
      | .off => 0
      | .speed m => clampInt (-8388608) 8388607 (((if m = l then x.applied else (p.lanes.get m).applied) : Int) - u.rates.nominal)
      | .azimuth m => if m = l then x.az else (p.lanes.get m).az
      | .level tr => (p.det.get tr).level
      | .dropRef tr => (p.det.get tr).ref := by
  have lane (m : Lane) : (p.setProducer l x).lanes.get m = if m = l then x else p.lanes.get m := by
    rw [Part.setProducer_lanes]
    split
    · rename_i h; rw [h, PerLane.get_set_same]
    · rename_i h; exact PerLane.get_set_other _ _ h
  unfold Part.monitorValue
  split
  · rfl
  · unfold Part.monitorLive saturate24
    cases u.monitor.source
    case speed m => dsimp only; rw [lane]; split <;> rfl
    case azimuth m => dsimp only; rw [lane]; split <;> rfl
    all_goals rfl

/-- The frame a lane makes on the part p, its due timeline entries applied. -/
structure SampleFrame.MadeAt (u : Setup) (rings : Rings) (bank : LoadedBank) (l : Lane) (p : Part) (f : SampleFrame) : Prop where
  lane : f.lane = l
  count : f.count = (p.lanes.get l).frameCount % 65536
  applied : f.applied = (p.lanes.get l).mark
  take : f.take = p.take.number % 256
  lock : f.lock = (p.rft.get l).lock
  monitor : f.monitor = p.monitorValue u
  first : (p.con.get l.first).spans = [] → (p.con.get l.first).g = 64 → f.muted = false →
    f.first.sample = saturate24 ((p.lanes.get l).firstValue u rings bank l)
  second : (p.con.get l.second).spans = [] → (p.con.get l.second).g = 64 → f.muted = false →
    f.second.sample = saturate24 ((p.lanes.get l).secondValue u rings bank l)

/-- Saturation cuts a track's value at the lane's point (06, R113). -/
def Producer.clips (u : Setup) (rings : Rings) (bank : LoadedBank) (l : Lane) (x : Producer) : Prop :=
  saturate24 (x.firstValue u rings bank l) ≠ x.firstValue u rings bank l
    ∨ saturate24 (x.secondValue u rings bank l) ≠ x.secondValue u rings bank l

theorem Part.makeFrame_made (u : Setup) (rings : Rings) (bank : LoadedBank) (l : Lane) (p : Part) (x : Producer)
    (hx : x = p.lanes.get l) : ∃ f : SampleFrame, f.MadeAt u rings bank l p
    ∧ (p.makeFrame u rings bank l).lanes
        = p.lanes.set l { x with fifo := x.fifo ++ [f], frameCount := x.frameCount + 1, mark := false }
    ∧ (p.makeFrame u rings bank l).take = p.take
    ∧ CondStatus.ClipCounted (u.policies.get (.clip l)).policy (x.clips u rings bank l) (p.cmn.get (.clip l))
        ((p.makeFrame u rings bank l).cmn.get (.clip l))
    ∧ (neverStops (u.policies.get (.clip l)) → (p.makeFrame u rings bank l).stopPending = p.stopPending) := by
  subst hx
  obtain ⟨c, k, m, made, -, never, -⟩ := p.makeFrame_spec u rings bank l _ rfl _ _ rfl rfl _ _ rfl rfl
  obtain ⟨q, report, same⟩ : ∃ q : Part, p.makeFrame u rings bank l
      = q.clipReport u l ((p.lanes.get l).firstValue u rings bank l) ((p.lanes.get l).secondValue u rings bank l)
      ∧ q.cmn = p.cmn := ⟨_, rfl, rfl⟩
  refine ⟨_, ⟨rfl, rfl, rfl, rfl, rfl, rfl, fun hspans hg hmuted => ?_, fun hspans hg hmuted => ?_⟩, by rw [made], by rw [made], ?_,
    fun h => by rw [made]; exact never h⟩
  · exact concealTrack_clear _ (p.lanes.get l).frameCount _ _ _ _ _ hspans hg hmuted
  · exact concealTrack_clear _ (p.lanes.get l).frameCount _ _ _ _ _ hspans hg hmuted
  · rw [report, ← same]
    exact q.clipReport_clip ..

/-! ## The body of a step (06, R108, R110) -/

/-- What applying a lane's due timeline entries and writing the records of the spans it has passed leave: the production record x, every
span list that was empty, CLIP, and the stop request where LOG_FULL's policy makes none. -/
structure Part.Readied (u : Setup) (l : Lane) (x : Producer) (p w : Part) : Prop where
  lanes : w.lanes = p.lanes.set l x
  take : w.take = p.take
  rft : w.rft = p.rft
  det : w.det = p.det
  spans : ∀ tr : Track, tr.lane = l → (p.con.get tr).spans = [] → (w.con.get tr).spans = [] ∧ (w.con.get tr).g = (p.con.get tr).g
  clip : w.cmn.get (.clip l) = p.cmn.get (.clip l)
  stop : neverStops u.policies.logFull → w.stopPending = p.stopPending

theorem Part.readied (u : Setup) (l : Lane) (p : Part) (x : Producer) : p.Readied u l x ((p.setProducer l x).writePassed u l) := by
  obtain ⟨g, c, b, m, con, e, first, second, -, conds, stop⟩ := (p.setProducer l x).writePassed_touch u l x (by simp)
  rw [e]
  refine ⟨rfl, rfl, rfl, rfl, fun tr htr h => ?_, conds _ (by simp), stop⟩
  rcases Lane.track_cases htr with rfl | rfl
  · dsimp only
    rw [first]
    exact ⟨by simp [h], rfl⟩
  · dsimp only
    rw [second]
    exact ⟨by simp [h], rfl⟩

/-- A frame made once the records of spans passed are written, told of the part before they were. -/
theorem Part.Readied.made {u : Setup} {rings : Rings} {bank : LoadedBank} {l : Lane} {x : Producer} {p w : Part} {f : SampleFrame}
    (h : p.Readied u l x w) (made : f.MadeAt u rings bank l w) : f.MadeAt u rings bank l (p.setProducer l x) := by
  have lane : w.lanes.get l = (p.setProducer l x).lanes.get l := by rw [h.lanes]; rfl
  obtain ⟨hlane, count, applied, take, lock, monitor, first, second⟩ := made
  rw [lane] at count applied first second
  refine ⟨hlane, count, applied, by rw [take, h.take]; rfl, by rw [lock, h.rft]; rfl,
    monitor.trans (Part.monitorValue_congr u h.lanes h.det), fun hspans hg => ?_, fun hspans hg => ?_⟩
  · obtain ⟨empty, weight⟩ := h.spans _ (Lane.first_lane l) hspans
    exact first empty (weight.trans hg)
  · obtain ⟨empty, weight⟩ := h.spans _ (Lane.second_lane l) hspans
    exact second empty (weight.trans hg)

/-- A lane after the body of a step that makes the frame f where it makes one: under OFF it only advances, out of OFF to a full FIFO it
does not advance. -/
def Producer.stepped (f : SampleFrame) (x : Producer) : Producer :=
  if x.settings.source = .off then { x with acc := x.acc + x.applied }
  else if x.fifo.length < Config.maxFifo then
    { x with fifo := x.fifo ++ [f], frameCount := x.frameCount + 1, mark := false, acc := x.acc + x.applied }
  else x

theorem Producer.stepped_off (f : SampleFrame) {x : Producer} (h : x.settings.source = .off) :
    x.stepped f = { x with acc := x.acc + x.applied } := if_pos h

theorem Producer.stepped_full (f : SampleFrame) {x : Producer} (h : x.settings.source ≠ .off) (hfull : Config.maxFifo ≤ x.fifo.length) :
    x.stepped f = x := (if_neg h).trans (if_neg (not_lt.mpr hfull))

theorem Producer.stepped_frame (f : SampleFrame) {x : Producer} (h : x.settings.source ≠ .off) (hroom : x.fifo.length < Config.maxFifo) :
    x.stepped f = { x with fifo := x.fifo ++ [f], frameCount := x.frameCount + 1, mark := false, acc := x.acc + x.applied } :=
  (if_neg h).trans (if_pos hroom)

/-- The body of a step leaves the lane's production record, its state and the entries still waiting. -/
theorem Producer.stepped_keeps (f : SampleFrame) (x : Producer) : (x.stepped f).applied = x.applied ∧ (x.stepped f).az = x.az
    ∧ (x.stepped f).settings = x.settings ∧ (x.stepped f).governing = x.governing ∧ (x.stepped f).state = x.state
    ∧ (x.stepped f).timeline = x.timeline := by
  unfold Producer.stepped
  split
  · exact ⟨rfl, rfl, rfl, rfl, rfl, rfl⟩
  · split <;> exact ⟨rfl, rfl, rfl, rfl, rfl, rfl⟩

theorem Part.advanceLane_get {l : Lane} {p : Part} {x : Producer} (h : p.lanes.get l = x) :
    (p.advanceLane l).lanes.get l = { x with acc := x.acc + x.applied } := by
  subst h
  exact PerLane.get_set_same ..

/-- What the body of a step makes of its lane, with the frame f where it makes one, of CLIP and of the stop request; x is the lane after
its due timeline entries. -/
structure Part.Stepped (u : Setup) (rings : Rings) (bank : LoadedBank) (l : Lane) (x : Producer) (f : SampleFrame) (p q : Part) : Prop where
  lane : q.lanes.get l = x.stepped f
  take : q.take = p.take
  frame : x.settings.source ≠ .off → x.fifo.length < Config.maxFifo → f.MadeAt u rings bank l (p.setProducer l x)
    ∧ CondStatus.ClipCounted (u.policies.get (.clip l)).policy (x.clips u rings bank l) (p.cmn.get (.clip l)) (q.cmn.get (.clip l))
  stop : neverStops u.policies.logFull → neverStops (u.policies.get (.clip l)) → q.stopPending = p.stopPending

theorem Part.stepLane_spec (u : Setup) (rings : Rings) (bank : LoadedBank) (l : Lane) (p : Part) {x : Producer}
    (hx : x = (p.lanes.get l).applyDue u.rates) : ∃ f, p.Stepped u rings bank l x f (p.stepLane u rings bank l) := by
  obtain ⟨w, hw⟩ : ∃ w, w = (p.setProducer l x).writePassed u l := ⟨_, rfl⟩
  have ready : p.Readied u l x w := hw ▸ p.readied u l x
  have lane : w.lanes.get l = x := by rw [ready.lanes]; exact PerLane.get_set_same ..
  have body : p.stepLane u rings bank l = if x.settings.source = .off then (w.chooseSources u l).advanceLane l
      else if x.fifo.length < Config.maxFifo then (w.makeFrame u rings bank l).advanceLane l else w.chooseSources u l := by
    rw [← lane, hw, hx]
    rfl
  obtain ⟨f, made, lanes, take, clip, stop⟩ := w.makeFrame_made u rings bank l x lane.symm
  refine ⟨f, ?_⟩
  rw [body]
  split
  case isTrue off =>
    exact ⟨(Part.advanceLane_get lane).trans (x.stepped_off f off).symm, ready.take, fun on => absurd off on, fun h _ => ready.stop h⟩
  case isFalse on =>
    split
    case isTrue room =>
      have framed : (w.makeFrame u rings bank l).lanes.get l
          = { x with fifo := x.fifo ++ [f], frameCount := x.frameCount + 1, mark := false } := by rw [lanes, PerLane.get_set_same]
      exact ⟨(Part.advanceLane_get framed).trans (Producer.stepped_frame f on room).symm, take.trans ready.take,
        fun _ _ => ⟨ready.made made, ready.clip ▸ clip⟩, fun h k => (stop k).trans (ready.stop h)⟩
    case isFalse full =>
      exact ⟨lane.trans (Producer.stepped_full f on (not_lt.mp full)).symm, ready.take, fun _ room => absurd room full,
        fun h _ => ready.stop h⟩

/-! ## The stop request and the finish (02, R38; 06, R118; 09, R162) -/

/-- What the end of an operation leaves of lane l: all but its state and its timeline, all of it where it is not ACTIVE, every span list
that was empty, and CLIP. -/
structure Part.SparesLane (l : Lane) (p q : Part) : Prop where
  kept : ∃ state timeline, q.lanes.get l = { p.lanes.get l with state := state, timeline := timeline }
  stays : (p.lanes.get l).state ≠ .active → q.lanes.get l = p.lanes.get l
  spans : ∀ tr : Track, tr.lane = l → (p.con.get tr).spans = [] → (q.con.get tr).spans = []
  clip : q.cmn.get (.clip l) = p.cmn.get (.clip l)

theorem Part.SparesLane.of_same {l : Lane} {p q : Part} (hlanes : q.lanes.get l = p.lanes.get l) (hcon : q.con = p.con)
    (hclip : q.cmn.get (.clip l) = p.cmn.get (.clip l)) : p.SparesLane l q :=
  ⟨⟨(p.lanes.get l).state, (p.lanes.get l).timeline, hlanes⟩, fun _ => hlanes, fun _ _ h => hcon ▸ h, hclip⟩

theorem Part.SparesLane.refl (l : Lane) (p : Part) : p.SparesLane l p := .of_same rfl rfl rfl

theorem Part.SparesLane.trans {l : Lane} {p q r : Part} (h : p.SparesLane l q) (k : q.SparesLane l r) : p.SparesLane l r := by
  obtain ⟨_, _, hkept⟩ := h.kept
  obtain ⟨state, timeline, kept⟩ := k.kept
  refine ⟨⟨state, timeline, by rw [kept, hkept]⟩, fun rests => ?_, fun tr ht he => k.spans tr ht (h.spans tr ht he), k.clip.trans h.clip⟩
  have same := h.stays rests
  exact (k.stays (same ▸ rests)).trans same

/-- A lane, this or the other, at the end of a take. -/
theorem Part.sparesLane_laneTakeEnd (u : Setup) (l m : Lane) (p : Part) : p.SparesLane l (p.laneTakeEnd u m) := by
  obtain ⟨spent, hs⟩ : ∃ spent : Prop, spent ↔ ∀ r, p.take.record = some r → ∀ e, r.endIndex = some e →
      e < (p.lanes.get m).acc / 16777216 + 32 := ⟨_, Iff.rfl⟩
  obtain ⟨g, c, b, n, con, x, e, finishes, drains, stays, conds⟩ := p.laneTakeEnd_lane u m spent hs
  have lanes : (p.laneTakeEnd u m).lanes = p.lanes.set m x := by rw [e]
  have clip : (p.laneTakeEnd u m).cmn.get (.clip l) = p.cmn.get (.clip l) := by rw [e]; exact conds _ (by simp)
  have spans (tr : Track) (h : (p.con.get tr).spans = []) : ((p.laneTakeEnd u m).con.get tr).spans = [] := by
    obtain ⟨-, emptied, kept⟩ := p.laneTakeEnd_con u m tr spent hs
    by_cases k : tr.lane = m ∧ (p.lanes.get m).state = .active ∧ spent
    · exact emptied k.1 k.2.1 k.2.2
    · rw [not_and_or, not_and_or] at k
      rw [kept k, h]
  by_cases hm : l = m
  · subst hm
    have lane : (p.laneTakeEnd u l).lanes.get l = x := by rw [lanes, PerLane.get_set_same]
    rw [← lane] at finishes drains stays
    refine ⟨?_, stays, fun tr _ => spans tr, clip⟩
    by_cases active : (p.lanes.get l).state = .active
    · by_cases k : spent
      · exact ⟨_, _, finishes active k⟩
      · exact ⟨_, _, drains active k⟩
    · exact ⟨_, _, stays active⟩
  · have same : (p.laneTakeEnd u m).lanes.get l = p.lanes.get l := by rw [lanes, PerLane.get_set_other _ _ hm]
    exact ⟨⟨_, _, same⟩, fun _ => same, fun tr _ => spans tr, clip⟩

theorem truncateDropout_nil (endIndex : Option Nat) (d : Detector) : (truncateDropout endIndex d []).2 = [] := by
  unfold truncateDropout
  dsimp only
  split <;> rfl

theorem Part.sparesLane_takeTeardown (u : Setup) (endIndex : Option Nat) (l : Lane) (p : Part) :
    p.SparesLane l (p.takeTeardown u endIndex) := by
  have tracker (m : Lane) (q : Part) : q.SparesLane l (q.trackerTakeEnd u endIndex m) := by
    obtain ⟨c, n, e, -, -, -, conds⟩ := q.trackerTakeEnd_exact u endIndex m
    rw [e]
    exact .of_same rfl rfl (conds _ (by simp) (by simp))
  have aligner (m : Lane) (q : Part) : q.SparesLane l (q.alignerTakeEnd m) := .of_same rfl rfl rfl
  have detectors (q : Part) : q.SparesLane l (q.detectorsTakeEnd endIndex) := by
    obtain ⟨d, c, e, tracks⟩ := q.detectorsTakeEnd_spec endIndex
    rw [e]
    refine ⟨⟨_, _, rfl⟩, fun _ => rfl, fun tr _ h => ?_, rfl⟩
    dsimp only
    rw [(tracks tr).2, h, truncateDropout_nil]
  have refind (q : Part) : q.SparesLane l (q.refind u) := .of_same rfl rfl rfl
  exact (((tracker .a p).trans (tracker .b _)).trans (((aligner .a _).trans (aligner .b _)).trans (detectors _))).trans
    ((refind _).trans ((Part.sparesLane_laneTakeEnd u l .a _).trans (Part.sparesLane_laneTakeEnd u l .b _)))

theorem Part.sparesLane_takeEnd (u : Setup) (l : Lane) (c : TakeCause) (p : Part) : p.SparesLane l (p.takeEnd u c) := by
  obtain ⟨x, whole, hx⟩ : ∃ x : Part, p.takeEnd u c = x.takeTeardown u p.lastWritten ∧ p.SparesLane l x :=
    ⟨_, rfl, .of_same rfl rfl rfl⟩
  rw [whole]
  exact hx.trans (x.sparesLane_takeTeardown u _ l)

theorem Part.sparesLane_surveyEnd (l : Lane) (p : Part) : p.SparesLane l p.surveyEnd := by
  obtain ⟨r, stops, -⟩ := Part.surveyStop_spec { p with hcr := { p.hcr with capturing := false } }
  unfold Part.surveyEnd
  rw [stops]
  exact .of_same rfl rfl rfl

theorem Part.sparesLane_endOperation (u : Setup) (l : Lane) (e : Ending) (p : Part) : p.SparesLane l (p.endOperation u e) := by
  unfold Part.endOperation
  split
  · exact .refl l p
  obtain ⟨op, hop⟩ : ∃ op : OpRecord, op = { p.trc.op with phase := none, ending := some e } := ⟨_, rfl⟩
  obtain ⟨c, t, settles, -, -, -, -, -, conds, -⟩ := (p.setOp op).enterSettling_parts u
  obtain ⟨q, hq⟩ : ∃ q : Part, q = (p.setOp op).enterSettling u := ⟨_, rfl⟩
  have spares : p.SparesLane l q := by rw [hq, settles]; exact .of_same rfl rfl (conds _ (by simp))
  dsimp only
  rw [← hop, ← hq]
  split
  · exact spares.trans (q.sparesLane_takeEnd u l _)
  · exact spares.trans (q.sparesLane_surveyEnd l)
  · exact spares

theorem Part.sparesLane_takeStop (u : Setup) (l : Lane) (p : Part) : p.SparesLane l (p.takeStop u) :=
  Part.takeStop_induction u (fun _ _ h => h.trans (.of_same rfl rfl rfl)) (fun e q h => h.trans (q.sparesLane_endOperation u l e))
    (.refl l p)

/-- After the body of a step, the finish of a DRAINING lane whose next point is too near the end raw index, and the stop request taken. -/
theorem Part.takeStop_finishIfDone (u : Setup) (l : Lane) (q : Part) (finishes : Prop)
    (hf : finishes ↔ (q.lanes.get l).state = .draining ∧ ∀ r, q.take.record = some r → ∀ e, r.endIndex = some e →
      e < (q.lanes.get l).acc / 16777216 + 32) :
    (¬finishes → (q.finishIfDone u l).takeStop u = q.takeStop u)
    ∧ (finishes → ((q.finishIfDone u l).takeStop u).lanes.get l = { q.lanes.get l with state := .idle, timeline := [] }
      ∧ (∀ tr : Track, tr.lane = l → (((q.finishIfDone u l).takeStop u).con.get tr).spans = [])
      ∧ ((q.finishIfDone u l).takeStop u).cmn.get (.clip l) = q.cmn.get (.clip l)) := by
  obtain ⟨no, yes⟩ := q.finishIfDone_spec u l finishes hf
  refine ⟨fun h => by rw [no h], fun h => ?_⟩
  obtain ⟨g, c, b, m, con, e, emptied, -, conds, -⟩ := yes h
  obtain ⟨w, hw⟩ : ∃ w, w = q.finishIfDone u l := ⟨_, rfl⟩
  rw [← hw] at e ⊢
  have lane : w.lanes.get l = { q.lanes.get l with state := .idle, timeline := [] } := by rw [e]; exact PerLane.get_set_same ..
  have spares := w.sparesLane_takeStop u l
  refine ⟨(spares.stays (by rw [lane]; nofun)).trans lane, fun tr ht => spares.spans tr ht ?_, spares.clip.trans ?_⟩
  · rw [e]
    dsimp only
    rw [emptied tr ht]
  · rw [e]
    exact conds _ (by simp)

/-! ## The whole step -/

/-- What a production step leaves of its lane, y the lane after the body of the step and q the part it leaves. -/
structure Part.StepEnds (u : Setup) (l : Lane) (y : Producer) (p q : Part) : Prop where
  kept : ∃ state timeline, q.lanes.get l = { y with state := state, timeline := timeline }
  drained : y.state = .draining → ∀ r e, p.take.record = some r → r.endIndex = some e → e < y.acc / 16777216 + 32 →
    (q.lanes.get l).state = .idle ∧ (q.lanes.get l).timeline = [] ∧ ∀ tr : Track, tr.lane = l → (q.con.get tr).spans = []
  drains : y.state = .draining → ∀ r e, p.take.record = some r → r.endIndex = some e → y.acc / 16777216 + 32 ≤ e → q.lanes.get l = y
  active : y.state = .active → p.stopPending = false → policiesAllowed u.policies = true → neverStops u.policies.logFull →
    q.lanes.get l = y

theorem Part.laneStep_spec (u : Setup) (rings : Rings) (bank : LoadedBank) (l : Lane) (p : Part) {x : Producer}
    (hx : x = (p.lanes.get l).applyDue u.rates) : ∃ f,
    p.StepEnds u l (x.stepped f) (p.laneStep u rings bank l).closeTake
    ∧ (p.laneStep u rings bank l).closeTake.pos = p.pos
    ∧ (x.settings.source ≠ .off → x.fifo.length < Config.maxFifo → f.MadeAt u rings bank l (p.setProducer l x)
      ∧ CondStatus.ClipCounted (u.policies.get (.clip l)).policy (x.clips u rings bank l) (p.cmn.get (.clip l))
          ((p.laneStep u rings bank l).closeTake.cmn.get (.clip l))) := by
  obtain ⟨f, body⟩ := p.stepLane_spec u rings bank l hx
  have works := (p.works_stepLane u rings bank l).trans (Part.works_finishIfDone u l _)
  obtain ⟨q, hq⟩ : ∃ q, q = p.stepLane u rings bank l := ⟨_, rfl⟩
  rw [← hq] at body works
  obtain ⟨lane, take, frame, stop⟩ := body
  have whole : p.laneStep u rings bank l = (q.finishIfDone u l).takeStop u := by rw [hq]; rfl
  obtain ⟨k, m, close⟩ := (p.laneStep u rings bank l).closeTake_spec
  rw [close, whole]
  obtain ⟨finishes, hf⟩ : ∃ finishes : Prop, finishes ↔ (q.lanes.get l).state = .draining ∧ ∀ r, q.take.record = some r →
    ∀ e, r.endIndex = some e → e < (q.lanes.get l).acc / 16777216 + 32 := ⟨_, Iff.rfl⟩
  obtain ⟨goes, finished⟩ := q.takeStop_finishIfDone u l finishes hf
  rw [lane, take] at hf
  rw [lane] at finished
  have spares := q.sparesLane_takeStop u l
  have clip : ((q.finishIfDone u l).takeStop u).cmn.get (.clip l) = q.cmn.get (.clip l) := by
    by_cases h : finishes
    · exact (finished h).2.2
    · rw [goes h]; exact spares.clip
  refine ⟨f, ⟨?kept, fun draining r e hr he near => ?drained, fun draining r e hr he far => ?drains, fun active still allowed never => ?active⟩,
    (Part.takeStop_pos u _).trans works.pos, fun on room => ?frame⟩
  case kept =>
    by_cases h : finishes
    · exact ⟨_, _, (finished h).1⟩
    · obtain ⟨state, timeline, kept⟩ := spares.kept
      exact ⟨state, timeline, by rw [goes h, kept, lane]⟩
  case drained =>
    obtain ⟨idle, empty, -⟩ := finished (hf.mpr ⟨draining, fun r' hr' e' he' => by
      rw [hr] at hr'; cases hr'; rw [he] at he'; cases he'; exact near⟩)
    exact ⟨by rw [idle], by rw [idle], empty⟩
  case drains =>
    have goesOn : ¬finishes := fun h => absurd ((hf.mp h).2 r hr e he) (by omega)
    rw [goes goesOn]
    exact (spares.stays (by rw [lane, draining]; nofun)).trans lane
  case active =>
    have goesOn : ¬finishes := fun h => absurd (active.symm.trans (hf.mp h).1) nofun
    have pending : q.stopPending = false := (stop never (neverStops_clip allowed l)).trans still
    rw [goes goesOn, Part.takeStop_none u pending]
    exact lane
  case frame =>
    rw [clip]
    exact frame on room

/-- Settles O23: the lane after the step is the stepped one but for its state and timeline (`Part.laneStep_spec`), which
`Producer.stepped` says case by case; a lane that may not step is `not_mayStep`. -/
theorem productionStep_spec : Obligations.ProductionStep := by
  refine ⟨fun l s may x first second hx hfirst hsecond => ?steps, fun l s h => exec_productionStep_waits (not_mayStep h)⟩
  obtain ⟨f, ⟨kept, drained, drains, active⟩, pos, frame⟩ := s.part.laneStep_spec s.setup s.rings s.bank l hx
  obtain ⟨t, ht⟩ : ∃ t, t = (s.part.laneStep s.setup s.rings s.bank l).closeTake := ⟨_, rfl⟩
  rw [← ht] at kept drained drains active pos frame
  have state : x.state = (s.part.lanes.get l).state := by rw [hx]; exact Producer.applyAll_state ..
  have value1 : x.firstValue s.setup s.rings s.bank l = first := hfirst.symm
  have value2 : x.secondValue s.setup s.rings s.bank l = second := (x.secondValue_eq ..).trans hsecond.symm
  have fifo : x.fifo = (s.part.lanes.get l).fifo := by rw [hx]; exact Producer.applyDue_fifo ..
  obtain ⟨state', timeline', after⟩ := kept
  obtain ⟨applied, az, settings, governing, stepState, stepTimeline⟩ := x.stepped_keeps f
  have acc : (t.lanes.get l).acc = (x.stepped f).acc := by rw [after]
  refine ⟨{ s with part := t }, by rw [ht]; exact exec_productionStep may, rfl, rfl, rfl, pos, by rw [after]; exact applied,
    by rw [after]; exact az, by rw [after]; exact settings, by rw [after]; exact governing, fun off => ?off, fun on full => ?full,
    fun on room => ⟨?acc, ?count, ?mark, ⟨f, ?fifo, ?frame⟩, ?clip⟩, fun draining r e hr he => ⟨fun near => ?finishes, fun far => ?goesOn⟩,
    fun ha still allowed never => ?active⟩
  case off =>
    rw [after, Producer.stepped_off f off]
    exact ⟨rfl, rfl, rfl, rfl⟩
  case full =>
    rw [after, Producer.stepped_full f on full]
    exact ⟨rfl, rfl, rfl, rfl⟩
  case acc => rw [after, Producer.stepped_frame f on room]
  case count => rw [after, Producer.stepped_frame f on room]
  case mark => rw [after, Producer.stepped_frame f on room]
  case fifo => rw [after, Producer.stepped_frame f on room, ← fifo]
  case clip =>
    rintro before after' clipped hbefore hafter hclipped
    obtain ⟨-, occurs, lowers, clears, stays⟩ := frame on room
    have cut : clipped ↔ x.clips s.setup s.rings s.bank l := by rw [hclipped, Producer.clips, value1, value2]
    rw [hbefore, hafter, cut]
    exact ⟨occurs, fun clear => ⟨lowers clear, clears clear, stays clear⟩⟩
  case finishes =>
    rw [acc] at near
    obtain ⟨idle, empty, spans⟩ := drained (stepState.trans (state.trans draining)) r e hr he near
    exact ⟨idle, empty, spans _ (Lane.first_lane l), spans _ (Lane.second_lane l)⟩
  case goesOn =>
    rw [acc] at far
    rw [drains (stepState.trans (state.trans draining)) r e hr he far]
    exact ⟨stepState.trans (state.trans draining), stepTimeline⟩
  case active =>
    rw [active (stepState.trans (state.trans ha)) still allowed never]
    exact ⟨stepState.trans (state.trans ha), stepTimeline⟩
  case frame =>
    obtain ⟨⟨lane, count, mark, take, lock, monitor, clear1, clear2⟩, -⟩ := frame on room
    rw [Part.setProducer_lanes, PerLane.get_set_same] at count mark clear1 clear2
    rw [value1] at clear1
    rw [value2] at clear2
    exact ⟨lane, count, mark, take, lock, monitor.trans (Part.monitorValue_eq ..), fun h1 h2 hm => ⟨fun hg => clear1 h1 hg hm,
      fun hg => clear2 h2 hg hm⟩⟩

end Sys2Proof.Machine
end

section
/-! SUPPORT and PROOFS. LOAD_COEFF_ROW, SELECT_BANK and SET_MONITOR: the loaded bank row by row, and what each of the three owners
answers (O9, O10). -/

namespace Sys2Proof.Machine

open Sys2Proof.Safety

/-! ## The loaded bank, row by row (06, R114 to R116) -/

theorem LoadedBank.row_writeRow_same {b : LoadedBank} (r : Nat) {stored : List Int} (hlen : stored.length = 32)
    (hwf : b.coeffs.wf = true) : (b.writeRow r stored).row r = stored := by
  refine List.ext_getElem (by simp [LoadedBank.row, hlen]) fun j hj hj' => ?_
  simp only [LoadedBank.row, List.getElem_map, List.getElem_range]
  exact Memory.read_writeFrom_inside _ stored hwf j hj'

theorem LoadedBank.row_writeRow_other (b : LoadedBank) {r m : Nat} {stored : List Int} (hlen : stored.length = 32) (h : m ≠ r) :
    (b.writeRow r stored).row m = b.row m := by
  refine List.map_congr_left fun j hj => Memory.read_writeFrom_outside _ _ _ _ ?_
  have inRow : j < 32 := List.mem_range.mp hj
  omega

theorem LoadedBank.full_iff (b : LoadedBank) : b.full = true ↔ ∀ r < 256, b.written.read r ≠ 0 := by
  simp [LoadedBank.full]

/-! ## Clamped coefficients (06, R115) -/

theorem clampInt_eq_self_iff {lo hi v : Int} (h : lo ≤ hi) : clampInt lo hi v = v ↔ lo ≤ v ∧ v ≤ hi := by
  constructor
  · intro same
    exact same ▸ clampInt_bounds h v
  · rintro ⟨above, below⟩
    exact (if_neg (not_lt.mpr above)).trans (if_neg (not_lt.mpr below))

/-- The coefficients of a row as the bank stores them. -/
def storedCoeffs (coeffs : List (BitVec 24)) : List Int := (coeffs.map BitVec.toInt).map (clampInt (-524288) 524287)

/-- The bank stores a row as sent exactly where every coefficient was in range. -/
theorem storedCoeffs_unchanged (coeffs : List (BitVec 24)) :
    storedCoeffs coeffs = coeffs.map BitVec.toInt ↔ ∀ c ∈ coeffs, -524288 ≤ c.toInt ∧ c.toInt ≤ 524287 := by
  unfold storedCoeffs
  rw [List.map_map, List.map_inj_left]
  exact forall₂_congr fun c _ => clampInt_eq_self_iff (by decide)

/-! ## A lane producing (06, R105) -/

theorem Part.producing_iff (p : Part) : p.producing = true ↔ p.lanes.a.state ≠ .idle ∨ p.lanes.b.state ≠ .idle := by
  simp [Part.producing, Producer.producing]

theorem Part.producing_idle {p : Part} (ha : p.lanes.a.state = .idle) (hb : p.lanes.b.state = .idle) : p.producing = false :=
  Bool.eq_false_of_not_eq_true fun busy => ((p.producing_iff.mp busy).elim (· ha) (· hb))

/-! ## LOAD_COEFF_ROW (06, R115) -/

/-- A command whose list has its one length is taken as any other. -/
theorem portSized_sized (k : Cmd) (tag : Byte) {sized : Bool} (owner : State → Answer) (s : State) (h : sized = true) :
    portSized k tag sized owner s = portCommand k tag owner s := by
  subst h
  rfl

theorem exec_loadCoeffRow (tag row : Byte) {coeffs : List (BitVec 24)} (s : State) (h : coeffs.length = 32) :
    exec (.loadCoeffRow tag row coeffs) s = .next (portCommand .loadCoeffRow tag (ownLoadCoeffRow row coeffs) s) :=
  congrArg _ (portSized_sized _ _ _ _ (by rw [h]; rfl))

theorem ownLoadCoeffRow_busy (row : Byte) (coeffs : List (BitVec 24)) {s : State} (h : s.part.producing = true) :
    ownLoadCoeffRow row coeffs s = ⟨s, .busy, []⟩ := if_pos h

theorem ownLoadCoeffRow_idle (row : Byte) (coeffs : List (BitVec 24)) {s : State} (h : s.part.producing = false) :
    ownLoadCoeffRow row coeffs s = ⟨{ s with bank := s.bank.writeRow row.toNat (storedCoeffs coeffs) },
      adjustedIf (decide (storedCoeffs coeffs ≠ coeffs.map BitVec.toInt)), []⟩ := if_neg (by rw [h]; nofun)

/-- Settles O9: the owner stores the clamped row (`ownLoadCoeffRow_idle`), which the bank then reads back, every other row as before
(`LoadedBank.row_writeRow_same`, `LoadedBank.row_writeRow_other`). -/
theorem loadCoeffRow : Obligations.LoadCoeffRow := by
  intro tag row coeffs s hr hlen
  rw [exec_loadCoeffRow tag row s hlen]
  have stored : (storedCoeffs coeffs).length = 32 := by simp [storedCoeffs, hlen]
  refine ⟨fun hd => congrArg _ ?outside, fun hd busy => congrArg _ ?busy, fun hd ha hb hcoeffs hwritten =>
    ⟨s.bank.writeRow row.toNat (storedCoeffs coeffs), congrArg _ ?taken, ?row, fun r h => ?otherRow, ?mark, fun r h => ?otherMark⟩⟩
  case outside => exact portCommand_wrongState _ _ _ _ hr (Cmd.admitted_configureOnly rfl rfl hd)
  case busy =>
    exact portCommand_answered tag hr (hd ▸ Cmd.admitted_configure _) (ownLoadCoeffRow_busy row coeffs (s.part.producing_iff.mpr busy))
  case taken =>
    refine (portCommand_answered tag hr (hd ▸ Cmd.admitted_configure _)
      (ownLoadCoeffRow_idle row coeffs (Part.producing_idle ha hb))).trans ?_
    rw [adjustedIf_changed _ _ _ (storedCoeffs_unchanged coeffs)]
    rfl
  case row => exact (LoadedBank.row_writeRow_same _ stored hcoeffs).trans (List.map_map ..)
  case otherRow => exact s.bank.row_writeRow_other stored h
  case mark => exact Memory.read_write_mark _ _ _ one_ne_zero
  case otherMark => exact Memory.read_write_other _ _ h

/-! ## SELECT_BANK (06, R116) -/

theorem ownSelectBank_badValue {bank : Byte} (s : State) (h : 2 ≤ bank.toNat) : ownSelectBank bank s = ⟨s, .badValue, []⟩ := by
  unfold ownSelectBank bankOfCode
  rw [flagOf_eq_none bank h]
  rfl

/-- A selection that names a bank, over its two checks. -/
theorem ownSelectBank_named {bank : Byte} {loaded : Bool} (s : State) (h : flagOf bank = some loaded) : ownSelectBank bank s
    = if s.part.producing then ⟨s, .busy, []⟩
      else if loaded && !s.bank.full then ⟨s, .conflict, []⟩
      else ⟨{ s with setup := { s.setup with bankLoaded := loaded } }, .ok, []⟩ := by
  unfold ownSelectBank bankOfCode
  rw [h]
  rfl

theorem ownSelectBank_busy {bank : Byte} {s : State} (h : bank.toNat ≤ 1) (busy : s.part.producing = true) :
    ownSelectBank bank s = ⟨s, .busy, []⟩ := by
  rcases byte_zero_or_one bank h with rfl | rfl
  · exact (ownSelectBank_named s rfl).trans (if_pos busy)
  · exact (ownSelectBank_named s rfl).trans (if_pos busy)

theorem ownSelectBank_conflict {s : State} (still : s.part.producing = false) (h : s.bank.full = false) :
    ownSelectBank 1 s = ⟨s, .conflict, []⟩ := by
  rw [ownSelectBank_named s (loaded := true) rfl, still, h]
  rfl

theorem ownSelectBank_selects {bank : Byte} {loaded : Bool} {s : State} (h : flagOf bank = some loaded)
    (still : s.part.producing = false) (full : loaded = true → s.bank.full = true) :
    ownSelectBank bank s = ⟨{ s with setup := { s.setup with bankLoaded := loaded } }, .ok, []⟩ := by
  rw [ownSelectBank_named s h, still]
  cases loaded
  · rfl
  · rw [full rfl]
    rfl

/-! ## SET_MONITOR (09, R174, R175) -/

/-- A byte outside the thirteen codes names no source. -/
theorem MonitorSource.ofCode_none {source : Byte} (h : 13 ≤ source.toNat) : MonitorSource.ofCode source = none := by
  unfold MonitorSource.ofCode
  split
  case h_14 => rfl
  all_goals omega

theorem ownSetMonitor_badValue {source freeze : Byte} (s : State) (h : 13 ≤ source.toNat ∨ 2 ≤ freeze.toNat) :
    ownSetMonitor source freeze s = ⟨s, .badValue, []⟩ := by
  unfold ownSetMonitor
  rcases h with h | h
  · rw [MonitorSource.ofCode_none h]
    rfl
  · rw [flagOf_eq_none freeze h]
    cases MonitorSource.ofCode source <;> rfl

theorem ownSetMonitor_selects {source freeze : Byte} {src : MonitorSource} {frozen : Bool} (s : State)
    (hs : MonitorSource.ofCode source = some src) (hf : flagOf freeze = some frozen) :
    ownSetMonitor source freeze s = ⟨{ s with setup := { s.setup with
      monitor := ⟨src, frozen, if frozen then s.part.monitorLive s.setup src else s.setup.monitor.value⟩ } }, .ok, []⟩ := by
  unfold ownSetMonitor
  rw [hs, hf]
  rfl

/-- Settles O10: each command is its owner's answer, and the owner's checks come in the order of the clauses (`ownSelectBank_named`,
`ownSetMonitor_selects`). -/
theorem selections : Obligations.Selections := by
  refine ⟨fun tag bank s hr hd => ?selectBank, fun tag source freeze s hr => ?setMonitor⟩
  case selectBank =>
    have selects {t : State} {code : ReplyCode} (ho : ownSelectBank bank s = ⟨t, code, []⟩) :
        exec (.selectBank tag bank) s = .next (withReply t 0x08 tag code []) :=
      congrArg _ (portCommand_answered tag hr (hd ▸ Cmd.admitted_configure _) ho)
    refine ⟨fun h => selects (ownSelectBank_badValue s h), fun h busy => selects (ownSelectBank_busy h (s.part.producing_iff.mpr busy)),
      fun ha hb => ⟨fun h => ?builtIn, fun h unwritten => ?conflict, fun h written => ?loaded⟩⟩
    case builtIn => exact selects (ownSelectBank_selects (h ▸ rfl) (Part.producing_idle ha hb) nofun)
    case conflict =>
      obtain ⟨r, hrow, hread⟩ := unwritten
      subst h
      exact selects (ownSelectBank_conflict (Part.producing_idle ha hb)
        (Bool.eq_false_of_not_eq_true fun full => s.bank.full_iff.mp full r hrow hread))
    case loaded =>
      exact selects (ownSelectBank_selects (h ▸ rfl) (Part.producing_idle ha hb) fun _ => s.bank.full_iff.mpr written)
  case setMonitor =>
    have sets (hd : s.part.take.device ≠ .standby) {t : State} {code : ReplyCode}
        (ho : ownSetMonitor source freeze s = ⟨t, code, []⟩) : exec (.setMonitor tag source freeze) s = .next (withReply t 0x19 tag code []) :=
      congrArg _ (portCommand_answered tag hr (Cmd.admitted_outsideStandby rfl hd) ho)
    exact ⟨fun hd => congrArg _ (portCommand_wrongState _ _ _ _ hr (hd ▸ rfl)), fun hd bad => sets hd (ownSetMonitor_badValue s bad),
      fun src hd hs => ⟨fun h => sets hd (ownSetMonitor_selects (frozen := false) s hs (h ▸ rfl)),
        fun h => sets hd (ownSetMonitor_selects (frozen := true) s hs (h ▸ rfl))⟩⟩

end Sys2Proof.Machine
end

section
/-! SUPPORT and PROOFS. An upstream slot by its claimant: a message, the sample frame of the lane served, a link-check frame or an
idle frame, and the production step of a lane that the removal frees from its stall (O55). -/

namespace Sys2Proof.Machine

open Sys2Proof.Safety

/-! ## Messages waiting (09, R169, R170; 10, R187) -/

/-- With every queued kind masked nothing is offered. -/
theorem offerNotice_masked {mask : List NoticeKind} {q : List Notice} (h : ∀ n ∈ q, n.content.kind ∈ mask) :
    offerNotice mask q = none := by
  induction q with
  | nil => rfl
  | cons n rest ih =>
    unfold offerNotice
    rw [if_pos (List.contains_iff_mem.mpr (h n (List.mem_cons_self ..))), ih fun m hm => h m (List.mem_cons_of_mem _ hm)]
    rfl

/-- The notice nearest the front that is not masked is offered. -/
theorem offerNotice_front {mask : List NoticeKind} {front back : List Notice} {n : Notice} (hf : ∀ m ∈ front, m.content.kind ∈ mask)
    (hn : n.content.kind ∉ mask) : offerNotice mask (front ++ n :: back) = some (n, front ++ back) := by
  induction front with
  | nil =>
    unfold offerNotice
    exact if_neg (mt List.contains_iff_mem.mp hn)
  | cons m rest ih =>
    rw [List.cons_append]
    unfold offerNotice
    rw [if_pos (List.contains_iff_mem.mpr (hf m (List.mem_cons_self ..))), ih fun x hx => hf x (List.mem_cons_of_mem _ hx)]
    rfl

section Message
variable {u : Setup} {p : Part}

theorem Part.nextMessage_underway {m : Underway} (h : p.osc.underway = some m) : p.nextMessage u = some (true, m, p.msp) := by
  unfold Part.nextMessage
  rw [h]

theorem Part.nextMessage_reply {r : Reply} {rest : List Reply} (hu : p.osc.underway = none) (hr : p.msp.replies = r :: rest) :
    p.nextMessage u = some (false, ⟨false, r.bytes.length, r.bytes⟩, { p.msp with replies := rest }) := by
  unfold Part.nextMessage
  rw [hu, hr]

theorem Part.nextMessage_notice {front back : List Notice} {n : Notice} (hu : p.osc.underway = none) (hr : p.msp.replies = [])
    (hq : p.msp.notices = front ++ n :: back) (hf : ∀ m ∈ front, m.content.kind ∈ u.mask) (hn : n.content.kind ∉ u.mask) :
    p.nextMessage u = some (false, ⟨true, n.bytes.length, n.bytes⟩, { p.msp with notices := front ++ back }) := by
  unfold Part.nextMessage
  rw [hu, hr, hq, offerNotice_front hf hn]
  rfl

/-- A message waits exactly where there is one to send. -/
theorem Part.messageWaiting_eq (u : Setup) (p : Part) : p.messageWaiting u = (p.nextMessage u).isSome := by
  unfold Part.messageWaiting Part.nextMessage
  cases p.osc.underway <;> cases p.msp.replies <;> simp

/-- A slot that R169's first step gives to a message. -/
def Part.messageTurn (u : Setup) (p : Part) : Prop :=
  (p.lanes.a.fifo.length < u.threshold ∧ p.lanes.b.fifo.length < u.threshold) ∨ p.osc.accept = false ∨ p.osc.slotsSince = 15

theorem Part.messageSlot_iff (u : Setup) (p : Part) : p.messageSlot u = true ↔ (p.nextMessage u).isSome = true ∧ p.messageTurn u := by
  unfold Part.messageSlot Part.messageTurn
  rw [p.messageWaiting_eq]
  simp [or_assoc]

/-- The message a slot carries, where it carries one. -/
def Part.slotMessage (u : Setup) (p : Part) : Option (Bool × Underway × MessagePort) :=
  if p.messageSlot u then p.nextMessage u else none

theorem Part.slotMessage_turn {x : Bool × Underway × MessagePort} (turn : p.messageTurn u) (h : p.nextMessage u = some x) :
    p.slotMessage u = some x := (if_pos ((p.messageSlot_iff u).mpr ⟨h ▸ rfl, turn⟩)).trans h

theorem Part.slotMessage_none (h : p.nextMessage u = none ∨ ¬p.messageTurn u) : p.slotMessage u = none := by
  unfold Part.slotMessage
  split
  · rename_i slot
    obtain ⟨waiting, turn⟩ := (p.messageSlot_iff u).mp slot
    rcases h with h | h
    · exact h
    · exact absurd turn h
  · rfl

end Message

/-! ## The claimants of a slot (09, R169 to R171) -/

section Slot
variable {u : Setup} {rings : Rings} {bank : LoadedBank} {p : Part}

theorem Part.upstreamSlot_message {continues : Bool} {m : Underway} {port : MessagePort}
    (h : p.slotMessage u = some (continues, m, port)) :
    p.upstreamSlot u rings bank = p.sendMessage (statusOctet u p) continues m port := by
  unfold Part.slotMessage at h
  unfold Part.upstreamSlot
  dsimp only
  rw [h]

theorem Part.upstreamSlot_free (h : p.slotMessage u = none) : p.upstreamSlot u rings bank
    = if p.osc.accept && (!p.lanes.a.fifo.isEmpty || !p.lanes.b.fifo.isEmpty) then p.sendSample u rings bank (statusOctet u p)
      else if p.take.device = .standby then p.sendLinkCheck (statusOctet u p) else p.sendIdle (statusOctet u p) := by
  unfold Part.slotMessage at h
  unfold Part.upstreamSlot
  dsimp only
  rw [h]

theorem Part.upstreamSlot_still (h : p.slotMessage u = none)
    (still : p.osc.accept = false ∨ p.lanes.a.fifo = [] ∧ p.lanes.b.fifo = []) : p.upstreamSlot u rings bank
    = if p.take.device = .standby then p.sendLinkCheck (statusOctet u p) else p.sendIdle (statusOctet u p) := by
  refine (Part.upstreamSlot_free h).trans (if_neg ?_)
  rcases still with refused | ⟨ha, hb⟩
  · simp [refused]
  · simp [ha, hb]

theorem Part.upstreamSlot_sample (h : p.slotMessage u = none) (accept : p.osc.accept = true) (l : Lane)
    (held : (p.lanes.get l).fifo ≠ []) : p.upstreamSlot u rings bank = p.sendSample u rings bank (statusOctet u p) := by
  refine (Part.upstreamSlot_free h).trans (if_pos ?_)
  cases l
  · have held : p.lanes.a.fifo ≠ [] := held
    simp [accept, held]
  · have held : p.lanes.b.fifo ≠ [] := held
    simp [accept, held]

/-- The fuller lane is served; of equals, the one not last served. -/
theorem Part.servedLane_eq {l : Lane} (h : (p.lanes.get l.other).fifo.length < (p.lanes.get l).fifo.length
    ∨ (p.lanes.get l.other).fifo.length = (p.lanes.get l).fifo.length ∧ p.osc.lastServed ≠ l) : p.servedLane = l := by
  have other : p.osc.lastServed ≠ l → p.osc.lastServed.other = l := by cases l <;> cases p.osc.lastServed <;> simp [Lane.other]
  unfold Part.servedLane
  cases l <;> simp only [Lane.other, PerLane.get] at h
  · rcases h with fuller | ⟨equal, turn⟩
    · rw [if_neg (by omega), if_pos fuller]
    · rw [if_neg (by omega), if_neg (by omega), other turn]
  · rcases h with fuller | ⟨equal, turn⟩
    · rw [if_pos fuller]
    · rw [if_neg (by omega), if_neg (by omega), other turn]

/-- The part once the frame f has left lane l's FIFO in a slot with the given status octet, before anything that the removal brings. -/
def Part.frameRemoved (octet : Byte) (l : Lane) (f : SampleFrame) (rest : List SampleFrame) (p : Part) : Part :=
  { p with
    lanes := p.lanes.set l { p.lanes.get l with fifo := rest },
    osc := { p.osc with
      slotsSince := min 15 (p.osc.slotsSince + 1), lastServed := l, upstream := frameBytes 0 octet f.bytes } }

theorem Part.sendSample_served {l : Lane} {f : SampleFrame} {rest : List SampleFrame} (octet : Byte) (served : p.servedLane = l)
    (h : (p.lanes.get l).fifo = f :: rest) : p.sendSample u rings bank octet
      = ((p.frameRemoved octet l f rest).resumeLane u rings bank l (p.lanes.get l).stalled).closeTake := by
  unfold Part.sendSample
  dsimp only
  rw [served, h]
  rfl

end Slot

/-! ## A stall at its end (06, R109; 09, R163, R171) -/

theorem Producer.stalled_iff (x : Producer) :
    x.stalled = true ↔ x.state ≠ .idle ∧ x.settings.source ≠ .off ∧ 1024 ≤ x.fifo.length := by
  unfold Producer.stalled Producer.producing Config.maxFifo
  simp [and_assoc]

/-- A take waits while a lane is still producing. -/
theorem Part.closeTake_producing {p : Part} (l : Lane) (h : (p.lanes.get l).state ≠ .idle) : p.closeTake = p := by
  unfold Part.closeTake
  split
  · refine if_neg fun ⟨ha, hb, _⟩ => h ?_
    cases l
    · exact ha
    · exact hb
  · rfl

/-- A lane that resumes does what its production step does, if it may take one. -/
theorem Part.resumeLane_productionStep {l : Lane} {s : State} (h : (s.part.lanes.get l).state ≠ .idle) :
    exec (.productionStep l) s = .next { s with part := (s.part.resumeLane s.setup s.rings s.bank l true).closeTake } := by
  unfold Part.resumeLane
  by_cases may : mayStep s.part l
  · rw [exec_productionStep may, (s.part.canStep_iff l).mpr may]
    rfl
  · rw [exec_productionStep_waits may, Bool.eq_false_of_not_eq_true (mt (s.part.canStep_iff l).mp may)]
    exact congrArg (fun q => Host.Outcome.next { s with part := q }) (Part.closeTake_producing l h).symm

/-! ## The row -/

theorem exec_upstreamSlot {s : State} {q : Part} (h : s.part.upstreamSlot s.setup s.rings s.bank = q) :
    exec .upstreamSlot s = .next { s with part := q } := by
  subst h
  rfl

/-- A slot that sends a sample frame, told of the state once the frame has left its FIFO. -/
theorem exec_upstreamSlot_sample {s removed : State} {l : Lane} {f : SampleFrame} {rest : List SampleFrame}
    (free : s.part.slotMessage s.setup = none) (accept : s.part.osc.accept = true) (served : s.part.servedLane = l)
    (h : (s.part.lanes.get l).fifo = f :: rest)
    (hremoved : removed = { s with part := s.part.frameRemoved (statusOctet s.setup s.part) l f rest }) :
    exec .upstreamSlot s = .next { removed with
      part := (removed.part.resumeLane s.setup s.rings s.bank l (s.part.lanes.get l).stalled).closeTake } := by
  subst hremoved
  exact exec_upstreamSlot ((Part.upstreamSlot_sample free accept l (by rw [h]; nofun)).trans (Part.sendSample_served _ served h))

/-- Settles O55: the message of a slot is `Part.slotMessage`; without one the slot is its claimant's (`Part.upstreamSlot_still`,
`exec_upstreamSlot_sample`), and a lane freed from its stall takes its production step (`Part.resumeLane_productionStep`). -/
theorem upstreamSlot : Obligations.UpstreamSlot := by
  refine ⟨fun s hfree => ?free, fun s turn sent hsent => ?message⟩
  case free =>
    have free : s.part.slotMessage s.setup = none := by
      refine Part.slotMessage_none (hfree.imp (fun ⟨hu, hr, hq⟩ => ?none) fun ⟨full, accept, since⟩ turn => ?full)
      case none =>
        unfold Part.nextMessage
        rw [hu, hr, offerNotice_masked hq]
        rfl
      case full =>
        rcases turn with ⟨ha, hb⟩ | refused | fifteen
        · omega
        · rw [accept] at refused; cases refused
        · exact since fifteen
    refine ⟨fun still => ⟨fun standby => ?linkCheck, fun working => ?idle⟩,
      fun l f rest removed accept held served hremoved => ⟨fun runs => ?runs, fun producing on full => ?resumes⟩⟩
    case linkCheck => exact exec_upstreamSlot ((Part.upstreamSlot_still free still).trans (if_pos standby))
    case idle => exact exec_upstreamSlot ((Part.upstreamSlot_still free still).trans (if_neg working))
    case runs =>
      have unstalled : (s.part.lanes.get l).stalled = false := by
        refine Bool.eq_false_of_not_eq_true fun stalled => ?_
        obtain ⟨producing, on, full⟩ := (Producer.stalled_iff _).mp stalled
        rcases runs with idle | off | room
        · exact producing idle
        · exact on off
        · omega
      rw [exec_upstreamSlot_sample free accept (Part.servedLane_eq served) held hremoved, unstalled]
      rfl
    case resumes =>
      have producing' : (removed.part.lanes.get l).state ≠ .idle := by
        rw [hremoved]
        simpa using producing
      rw [exec_upstreamSlot_sample free accept (Part.servedLane_eq served) held hremoved,
        (Producer.stalled_iff _).mpr ⟨producing, on, full⟩, Part.resumeLane_productionStep producing', hremoved]
  case message =>
    have carries {continues : Bool} {m : Underway} {port : MessagePort}
        (h : s.part.nextMessage s.setup = some (continues, m, port)) : exec .upstreamSlot s = .next (sent continues m port) := by
      rw [exec_upstreamSlot (Part.upstreamSlot_message (Part.slotMessage_turn turn h)), hsent]
      simp [Part.sendMessage, Config.messageChunk]
    exact ⟨fun m h => carries (Part.nextMessage_underway h), fun r rest hu hr => carries (Part.nextMessage_reply hu hr),
      fun front n back hu hr hq hf hn => carries (Part.nextMessage_notice hu hr hq hf hn)⟩

end Sys2Proof.Machine
end

section
/-! SUPPORT. What writing dropout records makes of the log, of LOG_FULL and of LOG_HIGH (R152), said once as a relation that is closed
under one event after another, and what every other block leaves of it (O21). -/

namespace Sys2Proof.Machine

open Sys2Proof.Safety

/-! ## Records into the log (08, R152) -/

/-- What writing the records rs makes of the log, of LOG_FULL, of a queued LOG_HIGH and of the stop request. -/
structure Part.Logs (u : Setup) (rs : List DropoutRecord) (p q : Part) : Prop where
  log : q.log = (p.log ++ rs).take 256
  roomy : p.log.length + rs.length ≤ 256 → q.cmn.logFull = p.cmn.logFull
  flagged : u.policies.logFull.policy ≠ .off → p.cmn.logFull.flag = true ∨ 256 < p.log.length + rs.length → q.cmn.logFull.flag = true
  posts : p.log.length < 192 → ∀ r, rs[191 - p.log.length]? = some r → ∃ n ∈ q.msp.notices, n.content = .logHigh 192 r.take
  keeps : 192 ≤ p.log.length → ∀ n ∈ p.msp.notices, n.content.kind = .logHigh → n ∈ q.msp.notices
  stops : u.policies.logFull.policy = .stop → p.stopPending = true ∨ 256 < p.log.length + rs.length → q.stopPending = true
  calm : neverStops u.policies.logFull → q.stopPending = p.stopPending

/-- A change that leaves the log, its condition, its notice and the stop request alone. -/
structure Part.SparesLog (p q : Part) : Prop where
  log : q.log = p.log
  logFull : q.cmn.logFull = p.cmn.logFull
  stopPending : q.stopPending = p.stopPending
  high : ∀ n : Notice, n.content.kind = .logHigh → (n ∈ q.msp.notices ↔ n ∈ p.msp.notices)

theorem Part.SparesLog.of_same {p q : Part} (hlog : q.log = p.log) (hcmn : q.cmn = p.cmn) (hstop : q.stopPending = p.stopPending)
    (hmsp : q.msp = p.msp) : p.SparesLog q := ⟨hlog, hcmn ▸ rfl, hstop, fun _ _ => hmsp ▸ Iff.rfl⟩

section Logs
variable {u : Setup} {p q r : Part} {rs xs : List DropoutRecord}

theorem Part.Logs.of_spares (h : p.SparesLog q) (hp : p.log.length ≤ 256) : p.Logs u [] q where
  log := by rw [h.log, List.append_nil, List.take_of_length_le hp]
  roomy _ := h.logFull
  flagged _ k := by rw [h.logFull]; exact k.resolve_right (by simpa using hp)
  posts _ _ k := by simp at k
  keeps _ n hn hk := (h.high n hk).mpr hn
  stops _ k := by rw [h.stopPending]; exact k.resolve_right (by simpa using hp)
  calm _ := h.stopPending

theorem Part.Logs.length (h : p.Logs u rs q) : q.log.length = min 256 (p.log.length + rs.length) := by
  rw [h.log, List.length_take, List.length_append]

theorem Part.Logs.fits (h : p.Logs u rs q) : q.log.length ≤ 256 := h.length ▸ Nat.min_le_left ..

/-- Records written one lot after another. -/
theorem Part.Logs.trans (h : p.Logs u rs q) (k : q.Logs u xs r) : p.Logs u (rs ++ xs) r := by
  have length := h.length
  have later {c : Prop} (full : c ∨ 256 < p.log.length + (rs ++ xs).length) :
      (c ∨ 256 < p.log.length + rs.length) ∨ 256 < q.log.length + xs.length := by
    rw [List.length_append] at full
    rcases full with was | now
    · exact .inl (.inl was)
    · by_cases first : 256 < p.log.length + rs.length
      · exact .inl (.inr first)
      · exact .inr (by omega)
  refine ⟨?log, fun room => ?roomy, fun on full => k.flagged on ((later full).imp_left (h.flagged on)), fun low x hx => ?posts,
    fun high n hn hk => ?keeps, fun stop full => k.stops stop ((later full).imp_left (h.stops stop)),
    fun never => (k.calm never).trans (h.calm never)⟩
  case log => rw [k.log, h.log, take_append_take, List.append_assoc]
  case roomy =>
    rw [List.length_append] at room
    exact (k.roomy (by omega)).trans (h.roomy (by omega))
  case keeps => exact k.keeps (by omega) n (h.keeps high n hn hk) hk
  case posts =>
    rw [List.getElem?_append] at hx
    split at hx
    · obtain ⟨n, hn, content⟩ := h.posts low x hx
      exact ⟨n, k.keeps (by omega) n hn (by rw [content]; rfl), content⟩
    · refine k.posts (by omega) x ?_
      rw [show 191 - q.log.length = 191 - p.log.length - rs.length by omega]
      exact hx

/-- One record: into the log where there is room, LOG_HIGH with the 192nd, and LOG_FULL where there is none. -/
theorem Part.logs_record (u : Setup) (x : DropoutRecord) (p : Part) (hp : p.log.length ≤ 256) : p.Logs u [x] (p.logRecord u x) := by
  unfold Part.logRecord Config.maxLog Config.logHigh
  dsimp only
  by_cases room : p.log.length < 256
  · rw [if_pos room]
    have log : p.log ++ [x] = (p.log ++ [x]).take 256 := (List.take_of_length_le (by simp; omega)).symm
    have fits : ¬256 < p.log.length + [x].length := by simp; omega
    by_cases high : p.log.length + 1 = 192
    · rw [if_pos high]
      refine ⟨log, fun _ => rfl, fun _ k => k.resolve_right fits, fun _ r hr => ?_, fun k => absurd k (by omega),
        fun _ k => k.resolve_right fits, fun _ => rfl⟩
      rw [show 191 - p.log.length = 0 by omega] at hr
      cases hr
      exact postNotice_mem _ _ (by simp [NoticeContent.kind])
    · rw [if_neg high]
      refine ⟨log, fun _ => rfl, fun _ k => k.resolve_right fits, fun low r hr => ?_, fun _ _ hn _ => hn,
        fun _ k => k.resolve_right fits, fun _ => rfl⟩
      rw [List.getElem?_eq_none (by simp; omega)] at hr
      cases hr
  · rw [if_neg room]
    obtain ⟨c, b, m, e, flag, -, -, -, calm, stop, -⟩ := Part.raise_spec u .logFull p
    have kept (n : Notice) (hk : n.content.kind = .logHigh) := Part.raise_notices u .logFull p n (by rw [hk]; nofun)
    unfold Part.occur
    rw [e] at kept ⊢
    have full : p.log.length = 256 := by omega
    refine ⟨?_, fun k => ?_, fun on _ => flag on, fun low => absurd low (by omega), fun _ n hn hk => (kept n hk).mpr hn,
      fun k _ => stop k, calm⟩
    · exact (List.take_left' full).symm
    · simp [full] at k

theorem Part.logs_records (u : Setup) (rs : List DropoutRecord) (p : Part) (hp : p.log.length ≤ 256) :
    p.Logs u rs (rs.foldl (fun p r => p.logRecord u r) p) := by
  induction rs generalizing p with
  | nil => exact .of_spares (.of_same rfl rfl rfl rfl) hp
  | cons x rest ih =>
    have one := p.logs_record u x hp
    exact one.trans (ih _ one.fits)

/-! ## The spans written by a step and by a finish (08, R151) -/

/-- The records of the spans of a track that a test picks. -/
def Part.recordsOf (t : Track) (pick : Span → Bool) (p : Part) : List DropoutRecord :=
  ((p.con.get t).spans.filter pick).map Span.toRecord

theorem Part.logs_writeSpans (u : Setup) (t : Track) (pick : Span → Bool) (p : Part) (hp : p.log.length ≤ 256) :
    p.Logs u (p.recordsOf t pick) (p.writeSpans u t pick) := by
  obtain ⟨kept, hkept⟩ : ∃ c, c = { p.con.get t with spans := (p.con.get t).spans.filter fun s => !pick s } := ⟨_, rfl⟩
  have taken : p.Logs u [] (p.setConcealer t kept) := .of_spares (.of_same rfl rfl rfl rfl) hp
  have written := taken.trans (Part.logs_records u (p.recordsOf t pick) _ taken.fits)
  rw [hkept] at written
  exact written

/-- The spans of both tracks of a lane, the first's before the second's. -/
theorem Part.logs_writeBoth (u : Setup) (l : Lane) (one two : Span → Bool) (p : Part) (hp : p.log.length ≤ 256) :
    p.Logs u (p.recordsOf l.first one ++ p.recordsOf l.second two) ((p.writeSpans u l.first one).writeSpans u l.second two) := by
  have first := p.logs_writeSpans u l.first one hp
  have second := (p.writeSpans u l.first one).logs_writeSpans u l.second two first.fits
  have apart : (p.writeSpans u l.first one).recordsOf l.second two = p.recordsOf l.second two := by
    obtain ⟨g, c, b, m, e, -⟩ := p.writeSpans_touch u l.first one
    unfold Part.recordsOf
    rw [e]
    dsimp only
    rw [PerTrack.get_set_other _ _ (Lane.first_ne_second l).symm]
  exact first.trans (apart ▸ second)

theorem Part.logs_finishIfDone (u : Setup) (l : Lane) (p : Part) (hp : p.log.length ≤ 256) : ∃ rs, p.Logs u rs (p.finishIfDone u l) := by
  have stays : ∃ rs, p.Logs u rs p := ⟨[], .of_spares (.of_same rfl rfl rfl rfl) hp⟩
  have finishes : ∃ rs, p.Logs u rs (p.finishLane u l) :=
    have all := p.logs_writeBoth u l (fun _ => true) (fun _ => true) hp
    ⟨_, all.trans (.of_spares (.of_same rfl rfl rfl rfl) all.fits)⟩
  unfold Part.finishIfDone
  dsimp only
  split
  · split
    · split
      · exact finishes
      · exact stays
    · exact finishes
  · exact stays

end Logs

/-! ## The rest of a step's body leaves the log alone (06, R108, R110) -/

theorem Part.sparesLog_makeFrame {u : Setup} (rings : Rings) (bank : LoadedBank) (l : Lane) (p : Part)
    (hu : policiesAllowed u.policies = true) : p.SparesLog (p.makeFrame u rings bank l) := by
  obtain ⟨c, k, m, e, conds, never, notices⟩ := p.makeFrame_spec u rings bank l _ rfl _ _ rfl rfl _ _ rfl rfl
  rw [e]
  exact ⟨rfl, conds .logFull nofun, never (neverStops_clip hu l), fun n hn => notices n (by rw [hn]; nofun)⟩

/-- The records of the spans that lane l at x has passed, the first track's before the second's (08, R151). -/
def Part.passedRecords (l : Lane) (x : Producer) (p : Part) : List DropoutRecord :=
  p.recordsOf l.first (Span.passed (x.trackIndex false)) ++ p.recordsOf l.second (Span.passed (x.trackIndex true))

/-- The body of a step writes the records of the spans passed and does nothing else to the log. -/
theorem Part.logs_stepLane {u : Setup} (rings : Rings) (bank : LoadedBank) (l : Lane) (p : Part) {x : Producer}
    (hu : policiesAllowed u.policies = true) (hp : p.log.length ≤ 256) (hx : x = (p.lanes.get l).applyDue u.rates) :
    p.Logs u (p.passedRecords l x) (p.stepLane u rings bank l) := by
  obtain ⟨w, hw⟩ : ∃ w, w = (p.setProducer l x).writePassed u l := ⟨_, rfl⟩
  have lane : w.lanes.get l = x := by
    rw [hw, (p.readied u l x).lanes, PerLane.get_set_same]
  have written : p.Logs u (p.passedRecords l x) w := by
    have due : p.Logs u [] (p.setProducer l x) := .of_spares (.of_same rfl rfl rfl rfl) hp
    have passed := due.trans ((p.setProducer l x).logs_writeBoth u l (Span.passed (x.trackIndex false)) (Span.passed (x.trackIndex true))
      due.fits)
    have whole : (p.setProducer l x).writePassed u l = ((p.setProducer l x).writeSpans u l.first
        (Span.passed (x.trackIndex false))).writeSpans u l.second (Span.passed (x.trackIndex true)) := by
      unfold Part.writePassed
      rw [Part.setProducer_lanes, PerLane.get_set_same]
    rw [hw, whole]
    exact passed
  have spared {q : Part} (h : w.SparesLog q) : p.Logs u (p.passedRecords l x) q := by
    have both := written.trans (Part.Logs.of_spares (u := u) h written.fits)
    rwa [List.append_nil] at both
  have body : p.stepLane u rings bank l = if x.settings.source = .off then (w.chooseSources u l).advanceLane l
      else if x.fifo.length < Config.maxFifo then (w.makeFrame u rings bank l).advanceLane l else w.chooseSources u l := by
    rw [← lane, hw, hx]
    rfl
  rw [body]
  split
  · exact spared (.of_same rfl rfl rfl rfl)
  · split
    · obtain ⟨log, logFull, stopPending, high⟩ := w.sparesLog_makeFrame rings bank l hu
      exact spared ⟨log, logFull, stopPending, high⟩
    · exact spared (.of_same rfl rfl rfl rfl)

end Sys2Proof.Machine
end

section
/-! SUPPORT and PROOFS. READ_DROPOUTS, what a record says, and the log after a production step and after the STOP of a take (O21). -/

namespace Sys2Proof.Machine

open Sys2Proof.Safety

/-! ## READ_DROPOUTS (08, R153) -/

/-- A command its owner answers with results under a code that carries them. -/
theorem portCommand_carries {k : Cmd} (tag : Byte) {owner : State → Answer} {s t : State} {code : ReplyCode} {results : List Byte}
    (hr : s.part.ready = true) (h : k.admitted s.part.take.device = true) (ho : owner s = ⟨t, code, results⟩)
    (hc : code.carriesResults = true) : portCommand k tag owner s = withReply t k.code tag code results := by
  rw [portCommand_ready k tag owner s hr, judge_admitted k owner s h, ho]
  exact congrArg _ (if_pos hc)

theorem adjustedIf_eq {changed c : Prop} [Decidable changed] [Decidable c] (h : changed ↔ c) :
    adjustedIf (decide changed) = if c then .adjusted else .ok := by
  unfold adjustedIf
  simp only [decide_eq_true_eq, h]

theorem adjustedIf_carries (changed : Bool) : (adjustedIf changed).carriesResults = true := by cases changed <;> rfl

theorem ownReadDropouts_eq (n : Byte) (s : State) {k : Nat} (hk : k = clampNat 1 8 n.toNat) : ownReadDropouts n s
    = ⟨{ s with part := { s.part with log := s.part.log.drop k } }, adjustedIf (decide (k ≠ n.toNat)),
      BitVec.ofNat 8 (min k s.part.log.length) :: ((s.part.log.take k).map DropoutRecord.bytes).flatten⟩ := by
  subst hk
  unfold ownReadDropouts
  dsimp only
  rw [List.length_take]
  simp [bytesOf, State.onPart]

/-- The number asked for is changed exactly outside 1..8. -/
theorem clampNat_adjusts (n : Nat) : clampNat 1 8 n ≠ n ↔ n = 0 ∨ 8 < n := by
  unfold clampNat
  split
  · omega
  · split <;> omega

/-! ## What a record says (08, R150; 11, R203) -/

theorem DropoutRecord.bytes_length (r : DropoutRecord) : r.bytes.length = 31 := by simp [DropoutRecord.bytes]

/-- A record carries the one action its samples had, MARKED for marks alone or none, MIXED for more than one. -/
theorem ActionSet.record_spec (s : ActionSet) : (s = ⟨false, true, false⟩ → s.record = .crossfilled)
    ∧ (s = ⟨false, false, true⟩ → s.record = .muted) ∧ (s.crossfill = false → s.mute = false → s.record = .marked)
    ∧ ((s.marked = true ∧ (s.crossfill = true ∨ s.mute = true) ∨ s.crossfill = true ∧ s.mute = true) → s.record = .mixed) := by
  obtain ⟨marked, crossfill, mute⟩ := s
  revert marked crossfill mute
  decide

/-! ## LOG_FULL outlives an ending -/

theorem policy_logFull {u : Setup} (h : policiesAllowed u.policies = true) : u.policies.logFull.policy ≠ .off := by
  intro off
  have allowed : CondId.logFull.allowed.contains u.policies.logFull.policy = true := List.all_eq_true.mp h .logFull (by decide)
  rw [off] at allowed
  cases allowed

/-- The log is within its places and LOG_FULL's flag is set. -/
def Part.logFlagged (p : Part) : Prop := p.log.length ≤ 256 ∧ p.cmn.logFull.flag = true

theorem Part.logFlagged.of_same {p q : Part} (h : p.logFlagged) (hlog : q.log = p.log) (hfull : q.cmn.logFull = p.cmn.logFull) :
    q.logFlagged := ⟨hlog ▸ h.1, hfull ▸ h.2⟩

section Ending
variable {u : Setup} (hu : policiesAllowed u.policies = true)
include hu

theorem Part.Logs.logFlagged {rs : List DropoutRecord} {p q : Part} (k : p.Logs u rs q) (h : p.logFlagged) : q.logFlagged :=
  ⟨k.fits, k.flagged (policy_logFull hu) (.inl h.2)⟩

theorem Part.logFlagged_laneTakeEnd (l : Lane) (p : Part) (h : p.logFlagged) : (p.laneTakeEnd u l).logFlagged := by
  unfold Part.laneTakeEnd
  dsimp only
  split
  · obtain ⟨rs, logs⟩ := Part.logs_finishIfDone u l (p.setProducer l { p.lanes.get l with state := .draining }) h.1
    exact logs.logFlagged hu (h.of_same rfl rfl)
  · exact h

theorem Part.logFlagged_takeTeardown (e : Option Nat) (p : Part) (h : p.logFlagged) : (p.takeTeardown u e).logFlagged := by
  have tracker (l : Lane) (q : Part) (k : q.logFlagged) : (q.trackerTakeEnd u e l).logFlagged := by
    obtain ⟨c, m, eq, -, -, -, conds⟩ := q.trackerTakeEnd_exact u e l
    rw [eq]
    exact k.of_same rfl (conds .logFull nofun nofun)
  have detectors (q : Part) (k : q.logFlagged) : (q.detectorsTakeEnd e).logFlagged := by
    obtain ⟨d, c, eq, -⟩ := q.detectorsTakeEnd_spec e
    rw [eq]
    exact k.of_same rfl rfl
  have aligners (q : Part) (k : q.logFlagged) : ((q.alignerTakeEnd .a).alignerTakeEnd .b).logFlagged :=
    k.of_same rfl rfl
  have refind (q : Part) (k : q.logFlagged) : (q.refind u).logFlagged := k.of_same rfl rfl
  exact Part.logFlagged_laneTakeEnd hu .b _ (Part.logFlagged_laneTakeEnd hu .a _ (refind _ (detectors _ (aligners _
    (tracker .b _ (tracker .a p h))))))

theorem Part.logFlagged_endOperation (e : Ending) (p : Part) (h : p.logFlagged) : (p.endOperation u e).logFlagged := by
  unfold Part.endOperation
  split
  · exact h
  obtain ⟨op, hop⟩ : ∃ op : OpRecord, op = { p.trc.op with phase := none, ending := some e } := ⟨_, rfl⟩
  obtain ⟨c, t, settles, -, -, -, -, -, conds, -⟩ := (p.setOp op).enterSettling_parts u
  obtain ⟨q, hq⟩ : ∃ q : Part, q = (p.setOp op).enterSettling u := ⟨_, rfl⟩
  have settled : q.logFlagged := by
    rw [hq, settles]
    exact h.of_same rfl (conds .logFull nofun)
  dsimp only
  rw [← hop, ← hq]
  split
  · exact Part.logFlagged_takeTeardown hu _ _ (settled.of_same rfl rfl)
  · obtain ⟨r, stops, -⟩ := Part.surveyStop_spec { q with hcr := { q.hcr with capturing := false } }
    unfold Part.surveyEnd
    rw [stops]
    exact settled.of_same rfl rfl
  · exact settled

theorem Part.logFlagged_takeStop (p : Part) (h : p.logFlagged) : (p.takeStop u).logFlagged :=
  Part.takeStop_induction (Q := Part.logFlagged) u (fun _ _ k => k.of_same rfl rfl) (Part.logFlagged_endOperation hu) h

end Ending

/-! ## A production step (08, R151, R152) -/

/-- The records of a step as the statement writes them. -/
theorem Part.recordsOf_passed (t : Track) (i : Int) (p : Part) : p.recordsOf t (Span.passed i)
    = ((p.con.get t).spans.filter fun sp => sp.last.any fun last => decide ((last : Int) < i)).map Span.toRecord := by
  have same : Span.passed i = fun sp => sp.last.any fun last => decide ((last : Int) < i) := by
    funext sp
    unfold Span.passed
    cases sp.last <;> rfl
  unfold Part.recordsOf
  rw [same]

section Step
variable {u : Setup} {rings : Rings} {bank : LoadedBank} {l : Lane} {p : Part} {x : Producer}
variable (hu : policiesAllowed u.policies = true) (hp : p.log.length ≤ 256) (hx : x = (p.lanes.get l).applyDue u.rates)
include hu hp hx

/-- A step that makes no stop request and leaves its lane working leaves the log as its body wrote it. -/
theorem Part.laneStep_logs (still : p.stopPending = false) (never : neverStops u.policies.logFull)
    (works : ((p.laneStep u rings bank l).closeTake.lanes.get l).state ≠ .idle) :
    p.Logs u (p.passedRecords l x) (p.laneStep u rings bank l).closeTake := by
  obtain ⟨q, hq⟩ : ∃ q, q = p.stepLane u rings bank l := ⟨_, rfl⟩
  have logs := p.logs_stepLane rings bank l hu hp hx
  rw [← hq] at logs
  have whole : p.laneStep u rings bank l = (q.finishIfDone u l).takeStop u := by rw [hq]; rfl
  have closed : (p.laneStep u rings bank l).closeTake.lanes = (p.laneStep u rings bank l).lanes := by
    obtain ⟨k, m, e⟩ := (p.laneStep u rings bank l).closeTake_spec
    rw [e]
  rw [closed] at works
  rw [Part.closeTake_producing l works]
  rw [whole] at works ⊢
  obtain ⟨goes, finished⟩ := q.takeStop_finishIfDone u l _ Iff.rfl
  rw [goes fun done => works (by rw [(finished done).1]), Part.takeStop_none u ((logs.calm never).trans still)]
  exact logs

/-- A step that overfills the log under LOG_FULL's policy STOP ends the take that plays. -/
theorem Part.laneStep_overfills (stop : u.policies.logFull.policy = .stop)
    (full : 256 < p.log.length + (p.passedRecords l x).length) (hk : p.trc.op.kind = .take) (he : p.trc.op.ending = none)
    (hs : p.trc.state = .playing) : (p.laneStep u rings bank l).closeTake.trc.op.ending = some (.cause .condition)
      ∧ (p.laneStep u rings bank l).closeTake.cmn.logFull.flag = true := by
  obtain ⟨q, hq⟩ : ∃ q, q = (p.stepLane u rings bank l).finishIfDone u l := ⟨_, rfl⟩
  have body := p.logs_stepLane rings bank l hu hp hx
  obtain ⟨rs, finish⟩ := (p.stepLane u rings bank l).logs_finishIfDone u l body.fits
  rw [← hq] at finish
  have flagged : q.logFlagged := finish.logFlagged hu ⟨body.fits, body.flagged (policy_logFull hu) (.inr full)⟩
  have pending : q.stopPending = true := finish.stops stop (.inl (body.stops stop (.inr full)))
  have trc : q.trc = p.trc := by
    rw [hq]
    exact ((p.works_stepLane u rings bank l).trans (Part.works_finishIfDone u l _)).trc
  have whole : p.laneStep u rings bank l = q.takeStop u := by rw [hq]; rfl
  obtain ⟨k, m, closed⟩ := (q.takeStop u).closeTake_spec
  rw [whole, closed]
  obtain ⟨ends, -⟩ := Part.takeStop_take u q q pending (trc ▸ hs) (trc ▸ hk) (trc ▸ he) ⟨rfl, rfl, rfl, rfl, rfl, rfl, rfl, rfl⟩
    fun _ _ => rfl
  exact ⟨ends, (q.logFlagged_takeStop hu flagged).2⟩

end Step

/-! ## The STOP of a take (08, R142, R151; 09, R162) -/

/-- The end of a take at raw index e closes an open dropout's span as truncated there. -/
theorem truncateDropout_open (e : Nat) {d : Detector} {o : OpenDropout} (spans : List Span) (h : d.openDropout = some o) :
    (truncateDropout (some e) d spans).2 = spans.map fun x => if x.last = none then
      { x with last := some e, length := min 65535 (e / 64 - o.block + 1), least := o.least, truncated := true } else x := by
  unfold truncateDropout closeSpans Config.blockSize
  simp [h]

theorem truncateDropout_shut (endIndex : Option Nat) {d : Detector} (spans : List Span) (h : d.openDropout = none) :
    (truncateDropout endIndex d spans).2 = spans := by
  unfold truncateDropout
  simp [h]

/-- The log after the event that ends a take at raw index e. -/
theorem Part.endOperation_log (u : Setup) (c : TakeCause) (p : Part) {e : Nat} {closed : Track → List Span}
    {records : Lane → List DropoutRecord} (hp : p.log.length ≤ 256) (hk : p.trc.op.kind = .take) (he : p.trc.op.ending = none)
    (hn : p.hcr.nextIndex = e + 1) (hr : p.take.record ≠ none)
    (hclosed : ∀ tr, closed tr = (truncateDropout (some e) (p.det.get tr) (p.con.get tr).spans).2)
    (hrecords : ∀ l, records l = if (p.lanes.get l).state = .active ∧ e < (p.lanes.get l).acc / 16777216 + 32 then
      (closed l.first ++ closed l.second).map Span.toRecord else []) :
    (p.endOperation u (.cause c)).log = (p.log ++ records .a ++ records .b).take 256 := by
  obtain ⟨k, t, ends, -⟩ := p.endOperation_takeEnd u c hk he
  obtain ⟨r, hr⟩ := Option.ne_none_iff_exists'.mp hr
  have written : p.lastWritten = some e := by
    unfold Part.lastWritten
    rw [hn]
    rfl
  obtain ⟨x, hx⟩ : ∃ x : Part, x = { p with
      cmn := k, trc := t,
      take := { p.take with
        device := .configure, record := p.take.record.map fun (r : TakeRecord) => { r with cause := some c, endIndex := some e } },
      hcr := { p.hcr with capturing := false } } := ⟨_, rfl⟩
  have whole : p.endOperation u (.cause c) = x.takeTeardown u (some e) := by
    rw [ends, hx, ← written]
    rfl
  have record : x.take.record.bind TakeRecord.endIndex = some e := by
    rw [hx]
    simp [hr]
  have same : x.log = p.log ∧ x.lanes = p.lanes ∧ x.det = p.det ∧ x.con = p.con := by
    rw [hx]
    exact ⟨rfl, rfl, rfl, rfl⟩
  obtain ⟨hlog, hlanes, hdet, hcon⟩ := same
  obtain ⟨-, -, log⟩ := x.takeTeardown_spec u e (by rw [hlog]; exact hp) record
    (fun l => (p.lanes.get l).state = .active ∧ e < (p.lanes.get l).acc / 16777216 + 32) (fun l => by rw [hlanes])
    closed (fun tr => by rw [hdet, hcon]; exact hclosed tr)
  rw [whole, log, hlog, hrecords, hrecords]
  rfl

/-- Settles O21: the log after a step is what its body writes (`Part.laneStep_logs`, `Part.laneStep_overfills`), after a STOP what the
lanes that finish write (`Part.endOperation_log`), and READ_DROPOUTS takes its records from the front (`ownReadDropouts_eq`). -/
theorem dropoutLog : Obligations.DropoutLog := by
  refine ⟨fun tag n s hr => ⟨fun hd => ?standby, fun hd k hk => ?reads⟩, fun r => ⟨r.bytes_length, rfl⟩,
    fun x => ⟨x.actions.record, rfl, x.actions.record_spec⟩,
    fun l s x passed records may still hu hlog hx hpassed hrecords => ?step,
    fun tag s e closed records hr still hd hk he hn hlog hrecord hclosed hrecords => ?stop⟩
  case standby => exact congrArg _ (portCommand_wrongState _ _ _ _ hr (hd ▸ rfl))
  case reads =>
    have clamped : k = clampNat 1 8 n.toNat := hk
    have adjusts : k ≠ n.toNat ↔ n.toNat = 0 ∨ 8 < n.toNat := by rw [clamped]; exact clampNat_adjusts _
    refine (congrArg _ (portCommand_carries tag hr (Cmd.admitted_outsideStandby rfl hd) (ownReadDropouts_eq n s clamped)
      (adjustedIf_carries _))).trans ?_
    rw [adjustedIf_eq adjusts]
    rfl
  case step =>
    have written : records = s.part.passedRecords l x := by
      rw [hrecords, hpassed, hpassed, ← Part.recordsOf_passed, ← Part.recordsOf_passed]
      rfl
    subst written
    refine ⟨_, exec_productionStep may, fun never works => ?logged, fun stop full hk he hs =>
      Part.laneStep_overfills hu hlog hx stop full hk he hs⟩
    case logged =>
      have logs := Part.laneStep_logs hu hlog hx still never works
      exact ⟨logs.log, logs.roomy, fun full => logs.flagged (policy_logFull hu) (.inr full), fun r hr low => logs.posts low r hr⟩
  case stop =>
    have ending : stopEnding s.part = .cause .stopCommand := if_pos hk
    refine ⟨_, exec_stop tag hr hd, ?_⟩
    rw [s.part.takeStop_endOperation s.setup _ (by rw [hk]; nofun) he, ending]
    refine s.part.endOperation_log s.setup .stopCommand hlog hk he hn hrecord (fun tr => ?_) hrecords
    rw [hclosed]
    cases dropout : (s.part.det.get tr).openDropout with
    | none => exact (truncateDropout_shut _ _ dropout).symm
    | some o => exact (truncateDropout_open e _ dropout).symm

end Sys2Proof.Machine
end

section
/-! SUPPORT and PROOFS. Azimuth windows: a complete window judged, the frames gathered into it, its sums over 2,048 frames, and the
estimate they give (O45). -/

namespace Sys2Proof.Machine

open Sys2Proof.Safety

/-! ## A complete window (07, R122, R127, R128) -/

section Complete

variable {l : Lane} {p : Part} {w : AzimuthWindow} (hw : (p.aza.get l).window = some w) (hrun : (p.aza.get l).running = true)
  (hfull : w.start + 2048 ≤ p.hcr.nextIndex)
include hw hrun hfull

theorem Part.azimuthComplete_rejected (u : Setup) (h : windowEstimate w (p.aza.get l).theta = none) :
    p.azimuthComplete u l = p.setAligner l { p.aza.get l with window := some (AzimuthWindow.opened (w.start + 2048)) } := by
  unfold Part.azimuthComplete
  simp [hw, hrun, hfull, h, Config.windowSize]

theorem Part.azimuthComplete_accepted (u : Setup) {e : Int} (h : windowEstimate w (p.aza.get l).theta = some e) :
    p.azimuthComplete u l = (p.setAligner l { p.aza.get l with
        window := some (AzimuthWindow.opened (w.start + 2048)),
        estimate := estimateAfter (p.aza.get l).estimate e (p.aza.get l).ka }).postEntry u l
      ⟨w.start + 1024, .azimuth (estimateAfter (p.aza.get l).estimate e (p.aza.get l).ka)⟩ := by
  unfold Part.azimuthComplete
  simp [hw, hrun, hfull, h, Config.windowSize]

end Complete

/-- A window that still lacks frames is not judged. -/
theorem Part.azimuthComplete_early (u : Setup) {l : Lane} {p : Part} {w : AzimuthWindow} (hw : (p.aza.get l).window = some w)
    (hlacks : p.hcr.nextIndex < w.start + 2048) : p.azimuthComplete u l = p := by
  unfold Part.azimuthComplete
  simp [hw, Nat.not_le.mpr hlacks, Config.windowSize]

/-! ## A frame within an open window (07, R122) -/

@[simp] theorem AzimuthWindow.gather_start (r : Rings) (l : Lane) (n : Nat) (w : AzimuthWindow) : (w.gather r l n).start = w.start := by
  unfold AzimuthWindow.gather
  split <;> rfl

/-- A running half's open window takes the frame and is then judged if it is complete. -/
theorem Part.azimuthFrame_open (u : Setup) (rings : Rings) (n : Nat) {l : Lane} {p : Part} {w : AzimuthWindow}
    (hw : (p.aza.get l).window = some w) (hrun : (p.aza.get l).running = true) :
    p.azimuthFrame u rings n l
      = (p.setAligner l { p.aza.get l with window := some (w.gather rings l n) }).azimuthComplete u l := by
  unfold Part.azimuthFrame
  rw [if_pos hrun, hw, Option.map_some]

/-- What FRAME_SLOT makes of a lane whose governing entry its frame leaves and whose half holds an open window: STEP entries of the
lane's tracker, and then the half's gathering and judgement. -/
theorem exec_brings_window {bytes : List Byte} {f : PerTrack Int} {l : Lane} {n : Nat} {w : AzimuthWindow} {s : State}
    (hbrings : bringsFrame bytes f s) (hf : framesNeverStop s.setup) (hn : n = s.part.hcr.nextIndex)
    (hrun : (s.part.aza.get l).running = true) (hw : (s.part.aza.get l).window = some w) : ∃ t, exec (.frameSlot bytes) s = .next t
      ∧ ((n % 64 ≠ 0 ∨ s.part.take.device ≠ .run
            ∨ (s.part.sgt.arrival.get l).map Entry.start = (t.part.sgt.arrival.get l).map Entry.start) →
          ∃ (q : Part) (steps : List TimelineEntry), (∀ e ∈ steps, ∃ stamp v, e = ⟨stamp, .step v⟩)
            ∧ q.hcr.nextIndex = n + 1 ∧ q.aza.get l = { s.part.aza.get l with window := some (w.gather t.rings l n) }
            ∧ q.lanes.get l = steps.foldl (Producer.post s.setup.rates) (s.part.lanes.get l)
            ∧ t.part.aza.get l = (q.azimuthComplete s.setup l).aza.get l
            ∧ t.part.lanes.get l = (q.azimuthComplete s.setup l).lanes.get l) := by
  obtain ⟨t, answer, lane⟩ := exec_brings_lane hbrings hf l n hn
  refine ⟨t, answer, fun still => ?_⟩
  obtain ⟨r, d, c, ht, -, alike⟩ := lane still
  obtain ⟨p, hp⟩ : ∃ p : Part, p = { s.part with hcr := { s.part.hcr with nextIndex := n + 1 } } := ⟨_, rfl⟩
  rw [← hp] at alike
  have tracks := p.tracks_trackerFrame s.setup n f l
  have aza : (p.trackerFrame s.setup n f l).aza = s.part.aza := by rw [tracks.aza, hp]
  have index : (p.trackerFrame s.setup n f l).hcr.nextIndex = n + 1 := by rw [tracks.hcr, hp]
  have lanes : p.lanes = s.part.lanes := by rw [hp]
  obtain ⟨steps, hsteps, posted⟩ := tracks.steps
  rw [Part.azimuthFrame_open s.setup t.rings n (by rw [aza]; exact hw) (by rw [aza]; exact hrun), aza] at alike
  refine ⟨(p.trackerFrame s.setup n f l).setAligner l { s.part.aza.get l with window := some (w.gather t.rings l n) }, steps, hsteps,
    index, PerLane.get_set_same .., ?_, by rw [ht]; exact alike.aza, by rw [ht]; exact alike.lanes⟩
  rw [← lanes]
  exact posted

/-! ## The sums over a window (07, R123; log 14) -/

/-- A sum over places that vanishes in front of the n places from a on and behind them is the sum over those n. -/
theorem sum_range_eq_central {f g : Nat → Int} {a n b : Nat} (front : ∀ k < a, f k = 0) (central : ∀ k < n, f (a + k) = g k)
    (behind : ∀ k < b, f (a + n + k) = 0) : ((List.range (a + n + b)).map f).sum = ((List.range n).map g).sum := by
  have zero (h : Nat → Int) (j : Nat) (hz : ∀ k < j, h k = 0) : ((List.range j).map h).sum = 0 :=
    List.sum_eq_zero fun v hv => by
      obtain ⟨k, hk, rfl⟩ := List.mem_map.mp hv
      exact hz k (List.mem_range.mp hk)
  have middle : (List.range n).map (f ∘ (a + ·)) = (List.range n).map g :=
    List.map_congr_left fun k hk => central k (List.mem_range.mp hk)
  rw [List.range_add, List.range_add, List.map_append, List.map_append, List.map_map, List.map_map, List.sum_append, List.sum_append,
    zero f a front, zero (f ∘ (a + n + ·)) b behind, middle, zero_add, add_zero]

/-- The products that complete the lag at place m in the frames of a window are those of its central 2,016 first-track samples: the
frame k places into the window completes the product k - (m - 16) places in for a lag ahead, k places in for one behind. -/
theorem sum_lagTerm (r : Rings) (l : Lane) (start : Nat) {m : Nat} (hm : m < 33) :
    ((List.range 2048).map fun k => lagTerm r l start (start + k) m).sum
      = ((List.range 2016).map fun k => r.sample l.first ((start + 16 + k : Nat) : Int)
          * r.sample l.second (((start + 16 + k : Nat) : Int) + ((m : Int) - 16))).sum := by
  have frames : 2048 = 16 + (m - 16) + 2016 + (16 - (m - 16)) := by omega
  rw [frames]
  refine sum_range_eq_central (fun k hk => ?_) (fun k hk => ?_) (fun k hk => ?_) <;> unfold lagTerm <;> dsimp only
  · exact if_neg (by omega)
  · have place : start + (16 + (m - 16) + k) - start - (m - 16) = 16 + k := by omega
    rw [place, if_pos (by omega), ← Nat.add_assoc]
  · exact if_neg (by omega)

theorem sum_energyTerm (r : Rings) (t : Track) (start : Nat) :
    ((List.range 2048).map fun k => energyTerm r t start (start + k)).sum
      = ((List.range 2016).map fun k => r.sample t ((start + 16 + k : Nat) : Int) ^ 2).sum := by
  refine sum_range_eq_central (a := 16) (n := 2016) (b := 16) (fun k hk => ?_) (fun k hk => ?_) (fun k hk => ?_) <;> unfold energyTerm
  · exact if_neg (by omega)
  · rw [if_pos (by omega), ← Nat.add_assoc]
  · exact if_neg (by omega)

/-- The window of the given start after its first j frames. -/
def AzimuthWindow.gathered (r : Rings) (l : Lane) (start j : Nat) : AzimuthWindow :=
  (List.range j).foldl (fun w k => w.gather r l (start + k)) (AzimuthWindow.opened start)

theorem AzimuthWindow.gathered_succ (r : Rings) (l : Lane) (start j : Nat) :
    AzimuthWindow.gathered r l start (j + 1) = (AzimuthWindow.gathered r l start j).gather r l (start + j) := by
  unfold AzimuthWindow.gathered
  rw [List.range_succ, List.foldl_append, List.foldl_cons, List.foldl_nil]

theorem AzimuthWindow.gathered_start (r : Rings) (l : Lane) (start j : Nat) : (AzimuthWindow.gathered r l start j).start = start := by
  induction j with
  | zero => rfl
  | succ j ih => rw [AzimuthWindow.gathered_succ, AzimuthWindow.gather_start, ih]

theorem AzimuthWindow.opened_lag (start : Nat) {m : Nat} (hm : m < 33) : (AzimuthWindow.opened start).lag m = 0 := by
  unfold AzimuthWindow.lag AzimuthWindow.opened
  rw [List.getD_eq_getElem?_getD, List.getElem?_replicate, if_pos hm, Option.getD_some]

/-- A window takes a frame of its range. -/
theorem AzimuthWindow.gather_inside (r : Rings) (l : Lane) {n : Nat} {w : AzimuthWindow} (hfrom : w.start ≤ n)
    (hto : n < w.start + 2048) : (∀ m < 33, (w.gather r l n).lag m = w.lag m + lagTerm r l w.start n m)
      ∧ (w.gather r l n).e1 = w.e1 + energyTerm r l.first w.start n ∧ (w.gather r l n).e2 = w.e2 + energyTerm r l.second w.start n := by
  unfold AzimuthWindow.gather
  rw [if_pos ⟨hfrom, hto⟩]
  refine ⟨fun m hm => ?_, rfl, rfl⟩
  simp [AzimuthWindow.lag, hm]

/-- Within its range a window holds what its frames have added, term by term. -/
theorem AzimuthWindow.gathered_sums (r : Rings) (l : Lane) (start : Nat) {j : Nat} (hj : j ≤ 2048) :
    (∀ m < 33, (AzimuthWindow.gathered r l start j).lag m = ((List.range j).map fun k => lagTerm r l start (start + k) m).sum)
    ∧ (AzimuthWindow.gathered r l start j).e1 = ((List.range j).map fun k => energyTerm r l.first start (start + k)).sum
    ∧ (AzimuthWindow.gathered r l start j).e2 = ((List.range j).map fun k => energyTerm r l.second start (start + k)).sum := by
  induction j with
  | zero => exact ⟨fun m hm => AzimuthWindow.opened_lag start hm, rfl, rfl⟩
  | succ j ih =>
    obtain ⟨lags, energy1, energy2⟩ := ih (by omega)
    have hstart := AzimuthWindow.gathered_start r l start j
    obtain ⟨lags', energy1', energy2'⟩ := AzimuthWindow.gather_inside r l (n := start + j) (w := AzimuthWindow.gathered r l start j)
      (by omega) (by omega)
    rw [hstart] at lags' energy1' energy2'
    simp only [AzimuthWindow.gathered_succ, List.range_succ, List.map_append, List.map_cons, List.map_nil, List.sum_append,
      List.sum_singleton]
    exact ⟨fun m hm => by rw [lags' m hm, lags m hm], by rw [energy1', energy1], by rw [energy2', energy2]⟩

/-! ## The peak and the estimate (07, R124 to R126) -/

/-- The lag at place a goes before the lag at place b among equal correlations (07, R124): the lesser magnitude, the negative first. -/
def lagBefore (a b : Nat) : Prop :=
  ((a : Int) - 16).natAbs < ((b : Int) - 16).natAbs ∨ ((a : Int) - 16).natAbs = ((b : Int) - 16).natAbs ∧ a < b

theorem lagOrder_sorted : lagOrder.Pairwise lagBefore := by
  unfold lagBefore
  decide

theorem mem_lagOrder_iff (m : Nat) : m ∈ lagOrder ↔ m < 33 := by
  have all : ∀ m < 33, m ∈ lagOrder := by decide
  have only : ∀ m ∈ lagOrder, m < 33 := by decide
  exact ⟨only m, all m⟩

/-- A search that takes a place only for a greater value, along places in order of a preference R, ends at the place whose value is
greatest and which no place of the same value goes before. -/
theorem foldl_greatest_eq {c : Nat → Int} {R : Nat → Nat → Prop} {best : Nat} {ms : List Nat} {head : Nat}
    (sorted : (head :: ms).Pairwise R) (mem : best ∈ head :: ms)
    (greatest : ∀ m ∈ head :: ms, c m < c best ∨ c m = c best ∧ ¬R m best) :
    ms.foldl (fun b m => if c b < c m then m else b) head = best := by
  induction ms generalizing head with
  | nil => exact (List.mem_singleton.mp mem).symm
  | cons m ms ih =>
    rw [List.foldl_cons]
    have least : ∀ k ∈ head :: m :: ms, c k ≤ c best := fun k hk => (greatest k hk).elim le_of_lt fun h => le_of_eq h.1
    split
    case isTrue up =>
      refine ih (List.pairwise_cons.mp sorted).2 ((List.mem_cons.mp mem).resolve_left ?_)
        fun k hk => greatest k (List.mem_cons_of_mem _ hk)
      rintro rfl
      exact absurd (least m (by simp)) (not_le.mpr up)
    case isFalse stays =>
      refine ih (sorted.sublist (by simp)) ?_ fun k hk =>
        greatest k (List.mem_cons.mpr ((List.mem_cons.mp hk).imp_right (List.mem_cons_of_mem m)))
      have passed : best ≠ m := by
        rintro rfl
        rcases greatest head (by simp) with below | ⟨-, after⟩
        · exact stays below
        · exact after ((List.pairwise_cons.mp sorted).1 best (by simp))
      simpa [passed] using mem

/-- The peak is the place of the greatest correlation, the one that goes before the others among equals (07, R124). -/
theorem peakLag_eq {c : Nat → Int} {best : Nat} (hbest : best < 33)
    (greatest : ∀ m < 33, c m < c best ∨ c m = c best ∧ ¬lagBefore m best) : peakLag c = best := by
  obtain ⟨rest, order⟩ : ∃ rest, lagOrder = 16 :: rest := ⟨_, rfl⟩
  have sorted := lagOrder_sorted
  have mem := mem_lagOrder_iff
  rw [order] at sorted mem
  unfold peakLag
  rw [order, List.foldl_cons, ite_self]
  exact foldl_greatest_eq sorted ((mem best).mpr hbest) fun m hm => greatest m ((mem m).mp hm)

theorem accepted_iff (peak : Nat) (c0 e1 e2 : Int) (theta : Nat) : accepted peak c0 e1 e2 theta = true
    ↔ peak ≠ 0 ∧ peak ≠ 32 ∧ 0 < c0 ∧ (theta : Int) ^ 2 * e1 * e2 ≤ c0 ^ 2 * 65536 := by
  simp [accepted, and_assoc]

theorem windowEstimate_rejected {w : AzimuthWindow} {theta m : Nat} (peak : peakLag w.lag = m)
    (h : ¬accepted m (w.lag m) w.e1 w.e2 theta = true) : windowEstimate w theta = none := by
  unfold windowEstimate
  rw [peak]
  exact if_neg h

theorem windowEstimate_accepted {w : AzimuthWindow} {theta m : Nat} (peak : peakLag w.lag = m)
    (h : accepted m (w.lag m) w.e1 w.e2 theta = true) : windowEstimate w theta
      = some (256 * ((m : Int) - 16) + refinement (w.lag (m - 1)) (w.lag m) (w.lag (m + 1))) := by
  unfold windowEstimate
  rw [peak]
  exact if_pos h

theorem refinement_flat {cm c0 cp : Int} (h : cm - 2 * c0 + cp = 0) : refinement cm c0 cp = 0 := by
  unfold refinement
  exact if_neg (by omega)

theorem refinement_peaked {cm c0 cp : Int} (h : cm - 2 * c0 + cp < 0) : refinement cm c0 cp
    = clampInt (-128) 128 ((2 * (256 * (cp - cm)) + 2 * -(cm - 2 * c0 + cp)) / (2 * (2 * -(cm - 2 * c0 + cp)))) := by
  unfold refinement
  exact if_pos h

/-! ## The obligation -/

/-- Settles O45: the row through its two judgements (`Part.azimuthComplete_rejected`, `Part.azimuthComplete_accepted`), the frame
through `exec_brings_window`, the sums through `AzimuthWindow.gathered_sums`, and the estimate through `peakLag_eq`. -/
theorem azimuthWindows : Obligations.AzimuthWindows := by
  refine ⟨?judged, ?gathers, ?sums, ?estimate⟩
  case judged =>
    rintro l s w _ _ rfl hw hrun hfull rfl
    refine ⟨fun rejected => ?_, ?_⟩
    · show Host.Outcome.next { s with part := s.part.azimuthComplete s.setup l } = _
      rw [Part.azimuthComplete_rejected hw hrun hfull _ rejected]
      rfl
    · rintro e accepts _ rfl
      show Host.Outcome.next { s with part := s.part.azimuthComplete s.setup l } = _
      rw [Part.azimuthComplete_accepted hw hrun hfull _ accepts]
      rfl
  case gathers =>
    intro bytes f l n w s hbrings hf hn hrun hw hfrom
    obtain ⟨t, answer, lane⟩ := exec_brings_window hbrings hf hn hrun hw
    refine ⟨t, answer, fun still => ?_⟩
    obtain ⟨q, steps, hsteps, index, half, posted, aza, lanes⟩ := lane still
    have window : (q.aza.get l).window = some (w.gather t.rings l n) := by rw [half]
    have running : (q.aza.get l).running = true := by rw [half]; exact hrun
    have theta : (q.aza.get l).theta = (s.part.aza.get l).theta := by rw [half]
    rw [aza, lanes]
    refine ⟨fun early => ?_, ?_⟩
    · rw [Part.azimuthComplete_early s.setup window (by rw [index, AzimuthWindow.gather_start]; exact early), half]
    · rintro last _ _ _ rfl rfl rfl
      have full : (w.gather t.rings l n).start + 2048 ≤ q.hcr.nextIndex := by rw [index, AzimuthWindow.gather_start, last]
      refine ⟨steps, hsteps, fun rejected => ?_, ?_⟩
      · rw [Part.azimuthComplete_rejected window running full _ (by rw [theta]; exact rejected), half, AzimuthWindow.gather_start]
        exact ⟨PerLane.get_set_same .., posted⟩
      · rintro e accepts _ rfl
        rw [Part.azimuthComplete_accepted window running full _ (by rw [theta]; exact accepts), half, AzimuthWindow.gather_start,
          ← posted]
        exact ⟨PerLane.get_set_same .., PerLane.get_set_same ..⟩
  case sums =>
    intro rings l start w first second hw hfirst hsecond
    replace hw : w = AzimuthWindow.gathered rings l start 2048 := hw
    obtain ⟨lags, energy1, energy2⟩ := AzimuthWindow.gathered_sums rings l start (Nat.le_refl 2048)
    rw [← hw] at lags energy1 energy2
    simp only [hfirst, hsecond]
    exact ⟨hw ▸ AzimuthWindow.gathered_start rings l start 2048, fun m hm => (lags m hm).trans (sum_lagTerm rings l start hm),
      energy1.trans (sum_energyTerm ..), energy2.trans (sum_energyTerm ..)⟩
  case estimate =>
    intro w theta l c hc hlo hhi greatest
    obtain ⟨best, rfl⟩ : ∃ best : Nat, l = (best : Int) - 16 := ⟨(l + 16).toNat, by omega⟩
    have lagAt (m : Nat) (hm : m < 33) : c ((m : Int) - 16) = w.lag m := by
      rw [hc _ (by omega) (by omega), Int.sub_add_cancel, Int.toNat_natCast]
    have peak : peakLag w.lag = best := peakLag_eq (by omega) fun m hm => by
      have h := greatest ((m : Int) - 16) (by omega) (by omega)
      rw [lagAt m hm, lagAt best (by omega)] at h
      refine h.imp_right fun ⟨same, goes⟩ => ⟨same, ?_⟩
      unfold lagBefore
      omega
    rw [lagAt best (by omega)]
    refine ⟨fun fails => windowEstimate_rejected peak ?_, fun above below positive confident => ?_⟩
    · rw [accepted_iff]
      rintro ⟨notLow, notHigh, positive, confident⟩
      rcases fails with low | high | negative | unlike
      · omega
      · omega
      · omega
      · exact absurd confident (not_le.mpr unlike)
    · rintro _ rfl
      have before : c ((best : Int) - 16 - 1) = w.lag (best - 1) := by
        rw [← lagAt (best - 1) (by omega)]
        congr 1
        omega
      have behind : c ((best : Int) - 16 + 1) = w.lag (best + 1) := by
        rw [← lagAt (best + 1) (by omega)]
        congr 1
        omega
      rw [before, behind, windowEstimate_accepted peak ((accepted_iff ..).mpr ⟨by omega, by omega, positive, confident⟩)]
      exact ⟨fun flat => by rw [refinement_flat flat, add_zero], fun peaked => by rw [refinement_peaked peaked]⟩

end Sys2Proof.Machine
end

section
/-! SUPPORT and PROOFS. Concealment at a production step: what `concealTrack` makes of one track, and that a step does just that to each
track of its lane, the first with the second as partner and the second with the first (O24). -/

namespace Sys2Proof.Machine

open Sys2Proof.Safety

/-! ## Spans (08, R144, R151) -/

theorem Span.holds_iff (sp : Span) (index : Int) :
    sp.holds index = true ↔ (sp.start : Int) ≤ index ∧ ∀ last, sp.last = some last → index ≤ last := by
  unfold Span.holds
  cases sp.last <;> simp

theorem insideSpans_iff (index : Int) (spans : List Span) : insideSpans index spans = true
    ↔ ∃ sp ∈ spans, (sp.start : Int) ≤ index ∧ ∀ last, sp.last = some last → index ≤ last := by
  simp only [insideSpans, List.any_eq_true, Span.holds_iff]

theorem Span.not_passed (index : Int) (sp : Span) : (!sp.passed index) = sp.last.all fun last => decide (index ≤ last) := by
  unfold Span.passed
  cases sp.last
  · rfl
  · exact (decide_not ..).symm.trans (decide_eq_decide.mpr not_lt)

/-- The record of a track at an index, the spans it has passed taken out. -/
def Concealer.pruned (index : Int) (c : Concealer) : Concealer := { c with spans := c.spans.filter fun sp => !sp.passed index }

theorem Concealer.pruned_spans (index : Int) (c : Concealer) :
    (c.pruned index).spans = c.spans.filter fun sp => sp.last.all fun last => decide (index ≤ last) := by
  simp only [Concealer.pruned, Span.not_passed]

theorem Concealer.affected_iff (settings : Settings) (index : Int) (c : Concealer) :
    c.affected settings index = true ↔ insideSpans index c.spans = true ∧ settings.policy ≠ .off := by
  simp [Concealer.affected, and_comm]

theorem Concealer.affected_pruned (settings : Settings) (index : Int) (c : Concealer) :
    (c.pruned index).affected settings index = c.affected settings index :=
  congrArg (settings.policy != .off && ·) (insideSpans_kept c.spans index)

/-- Spans passed, of the track or of its partner, have no part in the choice of the source. -/
theorem Concealer.chosen_pruned (settings : Settings) (muted : Bool) (i j : Int) (c d : Concealer) :
    (c.pruned i).chosen settings muted i j (d.pruned j).spans = c.chosen settings muted i j d.spans := by
  have partner : insideSpans j (d.pruned j).spans = insideSpans j d.spans := insideSpans_kept d.spans j
  unfold Concealer.chosen
  rw [c.affected_pruned, partner]
  rfl

/-! ## The substitute source (08, R145, R149) -/

section Source
variable {settings : Settings} {muted : Bool} {i j : Int} {spans : List Span} {c : Concealer}

theorem Concealer.chosen_muted (hm : muted = true) : c.chosen settings muted i j spans = .zero := if_pos hm

theorem Concealer.chosen_pair (hm : ¬muted = true) (ha : c.affected settings i = true) (hpolicy : settings.policy = .conceal)
    (hpair : settings.pairing = .monoPair) :
    c.chosen settings muted i j spans = if insideSpans j spans then .zero else .partner := by
  unfold Concealer.chosen chooseSource
  rw [if_neg hm, ha, hpolicy, hpair]
  rfl

theorem Concealer.chosen_alone (hm : ¬muted = true) (ha : c.affected settings i = true)
    (hpolicy : settings.policy = .conceal ∨ settings.policy = .mute)
    (hpair : ¬(settings.policy = .conceal ∧ settings.pairing = .monoPair)) : c.chosen settings muted i j spans = .zero := by
  unfold Concealer.chosen chooseSource
  rw [if_neg hm, if_neg (by simpa [ha] using hpair), if_pos (by simpa [ha] using hpolicy)]

theorem Concealer.chosen_held (hm : ¬muted = true)
    (hc : ¬(c.affected settings i = true ∧ (settings.policy = .conceal ∨ settings.policy = .mute))) :
    c.chosen settings muted i j spans = if c.source = .partner ∧ insideSpans j spans = true then .zero else c.source := by
  have unpaired : ¬(c.affected settings i = true ∧ settings.policy = .conceal ∧ settings.pairing = .monoPair) :=
    fun ⟨ha, hpolicy, _⟩ => hc ⟨ha, .inl hpolicy⟩
  unfold Concealer.chosen chooseSource
  rw [if_neg hm, if_neg (by simpa [and_assoc] using unpaired), if_neg (by simpa using hc)]
  simp

end Source

/-! ## The weight, the action and the marks (08, R146, R148, R149) -/

theorem weightAfter_eq (muted affected : Bool) (policy : DropoutPolicy) (g : Nat) : weightAfter muted affected policy g
    = if muted = true ∨ affected = true ∧ (policy = .conceal ∨ policy = .mute) then g - 1 else min 64 (g + 1) := by
  simp [weightAfter]

section Action
variable {muted affected : Bool} {policy : DropoutPolicy} {source : Substitute}

theorem actionOf_none (ha : ¬affected = true) : actionOf muted affected policy source = .none := if_neg ha

theorem actionOf_marked (ha : affected = true) (hm : ¬muted = true) (hpolicy : policy = .mark) :
    actionOf muted affected policy source = .marked := by
  simp [actionOf, ha, hm, hpolicy]

theorem actionOf_crossfill (ha : affected = true) (hm : ¬muted = true) (hpolicy : policy ≠ .mark) (hs : source = .partner) :
    actionOf muted affected policy source = .crossfill := by
  simp [actionOf, ha, hm, hpolicy, hs]

theorem actionOf_mute (ha : affected = true) (h : muted = true ∨ policy ≠ .mark ∧ source = .zero) :
    actionOf muted affected policy source = .mute := by
  rcases h with hm | ⟨hpolicy, hs⟩
  · simp [actionOf, ha, hm]
  · simp [actionOf, ha, hpolicy, hs]

end Action

theorem ActionSet.add_eq (s : ActionSet) (a : TrackAction) :
    s.add a = ⟨s.marked || a == .marked, s.crossfill || a == .crossfill, s.mute || a == .mute⟩ := by
  obtain ⟨marked, crossfill, mute⟩ := s
  cases a <;> simp [ActionSet.add]

/-- What a frame makes of a span of a track at an index, the track affected or not. -/
def Span.marked (affected : Bool) (index : Int) (action : TrackAction) (frame : Nat) (sp : Span) : Span :=
  if affected = true ∧ sp.holds index = true then
    { sp with actions := sp.actions.add action, firstFrame := some (sp.firstFrame.getD frame), lastFrame := some frame }
  else sp

theorem map_marked (affected : Bool) (index : Int) (action : TrackAction) (frame : Nat) (spans : List Span) :
    spans.map (Span.marked affected index action frame) = if affected then markSpans index action frame spans else spans := by
  unfold Span.marked
  cases affected
  · simp
  · simp [markSpans]

/-! ## One track at one step (08, R144 to R149) -/

/-- The record a frame leaves a track. -/
theorem concealTrack_record {settings : Settings} {muted : Bool} {frame : Nat} {own partner i j : Int} {spans : List Span}
    {c : Concealer} {k : Concealer × TrackPart} (hk : k = concealTrack settings muted frame own partner i j spans c) :
    k.1 = ⟨weightAfter muted (c.affected settings i) settings.policy c.g, c.chosen settings muted i j spans,
      c.spans.map (Span.marked (c.affected settings i) i k.2.action frame)⟩ := by
  subst hk
  rw [map_marked]
  rfl

/-- A track's part of a frame, told of the record the frame leaves it. -/
theorem concealTrack_part {settings : Settings} {muted : Bool} {frame : Nat} {own partner i j : Int} {spans : List Span}
    {c : Concealer} {k : Concealer × TrackPart} (hk : k = concealTrack settings muted frame own partner i j spans c) :
    k.2 = ⟨mix own (if k.1.source = .partner then partner else 0) k.1.g,
      actionOf muted (c.affected settings i) settings.policy k.1.source, decide (k.1.g < 64),
      k.1.source != c.source && decide (k.1.g < 64)⟩ := by
  have substitute (source : Substitute) :
      (match source with | .partner => partner | .zero => 0) = if source = .partner then partner else 0 := by
    cases source <;> rfl
  subst hk
  rw [← substitute]
  rfl

/-! ## The two tracks of a lane (06, R108; 08, R144) -/

/-- A track of lane l and its partner. -/
def Partners (l : Lane) (tr other : Track) : Prop := tr = l.first ∧ other = l.second ∨ tr = l.second ∧ other = l.first

theorem Partners.lane {l : Lane} {tr other : Track} (h : Partners l tr other) : tr.lane = l := by
  rcases h with ⟨rfl, -⟩ | ⟨rfl, -⟩
  · exact Lane.first_lane l
  · exact Lane.second_lane l

/-- The index of a track of lane l. -/
def Producer.place (l : Lane) (x : Producer) (tr : Track) : Int := x.trackIndex (decide (tr = l.second))

theorem Producer.place_first (l : Lane) (x : Producer) : x.place l l.first = x.trackIndex false := by simp [Producer.place]
theorem Producer.place_second (l : Lane) (x : Producer) : x.place l l.second = x.trackIndex true := by simp [Producer.place]

/-- The sample the convolution makes for a track of lane l. -/
def Producer.own (u : Setup) (rings : Rings) (bank : LoadedBank) (l : Lane) (x : Producer) (tr : Track) : Int :=
  saturate24 (if tr = l.first then x.firstValue u rings bank l else x.secondValue u rings bank l)

theorem Producer.own_first (u : Setup) (rings : Rings) (bank : LoadedBank) (l : Lane) (x : Producer) :
    x.own u rings bank l l.first = saturate24 (x.firstValue u rings bank l) := by simp [Producer.own]

theorem Producer.own_second (u : Setup) (rings : Rings) (bank : LoadedBank) (l : Lane) (x : Producer) :
    x.own u rings bank l l.second = saturate24 (x.secondValue u rings bank l) := by
  simp [Producer.own, (Lane.first_ne_second l).symm]

/-- A frame's part for a track of lane l. -/
def SampleFrame.partOf (l : Lane) (f : SampleFrame) (tr : Track) : TrackPart := if tr = l.first then f.first else f.second

theorem SampleFrame.partOf_first (l : Lane) (f : SampleFrame) : f.partOf l l.first = f.first := if_pos rfl
theorem SampleFrame.partOf_second (l : Lane) (f : SampleFrame) : f.partOf l l.second = f.second := if_neg (Lane.first_ne_second l).symm

/-- The mute of a lane as R179 says it. -/
theorem Part.muted_iff (u : Setup) (p : Part) (l : Lane) : p.muted u l = true ↔ (p.cmn.lockLost.get l).flag = true
    ∧ (u.policies.lockLost.get l).policy = .muteLane ∧ (u.policies.lockLost.get l).scope = .lane := by
  simp [Part.muted, PerCond.get, and_assoc]

/-! ## The body of a step (06, R108, R110) -/

section Body
variable {u : Setup} {rings : Rings} {bank : LoadedBank} {l : Lane} {x : Producer} {p w q : Part} {tr other : Track}

/-- What the body of a step makes of the track tr: x is the lane after its due timeline entries, p the part before the step. -/
structure Part.Conceals (u : Setup) (rings : Rings) (bank : LoadedBank) (l : Lane) (x : Producer) (tr other : Track) (p q : Part) :
    Prop where
  unframed : x.settings.source = .off ∨ Config.maxFifo ≤ x.fifo.length → q.con.get tr = { (p.con.get tr).pruned (x.place l tr) with
    source := (p.con.get tr).chosen x.settings (p.muted u l) (x.place l tr) (x.place l other) (p.con.get other).spans }
  framed : x.settings.source ≠ .off → x.fifo.length < Config.maxFifo → ∃ f : SampleFrame,
    (q.lanes.get l).fifo = x.fifo ++ [f] ∧ f.muted = p.muted u l
    ∧ (q.con.get tr, f.partOf l tr) = concealTrack x.settings (p.muted u l) x.frameCount (x.own u rings bank l tr)
        (x.own u rings bank l other) (x.place l tr) (x.place l other) ((p.con.get other).pruned (x.place l other)).spans
        ((p.con.get tr).pruned (x.place l tr))

/-- What is left once the records of spans passed are written: each track without those spans, and the mute as it was. -/
structure Part.Pruned (u : Setup) (l : Lane) (x : Producer) (p w : Part) : Prop where
  lane : w.lanes.get l = x
  first : w.con.get l.first = (p.con.get l.first).pruned (x.place l l.first)
  second : w.con.get l.second = (p.con.get l.second).pruned (x.place l l.second)
  muted : w.muted u l = p.muted u l

theorem Part.pruned_writePassed (u : Setup) (l : Lane) (x : Producer) (p : Part) :
    p.Pruned u l x ((p.setProducer l x).writePassed u l) := by
  obtain ⟨g, c, b, m, con, e, first, second, -, conds, -⟩ := (p.setProducer l x).writePassed_touch u l x (by simp)
  rw [e]
  refine ⟨PerLane.get_set_same .., ?_, ?_, ?_⟩
  · rw [x.place_first]
    exact first
  · rw [x.place_second]
    exact second
  · unfold Part.muted
    dsimp only
    rw [conds _ (by simp)]
    rfl

/-- The choice of sources at a step that makes no frame. -/
theorem Part.Pruned.con_chooseSources (h : p.Pruned u l x w) (ht : Partners l tr other) :
    (w.chooseSources u l).con.get tr = { (p.con.get tr).pruned (x.place l tr) with
      source := (p.con.get tr).chosen x.settings (p.muted u l) (x.place l tr) (x.place l other) (p.con.get other).spans } := by
  obtain ⟨lane, first, second, muted⟩ := h
  unfold Part.chooseSources
  dsimp only
  rw [lane, first, second, muted, ← x.place_first l, ← x.place_second l]
  simp only [Part.setConcealer_con, Concealer.chosen_pruned]
  rcases ht with ⟨rfl, rfl⟩ | ⟨rfl, rfl⟩
  · rw [PerTrack.get_set_other _ _ (Lane.first_ne_second l), PerTrack.get_set_same]
  · rw [PerTrack.get_set_same]

/-- The concealment of a step that makes a frame. -/
theorem Part.Pruned.conceals_makeFrame (h : p.Pruned u l x w) (ht : Partners l tr other) : ∃ f : SampleFrame,
    ((w.makeFrame u rings bank l).lanes.get l).fifo = x.fifo ++ [f] ∧ f.muted = p.muted u l
    ∧ ((w.makeFrame u rings bank l).con.get tr, f.partOf l tr) = concealTrack x.settings (p.muted u l) x.frameCount
        (x.own u rings bank l tr) (x.own u rings bank l other) (x.place l tr) (x.place l other)
        ((p.con.get other).pruned (x.place l other)).spans ((p.con.get tr).pruned (x.place l tr)) := by
  obtain ⟨lane, first, second, muted⟩ := h
  obtain ⟨c, k, m, made, -⟩ := w.makeFrame_spec u rings bank l x lane.symm _ _ rfl rfl _ _ rfl rfl
  rw [made]
  refine ⟨_, by rw [PerLane.get_set_same], muted, ?_⟩
  dsimp only
  rcases ht with ⟨rfl, rfl⟩ | ⟨rfl, rfl⟩
  · rw [PerTrack.get_set_other _ _ (Lane.first_ne_second l), PerTrack.get_set_same, SampleFrame.partOf_first, first, second, muted,
      x.place_first, x.place_second, x.own_first, x.own_second]
  · rw [PerTrack.get_set_same, SampleFrame.partOf_second, first, second, muted,
      x.place_first, x.place_second, x.own_first, x.own_second]

theorem Part.conceals_stepLane (u : Setup) (rings : Rings) (bank : LoadedBank) (p : Part) (ht : Partners l tr other)
    (hx : x = (p.lanes.get l).applyDue u.rates) : p.Conceals u rings bank l x tr other (p.stepLane u rings bank l) := by
  obtain ⟨w, hw⟩ : ∃ w, w = (p.setProducer l x).writePassed u l := ⟨_, rfl⟩
  have pruned : p.Pruned u l x w := hw ▸ p.pruned_writePassed u l x
  have lane := pruned.lane
  have body : p.stepLane u rings bank l = if x.settings.source = .off then (w.chooseSources u l).advanceLane l
      else if x.fifo.length < Config.maxFifo then (w.makeFrame u rings bank l).advanceLane l else w.chooseSources u l := by
    rw [← lane, hw, hx]
    rfl
  have advanced (r : Part) : ((r.advanceLane l).lanes.get l).fifo = (r.lanes.get l).fifo := by rw [Part.advanceLane_get rfl]
  rw [body]
  refine ⟨fun h => ?_, fun on room => ?_⟩
  · rcases h with off | full
    · rw [if_pos off]
      exact pruned.con_chooseSources ht
    · split
      · exact pruned.con_chooseSources ht
      · rw [if_neg (not_lt.mpr full)]
        exact pruned.con_chooseSources ht
  · rw [if_neg on, if_pos room, advanced]
    exact pruned.conceals_makeFrame ht

/-- The source a track holds after the body of a step, with a frame or without. -/
theorem Part.Conceals.source (h : p.Conceals u rings bank l x tr other q) : (q.con.get tr).source
    = (p.con.get tr).chosen x.settings (p.muted u l) (x.place l tr) (x.place l other) (p.con.get other).spans := by
  by_cases unmade : x.settings.source = .off ∨ Config.maxFifo ≤ x.fifo.length
  · rw [h.unframed unmade]
  · obtain ⟨on, room⟩ := not_or.mp unmade
    obtain ⟨f, -, -, made⟩ := h.framed on (not_le.mp room)
    have record := concealTrack_record made
    dsimp only at record
    rw [record]
    exact Concealer.chosen_pruned ..

/-- What a step that makes a frame makes of the track's weight, of its spans and of its part of the frame. -/
theorem Part.Conceals.frame (h : p.Conceals u rings bank l x tr other q) (on : x.settings.source ≠ .off)
    (room : x.fifo.length < Config.maxFifo) {affected : Bool} (ha : affected = (p.con.get tr).affected x.settings (x.place l tr))
    {d : Concealer} (hd : d = q.con.get tr) : ∃ f : SampleFrame, ∃ action,
    (q.lanes.get l).fifo = x.fifo ++ [f] ∧ f.muted = p.muted u l
    ∧ action = actionOf (p.muted u l) affected x.settings.policy d.source
    ∧ d.g = weightAfter (p.muted u l) affected x.settings.policy (p.con.get tr).g
    ∧ d.spans = ((p.con.get tr).pruned (x.place l tr)).spans.map (Span.marked affected (x.place l tr) action x.frameCount)
    ∧ f.partOf l tr = ⟨mix (x.own u rings bank l tr) (if d.source = .partner then x.own u rings bank l other else 0) d.g, action,
        decide (d.g < 64), d.source != (p.con.get tr).source && decide (d.g < 64)⟩ := by
  obtain ⟨f, fifo, muted, made⟩ := h.framed on room
  have record := concealTrack_record made
  have part := concealTrack_part made
  rw [Concealer.affected_pruned, ← ha] at record part
  dsimp only at record part
  rw [← hd] at record part
  refine ⟨f, (f.partOf l tr).action, fifo, muted, by rw [part], by rw [record]; rfl, by rw [record], ?_⟩
  rw [part]
  rfl

end Body

/-! ## The whole step -/

/-- What a step that stops nothing adds to its body: a track of its lane keeps its weight and its source, and its spans too unless the
lane finishes; the FIFO is as the body left it. -/
theorem Part.laneStep_keeps_concealment {u : Setup} (rings : Rings) (bank : LoadedBank) {l : Lane} {p : Part} {tr : Track} (htr : tr.lane = l)
    (still : p.stopPending = false) (allowed : policiesAllowed u.policies = true) (never : neverStops u.policies.logFull) :
    ∃ spans, (p.laneStep u rings bank l).closeTake.con.get tr = { (p.stepLane u rings bank l).con.get tr with spans := spans }
      ∧ (((p.laneStep u rings bank l).closeTake.lanes.get l).state ≠ .idle → spans = ((p.stepLane u rings bank l).con.get tr).spans)
      ∧ ((p.laneStep u rings bank l).closeTake.lanes.get l).fifo = ((p.stepLane u rings bank l).lanes.get l).fifo := by
  obtain ⟨f, body⟩ := p.stepLane_spec u rings bank l rfl
  obtain ⟨q, hq⟩ : ∃ q, q = p.stepLane u rings bank l := ⟨_, rfl⟩
  rw [← hq] at body ⊢
  have pending : q.stopPending = false := (body.stop never (neverStops_clip allowed l)).trans still
  have whole : p.laneStep u rings bank l = (q.finishIfDone u l).takeStop u := by rw [hq]; rfl
  obtain ⟨k, m, close⟩ := (p.laneStep u rings bank l).closeTake_spec
  rw [close, whole]
  obtain ⟨stays, finishes⟩ := q.finishIfDone_spec u l _ Iff.rfl
  by_cases done : (q.lanes.get l).state = .draining ∧ ∀ r, q.take.record = some r → ∀ e, r.endIndex = some e →
      e < (q.lanes.get l).acc / 16777216 + 32
  · obtain ⟨g, c, b, n, con, finished, emptied, -, -, stop⟩ := finishes done
    rw [Part.takeStop_none u (by rw [finished]; exact (stop never).trans pending), finished]
    dsimp only
    rw [PerLane.get_set_same]
    exact ⟨[], emptied tr htr, fun works => absurd rfl works, rfl⟩
  · rw [stays done, Part.takeStop_none u pending]
    exact ⟨(q.con.get tr).spans, rfl, fun _ => rfl, rfl⟩

/-- Settles O24: the step does to the track what `concealTrack` or, without a frame, the choice of the source does
(`Part.conceals_stepLane`), the finish of the lane adds at most the emptying of its lists (`Part.laneStep_keeps_concealment`), and the rules of the
source, the weight, the action and the marks say the rest. -/
theorem concealment : Obligations.Concealment := by
  intro l tr other s x place own inside holds affected muted conceals c kept may still allowed never ht hx hc hplace1 hplace2 hown1 hown2
    hinside hholds haffected hmuted hconceals hkept
  have place_eq : ∀ k : Track, k.lane = l → x.place l k = place k := by
    intro k hk
    rcases Lane.track_cases hk with rfl | rfl
    · exact (x.place_first l).trans hplace1.symm
    · exact (x.place_second l).trans hplace2.symm
  have own_eq : ∀ k : Track, k.lane = l → x.own s.setup s.rings s.bank l k = own k := by
    intro k hk
    rcases Lane.track_cases hk with rfl | rfl
    · rw [x.own_first, hown1, hplace1]
      rfl
    · rw [x.own_second, hown2, hplace2, x.secondValue_eq]
  have partners : Partners l tr other := ht
  have trLane : tr.lane = l := partners.lane
  have otherLane : other.lane = l := Partners.lane (ht.symm.imp And.symm And.symm)
  have conceal := s.part.conceals_stepLane s.setup s.rings s.bank partners hx
  obtain ⟨spans, record, listed, fifo⟩ := s.part.laneStep_keeps_concealment s.rings s.bank trLane still allowed never
  obtain ⟨t, htail⟩ : ∃ t, t = (s.part.laneStep s.setup s.rings s.bank l).closeTake := ⟨_, rfl⟩
  obtain ⟨q, hq⟩ : ∃ q, q = s.part.stepLane s.setup s.rings s.bank l := ⟨_, rfl⟩
  rw [← htail, ← hq] at record listed fifo
  rw [← hq] at conceal
  have source := conceal.source
  obtain ⟨d, hd⟩ : ∃ d, d = q.con.get tr := ⟨_, rfl⟩
  have framed := fun on room => conceal.frame on room rfl hd
  have unframed := conceal.unframed
  rw [← hd] at source record listed unframed
  rw [← hc, place_eq tr trLane, place_eq other otherLane] at source unframed
  rw [← hc, place_eq tr trLane, own_eq tr trLane, own_eq other otherLane, Concealer.pruned_spans, ← hkept] at framed
  have source' : (t.con.get tr).source = d.source := by rw [record]
  have weight' : (t.con.get tr).g = d.g := by rw [record]
  have spans' (works : (t.lanes.get l).state ≠ .idle) : (t.con.get tr).spans = d.spans := by rw [record, listed works]
  have mutedIff : s.part.muted s.setup l = true ↔ muted := (s.part.muted_iff s.setup l).trans hmuted.symm
  have insideIff (k : Track) : insideSpans (place k) (s.part.con.get k).spans = true ↔ inside k :=
    (insideSpans_iff ..).trans (hinside k).symm
  have affectedIff : c.affected x.settings (place tr) = true ↔ affected := by
    rw [Concealer.affected_iff, hc, insideIff, haffected]
  have concealsIff : c.affected x.settings (place tr) = true ∧ (x.settings.policy = .conceal ∨ x.settings.policy = .mute) ↔ conceals := by
    rw [affectedIff, hconceals]
  have holdsIff (sp : Span) : sp.holds (place tr) = true ↔ holds sp := (sp.holds_iff _).trans (hholds sp).symm
  refine ⟨{ s with part := t }, by rw [htail]; exact exec_productionStep may, ?_⟩
  dsimp only
  rw [source', weight', fifo]
  refine ⟨fun hm => ?muted, fun hm ha hpolicy hpair => ?pair, fun hm hcon hpair => ?alone, fun hm hcon => ?held, fun unmade => ?unframed,
    fun on room => ?framed⟩
  case muted => exact source.trans (Concealer.chosen_muted (mutedIff.mpr hm))
  case pair =>
    rw [source, Concealer.chosen_pair (mt mutedIff.mp hm) (affectedIff.mpr ha) hpolicy hpair, ← insideIff]
    exact ⟨fun inside => if_pos inside, fun outside => if_neg outside⟩
  case alone =>
    obtain ⟨ha, hpolicy⟩ := concealsIff.mpr hcon
    exact source.trans (Concealer.chosen_alone (mt mutedIff.mp hm) ha hpolicy hpair)
  case held =>
    rw [source, Concealer.chosen_held (mt mutedIff.mp hm) (mt concealsIff.mp hcon), ← insideIff]
    exact ⟨fun partner inside => if_pos ⟨partner, inside⟩, fun other => if_neg other⟩
  case unframed =>
    have left := unframed unmade
    refine ⟨by rw [left]; rfl, fun works => ?_⟩
    rw [spans' works, left, hkept]
    exact Concealer.pruned_spans ..
  case framed =>
    obtain ⟨f, action, pushed, mutes, acts, weight, marked, part⟩ := framed on room
    have weightMoves := or_congr mutedIff concealsIff
    rw [weightAfter_eq] at weight
    refine ⟨fun falls => weight.trans (if_pos (weightMoves.mpr falls)), fun rises => weight.trans (if_neg (mt weightMoves.mp rises)),
      f, f.partOf l tr,
      Span.marked (c.affected x.settings (place tr)) (place tr) action x.frameCount, pushed, by rw [mutes, mutedIff], rfl, ?_⟩
    rw [part]
    refine ⟨rfl, decide_eq_true_iff, by simp, fun ha => ?unmarked, fun ha hm hpolicy => ?marked, fun ha hm hpolicy hs => ?crossfill,
      fun ha h => ?mute, fun sp h => ?spares, fun sp ha h => ?marks, fun works => (spans' works).trans marked⟩
    case unmarked => exact acts.trans (actionOf_none (mt affectedIff.mp ha))
    case marked => exact acts.trans (actionOf_marked (affectedIff.mpr ha) (mt mutedIff.mp hm) hpolicy)
    case crossfill => exact acts.trans (actionOf_crossfill (affectedIff.mpr ha) (mt mutedIff.mp hm) hpolicy hs)
    case mute => exact acts.trans (actionOf_mute (affectedIff.mpr ha) (h.imp_left mutedIff.mpr))
    case spares => exact if_neg (by rwa [affectedIff, holdsIff])
    case marks =>
      rw [← ActionSet.add_eq]
      exact if_pos ⟨affectedIff.mpr ha, (holdsIff sp).mpr h⟩

end Sys2Proof.Machine
end

section
/-! PROOFS. The commands' gate: what each device state admits and what an owner never answers (O29), the move between STANDBY and
CONFIGURE (O6), and the message threshold (O12). -/

namespace Sys2Proof.Machine

open Sys2Proof.Safety

/-! ## An owner never answers WRONG_STATE (09, R156) -/

theorem adjustedIf_ne_wrongState (changed : Bool) : adjustedIf changed ≠ .wrongState := by cases changed <;> nofun

theorem ownSetState_code (target : Byte) (s : State) : (ownSetState target s).code ≠ .wrongState := by
  unfold ownSetState
  split
  case h_1 => nofun
  case h_2 => nofun
  case h_3 =>
    split
    · nofun
    · split <;> nofun
  case h_4 =>
    split
    · nofun
    · split <;> nofun

theorem ownLockTables_code (flag : Byte) (s : State) : (ownLockTables flag s).code ≠ .wrongState := by
  unfold ownLockTables
  split <;> nofun

theorem ownSetRates_code (fr fo : BitVec 24) (s : State) : (ownSetRates fr fo s).code ≠ .wrongState := by
  unfold ownSetRates
  split
  · nofun
  · split
    · nofun
    · split
      · nofun
      · exact adjustedIf_ne_wrongState _

theorem ownLoadCoeffRow_code (row : Byte) (coeffs : List (BitVec 24)) (s : State) :
    (ownLoadCoeffRow row coeffs s).code ≠ .wrongState := by
  unfold ownLoadCoeffRow
  split
  · nofun
  · exact adjustedIf_ne_wrongState _

theorem ownSelectBank_code (bank : Byte) (s : State) : (ownSelectBank bank s).code ≠ .wrongState := by
  unfold ownSelectBank
  split
  · nofun
  · split
    · nofun
    · split <;> nofun

theorem ownSetDeck_code (args : DeckArgs) (s : State) : (ownSetDeck args s).code ≠ .wrongState := by
  unfold ownSetDeck
  split
  · exact adjustedIf_ne_wrongState _
  · nofun

theorem ownSetMonitor_code (source freeze : Byte) (s : State) : (ownSetMonitor source freeze s).code ≠ .wrongState := by
  unfold ownSetMonitor
  split <;> nofun

theorem ownSetPosition_code (position : BitVec 24) (s : State) : (ownSetPosition position s).code ≠ .wrongState := by
  unfold ownSetPosition
  split
  · nofun
  · split <;> nofun

theorem motion_code (begin : Part → Part) (s : State) : (motion begin s).code ≠ .wrongState := by
  unfold motion
  split
  · nofun
  · split <;> nofun

theorem ownWind_code (direction : Byte) (s : State) : (ownWind direction s).code ≠ .wrongState := by
  unfold ownWind
  split
  · nofun
  · exact motion_code _ s

theorem surveyBlocked_code {u : Setup} {p : Part} {code : ReplyCode} (h : surveyBlocked u p = some code) : code ≠ .wrongState := by
  rintro rfl
  unfold surveyBlocked at h
  repeat' split at h
  all_goals cases h

theorem ownSurvey_code (a : SurveyArgs) (s : State) : (ownSurvey a s).code ≠ .wrongState := by
  unfold ownSurvey
  split
  · split
    · split
      · nofun
      · split
        · exact surveyBlocked_code ‹_›
        · show (if _ then _ else _) ≠ ReplyCode.wrongState
          split <;> nofun
    · nofun
  · nofun

theorem checkSegment_code {fr : Nat} {a : SegmentArgs} {code : ReplyCode} (h : checkSegment fr a = .refused code) :
    code ≠ .wrongState := by
  rintro rfl
  unfold checkSegment at h
  repeat' split at h
  all_goals cases h

theorem loadBlocked_code {u : Setup} {p : Part} {x : Loading} {code : ReplyCode} (h : loadBlocked u p x = some code) :
    code ≠ .wrongState := by
  rintro rfl
  unfold loadBlocked at h
  repeat' split at h
  all_goals cases h

theorem ownLoadSegment_code (a : SegmentArgs) (s : State) : (ownLoadSegment a s).code ≠ .wrongState := by
  unfold ownLoadSegment
  split
  · exact checkSegment_code ‹_›
  · split
    · exact loadBlocked_code ‹_›
    · exact adjustedIf_ne_wrongState _

theorem ownDeleteSegment_code (start : BitVec 24) (s : State) : (ownDeleteSegment start s).code ≠ .wrongState := by
  unfold ownDeleteSegment
  split
  · nofun
  · split <;> nofun

theorem ownReadSegment_code (index : Byte) (s : State) : (ownReadSegment index s).code ≠ .wrongState := by
  unfold ownReadSegment
  split <;> nofun

theorem takeBlocked_code {u : Setup} {p : Part} {e : Option Nat} {code : ReplyCode} (h : takeBlocked u p e = some code) :
    code ≠ .wrongState := by
  rintro rfl
  unfold takeBlocked at h
  repeat' split at h
  all_goals cases h

theorem ownStartTake_code (flag : Byte) (position : BitVec 24) (s : State) : (ownStartTake flag position s).code ≠ .wrongState := by
  unfold ownStartTake
  split
  · nofun
  · dsimp only
    split
    · exact takeBlocked_code ‹_›
    · nofun

theorem ownSetPolicy_code (a : PolicyArgs) (s : State) : (ownSetPolicy a s).code ≠ .wrongState := by
  unfold ownSetPolicy
  split
  · split
    · nofun
    · split <;> nofun
  · nofun

theorem ownSetNoticeMask_code (flags : List Byte) (s : State) : (ownSetNoticeMask flags s).code ≠ .wrongState := by
  unfold ownSetNoticeMask
  split <;> nofun

/-! ## The columns of R156 -/

/-- A row and its kind are those of a command whose columns in STANDBY and RUN are as said and whose owner does not answer WRONG_STATE. -/
def AdmittedAs (tag : Byte) (s : State) (standby run : Bool) (row : Instr × Byte) : Prop :=
  ∃ (k : Cmd) (owner : State → Answer), exec row.1 s = .next (portCommand k tag owner s) ∧ k.code = row.2
    ∧ (owner s).code ≠ .wrongState ∧ k.admitted .standby = standby ∧ k.admitted .run = run

/-- Where the device state refuses the row, a WRONG_STATE reply is all that comes of it. -/
theorem AdmittedAs.refused {tag : Byte} {s : State} {standby run : Bool} {row : Instr × Byte} (h : AdmittedAs tag s standby run row)
    (hr : s.part.ready = true) (hd : s.part.take.device = .standby ∧ standby = false ∨ s.part.take.device = .run ∧ run = false) :
    exec row.1 s = .next (withReply s row.2 tag .wrongState []) := by
  obtain ⟨k, owner, runs, kind, -, hs, hn⟩ := h
  have shut : k.admitted s.part.take.device = false := by
    rcases hd with ⟨hd, no⟩ | ⟨hd, no⟩ <;> rw [hd]
    · exact hs.trans no
    · exact hn.trans no
  rw [runs, portCommand_wrongState k tag owner s hr shut, kind]

/-- Where it takes the row, the owner's answer is the last reply. -/
theorem AdmittedAs.judged {tag : Byte} {s : State} {standby run : Bool} {row : Instr × Byte} (h : AdmittedAs tag s standby run row)
    (hr : s.part.ready = true)
    (hd : (s.part.take.device = .standby → standby = true) ∧ (s.part.take.device = .run → run = true)) :
    ∃ t r, exec row.1 s = .next t ∧ t.part.msp.replies.getLast? = some r ∧ r.kind = row.2 ∧ r.tag = tag ∧ r.code ≠ .wrongState := by
  obtain ⟨k, owner, runs, kind, code, hs, hn⟩ := h
  have opened : k.admitted s.part.take.device = true := by
    cases hdevice : s.part.take.device
    · exact hs.trans (hd.1 hdevice)
    · exact k.admitted_configure
    · exact hn.trans (hd.2 hdevice)
  rw [runs, portCommand_ready k tag owner s hr, judge_admitted k owner s opened]
  exact ⟨_, _, rfl, List.getLast?_concat, kind, rfl, code⟩

/-- Settles O29: each row is its command's owner behind the port (`AdmittedAs`), and no owner answers WRONG_STATE. -/
theorem admission : Obligations.Admission := by
  intro tag b b2 x y v row flags deck survey segment policy s hr hrow hflags always both takes configure halways hboth htakes
    hconfigure
  have always_admitted : ∀ c ∈ always, AdmittedAs tag s true true c := by
    simp only [halways, List.forall_mem_cons]
    exact ⟨⟨.identify, ownIdentify, rfl, rfl, nofun, rfl, rfl⟩, ⟨.readStatus, ownReadStatus, rfl, rfl, nofun, rfl, rfl⟩,
      ⟨.softReset, ownSoftReset, rfl, rfl, nofun, rfl, rfl⟩, nofun⟩
  have both_admitted : ∀ c ∈ both, AdmittedAs tag s true false c := by
    simp only [hboth, List.forall_mem_cons]
    exact ⟨⟨.setState, ownSetState b, rfl, rfl, ownSetState_code b s, rfl, rfl⟩, nofun⟩
  have takes_admitted : ∀ c ∈ takes, AdmittedAs tag s false true c := by
    simp only [htakes, List.forall_mem_cons]
    exact ⟨⟨.stop, ownStop, rfl, rfl, nofun, rfl, rfl⟩,
      ⟨.readSegment, ownReadSegment b, rfl, rfl, ownReadSegment_code b s, rfl, rfl⟩,
      ⟨.readDropouts, ownReadDropouts b, rfl, rfl, adjustedIf_ne_wrongState _, rfl, rfl⟩,
      ⟨.loadSegment, ownLoadSegment segment, rfl, rfl, ownLoadSegment_code segment s, rfl, rfl⟩,
      ⟨.deleteSegment, ownDeleteSegment x, rfl, rfl, ownDeleteSegment_code x s, rfl, rfl⟩,
      ⟨.clearConditions, ownClearConditions, rfl, rfl, nofun, rfl, rfl⟩,
      ⟨.setNoticeMask, ownSetNoticeMask flags, congrArg _ (portSized_sized _ _ _ _ (by rw [hflags]; rfl)), rfl,
        ownSetNoticeMask_code flags s, rfl, rfl⟩,
      ⟨.setMonitor, ownSetMonitor b b2, rfl, rfl, ownSetMonitor_code b b2 s, rfl, rfl⟩, nofun⟩
  have configure_admitted : ∀ c ∈ configure, AdmittedAs tag s false false c := by
    simp only [hconfigure, List.forall_mem_cons]
    exact ⟨⟨.startTake, ownStartTake b x, rfl, rfl, ownStartTake_code b x s, rfl, rfl⟩,
      ⟨.survey, ownSurvey survey, rfl, rfl, ownSurvey_code survey s, rfl, rfl⟩,
      ⟨.wind, ownWind b, rfl, rfl, ownWind_code b s, rfl, rfl⟩,
      ⟨.seek, ownSeek x, rfl, rfl, motion_code _ s, rfl, rfl⟩,
      ⟨.rewindToLeader, ownRewindToLeader, rfl, rfl, motion_code _ s, rfl, rfl⟩,
      ⟨.setRates, ownSetRates x y, rfl, rfl, ownSetRates_code x y s, rfl, rfl⟩,
      ⟨.loadCoeffRow, ownLoadCoeffRow b row, exec_loadCoeffRow tag b s hrow, rfl, ownLoadCoeffRow_code b row s, rfl, rfl⟩,
      ⟨.selectBank, ownSelectBank b, rfl, rfl, ownSelectBank_code b s, rfl, rfl⟩,
      ⟨.setDeck, ownSetDeck deck, rfl, rfl, ownSetDeck_code deck s, rfl, rfl⟩,
      ⟨.setPosition, ownSetPosition x, rfl, rfl, ownSetPosition_code x s, rfl, rfl⟩,
      ⟨.lockTables, ownLockTables b, rfl, rfl, ownLockTables_code b s, rfl, rfl⟩,
      ⟨.clearSegments, ownClearSegments, rfl, rfl, nofun, rfl, rfl⟩,
      ⟨.setPolicy, ownSetPolicy policy, rfl, rfl, ownSetPolicy_code policy s, rfl, rfl⟩,
      ⟨.setOutput, ownSetOutput v, rfl, rfl, adjustedIf_ne_wrongState _, rfl, rfl⟩, nofun⟩
  refine ⟨fun c hc => ?refused, fun c hc => ?judged⟩
  case refused =>
    rcases hc with ⟨hc, hd⟩ | ⟨hc, hd⟩ <;> rcases List.mem_append.mp hc with hc | hc
    · exact (takes_admitted c hc).refused hr (.inl ⟨hd, rfl⟩)
    · exact (configure_admitted c hc).refused hr (.inl ⟨hd, rfl⟩)
    · exact (both_admitted c hc).refused hr (.inr ⟨hd, rfl⟩)
    · exact (configure_admitted c hc).refused hr (.inr ⟨hd, rfl⟩)
  case judged =>
    rcases hc with hc | ⟨hc, hd⟩ | ⟨hc, hd⟩ | ⟨hc, hd⟩
    · exact (always_admitted c hc).judged hr ⟨fun _ => rfl, fun _ => rfl⟩
    · exact (both_admitted c hc).judged hr ⟨fun _ => rfl, by rw [hd]; nofun⟩
    · exact (takes_admitted c hc).judged hr ⟨by rw [hd]; nofun, fun _ => rfl⟩
    · have neither : (s.part.take.device = .standby → false = true) ∧ (s.part.take.device = .run → false = true) := by
        rw [hd]
        exact ⟨nofun, nofun⟩
      rcases List.mem_append.mp hc with hc | hc
      · rcases List.mem_append.mp hc with hc | hc
        · exact (both_admitted c hc).judged hr ⟨fun _ => rfl, neither.2⟩
        · exact (takes_admitted c hc).judged hr ⟨neither.1, fun _ => rfl⟩
      · exact (configure_admitted c hc).judged hr neither

/-! ## SET_STATE (09, R157) -/

theorem Cmd.setState_admitted {d : DeviceState} (h : d ≠ .run) : Cmd.setState.admitted d = true := by
  cases d
  · rfl
  · rfl
  · exact absurd rfl h

/-- A byte from 2 up names RUN or no device state. -/
theorem DeviceState.ofCode_high {b : Byte} (h : 2 ≤ b.toNat) : DeviceState.ofCode b = none ∨ DeviceState.ofCode b = some .run := by
  unfold DeviceState.ofCode
  split
  · omega
  · omega
  · exact .inr rfl
  · exact .inl rfl

theorem ownSetState_badValue {target : Byte} (s : State) (h : 2 ≤ target.toNat) : ownSetState target s = ⟨s, .badValue, []⟩ := by
  unfold ownSetState
  rcases DeviceState.ofCode_high h with unnamed | run
  · rw [unnamed]
    rfl
  · rw [run]
    rfl

/-- The target STANDBY, over its checks. -/
theorem ownSetState_standby (s : State) : ownSetState 0 s
    = if s.part.take.device = .standby then ⟨s, .ok, []⟩
      else if s.part.atRest && s.part.drained then ⟨s.enter .standby, .ok, []⟩
      else ⟨s, .busy, []⟩ := rfl

/-- The target CONFIGURE, over its checks. -/
theorem ownSetState_configure (s : State) : ownSetState 1 s
    = if s.part.take.device = .configure then ⟨s, .ok, []⟩
      else if s.part.trc.state = .stopped then ⟨s.enter .configure, .ok, []⟩
      else ⟨s, .busy, []⟩ := rfl

theorem Part.atRest_drained_iff (p : Part) : (p.atRest && p.drained) = true
    ↔ p.trc.state = .stopped ∧ p.trc.op.kind = .none ∧ p.lanes.a.state = .idle ∧ p.lanes.b.state = .idle
      ∧ p.lanes.a.fifo = [] ∧ p.lanes.b.fifo = [] := by
  rw [Bool.and_eq_true, p.atRest_iff, p.drained_iff, and_assoc]

/-- Settles O6: RUN is refused at the port, and each target is its owner's checks in their order (`ownSetState_standby`,
`ownSetState_configure`). -/
theorem setState : Obligations.SetState := by
  intro tag target s hr
  have answered {code : ReplyCode} {t : State} (hd : s.part.take.device ≠ .run) (ho : ownSetState target s = ⟨t, code, []⟩) :
      exec (.setState tag target) s = .next (withReply t 0x03 tag code []) :=
    congrArg _ (portCommand_answered tag hr (Cmd.setState_admitted hd) ho)
  refine ⟨fun hd => ?run, fun hd h => answered hd (ownSetState_badValue s h), fun hd h => ?inStandby, fun hd h => ?inConfigure,
    fun hd h => ?toConfigure, fun hd h => ?toStandby⟩
  case run => exact congrArg _ (portCommand_wrongState _ _ _ _ hr (by rw [hd]; rfl))
  case inStandby =>
    subst h
    exact answered (by rw [hd]; nofun) ((ownSetState_standby s).trans (if_pos hd))
  case inConfigure =>
    subst h
    exact answered (by rw [hd]; nofun) ((ownSetState_configure s).trans (if_pos hd))
  case toConfigure =>
    subst h
    have checks := (ownSetState_configure s).trans (if_neg (by rw [hd]; nofun))
    split
    · exact answered (by rw [hd]; nofun) (checks.trans (if_pos ‹_›))
    · exact answered (by rw [hd]; nofun) (checks.trans (if_neg ‹_›))
  case toStandby =>
    subst h
    have checks := (ownSetState_standby s).trans (if_neg (by rw [hd]; nofun))
    simp only [← s.part.atRest_drained_iff]
    split
    · exact answered (by rw [hd]; nofun) (checks.trans (if_pos ‹_›))
    · exact answered (by rw [hd]; nofun) (checks.trans (if_neg ‹_›))

/-! ## SET_OUTPUT (09, R173) -/

theorem thresholdOf_below {v : Nat} (h : v < 64) : thresholdOf v = 64 := by
  unfold thresholdOf
  rw [clampNat_below h]

theorem thresholdOf_above {v : Nat} (h : 960 < v) : thresholdOf v = 960 := by
  unfold thresholdOf
  rw [clampNat_above (by decide) h]

theorem thresholdOf_inside {v : Nat} (hlo : 64 ≤ v) (hhi : v ≤ 960) : thresholdOf v = v - v % 64 := by
  unfold thresholdOf
  rw [clampNat_inside hlo hhi]
  omega

theorem ownSetOutput_eq {v : BitVec 16} (s : State) {t : Nat} (h : thresholdOf v.toNat = t) : ownSetOutput v s
    = ⟨{ s with setup := { s.setup with threshold := t } }, if t = v.toNat then .ok else .adjusted, []⟩ := by
  subst h
  rw [← adjustedIf_changed _ _ _ Iff.rfl]
  rfl

/-- Settles O12: the owner sets the threshold its value becomes, ADJUSTED where that is another (`ownSetOutput_eq`). -/
theorem setOutput : Obligations.SetOutput := by
  intro tag v s hr
  refine ⟨fun hd => ?outside, fun hd => ?configure⟩
  case outside => exact congrArg _ (portCommand_wrongState _ _ _ _ hr (Cmd.admitted_configureOnly rfl rfl hd))
  case configure =>
    have sets {t : Nat} {code : ReplyCode} (ht : thresholdOf v.toNat = t) (hcode : (if t = v.toNat then .ok else .adjusted) = code) :
        exec (.setOutput tag v) s = .next (withReply { s with setup := { s.setup with threshold := t } } 0x1A tag code []) :=
      congrArg _ (portCommand_answered tag hr (hd ▸ Cmd.admitted_configure _) (hcode ▸ ownSetOutput_eq s ht))
    refine ⟨fun low => ?_, fun high => ?_, fun hlo hhi whole => ?_, fun hlo hhi odd => ?_⟩
    · exact sets (thresholdOf_below low) (if_neg (by omega))
    · exact sets (thresholdOf_above high) (if_neg (by omega))
    · exact sets ((thresholdOf_inside hlo hhi).trans (by omega)) (if_pos rfl)
    · exact sets (thresholdOf_inside hlo hhi) (if_neg (by omega))

end Sys2Proof.Machine
end

section
/-! PROOFS. The end of a take at TAKE_ENDED and the end of a CLIP at CLIP_HOLD_EXPIRY (O25). -/

namespace Sys2Proof.Machine

open Sys2Proof.Safety

/-! ## TAKE_ENDED (09, R163; logs 4, 6) -/

theorem exec_takeEnded (s : State) : exec .takeEnded s = .next { s with part := s.part.closeTake } := rfl

/-- Without a record, or with a record whose cause or final position is not known, no take closes. -/
theorem Part.closeTake_unended {p : Part}
    (h : p.take.record = none ∨ ∃ r, p.take.record = some r ∧ (r.cause = none ∨ r.finalPosition = none)) : p.closeTake = p := by
  unfold Part.closeTake
  split
  · rename_i known
    rw [known] at h
    rcases h with absent | ⟨r, same, missing⟩
    · cases absent
    · cases same
      rcases missing with missing | missing <;> cases missing
  · rfl

/-- While a lane works or a FIFO holds a frame no take closes. -/
theorem Part.closeTake_undelivered {p : Part}
    (h : ¬(p.lanes.a.state = .idle ∧ p.lanes.b.state = .idle ∧ p.lanes.a.fifo = [] ∧ p.lanes.b.fifo = [])) : p.closeTake = p := by
  unfold Part.closeTake
  split
  · exact if_neg h
  · rfl

/-! ## CLIP_HOLD_EXPIRY (10, R177, R180) -/

theorem exec_clipHoldExpiry (l : Lane) (s : State) :
    exec (.clipHoldExpiry l) s = .next { s with part := s.part.clipExpire s.setup l } := rfl

theorem Part.clipExpire_expires {u : Setup} {l : Lane} {p : Part} (expired : (p.cmn.clip.get l).hold = 0)
    (auto : (u.policies.clip.get l).policy = .auto) :
    p.clipExpire u l = p.setStatus (.clip l) { p.cmn.clip.get l with flag := false } := if_pos ⟨expired, auto⟩

theorem Part.clipExpire_holds {u : Setup} {l : Lane} {p : Part}
    (h : (p.cmn.clip.get l).hold ≠ 0 ∨ (u.policies.clip.get l).policy ≠ .auto) : p.clipExpire u l = p :=
  if_neg fun ⟨expired, auto⟩ => h.elim (· expired) (· auto)

/-- Settles O25: a record with nothing missing closes (`Part.closeTake_final`) and any other waits (`Part.closeTake_unended`,
`Part.closeTake_undelivered`); the CLIP flag falls at a hold count of 0 under AUTO (`Part.clipExpire_expires`) and nowhere else
(`Part.clipExpire_holds`). -/
theorem takeEndedAndClipHold : Obligations.TakeEndedAndClipHold := by
  refine ⟨⟨fun s e cause endIndex final hrecord ha hb hfa hfb => ?closes, fun s missing => ?waits⟩,
    fun l s => ⟨fun expired auto => ?expires, fun due => ?holds⟩⟩
  case closes =>
    rw [exec_takeEnded, Part.closeTake_final hrecord rfl rfl, if_pos ⟨ha, hb, hfa, hfb⟩]
    rfl
  case waits =>
    have unchanged : s.part.closeTake = s.part := by
      rcases missing with absent | unknown | undelivered
      · exact Part.closeTake_unended (.inl absent)
      · exact Part.closeTake_unended (.inr unknown)
      · exact Part.closeTake_undelivered (by tauto)
    rw [exec_takeEnded, unchanged]
  case expires =>
    rw [exec_clipHoldExpiry, Part.clipExpire_expires expired auto]
    rfl
  case holds => rw [exec_clipHoldExpiry, Part.clipExpire_holds due]

end Sys2Proof.Machine
end

section
/-! SUPPORT and PROOFS. The notice queue at a posting (O28), a flag that is set and a command that finds READY clear (O30). -/

namespace Sys2Proof.Machine

open Sys2Proof.Safety

/-! ## Posting (10, R181, R186) -/

theorem postNotice_absent {c : NoticeContent} {q : List Notice} (h : ∀ n ∈ q, n.content.kind ≠ c.kind) :
    postNotice c q = q ++ [⟨c, 1⟩] := by
  induction q with
  | nil => rfl
  | cons n rest ih =>
    obtain ⟨other, others⟩ := List.forall_mem_cons.mp h
    exact (if_neg other).trans (congrArg _ (ih others))

theorem postNotice_queued {c : NoticeContent} {front back : List Notice} {n : Notice} (hf : ∀ m ∈ front, m.content.kind ≠ c.kind)
    (hn : n.content.kind = c.kind) :
    postNotice c (front ++ n :: back) = front ++ ⟨n.content.replaceBy c, min 255 (n.count + 1)⟩ :: back := by
  induction front with
  | nil => exact if_pos hn
  | cons m rest ih =>
    obtain ⟨other, others⟩ := List.forall_mem_cons.mp hf
    exact (if_neg other).trans (congrArg _ (ih others))

theorem NoticeContent.replaceBy_newer (old : NoticeContent) {c : NoticeContent} (h : c.kind ≠ .conditionRaised) : old.replaceBy c = c := by
  unfold NoticeContent.replaceBy
  split
  · exact absurd rfl h
  · rfl

/-- Settles O28: the queue is searched from the front (`postNotice_absent`, `postNotice_queued`), and only CONDITION_RAISED joins what
it finds (`NoticeContent.replaceBy_newer`). -/
theorem postNotice_spec : Obligations.PostNotice := by
  refine ⟨fun c q absent => postNotice_absent absent, fun c front back n hf hn hc => ?newer, fun x y front back k hf =>
    postNotice_queued hf rfl⟩
  case newer => rw [postNotice_queued hf hn, NoticeContent.replaceBy_newer _ hc]

/-! ## A command that finds READY clear (11, R193; log 1) -/

/-- Setting a flag, said with one record for both cases. -/
theorem Part.setFlag_eq (p : Part) (id : CondId) : p.setFlag id
    = { p with
        cmn := p.cmn.set id { p.cmn.get id with flag := true },
        msp := { p.msp with
          notices := if (p.cmn.get id).flag then p.msp.notices else postNotice (.conditionRaised id.mask) p.msp.notices } } := by
  unfold Part.setFlag
  dsimp only
  cases h : (p.cmn.get id).flag
  · rfl
  · rw [if_pos rfl, if_pos rfl, ← h, PerCond.set_get]

/-- CELL_ERROR allows WARN alone, so its occurrence sets the flag and makes no stop request (10, R176, R180). -/
theorem State.cellError_eq {s : State} (stop : s.part.stopPending = false) (allowed : policiesAllowed s.setup.policies = true) :
    s.cellError = s.onPart (Part.setFlag · .cellError) := by
  have warns : (s.setup.policies.get .cellError).policy = .warn :=
    List.mem_singleton.mp ((policiesAllowed_iff _).mp allowed .cellError (by decide))
  have raised : s.part.occur s.setup .cellError = s.part.setFlag .cellError := by
    unfold Part.occur Part.raise
    dsimp only
    rw [warns]
  have quiet : (s.part.setFlag .cellError).stopPending = false := by rw [Part.setFlag_eq, stop]
  unfold State.cellError State.onPart
  dsimp only
  rw [raised, Part.takeStop_none _ quiet]

/-- The replies that an abandoned message leaves: MALFORMED to its own kind and tag, or none where none was open. -/
def abandonReplies : Option OpenMessage → List Reply
  | some m => [⟨m.kind, m.tag, .malformed, []⟩]
  | none => []

theorem State.abandon_eq (s : State) : s.abandon = { s with part := { s.part with
    msp := { s.part.msp with assembler := none, replies := s.part.msp.replies ++ abandonReplies s.part.msp.assembler } } } := by
  unfold State.abandon
  split
  · rename_i closed
    rw [closed, abandonReplies, List.append_nil, ← closed]
  · rename_i m opened
    rw [opened]
    rfl

/-- Every command's row with READY clear is a START cell with READY clear. -/
theorem exec_command_busy {c : Instr} {s : State} (hc : isCommand c = true) (hr : s.part.ready = false) :
    exec c s = .next s.startRefused := by
  have always : OwnersKeep fun _ => True := by constructor <;> intros <;> trivial
  obtain ⟨k, tag, sized, owner, runs, -⟩ := always.row c hc s trivial
  rw [runs, portSized_busy k tag sized owner s hr]

/-- Settles O30: the row is refused as its START cell (`exec_command_busy`), which abandons the open message (`State.abandon_eq`) and
sets CELL_ERROR's flag (`State.cellError_eq`, `Part.setFlag_eq`). -/
theorem notReady : Obligations.NotReady := by
  intro c s hc hr stop allowed
  refine ⟨s.startRefused, exec_command_busy hc hr, ?_⟩
  have refused : s.startRefused = s.abandon.onPart (Part.setFlag · .cellError) :=
    State.cellError_eq (by rw [s.abandon_eq]; exact stop) (by rw [s.abandon_eq]; exact allowed)
  rw [refused, s.abandon_eq, State.onPart, Part.setFlag_eq]
  refine ⟨rfl, rfl, rfl, ?_⟩
  cases s.part.msp.assembler <;> rfl

end Sys2Proof.Machine
end

section
/-! SUPPORT and PROOFS. The condition records all at once: CLEAR_CONDITIONS (O27), SET_POLICY (O26), and the notice mask (O27). -/

namespace Sys2Proof.Machine

open Sys2Proof.Safety

/-! ## The thirteen records, one after another (10, R176) -/

theorem CondId.mem_condIds (id : CondId) : id ∈ condIds := by
  rcases id with _ | _ | _ | _ | _ | _ | _ | l | l | l <;> first | decide | cases l <;> decide

/-- Records changed one after another, each once: a named record is what its own change makes of it, every other is as it was. -/
theorem PerCond.get_foldl_set {α : Type} (change : CondId → α → α) {ids : List CondId} (once : ids.Nodup) (x : PerCond α) (id : CondId) :
    (ids.foldl (fun t jd => t.set jd (change jd (t.get jd))) x).get id = if id ∈ ids then change id (x.get id) else x.get id := by
  induction ids generalizing x with
  | nil => rfl
  | cons jd rest ih =>
    obtain ⟨fresh, once⟩ := List.nodup_cons.mp once
    rw [List.foldl_cons, ih once]
    by_cases first : id = jd
    · subst first
      rw [if_neg fresh, if_pos (List.mem_cons_self ..), get_set_same]
    · rw [get_set_other _ _ first]
      exact if_congr (by simp [first]) rfl rfl

/-! ## CLEAR_CONDITIONS (10, R184) -/

theorem clearedStatus_eq (id : CondId) (r : PolicyRec) (c : CondStatus) : clearedStatus id r c = { c with
    flag := c.flag && match r.policy with
      | .stop | .muteLane | .warn => c.isPresent id r.policy
      | .auto | .off => true } := by
  unfold clearedStatus
  cases r.policy
  case auto | off => exact congrArg (fun b => ({ c with flag := b } : CondStatus)) (Bool.and_true _).symm
  all_goals
    dsimp only
    split
    · rename_i present
      rw [present, Bool.and_true]
    · rename_i absent
      rw [Bool.eq_false_of_not_eq_true absent, Bool.and_false]

theorem clearedConditions_get (policies : PerCond PolicyRec) (c : PerCond CondStatus) (id : CondId) :
    (clearedConditions policies c).get id = clearedStatus id (policies.get id) (c.get id) :=
  (PerCond.get_foldl_set (fun jd => clearedStatus jd (policies.get jd)) (by decide) c id).trans (if_pos id.mem_condIds)

/-! ## SET_NOTICE_MASK (10, R188) -/

theorem maskOf_none {kinds : List NoticeKind} {flags : List Byte} (hlen : flags.length ≤ kinds.length) (bad : ∃ b ∈ flags, 2 ≤ b.toNat) :
    maskOf kinds flags = none := by
  induction kinds generalizing flags with
  | nil =>
    obtain ⟨b, hb, -⟩ := bad
    cases List.length_eq_zero_iff.mp (Nat.le_zero.mp hlen)
    cases hb
  | cons k ks ih =>
    cases flags with
    | nil =>
      obtain ⟨b, hb, -⟩ := bad
      cases hb
    | cons b bs =>
      unfold maskOf
      obtain ⟨bit, hbit, high⟩ := bad
      rcases List.mem_cons.mp hbit with rfl | later
      · rw [flagOf_eq_none bit high]
      · rw [ih (Nat.le_of_succ_le_succ hlen) ⟨bit, later, high⟩]
        cases flagOf b with
        | none => rfl
        | some flag => cases flag <;> rfl

theorem maskOf_flags (kinds : List NoticeKind) {flags : List Byte} (h : ∀ b ∈ flags, b.toNat ≤ 1) :
    maskOf kinds flags = some (((kinds.zip flags).filter fun x => x.2 == 1).map Prod.fst) := by
  induction kinds generalizing flags with
  | nil => rfl
  | cons k ks ih =>
    cases flags with
    | nil => rfl
    | cons b bs =>
      obtain ⟨here, later⟩ := List.forall_mem_cons.mp h
      unfold maskOf
      rw [ih later]
      rcases byte_zero_or_one b here with rfl | rfl <;> rfl

/-- The place of a kind in the order of the flags is its code. -/
theorem noticeKinds_getElem? (i : Nat) (k : NoticeKind) : noticeKinds[i]? = some k ↔ i = k.code.toNat := by
  constructor
  · intro named
    have inside : i < 10 := (List.getElem?_eq_some_iff.mp named).1
    interval_cases i <;> cases named <;> rfl
  · rintro rfl
    cases k <;> rfl

theorem mem_mask_iff (flags : List Byte) (k : NoticeKind) :
    k ∈ ((noticeKinds.zip flags).filter fun x => x.2 == 1).map Prod.fst ↔ flags[k.code.toNat]? = some 1 :=
  calc k ∈ ((noticeKinds.zip flags).filter fun x => x.2 == 1).map Prod.fst
    _ ↔ (k, 1) ∈ noticeKinds.zip flags := by simp
    _ ↔ ∃ i : Nat, noticeKinds[i]? = some k ∧ flags[i]? = some 1 := by simp only [List.mem_iff_getElem?, List.getElem?_zip_eq_some]
    _ ↔ flags[k.code.toNat]? = some 1 := by simp only [noticeKinds_getElem?, exists_eq_left]

/-- Settles O27: each record is cleared by itself (`clearedConditions_get`, `clearedStatus_eq`), and a flag list masks the kinds whose
places hold a 1 (`maskOf_flags`, `mem_mask_iff`) or names no mask (`maskOf_none`). -/
theorem clearAndMask : Obligations.ClearAndMask := by
  refine ⟨fun tag s hr => ⟨fun hd => ?clearStandby, fun hd => ⟨clearedConditions s.setup.policies s.part.cmn, ?clears,
    fun id => (clearedConditions_get ..).trans (clearedStatus_eq ..)⟩⟩, fun tag flags s hr hlen => ?mask⟩
  case clearStandby => exact congrArg _ (portCommand_wrongState _ _ _ _ hr (by rw [hd]; rfl))
  case clears => exact congrArg _ (portCommand_results tag hr (Cmd.admitted_outsideStandby rfl hd) rfl)
  case mask =>
    have row : exec (.setNoticeMask tag flags) s = .next (portCommand .setNoticeMask tag (ownSetNoticeMask flags) s) :=
      congrArg _ (portSized_sized _ _ _ _ (by rw [hlen]; rfl))
    rw [row]
    refine ⟨fun hd => congrArg _ ?maskStandby, fun hd => ⟨fun bad => congrArg _ ?badValue, fun good => ⟨_, congrArg _ ?masks,
      mem_mask_iff flags⟩⟩⟩
    case maskStandby => exact portCommand_wrongState _ _ _ _ hr (by rw [hd]; rfl)
    case badValue =>
      refine portCommand_answered tag hr (Cmd.admitted_outsideStandby rfl hd) ?_
      unfold ownSetNoticeMask
      rw [maskOf_none hlen.le bad]
      rfl
    case masks =>
      refine portCommand_answered tag hr (Cmd.admitted_outsideStandby rfl hd) ?_
      unfold ownSetNoticeMask
      rw [maskOf_flags _ good]
      rfl

/-! ## SET_POLICY's checks (10, R182) -/

theorem LaneSet.ofCode_none {b : Byte} (h : 3 ≤ b.toNat) : LaneSet.ofCode b = none := by
  unfold LaneSet.ofCode
  split
  case h_4 => rfl
  all_goals omega

theorem Policy.ofCode_none {b : Byte} (h : 5 ≤ b.toNat) : Policy.ofCode b = none := by
  unfold Policy.ofCode
  split
  case h_6 => rfl
  all_goals omega

theorem Scope.ofCode_none {b : Byte} (h : 2 ≤ b.toNat) : Scope.ofCode b = none := by
  unfold Scope.ofCode
  split
  case h_3 => rfl
  all_goals omega

theorem condRecords_none {b : Byte} (h : 10 ≤ b.toNat) (lanes : LaneSet) : condRecords b lanes = none := by
  unfold condRecords
  dsimp only
  split
  case h_11 => rfl
  all_goals omega

/-- A condition names each of its records once. -/
theorem condRecords_nodup {b : Byte} {lanes : LaneSet} {ids : List CondId} (h : condRecords b lanes = some ids) : ids.Nodup := by
  unfold condRecords at h
  dsimp only at h
  split at h <;> cases h <;> first | decide | cases lanes <;> decide

theorem ownSetPolicy_badValue {a : PolicyArgs} (s : State)
    (h : 10 ≤ a.condition.toNat ∨ 3 ≤ a.lane.toNat ∨ 5 ≤ a.policy.toNat ∨ 2 ≤ a.scope.toNat) :
    ownSetPolicy a s = ⟨s, .badValue, []⟩ := by
  unfold ownSetPolicy
  split
  · rename_i hl hp hs
    have condition : 10 ≤ a.condition.toNat := by
      rcases h with h | h | h | h
      · exact h
      · rw [LaneSet.ofCode_none h] at hl; cases hl
      · rw [Policy.ofCode_none h] at hp; cases hp
      · rw [Scope.ofCode_none h] at hs; cases hs
    rw [condRecords_none condition]
    rfl
  · rfl

section Named
variable {a : PolicyArgs} {lanes : LaneSet} {policy : Policy} {scope : Scope} {ids : List CondId} (s : State)
  (hl : LaneSet.ofCode a.lane = some lanes) (hp : Policy.ofCode a.policy = some policy) (hs : Scope.ofCode a.scope = some scope)
  (hids : condRecords a.condition lanes = some ids)
include hl hp hs hids

/-- Arguments that all name something, over the check of the policy. -/
theorem ownSetPolicy_named : ownSetPolicy a s
    = if ids.all fun id => id.allowed.contains policy then ⟨s.takePolicies ids policy scope, .ok, []⟩ else ⟨s, .conflict, []⟩ := by
  unfold ownSetPolicy
  rw [hl, hp, hs]
  dsimp only
  rw [hids]
  rfl

theorem ownSetPolicy_conflict (h : ∃ id ∈ ids, policy ∉ id.allowed) : ownSetPolicy a s = ⟨s, .conflict, []⟩ :=
  (ownSetPolicy_named s hl hp hs hids).trans (if_neg (by simpa using h))

theorem ownSetPolicy_takes (h : ∀ id ∈ ids, policy ∈ id.allowed) :
    ownSetPolicy a s = ⟨s.takePolicies ids policy scope, .ok, []⟩ :=
  (ownSetPolicy_named s hl hp hs hids).trans (if_pos (by simpa using h))

end Named

/-! ## SET_POLICY's records (10, R182, R183; log 26) -/

theorem PolicyRec.with_eq (id : CondId) (policy : Policy) (scope : Scope) (r : PolicyRec) :
    r.with id policy scope = ⟨policy, match id with | .lockLost _ => scope | _ => r.scope⟩ := by cases id <;> rfl

theorem Setup.setPolicies_get {ids : List CondId} (once : ids.Nodup) (policy : Policy) (scope : Scope) (u : Setup) (id : CondId) :
    (u.setPolicies ids policy scope).policies.get id
      = if id ∈ ids then ⟨policy, match id with | .lockLost _ => scope | _ => (u.policies.get id).scope⟩ else u.policies.get id :=
  (PerCond.get_foldl_set (fun jd (r : PolicyRec) => r.with jd policy scope) once u.policies id).trans
    (if_congr Iff.rfl (PolicyRec.with_eq ..) rfl)

/-- A record's flag once its policy is the one given: the table of R183. -/
def CondStatus.flagUnder (id : CondId) (policy : Policy) (c : CondStatus) : Bool :=
  match policy with
  | .stop | .muteLane | .warn => c.flag || c.isPresent id policy
  | .auto => c.isPresent id policy
  | .off => false

/-- A raised condition under a policy other than OFF sets its flag and changes no other part of any record. -/
theorem Part.raise_cmn {u : Setup} {id : CondId} (p : Part) (on : (u.policies.get id).policy ≠ .off) :
    (p.raise u id).cmn = p.cmn.set id { p.cmn.get id with flag := true } := by
  have flagged : (p.setFlag id).cmn = p.cmn.set id { p.cmn.get id with flag := true } := by rw [Part.setFlag_eq]
  unfold Part.raise
  dsimp only
  split
  · exact flagged
  · split <;> exact flagged
  · exact flagged
  · exact flagged
  · exact absurd ‹_› on

/-- A policy that is set changes the flag of its record alone. -/
theorem Part.policySet_cmn (u : Setup) (id : CondId) (p : Part) : (p.policySet u id).cmn
    = p.cmn.set id { p.cmn.get id with flag := (p.cmn.get id).flagUnder id (u.policies.get id).policy } := by
  unfold Part.policySet CondStatus.flagUnder
  dsimp only
  have raises (on : (u.policies.get id).policy ≠ .off) (present : Bool) :
      (if present then p.raise u id else p).cmn = p.cmn.set id { p.cmn.get id with flag := (p.cmn.get id).flag || present } := by
    cases present
    · rw [Bool.or_false, PerCond.set_get]
      rfl
    · rw [Bool.or_true]
      exact p.raise_cmn on
  cases policy : (u.policies.get id).policy
  case stop | muteLane | warn => exact raises (by rw [policy]; nofun) _
  case auto =>
    dsimp only
    cases CondStatus.isPresent id .auto (p.cmn.get id)
    · rfl
    · exact congrArg Part.cmn (p.setFlag_eq id)
  case off => rfl

/-! ## The stop request of a SET_POLICY (02, R38; 04, R83; 10, R183) -/

/-- The end of any operation but a take keeps every flag, where SLIP's policy is not AUTO. -/
theorem Part.endOperation_flags {u : Setup} (e : Ending) {p : Part} (hslip : u.policies.slip.policy ≠ .auto)
    (still : p.trc.op.kind = .take → p.trc.op.ending ≠ none) (id : CondId) :
    ((p.endOperation u e).cmn.get id).flag = (p.cmn.get id).flag := by
  unfold Part.endOperation
  split
  · rfl
  · rename_i running
    obtain ⟨-, unended⟩ := not_or.mp running
    generalize ({ p.trc.op with phase := none, ending := some e } : OpRecord) = op
    obtain ⟨c, t, settles, -, -, -, -, -, others, slip⟩ := (p.setOp op).enterSettling_parts u
    have kept : (c.get id).flag = (p.cmn.get id).flag := by
      by_cases h : id = .slip
      · subst h
        exact slip hslip
      · rw [others id h]
        rfl
    dsimp only
    rw [settles]
    split
    · rename_i take
      exact absurd (Option.isSome_iff_ne_none.mpr (still take)) unended
    · obtain ⟨r, stops, -⟩ := Part.surveyStop_spec { p.setOp op with cmn := c, trc := t, hcr := { p.hcr with capturing := false } }
      exact (congrArg (fun q => (q.cmn.get id).flag) stops).trans kept
    · exact kept

/-- The stop request that is taken where no take runs keeps every flag, where SLIP's policy is not AUTO. -/
theorem Part.takeStop_flags {u : Setup} {p : Part} (hslip : u.policies.slip.policy ≠ .auto)
    (still : p.trc.op.kind = .take → p.trc.op.ending ≠ none) (id : CondId) :
    ((p.takeStop u).cmn.get id).flag = (p.cmn.get id).flag := by
  unfold Part.takeStop Part.stopRequest
  split
  · split
    · exact Part.endOperation_flags (p := { p with stopPending := false }) _ hslip still id
    · rfl
  · rfl

theorem Part.policySets_flag {u : Setup} {ids : List CondId} (once : ids.Nodup) (p : Part) (id : CondId) :
    ((ids.foldl (fun p jd => p.policySet u jd) p).cmn.get id).flag
      = if id ∈ ids then (p.cmn.get id).flagUnder id (u.policies.get id).policy else (p.cmn.get id).flag := by
  have records (jds : List CondId) (p : Part) : (jds.foldl (fun p jd => p.policySet u jd) p).cmn
      = jds.foldl (fun c jd => c.set jd { c.get jd with flag := (c.get jd).flagUnder jd (u.policies.get jd).policy }) p.cmn := by
    induction jds generalizing p with
    | nil => rfl
    | cons jd rest ih => rw [List.foldl_cons, List.foldl_cons, ih, p.policySet_cmn u jd]
  rw [records, PerCond.get_foldl_set (fun jd (c : CondStatus) => { c with flag := c.flagUnder jd (u.policies.get jd).policy }) once]
  split <;> rfl

/-- SLIP does not allow AUTO, before a SET_POLICY that passes and after it (10, R176, R182). -/
theorem Setup.setPolicies_slip {u : Setup} {ids : List CondId} (once : ids.Nodup) {policy : Policy} (scope : Scope)
    (allowed : policiesAllowed u.policies = true) (named : ∀ id ∈ ids, policy ∈ id.allowed) :
    (u.setPolicies ids policy scope).policies.slip.policy ≠ .auto := by
  have stays : ((u.setPolicies ids policy scope).policies.get .slip).policy ∈ CondId.slip.allowed := by
    rw [Setup.setPolicies_get once]
    split
    · exact named _ ‹_›
    · exact (policiesAllowed_iff _).mp allowed _ (CondId.mem_condIds _)
  rintro (auto : ((u.setPolicies ids policy scope).policies.get .slip).policy = .auto)
  rw [auto] at stays
  revert stays
  decide

/-- Settles O26: the owner checks its values and the allowed policies (`ownSetPolicy_badValue`, `ownSetPolicy_conflict`), each record
named takes the policy and acts by R183 (`Setup.setPolicies_get`, `Part.policySets_flag`), and the stop request that may follow keeps
every flag (`Part.takeStop_flags`). -/
theorem setPolicy : Obligations.SetPolicy := by
  intro tag a s hr hd _ legal allowed
  have answered {t : State} {code : ReplyCode} (ho : ownSetPolicy a s = ⟨t, code, []⟩) :
      exec (.setPolicy tag a) s = .next (withReply t 0x16 tag code []) :=
    congrArg _ (portCommand_answered tag hr (by rw [hd]; rfl) ho)
  refine ⟨fun bad => answered (ownSetPolicy_badValue s bad), fun lanes policy scope ids hl hp hs hids =>
    ⟨fun refused => answered (ownSetPolicy_conflict s hl hp hs hids refused), fun named => ?takes⟩⟩
  have once := condRecords_nodup hids
  obtain ⟨u, hu⟩ : ∃ u, u = s.setup.setPolicies ids policy scope := ⟨_, rfl⟩
  obtain ⟨q, hq⟩ : ∃ q, q = ids.foldl (fun p id => p.policySet u id) s.part := ⟨_, rfl⟩
  have taken : s.takePolicies ids policy scope = { s with setup := u, part := q.takeStop u } := by rw [hq, hu]; rfl
  have works : s.part.Works q := hq ▸ Part.works_policySets u ids s.part
  have policies (id : CondId) := hu ▸ s.setup.setPolicies_get once policy scope id
  have slip : u.policies.slip.policy ≠ .auto := hu ▸ Setup.setPolicies_slip once scope allowed named
  have still : q.trc.op.kind = .take → q.trc.op.ending ≠ none := by
    intro take unended
    rw [works.trc] at take unended
    have run := legal.1.mpr ⟨take, unended⟩
    rw [hd] at run
    cases run
  have flags (id : CondId) : ((q.takeStop u).cmn.get id).flag
      = if id ∈ ids then (s.part.cmn.get id).flagUnder id (u.policies.get id).policy else (s.part.cmn.get id).flag := by
    rw [Part.takeStop_flags slip still, hq, Part.policySets_flag once]
  refine ⟨_, answered (ownSetPolicy_takes s hl hp hs hids named), ?_⟩
  rw [taken]
  refine ⟨by rw [hu]; rfl, rfl, rfl, ?pos, policies, fun id hid => ?named, fun id hid => ?others, ?reply⟩
  case pos => exact (q.takeStop_pos u).trans works.pos
  case named =>
    refine (flags id).trans ?_
    rw [if_pos hid, policies, if_pos hid]
    rfl
  case others => exact (flags id).trans (if_neg hid)
  case reply => exact congrArg (· ++ [_]) ((Part.moves_takeStop u q).replies.trans works.replies)

end Sys2Proof.Machine
end

section
/-! SUPPORT and PROOFS. What an upstream frame carries: its length and check byte, the status octet, and the bytes of numbers, samples,
messages, replies and notices (O54). -/

namespace Sys2Proof.Machine

open Sys2Proof.Safety

/-! ## Frames (11, R198) -/

/-- A check byte brings the sum of a list to 0. -/
theorem byteSum_checkByte (bs : List Byte) : byteSum (bs ++ [checkByte bs]) = 0 := by
  unfold checkByte
  show (bs ++ [0 - byteSum bs]).foldl (· + ·) 0 = 0
  rw [List.foldl_append]
  show byteSum bs + (0 - byteSum bs) = 0
  abel

theorem frameBytes_length (kind octet : Byte) {content : List Byte} (h : content.length ≤ 21) :
    (frameBytes kind octet content).length = 24 := by
  simp only [frameBytes, padTo, List.length_append, List.length_cons, List.length_nil, List.length_replicate]
  omega

theorem messageContent_length (continues notice : Bool) (total : Nat) {piece : List Byte} (h : piece.length ≤ 18) :
    (messageContent continues notice total piece).length = 21 := by
  simp only [messageContent, padTo, Config.messageChunk, List.length_append, bytesOf_length, List.length_replicate]
  omega

theorem SampleFrame.bytes_length (f : SampleFrame) : f.bytes.length = 15 := by
  simp only [SampleFrame.bytes, List.length_append, List.length_cons, List.length_nil, bytesOf_length, signedBytes_length]

/-- A part whose upstream line carries a frame with the given octet. -/
def Part.Framed (octet : Byte) (p : Part) : Prop := ∃ kind content, content.length ≤ 21 ∧ p.osc.upstream = frameBytes kind octet content

/-- The lane served holds a frame if a lane does. -/
theorem Part.servedLane_holds {p : Part} (h : p.lanes.a.fifo ≠ [] ∨ p.lanes.b.fifo ≠ []) : (p.lanes.get p.servedLane).fifo ≠ [] := by
  rw [← List.length_pos_iff_ne_nil, ← List.length_pos_iff_ne_nil] at h
  rw [← List.length_pos_iff_ne_nil]
  unfold Part.servedLane
  split
  · exact Nat.lt_of_le_of_lt (Nat.zero_le _) ‹_›
  · split
    · exact Nat.lt_of_le_of_lt (Nat.zero_le _) ‹_›
    · cases p.osc.lastServed <;> simp only [Lane.other, PerLane.get] <;> omega

theorem Part.framed_sendSample (u : Setup) (rings : Rings) (bank : LoadedBank) (octet : Byte) {p : Part}
    (h : p.lanes.a.fifo ≠ [] ∨ p.lanes.b.fifo ≠ []) : (p.sendSample u rings bank octet).Framed octet := by
  obtain ⟨f, rest, held⟩ := List.exists_cons_of_ne_nil (Part.servedLane_holds h)
  have moves := (Part.moves_resumeLane u rings bank p.servedLane (p.lanes.get p.servedLane).stalled
    (p.frameRemoved octet p.servedLane f rest)).trans (Part.works_closeTake _).moves
  refine ⟨0, f.bytes, by rw [f.bytes_length]; decide, ?_⟩
  rw [Part.sendSample_served octet rfl held, moves.osc]
  rfl

/-- Whatever has the slot, it sends a frame with the octet of the slot's start. -/
theorem Part.framed_upstreamSlot (u : Setup) (rings : Rings) (bank : LoadedBank) (p : Part) :
    (p.upstreamSlot u rings bank).Framed (statusOctet u p) := by
  cases h : p.slotMessage u with
  | some message =>
    obtain ⟨continues, m, port⟩ := message
    rw [Part.upstreamSlot_message h]
    exact ⟨1, _, (messageContent_length _ _ _ (List.length_take_le ..)).le, rfl⟩
  | none =>
    rw [Part.upstreamSlot_free h]
    split
    · rename_i held
      exact Part.framed_sendSample u rings bank _ (by simpa using (Bool.and_eq_true_iff.mp held).2)
    · split
      · exact ⟨2, _, List.length_replicate.le, rfl⟩
      · exact ⟨3, [], Nat.zero_le _, rfl⟩

/-! ## The status octet (10, R185) -/

theorem Part.fault_iff (u : Setup) (p : Part) : p.fault u = true
    ↔ ∃ id, (p.cmn.get id).flag = true ∧ ((u.policies.get id).policy = .stop ∨ (u.policies.get id).policy = .muteLane) := by
  simp [Part.fault, CondId.mem_condIds]

theorem Part.warn_iff (u : Setup) (p : Part) : p.warn u = true
    ↔ ∃ id, (p.cmn.get id).flag = true ∧ ((u.policies.get id).policy = .warn ∨ (u.policies.get id).policy = .auto) := by
  simp [Part.warn, CondId.mem_condIds]

/-- The bits of eight flags set side by side. -/
theorem getLsbD_flags (b7 b6 b5 b4 b3 b2 b1 b0 : Bool) :
    let octet : Byte := BitVec.ofBool b7 ++ BitVec.ofBool b6 ++ BitVec.ofBool b5 ++ BitVec.ofBool b4 ++ BitVec.ofBool b3
      ++ BitVec.ofBool b2 ++ BitVec.ofBool b1 ++ BitVec.ofBool b0
    octet.getLsbD 7 = b7 ∧ octet.getLsbD 6 = b6 ∧ octet.getLsbD 5 = b5 ∧ octet.getLsbD 4 = b4 ∧ octet.getLsbD 3 = b3
      ∧ octet.getLsbD 2 = b2 ∧ octet.getLsbD 1 = b1 ∧ octet.getLsbD 0 = b0 := by
  revert b7 b6 b5 b4 b3 b2 b1 b0
  decide

/-! ## Numbers (11, R203) -/

/-- The number that bytes spell, most significant first. -/
def bytesValue (bs : List Byte) : Nat := bs.foldl (fun x b => 256 * x + b.toNat) 0

/-- Bytes after a number: it moves up by their places. -/
theorem foldl_bytes (bs : List Byte) (x : Nat) :
    bs.foldl (fun x b => 256 * x + b.toNat) x = 256 ^ bs.length * x + bytesValue bs := by
  induction bs generalizing x with
  | nil => simp [bytesValue]
  | cons b rest ih =>
    unfold bytesValue
    rw [List.foldl_cons, List.foldl_cons, ih, ih (256 * 0 + b.toNat), List.length_cons]
    ring

theorem bytesValue_bytesOf (n : Nat) {v : Nat} : bytesValue (bytesOf n v) = v % 256 ^ n := by
  induction n with
  | zero => exact (Nat.mod_one v).symm
  | succ n ih =>
    unfold bytesOf bytesValue
    rw [List.foldl_cons, foldl_bytes, bytesOf_length, ih, BitVec.toNat_ofNat, Nat.pow_succ 256 n,
      Nat.mod_mul (x := v) (a := 256 ^ n) (b := 256), Nat.mul_zero, Nat.zero_add, Nat.add_comm]

/-- A signed number in n bytes is its remainder by 256 ^ n: two's complement. -/
theorem bytesValue_signedBytes {n k : Nat} (hk : 256 ^ n = 2 * k) {x : Int} (hlo : -k ≤ x) (hhi : x < k) :
    (bytesValue (signedBytes n x) : Int) = if 0 ≤ x then x else x + 2 * k := by
  have modulus : (256 : Int) ^ n = 2 * k := by exact_mod_cast hk
  have remainder : x % (2 * k) = if 0 ≤ x then x else x + 2 * k := by
    split
    · exact Int.emod_eq_of_lt ‹_› (by omega)
    · rw [← Int.add_emod_right]
      exact Int.emod_eq_of_lt (by omega) (by omega)
  have inside : 0 ≤ x % (2 * k) ∧ x % (2 * k) < 2 * k := by
    rw [remainder]
    split <;> omega
  unfold signedBytes
  rw [bytesValue_bytesOf, modulus, hk, ← remainder, Nat.mod_eq_of_lt (by omega), Int.toNat_of_nonneg inside.1]

/-! ## The condition flag set (11, R203) -/

theorem CondId.bit_lt (id : CondId) : id.bit < 13 := by
  rcases id with _ | _ | _ | _ | _ | _ | _ | l | l | l <;> first | decide | cases l <;> decide

theorem CondId.mask_getLsbD (id : CondId) (i : Nat) : id.mask.getLsbD i = decide (id.bit = i) := by
  unfold CondId.mask
  rw [BitVec.getLsbD_ofNat, Nat.testBit_two_pow]
  have small := id.bit_lt
  by_cases h : id.bit = i
  · simp [h, show i < 16 by omega]
  · simp [h]

theorem flagSet_getLsbD (c : PerCond CondStatus) (i : Nat) :
    (flagSet c).getLsbD i = condIds.any fun id => (c.get id).flag && decide (id.bit = i) := by
  have gathered (ids : List CondId) (acc : BitVec 16) :
      (ids.foldl (fun acc id => if (c.get id).flag then acc ||| id.mask else acc) acc).getLsbD i
        = (acc.getLsbD i || ids.any fun id => (c.get id).flag && decide (id.bit = i)) := by
    induction ids generalizing acc with
    | nil => simp
    | cons id rest ih =>
      rw [List.foldl_cons, ih, List.any_cons, ← Bool.or_assoc]
      congr 1
      cases (c.get id).flag
      · simp
      · simp [id.mask_getLsbD]
  exact (gathered condIds 0).trans (by simp)

/-- Above bit 12 the set is empty. -/
theorem flagSet_lt (c : PerCond CondStatus) : (flagSet c).toNat < 8192 := by
  refine Nat.lt_pow_two_of_testBit (n := 13) _ fun i high => ?_
  rw [BitVec.testBit_toNat, flagSet_getLsbD, List.any_eq_false]
  intro id _
  have small := id.bit_lt
  simp [show id.bit ≠ i by omega]

/-- The place of a condition in the order of the set is its bit. -/
theorem condIds_getElem? {i : Nat} {id : CondId} (h : condIds[i]? = some id) : id.bit = i := by
  have inside : i < 13 := (List.getElem?_eq_some_iff.mp h).1
  interval_cases i <;> cases h <;> rfl

theorem CondId.bit_injective : Function.Injective CondId.bit := by
  have place (id : CondId) : condIds[id.bit]? = some id := by
    rcases id with _ | _ | _ | _ | _ | _ | _ | l | l | l <;> first | rfl | cases l <;> rfl
  intro id jd same
  have := place id
  rw [same, place jd] at this
  exact (Option.some.inj this).symm

theorem flagSet_bit (c : PerCond CondStatus) (id : CondId) : (flagSet c).getLsbD id.bit = (c.get id).flag := by
  rw [flagSet_getLsbD, Bool.eq_iff_iff, List.any_eq_true]
  constructor
  · rintro ⟨jd, -, set⟩
    obtain ⟨flag, same⟩ := Bool.and_eq_true_iff.mp set
    rwa [← CondId.bit_injective (of_decide_eq_true same)]
  · exact fun flag => ⟨id, id.mem_condIds, by rw [flag]; simp⟩

/-! ## Messages and sample frames (11, R199, R203) -/

theorem frameBytes_eq (kind octet : Byte) (content : List Byte) : ∃ check : Byte,
    frameBytes kind octet content = [kind, octet] ++ content ++ List.replicate (21 - content.length) 0 ++ [check] :=
  ⟨checkByte ([kind, octet] ++ padTo 21 content), by simp [frameBytes, padTo]⟩

theorem messageContent_eq (continues notice : Bool) (total : Nat) (piece : List Byte) : messageContent continues notice total piece
    = [(if continues then 1 else 0) + (if notice then 2 else 0)] ++ bytesOf 2 total ++ piece ++ List.replicate (18 - piece.length) 0 := by
  have flags : bytesOf 1 ((if continues then 1 else 0) + (if notice then 2 else 0))
      = [(if continues then 1 else 0) + (if notice then 2 else 0)] := by
    cases continues <;> cases notice <;> rfl
  unfold messageContent padTo Config.messageChunk
  rw [flags]
  simp only [List.append_assoc]

theorem TrackPart.flags_eq (p : TrackPart) : p.flags = (match p.action with | .none => 0 | .marked => 1 | .crossfill => 2 | .mute => 3)
    + (if p.below then 4 else 0) + (if p.switched then 8 else 0) := by
  unfold TrackPart.flags TrackAction.code
  rfl

/-- Settles O54: whatever has the slot sends a frame with the octet of the slot's start (`Part.framed_upstreamSlot`), which a check byte
closes (`byteSum_checkByte`); the octet's flags, the numbers, the flag set and the layouts are the lemmas above. -/
theorem upstreamFrameSound : Obligations.UpstreamFrameSound := by
  refine ⟨fun s => ?frame, fun u p => ?octet, fun n v value hvalue => ⟨bytesOf_length n v, fun fits => ?unsigned,
      fun k width x hlo hhi => ⟨signedBytes_length n x, ?signed⟩⟩, ?codes, fun f track htrack => ?sample,
    fun kind octet content _ => frameBytes_eq kind octet content, messageContent_eq, fun r => rfl, fun n => rfl,
    fun kind e x y take frames frames' cause i lanes entry l old new set here src freq => ?notices⟩
  case frame =>
    obtain ⟨kind, content, short, carried⟩ := Part.framed_upstreamSlot s.setup s.rings s.bank s.part
    refine ⟨_, exec_upstreamSlot rfl, ?_⟩
    dsimp only
    rw [carried]
    exact ⟨frameBytes_length kind _ short, byteSum_checkByte _, rfl⟩
  case octet =>
    obtain ⟨b7, b6, b5, b4, b3, b2, b1, b0⟩ := getLsbD_flags (p.fault u) (p.warn u) (p.rft.a.lock == .locked)
      (p.rft.b.lock == .locked) (p.trc.state != .stopped) (!p.msp.notices.isEmpty) p.ready (p.take.device == .run)
    unfold statusOctet
    rw [b7, b6, b5, b4, b3, b2, b1, b0]
    exact ⟨p.fault_iff u, p.warn_iff u, beq_iff_eq, beq_iff_eq, bne_iff_ne, by simp, p.ready_iff, beq_iff_eq⟩
  case unsigned => exact (hvalue _).trans ((bytesValue_bytesOf n).trans (Nat.mod_eq_of_lt fits))
  case signed =>
    have modulus : 256 ^ n = 2 * k := by rcases width with ⟨rfl, rfl⟩ | ⟨rfl, rfl⟩ <;> rfl
    rw [hvalue]
    exact bytesValue_signedBytes modulus hlo hhi
  case codes =>
    refine ⟨rfl, rfl, rfl, rfl, rfl, rfl, rfl, rfl, rfl, rfl, rfl, rfl, rfl, rfl, rfl, rfl, rfl, rfl, fun c i id named =>
      ⟨?_, flagSet_lt c⟩⟩
    rw [← condIds_getElem? named, flagSet_bit]
  case sample =>
    have parts (p : TrackPart) : track p = p.flags := (htrack p).trans p.flags_eq.symm
    rw [parts, parts]
    rfl
  case notices =>
    refine ⟨rfl, rfl, rfl, ?entered, rfl, rfl, rfl, rfl, ?surveyed⟩
    case entered => cases entry <;> rfl
    case surveyed => cases freq <;> rfl

end Sys2Proof.Machine
end

section
/-! PROOFS. A step is the front row run on the queue's rest (O1), and the two commands that only answer: IDENTIFY (O4) and READ_STATUS
(O5). -/

namespace Sys2Proof.Machine

open Sys2Proof.Safety

/-! ## Steps and the queue -/

/-- The manual gives every event a next state: no row faults and none is refused. -/
theorem exec_next (i : Instr) (s : State) : ∃ t, exec i s = .next t := by cases i <;> exact ⟨_, rfl⟩

theorem State.passOn_pending (f : PerTrack Int) (s : State) : (s.passOn f).pending = s.pending := (s.passOn_spec f).1

theorem State.passCopies_pending (f : PerTrack Int) (k : Nat) (s : State) : (s.passCopies f k).pending = s.pending := by
  induction k generalizing s with
  | zero => rfl
  | succ k ih => exact (ih _).trans (s.passOn_pending f)

theorem State.takeFrame_pending (seq : Byte) (f : PerTrack Int) (s : State) : (s.takeFrame seq f).pending = s.pending :=
  State.passOn_pending f _

theorem frameSlot_pending (bytes : List Byte) (s : State) : (frameSlot bytes s).pending = s.pending := by
  unfold frameSlot
  dsimp only
  split
  · rfl
  · exact s.takeFrame_pending _ _
  · split
    · exact State.passOn_pending _ _
    · rfl
  · split
    · exact s.takeFrame_pending _ _
    · split
      · exact (State.takeFrame_pending _ _ _).trans (State.passCopies_pending _ _ _)
      · rfl

/-- No owner and no event touches the row queue: only a frame slot, which passes its copies on one by one, needs an argument. -/
theorem keeps_pending (q : List Instr) : Keeps fun s => s.pending = q := by
  have owners : OwnersKeep fun s => s.pending = q := by constructor <;> intros <;> assumption
  constructor
  case toOwnersKeep => exact owners
  case frameSlot => exact fun bytes s k => (frameSlot_pending bytes s).trans k
  all_goals intros; assumption

/-- Settles O1: a step is `exec` by definition, every row has a next state (`exec_next`) and none touches the queue (`keeps_pending`). -/
theorem stepRunsFrontRow : Obligations.StepRunsFrontRow := by
  refine ⟨⟨fun c rest s => rfl, fun s idle => ?idle⟩, fun i s => ?row⟩
  case idle =>
    unfold step
    rw [idle]
  case row =>
    obtain ⟨t, runs⟩ := exec_next i s
    exact ⟨t, runs, (keeps_pending s.pending).exec i s t rfl runs⟩

/-! ## IDENTIFY (11, R200) -/

/-- Settles O4: IDENTIFY is admitted everywhere and its owner answers the state it finds. -/
theorem identify : Obligations.Identify := fun tag _ hr => congrArg _ (portCommand_results tag hr rfl rfl)

/-! ## READ_STATUS (11, R201) -/

/-- The entry start shown follows the lane's production state (03, R56). -/
theorem Part.shownStart_eq (p : Part) (l : Lane) : p.shownStart l
    = if (p.lanes.get l).state = .idle then (p.sgt.arrival.get l).map Entry.start else (p.lanes.get l).governing := by
  unfold Part.shownStart Producer.producing
  cases (p.lanes.get l).state <;> rfl

/-- The byte of the four detector states, T1 lowest. -/
def Part.detectorByte (p : Part) : Byte :=
  BitVec.ofNat 8 (p.det.t1.state.code.toNat + 4 * p.det.t2.state.code.toNat + 16 * p.det.t3.state.code.toNat
    + 64 * p.det.t4.state.code.toNat)

/-- The status record in its five stretches: the part, lane A, lane B, the detectors, the counts and flags. -/
theorem Part.statusRecord_eq (p : Part) : p.statusRecord
    = ([p.take.device.code, p.trc.state.code] ++ bytesOf 3 p.pos.position
        ++ bytesOf 1 ((if p.pos.referenced then 1 else 0) + (if p.pos.cassette then 2 else 0)) ++ bytesOf 2 p.take.number)
      ++ (p.laneStatus .a ++ (p.laneStatus .b ++ (p.detectorByte :: (bytesOf 2 p.log.length ++ bytesOf 2 p.lanes.a.fifo.length
        ++ bytesOf 2 p.lanes.b.fifo.length ++ bytesOf 2 (flagSet p.cmn).toNat)))) := by
  have detectors : bytesOf 1 (p.det.t1.state.code.toNat + 4 * p.det.t2.state.code.toNat + 16 * p.det.t3.state.code.toNat
      + 64 * p.det.t4.state.code.toNat) = [p.detectorByte] := by
    simp [bytesOf, Part.detectorByte]
  unfold Part.statusRecord
  rw [detectors]
  simp only [List.append_assoc, List.cons_append, List.nil_append]

theorem DetectorState.code_lt (d : DetectorState) : d.code.toNat < 4 := by cases d <;> decide

/-- Two bits of the byte are the state of one track's detector. -/
theorem Part.detectorByte_bits (p : Part) (tr : Track) :
    p.detectorByte.toNat / 4 ^ (trackCode tr).toNat % 4 = (p.det.get tr).state.code.toNat := by
  have h1 := p.det.t1.state.code_lt
  have h2 := p.det.t2.state.code_lt
  have h3 := p.det.t3.state.code_lt
  have h4 := p.det.t4.state.code_lt
  have value : p.detectorByte.toNat = p.det.t1.state.code.toNat + 4 * p.det.t2.state.code.toNat + 16 * p.det.t3.state.code.toNat
      + 64 * p.det.t4.state.code.toNat :=
    (BitVec.toNat_ofNat _ 8).trans (Nat.mod_eq_of_lt (by omega))
  rw [value]
  cases tr
  case t1 =>
    show _ / 1 % 4 = p.det.t1.state.code.toNat
    omega
  case t2 =>
    show _ / 4 % 4 = p.det.t2.state.code.toNat
    omega
  case t3 =>
    show _ / 16 % 4 = p.det.t3.state.code.toNat
    omega
  case t4 =>
    show _ / 64 % 4 = p.det.t4.state.code.toNat
    omega

/-- Settles O5: READ_STATUS is admitted everywhere, and the record is cut at its stretches (`Part.statusRecord_eq`). -/
theorem readStatus : Obligations.ReadStatus := by
  intro tag s hr
  refine ⟨s.part.statusRecord, s.part.detectorByte, congrArg _ (portCommand_results tag hr rfl rfl), ?_⟩
  rw [s.part.statusRecord_eq]
  refine ⟨rfl, rfl, fun l start shown => ?lane, rfl, fun tr => ?detector, rfl⟩
  case lane =>
    rw [← s.part.shownStart_eq l] at shown
    subst shown
    cases l <;> rfl
  case detector =>
    rw [s.part.detectorByte_bits tr]
    cases (s.part.det.get tr).state <;> rfl

end Sys2Proof.Machine
end

section
/-! SUPPORT and PROOFS. Downstream cells: what each kind of cell comes to, how a message gathers and completes (O31). -/

namespace Sys2Proof.Machine

open Sys2Proof.Safety

/-! ## Command kinds (11, R203) -/

theorem Cmd.ofCode_code (k : Cmd) : Cmd.ofCode k.code = some k := by cases k <;> rfl

/-- The kinds run from 0x01 to 0x1A. -/
theorem Cmd.ofCode_outside {b : Byte} (h : b = 0 ∨ 0x1A < b.toNat) : Cmd.ofCode b = none := by
  have outside : b.toNat = 0 ∨ 26 < b.toNat := h.imp_left (congrArg BitVec.toNat)
  unfold Cmd.ofCode
  split
  case h_27 => rfl
  all_goals omega

theorem Cmd.argLength_le (k : Cmd) : k.argLength ≤ 250 := by cases k <;> decide

/-! ## A complete message (11, R195) -/

/-- A message of an unknown kind is INVALID, one of a wrong length MALFORMED. -/
theorem completeMessage_refused {kind : Byte} {length : Nat} {code : ReplyCode}
    (h : (kind = 0 ∨ 0x1A < kind.toNat) ∧ code = .invalid
      ∨ (∃ k : Cmd, k.code = kind ∧ length ≠ k.argLength) ∧ code = .malformed)
    (tag : Byte) {args : List Byte} (hlength : args.length = length) (s : State) :
    completeMessage kind tag args s = withReply s kind tag code [] := by
  unfold completeMessage
  rcases h with ⟨unknown, rfl⟩ | ⟨⟨k, rfl, wrong⟩, rfl⟩
  · rw [Cmd.ofCode_outside unknown]
    rfl
  · rw [Cmd.ofCode_code]
    exact if_neg (by rwa [hlength])

/-- A message of a known kind and its length whose bytes spell a row runs that row's command. -/
theorem completeMessage_spelled {k : Cmd} {tag : Byte} {args : List Byte} {i : Instr} (hlength : args.length = k.argLength)
    (spelled : readMessage k tag args = some i) (s : State) : completeMessage k.code tag args s = runMessage i s := by
  unfold completeMessage
  rw [Cmd.ofCode_code]
  dsimp only
  rw [if_pos hlength, spelled]

/-! ## Gathering (11, R193, R194) -/

theorem gather_open {m : OpenMessage} {bytes : List Byte} (h : m.args.length + bytes.length < m.length) (s : State) :
    gather m bytes s = s.assembling (some { m with args := m.args ++ bytes }) := by
  unfold gather
  rw [List.take_of_length_le (by omega)]
  exact if_neg (by rw [List.length_append]; omega)

theorem gather_complete {m : OpenMessage} {bytes : List Byte} (h : m.length ≤ m.args.length + bytes.length) (s : State) :
    gather m bytes s = completeMessage m.kind m.tag (m.args ++ bytes.take (m.length - m.args.length)) (s.assembling none) := by
  unfold gather
  exact if_pos (by rw [List.length_append, List.length_take]; omega)

/-! ## Good and bad cells (11, R192; 09, R172) -/

/-- The state with the ACCEPT flag a good cell carries. -/
def State.accepting (s : State) (b : Bool) : State := s.onPart fun p => { p with osc := { p.osc with accept := b } }

theorem State.accepting_assembler (s : State) (b : Bool) : (s.accepting b).part.msp.assembler = s.part.msp.assembler := rfl

theorem byteSum_cell (f a b c d e g check : Byte) : byteSum [f, a, b, c, d, e, g, check] = f + a + b + c + d + e + g + check := by
  show 0 + f + a + b + c + d + e + g + check = _
  rw [zero_add]

theorem goodCell_iff (f a b c d e g check : Byte) : goodCell [f, a, b, c, d, e, g, check] = true
    ↔ (f + a + b + c + d + e + g + check : Byte) = 0 ∧ f.extractLsb' 0 2 ≠ 3 := by
  unfold goodCell
  rw [byteSum_cell]
  simp [Config.cellBytes]

theorem downstreamCell_bad {cell : List Byte} (h : goodCell cell = false) (s : State) : downstreamCell cell s = s.cellError.abandon := by
  unfold downstreamCell
  rw [h]
  rfl

section
variable {f a b c d e g check : Byte} (sum : (f + a + b + c + d + e + g + check : Byte) = 0)
include sum

theorem downstreamCell_empty (kind : f.extractLsb' 0 2 = 0) (s : State) :
    downstreamCell [f, a, b, c, d, e, g, check] s = s.accepting (f.getLsbD 7) := by
  unfold downstreamCell
  rw [if_pos ((goodCell_iff ..).mpr ⟨sum, by rw [kind]; decide⟩)]
  dsimp only [List.headD]
  rw [kind]
  rfl

theorem downstreamCell_start (kind : f.extractLsb' 0 2 = 1) (s : State) :
    downstreamCell [f, a, b, c, d, e, g, check] s = startCell a b c [d, e, g] (s.accepting (f.getLsbD 7)) := by
  unfold downstreamCell
  rw [if_pos ((goodCell_iff ..).mpr ⟨sum, by rw [kind]; decide⟩)]
  dsimp only [List.headD]
  rw [kind]
  rfl

theorem downstreamCell_cont (kind : f.extractLsb' 0 2 = 2) (s : State) :
    downstreamCell [f, a, b, c, d, e, g, check] s = contCell [a, b, c, d, e, g] (s.accepting (f.getLsbD 7)) := by
  unfold downstreamCell
  rw [if_pos ((goodCell_iff ..).mpr ⟨sum, by rw [kind]; decide⟩)]
  dsimp only [List.headD]
  rw [kind]
  rfl

theorem downstreamCell_start_long (kind : f.extractLsb' 0 2 = 1) {s : State} (hr : s.part.ready = true) (long : 250 < c.toNat) :
    downstreamCell [f, a, b, c, d, e, g, check] s = withReply (s.accepting (f.getLsbD 7)) a b .malformed [] :=
  (downstreamCell_start sum kind s).trans ((if_pos hr).trans (if_pos long))

theorem downstreamCell_start_taken (kind : f.extractLsb' 0 2 = 1) {s : State} (hr : s.part.ready = true) (short : c.toNat ≤ 250) :
    downstreamCell [f, a, b, c, d, e, g, check] s = gather ⟨a, b, c.toNat, []⟩ [d, e, g] (s.accepting (f.getLsbD 7)) :=
  (downstreamCell_start sum kind s).trans ((if_pos hr).trans (if_neg (Nat.not_lt.mpr short)))

theorem downstreamCell_start_busy (kind : f.extractLsb' 0 2 = 1) {s : State} (hr : s.part.ready = false) :
    downstreamCell [f, a, b, c, d, e, g, check] s = (s.accepting (f.getLsbD 7)).startRefused :=
  (downstreamCell_start sum kind s).trans (if_neg (Bool.eq_false_iff.mp hr))

theorem downstreamCell_cont_open (kind : f.extractLsb' 0 2 = 2) {s : State} {m : OpenMessage} (opened : s.part.msp.assembler = some m) :
    downstreamCell [f, a, b, c, d, e, g, check] s = gather m [a, b, c, d, e, g] (s.accepting (f.getLsbD 7)) := by
  rw [downstreamCell_cont sum kind, contCell, State.accepting_assembler, opened]

theorem downstreamCell_cont_idle (kind : f.extractLsb' 0 2 = 2) {s : State} (idle : s.part.msp.assembler = none) :
    downstreamCell [f, a, b, c, d, e, g, check] s = (s.accepting (f.getLsbD 7)).cellError := by
  rw [downstreamCell_cont sum kind, contCell, State.accepting_assembler, idle]

end

/-! ## ACCEPT is the cell's, whatever the cell does (09, R172) -/

theorem movesKeep_accept (b : Bool) : MovesKeep fun p => p.osc.accept = b where
  moves m := (congrArg Scheduler.accept m.osc).trans
  link _ _ _ := id
  softBlocks _ _ := id
  position _ _ := id

theorem State.cellError_moves (s : State) : s.part.Moves s.cellError.part :=
  (Part.works_occur _ _ _).moves.trans (Part.moves_takeStop _ _)

theorem State.abandon_osc (s : State) : s.abandon.part.osc = s.part.osc := by rw [s.abandon_eq]

theorem runMessage_accept (i : Instr) (s : State) : (runMessage i s).part.osc.accept = s.part.osc.accept := by
  rcases (movesKeep_accept s.part.osc.accept).owners.message i s rfl with unchanged | ⟨k, tag, owner, runs, kept⟩
  · rw [unchanged]
  · rw [runs]
    show (judge k owner s).state.part.osc.accept = _
    rcases judge_cases k owner s with refused | ⟨admitted, answered⟩
    · rw [refused]
    · rw [answered]
      exact kept admitted

theorem completeMessage_accept (kind tag : Byte) (args : List Byte) (s : State) :
    (completeMessage kind tag args s).part.osc.accept = s.part.osc.accept := by
  unfold completeMessage
  split
  · rfl
  · split
    · split
      · exact runMessage_accept _ s
      · rfl
    · rfl

theorem gather_accept (m : OpenMessage) (bytes : List Byte) (s : State) : (gather m bytes s).part.osc.accept = s.part.osc.accept := by
  unfold gather
  dsimp only
  split
  · exact completeMessage_accept _ _ _ _
  · rfl

theorem startCell_accept (kind tag length : Byte) (bytes : List Byte) (s : State) :
    (startCell kind tag length bytes s).part.osc.accept = s.part.osc.accept := by
  unfold startCell
  split
  · split
    · rfl
    · exact gather_accept _ _ _
  · exact congrArg Scheduler.accept ((State.cellError_moves _).osc.trans s.abandon_osc)

theorem contCell_accept (bytes : List Byte) (s : State) : (contCell bytes s).part.osc.accept = s.part.osc.accept := by
  unfold contCell
  split
  · exact gather_accept _ _ _
  · exact congrArg Scheduler.accept s.cellError_moves.osc

/-- The two low bits of a flags byte that name one of the three kinds. -/
theorem cellKind_cases {x : BitVec 2} (h : x ≠ 3) : x = 0 ∨ x = 1 ∨ x = 2 := by
  revert x
  decide

/-! ## CELL_ERROR (11, R192 to R194) -/

/-- What a cell in error leaves: any open message abandoned with MALFORMED, CELL_ERROR's flag set, and CONDITION_RAISED posted where it
was clear. -/
def State.cellRefused (s : State) : State := { s with part := { s.part with
  cmn := { s.part.cmn with cellError := { s.part.cmn.cellError with flag := true } },
  msp := ⟨none, s.part.msp.replies ++ abandonReplies s.part.msp.assembler,
    if s.part.cmn.cellError.flag then s.part.msp.notices else postNotice (.conditionRaised 0x0004) s.part.msp.notices⟩ } }

section
variable {s : State} (stop : s.part.stopPending = false) (allowed : policiesAllowed s.setup.policies = true)
include stop allowed

theorem State.startRefused_eq : s.startRefused = s.cellRefused := by
  have refused : s.startRefused = s.abandon.onPart (Part.setFlag · .cellError) :=
    State.cellError_eq (by rw [s.abandon_eq]; exact stop) (by rw [s.abandon_eq]; exact allowed)
  rw [refused, s.abandon_eq, State.onPart, Part.setFlag_eq]
  rfl

theorem State.badCell_eq : s.cellError.abandon = s.cellRefused := by
  rw [State.cellError_eq stop allowed, State.abandon_eq, State.onPart, Part.setFlag_eq]
  rfl

theorem State.cellError_idle (idle : s.part.msp.assembler = none) : s.cellError = s.cellRefused := by
  have nothing : s.cellError.abandon = s.cellError := by
    unfold State.abandon
    rw [s.cellError_moves.assembler, idle]
  rw [← nothing, State.badCell_eq stop allowed]

end

/-! ## The statement -/

theorem exec_downstreamCell (cell : List Byte) (s : State) : exec (.downstreamCell cell) s = .next (downstreamCell cell s) := rfl

/-- Settles O31: each kind of cell is a lemma of its own (`downstreamCell_empty` to `downstreamCell_cont_idle`), a cell in error leaves
`State.cellRefused`, and a message gathers (`gather_open`) until it completes (`gather_complete`, `completeMessage_refused`). -/
theorem cellsGather : Obligations.CellsGather := by
  refine ⟨⟨fun f a b c d e g check s sum kind => congrArg _ (downstreamCell_empty sum kind s),
      fun f a b c d e g check s sum kind => ⟨_, exec_downstreamCell _ s, ?accept⟩⟩,
    fun s cell accept stop allowed inError => ?error,
    ⟨fun f kind tag length a b c check s sum start hr more short => ?opens,
      fun f kind tag length a b c check s sum start hr long => congrArg _ (downstreamCell_start_long sum start hr long),
      fun f a b c d e g check m s sum cont opened more => ?gathers⟩,
    fun kind tag length code refused => ⟨fun f a b c check s sum start hr short => ?completesStart,
      fun f a b c d e g check args s sum cont opened more enough => ?completesCont⟩⟩
  case accept =>
    rcases cellKind_cases kind with kind | kind | kind
    · rw [downstreamCell_empty sum kind]
      rfl
    · rw [downstreamCell_start sum kind]
      exact startCell_accept ..
    · rw [downstreamCell_cont sum kind]
      exact contCell_accept ..
  case error =>
    have refused : downstreamCell cell s = (s.accepting accept).cellRefused := by
      rcases inError with ⟨bad, rfl⟩ | ⟨f, kind, tag, length, a, b, c, check, rfl, sum, start, busy, rfl⟩
        | ⟨f, a, b, c, d, e, g, check, rfl, sum, cont, idle, rfl⟩
      · exact (downstreamCell_bad bad s).trans (State.badCell_eq stop allowed)
      · exact (downstreamCell_start_busy sum start busy).trans (State.startRefused_eq (s := s.accepting _) stop allowed)
      · exact (downstreamCell_cont_idle sum cont idle).trans (State.cellError_idle (s := s.accepting _) stop allowed idle)
    exact congrArg _ refused
  case opens =>
    rw [exec_downstreamCell, downstreamCell_start_taken sum start hr short, gather_open (by simpa using more)]
    rfl
  case gathers => exact congrArg _ ((downstreamCell_cont_open sum cont opened).trans (gather_open more _))
  case completesStart =>
    have declared : (BitVec.ofNat 8 length).toNat = length := (BitVec.toNat_ofNat ..).trans (Nat.mod_eq_of_lt (by omega))
    have none_open : (s.accepting (f.getLsbD 7)).assembling none = s.accepting (f.getLsbD 7) :=
      State.assembling_none ((Part.ready_iff _).mp hr).1
    rw [exec_downstreamCell, downstreamCell_start_taken sum start hr (by omega), declared, gather_complete short,
      completeMessage_refused refused tag (by simpa using short), none_open]
    rfl
  case completesCont =>
    rw [exec_downstreamCell, downstreamCell_cont_open sum cont opened, gather_complete enough,
      completeMessage_refused refused tag (by simp only [List.length_append, List.length_take, List.length_cons]; omega)]
    rfl

end Sys2Proof.Machine
end

section
/-! PROOFS. A command delivered in downstream cells against its row (O56). -/

namespace Sys2Proof.Machine

open Sys2Proof.Safety

/-! ## The row a message spells (11, R203) -/

theorem readCoeffs_length : ∀ bytes : List Byte, (readCoeffs bytes).length = bytes.length / 3
  | [] | [_] | [_, _] => by simp [readCoeffs]
  | a :: b :: c :: rest => by
    rw [readCoeffs, List.length_cons, readCoeffs_length rest]
    simp only [List.length_cons]
    omega

/-- A message of its kind's length spells a command, whose list, if it has one, is of the right length. -/
theorem readMessage_command {k : Cmd} {tag : Byte} {args : List Byte} {i : Instr} (hlength : args.length = k.argLength)
    (spelled : readMessage k tag args = some i) : isCommand i = true ∧ WellFormed i = true := by
  have mapped {α : Type} {row : α → Instr} {x : Option α} (hrow : ∀ y, isCommand (row y) = true ∧ WellFormed (row y) = true)
      (h : x.map row = some i) : isCommand i = true ∧ WellFormed i = true := by
    obtain ⟨y, -, rfl⟩ := Option.map_eq_some_iff.mp h
    exact hrow y
  cases k
  case loadCoeffRow =>
    match args, hlength with
    | row :: rest, bytes =>
      cases spelled
      have bytes : rest.length + 1 = 97 := bytes
      refine ⟨rfl, beq_iff_eq.mpr ?_⟩
      rw [readCoeffs_length]
      omega
  case setNoticeMask =>
    cases spelled
    exact ⟨rfl, beq_iff_eq.mpr hlength⟩
  case setDeck | survey | loadSegment => exact mapped (fun _ => ⟨rfl, rfl⟩) spelled
  case identify | readStatus | softReset | rewindToLeader | stop | clearSegments | clearConditions =>
    obtain rfl := List.length_eq_zero_iff.mp hlength
    cases spelled
    exact ⟨rfl, rfl⟩
  case setState | lockTables | selectBank | wind | readSegment | readDropouts =>
    obtain ⟨a, rfl⟩ := List.length_eq_one_iff.mp hlength
    cases spelled
    exact ⟨rfl, rfl⟩
  case setMonitor | setOutput =>
    obtain ⟨a, b, rfl⟩ := List.length_eq_two.mp hlength
    cases spelled
    exact ⟨rfl, rfl⟩
  case setPosition | seek | deleteSegment =>
    obtain ⟨a, b, c, rfl⟩ := List.length_eq_three.mp hlength
    cases spelled
    exact ⟨rfl, rfl⟩
  case startTake | setPolicy =>
    obtain ⟨a, b, c, d, rfl⟩ := List.length_eq_four.mp hlength
    cases spelled
    exact ⟨rfl, rfl⟩
  case setRates =>
    match args, hlength with
    | [a, b, c, d, e, f], _ =>
      cases spelled
      exact ⟨rfl, rfl⟩

/-- With READY set, a well-formed command's row is the command run. -/
theorem exec_command_ready {i : Instr} {s : State} (hc : isCommand i = true) (sized : WellFormed i = true)
    (hr : s.part.ready = true) : exec i s = .next (runMessage i s) := by
  cases i
  case loadCoeffRow | setNoticeMask => exact congrArg _ ((if_pos hr).trans (if_pos sized))
  all_goals first | exact absurd hc Bool.false_ne_true | exact congrArg _ (if_pos hr)

/-! ## Cells as the workstation sends them (11, R192 to R194, R203) -/

/-- The flags byte of a kind's code and the ACCEPT flag. -/
def sentFlags (accept : Bool) (code : Byte) : Byte := if accept then code + 0x80 else code

theorem sentFlags_accept {code : Byte} (h : code = 1 ∨ code = 2) (accept : Bool) : (sentFlags accept code).getLsbD 7 = accept := by
  rcases h with rfl | rfl <;> cases accept <;> rfl

/-- A cell of a kind's code, the ACCEPT flag and six payload bytes, with its check byte. -/
def sentCell (accept : Bool) (code : Byte) (payload : List Byte) : List Byte :=
  (sentFlags accept code :: payload) ++ [checkByte (sentFlags accept code :: payload)]

theorem sentCell_sum (f a b c d e g : Byte) : (f + a + b + c + d + e + g + checkByte [f, a, b, c, d, e, g] : Byte) = 0 :=
  (byteSum_cell ..).symm.trans (byteSum_checkByte [f, a, b, c, d, e, g])

theorem commandCells_eq (accept : Bool) (kind tag : Byte) (args : List Byte) : commandCells accept kind tag args
    = sentCell accept 1 ([kind, tag, BitVec.ofNat 8 args.length] ++ padTo 3 (args.take 3))
      :: commandCells.conts (sentCell accept) args.length (args.drop 3) := rfl

theorem conts_nil (accept : Bool) (fuel : Nat) : commandCells.conts (sentCell accept) fuel [] = [] := by cases fuel <;> rfl

theorem conts_succ (accept : Bool) (fuel : Nat) {rest : List Byte} (h : rest ≠ []) : commandCells.conts (sentCell accept) (fuel + 1) rest
    = sentCell accept 2 (padTo 6 (rest.take 6)) :: commandCells.conts (sentCell accept) fuel (rest.drop 6) := by
  cases rest with
  | nil => exact absurd rfl h
  | cons => rfl

theorem padTo_take_length (n : Nat) (bytes : List Byte) : (padTo n (bytes.take n)).length = n := by
  simp only [padTo, List.length_append, List.length_take, List.length_replicate]
  omega

/-- A full piece is sent without padding. -/
theorem padTo_take_full {n : Nat} {bytes : List Byte} (h : n ≤ bytes.length) : padTo n (bytes.take n) = bytes.take n := by
  rw [padTo, List.length_take, Nat.min_eq_left h, Nat.sub_self, List.replicate_zero, List.append_nil]

/-- Of a padded piece, as many bytes as are left to send are the piece itself. -/
theorem take_padTo_take (n : Nat) (bytes : List Byte) : (padTo n (bytes.take n)).take bytes.length = bytes.take n := by
  rcases Nat.le_total bytes.length n with short | long
  · rw [padTo, List.take_of_length_le short, List.take_left]
  · rw [padTo_take_full long, List.take_take, Nat.min_eq_right long]

/-- A padded piece of the bytes an open message wants: the message is complete if they end in it. -/
theorem gather_padded {m : OpenMessage} {rest : List Byte} (wants : m.length = m.args.length + rest.length) (n : Nat) (s : State) :
    gather m (padTo n (rest.take n)) s
      = if rest.length ≤ n then completeMessage m.kind m.tag (m.args ++ rest) (s.assembling none)
        else s.assembling (some { m with args := m.args ++ rest.take n }) := by
  have piece := padTo_take_length n rest
  split
  case isTrue ends =>
    rw [gather_complete (by omega), wants, Nat.add_sub_cancel_left, take_padTo_take, List.take_of_length_le ends]
  case isFalse goesOn =>
    rw [gather_open (by omega), padTo_take_full (by omega)]

/-- A cell that carries the ACCEPT flag the part holds leaves it. -/
theorem State.accepting_sentFlags {code : Byte} (h : code = 1 ∨ code = 2) (s : State) :
    s.accepting ((sentFlags s.part.osc.accept code).getLsbD 7) = s := by
  rw [sentFlags_accept h]
  rfl

theorem downstreamCell_sentStart {kind tag length : Byte} {payload : List Byte} {s : State} (hpayload : payload.length = 3)
    (hr : s.part.ready = true) (short : length.toNat ≤ 250) :
    downstreamCell (sentCell s.part.osc.accept 1 ([kind, tag, length] ++ payload)) s
      = gather ⟨kind, tag, length.toNat, []⟩ payload s := by
  obtain ⟨a, b, c, rfl⟩ := List.length_eq_three.mp hpayload
  have start : (sentFlags s.part.osc.accept 1).extractLsb' 0 2 = 1 := by cases s.part.osc.accept <;> rfl
  exact (downstreamCell_start_taken (sentCell_sum ..) start hr short).trans
    (congrArg _ (s.accepting_sentFlags (.inl rfl)))

theorem downstreamCell_sentCont {m : OpenMessage} {payload : List Byte} {s : State} (hpayload : payload.length = 6)
    (opened : s.part.msp.assembler = some m) :
    downstreamCell (sentCell s.part.osc.accept 2 payload) s = gather m payload s := by
  match payload, hpayload with
  | [a, b, c, d, e, g], _ =>
    have cont : (sentFlags s.part.osc.accept 2).extractLsb' 0 2 = 2 := by cases s.part.osc.accept <;> rfl
    exact (downstreamCell_cont_open (sentCell_sum ..) cont opened).trans (congrArg _ (s.accepting_sentFlags (.inr rfl)))

theorem afterRows_cell (cell : List Byte) (cells : List (List Byte)) (s : State) :
    afterRows s ((cell :: cells).map Instr.downstreamCell) = afterRows (downstreamCell cell s) (cells.map Instr.downstreamCell) := rfl

/-- CONT cells that carry what an open message still wants complete it. -/
theorem afterRows_conts {kind tag : Byte} (fuel : Nat) (got rest : List Byte) (s : State) (some_left : rest ≠ [])
    (enough : rest.length ≤ fuel) (opened : s.part.msp.assembler = some ⟨kind, tag, got.length + rest.length, got⟩) :
    afterRows s ((commandCells.conts (sentCell s.part.osc.accept) fuel rest).map Instr.downstreamCell)
      = completeMessage kind tag (got ++ rest) (s.assembling none) := by
  induction fuel generalizing got rest s with
  | zero => exact absurd (List.length_eq_zero_iff.mp (Nat.le_zero.mp enough)) some_left
  | succ fuel ih =>
    rw [conts_succ _ _ some_left, afterRows_cell, downstreamCell_sentCont (padTo_take_length 6 rest) opened, gather_padded rfl]
    split
    case isTrue ends =>
      rw [List.drop_eq_nil_of_le ends, conts_nil]
      rfl
    case isFalse goesOn =>
      have left : (rest.drop 6).length = rest.length - 6 := List.length_drop
      have split_rest : got ++ rest = (got ++ rest.take 6) ++ rest.drop 6 := by
        rw [List.append_assoc, List.take_append_drop]
      have wanted : got.length + rest.length = (got ++ rest.take 6).length + (rest.drop 6).length := by
        rw [← List.length_append, ← List.length_append, split_rest]
      rw [split_rest, wanted]
      exact ih _ _ (s.assembling _) (List.ne_nil_of_length_pos (by omega)) (by omega) rfl

/-- A message sent in cells to a part with READY set completes with all its bytes. -/
theorem afterRows_commandCells {kind tag : Byte} {args : List Byte} {s : State} (hr : s.part.ready = true) (short : args.length ≤ 250) :
    afterRows s ((commandCells s.part.osc.accept kind tag args).map Instr.downstreamCell) = completeMessage kind tag args s := by
  have declared : (BitVec.ofNat 8 args.length).toNat = args.length := (BitVec.toNat_ofNat ..).trans (Nat.mod_eq_of_lt (by omega))
  have none_open : s.assembling none = s := State.assembling_none ((Part.ready_iff _).mp hr).1
  rw [commandCells_eq, afterRows_cell, downstreamCell_sentStart (padTo_take_length 3 args) hr (by omega), declared,
    gather_padded (Nat.zero_add _).symm]
  split
  case isTrue ends =>
    rw [List.drop_eq_nil_of_le ends, conts_nil, none_open]
    rfl
  case isFalse goesOn =>
    have left : (args.drop 3).length = args.length - 3 := List.length_drop
    have whole : args.take 3 ++ args.drop 3 = args := List.take_append_drop 3 args
    have wanted : args.length = (args.take 3).length + (args.drop 3).length := by rw [← List.length_append, whole]
    have completes := afterRows_conts (kind := kind) (tag := tag) args.length (args.take 3) (args.drop 3)
      (s.assembling (some ⟨kind, tag, args.length, args.take 3⟩)) (List.ne_nil_of_length_pos (by omega)) (by omega)
      (congrArg (fun n => some (⟨kind, tag, n, args.take 3⟩ : OpenMessage)) wanted)
    rw [whole] at completes
    exact completes.trans (congrArg _ none_open)

/-- Settles O56: the row is its command run (`exec_command_ready`), and so is the message its cells complete (`afterRows_commandCells`,
`completeMessage_spelled`). -/
theorem cellsDeliverCommand : Obligations.CellsDeliverCommand := by
  intro k tag args i s hr hlength spelled
  obtain ⟨command, sized⟩ := readMessage_command hlength spelled
  rw [exec_command_ready command sized hr, afterRows_commandCells hr (hlength ▸ k.argLength_le), completeMessage_spelled hlength spelled]

end Sys2Proof.Machine
end
